-- ==== Sys2Proof/Word.lean ====
section
/-! DEFINITION. The byte of the device's memories and the plain-number synonyms the model computes with. -/
namespace Sys2Proof

/-- One byte of memory. -/
abbrev Byte := BitVec 8

/-- An address of the 64-bit device address space (00 Scope and conventions, "Address spaces"). -/
abbrev Addr := Nat

/-- A stamp or a length of time in ticks of the 64-bit nanosecond timebase (R9). -/
abbrev Nanos := Nat

end Sys2Proof
end

