-- ==== Sys2Proof/Messages.lean ====
section
/-! DEFINITION. The messages of the Briaris links (Tables 10.2 to 10.4) as data: the flit header fields that a receiver
acts on, and the payload of each message type. -/
namespace Sys2Proof

/-- The header of the flits of one message: sequence number of its first flit, latest ack carried, credits returned
(`cred` on virtual channel `credVc`), destination and source identities. -/
structure Flit where
  seq : Nat
  ack : Nat
  credVc : Nat
  cred : Nat
  dst : Nat
  src : Nat
deriving DecidableEq, Repr

/-- The census of one scale slot (R88, Table 3.6). `amax` is an FP32 magnitude rounded toward plus infinity; `hist`
holds bins 0 to 31; `blocked` says that a block-scaled tensor was converted. -/
structure Census where
  total : Nat
  overflow : Nat
  underflow : Nat
  nonfinite : Nat
  amax : Nat
  hist : List Nat
  blocked : Bool
deriving DecidableEq, Repr

/-- An exact value as it travels: a 16-byte packed entry (Table 4.3) and, when it is escalated, its 128-byte record. -/
structure ExactCode where
  entry : Nat
  record : Nat
deriving DecidableEq, Repr

/-- What a module or node sends up the step tree (R181, R301): its condition mask (R351), census by slot, the sums of
R178 and R194, and whether the reduction below it could not complete (LINK_LOSS sent up in place of the partial). -/
structure StepPart where
  mask : Nat
  census : List (Nat × Census)
  n2 : ExactCode
  l2 : ExactCode
  lost : Bool
deriving DecidableEq, Repr

/-- A STEP_MSG (R301): a partial that child `child` of `node` sends up, or the result that comes down tree 0 to the
holders below `node`. `tag` names the epoch, `comm` the communicator, `group` the step group. -/
inductive StepMsg where
  | up (comm group tag node child : Nat) (part : StepPart)
  | down (comm group tag node : Nat) (part : StepPart)
deriving DecidableEq, Repr

/-- A chunk of a collective (R298, R299): communicator, the count of the collective over it, chunk index, node, the
element values with their linear indices `pos`, and on an upward edge the listed child it comes from; on a downward edge to a leaf, `leafEdge` is set and
`child` is the leaf. `digest` is compared at the first collective after a load (R297); `status` is the status by which a
part below or the root failed (0: none), `info` the result flags of the root (Table 12.18). `parted` holds the elements
of block-scaled blocks that an edge of the chunk cuts, as they were reduced. A comparison of fingerprints (R192) travels in
the same form: `total` names the shard, `vals` the distinct values, `pos` how many leaves hold each, and `info` 1 says on
the way down that the replicas differ. -/
structure CollChunk where
  comm : Nat
  inst : Nat
  chunk : Nat
  node : Nat
  up : Bool
  child : Nat
  op : Nat
  mode : Nat
  total : Nat
  digest : Nat
  leafEdge : Bool
  status : Nat
  info : Nat
  pos : List Nat
  vals : List Nat
  parted : List (Nat × Nat)
deriving DecidableEq, Repr

/-- A spill record that follows its entry (R129): the place of the chunk as in `CollChunk`, the element, the record. -/
structure CollSpill where
  comm : Nat
  inst : Nat
  chunk : Nat
  node : Nat
  child : Nat
  element : Nat
  record : Nat
deriving DecidableEq, Repr

/-- The payload of a message (Table 10.3): offsets under R290, request tags, data. -/
inductive Payload where
  | wr (offset tag : Nat) (data : List Byte)
  | rdReq (offset tag len : Nat)
  | semOp (tag op sem amount : Nat)
  | probe (tag : Nat)
  | rdResp (tag : Nat) (data : List Byte)
  | wrAck (tag : Nat)
  | semAck (tag : Nat)
  | probeResp (tag : Nat)
  | errResp (tag status : Nat)
  | collData (c : CollChunk)
  | collSpill (c : CollSpill)
  | stepMsg (m : StepMsg)
  | linkMgmt (peerId peerPort laneMask : Nat)
deriving DecidableEq, Repr

/-- A message on its way: destination, source, payload. -/
structure Message where
  dst : Nat
  src : Nat
  payload : Payload
deriving DecidableEq, Repr

/-- What is wrong with a flit that a receiver discards: its CRC, an uncorrectable codeword under it, a number ahead of the
expected one, or a type that is reserved or on the wrong channel. -/
inductive FlitFault where | crc | codeword | ahead | protocol
deriving DecidableEq, Repr

/-- What waits for a unit under reset: a command, or the request of a peer (its place in the order of arrival). -/
inductive Waiter where
  | command (ring seq : Nat)
  | request (i : Nat)
deriving DecidableEq, Repr

/-- The ways to a port-level reset (R333). -/
inductive PortReset where | perst | hotReset | linkDown | flr
deriving DecidableEq, Repr

end Sys2Proof
end

