-- ==== Sys2Proof/Syntax.lean ====
section
/-! DEFINITION. The commands of the block: one constructor for each row of the opcode table, with the operands that the
manual gives the row. A command is something from outside the device or an event inside it: a Kelcen command that the ring
scheduler takes, a write of a register, a message on a link, the expiry of a timer, an event on a pin. -/
namespace Sys2Proof

/-- The commands. `ring` counts Kelcen rings, `seq` names a taken command by its count, `port` a host port, `ch` a mailbox
channel, `link` a Briaris link, `flit` the header of a message's flits; values written are bit vectors. -/
inductive Instr where
  /-- MM: a matrix product is taken (R342). -/
  | mm (ring : Nat)
  /-- CONV: a convolution or stencil is taken (R344). -/
  | conv (ring : Nat)
  /-- SLICE_MM: a slice-mode product is taken (R343). -/
  | sliceMm (ring : Nat)
  /-- ROW: a Cardamom row command is taken (R345). -/
  | row (ring : Nat)
  /-- VEC: a vector-unit command is taken (R346). -/
  | vec (ring : Nat)
  /-- COPY: a bulk transfer is taken (R246). -/
  | copy (ring : Nat)
  /-- MCAST: a multicast is taken (R263). -/
  | mcast (ring : Nat)
  /-- FENNEL_PUT: a small transfer is taken (R251). -/
  | fennelPut (ring : Nat)
  /-- SEM_WAIT: a bare wait is taken (R348). -/
  | semWait (ring : Nat)
  /-- SEM_SIGNAL: a semaphore operation is taken (R348). -/
  | semSignal (ring : Nat)
  /-- ALLREDUCE: an all-reduce is taken (R298). -/
  | allreduce (ring : Nat)
  /-- REDUCE: a reduction to leaf 0 is taken (R298). -/
  | reduce (ring : Nat)
  /-- BROADCAST: a broadcast is taken (R349). -/
  | broadcast (ring : Nat)
  /-- ALLGATHER: an all-gather is taken (R349). -/
  | allgather (ring : Nat)
  /-- TREE_LOAD: a tree table load is taken (R297). -/
  | treeLoad (ring : Nat)
  /-- ROUTE_LOAD: a routing table load is taken (R350). -/
  | routeLoad (ring : Nat)
  /-- UPD_BIND: a shard bind is taken (R353). -/
  | updBind (ring : Nat)
  /-- UPD_UNBIND: a shard unbind is taken (R353). -/
  | updUnbind (ring : Nat)
  /-- STEP_OPEN: a STEP_OPEN is taken (R15). -/
  | stepOpen (ring : Nat)
  /-- STEP_OPEN_HELD_START: the held STEP_OPEN of a group takes effect (R15). -/
  | stepOpenHeldStart (group : Nat)
  /-- STEP_CLOSE: a STEP_CLOSE is taken (R181). -/
  | stepClose (ring : Nat)
  /-- STEP_CLOSE_REDUCE: the drained epoch of a group is reduced (R181). -/
  | stepCloseReduce (group : Nat)
  /-- SCALE_SET: a SCALE_SET is taken (R96). -/
  | scaleSet (ring : Nat)
  /-- CENSUS_READ: a census read is taken (R472). -/
  | censusRead (ring : Nat)
  /-- DIGEST: a digest is taken (R473). -/
  | digest (ring : Nat)
  /-- FENCE: a fence is taken (R348). -/
  | fence (ring : Nat)
  /-- TIMESTAMP: a timestamp is taken (R348). -/
  | timestamp (ring : Nat)
  /-- NOP: a NOP is taken (R348). -/
  | nop (ring : Nat)
  /-- BAD_OPCODE: an entry whose opcode is in no table is taken (R335). -/
  | badOpcode (ring : Nat)
  /-- WAIT_RESUME: a command whose wait is reached resumes (R259). -/
  | waitResume (ring seq : Nat)
  /-- COMMAND_COMPLETE: a command whose writes have committed completes (R336). -/
  | commandComplete (ring seq : Nat)
  /-- IRQ_COALESCE_TIMEOUT: the oldest pending record of a ring has waited its time (R321). -/
  | irqCoalesceTimeout (ring : Nat)
  /-- STEP_MSG: a step message arrives (R301). -/
  | stepMsg (link : Nat) (flit : Flit) (msg : StepMsg)
  /-- STEP_CLOSE_TIMEOUT: close_timeout passes in a group (R301). -/
  | stepCloseTimeout (group : Nat)
  /-- UPD_PHASE_DONE: the writes of a phase of a shard are acknowledged (R168). -/
  | updPhaseDone (shard : Nat)
  /-- FINGERPRINT_COMPARE: the fingerprint of a shard is sent for comparison (R192). -/
  | fingerprintCompare (shard : Nat)
  /-- FINGERPRINT_RESULT: the fingerprints of a shard's replicas are compared, and where they differ so are those of their
  1 MiB regions (R193). `agreed` and `regions` are what its sender knows of the outcome; the device finds its own from the
  values it received and reads neither. (DESIGN CHOICE 58) -/
  | fingerprintResult (shard : Nat) (agreed : Bool) (regions : List Nat)
  /-- COPY_SCRUB: a line of the working copies of a shard is derived again (R177). -/
  | copyScrub (shard : Nat)
  /-- COLL_DATA: a chunk of a collective arrives (R298). -/
  | collData (link : Nat) (flit : Flit) (chunk : CollChunk)
  /-- COLL_SPILL: a spill record arrives after its entry (R129). -/
  | collSpill (link : Nat) (flit : Flit) (spill : CollSpill)
  /-- WR: a write request of a peer arrives (R291). -/
  | wr (link : Nat) (flit : Flit) (offset tag : Nat) (data : List Byte)
  /-- RD_REQ: a read request of a peer arrives (R291). -/
  | rdReq (link : Nat) (flit : Flit) (offset tag len : Nat)
  /-- SEM_OP: a semaphore operation of a peer arrives (R292). -/
  | semOp (link : Nat) (flit : Flit) (tag op sem amount : Nat)
  /-- PROBE: a probe of a peer arrives (R295). -/
  | probe (link : Nat) (flit : Flit) (tag : Nat)
  /-- RD_RESP: read data of a peer arrives (R291). -/
  | rdResp (link : Nat) (flit : Flit) (tag : Nat) (data : List Byte)
  /-- WR_ACK: the acknowledgement of a remote write arrives (R292). -/
  | wrAck (link : Nat) (flit : Flit) (tag : Nat)
  /-- SEM_ACK: the acknowledgement of a remote semaphore operation arrives (R292). -/
  | semAck (link : Nat) (flit : Flit) (tag : Nat)
  /-- PROBE_RESP: a probe response arrives (R295). -/
  | probeResp (link : Nat) (flit : Flit) (tag : Nat)
  /-- ERR_RESP: an error response arrives (R291). -/
  | errResp (link : Nat) (flit : Flit) (tag status : Nat)
  /-- LINK_MGMT: a management flit gives the identity, port and lane mask of the peer (R279). -/
  | linkMgmt (link peerId peerPort laneMask : Nat)
  /-- NACK: a NACK arrives (R284). -/
  | nack (link ack credVc cred seq : Nat)
  /-- IDLE: an IDLE flit arrives (R283). -/
  | idle (link ack credVc cred : Nat)
  /-- CORRUPT_FLIT: a flit is discarded (R284). -/
  | corruptFlit (link : Nat) (why : FlitFault)
  /-- ACK_STALL_REPLAY: acks have not advanced for 20 µs (R284). -/
  | ackStallReplay (link : Nat)
  /-- ACK_STALL_RETRAIN: acks have not advanced for 1 ms (R285). -/
  | ackStallRetrain (link : Nat)
  /-- LINK_TRAIN_DONE: training ends, with the lanes that trained (R279). -/
  | linkTrainDone (link : Nat) (ok : Bool) (lanes : Nat)
  /-- LINK_RETRY_TIMER: a down link tries again (R285). -/
  | linkRetryTimer (link : Nat)
  /-- LANE_WINDOW_END: a window of 1 s ends, with the symbols corrected on each lane (R278). -/
  | laneWindowEnd (link sym0 sym1 sym2 sym3 : Nat)
  /-- RESP_TIMEOUT: a request has had no response within resp_timeout (R293). -/
  | respTimeout (tag : Nat)
  /-- PROBE_TICK: probe_ms passes (R295). -/
  | probeTick
  /-- PEER_UNREACHABLE: a watched peer has answered no probe within probe_timeout (R295). -/
  | peerUnreachable (peer : Nat)
  /-- KRING_DB_SQ: a submission doorbell is written (R312). -/
  | kringDbSq (port ring : Nat) (count : BitVec 32)
  /-- KRING_DB_CQ: a completion doorbell is written (R317). -/
  | kringDbCq (port ring : Nat) (count : BitVec 32)
  /-- RING_ENABLE: KRING_CFG.enable is set (R311). -/
  | ringEnable (port ring : Nat)
  /-- RING_DISABLE: KRING_CFG.enable is cleared (R318). -/
  | ringDisable (port ring : Nat)
  /-- RING_ABORT: KRING_CTL.abort is written (R318). -/
  | ringAbort (port ring : Nat)
  /-- RING_CLEAR_ERR: KRING_CTL.clear_err is written (R314). -/
  | ringClearErr (port ring : Nat)
  /-- RING_FETCH_ERROR: the fetch of the next entry of a ring fails (R314). -/
  | ringFetchError (ring : Nat)
  /-- MSIX_UNMASK: a vector is unmasked (R321). -/
  | msixUnmask (port vector : Nat)
  /-- HEARTBEAT_WRITE: HP_HEARTBEAT is written (R323). -/
  | heartbeatWrite (port : Nat) (value : BitVec 32)
  /-- HEARTBEAT_TIMEOUT: hb_timeout passes without a heartbeat (R323). -/
  | heartbeatTimeout (port : Nat)
  /-- ORPHAN_READ_ABANDON: 10 µs have passed in orphan hold (R324). -/
  | orphanReadAbandon (port : Nat)
  /-- ORPHAN_CLOSE_TIMEOUT: orphan_close has passed in orphan hold (R325). -/
  | orphanCloseTimeout (port : Nat)
  /-- ATTACH: attach is written to HP_ATTACH (R323). -/
  | attach (port : Nat)
  /-- RESUME: resume is written to HP_ATTACH (R327). -/
  | resume (port : Nat)
  /-- RESET_RINGS: reset_rings is written to HP_ATTACH (R327). -/
  | resetRings (port : Nat)
  /-- DETACH: detach is written to HP_ATTACH (R323). -/
  | detach (port : Nat)
  /-- ADOPT: adopt is written to HP_ADOPT (R329). -/
  | adopt (port : Nat)
  /-- PORT_LEVEL_RESET: a port-level reset (R333). -/
  | portLevelReset (port : Nat) (how : PortReset)
  /-- PERST_RELEASE: PERST# of a port is released (R466). -/
  | perstRelease (port : Nat)
  /-- D3HOT_ENTRY: the function of a port goes to D3hot (R334). -/
  | d3hotEntry (port : Nat)
  /-- D0_RETURN: the function of a port returns to D0 (R334). -/
  | d0Return (port : Nat)
  /-- ATS_INVALIDATION: an ATS invalidation arrives (R305). -/
  | atsInvalidation (port tag : Nat)
  /-- EVT_STATUS_CLEAR: HP_EVT_STATUS of a bank is written (R461). -/
  | evtStatusClear (port bank : Nat) (value : BitVec 64)
  /-- EVT_EN_WRITE: HP_EVT_EN of a bank is written (R461). -/
  | evtEnWrite (port bank : Nat) (value : BitVec 64)
  /-- SEM_VALUE_WRITE: SEM_VALUE is written: part 0 its low word, 1 its high word, 2 both (R255). -/
  | semValueWrite (port sem part : Nat) (value : BitVec 64)
  /-- SIDE_INVAL: CARD_CTL.side_inval is written (R149). -/
  | sideInval (port core : Nat)
  /-- ARR_CNT_CLEAR: ARR_CTL.cnt_clear is written (R10). -/
  | arrCntClear (port array : Nat)
  /-- SAF_CNT_CLEAR: SAF_CTL.cnt_clear is written (R10). -/
  | safCntClear (port array : Nat)
  /-- CARD_CNT_CLEAR: CARD_CTL.cnt_clear is written (R10). -/
  | cardCntClear (port core : Nat)
  /-- LOCK_SET: a lock bit is written, by its place in lockFields (R444). -/
  | lockSet (port lock : Nat)
  /-- SPILL_HWM_READ: SAF_SPILL_HWM is read (R10). -/
  | spillHwmRead (port die : Nat)
  /-- REGISTER_WRITE: a write of 4 or 8 bytes at an offset of a BAR (R10, R307). -/
  | registerWrite (port bar offset size : Nat) (value : BitVec 64)
  /-- MBX_DOORBELL: MBX_CH_DB is written by a master identity (R383). -/
  | mbxDoorbell (ident ch length : Nat)
  /-- MBX_DONE_CLEAR: 1 is written to MBX_CH_STATUS.done (R383). -/
  | mbxDoneClear (ident ch : Nat)
  /-- MBX_CH_WAKE: 1 is written to MBX_CH_WAKE (R385). -/
  | mbxChWake (ident ch : Nat)
  /-- HELLO: a service takes the HELLO of a channel (R371). -/
  | hello (ch lowest highest : Nat)
  /-- LOAD: the boot ROM takes the LOAD of a channel (R368). -/
  | load (ch addr length : Nat)
  /-- FW_RUNNING: every compartment has started (R369). -/
  | fwRunning
  /-- STAGE: the firmware takes the STAGE of a channel (R372). -/
  | stage (ch addr length : Nat)
  /-- ACTIVATE: the firmware takes the ACTIVATE of a channel (R373). -/
  | activate (ch : Nat)
  /-- CANCEL: the firmware takes the CANCEL of a channel (R373). -/
  | cancel (ch : Nat)
  /-- STATUS: the firmware takes the STATUS of a channel (R371). -/
  | status (ch : Nat)
  /-- ACTIVATION_PROCEED: a deferred activation proceeds (R373). -/
  | activationProceed
  /-- ACTIVATION_EXPIRED: a deferral has lasted max_defer (R373). -/
  | activationExpired
  /-- HANDOVER_RESUME: the new image serves (R375). -/
  | handoverResume
  /-- HANDOVER_CONFIRM: the new image confirms (R375). -/
  | handoverConfirm
  /-- HANDOVER_TIMEOUT: t_f + 250 ms passes without confirmation (R376). -/
  | handoverTimeout
  /-- COMPARTMENT_FAULT: a compartment faults, with its cause (R363). -/
  | compartmentFault (comp cause : Nat)
  /-- COMPARTMENT_WATCHDOG_EXPIRY: the watchdog of a compartment expires (R363). -/
  | compartmentWatchdogExpiry (comp : Nat)
  /-- COMPARTMENT_RESTARTED: a compartment serves again (R363). -/
  | compartmentRestarted (comp : Nat)
  /-- SET_CAP: the SET_CAP request of a channel is taken (R386). -/
  | setCap (ch watts : Nat)
  /-- SET_PROFILE: the SET_PROFILE request of a channel is taken (R386). -/
  | setProfile (ch profile : Nat)
  /-- PROFILE_SWITCH: the requested profile takes effect (R397). -/
  | profileSwitch
  /-- SET_PRIORITY: the SET_PRIORITY request of a channel is taken (R386). -/
  | setPriority (ch code : Nat)
  /-- SET_CLASS_WEIGHTS: the SET_CLASS_WEIGHTS request of a channel is taken (R386). -/
  | setClassWeights (ch w0 w1 w2 w3 : Nat)
  /-- SET_DEPTH_RANGE: the SET_DEPTH_RANGE request of a channel is taken (R386). -/
  | setDepthRange (ch lowest highest : Nat)
  /-- GET_POLICY: the GET_POLICY request of a channel is taken (R386). -/
  | getPolicy (ch : Nat)
  /-- QUOTE: a quote is asked for (R449). -/
  | quote (ch : Nat)
  /-- GET_CERT: the certificate is asked for (R440). -/
  | getCert (ch : Nat)
  /-- SIGN: a signature is asked for (R449). -/
  | sign (ch : Nat)
  /-- CONFIG_STAGE: a configuration image is staged (R438). -/
  | configStage (ch addr length : Nat)
  /-- FLOOR_RAISE: the firmware floor is raised (R441). -/
  | floorRaise (ch : Nat)
  /-- GET_CHALLENGE: a debug challenge is asked for (R450). -/
  | getChallenge (ch : Nat)
  /-- UNLOCK: a debug token is presented (R450). -/
  | unlock (ch : Nat)
  /-- RESET_PACKAGE: a warm package reset is asked for (R447). -/
  | resetPackage (ch : Nat)
  /-- RESET_DIE: a die reset is asked for (R447). -/
  | resetDie (ch die : Nat)
  /-- RESET_CORE: a core reset is asked for (R447). -/
  | resetCore (ch core : Nat)
  /-- RESET_STACK: a stack base reset is asked for (R447). -/
  | resetStack (ch stack : Nat)
  /-- RESET_LINK: a link reset is asked for (R447). -/
  | resetLink (ch link : Nat)
  /-- CLEAR_PINNED: pinned records are cleared (R425). -/
  | clearPinned (ch seq : Nat)
  /-- QUIESCE_FORCED_IDLE: ports of a core (kind 1) or die (2) are forced idle and rows of commands are lost (R220). -/
  | quiesceForcedIdle (kind unit rows : Nat) (lost : List (Nat × Nat))
  /-- DIE_RESET_RELEASE: the reset of a die is released (R262). -/
  | dieResetRelease (die : Nat)
  /-- CORE_RESET_RELEASE: the reset of a core is released (R218). -/
  | coreResetRelease (core : Nat)
  /-- LYR_HOLD_LIMIT: hold_limit passes for what waits on a core (R219). -/
  | lyrHoldLimit (who : Waiter)
  /-- STACK_BASE_RESET_DONE: the reset of a stack base is done (R241). -/
  | stackBaseResetDone (stack : Nat)
  /-- MEM_HOLD_LIMIT: hold_limit passes for what waits on a stack (R242). -/
  | memHoldLimit (who : Waiter)
  /-- PKG_RESET_PIN: PKG_RESET_N has been low for 1 µs (R446). -/
  | pkgResetPin
  /-- POWER_APPLY: the input is applied (R442). -/
  | powerApply
  /-- MAIN_POWER_STABLE: the input has stood above 44 V for 10 ms (R442). -/
  | mainPowerStable
  /-- INPUT_REMOVED: the input is lost (R209). -/
  | inputRemoved
  /-- INPUT_SAMPLE: voltage, current and losses of a microsecond (R388). -/
  | inputSample (millivolts centiamps lossWatts : Nat)
  /-- INPUT_UNDERVOLTAGE: the input has been below 44 V for 10 µs (R388). -/
  | inputUndervoltage
  /-- UNDERVOLTAGE_CLEAR: the input has been above 45 V for 1 ms (R388). -/
  | undervoltageClear
  /-- UNDERVOLTAGE_SHUTDOWN: the input has been below 40 V for 100 µs (R388). -/
  | undervoltageShutdown
  /-- OVERVOLTAGE_SHUTDOWN: the input has been above 60 V for 10 µs (R388). -/
  | overvoltageShutdown
  /-- INPUT_RESTART: after an input shutdown the input has been above 45 V for 1 s (R388). -/
  | inputRestart
  /-- HW_CAP_LOOP: a run of the hardware cap loop on the power of its window (R393). -/
  | hwCapLoop (die measured modelled : Nat)
  /-- FW_CAP_LOOP: a run of the firmware loop on what it measures and predicts (R394). -/
  | fwCapLoop (loss other links memory compute computeFloor stepN stepS : Nat)
  /-- STEP_CHANGE_DONE: a die switches to its new PLL (R389). -/
  | stepChangeDone (die : Nat)
  /-- STACK_POWER_WINDOW: a window of a stack ends, with its events (R233, R234). `background` is what its sender takes the
  background power to be; the controller goes by its own table and does not read it. (DESIGN CHOICE 53) -/
  | stackPowerWindow (stack activates reads writes background : Nat)
  /-- DROOP_DETECT: a droop of a core is detected (R391). -/
  | droopDetect (core : Nat)
  /-- DROOP_STORM_END: a storm ends (R392). -/
  | droopStormEnd (die : Nat)
  /-- THERMAL_SAMPLE: a reading of a logic-die diode (kind 0), a layer or cap diode (1) or a stack (2), in 1/16 °C (R398). -/
  | thermalSample (kind index : Nat) (value : BitVec 16)
  /-- WARNING_STEP_DOWN: 100 ms of rising value during a warning (R400). -/
  | warningStepDown (die : Nat)
  /-- THROTTLE_ESCALATE: a location is still at the throttle threshold after 10 ms (R401). -/
  | throttleEscalate (die location : Nat)
  /-- THROTTLE_RELEASE: a location has stood 5 °C below the threshold for 10 ms (R401). -/
  | throttleRelease (die location : Nat)
  /-- THERMAL_RESTART: every sensor has read below 80 °C for 10 s (R403). -/
  | thermalRestart
  /-- CANARY_UPDATE: a canary group has run its test (R212). -/
  | canaryUpdate (sensor flipped : Nat) (dead : Bool)
  /-- LAYER_MODEL_UPDATE: the model of a layer region is updated (R213). -/
  | layerModelUpdate (sensor rows : Nat)
  /-- LAYER_GOVERN_UPDATE: the governing value of a layer region is chosen (R214). -/
  | layerGovernUpdate (sensor : Nat)
  /-- SUSPECT_FLAG_TICK: 10 min more of a suspect episode (R215). -/
  | suspectFlagTick (sensor : Nat)
  /-- SUSPECT_EPISODE_CLOSE: a diode has not been suspect for 10 s (R215). -/
  | suspectEpisodeClose (sensor : Nat)
  /-- BOND_LANE_REPAIR: a lane of a layer port reaches its threshold (R204). -/
  | bondLaneRepair (port group lane : Nat)
  /-- BOND_ROW_REPLACE: a row of a layer reaches row_thr (R205). -/
  | bondRowReplace (die layer row : Nat)
  /-- PC_RETIRE: a pseudo-channel reaches its threshold (R236). -/
  | pcRetire (pc : Nat)
  /-- SPARE_COPY_DONE: the copy to a spare completes (R237). -/
  | spareCopyDone (pc : Nat)
  /-- CAPACITY_MOVE_DONE: the move within the reduced capacity completes, with the ranges that could not be read (R239). -/
  | capacityMoveDone (pc : Nat) (lost : List (Nat × Nat))
  /-- RESOURCE_RETIRE: a resource is retired (R416). -/
  | resourceRetire (kind unit cause : Nat)
  /-- REGISTRY_COMPACT: the registry is compacted (R419). -/
  | registryCompact
  /-- NUTMEG_MIRROR: pinned records are mirrored to the NVM (R423). -/
  | nutmegMirror
  /-- DRAM_PATROL_SCRUB: a pass of the patrol scrub ends (R232). -/
  | dramPatrolScrub
  /-- LAYER_SCRUB: a pass of the layer scrub ends (R207). -/
  | layerScrub
  /-- LINK_PHY_RECAL: a lane is recalibrated (R428). -/
  | linkPhyRecal (link lane : Nat)
  /-- MEM_IF_CAL: the interface of a pseudo-channel is calibrated (R428). -/
  | memIfCal (pc : Nat)
  /-- SENSOR_CAL: a diode at a location of a die is calibrated (R428). -/
  | sensorCal (die location : Nat)
  /-- AGEING_PROBE: a region has been probed: ageing index in ppm, lowest voltage (R406). -/
  | ageingProbe (region index vmin : Nat)
  /-- TELEMETRY_SAMPLE: sample_ms passes (R426). -/
  | telemetrySample
  /-- BG_DEFERRAL_REACHED: the lag of an activity reaches its maximum deferral (R428). -/
  | bgDeferralReached (activity : Nat)
  /-- MARGIN_REPLAN: a region is re-planned after 720 h (R407). -/
  | marginReplan (region core : Nat)
  /-- FENNEL_LAND: the oldest Fennel transfer of a source lands (R253). -/
  | fennelLand (source : Nat)
  /-- OFFLOAD_COPY_OUT: the copy-out of a plan entry begins (R267). -/
  | offloadCopyOut (entry : Nat)
  /-- RESTORE_START: the restore of a plan entry begins (R267). -/
  | restoreStart (entry : Nat)
  /-- RECOMPUTE: the command of a discarded plan entry runs again (R268). -/
  | recompute (entry : Nat)
  /-- STAGE_CREDIT_RETURN: a slot of a stage queue is freed (R270). -/
  | stageCreditReturn (queue : Nat)
  /-- STAGE_STALL_RECORD: a stall of a stage queue has lasted stall_rec (R271). -/
  | stageStallRecord (queue : Nat)
  /-- SLEEP_ENTRY: idle_s of idleness has passed (R405). -/
  | sleepEntry
  /-- LINK_ACTIVITY_WAKE: activity on the PCIe link of a port (R405). -/
  | linkActivityWake (port : Nat)
  /-- BM_REGISTER_READ: a register read of board management (R470). -/
  | bmRegisterRead (offset length : Nat)
  /-- BM_REGISTER_WRITE: a register write of board management (R470). -/
  | bmRegisterWrite (offset : Nat) (data : List Byte)
  /-- BM_RESTART: RESTART of board management (R404). -/
  | bmRestart
  /-- BM_PACKAGE_RESET: PACKAGE_RESET of board management (R470). -/
  | bmPackageReset
  /-- ENTDAA: a dynamic address is assigned (R469). -/
  | entDaa (address : Nat)
  /-- RSTDAA: the dynamic address is reset (R469). -/
  | rstDaa
  /-- ENEC: target events are enabled (R469). -/
  | enec
  /-- DISEC: target events are disabled (R469). -/
  | disec
  /-- GETPID: the provisional ID is read (R469). -/
  | getPid
  /-- GETBCR: the bus characteristics are read (R469). -/
  | getBcr
  /-- GETDCR: the device characteristics are read (R469). -/
  | getDcr
  /-- GETSTATUS: the target status is read (R469). -/
  | getStatus
  /-- GETMXDS: the maximum data speed is read (R469). -/
  | getMxds
  /-- TAP_BYPASS: the TAP instruction BYPASS (R471). -/
  | tapBypass
  /-- TAP_IDCODE: the TAP instruction IDCODE (R471). -/
  | tapIdcode
  /-- TAP_SAMPLE_PRELOAD: the TAP instruction SAMPLE/PRELOAD, with the pattern shifted in (R471). -/
  | tapSamplePreload (pattern : Nat)
  /-- TAP_EXTEST: the TAP instruction EXTEST, with the pattern that drives the pins (R471). -/
  | tapExtest (pattern : Nat)
  /-- TAP_CLAMP: the TAP instruction CLAMP (R471). -/
  | tapClamp
  /-- TAP_HIGHZ: the TAP instruction HIGHZ (R471). -/
  | tapHighz
  /-- TAP_EXTEST_PULSE: the TAP instruction EXTEST_PULSE (R471). -/
  | tapExtestPulse
  /-- TAP_EXTEST_TRAIN: the TAP instruction EXTEST_TRAIN (R471). -/
  | tapExtestTrain
  /-- TAP_INTERNAL_SCAN: internal scan, with Cumin halted or not (R451). -/
  | tapInternalScan (halt : Bool)
  /-- RESTORE_COMPLETE: the restore of a plan entry completes (R267). -/
  | restoreComplete (entry : Nat)
  /-- OFFLOAD_COPY_DONE: the copy-out of a plan entry completes (R267). -/
  | offloadCopyDone (entry : Nat)
  /-- UPDATE_UNIT_FAULT: a fault of an update unit is detected (R185). -/
  | updateUnitFault (unit : Nat)
  /-- STACK_BASE_FAULT: a fault of a stack base is detected (R241). -/
  | stackBaseFault (stack : Nat)
  /-- HOST_LINK_TRAINED: the PCIe link of a port has retrained (R333). -/
  | hostLinkTrained (port : Nat)
deriving DecidableEq, Repr

end Sys2Proof
end

