-- ==== Sys2Proof/Decode.lean ====
section
/-! DEFINITION. Decoding of table words: the opcode table gives no row any bits, so no word spells a command. The 64-byte
entries of Kelcen rings are decoded in Machine/Operands.lean. -/
namespace Sys2Proof

/-- The command that a word of `nbits` bits spells by the bits of the opcode table: none. (DESIGN CHOICE 7) -/
def decodeTableWord (_nbits _w : Nat) : Option Instr := none

end Sys2Proof
end

