-- ==== Sys2Proof/Machine/Bits.lean ====
section
/-! DEFINITION. Bit fields of numbers and little-endian byte strings (R7). -/
namespace Sys2Proof.Machine

/-- Bits [hi:lo] of a number. -/
def bits (x hi lo : Nat) : Nat := x / 2 ^ lo % 2 ^ (hi + 1 - lo)

/-- Bit `i` as a Bool. -/
def bit (x i : Nat) : Bool := x.testBit i

/-- Replace bits [hi:lo] of `x` by the low bits of `v`. -/
def setBits (x hi lo v : Nat) : Nat :=
  x - bits x hi lo * 2 ^ lo + (v % 2 ^ (hi + 1 - lo)) * 2 ^ lo

/-- A Bool as a bit. -/
def b2n (b : Bool) : Nat := if b then 1 else 0

/-- The number that a little-endian byte string spells. -/
def leNat (bs : List (BitVec 8)) : Nat :=
  match bs with
  | [] => 0
  | b :: rest => b.toNat + 256 * leNat rest

/-- The `n` low bytes of a number, little-endian. -/
def leBytes (n x : Nat) : List (BitVec 8) :=
  match n with
  | 0 => []
  | k + 1 => BitVec.ofNat 8 x :: leBytes k (x / 256)

/-- Serial-number comparison of R312: how far `b` lies ahead of `a` modulo 2^32. -/
def serialDiff (b a : Nat) : Nat := (b + 2 ^ 32 - a % 2 ^ 32) % 2 ^ 32

/-- `a` rounded up to whole units of `n`. -/
def cdiv (a n : Nat) : Nat := (a + n - 1) / n

/-- Add saturating at the greatest value of `w` bits. -/
def satAdd (w a b : Nat) : Nat := min (a + b) (2 ^ w - 1)

/-- Replace element `i` of a list. -/
def listSet {α : Type} (xs : List α) (i : Nat) (v : α) : List α :=
  match xs, i with
  | [], _ => []
  | _ :: rest, 0 => v :: rest
  | x :: rest, k + 1 => x :: listSet rest k v

/-- Change element `i` of a list. -/
def listUpd {α : Type} (xs : List α) (i : Nat) (f : α → α) : List α :=
  match xs, i with
  | [], _ => []
  | x :: rest, 0 => f x :: rest
  | x :: rest, k + 1 => x :: listUpd rest k f

/-- Change the first element that satisfies `p`. -/
def listUpdWhere {α : Type} (xs : List α) (p : α → Bool) (f : α → α) : List α :=
  match xs with
  | [] => []
  | x :: rest => if p x then f x :: rest else x :: listUpdWhere rest p f

end Sys2Proof.Machine
end

