-- ==== Sys2Proof/Machine/Keccak.lean ====
section
/-! DEFINITION. SHAKE256 (FIPS 202), the digest of R297, R473 and the images of chapters 13 and 16. The sponge's state is five
planes of five 64-bit lanes; the constants of its permutation come from the standard's own generators. -/
namespace Sys2Proof.Machine

/-- A lane rotated left. -/
def laneTurn (x n : Nat) : Nat := x * 2 ^ n % 2 ^ 64 + x / 2 ^ (64 - n)

/-- The lane in column `x` of plane `y`, both modulo 5. -/
def laneAt (s : List (List Nat)) (x y : Nat) : Nat := (s.getD (y % 5) []).getD (x % 5) 0

/-- A state from its lanes. -/
def planesOf (f : Nat → Nat → Nat) : List (List Nat) := (List.range 5).map (fun y => (List.range 5).map (fun x => f x y))

/-- θ: each lane takes the parity of the two columns beside it. -/
def stepTheta (s : List (List Nat)) : List (List Nat) :=
  let column := (List.range 5).map (fun x => s.foldl (fun p plane => p ^^^ plane.getD x 0) 0)
  planesOf (fun x y => laneAt s x y ^^^ column.getD ((x + 4) % 5) 0 ^^^ laneTurn (column.getD ((x + 1) % 5) 0) 1)

/-- The places that ρ visits after lane (1, 0), each with its rotation, a triangular number. -/
def rhoWalk (n x y t : Nat) : List (Nat × Nat × Nat) :=
  match n with
  | 0 => []
  | k + 1 => (x, y, (t + 1) * (t + 2) / 2 % 64) :: rhoWalk k y ((2 * x + 3 * y) % 5) (t + 1)

/-- The rotations by column and plane. -/
def rhoTurns : List (List Nat) :=
  planesOf (fun x y => (((rhoWalk 24 1 0 0).find? (fun p => p.1 == x && p.2.1 == y)).map (·.2.2)).getD 0)

/-- ρ and π: lane (x, y) turns and moves to (y, 2x + 3y). -/
def stepRhoPi (turns s : List (List Nat)) : List (List Nat) :=
  planesOf (fun x y => laneTurn (laneAt s (x + 3 * y) x) (laneAt turns (x + 3 * y) x))

/-- χ: each lane takes the lane after next where the next one is clear. -/
def stepChi (s : List (List Nat)) : List (List Nat) :=
  planesOf (fun x y => laneAt s x y ^^^ (laneAt s (x + 2) y - (laneAt s (x + 1) y &&& laneAt s (x + 2) y)))

/-- ι changes lane (0, 0). -/
def stepIota (s : List (List Nat)) (c : Nat) : List (List Nat) :=
  listUpd s 0 (fun plane => listUpd plane 0 (fun lane => lane ^^^ c))

/-- The shift register of ι, `n` steps on. -/
def iotaShift (n r : Nat) : Nat :=
  match n with
  | 0 => r
  | k + 1 => iotaShift k (if r < 128 then 2 * r else (2 * r) ^^^ 0x171)

/-- The constant of a round whose shift register stands at `r`: its seven next output bits at bits 2^j - 1. -/
def iotaConst (r : Nat) : Nat := (List.range 7).foldl (fun c j => c + iotaShift j r % 2 * 2 ^ (2 ^ j - 1)) 0

/-- The rounds still to come, with the shift register. -/
def spongeRounds (n : Nat) (turns : List (List Nat)) (r : Nat) (s : List (List Nat)) : List (List Nat) :=
  match n with
  | 0 => s
  | k + 1 => spongeRounds k turns (iotaShift 7 r) (stepIota (stepChi (stepRhoPi turns (stepTheta s))) (iotaConst r))

/-- The sponge takes in a message of whole 136-byte blocks. -/
def spongeTake (blocks : Nat) (turns s : List (List Nat)) (bs : List (BitVec 8)) : List (List Nat) :=
  match blocks with
  | 0 => s
  | k + 1 =>
    let word := fun (i : Nat) => if i < 17 then leNat ((bs.drop (8 * i)).take 8) else 0
    spongeTake k turns (spongeRounds 24 turns 1 (planesOf (fun x y => laneAt s x y ^^^ word (x + 5 * y)))) (bs.drop 136)

/-- The first `n` bytes of SHAKE256, n at most 136. The message is followed by 0x1F and zeros up to a block, whose last byte
then has bit 7 set. -/
def shake256 (bs : List (BitVec 8)) (n : Nat) : List (BitVec 8) :=
  let blocks := bs.length / 136 + 1
  let room := 136 * blocks - bs.length
  let tail := listUpd (0x1F :: List.replicate (room - 1) 0) (room - 1) (fun b => b ||| 0x80)
  let s := spongeTake blocks rhoTurns (planesOf (fun _ _ => 0)) (bs ++ tail)
  (s.flatten.flatMap (leBytes 8)).take n

end Sys2Proof.Machine
end

