-- ==== Sys2Proof/Machine/Numbers.lean ====
section
/-! DEFINITION. Exact numbers and the one rounding of R76: signed rationals with infinities and NaN, their exact
arithmetic, and the grids of Table 3.4. Every result of the device is an exact value rounded once. -/
namespace Sys2Proof.Machine

/-- An exact value: a sign with a magnitude `n / d` (`d` is positive), an infinity, or NaN. The sign of a zero is kept,
because R80 writes an underflow as a zero with the sign of the value. -/
inductive Val where
  | fin (neg : Bool) (n d : Nat)
  | inf (neg : Bool)
  | nan
deriving DecidableEq, Repr

/-- Rounding modes of Table 3.4. -/
inductive RMode where | rne | rtz | rdn | rup | sr8
deriving DecidableEq, Repr

/-- Table 3.4; codes 0b101 to 0b111 are reserved (R76). -/
def rmodeOfCode (c : Nat) : Option RMode :=
  match c with
  | 0 => some .rne | 1 => some .rtz | 2 => some .rdn | 3 => some .rup | 4 => some .sr8 | _ => none

/-- Plus zero. -/
def valZero : Val := .fin false 0 1

/-- The integer `i`. -/
def valInt (i : Int) : Val := .fin (decide (i < 0)) i.natAbs 1

/-- The natural number `k`. -/
def valNat (k : Nat) : Val := .fin false k 1

/-- The value `i * 2^e`. -/
def valDyadic (i : Int) (e : Int) : Val :=
  if e ≥ 0 then .fin (decide (i < 0)) (i.natAbs * 2 ^ e.toNat) 1 else .fin (decide (i < 0)) i.natAbs (2 ^ (-e).toNat)

/-- A finite value is zero. -/
def valIsZero (v : Val) : Bool :=
  match v with | .fin _ n _ => n == 0 | _ => false

def valIsFinite (v : Val) : Bool :=
  match v with | .fin _ _ _ => true | _ => false

def valIsNan (v : Val) : Bool :=
  match v with | .nan => true | _ => false

/-- The sign of a value; a NaN counts as positive. -/
def valIsNeg (v : Val) : Bool :=
  match v with | .fin s _ _ => s | .inf s => s | .nan => false

def valNeg (v : Val) : Val :=
  match v with | .fin s n d => .fin (!s) n d | .inf s => .inf (!s) | .nan => .nan

def valAbs (v : Val) : Val :=
  match v with | .fin _ n d => .fin false n d | .inf _ => .inf false | .nan => .nan

/-- The signed numerator of a finite value over its denominator. -/
def signedNum (s : Bool) (n : Nat) : Int := if s then -(n : Int) else (n : Int)

/-- Exact sum. A sum of opposite equal values is +0, as round to nearest gives it. -/
def valAdd (a b : Val) : Val :=
  match a, b with
  | .nan, _ => .nan
  | _, .nan => .nan
  | .inf s, .inf t => if s = t then .inf s else .nan
  | .inf s, _ => .inf s
  | _, .inf t => .inf t
  | .fin s n d, .fin t m e =>
    let x : Int := signedNum s n * (e : Int) + signedNum t m * (d : Int)
    if x = 0 then .fin (s && t) 0 1
    else if d = e then
      let y : Int := signedNum s n + signedNum t m
      .fin (decide (y < 0)) y.natAbs d
    else .fin (decide (x < 0)) x.natAbs (d * e)

def valSub (a b : Val) : Val := valAdd a (valNeg b)

/-- Exact product. -/
def valMul (a b : Val) : Val :=
  match a, b with
  | .nan, _ => .nan
  | _, .nan => .nan
  | .inf s, .inf t => .inf (s != t)
  | .inf s, .fin t m _ => if m = 0 then .nan else .inf (s != t)
  | .fin s n _, .inf t => if n = 0 then .nan else .inf (s != t)
  | .fin s n d, .fin t m e => .fin (s != t) (n * m) (d * e)

/-- Exact quotient; a finite non-zero value over zero is an infinity and 0/0 is NaN, as IEEE 754 gives them. -/
def valDiv (a b : Val) : Val :=
  match a, b with
  | .nan, _ => .nan
  | _, .nan => .nan
  | .inf _, .inf _ => .nan
  | .inf s, .fin t _ _ => .inf (s != t)
  | .fin s _ _, .inf t => .fin (s != t) 0 1
  | .fin s n d, .fin t m e =>
    if m = 0 then (if n = 0 then .nan else .inf (s != t)) else .fin (s != t) (n * e) (d * m)

/-- `v * 2^k`, exact. -/
def valScale (v : Val) (k : Int) : Val :=
  match v with
  | .fin s n d => if k ≥ 0 then .fin s (n * 2 ^ k.toNat) d else .fin s n (d * 2 ^ (-k).toNat)
  | w => w

/-- Whether `a < b`; false with a NaN. -/
def valLt (a b : Val) : Bool :=
  match a, b with
  | .nan, _ => false
  | _, .nan => false
  | .inf s, .inf t => s && !t
  | .inf s, _ => s
  | _, .inf t => !t
  | .fin s n d, .fin t m e => decide (signedNum s n * (e : Int) < signedNum t m * (d : Int))

/-- Whether `a ≤ b`; false with a NaN. -/
def valLe (a b : Val) : Bool :=
  match a, b with
  | .nan, _ => false
  | _, .nan => false
  | _, _ => !valLt b a

/-- floor(log2(n / d)) of a positive rational. -/
def ilog2 (n d : Nat) : Int :=
  let l : Int := (n.log2 : Int) - (d.log2 : Int)
  let below : Bool := if l ≥ 0 then decide (n < d * 2 ^ l.toNat) else decide (n * 2 ^ (-l).toNat < d)
  if below then l - 1 else l

/-- floor(log2 |v|) of a finite non-zero value. -/
def valLog2 (v : Val) : Int :=
  match v with | .fin _ n d => ilog2 n d | _ => 0

/-- Round the non-negative rational `n / d` to a multiple of one: `neg` is the sign of the value, `r` the eight random
bits of SR8 (Table 3.4, R81). -/
def roundUnits (mode : RMode) (neg : Bool) (r n d : Nat) : Nat :=
  let k := n / d
  let rem := n % d
  match mode with
  | .rtz => k
  | .rdn => if neg && rem != 0 then k + 1 else k
  | .rup => if !neg && rem != 0 then k + 1 else k
  | .rne => if 2 * rem < d then k else if 2 * rem > d then k + 1 else if k % 2 = 1 then k + 1 else k
  | .sr8 => if rem * 256 / d + r < 256 then k else k + 1

/-- Round the non-negative rational `n / d` to a multiple of `2^q`, as the count of such multiples. -/
def roundGrid (mode : RMode) (neg : Bool) (r n d : Nat) (q : Int) : Nat :=
  if q ≥ 0 then roundUnits mode neg r n (d * 2 ^ q.toNat) else roundUnits mode neg r (n * 2 ^ (-q).toNat) d

/-- A binary floating-point grid: mantissa bits, exponent of the smallest normal, exponent of the greatest binade. -/
structure FpGrid where
  mant : Nat
  emin : Int
  emax : Int
deriving DecidableEq, Repr

def gridFp32 : FpGrid := ⟨23, -126, 127⟩
def gridFp64 : FpGrid := ⟨52, -1022, 1023⟩
def gridBf16 : FpGrid := ⟨7, -126, 127⟩

/-- Exponent of the last kept place of a value of magnitude `n / d` on a grid; subnormals keep the lowest place. -/
def gridQuantum (g : FpGrid) (n d : Nat) : Int :=
  if n = 0 then g.emin - g.mant else (max (ilog2 n d) g.emin) - g.mant

/-- Round a value onto a grid as IEEE 754 does in the mode: a result past the largest finite value becomes an infinity
under RNE (and is the largest finite value where the mode rounds toward it). -/
def roundIeee (g : FpGrid) (mode : RMode) (v : Val) : Val :=
  match v with
  | .fin s n d =>
    let q := gridQuantum g n d
    let k := roundGrid mode s 0 n d q
    let big : Val := valDyadic ((2 ^ (g.mant + 1) - 1 : Nat) : Int) (g.emax - g.mant)
    let w : Val := valDyadic (k : Int) q
    let w : Val := match w with | .fin _ n' d' => .fin s n' d' | x => x
    if valLt big (valAbs w) then
      (match mode with
       | .rtz | .sr8 => (if s then valNeg big else big)
       | .rdn => if s then .inf true else big
       | .rup => if s then valNeg big else .inf false
       | .rne => .inf s)
    else w
  | w => w

/-- One FP32 result, rounded to nearest, ties to even. -/
def f32 (v : Val) : Val := roundIeee gridFp32 .rne v

/-- One FP64 result, rounded to nearest, ties to even. -/
def f64 (v : Val) : Val := roundIeee gridFp64 .rne v

def add32 (a b : Val) : Val := f32 (valAdd a b)
def sub32 (a b : Val) : Val := f32 (valSub a b)
def mul32 (a b : Val) : Val := f32 (valMul a b)
def div32 (a b : Val) : Val := f32 (valDiv a b)
def fma32 (a b c : Val) : Val := f32 (valAdd (valMul a b) c)
def add64 (a b : Val) : Val := f64 (valAdd a b)
def mul64 (a b : Val) : Val := f64 (valMul a b)
def div64 (a b : Val) : Val := f64 (valDiv a b)

/-- The greater of two values; a NaN gives NaN. -/
def valMax (a b : Val) : Val :=
  match a, b with
  | .nan, _ => .nan
  | _, .nan => .nan
  | _, _ => if valLt a b then b else a

/-- The lesser of two values; a NaN gives NaN. -/
def valMin (a b : Val) : Val :=
  match a, b with
  | .nan, _ => .nan
  | _, .nan => .nan
  | _, _ => if valLt b a then b else a

/-- Bisection for the integer square root: `fuel` bits below a power of two. -/
def isqrtAux (fuel : Nat) (n r : Nat) : Nat :=
  match fuel with
  | 0 => r
  | f + 1 => if (r + 2 ^ f) * (r + 2 ^ f) ≤ n then isqrtAux f n (r + 2 ^ f) else isqrtAux f n r

/-- floor(sqrt(n)). -/
def isqrt (n : Nat) : Nat := isqrtAux (n.log2 / 2 + 1) n 0

/-- The square root of a value rounded to nearest on a grid: `2 * (mant + 6)` more bits than the grid keeps, with a
sticky bit below, so that the one rounding is exact. A negative value gives NaN and a zero itself. -/
def sqrtTo (g : FpGrid) (v : Val) : Val :=
  match v with
  | .fin s n d =>
    if n = 0 then .fin s 0 1
    else if s then .nan
    else
      let l := ilog2 n d
      let sh : Int := 2 * (g.mant + 6 : Int) - 2 * (l / 2)
      let m : Nat := if sh ≥ 0 then n * 2 ^ sh.toNat / d else n / (d * 2 ^ (-sh).toNat)
      let exact : Bool := if sh ≥ 0 then n * 2 ^ sh.toNat % d == 0 else n % (d * 2 ^ (-sh).toNat) == 0
      let r := isqrt m
      let sticky : Nat := if exact && r * r == m then 0 else 1
      roundIeee g .rne (valDyadic ((2 * r + sticky : Nat) : Int) (-(sh / 2) - 1))
  | .inf s => if s then .nan else .inf false
  | .nan => .nan

def sqrt32 (v : Val) : Val := sqrtTo gridFp32 v
def sqrt64 (v : Val) : Val := sqrtTo gridFp64 v

end Sys2Proof.Machine
end

