-- ==== Sys2Proof/Machine/Formats.lean ====
section
/-! DEFINITION. Number formats of chapter 3: codes and roles (Table 3.1), bit layouts (Table 3.2), special values and
range limits (Table 3.3), the one conversion of R77 to R81, block scales (R82, R83) and the slice cut (R85, R86). -/
namespace Sys2Proof.Machine

/-- The formats of Table 3.1. -/
inductive Fmt where
  | fp4E2M1 | fp6E2M3 | fp6E3M2 | fp8E4M3 | fp8E5M2 | int4 | int8 | bf16 | fp16 | fp32 | fp64 | bi8 | int32 | s768
deriving DecidableEq, Repr

/-- Table 3.1; 0xE and 0xF are reserved (R71). -/
def fmtOfCode (c : Nat) : Option Fmt :=
  match c with
  | 0 => some .fp4E2M1 | 1 => some .fp6E2M3 | 2 => some .fp6E3M2 | 3 => some .fp8E4M3 | 4 => some .fp8E5M2
  | 5 => some .int4 | 6 => some .int8 | 7 => some .bf16 | 8 => some .fp16 | 9 => some .fp32 | 10 => some .fp64
  | 11 => some .bi8 | 12 => some .int32 | 13 => some .s768 | _ => none

def Fmt.code : Fmt → Nat
  | .fp4E2M1 => 0 | .fp6E2M3 => 1 | .fp6E3M2 => 2 | .fp8E4M3 => 3 | .fp8E5M2 => 4 | .int4 => 5 | .int8 => 6
  | .bf16 => 7 | .fp16 => 8 | .fp32 => 9 | .fp64 => 10 | .bi8 => 11 | .int32 => 12 | .s768 => 13

/-- Element width in bits (Table 3.1). -/
def Fmt.width : Fmt → Nat
  | .fp4E2M1 | .int4 => 4
  | .fp6E2M3 | .fp6E3M2 => 6
  | .fp8E4M3 | .fp8E5M2 | .int8 | .bi8 => 8
  | .bf16 | .fp16 => 16
  | .fp32 | .int32 => 32
  | .fp64 => 64
  | .s768 => 128

/-- Table 3.1, column "Array operand" (FP32 and FP64 are sliced by the feeder). -/
def Fmt.arrayOperand (f : Fmt) : Bool := !(f == .int32 || f == .s768)

/-- Table 3.1, column "Read-out target". -/
def Fmt.readOutTarget (f : Fmt) : Bool := f != .bi8

/-- Table 3.1, column "Block scale": the formats that may carry one. -/
def Fmt.blockScalable (f : Fmt) : Bool := f.code ≤ 6

def Fmt.isInt (f : Fmt) : Bool := f == .int4 || f == .int8 || f == .int32

/-- Mantissa bits, exponent bits and bias (Table 3.2); zero for the others. -/
def Fmt.layout : Fmt → Nat × Nat × Nat
  | .fp4E2M1 => (1, 2, 1) | .fp6E2M3 => (3, 2, 1) | .fp6E3M2 => (2, 3, 3) | .fp8E4M3 => (3, 4, 7)
  | .fp8E5M2 => (2, 5, 15) | .bf16 => (7, 8, 127) | .fp16 => (10, 5, 15) | .fp32 => (23, 8, 127)
  | .fp64 => (52, 11, 1023) | _ => (0, 0, 0)

/-- The format has encodings for the infinities (Table 3.3). -/
def Fmt.hasInf (f : Fmt) : Bool :=
  match f with | .fp8E5M2 | .bf16 | .fp16 | .fp32 | .fp64 | .s768 => true | _ => false

/-- The format has encodings for NaN (Table 3.3). -/
def Fmt.hasNan (f : Fmt) : Bool := f.hasInf || f == .fp8E4M3

/-- E_sat of Table 3.3 (R73 for S768). The table has no row for BI8, whose slices are 8-bit integers: its E_sat is that
of INT8 (DESIGN CHOICE 74). -/
def Fmt.eSat : Fmt → Int
  | .fp4E2M1 => 2 | .fp6E2M3 => 2 | .fp6E3M2 => 4 | .fp8E4M3 => 8 | .fp8E5M2 => 15 | .bf16 => 127 | .fp16 => 15
  | .fp32 => 127 | .fp64 => 1023 | .int4 => 2 | .int8 => 6 | .int32 => 30 | .s768 => 367 | .bi8 => 6

/-- The code of the saturation value without its sign (Table 3.3). -/
def Fmt.satCode : Fmt → Nat
  | .fp4E2M1 => 0x7 | .fp6E2M3 => 0x1F | .fp6E3M2 => 0x1F | .fp8E4M3 => 0x7E | .fp8E5M2 => 0x7B | .bf16 => 0x7F7F
  | .fp16 => 0x7BFF | .fp32 => 0x7F7FFFFF | .fp64 => 0x7FEFFFFFFFFFFFFF | .int4 => 7 | .int8 => 127
  | .int32 => 0x7FFFFFFF | .bi8 => 127 | .s768 => 0

/-- The canonical NaN of R74. -/
def Fmt.nanCode : Fmt → Nat
  | .fp8E4M3 => 0x7F | .fp8E5M2 => 0x7F | .bf16 => 0x7FC0 | .fp16 => 0x7E00 | .fp32 => 0x7FC00000
  | .fp64 => 0x7FF8000000000000 | _ => 0

/-- Exponent of the smallest normal value (Table 3.3). -/
def Fmt.emin (f : Fmt) : Int := 1 - (f.layout.2.2 : Int)

/-- Sign bit position. -/
def Fmt.signBit (f : Fmt) : Nat := f.width - 1

/-- The value of an integer code of `w` bits in two's complement. -/
def signedOf (w x : Nat) : Int := if x % 2 ^ w ≥ 2 ^ (w - 1) then (x % 2 ^ w : Nat) - (2 ^ w : Nat) else (x % 2 ^ w : Nat)

/-- The two's complement code of `w` bits of an integer. -/
def codeOfInt (w : Nat) (i : Int) : Nat := (i % ((2 ^ w : Nat) : Int)).toNat

/-- Read one element (R72 to R74). S768 and BI8 slices are read by their own chapters. -/
def Fmt.decode (f : Fmt) (x : Nat) : Val :=
  match f with
  | .int4 => valInt (signedOf 4 x)
  | .int8 | .bi8 => valInt (signedOf 8 x)
  | .int32 => valInt (signedOf 32 x)
  | .s768 => .nan
  | _ =>
    let (m, e, bias) := f.layout
    let s := x / 2 ^ (m + e) % 2 == 1
    let ex := x / 2 ^ m % 2 ^ e
    let ma := x % 2 ^ m
    if f.hasInf && ex == 2 ^ e - 1 then (if ma == 0 then .inf s else .nan)
    else if f == .fp8E4M3 && ex == 15 && ma == 7 then .nan
    else
      let k : Int := if ex = 0 then 1 - (bias : Int) - m else (ex : Int) - bias - m
      let mag := if ex = 0 then ma else 2 ^ m + ma
      match valDyadic (mag : Int) k with
      | .fin _ n d => .fin s n d
      | w => w

/-- Encode the magnitude `k * 2^q` that is already a value of the format's grid. -/
def Fmt.encodeGrid (f : Fmt) (s : Bool) (k : Nat) (q : Int) : Nat :=
  let (m, _, bias) := f.layout
  let sb := if s then 2 ^ f.signBit else 0
  if k = 0 then sb
  else
    let e := (k.log2 : Int) + q
    if e < f.emin then sb + k * 2 ^ (q - (f.emin - m)).toNat
    else
      let sh : Int := e - m - q
      let frac := if sh ≥ 0 then k / 2 ^ sh.toNat else k * 2 ^ (-sh).toNat
      sb + ((e + bias).toNat) * 2 ^ m + (frac - 2 ^ m)

/-- What one conversion counts (R78 to R80, R88). -/
inductive ConvEvent where | none | overflow | underflow | nonfinite
deriving DecidableEq, Repr

/-- The result of one conversion: the code written, what it counts, and whether the block must become NaN (R79). -/
structure ConvResult where
  code : Nat
  event : ConvEvent
  blockNan : Bool
deriving DecidableEq, Repr

/-- The saturation value with a sign (R78, R79). -/
def Fmt.satWith (f : Fmt) (s : Bool) : Nat :=
  if f.isInt then (if s then codeOfInt f.width (-(f.satCode : Int)) else f.satCode)
  else f.satCode + (if s then 2 ^ f.signBit else 0)

/-- The saturation value as an exact value. -/
def Fmt.satVal (f : Fmt) : Val := f.decode f.satCode

/-- The overflow bound of Table 3.3: the saturation value plus half the spacing of its binade. -/
def Fmt.overflowBound (f : Fmt) : Val :=
  if f.isInt then valAdd (valNat f.satCode) (.fin false 1 2)
  else valAdd f.satVal (valDyadic 1 (f.eSat - f.layout.1 - 1))

/-- R76 to R80: convert the exact scaled value `v * 2^e` (already formed) into a format other than S768 and BI8. `r` is
the SR8 byte of R81, `blocked` says that the target carries a block scale. -/
def Fmt.convert (f : Fmt) (mode : RMode) (r : Nat) (blocked : Bool) (v : Val) : ConvResult :=
  match v with
  | .nan => if f.hasNan then ⟨f.nanCode, .nonfinite, false⟩ else ⟨0, .nonfinite, blocked⟩
  | .inf s =>
    if f.hasInf then
      let (m, e, _) := f.layout
      ⟨(2 ^ e - 1) * 2 ^ m + (if s then 2 ^ f.signBit else 0), .nonfinite, false⟩
    else ⟨f.satWith s, .nonfinite, false⟩
  | .fin s n d =>
    if valLe f.overflowBound (.fin false n d) then ⟨f.satWith s, .overflow, false⟩
    else if f.isInt then
      let k := min (roundUnits mode s r n d) f.satCode
      ⟨codeOfInt f.width (if s then -(k : Int) else k), if k = 0 && n != 0 then .underflow else .none, false⟩
    else
      let m := f.layout.1
      let q := gridQuantum ⟨m, f.emin, f.eSat⟩ n d
      let k := roundGrid mode s r n d q
      if valLt f.satVal (valDyadic (k : Int) q) then ⟨f.satWith s, .none, false⟩
      else ⟨f.encodeGrid s k q, if k = 0 && n != 0 then .underflow else .none, false⟩

/-- Encode a value without counting, rounding to nearest: an infinity or NaN takes its own encoding. -/
def encode32 (v : Val) : Nat :=
  match f32 v with
  | .nan => 0x7FC00000
  | .inf s => if s then 0xFF800000 else 0x7F800000
  | w => (Fmt.fp32.convert .rne 0 false w).code

def encode64 (v : Val) : Nat :=
  match f64 v with
  | .nan => 0x7FF8000000000000
  | .inf s => if s then 0xFFF0000000000000 else 0x7FF0000000000000
  | w => (Fmt.fp64.convert .rne 0 false w).code

def decode32 (x : Nat) : Val := Fmt.fp32.decode (x % 2 ^ 32)
def decode64 (x : Nat) : Val := Fmt.fp64.decode (x % 2 ^ 64)

/-- The magnitude of a finite value as FP32 rounded toward plus infinity; past the largest finite FP32 it is plus
infinity (R89). -/
def encode32Up (v : Val) : Nat :=
  match roundIeee gridFp32 .rup (valAbs v) with
  | .nan => 0x7FC00000
  | .inf _ => 0x7F800000
  | w => (Fmt.fp32.convert .rne 0 false w).code

/-- The same magnitude as BF16 rounded toward plus infinity (R94, item 1). -/
def encodeBf16Up (v : Val) : Nat :=
  match v with
  | .inf _ => 0x7F80
  | .nan => 0x7FC0
  | w =>
    match roundIeee gridBf16 .rup (valAbs w) with
    | .fin _ n d => (Fmt.bf16.convert .rne 0 false (.fin false n d)).code
    | _ => 0x7F80

/-- R81: the eight random bits of an element. -/
def sr8Bits (stepTag seed slot index : Nat) : Nat :=
  let seed64 := (stepTag % 2 ^ 32) * 2 ^ 32 + seed % 2 ^ 32
  let x := ((((slot % 2 ^ 15) * 2 ^ 40) ^^^ (index % 2 ^ 40)) * 0x9E3779B97F4A7C15 % 2 ^ 64) ^^^ seed64
  let x := (x ^^^ (x / 2 ^ 30)) * 0xBF58476D1CE4E5B9 % 2 ^ 64
  let x := (x ^^^ (x / 2 ^ 27)) * 0x94D049BB133111EB % 2 ^ 64
  let x := x ^^^ (x / 2 ^ 31)
  x / 2 ^ 56

/-- The bit offset of element `i` in a packed tensor (R75): elements follow one another little-endian. -/
def Fmt.bitOffset (f : Fmt) (i : Nat) : Nat := i * f.width

/-- R82: the factor exponent of a block scale byte below 255. -/
def blockExp (b : Nat) : Int := (b : Int) - 127

/-- R83: whether a finite element, multiplied by `2^(127-b)` and rounded in the mode, is at most the saturation value
(before the saturation itself is applied), and does not overflow (R78), as no element of the block may. -/
def blockFits (f : Fmt) (mode : RMode) (r : Nat) (v : Val) (b : Nat) : Bool :=
  match valScale v (127 - (b : Int)) with
  | .fin s n d =>
    if valLe f.overflowBound (.fin false n d) then false
    else if f.isInt then decide (roundUnits mode s r n d ≤ f.satCode)
    else
      let q := gridQuantum ⟨f.layout.1, f.emin, f.eSat⟩ n d
      valLe (valDyadic (roundGrid mode s r n d q : Int) q) f.satVal
  | _ => true

/-- The smallest `b` at or above `b0` for which every element fits, within `fuel` tries; 254 when none does (R83). -/
def blockChooseFrom (f : Fmt) (mode : RMode) (xs : List (Val × Nat)) (b0 fuel : Nat) : Nat :=
  match fuel with
  | 0 => 254
  | k + 1 => if xs.all (fun x => blockFits f mode x.2 x.1 b0) then b0 else blockChooseFrom f mode xs (b0 + 1) k

/-- R83: the block scale byte of a block, given its values with their SR8 bytes. The search starts two binades below the
largest magnitude, since a smaller `b` cannot hold it. An all-zero block has byte 0. Infinities and NaNs take no part in
the choice: they are written under R79 whatever the byte is (DESIGN CHOICE 73). -/
def blockChoose (f : Fmt) (mode : RMode) (xs : List (Val × Nat)) : Nat :=
  let nz := xs.filter (fun x => valIsFinite x.1 && !valIsZero x.1)
  match nz with
  | [] => 0
  | x :: rest =>
    let emax := rest.foldl (fun e y => max e (valLog2 y.1)) (valLog2 x.1)
    let start := (max 0 (emax - f.eSat + 127 - 2)).toNat
    if start > 254 then 254 else blockChooseFrom f mode nz start (min 6 (255 - start))

/-- R85: e_b of a block, none when every element is zero (or excluded). -/
def sliceBlockExp (xs : List Val) : Option Int :=
  (xs.filter (fun x => valIsFinite x && !valIsZero x)).foldl
    (fun e x => match e with | none => some (valLog2 x) | some y => some (max y (valLog2 x))) none

/-- R86: the span of a block: e_b less the smallest exponent of its non-zero finite elements. -/
def sliceSpan (xs : List Val) : Nat :=
  let nz := xs.filter (fun x => valIsFinite x && !valIsZero x)
  match sliceBlockExp xs, nz with
  | some e, x :: rest => (e - rest.foldl (fun m y => min m (valLog2 y)) (valLog2 x)).toNat
  | _, _ => 0

/-- R85: X of one element, `round_rne(x * 2^(8n - 3 - e_b))`. -/
def sliceInt (n : Nat) (eb : Int) (x : Val) : Int :=
  match valScale x (8 * (n : Int) - 3 - eb) with
  | .fin s a d => let k := roundUnits .rne s 0 a d; if s then -(k : Int) else k
  | _ => 0

/-- R80, R85: a non-zero finite element whose slices are all zero. -/
def sliceLost (n : Nat) (eb : Option Int) (x : Val) : Bool :=
  match eb with
  | some e => valIsFinite x && !valIsZero x && sliceInt n e x == 0
  | none => false

/-- R85: the digits of X from the lowest slice up, the last one keeping what is left; highest slice first. -/
def sliceDigits (n : Nat) (x : Int) : List Int :=
  match n with
  | 0 => []
  | 1 => [x]
  | k + 1 =>
    let d := x % 256
    let d := if d ≥ 128 then d - 256 else d
    sliceDigits k ((x - d) / 256) ++ [d]

/-- R85: the value that an element's slices read as. -/
def sliceValue (n : Nat) (eb : Int) (ds : List Int) : Val :=
  valDyadic (ds.foldl (fun a d => a * 256 + d) 0) (eb - 8 * (n : Int) + 3)

end Sys2Proof.Machine
end

