-- ==== Sys2Proof/Machine/Approx.lean ====
section
/-! DEFINITION. The fixed functions of which the manual gives a greatest error and no bits (R146, R155, R156, R171, R346):
each result is one of the values that lie within the error of the exact function, formed here as a rational number with more
than 400 bits; which one, Config leaves open. (DESIGN CHOICE 12) -/
namespace Sys2Proof.Machine

/-! ### Exact functions as rational numbers -/

/-- Fraction bits of the fixed-point numbers below. (DESIGN CHOICE 12) -/
def fxBits : Nat := 420

/-- A finite value as a fixed-point number. -/
def fxOf (v : Val) : Int := match v with | .fin s n d => signedNum s (n * 2 ^ fxBits / d) | _ => 0

def valOfFx (x : Int) : Val := valDyadic x (-(fxBits : Int))

/-- ln 2 as the sum of 1 / (n 2^n). -/
def fxLn2 : Int := (List.range 430).foldl (fun a i => a + ((2 ^ fxBits / ((i + 1) * 2 ^ (i + 1)) : Nat) : Int)) 0

/-- arctan (1 / m). -/
def fxArctan (m : Nat) : Int :=
  (List.range 320).foldl (fun a i =>
    let t : Int := (2 ^ fxBits / ((2 * i + 1) * m ^ (2 * i + 1)) : Nat)
    if i % 2 = 0 then a + t else a - t) 0

/-- Pi, by Machin's formula. -/
def fxPi : Int := 16 * fxArctan 5 - 4 * fxArctan 239

/-- The exponential of a finite value: 2^k e^r with 0 ≤ r < ln 2; past 200 a value beyond every FP32 range stands for it. -/
def realExp (v : Val) : Val :=
  match v with
  | .fin s n d =>
    if 200 * d < n then valDyadic 1 (if s then -600 else 600)
    else
      let k := (fxOf v).fdiv fxLn2
      let r := fxOf v - k * fxLn2
      let t := (List.range 90).foldl (fun (a : Int) i => 2 ^ fxBits + r * a / ((90 - i : Nat) * 2 ^ fxBits)) (2 ^ fxBits)
      valDyadic t (k - fxBits)
  | .inf s => if s then valZero else .inf false
  | .nan => .nan

def realSigmoid (v : Val) : Val := valDiv (valNat 1) (valAdd (valNat 1) (realExp (valNeg v)))

def realTanh (v : Val) : Val :=
  valSub (valNat 1) (valDiv (valNat 2) (valAdd (valNat 1) (realExp (valMul (valNat 2) v))))

/-- 1 / √v of a positive value. -/
def realRsqrt (v : Val) : Val :=
  match v with | .fin _ n d => .fin false (isqrt (d * 2 ^ 1200 / n)) (2 ^ 600) | w => w

/-- The density φ of the normal distribution. -/
def realDensity (v : Val) : Val :=
  valDiv (realExp (valNeg (valDiv (valMul v v) (valNat 2)))) (valOfFx (isqrt (2 * fxPi.toNat * 2 ^ fxBits) : Nat))

/-- The distribution Φ: 1/2 + φ(x) (x + x³/3 + x⁵/15 + ...), within 2^-600 of its limits past 20. -/
def realNormal (v : Val) : Val :=
  match v with
  | .fin s n d =>
    if 20 * d < n then (if s then valDyadic 1 (-600) else valSub (valNat 1) (valDyadic 1 (-600)))
    else
      let x : Nat := (fxOf (.fin false n d)).toNat
      let sq := x * x / 2 ^ fxBits
      let sum := ((List.range 1500).foldl (fun (a : Nat × Nat) i => (a.1 + a.2, a.2 * sq / ((2 * i + 3) * 2 ^ fxBits))) (0, x)).1
      let p := valMul (realDensity v) (valOfFx sum)
      let half : Val := .fin false 1 2
      if s then valSub half p else valAdd half p
  | w => w

/-- The cosine of a value of magnitude up to 8. -/
def realCos (v : Val) : Val :=
  let x := fxOf v
  let sq := x * x / 2 ^ fxBits
  valOfFx ((List.range 80).foldl (fun (a : Int) i =>
    let n : Nat := 80 - i
    2 ^ fxBits - sq * a / (((2 * n - 1) * (2 * n) : Nat) * 2 ^ fxBits)) (2 ^ fxBits))

/-- The 300 leading bits of a dyadic value. -/
def valLead (v : Val) : Val :=
  match v with
  | .fin s n d => let k := n.log2 - 300; valDyadic (signedNum s (n / 2 ^ k)) ((k : Int) - d.log2)
  | w => w

/-- `v` to the power of the `bits` low bits of `n`. -/
def realPow (bits : Nat) (v : Val) (n : Nat) : Val :=
  match bits with
  | 0 => valNat 1
  | k + 1 =>
    let r := valLead (let h := realPow k v (n / 2); valMul h h)
    if n % 2 = 1 then valLead (valMul r v) else r

/-! ### Values within an error -/

/-- One of the numbers within `k` of the exact place: `c` rounds it down, and `exact` says that it is the place itself.
(DESIGN CHOICE 12) -/
def pickNear (k pick c top : Nat) (exact : Bool) : Nat :=
  let lo := c - (if exact then k else k - 1)
  lo + pick % (min (c + k) top - lo + 1)

/-- A value of a format within `k` ulp of a finite exact one; past the format's range, the infinity. -/
def Fmt.near (f : Fmt) (g : FpGrid) (k pick : Nat) (v : Val) : Val :=
  match v with
  | .fin s n d =>
    let low := roundIeee g .rtz (.fin false n d)
    let inf := (2 ^ f.layout.2.1 - 1) * 2 ^ f.layout.1
    let sign := if s then 2 ^ f.signBit else 0
    if valLe (valDyadic 1 (g.emax + 1)) (.fin false n d) then .inf s
    else f.decode (sign + pickNear k pick ((f.convert .rtz 0 false low).code) inf (valLe (.fin false n d) low))
  | w => w

/-- The FP32 value that the device gives for a function whose exact value is `v`: within `k` ulps, as `pick` chooses.
(DESIGN CHOICE 12) -/
def near32 (k pick : Nat) (v : Val) : Val := Fmt.fp32.near gridFp32 k pick v

/-- The same in FP64. (DESIGN CHOICE 12) -/
def near64 (k pick : Nat) (v : Val) : Val := Fmt.fp64.near gridFp64 k pick v

/-! ### The functions of Table 5.4 -/

/-- A decimal constant of Table 5.4: `n` millionths. -/
def micro (n : Nat) : Val := .fin false n 1000000

/-- The forward function of codes 0x12 to 0x19 (Tables 5.4 and 12.9). (DESIGN CHOICE 12) -/
def vecReal (func : Nat) (x : Val) : Val :=
  match func with
  | 0x12 => realSigmoid x
  | 0x13 => realTanh x
  | 0x14 => realExp x
  | 0x16 => valMul x (realSigmoid (valMul (micro 1702000) x))
  | 0x17 => valMul x (realSigmoid (geluArg x))
  | 0x18 => valMul x (realNormal x)
  | _ => valMul x (realSigmoid x)
where
  /-- 1.595769 (x + 0.044715 x³). -/
  geluArg (x : Val) : Val := valMul (micro 1595769) (valAdd x (valMul (micro 44715) (valMul x (valMul x x))))

/-- The derivative in x of codes 0x17 to 0x19. (DESIGN CHOICE 12) -/
def vecRealDeriv (func : Nat) (x : Val) : Val :=
  let one := valNat 1
  match func with
  | 0x17 =>
    let s := realSigmoid (vecReal.geluArg x)
    let du := valMul (micro 1595769) (valAdd one (valMul (valMul (valNat 3) (micro 44715)) (valMul x x)))
    valAdd s (valMul (valMul x du) (valMul s (valSub one s)))
  | 0x18 => valAdd (realNormal x) (valMul x (realDensity x))
  | _ =>
    let s := realSigmoid x
    valMul s (valAdd one (valMul x (valSub one s)))

end Sys2Proof.Machine
end

