-- ==== Sys2Proof/Config.lean ====
section
/-! DEFINITION. What the manual leaves open: the free values of the model. Each is an opaque constant without a body, so
no proof can see a value of it. -/
namespace Sys2Proof

/-- A value the manual does not state, `w` bits wide; `k` is the counter of the state that each use advances.
(DESIGN CHOICE 37) -/
opaque Config.free (w k : Nat) : BitVec w

/-- The fixed FP32 function of R346 for the VEC functions 0x12 to 0x19 (function code, FP32 bits of x): which of the values
within 2 ulp of the exact one it takes, and its result where x is not finite. (DESIGN CHOICE 12) (DESIGN CHOICE 68) -/
opaque Config.vecFn (func : Nat) (x : BitVec 32) : BitVec 32

/-- The fixed FP32 derivative of R155 for the VEC functions 0x17 to 0x19 (function code, saved operand): which of the values
within 2 ulp of the exact one it takes, and its result where the operand is not finite. (DESIGN CHOICE 12) -/
opaque Config.vecDeriv (func : Nat) (x : BitVec 32) : BitVec 32

/-- The fixed FP32 exponential of Cardamom (R146): which of the values within 1 ulp, and its result where the argument is not
finite. (DESIGN CHOICE 12) -/
opaque Config.expFn (x : BitVec 32) : BitVec 32

/-- The same for its reciprocal square root; of an argument that is not positive and finite its result is open.
(DESIGN CHOICE 12) -/
opaque Config.rsqrtFn (x : BitVec 32) : BitVec 32

/-- The fixed FP64 cosine of R171: which of the values within 1 ulp. (DESIGN CHOICE 12) -/
opaque Config.cosFn (x : BitVec 64) : BitVec 64

/-- The fixed FP64 power of R171 (base and a natural exponent): which of the values within 1 ulp. (DESIGN CHOICE 12) -/
opaque Config.powFn (x : BitVec 64) (n : Nat) : BitVec 64

/-- R31, R131: the live array on which the ring scheduler places tile `t` of a command. Placement never changes a value;
the counters and the dies that a command touches depend on it. (DESIGN CHOICE 11) -/
opaque Config.tileArray (ring seq tile : Nat) : Fin 256

/-- What a status field of a unit reads at a time while commands are in flight (register and instance, bit, timebase).
(DESIGN CHOICE 35) -/
opaque Config.liveStatus (reg bit time : Nat) : Nat

/-- R246: the engine to which the scheduler deals piece `i` of a COPY when the command requests every free engine.
(DESIGN CHOICE 11) -/
opaque Config.freeEngine (ring seq piece : Nat) : Fin 16

/-- R266: the sustained DMA rate, in bytes per second, measured for a group's area (2 DRAM, 3 host) over its closed epoch
number `count`. Time is not modelled, so the measurement is open. (DEDUCED 38) -/
opaque Config.planRate (group area count : Nat) : Nat

/-- R273: whether the memory plan can place the entries of a stage for `depth` micro-batches, where a plan stands.
(DEDUCED 38) -/
opaque Config.planFits (stage depth time : Nat) : Bool

/-- R266, R272: whether a command is a backward one, where its opcode and body do not say so. (DESIGN CHOICE 18) -/
opaque Config.isBackward (entry : Nat) : Bool

/-- R420: the code of an event within its class, by the model's number of it. (DESIGN CHOICE 23) -/
opaque Config.nutCode (cls code : Nat) : BitVec 8

/-- R420: the source of a record: one of the six compartments, the hardware queue, Anise. (DESIGN CHOICE 23) -/
opaque Config.nutSource (cls code : Nat) : Fin 8

/-- R420: the 200 bytes of a record's payload, by class, event and what identifies it. (DESIGN CHOICE 23) -/
opaque Config.nutPayload (cls code ident : Nat) : BitVec 1600

/-- R362: the MPU regions of a compartment of the firmware in a bank, base and length. (DESIGN CHOICE 71) -/
opaque Config.mpuRegions (bank comp : Nat) : List (Nat × Nat)

/-- R301: the leaf of tree 0 of a communicator that stands for a module in the reduction of an epoch, where the module has
contributed no leaf to a collective over it. (DESIGN CHOICE 33) -/
opaque Config.stepLeaf (comm devId : Nat) : Nat

/-- Ed448 verification (RFC 8032): public key, message, signature, context. The manual names the standard and not its
steps. (DESIGN CHOICE 48) -/
opaque Config.ed448Verify (key msg sig ctx : Nat) : Bool

/-- Ed448 signing with the identity key, and the identity certificate (R440, R449). (DESIGN CHOICE 48) -/
opaque Config.ed448Sign (key msg ctx : Nat) : BitVec 912

/-- The identity key that start-up derives from the PUF (R439). (DESIGN CHOICE 48) -/
opaque Config.identityKey : Nat

/-- The vendor's and integrators' verification keys by key index (R432). (DESIGN CHOICE 48) -/
opaque Config.trustedKey (index : Nat) : Nat

/-- The identity certificate, as bytes (R440). (DESIGN CHOICE 48) -/
opaque Config.certificate : List Byte

/-- The challenge bytes of R450: a fresh random value at each use. (DESIGN CHOICE 48) -/
opaque Config.challenge (k : Nat) : BitVec 256

/-- R371: the highest protocol version that the firmware speaks of a service. (DESIGN CHOICE 66) -/
opaque Config.protocolHighest (service : Nat) : Nat

/-- The factory calibration block's digest (Table 16.9) and the serial number of the identity certificate.
(DESIGN CHOICE 48) -/
opaque Config.calibrationDigest : Nat
/-- DESIGN CHOICE 48 of the log. -/
opaque Config.serialNumber : BitVec 128

/-- R213, by layer 0 to 3, from the configuration image: the conductance below, in nW/°C. (DESIGN CHOICE 54) -/
opaque Config.layerDown (layer : Nat) : Nat

/-- R213: the conductance above, in nW/°C. (DESIGN CHOICE 54) -/
opaque Config.layerUp (layer : Nat) : Nat

/-- R213: E_row in pJ. (DESIGN CHOICE 54) -/
opaque Config.layerRowEnergy (layer : Nat) : Nat

/-- R213: a(k) in units of 2^-32. (DESIGN CHOICE 54) -/
opaque Config.layerStep (layer : Nat) : Nat

/-- R213: the leakage power in nW at a temperature in units of 2^-20 °C. (DESIGN CHOICE 54) -/
opaque Config.layerLeak (layer : Nat) (temp : Int) : Nat

/-- Table 8.2: refresh and background power of a stack in mW at a temperature in 1/16 °C. (DESIGN CHOICE 53) -/
opaque Config.stackIdle (temp : Nat) : Nat

/-- R407: the margin, in units of 100 µV, that a re-plan gives step `k` of a region at a generation, before its bounds.
(DESIGN CHOICE 54) -/
opaque Config.replanVoltage (region gen k : Nat) : Nat

/-- R469: what the I3C target answers to GETPID, GETBCR, GETDCR and GETMXDS. -/
opaque Config.bmPid : BitVec 48
opaque Config.bmBcr : BitVec 8
opaque Config.bmDcr : BitVec 8
opaque Config.bmMxds : BitVec 16

end Sys2Proof
end

