-- ==== Sys2Proof/Machine/Registers.lean ====
section
/-! DEFINITION. The register map of chapters 2 to 17: every register of Table 17.5, its place (R452), width, reset
domain (R11) and fields with their access types (Table 0.5). A field whose Reset column says "cfg" carries here the
shipped value of the configuration image. -/
namespace Sys2Proof.Machine

/-- Access types of Table 0.5 (R10). -/
inductive Access where | ro | rw | rwl | w1c | w1s | rc | wo
deriving DecidableEq, Repr

/-- Reset domains of R11. -/
inductive Domain where | package | die | core | stack | link | hostPort | anise
deriving DecidableEq, Repr

/-- Every register of Table 17.5, under its own name. -/
inductive Reg where
  | arrStatus | arrBusyCycles | arrFrontBubble | arrFeedStall | arrVectors | arrParityCnt | arrCtl
  | sumacHistCfg | sumacPolicyCfg | sumacFbretCfg | sumacGfmtCfg | sumacCtl | sumacStatus | sumacSlot
  | fdrSliceCfg | safTruncCnt | safFloorCnt | safSpillCnt | safOvfCnt | safLaneStatus | safCtl | safSpillBase
  | safSpillSize | safSpillFree | safSpillHwm | safSpillGen | safSpillFail | safDieCtl | cardStatus
  | cardRows | cardSideEcc | cardSideValid | cardCtl | updUnitStatus | updUnitParams | updUnitEvents
  | updUnitScrub | updUnitOvf | updUnitClamp | updGrpNprev | updGrpClip | updGrpStatus | updGrpNoise
  | updClipTol | updClipHead | updClipFb | updFpCfg | updFpKey | updNoiseCfg | updLedgerBase | updCtl
  | lyrCfg | lyrLaneCfg | lyrRowCfg | lyrCtl | lyrQuiesce | lyrPortStatus | lyrPortEcc | lyrPortRepair
  | lyrSegRows | lyrThm | memIlvCfg | memCfg | memPcCfg | memScrubCfg | memPwrCfg | memCtl | memCapacity
  | memStackStatus | memPcEcc | memResetStatus | dmaEngStatus | dmaEngBytes | dmaEngErr | dmaPlanCfg
  | dmaPlanGrp | dmaPlanEntry | fenStatus | semValue | semQueue | semSchedCfg | semPrioRange | semPrioWeight
  | semStage | blCfg | blE2eCfg | blLaneCfg | blLinkStatus | blLinkReplay | blLinkFec | blLinkLane | blRmaWin
  | blRmaSem | blSemWatch | blErr | blRoute | collTreeStatus | collTreeBase | collExactStats | hpCfg
  | hpPortState | hpAttach | hpAdopt | hpHeartbeat | hpHbLast | hpDrvVersion | hpHoldBase | hpErr
  | kringBaseLo | kringBaseHi | kringCqbaseLo | kringCqbaseHi | kringCfg | kringIrq | kringStart | kringCtl
  | kringCounts | kringStatus | kringDbSq | kringDbCq | mbxCtl | mbxMap | mbxErr | mbxFwStatus | mbxFwVersion
  | mbxFwAct | mbxCompStatus | mbxChStatus | mbxChDb | mbxChWake | mbxChCfg | pwrCfg | pwrStatus | pwrInput
  | pwrEnergy | pwrShare | pwrDroopCfg | pwrSleepCfg | pwrDie | pwrStep | thmCfg | thmStatus | thmShutdown
  | ageCfg | ageRegion | aniTimebase | aniPowerCycles | nutCfg | nutTelCfg | nutStatus | nutTelStatus
  | cfgRegistryStatus | cfgRetireCfg | cfgBgStatus | cfgBootStatus | cfgImageStatus | cfgFloors | cfgDebug
  | aniResetCause | idVendor | idRev | idPart | idSerial | idPort | idLayout | hpEvtStatus | hpEvtEn
  | hpDevSummary | hpRingErr | capHdr | capStamp | capCores | capArrays | capCounts | capDram | capLayers
  | capBond | capLinks | capClock | capPc | capPeak
deriving DecidableEq, Repr

/-- One field of a register map: bits [hi:lo], access type, reset (or shipped) value, the least and greatest value
that software may give an RW or RWL field (R8; 0 and 0 for the others), and whether the Reset column says "cfg". -/
structure Field where
  reg : Reg
  hi : Nat
  lo : Nat
  acc : Access
  reset : Nat
  min : Nat
  max : Nat
  cfg : Bool
deriving DecidableEq, Repr

/-- Width of a field in bits. -/
def Field.width (f : Field) : Nat := f.hi - f.lo + 1

/-- ARR_STATUS.fmt_stat. -/
def arrStatusFmtStat : Field := ⟨.arrStatus, 23, 20, .ro, 0, 0, 0, false⟩
/-- ARR_STATUS.fmt_stream. -/
def arrStatusFmtStream : Field := ⟨.arrStatus, 19, 16, .ro, 0, 0, 0, false⟩
/-- ARR_STATUS.lanibifel. -/
def arrStatusLanibifel : Field := ⟨.arrStatus, 8, 8, .ro, 0, 0, 0, false⟩
/-- ARR_STATUS.slice_ext. -/
def arrStatusSliceExt : Field := ⟨.arrStatus, 7, 7, .ro, 0, 0, 0, false⟩
/-- ARR_STATUS.slice_mode. -/
def arrStatusSliceMode : Field := ⟨.arrStatus, 6, 6, .ro, 0, 0, 0, false⟩
/-- ARR_STATUS.hold_active. -/
def arrStatusHoldActive : Field := ⟨.arrStatus, 5, 5, .ro, 0, 0, 0, false⟩
/-- ARR_STATUS.gang. -/
def arrStatusGang : Field := ⟨.arrStatus, 4, 4, .ro, 0, 0, 0, false⟩
/-- ARR_STATUS.front_active. -/
def arrStatusFrontActive : Field := ⟨.arrStatus, 3, 3, .ro, 0, 0, 0, false⟩
/-- ARR_STATUS.shadow_full. -/
def arrStatusShadowFull : Field := ⟨.arrStatus, 2, 2, .ro, 0, 0, 0, false⟩
/-- ARR_STATUS.state. -/
def arrStatusState : Field := ⟨.arrStatus, 1, 0, .ro, 0, 0, 0, true⟩
/-- ARR_BUSY_CYCLES.busy. -/
def arrBusyCyclesBusy : Field := ⟨.arrBusyCycles, 63, 0, .ro, 0, 0, 0, false⟩
/-- ARR_FRONT_BUBBLE.bubble. -/
def arrFrontBubbleBubble : Field := ⟨.arrFrontBubble, 63, 0, .ro, 0, 0, 0, false⟩
/-- ARR_FEED_STALL.stall. -/
def arrFeedStallStall : Field := ⟨.arrFeedStall, 63, 0, .ro, 0, 0, 0, false⟩
/-- ARR_VECTORS.vectors. -/
def arrVectorsVectors : Field := ⟨.arrVectors, 63, 0, .ro, 0, 0, 0, false⟩
/-- ARR_PARITY_CNT.parity_err. -/
def arrParityCntParityErr : Field := ⟨.arrParityCnt, 31, 0, .ro, 0, 0, 0, false⟩
/-- ARR_CTL.cnt_freeze. -/
def arrCtlCntFreeze : Field := ⟨.arrCtl, 1, 1, .rw, 0, 0, 1, false⟩
/-- ARR_CTL.cnt_clear. -/
def arrCtlCntClear : Field := ⟨.arrCtl, 0, 0, .wo, 0, 0, 0, false⟩
/-- SUMAC_HIST_CFG.headroom_dflt. -/
def sumacHistCfgHeadroomDflt : Field := ⟨.sumacHistCfg, 11, 8, .rwl, 1, 0, 7, true⟩
/-- SUMAC_HIST_CFG.hist_len. -/
def sumacHistCfgHistLen : Field := ⟨.sumacHistCfg, 4, 0, .rwl, 0x10, 1, 16, true⟩
/-- SUMAC_POLICY_CFG.decay_steps. -/
def sumacPolicyCfgDecaySteps : Field := ⟨.sumacPolicyCfg, 31, 24, .rwl, 0x40, 1, 255, true⟩
/-- SUMAC_POLICY_CFG.extra_max. -/
def sumacPolicyCfgExtraMax : Field := ⟨.sumacPolicyCfg, 23, 20, .rwl, 8, 0, 8, true⟩
/-- SUMAC_POLICY_CFG.skip_window. -/
def sumacPolicyCfgSkipWindow : Field := ⟨.sumacPolicyCfg, 15, 8, .rwl, 0x64, 1, 128, true⟩
/-- SUMAC_POLICY_CFG.skip_max. -/
def sumacPolicyCfgSkipMax : Field := ⟨.sumacPolicyCfg, 7, 0, .rwl, 4, 0, 127, true⟩
/-- SUMAC_FBRET_CFG.fb_return. -/
def sumacFbretCfgFbReturn : Field := ⟨.sumacFbretCfg, 15, 0, .rwl, 0x3e8, 0, 65535, true⟩
/-- SUMAC_GFMT_CFG.qual_steps. -/
def sumacGfmtCfgQualSteps : Field := ⟨.sumacGfmtCfg, 15, 8, .rwl, 0x10, 1, 255, true⟩
/-- SUMAC_GFMT_CFG.uflow_log2. -/
def sumacGfmtCfgUflowLog2 : Field := ⟨.sumacGfmtCfg, 4, 0, .rwl, 0xa, 1, 31, true⟩
/-- SUMAC_CTL.lock. -/
def sumacCtlLock : Field := ⟨.sumacCtl, 0, 0, .w1s, 0, 0, 0, false⟩
/-- SUMAC_STATUS.slots_fallback. -/
def sumacStatusSlotsFallback : Field := ⟨.sumacStatus, 31, 16, .ro, 0, 0, 0, false⟩
/-- SUMAC_STATUS.slots_bound. -/
def sumacStatusSlotsBound : Field := ⟨.sumacStatus, 15, 0, .ro, 0, 0, 0, false⟩
/-- SUMAC_SLOT.hist. -/
def sumacSlotHist : Field := ⟨.sumacSlot, 511, 256, .ro, 0, 0, 0, false⟩
/-- SUMAC_SLOT.skip_win. -/
def sumacSlotSkipWin : Field := ⟨.sumacSlot, 255, 128, .ro, 0, 0, 0, false⟩
/-- SUMAC_SLOT.fmt_qual. -/
def sumacSlotFmtQual : Field := ⟨.sumacSlot, 115, 108, .ro, 0, 0, 0, false⟩
/-- SUMAC_SLOT.hist_count. -/
def sumacSlotHistCount : Field := ⟨.sumacSlot, 104, 100, .ro, 0, 0, 0, false⟩
/-- SUMAC_SLOT.hist_head. -/
def sumacSlotHistHead : Field := ⟨.sumacSlot, 99, 96, .ro, 0, 0, 0, false⟩
/-- SUMAC_SLOT.last_tag. -/
def sumacSlotLastTag : Field := ⟨.sumacSlot, 95, 64, .ro, 0, 0, 0, false⟩
/-- SUMAC_SLOT.fb_cnt. -/
def sumacSlotFbCnt : Field := ⟨.sumacSlot, 63, 48, .ro, 0, 0, 0, false⟩
/-- SUMAC_SLOT.clean. -/
def sumacSlotClean : Field := ⟨.sumacSlot, 47, 32, .ro, 0, 0, 0, false⟩
/-- SUMAC_SLOT.extra. -/
def sumacSlotExtra : Field := ⟨.sumacSlot, 31, 28, .ro, 0, 0, 0, false⟩
/-- SUMAC_SLOT.headroom. -/
def sumacSlotHeadroom : Field := ⟨.sumacSlot, 27, 24, .ro, 0, 0, 0, false⟩
/-- SUMAC_SLOT.clamped. -/
def sumacSlotClamped : Field := ⟨.sumacSlot, 23, 23, .ro, 0, 0, 0, false⟩
/-- SUMAC_SLOT.fallback. -/
def sumacSlotFallback : Field := ⟨.sumacSlot, 22, 22, .ro, 0, 0, 0, false⟩
/-- SUMAC_SLOT.policy. -/
def sumacSlotPolicy : Field := ⟨.sumacSlot, 21, 21, .ro, 0, 0, 0, false⟩
/-- SUMAC_SLOT.hist_mode. -/
def sumacSlotHistMode : Field := ⟨.sumacSlot, 20, 20, .ro, 0, 0, 0, false⟩
/-- SUMAC_SLOT.fmt. -/
def sumacSlotFmt : Field := ⟨.sumacSlot, 19, 16, .ro, 0, 0, 0, false⟩
/-- SUMAC_SLOT.bound. -/
def sumacSlotBound : Field := ⟨.sumacSlot, 15, 15, .ro, 0, 0, 0, false⟩
/-- SUMAC_SLOT.group. -/
def sumacSlotGroup : Field := ⟨.sumacSlot, 14, 11, .ro, 0, 0, 0, false⟩
/-- SUMAC_SLOT.e. -/
def sumacSlotE : Field := ⟨.sumacSlot, 7, 0, .ro, 0, 0, 0, false⟩
/-- FDR_SLICE_CFG.lock. -/
def fdrSliceCfgLock : Field := ⟨.fdrSliceCfg, 31, 31, .w1s, 0, 0, 0, false⟩
/-- FDR_SLICE_CFG.ext_mode. -/
def fdrSliceCfgExtMode : Field := ⟨.fdrSliceCfg, 1, 0, .rwl, 0, 0, 2, true⟩
/-- SAF_TRUNC_CNT.trunc. -/
def safTruncCntTrunc : Field := ⟨.safTruncCnt, 63, 0, .ro, 0, 0, 0, false⟩
/-- SAF_FLOOR_CNT.floor. -/
def safFloorCntFloor : Field := ⟨.safFloorCnt, 63, 0, .ro, 0, 0, 0, false⟩
/-- SAF_SPILL_CNT.spill. -/
def safSpillCntSpill : Field := ⟨.safSpillCnt, 63, 0, .ro, 0, 0, 0, false⟩
/-- SAF_OVF_CNT.ovf. -/
def safOvfCntOvf : Field := ⟨.safOvfCnt, 31, 0, .ro, 0, 0, 0, false⟩
/-- SAF_LANE_STATUS.mode. -/
def safLaneStatusMode : Field := ⟨.safLaneStatus, 5, 4, .ro, 0, 0, 0, false⟩
/-- SAF_LANE_STATUS.bank1. -/
def safLaneStatusBank1 : Field := ⟨.safLaneStatus, 3, 2, .ro, 0, 0, 0, false⟩
/-- SAF_LANE_STATUS.bank0. -/
def safLaneStatusBank0 : Field := ⟨.safLaneStatus, 1, 0, .ro, 0, 0, 0, false⟩
/-- SAF_CTL.cnt_freeze. -/
def safCtlCntFreeze : Field := ⟨.safCtl, 1, 1, .rw, 0, 0, 1, false⟩
/-- SAF_CTL.cnt_clear. -/
def safCtlCntClear : Field := ⟨.safCtl, 0, 0, .wo, 0, 0, 0, false⟩
/-- SAF_SPILL_BASE.base. -/
def safSpillBaseBase : Field := ⟨.safSpillBase, 29, 9, .rwl, 0x1f0000, 0, 2097151, true⟩
/-- SAF_SPILL_SIZE.units. -/
def safSpillSizeUnits : Field := ⟨.safSpillSize, 11, 0, .rwl, 0x40, 1, 2048, true⟩
/-- SAF_SPILL_FREE.free. -/
def safSpillFreeFree : Field := ⟨.safSpillFree, 23, 0, .ro, 0x40000, 0, 0, true⟩
/-- SAF_SPILL_HWM.min_free. -/
def safSpillHwmMinFree : Field := ⟨.safSpillHwm, 23, 0, .rc, 0x40000, 0, 0, true⟩
/-- SAF_SPILL_GEN.gen. -/
def safSpillGenGen : Field := ⟨.safSpillGen, 31, 0, .ro, 1, 0, 0, false⟩
/-- SAF_SPILL_FAIL.fail. -/
def safSpillFailFail : Field := ⟨.safSpillFail, 31, 0, .ro, 0, 0, 0, false⟩
/-- SAF_DIE_CTL.lock. -/
def safDieCtlLock : Field := ⟨.safDieCtl, 31, 31, .w1s, 0, 0, 0, false⟩
/-- SAF_DIE_CTL.lanibifel_en. -/
def safDieCtlLanibifelEn : Field := ⟨.safDieCtl, 0, 0, .rwl, 1, 0, 1, true⟩
/-- CARD_STATUS.kind. -/
def cardStatusKind : Field := ⟨.cardStatus, 11, 8, .ro, 0, 0, 0, false⟩
/-- CARD_STATUS.buffered. -/
def cardStatusBuffered : Field := ⟨.cardStatus, 2, 2, .ro, 0, 0, 0, false⟩
/-- CARD_STATUS.state. -/
def cardStatusState : Field := ⟨.cardStatus, 1, 0, .ro, 0, 0, 0, false⟩
/-- CARD_ROWS.rows. -/
def cardRowsRows : Field := ⟨.cardRows, 63, 0, .ro, 0, 0, 0, false⟩
/-- CARD_SIDE_ECC.uncorrectable. -/
def cardSideEccUncorrectable : Field := ⟨.cardSideEcc, 31, 16, .ro, 0, 0, 0, false⟩
/-- CARD_SIDE_ECC.corrected. -/
def cardSideEccCorrected : Field := ⟨.cardSideEcc, 15, 0, .ro, 0, 0, 0, false⟩
/-- CARD_SIDE_VALID.pages. -/
def cardSideValidPages : Field := ⟨.cardSideValid, 10, 0, .ro, 0, 0, 0, false⟩
/-- CARD_CTL.side_inval. -/
def cardCtlSideInval : Field := ⟨.cardCtl, 2, 2, .wo, 0, 0, 0, false⟩
/-- CARD_CTL.cnt_freeze. -/
def cardCtlCntFreeze : Field := ⟨.cardCtl, 1, 1, .rw, 0, 0, 1, false⟩
/-- CARD_CTL.cnt_clear. -/
def cardCtlCntClear : Field := ⟨.cardCtl, 0, 0, .wo, 0, 0, 0, false⟩
/-- UPD_UNIT_STATUS.shards. -/
def updUnitStatusShards : Field := ⟨.updUnitStatus, 29, 16, .ro, 0, 0, 0, false⟩
/-- UPD_UNIT_STATUS.phase. -/
def updUnitStatusPhase : Field := ⟨.updUnitStatus, 7, 4, .ro, 0, 0, 0, false⟩
/-- UPD_UNIT_STATUS.busy. -/
def updUnitStatusBusy : Field := ⟨.updUnitStatus, 0, 0, .ro, 0, 0, 0, false⟩
/-- UPD_UNIT_PARAMS.params. -/
def updUnitParamsParams : Field := ⟨.updUnitParams, 63, 0, .ro, 0, 0, 0, false⟩
/-- UPD_UNIT_EVENTS.rollfwd. -/
def updUnitEventsRollfwd : Field := ⟨.updUnitEvents, 31, 16, .ro, 0, 0, 0, false⟩
/-- UPD_UNIT_EVENTS.interrupted. -/
def updUnitEventsInterrupted : Field := ⟨.updUnitEvents, 15, 0, .ro, 0, 0, 0, false⟩
/-- UPD_UNIT_SCRUB.fixed. -/
def updUnitScrubFixed : Field := ⟨.updUnitScrub, 31, 16, .ro, 0, 0, 0, false⟩
/-- UPD_UNIT_SCRUB.passes. -/
def updUnitScrubPasses : Field := ⟨.updUnitScrub, 15, 0, .ro, 0, 0, 0, false⟩
/-- UPD_UNIT_OVF.sat. -/
def updUnitOvfSat : Field := ⟨.updUnitOvf, 31, 0, .ro, 0, 0, 0, false⟩
/-- UPD_UNIT_CLAMP.clamped. -/
def updUnitClampClamped : Field := ⟨.updUnitClamp, 31, 0, .ro, 0, 0, 0, false⟩
/-- UPD_GRP_NPREV.n_prev. -/
def updGrpNprevNPrev : Field := ⟨.updGrpNprev, 63, 0, .ro, 0, 0, 0, false⟩
/-- UPD_GRP_CLIP.c. -/
def updGrpClipC : Field := ⟨.updGrpClip, 31, 0, .ro, 0x3f800000, 0, 0, false⟩
/-- UPD_GRP_STATUS.fallback. -/
def updGrpStatusFallback : Field := ⟨.updGrpStatus, 31, 31, .ro, 0, 0, 0, false⟩
/-- UPD_GRP_STATUS.win_count. -/
def updGrpStatusWinCount : Field := ⟨.updGrpStatus, 30, 24, .ro, 0, 0, 0, false⟩
/-- UPD_GRP_STATUS.clean_run. -/
def updGrpStatusCleanRun : Field := ⟨.updGrpStatus, 23, 16, .ro, 0, 0, 0, false⟩
/-- UPD_GRP_STATUS.clip_dev. -/
def updGrpStatusClipDev : Field := ⟨.updGrpStatus, 15, 0, .ro, 0, 0, 0, false⟩
/-- UPD_GRP_NOISE.b_crit. -/
def updGrpNoiseBCrit : Field := ⟨.updGrpNoise, 95, 64, .ro, 0, 0, 0, false⟩
/-- UPD_GRP_NOISE.g. -/
def updGrpNoiseG : Field := ⟨.updGrpNoise, 63, 32, .ro, 0, 0, 0, false⟩
/-- UPD_GRP_NOISE.s. -/
def updGrpNoiseS : Field := ⟨.updGrpNoise, 31, 0, .ro, 0, 0, 0, false⟩
/-- UPD_CLIP_TOL.tol. -/
def updClipTolTol : Field := ⟨.updClipTol, 31, 0, .rwl, 0x3c23d70a, 0, 1065353216, true⟩
/-- UPD_CLIP_HEAD.h. -/
def updClipHeadH : Field := ⟨.updClipHead, 31, 0, .rwl, 0x3c23d70a, 0, 1065353216, true⟩
/-- UPD_CLIP_FB.clip_ret. -/
def updClipFbClipRet : Field := ⟨.updClipFb, 31, 24, .rwl, 0x40, 1, 255, true⟩
/-- UPD_CLIP_FB.clip_window. -/
def updClipFbClipWindow : Field := ⟨.updClipFb, 22, 16, .rwl, 0x64, 0, 127, true⟩
/-- UPD_CLIP_FB.clip_skip_max. -/
def updClipFbClipSkipMax : Field := ⟨.updClipFb, 6, 0, .rwl, 4, 0, 127, true⟩
/-- UPD_FP_CFG.enable. -/
def updFpCfgEnable : Field := ⟨.updFpCfg, 16, 16, .rwl, 1, 0, 1, true⟩
/-- UPD_FP_CFG.interval. -/
def updFpCfgInterval : Field := ⟨.updFpCfg, 15, 0, .rwl, 0x64, 1, 65535, true⟩
/-- UPD_FP_KEY.h. -/
def updFpKeyH : Field := ⟨.updFpKey, 127, 0, .rwl, 0x9e3779b97f4a7c15, 1, 2 ^ 128 - 1, true⟩
/-- UPD_NOISE_CFG.beta. -/
def updNoiseCfgBeta : Field := ⟨.updNoiseCfg, 31, 0, .rwl, 0x3f7d70a4, 0, 1065353216, true⟩
/-- UPD_LEDGER_BASE.base. -/
def updLedgerBaseBase : Field := ⟨.updLedgerBase, 19, 0, .rwl, 0x5fc00, 0, 1048575, true⟩
/-- UPD_CTL.lock. -/
def updCtlLock : Field := ⟨.updCtl, 0, 0, .w1s, 0, 0, 0, false⟩
/-- LYR_CFG.disagree. -/
def lyrCfgDisagree : Field := ⟨.lyrCfg, 27, 24, .rwl, 6, 2, 15, true⟩
/-- LYR_CFG.hold_limit. -/
def lyrCfgHoldLimit : Field := ⟨.lyrCfg, 23, 16, .rwl, 0x64, 10, 255, true⟩
/-- LYR_CFG.scrub_period. -/
def lyrCfgScrubPeriod : Field := ⟨.lyrCfg, 15, 0, .rwl, 0xe10, 60, 65535, true⟩
/-- LYR_LANE_CFG.lane_thr. -/
def lyrLaneCfgLaneThr : Field := ⟨.lyrLaneCfg, 15, 8, .rwl, 0x10, 2, 255, true⟩
/-- LYR_LANE_CFG.lane_win. -/
def lyrLaneCfgLaneWin : Field := ⟨.lyrLaneCfg, 7, 0, .rwl, 0xa, 1, 255, true⟩
/-- LYR_ROW_CFG.row_thr. -/
def lyrRowCfgRowThr : Field := ⟨.lyrRowCfg, 7, 0, .rwl, 2, 1, 255, true⟩
/-- LYR_CTL.lock. -/
def lyrCtlLock : Field := ⟨.lyrCtl, 0, 0, .w1s, 0, 0, 0, false⟩
/-- LYR_QUIESCE.forced_cnt. -/
def lyrQuiesceForcedCnt : Field := ⟨.lyrQuiesce, 63, 48, .ro, 0, 0, 0, false⟩
/-- LYR_QUIESCE.lost_rows. -/
def lyrQuiesceLostRows : Field := ⟨.lyrQuiesce, 47, 32, .ro, 0, 0, 0, false⟩
/-- LYR_QUIESCE.core. -/
def lyrQuiesceCore : Field := ⟨.lyrQuiesce, 24, 20, .ro, 0, 0, 0, false⟩
/-- LYR_QUIESCE.drain_ns. -/
def lyrQuiesceDrainNs : Field := ⟨.lyrQuiesce, 19, 8, .ro, 0, 0, 0, false⟩
/-- LYR_QUIESCE.forced. -/
def lyrQuiesceForced : Field := ⟨.lyrQuiesce, 4, 4, .ro, 0, 0, 0, false⟩
/-- LYR_QUIESCE.kind. -/
def lyrQuiesceKind : Field := ⟨.lyrQuiesce, 1, 0, .ro, 0, 0, 0, false⟩
/-- LYR_PORT_STATUS.state. -/
def lyrPortStatusState : Field := ⟨.lyrPortStatus, 31, 30, .ro, 0, 0, 0, true⟩
/-- LYR_PORT_STATUS.spares_used. -/
def lyrPortStatusSparesUsed : Field := ⟨.lyrPortStatus, 29, 23, .ro, 0, 0, 0, true⟩
/-- LYR_PORT_ECC.corrected. -/
def lyrPortEccCorrected : Field := ⟨.lyrPortEcc, 63, 32, .ro, 0, 0, 0, false⟩
/-- LYR_PORT_ECC.lane_attr. -/
def lyrPortEccLaneAttr : Field := ⟨.lyrPortEcc, 31, 16, .ro, 0, 0, 0, false⟩
/-- LYR_PORT_ECC.uncorrectable. -/
def lyrPortEccUncorrectable : Field := ⟨.lyrPortEcc, 15, 0, .ro, 0, 0, 0, false⟩
/-- LYR_PORT_REPAIR.map. -/
def lyrPortRepairMap : Field := ⟨.lyrPortRepair, 511, 0, .ro, 0, 0, 0, true⟩
/-- LYR_SEG_ROWS.l4. -/
def lyrSegRowsL4 : Field := ⟨.lyrSegRows, 63, 56, .ro, 0, 0, 0, true⟩
/-- LYR_SEG_ROWS.l3. -/
def lyrSegRowsL3 : Field := ⟨.lyrSegRows, 55, 48, .ro, 0, 0, 0, true⟩
/-- LYR_SEG_ROWS.l2. -/
def lyrSegRowsL2 : Field := ⟨.lyrSegRows, 47, 40, .ro, 0, 0, 0, true⟩
/-- LYR_SEG_ROWS.l1_a3. -/
def lyrSegRowsL1A3 : Field := ⟨.lyrSegRows, 39, 32, .ro, 0, 0, 0, true⟩
/-- LYR_SEG_ROWS.l1_a2. -/
def lyrSegRowsL1A2 : Field := ⟨.lyrSegRows, 31, 24, .ro, 0, 0, 0, true⟩
/-- LYR_SEG_ROWS.l1_a1. -/
def lyrSegRowsL1A1 : Field := ⟨.lyrSegRows, 23, 16, .ro, 0, 0, 0, true⟩
/-- LYR_SEG_ROWS.l1_a0. -/
def lyrSegRowsL1A0 : Field := ⟨.lyrSegRows, 15, 8, .ro, 0, 0, 0, true⟩
/-- LYR_THM.gov. -/
def lyrThmGov : Field := ⟨.lyrThm, 127, 112, .ro, 0, 0, 0, false⟩
/-- LYR_THM.model. -/
def lyrThmModel : Field := ⟨.lyrThm, 111, 96, .ro, 0, 0, 0, false⟩
/-- LYR_THM.canary. -/
def lyrThmCanary : Field := ⟨.lyrThm, 95, 80, .ro, 0, 0, 0, false⟩
/-- LYR_THM.diode. -/
def lyrThmDiode : Field := ⟨.lyrThm, 79, 64, .ro, 0, 0, 0, false⟩
/-- LYR_THM.flags. -/
def lyrThmFlags : Field := ⟨.lyrThm, 15, 8, .ro, 0, 0, 0, false⟩
/-- LYR_THM.canary_fault. -/
def lyrThmCanaryFault : Field := ⟨.lyrThm, 5, 5, .ro, 0, 0, 0, true⟩
/-- LYR_THM.canary_floor. -/
def lyrThmCanaryFloor : Field := ⟨.lyrThm, 4, 4, .ro, 0, 0, 0, false⟩
/-- LYR_THM.retired. -/
def lyrThmRetired : Field := ⟨.lyrThm, 3, 3, .ro, 0, 0, 0, true⟩
/-- LYR_THM.suspect. -/
def lyrThmSuspect : Field := ⟨.lyrThm, 2, 2, .ro, 0, 0, 0, false⟩
/-- LYR_THM.gov_src. -/
def lyrThmGovSrc : Field := ⟨.lyrThm, 1, 0, .ro, 0, 0, 0, false⟩
/-- MEM_ILV_CFG.local. -/
def memIlvCfgLocal : Field := ⟨.memIlvCfg, 6, 0, .rwl, 0, 0, 64, true⟩
/-- MEM_CFG.mig_share. -/
def memCfgMigShare : Field := ⟨.memCfg, 31, 24, .rwl, 0x32, 10, 100, true⟩
/-- MEM_CFG.hold_limit. -/
def memCfgHoldLimit : Field := ⟨.memCfg, 11, 0, .rwl, 0x3e8, 300, 4095, true⟩
/-- MEM_PC_CFG.unc_thr. -/
def memPcCfgUncThr : Field := ⟨.memPcCfg, 31, 24, .rwl, 2, 1, 255, true⟩
/-- MEM_PC_CFG.corr_thr. -/
def memPcCfgCorrThr : Field := ⟨.memPcCfg, 15, 0, .rwl, 0x400, 1, 65535, true⟩
/-- MEM_SCRUB_CFG.period. -/
def memScrubCfgPeriod : Field := ⟨.memScrubCfg, 15, 0, .rwl, 0x90, 6, 65535, true⟩
/-- MEM_PWR_CFG.e_wr. -/
def memPwrCfgEWr : Field := ⟨.memPwrCfg, 63, 48, .rwl, 0x258, 0, 65535, true⟩
/-- MEM_PWR_CFG.e_rd. -/
def memPwrCfgERd : Field := ⟨.memPwrCfg, 47, 32, .rwl, 0x226, 0, 65535, true⟩
/-- MEM_PWR_CFG.e_act. -/
def memPwrCfgEAct : Field := ⟨.memPwrCfg, 31, 16, .rwl, 0x3e8, 0, 65535, true⟩
/-- MEM_PWR_CFG.cap_mw. -/
def memPwrCfgCapMw : Field := ⟨.memPwrCfg, 15, 0, .rwl, 0x9c40, 10000, 40000, true⟩
/-- MEM_CTL.lock. -/
def memCtlLock : Field := ⟨.memCtl, 0, 0, .w1s, 0, 0, 0, false⟩
/-- MEM_CAPACITY.retired. -/
def memCapacityRetired : Field := ⟨.memCapacity, 9, 0, .ro, 0, 0, 0, true⟩
/-- MEM_STACK_STATUS.power_mw. -/
def memStackStatusPowerMw : Field := ⟨.memStackStatus, 63, 48, .ro, 0, 0, 0, false⟩
/-- MEM_STACK_STATUS.temp. -/
def memStackStatusTemp : Field := ⟨.memStackStatus, 47, 32, .ro, 0, 0, 0, false⟩
/-- MEM_STACK_STATUS.limit_pct. -/
def memStackStatusLimitPct : Field := ⟨.memStackStatus, 31, 24, .ro, 0, 0, 0, false⟩
/-- MEM_STACK_STATUS.moving. -/
def memStackStatusMoving : Field := ⟨.memStackStatus, 15, 12, .ro, 0, 0, 0, false⟩
/-- MEM_STACK_STATUS.spares_used. -/
def memStackStatusSparesUsed : Field := ⟨.memStackStatus, 11, 10, .ro, 0, 0, 0, true⟩
/-- MEM_STACK_STATUS.refresh_2x. -/
def memStackStatusRefresh2x : Field := ⟨.memStackStatus, 9, 9, .ro, 0, 0, 0, false⟩
/-- MEM_STACK_STATUS.retired. -/
def memStackStatusRetired : Field := ⟨.memStackStatus, 8, 8, .ro, 0, 0, 0, true⟩
/-- MEM_STACK_STATUS.state. -/
def memStackStatusState : Field := ⟨.memStackStatus, 1, 0, .ro, 0, 0, 0, false⟩
/-- MEM_PC_ECC.corrected. -/
def memPcEccCorrected : Field := ⟨.memPcEcc, 63, 32, .ro, 0, 0, 0, false⟩
/-- MEM_PC_ECC.uncorrectable. -/
def memPcEccUncorrectable : Field := ⟨.memPcEcc, 31, 16, .ro, 0, 0, 0, false⟩
/-- MEM_PC_ECC.state. -/
def memPcEccState : Field := ⟨.memPcEcc, 1, 0, .ro, 0, 0, 0, true⟩
/-- MEM_RESET_STATUS.failed_reqs. -/
def memResetStatusFailedReqs : Field := ⟨.memResetStatus, 31, 16, .ro, 0, 0, 0, false⟩
/-- MEM_RESET_STATUS.count. -/
def memResetStatusCount : Field := ⟨.memResetStatus, 15, 0, .ro, 0, 0, 0, false⟩
/-- DMA_ENG_STATUS.in_flight. -/
def dmaEngStatusInFlight : Field := ⟨.dmaEngStatus, 8, 1, .ro, 0, 0, 0, false⟩
/-- DMA_ENG_STATUS.busy. -/
def dmaEngStatusBusy : Field := ⟨.dmaEngStatus, 0, 0, .ro, 0, 0, 0, false⟩
/-- DMA_ENG_BYTES.bytes. -/
def dmaEngBytesBytes : Field := ⟨.dmaEngBytes, 63, 0, .ro, 0, 0, 0, false⟩
/-- DMA_ENG_ERR.failed. -/
def dmaEngErrFailed : Field := ⟨.dmaEngErr, 31, 0, .ro, 0, 0, 0, false⟩
/-- DMA_PLAN_CFG.lock. -/
def dmaPlanCfgLock : Field := ⟨.dmaPlanCfg, 31, 31, .w1s, 0, 0, 0, false⟩
/-- DMA_PLAN_CFG.host_max. -/
def dmaPlanCfgHostMax : Field := ⟨.dmaPlanCfg, 15, 0, .rwl, 0x40, 0, 65535, true⟩
/-- DMA_PLAN_GRP.host_size. -/
def dmaPlanGrpHostSize : Field := ⟨.dmaPlanGrp, 383, 320, .rw, 0, 0, 2 ^ 64 - 1, false⟩
/-- DMA_PLAN_GRP.host_base. -/
def dmaPlanGrpHostBase : Field := ⟨.dmaPlanGrp, 319, 256, .rw, 0, 0, 2 ^ 64 - 1, false⟩
/-- DMA_PLAN_GRP.dram_size. -/
def dmaPlanGrpDramSize : Field := ⟨.dmaPlanGrp, 255, 192, .rw, 0, 0, 2 ^ 64 - 1, false⟩
/-- DMA_PLAN_GRP.dram_base. -/
def dmaPlanGrpDramBase : Field := ⟨.dmaPlanGrp, 191, 128, .rw, 0, 0, 2 ^ 64 - 1, false⟩
/-- DMA_PLAN_GRP.home_size. -/
def dmaPlanGrpHomeSize : Field := ⟨.dmaPlanGrp, 127, 64, .rw, 0, 0, 2 ^ 64 - 1, false⟩
/-- DMA_PLAN_GRP.home_base. -/
def dmaPlanGrpHomeBase : Field := ⟨.dmaPlanGrp, 63, 0, .rw, 0, 0, 2 ^ 64 - 1, false⟩
/-- DMA_PLAN_ENTRY.slack_us. -/
def dmaPlanEntrySlackUs : Field := ⟨.dmaPlanEntry, 255, 224, .ro, 0, 0, 0, false⟩
/-- DMA_PLAN_ENTRY.t_rc_us. -/
def dmaPlanEntryTRcUs : Field := ⟨.dmaPlanEntry, 223, 192, .ro, 0, 0, 0, false⟩
/-- DMA_PLAN_ENTRY.size. -/
def dmaPlanEntrySize : Field := ⟨.dmaPlanEntry, 191, 128, .rw, 0, 0, 2 ^ 64 - 1, false⟩
/-- DMA_PLAN_ENTRY.home. -/
def dmaPlanEntryHome : Field := ⟨.dmaPlanEntry, 127, 64, .rw, 0, 0, 2 ^ 64 - 1, false⟩
/-- DMA_PLAN_ENTRY.placed. -/
def dmaPlanEntryPlaced : Field := ⟨.dmaPlanEntry, 18, 16, .ro, 0, 0, 0, false⟩
/-- DMA_PLAN_ENTRY.permit. -/
def dmaPlanEntryPermit : Field := ⟨.dmaPlanEntry, 15, 12, .rw, 0, 0, 15, false⟩
/-- DMA_PLAN_ENTRY.valid. -/
def dmaPlanEntryValid : Field := ⟨.dmaPlanEntry, 4, 4, .rw, 0, 0, 1, false⟩
/-- DMA_PLAN_ENTRY.group. -/
def dmaPlanEntryGroup : Field := ⟨.dmaPlanEntry, 3, 0, .rw, 0, 0, 15, false⟩
/-- FEN_STATUS.transfers. -/
def fenStatusTransfers : Field := ⟨.fenStatus, 63, 16, .ro, 0, 0, 0, false⟩
/-- FEN_STATUS.queued. -/
def fenStatusQueued : Field := ⟨.fenStatus, 15, 8, .ro, 0, 0, 0, false⟩
/-- FEN_STATUS.share_pct. -/
def fenStatusSharePct : Field := ⟨.fenStatus, 7, 0, .ro, 0, 0, 0, false⟩
/-- SEM_VALUE.err. -/
def semValueErr : Field := ⟨.semValue, 32, 32, .rw, 0, 0, 1, false⟩
/-- SEM_VALUE.count. -/
def semValueCount : Field := ⟨.semValue, 31, 0, .rw, 0, 0, 4294967295, false⟩
/-- SEM_QUEUE.credits. -/
def semQueueCredits : Field := ⟨.semQueue, 104, 96, .ro, 0, 0, 0, false⟩
/-- SEM_QUEUE.bwd_pair. -/
def semQueueBwdPair : Field := ⟨.semQueue, 80, 64, .rw, 0, 0, 131071, false⟩
/-- SEM_QUEUE.fwd_pair. -/
def semQueueFwdPair : Field := ⟨.semQueue, 48, 32, .rw, 0, 0, 131071, false⟩
/-- SEM_QUEUE.slots. -/
def semQueueSlots : Field := ⟨.semQueue, 8, 0, .rw, 0, 2, 256, false⟩
/-- SEM_SCHED_CFG.lock. -/
def semSchedCfgLock : Field := ⟨.semSchedCfg, 31, 31, .w1s, 0, 0, 0, false⟩
/-- SEM_SCHED_CFG.idle_pct. -/
def semSchedCfgIdlePct : Field := ⟨.semSchedCfg, 30, 24, .rwl, 5, 1, 100, true⟩
/-- SEM_SCHED_CFG.stall_rec. -/
def semSchedCfgStallRec : Field := ⟨.semSchedCfg, 23, 16, .rwl, 0xa, 1, 255, true⟩
/-- SEM_SCHED_CFG.d_max. -/
def semSchedCfgDMax : Field := ⟨.semSchedCfg, 15, 8, .rwl, 0x10, 1, 64, true⟩
/-- SEM_SCHED_CFG.d_min. -/
def semSchedCfgDMin : Field := ⟨.semSchedCfg, 7, 0, .rwl, 1, 1, 64, true⟩
/-- SEM_PRIO_RANGE.max3. -/
def semPrioRangeMax3 : Field := ⟨.semPrioRange, 63, 56, .rwl, 0x40, 1, 255, true⟩
/-- SEM_PRIO_RANGE.min3. -/
def semPrioRangeMin3 : Field := ⟨.semPrioRange, 55, 48, .rwl, 1, 1, 255, true⟩
/-- SEM_PRIO_RANGE.max2. -/
def semPrioRangeMax2 : Field := ⟨.semPrioRange, 47, 40, .rwl, 0x40, 1, 255, true⟩
/-- SEM_PRIO_RANGE.min2. -/
def semPrioRangeMin2 : Field := ⟨.semPrioRange, 39, 32, .rwl, 1, 1, 255, true⟩
/-- SEM_PRIO_RANGE.max1. -/
def semPrioRangeMax1 : Field := ⟨.semPrioRange, 31, 24, .rwl, 0x40, 1, 255, true⟩
/-- SEM_PRIO_RANGE.min1. -/
def semPrioRangeMin1 : Field := ⟨.semPrioRange, 23, 16, .rwl, 1, 1, 255, true⟩
/-- SEM_PRIO_RANGE.max0. -/
def semPrioRangeMax0 : Field := ⟨.semPrioRange, 15, 8, .rwl, 0x40, 1, 255, true⟩
/-- SEM_PRIO_RANGE.min0. -/
def semPrioRangeMin0 : Field := ⟨.semPrioRange, 7, 0, .rwl, 1, 1, 255, true⟩
/-- SEM_PRIO_WEIGHT.w3. -/
def semPrioWeightW3 : Field := ⟨.semPrioWeight, 31, 24, .ro, 1, 0, 0, true⟩
/-- SEM_PRIO_WEIGHT.w2. -/
def semPrioWeightW2 : Field := ⟨.semPrioWeight, 23, 16, .ro, 2, 0, 0, true⟩
/-- SEM_PRIO_WEIGHT.w1. -/
def semPrioWeightW1 : Field := ⟨.semPrioWeight, 15, 8, .ro, 4, 0, 0, true⟩
/-- SEM_PRIO_WEIGHT.w0. -/
def semPrioWeightW0 : Field := ⟨.semPrioWeight, 7, 0, .ro, 8, 0, 0, true⟩
/-- SEM_STAGE.imbalance. -/
def semStageImbalance : Field := ⟨.semStage, 127, 96, .ro, 0, 0, 0, false⟩
/-- SEM_STAGE.idle_us. -/
def semStageIdleUs : Field := ⟨.semStage, 95, 64, .ro, 0, 0, 0, false⟩
/-- SEM_STAGE.busy_us. -/
def semStageBusyUs : Field := ⟨.semStage, 63, 32, .ro, 0, 0, 0, false⟩
/-- SEM_STAGE.depth. -/
def semStageDepth : Field := ⟨.semStage, 7, 0, .ro, 0, 0, 0, false⟩
/-- BL_CFG.lock. -/
def blCfgLock : Field := ⟨.blCfg, 31, 31, .w1s, 0, 0, 0, false⟩
/-- BL_CFG.dev_id. -/
def blCfgDevId : Field := ⟨.blCfg, 13, 0, .rwl, 0, 0, 16383, true⟩
/-- BL_E2E_CFG.close_timeout. -/
def blE2eCfgCloseTimeout : Field := ⟨.blE2eCfg, 31, 24, .rwl, 0x3c, 0, 255, true⟩
/-- BL_E2E_CFG.probe_timeout. -/
def blE2eCfgProbeTimeout : Field := ⟨.blE2eCfg, 23, 16, .rwl, 5, 2, 255, true⟩
/-- BL_E2E_CFG.probe_ms. -/
def blE2eCfgProbeMs : Field := ⟨.blE2eCfg, 15, 8, .rwl, 1, 1, 255, true⟩
/-- BL_E2E_CFG.resp_timeout. -/
def blE2eCfgRespTimeout : Field := ⟨.blE2eCfg, 7, 0, .rwl, 0xa, 1, 255, true⟩
/-- BL_LANE_CFG.sym_thr. -/
def blLaneCfgSymThr : Field := ⟨.blLaneCfg, 31, 16, .rwl, 0x800, 1, 65535, true⟩
/-- BL_LANE_CFG.ucw_thr. -/
def blLaneCfgUcwThr : Field := ⟨.blLaneCfg, 15, 8, .rwl, 0x40, 1, 255, true⟩
/-- BL_LANE_CFG.replay_max. -/
def blLaneCfgReplayMax : Field := ⟨.blLaneCfg, 7, 0, .rwl, 8, 2, 255, true⟩
/-- BL_LINK_STATUS.state. -/
def blLinkStatusState : Field := ⟨.blLinkStatus, 31, 30, .ro, 1, 0, 0, false⟩
/-- BL_LINK_STATUS.lanes. -/
def blLinkStatusLanes : Field := ⟨.blLinkStatus, 29, 26, .ro, 0xf, 0, 0, true⟩
/-- BL_LINK_STATUS.peer_id. -/
def blLinkStatusPeerId : Field := ⟨.blLinkStatus, 23, 10, .ro, 0, 0, 0, false⟩
/-- BL_LINK_STATUS.peer_port. -/
def blLinkStatusPeerPort : Field := ⟨.blLinkStatus, 9, 4, .ro, 0, 0, 0, false⟩
/-- BL_LINK_REPLAY.replays. -/
def blLinkReplayReplays : Field := ⟨.blLinkReplay, 47, 0, .ro, 0, 0, 0, false⟩
/-- BL_LINK_FEC.corrected. -/
def blLinkFecCorrected : Field := ⟨.blLinkFec, 63, 32, .ro, 0, 0, 0, false⟩
/-- BL_LINK_FEC.ucw. -/
def blLinkFecUcw : Field := ⟨.blLinkFec, 31, 0, .ro, 0, 0, 0, false⟩
/-- BL_LINK_LANE.sym. -/
def blLinkLaneSym : Field := ⟨.blLinkLane, 127, 0, .ro, 0, 0, 0, false⟩
/-- BL_RMA_WIN.size. -/
def blRmaWinSize : Field := ⟨.blRmaWin, 127, 76, .rwl, 0, 0, 2 ^ 52 - 1, true⟩
/-- BL_RMA_WIN.base. -/
def blRmaWinBase : Field := ⟨.blRmaWin, 63, 12, .rwl, 0, 0, 2 ^ 52 - 1, true⟩
/-- BL_RMA_WIN.wr. -/
def blRmaWinWr : Field := ⟨.blRmaWin, 1, 1, .rwl, 0, 0, 1, true⟩
/-- BL_RMA_WIN.rd. -/
def blRmaWinRd : Field := ⟨.blRmaWin, 0, 0, .rwl, 0, 0, 1, true⟩
/-- BL_RMA_SEM.hi. -/
def blRmaSemHi : Field := ⟨.blRmaSem, 49, 32, .rwl, 0, 0, 262143, true⟩
/-- BL_RMA_SEM.lo. -/
def blRmaSemLo : Field := ⟨.blRmaSem, 17, 0, .rwl, 1, 0, 262143, true⟩
/-- BL_SEM_WATCH.sem. -/
def blSemWatchSem : Field := ⟨.blSemWatch, 49, 32, .rw, 0, 0, 262143, false⟩
/-- BL_SEM_WATCH.valid. -/
def blSemWatchValid : Field := ⟨.blSemWatch, 15, 15, .rw, 0, 0, 1, false⟩
/-- BL_SEM_WATCH.peer. -/
def blSemWatchPeer : Field := ⟨.blSemWatch, 13, 0, .rw, 0, 0, 16383, false⟩
/-- BL_ERR.unroutable. -/
def blErrUnroutable : Field := ⟨.blErr, 63, 48, .ro, 0, 0, 0, false⟩
/-- BL_ERR.denied. -/
def blErrDenied : Field := ⟨.blErr, 47, 32, .ro, 0, 0, 0, false⟩
/-- BL_ERR.resp_to. -/
def blErrRespTo : Field := ⟨.blErr, 31, 16, .ro, 0, 0, 0, false⟩
/-- BL_ERR.proto. -/
def blErrProto : Field := ⟨.blErr, 15, 0, .ro, 0, 0, 0, false⟩
/-- BL_ROUTE.valid. -/
def blRouteValid : Field := ⟨.blRoute, 15, 15, .ro, 0, 0, 0, false⟩
/-- BL_ROUTE.alt_valid. -/
def blRouteAltValid : Field := ⟨.blRoute, 14, 14, .ro, 0, 0, 0, false⟩
/-- BL_ROUTE.alt_port. -/
def blRouteAltPort : Field := ⟨.blRoute, 13, 8, .ro, 0, 0, 0, false⟩
/-- BL_ROUTE.port. -/
def blRoutePort : Field := ⟨.blRoute, 5, 0, .ro, 0, 0, 0, false⟩
/-- COLL_TREE_STATUS.digest. -/
def collTreeStatusDigest : Field := ⟨.collTreeStatus, 127, 64, .ro, 0, 0, 0, false⟩
/-- COLL_TREE_STATUS.trees. -/
def collTreeStatusTrees : Field := ⟨.collTreeStatus, 63, 60, .ro, 0, 0, 0, false⟩
/-- COLL_TREE_STATUS.state. -/
def collTreeStatusState : Field := ⟨.collTreeStatus, 59, 58, .ro, 0, 0, 0, false⟩
/-- COLL_TREE_STATUS.leaves. -/
def collTreeStatusLeaves : Field := ⟨.collTreeStatus, 57, 41, .ro, 0, 0, 0, false⟩
/-- COLL_TREE_STATUS.nodes. -/
def collTreeStatusNodes : Field := ⟨.collTreeStatus, 40, 22, .ro, 0, 0, 0, false⟩
/-- COLL_TREE_BASE.base. -/
def collTreeBaseBase : Field := ⟨.collTreeBase, 63, 12, .rwl, 0xc000, 0, 2 ^ 52 - 1, true⟩
/-- COLL_TREE_BASE.lock. -/
def collTreeBaseLock : Field := ⟨.collTreeBase, 0, 0, .w1s, 0, 0, 0, false⟩
/-- COLL_EXACT_STATS.spills. -/
def collExactStatsSpills : Field := ⟨.collExactStats, 63, 32, .ro, 0, 0, 0, false⟩
/-- COLL_EXACT_STATS.cap_fail. -/
def collExactStatsCapFail : Field := ⟨.collExactStats, 31, 0, .ro, 0, 0, 0, false⟩
/-- HP_CFG.lock. -/
def hpCfgLock : Field := ⟨.hpCfg, 63, 63, .w1s, 0, 0, 0, false⟩
/-- HP_CFG.class_allow. -/
def hpCfgClassAllow : Field := ⟨.hpCfg, 59, 56, .rwl, 0xf, 0, 15, true⟩
/-- HP_CFG.adoptive. -/
def hpCfgAdoptive : Field := ⟨.hpCfg, 55, 55, .rwl, 0, 0, 1, true⟩
/-- HP_CFG.cross_host. -/
def hpCfgCrossHost : Field := ⟨.hpCfg, 54, 54, .rwl, 0, 0, 1, true⟩
/-- HP_CFG.load_right. -/
def hpCfgLoadRight : Field := ⟨.hpCfg, 53, 53, .rwl, 1, 0, 1, true⟩
/-- HP_CFG.orphan_close. -/
def hpCfgOrphanClose : Field := ⟨.hpCfg, 47, 40, .rwl, 0x1e, 0, 255, true⟩
/-- HP_CFG.hb_timeout. -/
def hpCfgHbTimeout : Field := ⟨.hpCfg, 39, 28, .rwl, 0xc8, 10, 4095, true⟩
/-- HP_CFG.ring_hi. -/
def hpCfgRingHi : Field := ⟨.hpCfg, 27, 14, .rwl, 0, 0, 16383, true⟩
/-- HP_CFG.ring_lo. -/
def hpCfgRingLo : Field := ⟨.hpCfg, 13, 0, .rwl, 0, 0, 16383, true⟩
/-- HP_PORT_STATE.session. -/
def hpPortStateSession : Field := ⟨.hpPortState, 31, 16, .ro, 0, 0, 0, false⟩
/-- HP_PORT_STATE.epoch_open. -/
def hpPortStateEpochOpen : Field := ⟨.hpPortState, 7, 7, .ro, 0, 0, 0, false⟩
/-- HP_PORT_STATE.state. -/
def hpPortStateState : Field := ⟨.hpPortState, 3, 0, .ro, 0, 0, 0, false⟩
/-- HP_ATTACH.result. -/
def hpAttachResult : Field := ⟨.hpAttach, 31, 24, .ro, 0, 0, 0, false⟩
/-- HP_ATTACH.cmd. -/
def hpAttachCmd : Field := ⟨.hpAttach, 3, 0, .wo, 0, 0, 0, false⟩
/-- HP_ADOPT.result. -/
def hpAdoptResult : Field := ⟨.hpAdopt, 31, 24, .ro, 0, 0, 0, false⟩
/-- HP_ADOPT.cmd. -/
def hpAdoptCmd : Field := ⟨.hpAdopt, 3, 0, .wo, 0, 0, 0, false⟩
/-- HP_HEARTBEAT.beat. -/
def hpHeartbeatBeat : Field := ⟨.hpHeartbeat, 31, 0, .rw, 0, 0, 4294967295, false⟩
/-- HP_HB_LAST.stamp. -/
def hpHbLastStamp : Field := ⟨.hpHbLast, 63, 0, .ro, 0, 0, 0, false⟩
/-- HP_DRV_VERSION.major. -/
def hpDrvVersionMajor : Field := ⟨.hpDrvVersion, 31, 24, .rw, 0, 0, 255, false⟩
/-- HP_DRV_VERSION.minor. -/
def hpDrvVersionMinor : Field := ⟨.hpDrvVersion, 23, 16, .rw, 0, 0, 255, false⟩
/-- HP_DRV_VERSION.patch. -/
def hpDrvVersionPatch : Field := ⟨.hpDrvVersion, 15, 0, .rw, 0, 0, 65535, false⟩
/-- HP_HOLD_BASE.base. -/
def hpHoldBaseBase : Field := ⟨.hpHoldBase, 63, 12, .rwl, 0x4000, 0, 2 ^ 52 - 1, true⟩
/-- HP_ERR.foreign_write. -/
def hpErrForeignWrite : Field := ⟨.hpErr, 63, 48, .ro, 0, 0, 0, false⟩
/-- HP_ERR.doorbell_bad. -/
def hpErrDoorbellBad : Field := ⟨.hpErr, 47, 32, .ro, 0, 0, 0, false⟩
/-- HP_ERR.fetch_err. -/
def hpErrFetchErr : Field := ⟨.hpErr, 31, 16, .ro, 0, 0, 0, false⟩
/-- HP_ERR.misaligned. -/
def hpErrMisaligned : Field := ⟨.hpErr, 15, 0, .ro, 0, 0, 0, false⟩
/-- KRING_BASE_LO.base_lo. -/
def kringBaseLoBaseLo : Field := ⟨.kringBaseLo, 31, 12, .rw, 0, 0, 1048575, false⟩
/-- KRING_BASE_HI.base_hi. -/
def kringBaseHiBaseHi : Field := ⟨.kringBaseHi, 31, 0, .rw, 0, 0, 4294967295, false⟩
/-- KRING_CQBASE_LO.base_lo. -/
def kringCqbaseLoBaseLo : Field := ⟨.kringCqbaseLo, 31, 12, .rw, 0, 0, 1048575, false⟩
/-- KRING_CQBASE_HI.base_hi. -/
def kringCqbaseHiBaseHi : Field := ⟨.kringCqbaseHi, 31, 0, .rw, 0, 0, 4294967295, false⟩
/-- KRING_CFG.enable. -/
def kringCfgEnable : Field := ⟨.kringCfg, 31, 31, .rw, 0, 0, 1, false⟩
/-- KRING_CFG.owner. -/
def kringCfgOwner : Field := ⟨.kringCfg, 30, 30, .ro, 0, 0, 0, false⟩
/-- KRING_CFG.prio. -/
def kringCfgPrio : Field := ⟨.kringCfg, 27, 26, .rw, 0, 0, 3, false⟩
/-- KRING_CFG.class. -/
def kringCfgClass : Field := ⟨.kringCfg, 25, 24, .rw, 0, 0, 3, false⟩
/-- KRING_CFG.log2_depth. -/
def kringCfgLog2Depth : Field := ⟨.kringCfg, 23, 19, .rw, 6, 0, 31, false⟩
/-- KRING_CFG.vec_en. -/
def kringCfgVecEn : Field := ⟨.kringCfg, 15, 15, .rw, 0, 0, 1, false⟩
/-- KRING_CFG.vector. -/
def kringCfgVector : Field := ⟨.kringCfg, 10, 0, .rw, 0, 0, 2047, false⟩
/-- KRING_IRQ.time_us. -/
def kringIrqTimeUs : Field := ⟨.kringIrq, 25, 16, .rw, 0, 0, 1023, false⟩
/-- KRING_IRQ.count. -/
def kringIrqCount : Field := ⟨.kringIrq, 8, 0, .rw, 1, 1, 256, false⟩
/-- KRING_START.start. -/
def kringStartStart : Field := ⟨.kringStart, 31, 0, .rw, 0, 0, 4294967295, false⟩
/-- KRING_CTL.abort. -/
def kringCtlAbort : Field := ⟨.kringCtl, 1, 1, .wo, 0, 0, 0, false⟩
/-- KRING_CTL.clear_err. -/
def kringCtlClearErr : Field := ⟨.kringCtl, 0, 0, .wo, 0, 0, 0, false⟩
/-- KRING_COUNTS.cq_head. -/
def kringCountsCqHead : Field := ⟨.kringCounts, 127, 96, .ro, 0, 0, 0, false⟩
/-- KRING_COUNTS.cq_tail. -/
def kringCountsCqTail : Field := ⟨.kringCounts, 95, 64, .ro, 0, 0, 0, false⟩
/-- KRING_COUNTS.sq_head. -/
def kringCountsSqHead : Field := ⟨.kringCounts, 63, 32, .ro, 0, 0, 0, false⟩
/-- KRING_COUNTS.sq_tail. -/
def kringCountsSqTail : Field := ⟨.kringCounts, 31, 0, .ro, 0, 0, 0, false⟩
/-- KRING_STATUS.state. -/
def kringStatusState : Field := ⟨.kringStatus, 31, 28, .ro, 0, 0, 0, false⟩
/-- KRING_STATUS.err. -/
def kringStatusErr : Field := ⟨.kringStatus, 27, 24, .ro, 0, 0, 0, false⟩
/-- KRING_STATUS.inflight. -/
def kringStatusInflight : Field := ⟨.kringStatus, 8, 0, .ro, 0, 0, 0, false⟩
/-- KRING_DB_SQ.count. -/
def kringDbSqCount : Field := ⟨.kringDbSq, 31, 0, .rw, 0, 0, 4294967295, false⟩
/-- KRING_DB_CQ.count. -/
def kringDbCqCount : Field := ⟨.kringDbCq, 31, 0, .rw, 0, 0, 4294967295, false⟩
/-- MBX_CTL.lock. -/
def mbxCtlLock : Field := ⟨.mbxCtl, 0, 0, .w1s, 0, 0, 0, false⟩
/-- MBX_MAP.enabled. -/
def mbxMapEnabled : Field := ⟨.mbxMap, 8, 8, .ro, 0, 0, 0, true⟩
/-- MBX_MAP.responder. -/
def mbxMapResponder : Field := ⟨.mbxMap, 6, 4, .rwl, 0, 0, 7, true⟩
/-- MBX_MAP.initiator. -/
def mbxMapInitiator : Field := ⟨.mbxMap, 2, 0, .rwl, 0, 0, 7, true⟩
/-- MBX_ERR.cumin_range. -/
def mbxErrCuminRange : Field := ⟨.mbxErr, 63, 48, .ro, 0, 0, 0, false⟩
/-- MBX_ERR.down. -/
def mbxErrDown : Field := ⟨.mbxErr, 47, 32, .ro, 0, 0, 0, false⟩
/-- MBX_ERR.overrun. -/
def mbxErrOverrun : Field := ⟨.mbxErr, 31, 16, .ro, 0, 0, 0, false⟩
/-- MBX_ERR.foreign. -/
def mbxErrForeign : Field := ⟨.mbxErr, 15, 0, .ro, 0, 0, 0, false⟩
/-- MBX_FW_STATUS.governor. -/
def mbxFwStatusGovernor : Field := ⟨.mbxFwStatus, 7, 4, .ro, 1, 0, 0, false⟩
/-- MBX_FW_STATUS.bank. -/
def mbxFwStatusBank : Field := ⟨.mbxFwStatus, 3, 3, .ro, 0, 0, 0, false⟩
/-- MBX_FW_STATUS.state. -/
def mbxFwStatusState : Field := ⟨.mbxFwStatus, 2, 0, .ro, 0, 0, 0, false⟩
/-- MBX_FW_VERSION.sec_version. -/
def mbxFwVersionSecVersion : Field := ⟨.mbxFwVersion, 63, 32, .ro, 0, 0, 0, false⟩
/-- MBX_FW_VERSION.major. -/
def mbxFwVersionMajor : Field := ⟨.mbxFwVersion, 31, 24, .ro, 0, 0, 0, false⟩
/-- MBX_FW_VERSION.minor. -/
def mbxFwVersionMinor : Field := ⟨.mbxFwVersion, 23, 16, .ro, 0, 0, 0, false⟩
/-- MBX_FW_VERSION.patch. -/
def mbxFwVersionPatch : Field := ⟨.mbxFwVersion, 15, 0, .ro, 0, 0, 0, false⟩
/-- MBX_FW_ACT.max_defer. -/
def mbxFwActMaxDefer : Field := ⟨.mbxFwAct, 63, 48, .rwl, 0x258, 1, 65535, true⟩
/-- MBX_FW_ACT.pause_us. -/
def mbxFwActPauseUs : Field := ⟨.mbxFwAct, 47, 32, .ro, 0, 0, 0, false⟩
/-- MBX_FW_ACT.result. -/
def mbxFwActResult : Field := ⟨.mbxFwAct, 15, 12, .ro, 0, 0, 0, false⟩
/-- MBX_FW_ACT.conditions. -/
def mbxFwActConditions : Field := ⟨.mbxFwAct, 11, 8, .ro, 0, 0, 0, false⟩
/-- MBX_FW_ACT.state. -/
def mbxFwActState : Field := ⟨.mbxFwAct, 2, 0, .ro, 0, 0, 0, false⟩
/-- MBX_COMP_STATUS.last_fault. -/
def mbxCompStatusLastFault : Field := ⟨.mbxCompStatus, 63, 32, .ro, 0, 0, 0, false⟩
/-- MBX_COMP_STATUS.faults. -/
def mbxCompStatusFaults : Field := ⟨.mbxCompStatus, 31, 16, .ro, 0, 0, 0, false⟩
/-- MBX_COMP_STATUS.cause. -/
def mbxCompStatusCause : Field := ⟨.mbxCompStatus, 15, 8, .ro, 0, 0, 0, false⟩
/-- MBX_COMP_STATUS.state. -/
def mbxCompStatusState : Field := ⟨.mbxCompStatus, 1, 0, .ro, 0, 0, 0, false⟩
/-- MBX_CH_STATUS.awake. -/
def mbxChStatusAwake : Field := ⟨.mbxChStatus, 3, 3, .ro, 0, 0, 0, false⟩
/-- MBX_CH_STATUS.enabled. -/
def mbxChStatusEnabled : Field := ⟨.mbxChStatus, 2, 2, .ro, 0, 0, 0, true⟩
/-- MBX_CH_STATUS.done. -/
def mbxChStatusDone : Field := ⟨.mbxChStatus, 1, 1, .w1c, 0, 0, 0, false⟩
/-- MBX_CH_STATUS.busy. -/
def mbxChStatusBusy : Field := ⟨.mbxChStatus, 0, 0, .ro, 0, 0, 0, false⟩
/-- MBX_CH_DB.length. -/
def mbxChDbLength : Field := ⟨.mbxChDb, 13, 0, .wo, 0, 0, 0, false⟩
/-- MBX_CH_WAKE.wake. -/
def mbxChWakeWake : Field := ⟨.mbxChWake, 0, 0, .wo, 0, 0, 0, false⟩
/-- MBX_CH_CFG.vec_en. -/
def mbxChCfgVecEn : Field := ⟨.mbxChCfg, 15, 15, .rw, 0, 0, 1, false⟩
/-- MBX_CH_CFG.vector. -/
def mbxChCfgVector : Field := ⟨.mbxChCfg, 10, 0, .rw, 0, 0, 2047, false⟩
/-- PWR_CFG.lock. -/
def pwrCfgLock : Field := ⟨.pwrCfg, 63, 63, .w1s, 0, 0, 0, false⟩
/-- PWR_CFG.open_allowed. -/
def pwrCfgOpenAllowed : Field := ⟨.pwrCfg, 62, 62, .rwl, 0, 0, 1, true⟩
/-- PWR_CFG.prio_override. -/
def pwrCfgPrioOverride : Field := ⟨.pwrCfg, 61, 61, .rwl, 0, 0, 1, true⟩
/-- PWR_CFG.prio. -/
def pwrCfgPrio : Field := ⟨.pwrCfg, 58, 56, .rwl, 0, 0, 5, true⟩
/-- PWR_CFG.margin_w. -/
def pwrCfgMarginW : Field := ⟨.pwrCfg, 47, 32, .rwl, 0x64, 20, 300, true⟩
/-- PWR_CFG.cap_dflt. -/
def pwrCfgCapDflt : Field := ⟨.pwrCfg, 31, 16, .rwl, 0xaf0, 1200, 3000, true⟩
/-- PWR_STATUS.cap_req. -/
def pwrStatusCapReq : Field := ⟨.pwrStatus, 63, 48, .ro, 0xaf0, 0, 0, true⟩
/-- PWR_STATUS.cap_eff. -/
def pwrStatusCapEff : Field := ⟨.pwrStatus, 47, 32, .ro, 0xaf0, 0, 0, true⟩
/-- PWR_STATUS.uv. -/
def pwrStatusUv : Field := ⟨.pwrStatus, 2, 2, .ro, 0, 0, 0, false⟩
/-- PWR_STATUS.floors. -/
def pwrStatusFloors : Field := ⟨.pwrStatus, 1, 1, .ro, 0, 0, 0, false⟩
/-- PWR_STATUS.profile. -/
def pwrStatusProfile : Field := ⟨.pwrStatus, 0, 0, .ro, 0, 0, 0, false⟩
/-- PWR_INPUT.mv. -/
def pwrInputMv : Field := ⟨.pwrInput, 63, 48, .ro, 0, 0, 0, false⟩
/-- PWR_INPUT.ma10. -/
def pwrInputMa10 : Field := ⟨.pwrInput, 47, 32, .ro, 0, 0, 0, false⟩
/-- PWR_INPUT.power_w. -/
def pwrInputPowerW : Field := ⟨.pwrInput, 31, 16, .ro, 0, 0, 0, false⟩
/-- PWR_INPUT.loss_w. -/
def pwrInputLossW : Field := ⟨.pwrInput, 15, 0, .ro, 0, 0, 0, false⟩
/-- PWR_ENERGY.uj. -/
def pwrEnergyUj : Field := ⟨.pwrEnergy, 63, 0, .ro, 0, 0, 0, false⟩
/-- PWR_SHARE.links_w. -/
def pwrShareLinksW : Field := ⟨.pwrShare, 63, 48, .ro, 0, 0, 0, false⟩
/-- PWR_SHARE.mem_w. -/
def pwrShareMemW : Field := ⟨.pwrShare, 47, 32, .ro, 0, 0, 0, false⟩
/-- PWR_SHARE.compute_w. -/
def pwrShareComputeW : Field := ⟨.pwrShare, 31, 16, .ro, 0, 0, 0, false⟩
/-- PWR_SHARE.other_w. -/
def pwrShareOtherW : Field := ⟨.pwrShare, 15, 0, .ro, 0, 0, 0, false⟩
/-- PWR_DROOP_CFG.storm. -/
def pwrDroopCfgStorm : Field := ⟨.pwrDroopCfg, 15, 0, .rwl, 0x100, 16, 65535, true⟩
/-- PWR_SLEEP_CFG.enable. -/
def pwrSleepCfgEnable : Field := ⟨.pwrSleepCfg, 31, 31, .rwl, 0, 0, 1, true⟩
/-- PWR_SLEEP_CFG.idle_s. -/
def pwrSleepCfgIdleS : Field := ⟨.pwrSleepCfg, 15, 0, .rwl, 0x12c, 1, 65535, true⟩
/-- PWR_DIE.droops. -/
def pwrDieDroops : Field := ⟨.pwrDie, 63, 32, .ro, 0, 0, 0, false⟩
/-- PWR_DIE.storm. -/
def pwrDieStorm : Field := ⟨.pwrDie, 23, 23, .ro, 0, 0, 0, false⟩
/-- PWR_DIE.src. -/
def pwrDieSrc : Field := ⟨.pwrDie, 22, 16, .ro, 0, 0, 0, false⟩
/-- PWR_DIE.div. -/
def pwrDieDiv : Field := ⟨.pwrDie, 11, 10, .ro, 0, 0, 0, false⟩
/-- PWR_DIE.skip. -/
def pwrDieSkip : Field := ⟨.pwrDie, 7, 4, .ro, 0, 0, 0, false⟩
/-- PWR_STEP.max_open. -/
def pwrStepMaxOpen : Field := ⟨.pwrStep, 15, 8, .ro, 0x12, 0, 0, true⟩
/-- PWR_STEP.step. -/
def pwrStepStep : Field := ⟨.pwrStep, 4, 0, .ro, 0, 0, 0, false⟩
/-- THM_CFG.lock. -/
def thmCfgLock : Field := ⟨.thmCfg, 31, 31, .w1s, 0, 0, 0, false⟩
/-- THM_CFG.stack_low. -/
def thmCfgStackLow : Field := ⟨.thmCfg, 28, 24, .rwl, 0, 0, 20, true⟩
/-- THM_CFG.layer_low. -/
def thmCfgLayerLow : Field := ⟨.thmCfg, 20, 16, .rwl, 0, 0, 20, true⟩
/-- THM_CFG.die_low. -/
def thmCfgDieLow : Field := ⟨.thmCfg, 12, 8, .rwl, 0, 0, 20, true⟩
/-- THM_STATUS.stack_max. -/
def thmStatusStackMax : Field := ⟨.thmStatus, 127, 112, .ro, 0, 0, 0, false⟩
/-- THM_STATUS.layer_max. -/
def thmStatusLayerMax : Field := ⟨.thmStatus, 111, 96, .ro, 0, 0, 0, false⟩
/-- THM_STATUS.die_max. -/
def thmStatusDieMax : Field := ⟨.thmStatus, 95, 80, .ro, 0, 0, 0, false⟩
/-- THM_STATUS.stack_lvl. -/
def thmStatusStackLvl : Field := ⟨.thmStatus, 5, 4, .ro, 0, 0, 0, false⟩
/-- THM_STATUS.layer_lvl. -/
def thmStatusLayerLvl : Field := ⟨.thmStatus, 3, 2, .ro, 0, 0, 0, false⟩
/-- THM_STATUS.die_lvl. -/
def thmStatusDieLvl : Field := ⟨.thmStatus, 1, 0, .ro, 0, 0, 0, false⟩
/-- THM_SHUTDOWN.stamp. -/
def thmShutdownStamp : Field := ⟨.thmShutdown, 127, 64, .ro, 0, 0, 0, false⟩
/-- THM_SHUTDOWN.count. -/
def thmShutdownCount : Field := ⟨.thmShutdown, 63, 32, .ro, 0, 0, 0, false⟩
/-- THM_SHUTDOWN.sensor. -/
def thmShutdownSensor : Field := ⟨.thmShutdown, 31, 16, .ro, 0, 0, 0, false⟩
/-- THM_SHUTDOWN.cause. -/
def thmShutdownCause : Field := ⟨.thmShutdown, 15, 8, .ro, 0, 0, 0, false⟩
/-- THM_SHUTDOWN.hold. -/
def thmShutdownHold : Field := ⟨.thmShutdown, 0, 0, .ro, 0, 0, 0, false⟩
/-- AGE_CFG.lock. -/
def ageCfgLock : Field := ⟨.ageCfg, 31, 31, .w1s, 0, 0, 0, false⟩
/-- AGE_CFG.guard_mv. -/
def ageCfgGuardMv : Field := ⟨.ageCfg, 23, 16, .rwl, 0x1e, 10, 100, true⟩
/-- AGE_CFG.period_h. -/
def ageCfgPeriodH : Field := ⟨.ageCfg, 15, 0, .rwl, 0x2d0, 24, 65535, true⟩
/-- AGE_REGION.gen. -/
def ageRegionGen : Field := ⟨.ageRegion, 127, 96, .ro, 0, 0, 0, true⟩
/-- AGE_REGION.index_ppm. -/
def ageRegionIndexPpm : Field := ⟨.ageRegion, 95, 64, .ro, 0, 0, 0, false⟩
/-- AGE_REGION.v15_uv. -/
def ageRegionV15Uv : Field := ⟨.ageRegion, 63, 48, .ro, 0, 0, 0, true⟩
/-- AGE_REGION.vmin15_uv. -/
def ageRegionVmin15Uv : Field := ⟨.ageRegion, 47, 32, .ro, 0, 0, 0, false⟩
/-- AGE_REGION.margin15. -/
def ageRegionMargin15 : Field := ⟨.ageRegion, 31, 16, .ro, 0, 0, 0, true⟩
/-- AGE_REGION.hours. -/
def ageRegionHours : Field := ⟨.ageRegion, 15, 0, .ro, 0, 0, 0, true⟩
/-- ANI_TIMEBASE.ns. -/
def aniTimebaseNs : Field := ⟨.aniTimebase, 63, 0, .ro, 0, 0, 0, false⟩
/-- ANI_POWER_CYCLES.count. -/
def aniPowerCyclesCount : Field := ⟨.aniPowerCycles, 31, 0, .ro, 0, 0, 0, true⟩
/-- NUT_CFG.lock. -/
def nutCfgLock : Field := ⟨.nutCfg, 63, 63, .w1s, 0, 0, 0, false⟩
/-- NUT_CFG.fold_ms. -/
def nutCfgFoldMs : Field := ⟨.nutCfg, 47, 32, .rwl, 0x3e8, 100, 60000, true⟩
/-- NUT_CFG.base. -/
def nutCfgBase : Field := ⟨.nutCfg, 13, 0, .rwl, 0, 0, 16383, true⟩
/-- NUT_TEL_CFG.sample_ms. -/
def nutTelCfgSampleMs : Field := ⟨.nutTelCfg, 47, 40, .rwl, 0xa, 1, 255, true⟩
/-- NUT_TEL_CFG.size_log2. -/
def nutTelCfgSizeLog2 : Field := ⟨.nutTelCfg, 39, 32, .rwl, 0x1e, 26, 34, true⟩
/-- NUT_TEL_CFG.base. -/
def nutTelCfgBase : Field := ⟨.nutTelCfg, 13, 0, .rwl, 0x10, 0, 16383, true⟩
/-- NUT_STATUS.next_seq. -/
def nutStatusNextSeq : Field := ⟨.nutStatus, 127, 64, .ro, 0, 0, 0, true⟩
/-- NUT_STATUS.lost. -/
def nutStatusLost : Field := ⟨.nutStatus, 63, 48, .ro, 0, 0, 0, false⟩
/-- NUT_STATUS.circ_wraps. -/
def nutStatusCircWraps : Field := ⟨.nutStatus, 47, 32, .ro, 0, 0, 0, false⟩
/-- NUT_STATUS.pinned_full. -/
def nutStatusPinnedFull : Field := ⟨.nutStatus, 31, 31, .ro, 0, 0, 0, false⟩
/-- NUT_STATUS.pinned_used. -/
def nutStatusPinnedUsed : Field := ⟨.nutStatus, 12, 0, .ro, 0, 0, 0, true⟩
/-- NUT_TEL_STATUS.next_seq. -/
def nutTelStatusNextSeq : Field := ⟨.nutTelStatus, 63, 0, .ro, 0, 0, 0, false⟩
/-- CFG_REGISTRY_STATUS.generation. -/
def cfgRegistryStatusGeneration : Field := ⟨.cfgRegistryStatus, 63, 32, .ro, 0, 0, 0, true⟩
/-- CFG_REGISTRY_STATUS.entries. -/
def cfgRegistryStatusEntries : Field := ⟨.cfgRegistryStatus, 31, 16, .ro, 0, 0, 0, true⟩
/-- CFG_REGISTRY_STATUS.unpersisted. -/
def cfgRegistryStatusUnpersisted : Field := ⟨.cfgRegistryStatus, 15, 8, .ro, 0, 0, 0, false⟩
/-- CFG_REGISTRY_STATUS.bank. -/
def cfgRegistryStatusBank : Field := ⟨.cfgRegistryStatus, 0, 0, .ro, 0, 0, 0, true⟩
/-- CFG_RETIRE_CFG.lock. -/
def cfgRetireCfgLock : Field := ⟨.cfgRetireCfg, 31, 31, .w1s, 0, 0, 0, false⟩
/-- CFG_RETIRE_CFG.core_unc_thr. -/
def cfgRetireCfgCoreUncThr : Field := ⟨.cfgRetireCfg, 23, 20, .rwl, 2, 1, 15, true⟩
/-- CFG_RETIRE_CFG.core_corr_thr. -/
def cfgRetireCfgCoreCorrThr : Field := ⟨.cfgRetireCfg, 19, 12, .rwl, 0x40, 1, 255, true⟩
/-- CFG_RETIRE_CFG.arr_unc_thr. -/
def cfgRetireCfgArrUncThr : Field := ⟨.cfgRetireCfg, 11, 8, .rwl, 2, 1, 15, true⟩
/-- CFG_RETIRE_CFG.arr_par_thr. -/
def cfgRetireCfgArrParThr : Field := ⟨.cfgRetireCfg, 7, 0, .rwl, 8, 1, 255, true⟩
/-- CFG_BG_STATUS.last_done. -/
def cfgBgStatusLastDone : Field := ⟨.cfgBgStatus, 127, 64, .ro, 0, 0, 0, false⟩
/-- CFG_BG_STATUS.forced. -/
def cfgBgStatusForced : Field := ⟨.cfgBgStatus, 63, 32, .ro, 0, 0, 0, false⟩
/-- CFG_BG_STATUS.in_slice. -/
def cfgBgStatusInSlice : Field := ⟨.cfgBgStatus, 31, 31, .ro, 0, 0, 0, false⟩
/-- CFG_BG_STATUS.lag_ms. -/
def cfgBgStatusLagMs : Field := ⟨.cfgBgStatus, 30, 0, .ro, 0, 0, 0, false⟩
/-- CFG_BOOT_STATUS.fail. -/
def cfgBootStatusFail : Field := ⟨.cfgBootStatus, 63, 56, .ro, 0, 0, 0, false⟩
/-- CFG_BOOT_STATUS.boot_ms. -/
def cfgBootStatusBootMs : Field := ⟨.cfgBootStatus, 47, 32, .ro, 0, 0, 0, false⟩
/-- CFG_BOOT_STATUS.warm. -/
def cfgBootStatusWarm : Field := ⟨.cfgBootStatus, 7, 7, .ro, 0, 0, 0, false⟩
/-- CFG_BOOT_STATUS.recovery. -/
def cfgBootStatusRecovery : Field := ⟨.cfgBootStatus, 6, 6, .ro, 0, 0, 0, false⟩
/-- CFG_BOOT_STATUS.step. -/
def cfgBootStatusStep : Field := ⟨.cfgBootStatus, 2, 0, .ro, 0, 0, 0, false⟩
/-- CFG_IMAGE_STATUS.seq. -/
def cfgImageStatusSeq : Field := ⟨.cfgImageStatus, 63, 32, .ro, 0, 0, 0, true⟩
/-- CFG_IMAGE_STATUS.other_valid. -/
def cfgImageStatusOtherValid : Field := ⟨.cfgImageStatus, 3, 3, .ro, 0, 0, 0, true⟩
/-- CFG_IMAGE_STATUS.signed. -/
def cfgImageStatusSigned : Field := ⟨.cfgImageStatus, 2, 2, .ro, 0, 0, 0, true⟩
/-- CFG_IMAGE_STATUS.cal_ok. -/
def cfgImageStatusCalOk : Field := ⟨.cfgImageStatus, 1, 1, .ro, 0, 0, 0, true⟩
/-- CFG_IMAGE_STATUS.bank. -/
def cfgImageStatusBank : Field := ⟨.cfgImageStatus, 0, 0, .ro, 0, 0, 0, true⟩
/-- CFG_FLOORS.cfg_floor. -/
def cfgFloorsCfgFloor : Field := ⟨.cfgFloors, 63, 32, .ro, 0, 0, 0, true⟩
/-- CFG_FLOORS.fw_floor. -/
def cfgFloorsFwFloor : Field := ⟨.cfgFloors, 31, 0, .ro, 0, 0, 0, true⟩
/-- CFG_DEBUG.keys_zeroed. -/
def cfgDebugKeysZeroed : Field := ⟨.cfgDebug, 10, 10, .ro, 0, 0, 0, true⟩
/-- CFG_DEBUG.key. -/
def cfgDebugKey : Field := ⟨.cfgDebug, 9, 2, .ro, 0, 0, 0, false⟩
/-- CFG_DEBUG.level. -/
def cfgDebugLevel : Field := ⟨.cfgDebug, 1, 0, .ro, 0, 0, 0, false⟩
/-- ANI_RESET_CAUSE.stamp. -/
def aniResetCauseStamp : Field := ⟨.aniResetCause, 127, 64, .ro, 0, 0, 0, false⟩
/-- ANI_RESET_CAUSE.warm_count. -/
def aniResetCauseWarmCount : Field := ⟨.aniResetCause, 63, 32, .ro, 0, 0, 0, false⟩
/-- ANI_RESET_CAUSE.cause. -/
def aniResetCauseCause : Field := ⟨.aniResetCause, 7, 0, .ro, 0, 0, 0, false⟩
/-- ID_VENDOR.device_id. -/
def idVendorDeviceId : Field := ⟨.idVendor, 31, 16, .ro, 0x2a72, 0, 0, false⟩
/-- ID_VENDOR.vendor_id. -/
def idVendorVendorId : Field := ⟨.idVendor, 15, 0, .ro, 0x1f5c, 0, 0, false⟩
/-- ID_REV.pci_rev. -/
def idRevPciRev : Field := ⟨.idRev, 23, 16, .ro, 0xb0, 0, 0, false⟩
/-- ID_REV.step_letter. -/
def idRevStepLetter : Field := ⟨.idRev, 15, 8, .ro, 0x42, 0, 0, false⟩
/-- ID_REV.step_digit. -/
def idRevStepDigit : Field := ⟨.idRev, 7, 0, .ro, 0x30, 0, 0, false⟩
/-- ID_PART.part. -/
def idPartPart : Field := ⟨.idPart, 47, 0, .ro, 0x363735325950, 0, 0, false⟩
/-- ID_SERIAL.serial. -/
def idSerialSerial : Field := ⟨.idSerial, 127, 0, .ro, 0, 0, 0, true⟩
/-- ID_PORT.port. -/
def idPortPort : Field := ⟨.idPort, 1, 0, .ro, 0, 0, 0, false⟩
/-- ID_LAYOUT.map_version. -/
def idLayoutMapVersion : Field := ⟨.idLayout, 15, 0, .ro, 1, 0, 0, false⟩
/-- HP_EVT_STATUS.data_loss. -/
def hpEvtStatusDataLoss : Field := ⟨.hpEvtStatus, 11, 11, .w1c, 0, 0, 0, false⟩
/-- HP_EVT_STATUS.pinned_full. -/
def hpEvtStatusPinnedFull : Field := ⟨.hpEvtStatus, 10, 10, .w1c, 0, 0, 0, false⟩
/-- HP_EVT_STATUS.nutmeg_err. -/
def hpEvtStatusNutmegErr : Field := ⟨.hpEvtStatus, 9, 9, .w1c, 0, 0, 0, false⟩
/-- HP_EVT_STATUS.link_state. -/
def hpEvtStatusLinkState : Field := ⟨.hpEvtStatus, 8, 8, .w1c, 0, 0, 0, false⟩
/-- HP_EVT_STATUS.protective. -/
def hpEvtStatusProtective : Field := ⟨.hpEvtStatus, 7, 7, .w1c, 0, 0, 0, false⟩
/-- HP_EVT_STATUS.fw_act. -/
def hpEvtStatusFwAct : Field := ⟨.hpEvtStatus, 6, 6, .w1c, 0, 0, 0, false⟩
/-- HP_EVT_STATUS.comp_held. -/
def hpEvtStatusCompHeld : Field := ⟨.hpEvtStatus, 5, 5, .w1c, 0, 0, 0, false⟩
/-- HP_EVT_STATUS.thermal_warn. -/
def hpEvtStatusThermalWarn : Field := ⟨.hpEvtStatus, 4, 4, .w1c, 0, 0, 0, false⟩
/-- HP_EVT_STATUS.peer_port. -/
def hpEvtStatusPeerPort : Field := ⟨.hpEvtStatus, 3, 3, .w1c, 0, 0, 0, false⟩
/-- HP_EVT_STATUS.ring_error. -/
def hpEvtStatusRingError : Field := ⟨.hpEvtStatus, 2, 2, .w1c, 0, 0, 0, false⟩
/-- HP_EVT_STATUS.fp_mismatch. -/
def hpEvtStatusFpMismatch : Field := ⟨.hpEvtStatus, 1, 1, .w1c, 0, 0, 0, false⟩
/-- HP_EVT_STATUS.cap_change. -/
def hpEvtStatusCapChange : Field := ⟨.hpEvtStatus, 0, 0, .w1c, 0, 0, 0, false⟩
/-- HP_EVT_EN.en. -/
def hpEvtEnEn : Field := ⟨.hpEvtEn, 11, 0, .rw, 0, 0, 4095, false⟩
/-- HP_DEV_SUMMARY.epochs_open. -/
def hpDevSummaryEpochsOpen : Field := ⟨.hpDevSummary, 63, 48, .ro, 0, 0, 0, false⟩
/-- HP_DEV_SUMMARY.hp1_state. -/
def hpDevSummaryHp1State : Field := ⟨.hpDevSummary, 47, 44, .ro, 0, 0, 0, false⟩
/-- HP_DEV_SUMMARY.hp0_state. -/
def hpDevSummaryHp0State : Field := ⟨.hpDevSummary, 43, 40, .ro, 0, 0, 0, false⟩
/-- HP_DEV_SUMMARY.throttle. -/
def hpDevSummaryThrottle : Field := ⟨.hpDevSummary, 34, 34, .ro, 0, 0, 0, false⟩
/-- HP_DEV_SUMMARY.warning. -/
def hpDevSummaryWarning : Field := ⟨.hpDevSummary, 33, 33, .ro, 0, 0, 0, false⟩
/-- HP_DEV_SUMMARY.comp_held. -/
def hpDevSummaryCompHeld : Field := ⟨.hpDevSummary, 32, 32, .ro, 0, 0, 0, false⟩
/-- HP_DEV_SUMMARY.published. -/
def hpDevSummaryPublished : Field := ⟨.hpDevSummary, 31, 31, .ro, 0, 0, 0, false⟩
/-- HP_DEV_SUMMARY.recovery. -/
def hpDevSummaryRecovery : Field := ⟨.hpDevSummary, 30, 30, .ro, 0, 0, 0, false⟩
/-- HP_DEV_SUMMARY.fw_state. -/
def hpDevSummaryFwState : Field := ⟨.hpDevSummary, 29, 27, .ro, 0, 0, 0, false⟩
/-- HP_DEV_SUMMARY.ring_errors. -/
def hpDevSummaryRingErrors : Field := ⟨.hpDevSummary, 14, 0, .ro, 0, 0, 0, false⟩
/-- HP_RING_ERR.err. -/
def hpRingErrErr : Field := ⟨.hpRingErr, 16383, 0, .ro, 0, 0, 0, false⟩
/-- CAP_HDR.generation. -/
def capHdrGeneration : Field := ⟨.capHdr, 63, 32, .ro, 0, 0, 0, false⟩
/-- CAP_HDR.published. -/
def capHdrPublished : Field := ⟨.capHdr, 31, 31, .ro, 0, 0, 0, false⟩
/-- CAP_HDR.updating. -/
def capHdrUpdating : Field := ⟨.capHdr, 30, 30, .ro, 0, 0, 0, false⟩
/-- CAP_HDR.version. -/
def capHdrVersion : Field := ⟨.capHdr, 15, 0, .ro, 0, 0, 0, false⟩
/-- CAP_STAMP.stamp. -/
def capStampStamp : Field := ⟨.capStamp, 63, 0, .ro, 0, 0, 0, false⟩
/-- CAP_CORES.cores. -/
def capCoresCores : Field := ⟨.capCores, 63, 0, .ro, 0, 0, 0, false⟩
/-- CAP_ARRAYS.arrays. -/
def capArraysArrays : Field := ⟨.capArrays, 255, 0, .ro, 0, 0, 0, false⟩
/-- CAP_COUNTS.live_arrays. -/
def capCountsLiveArrays : Field := ⟨.capCounts, 63, 48, .ro, 0, 0, 0, false⟩
/-- CAP_COUNTS.live_cores. -/
def capCountsLiveCores : Field := ⟨.capCounts, 47, 40, .ro, 0, 0, 0, false⟩
/-- CAP_COUNTS.live_stacks. -/
def capCountsLiveStacks : Field := ⟨.capCounts, 39, 32, .ro, 0, 0, 0, false⟩
/-- CAP_COUNTS.live_links. -/
def capCountsLiveLinks : Field := ⟨.capCounts, 31, 24, .ro, 0, 0, 0, false⟩
/-- CAP_COUNTS.live_pc. -/
def capCountsLivePc : Field := ⟨.capCounts, 15, 0, .ro, 0, 0, 0, false⟩
/-- CAP_DRAM.bytes. -/
def capDramBytes : Field := ⟨.capDram, 63, 0, .ro, 0, 0, 0, false⟩
/-- CAP_LAYERS.l1_mib. -/
def capLayersL1Mib : Field := ⟨.capLayers, 63, 32, .ro, 0, 0, 0, false⟩
/-- CAP_LAYERS.data_mib. -/
def capLayersDataMib : Field := ⟨.capLayers, 31, 0, .ro, 0, 0, 0, false⟩
/-- CAP_BOND.failed_ports. -/
def capBondFailedPorts : Field := ⟨.capBond, 47, 32, .ro, 0, 0, 0, false⟩
/-- CAP_BOND.spares_s. -/
def capBondSparesS : Field := ⟨.capBond, 31, 16, .ro, 0, 0, 0, false⟩
/-- CAP_BOND.spares_n. -/
def capBondSparesN : Field := ⟨.capBond, 15, 0, .ro, 0, 0, 0, false⟩
/-- CAP_LINKS.lanes. -/
def capLinksLanes : Field := ⟨.capLinks, 71, 0, .ro, 0, 0, 0, false⟩
/-- CAP_CLOCK.fixed_mhz. -/
def capClockFixedMhz : Field := ⟨.capClock, 47, 32, .ro, 0, 0, 0, false⟩
/-- CAP_CLOCK.open_allowed. -/
def capClockOpenAllowed : Field := ⟨.capClock, 16, 16, .ro, 0, 0, 0, false⟩
/-- CAP_CLOCK.max_open_s. -/
def capClockMaxOpenS : Field := ⟨.capClock, 15, 8, .ro, 0, 0, 0, false⟩
/-- CAP_CLOCK.max_open_n. -/
def capClockMaxOpenN : Field := ⟨.capClock, 7, 0, .ro, 0, 0, 0, false⟩
/-- CAP_PC.pcs. -/
def capPcPcs : Field := ⟨.capPc, 527, 0, .ro, 0, 0, 0, false⟩
/-- CAP_PEAK.rate. -/
def capPeakRate : Field := ⟨.capPeak, 31, 0, .ro, 0, 0, 0, false⟩

/-- The fields of each register, high to low; reserved bits have none and read as zero (R8). -/
def Reg.fields : Reg → List Field
  | .arrStatus => [arrStatusFmtStat, arrStatusFmtStream, arrStatusLanibifel, arrStatusSliceExt, arrStatusSliceMode,
      arrStatusHoldActive, arrStatusGang, arrStatusFrontActive, arrStatusShadowFull, arrStatusState]
  | .arrBusyCycles => [arrBusyCyclesBusy]
  | .arrFrontBubble => [arrFrontBubbleBubble]
  | .arrFeedStall => [arrFeedStallStall]
  | .arrVectors => [arrVectorsVectors]
  | .arrParityCnt => [arrParityCntParityErr]
  | .arrCtl => [arrCtlCntFreeze, arrCtlCntClear]
  | .sumacHistCfg => [sumacHistCfgHeadroomDflt, sumacHistCfgHistLen]
  | .sumacPolicyCfg => [sumacPolicyCfgDecaySteps, sumacPolicyCfgExtraMax, sumacPolicyCfgSkipWindow,
      sumacPolicyCfgSkipMax]
  | .sumacFbretCfg => [sumacFbretCfgFbReturn]
  | .sumacGfmtCfg => [sumacGfmtCfgQualSteps, sumacGfmtCfgUflowLog2]
  | .sumacCtl => [sumacCtlLock]
  | .sumacStatus => [sumacStatusSlotsFallback, sumacStatusSlotsBound]
  | .sumacSlot => [sumacSlotHist, sumacSlotSkipWin, sumacSlotFmtQual, sumacSlotHistCount, sumacSlotHistHead,
      sumacSlotLastTag, sumacSlotFbCnt, sumacSlotClean, sumacSlotExtra, sumacSlotHeadroom, sumacSlotClamped,
      sumacSlotFallback, sumacSlotPolicy, sumacSlotHistMode, sumacSlotFmt, sumacSlotBound, sumacSlotGroup, sumacSlotE]
  | .fdrSliceCfg => [fdrSliceCfgLock, fdrSliceCfgExtMode]
  | .safTruncCnt => [safTruncCntTrunc]
  | .safFloorCnt => [safFloorCntFloor]
  | .safSpillCnt => [safSpillCntSpill]
  | .safOvfCnt => [safOvfCntOvf]
  | .safLaneStatus => [safLaneStatusMode, safLaneStatusBank1, safLaneStatusBank0]
  | .safCtl => [safCtlCntFreeze, safCtlCntClear]
  | .safSpillBase => [safSpillBaseBase]
  | .safSpillSize => [safSpillSizeUnits]
  | .safSpillFree => [safSpillFreeFree]
  | .safSpillHwm => [safSpillHwmMinFree]
  | .safSpillGen => [safSpillGenGen]
  | .safSpillFail => [safSpillFailFail]
  | .safDieCtl => [safDieCtlLock, safDieCtlLanibifelEn]
  | .cardStatus => [cardStatusKind, cardStatusBuffered, cardStatusState]
  | .cardRows => [cardRowsRows]
  | .cardSideEcc => [cardSideEccUncorrectable, cardSideEccCorrected]
  | .cardSideValid => [cardSideValidPages]
  | .cardCtl => [cardCtlSideInval, cardCtlCntFreeze, cardCtlCntClear]
  | .updUnitStatus => [updUnitStatusShards, updUnitStatusPhase, updUnitStatusBusy]
  | .updUnitParams => [updUnitParamsParams]
  | .updUnitEvents => [updUnitEventsRollfwd, updUnitEventsInterrupted]
  | .updUnitScrub => [updUnitScrubFixed, updUnitScrubPasses]
  | .updUnitOvf => [updUnitOvfSat]
  | .updUnitClamp => [updUnitClampClamped]
  | .updGrpNprev => [updGrpNprevNPrev]
  | .updGrpClip => [updGrpClipC]
  | .updGrpStatus => [updGrpStatusFallback, updGrpStatusWinCount, updGrpStatusCleanRun, updGrpStatusClipDev]
  | .updGrpNoise => [updGrpNoiseBCrit, updGrpNoiseG, updGrpNoiseS]
  | .updClipTol => [updClipTolTol]
  | .updClipHead => [updClipHeadH]
  | .updClipFb => [updClipFbClipRet, updClipFbClipWindow, updClipFbClipSkipMax]
  | .updFpCfg => [updFpCfgEnable, updFpCfgInterval]
  | .updFpKey => [updFpKeyH]
  | .updNoiseCfg => [updNoiseCfgBeta]
  | .updLedgerBase => [updLedgerBaseBase]
  | .updCtl => [updCtlLock]
  | .lyrCfg => [lyrCfgDisagree, lyrCfgHoldLimit, lyrCfgScrubPeriod]
  | .lyrLaneCfg => [lyrLaneCfgLaneThr, lyrLaneCfgLaneWin]
  | .lyrRowCfg => [lyrRowCfgRowThr]
  | .lyrCtl => [lyrCtlLock]
  | .lyrQuiesce => [lyrQuiesceForcedCnt, lyrQuiesceLostRows, lyrQuiesceCore, lyrQuiesceDrainNs, lyrQuiesceForced,
      lyrQuiesceKind]
  | .lyrPortStatus => [lyrPortStatusState, lyrPortStatusSparesUsed]
  | .lyrPortEcc => [lyrPortEccCorrected, lyrPortEccLaneAttr, lyrPortEccUncorrectable]
  | .lyrPortRepair => [lyrPortRepairMap]
  | .lyrSegRows => [lyrSegRowsL4, lyrSegRowsL3, lyrSegRowsL2, lyrSegRowsL1A3, lyrSegRowsL1A2, lyrSegRowsL1A1,
      lyrSegRowsL1A0]
  | .lyrThm => [lyrThmGov, lyrThmModel, lyrThmCanary, lyrThmDiode, lyrThmFlags, lyrThmCanaryFault,
      lyrThmCanaryFloor, lyrThmRetired, lyrThmSuspect, lyrThmGovSrc]
  | .memIlvCfg => [memIlvCfgLocal]
  | .memCfg => [memCfgMigShare, memCfgHoldLimit]
  | .memPcCfg => [memPcCfgUncThr, memPcCfgCorrThr]
  | .memScrubCfg => [memScrubCfgPeriod]
  | .memPwrCfg => [memPwrCfgEWr, memPwrCfgERd, memPwrCfgEAct, memPwrCfgCapMw]
  | .memCtl => [memCtlLock]
  | .memCapacity => [memCapacityRetired]
  | .memStackStatus => [memStackStatusPowerMw, memStackStatusTemp, memStackStatusLimitPct, memStackStatusMoving,
      memStackStatusSparesUsed, memStackStatusRefresh2x, memStackStatusRetired, memStackStatusState]
  | .memPcEcc => [memPcEccCorrected, memPcEccUncorrectable, memPcEccState]
  | .memResetStatus => [memResetStatusFailedReqs, memResetStatusCount]
  | .dmaEngStatus => [dmaEngStatusInFlight, dmaEngStatusBusy]
  | .dmaEngBytes => [dmaEngBytesBytes]
  | .dmaEngErr => [dmaEngErrFailed]
  | .dmaPlanCfg => [dmaPlanCfgLock, dmaPlanCfgHostMax]
  | .dmaPlanGrp => [dmaPlanGrpHostSize, dmaPlanGrpHostBase, dmaPlanGrpDramSize, dmaPlanGrpDramBase,
      dmaPlanGrpHomeSize, dmaPlanGrpHomeBase]
  | .dmaPlanEntry => [dmaPlanEntrySlackUs, dmaPlanEntryTRcUs, dmaPlanEntrySize, dmaPlanEntryHome,
      dmaPlanEntryPlaced, dmaPlanEntryPermit, dmaPlanEntryValid, dmaPlanEntryGroup]
  | .fenStatus => [fenStatusTransfers, fenStatusQueued, fenStatusSharePct]
  | .semValue => [semValueErr, semValueCount]
  | .semQueue => [semQueueCredits, semQueueBwdPair, semQueueFwdPair, semQueueSlots]
  | .semSchedCfg => [semSchedCfgLock, semSchedCfgIdlePct, semSchedCfgStallRec, semSchedCfgDMax, semSchedCfgDMin]
  | .semPrioRange => [semPrioRangeMax3, semPrioRangeMin3, semPrioRangeMax2, semPrioRangeMin2, semPrioRangeMax1,
      semPrioRangeMin1, semPrioRangeMax0, semPrioRangeMin0]
  | .semPrioWeight => [semPrioWeightW3, semPrioWeightW2, semPrioWeightW1, semPrioWeightW0]
  | .semStage => [semStageImbalance, semStageIdleUs, semStageBusyUs, semStageDepth]
  | .blCfg => [blCfgLock, blCfgDevId]
  | .blE2eCfg => [blE2eCfgCloseTimeout, blE2eCfgProbeTimeout, blE2eCfgProbeMs, blE2eCfgRespTimeout]
  | .blLaneCfg => [blLaneCfgSymThr, blLaneCfgUcwThr, blLaneCfgReplayMax]
  | .blLinkStatus => [blLinkStatusState, blLinkStatusLanes, blLinkStatusPeerId, blLinkStatusPeerPort]
  | .blLinkReplay => [blLinkReplayReplays]
  | .blLinkFec => [blLinkFecCorrected, blLinkFecUcw]
  | .blLinkLane => [blLinkLaneSym]
  | .blRmaWin => [blRmaWinSize, blRmaWinBase, blRmaWinWr, blRmaWinRd]
  | .blRmaSem => [blRmaSemHi, blRmaSemLo]
  | .blSemWatch => [blSemWatchSem, blSemWatchValid, blSemWatchPeer]
  | .blErr => [blErrUnroutable, blErrDenied, blErrRespTo, blErrProto]
  | .blRoute => [blRouteValid, blRouteAltValid, blRouteAltPort, blRoutePort]
  | .collTreeStatus => [collTreeStatusDigest, collTreeStatusTrees, collTreeStatusState, collTreeStatusLeaves,
      collTreeStatusNodes]
  | .collTreeBase => [collTreeBaseBase, collTreeBaseLock]
  | .collExactStats => [collExactStatsSpills, collExactStatsCapFail]
  | .hpCfg => [hpCfgLock, hpCfgClassAllow, hpCfgAdoptive, hpCfgCrossHost, hpCfgLoadRight, hpCfgOrphanClose,
      hpCfgHbTimeout, hpCfgRingHi, hpCfgRingLo]
  | .hpPortState => [hpPortStateSession, hpPortStateEpochOpen, hpPortStateState]
  | .hpAttach => [hpAttachResult, hpAttachCmd]
  | .hpAdopt => [hpAdoptResult, hpAdoptCmd]
  | .hpHeartbeat => [hpHeartbeatBeat]
  | .hpHbLast => [hpHbLastStamp]
  | .hpDrvVersion => [hpDrvVersionMajor, hpDrvVersionMinor, hpDrvVersionPatch]
  | .hpHoldBase => [hpHoldBaseBase]
  | .hpErr => [hpErrForeignWrite, hpErrDoorbellBad, hpErrFetchErr, hpErrMisaligned]
  | .kringBaseLo => [kringBaseLoBaseLo]
  | .kringBaseHi => [kringBaseHiBaseHi]
  | .kringCqbaseLo => [kringCqbaseLoBaseLo]
  | .kringCqbaseHi => [kringCqbaseHiBaseHi]
  | .kringCfg => [kringCfgEnable, kringCfgOwner, kringCfgPrio, kringCfgClass, kringCfgLog2Depth, kringCfgVecEn,
      kringCfgVector]
  | .kringIrq => [kringIrqTimeUs, kringIrqCount]
  | .kringStart => [kringStartStart]
  | .kringCtl => [kringCtlAbort, kringCtlClearErr]
  | .kringCounts => [kringCountsCqHead, kringCountsCqTail, kringCountsSqHead, kringCountsSqTail]
  | .kringStatus => [kringStatusState, kringStatusErr, kringStatusInflight]
  | .kringDbSq => [kringDbSqCount]
  | .kringDbCq => [kringDbCqCount]
  | .mbxCtl => [mbxCtlLock]
  | .mbxMap => [mbxMapEnabled, mbxMapResponder, mbxMapInitiator]
  | .mbxErr => [mbxErrCuminRange, mbxErrDown, mbxErrOverrun, mbxErrForeign]
  | .mbxFwStatus => [mbxFwStatusGovernor, mbxFwStatusBank, mbxFwStatusState]
  | .mbxFwVersion => [mbxFwVersionSecVersion, mbxFwVersionMajor, mbxFwVersionMinor, mbxFwVersionPatch]
  | .mbxFwAct => [mbxFwActMaxDefer, mbxFwActPauseUs, mbxFwActResult, mbxFwActConditions, mbxFwActState]
  | .mbxCompStatus => [mbxCompStatusLastFault, mbxCompStatusFaults, mbxCompStatusCause, mbxCompStatusState]
  | .mbxChStatus => [mbxChStatusAwake, mbxChStatusEnabled, mbxChStatusDone, mbxChStatusBusy]
  | .mbxChDb => [mbxChDbLength]
  | .mbxChWake => [mbxChWakeWake]
  | .mbxChCfg => [mbxChCfgVecEn, mbxChCfgVector]
  | .pwrCfg => [pwrCfgLock, pwrCfgOpenAllowed, pwrCfgPrioOverride, pwrCfgPrio, pwrCfgMarginW, pwrCfgCapDflt]
  | .pwrStatus => [pwrStatusCapReq, pwrStatusCapEff, pwrStatusUv, pwrStatusFloors, pwrStatusProfile]
  | .pwrInput => [pwrInputMv, pwrInputMa10, pwrInputPowerW, pwrInputLossW]
  | .pwrEnergy => [pwrEnergyUj]
  | .pwrShare => [pwrShareLinksW, pwrShareMemW, pwrShareComputeW, pwrShareOtherW]
  | .pwrDroopCfg => [pwrDroopCfgStorm]
  | .pwrSleepCfg => [pwrSleepCfgEnable, pwrSleepCfgIdleS]
  | .pwrDie => [pwrDieDroops, pwrDieStorm, pwrDieSrc, pwrDieDiv, pwrDieSkip]
  | .pwrStep => [pwrStepMaxOpen, pwrStepStep]
  | .thmCfg => [thmCfgLock, thmCfgStackLow, thmCfgLayerLow, thmCfgDieLow]
  | .thmStatus => [thmStatusStackMax, thmStatusLayerMax, thmStatusDieMax, thmStatusStackLvl, thmStatusLayerLvl,
      thmStatusDieLvl]
  | .thmShutdown => [thmShutdownStamp, thmShutdownCount, thmShutdownSensor, thmShutdownCause, thmShutdownHold]
  | .ageCfg => [ageCfgLock, ageCfgGuardMv, ageCfgPeriodH]
  | .ageRegion => [ageRegionGen, ageRegionIndexPpm, ageRegionV15Uv, ageRegionVmin15Uv, ageRegionMargin15,
      ageRegionHours]
  | .aniTimebase => [aniTimebaseNs]
  | .aniPowerCycles => [aniPowerCyclesCount]
  | .nutCfg => [nutCfgLock, nutCfgFoldMs, nutCfgBase]
  | .nutTelCfg => [nutTelCfgSampleMs, nutTelCfgSizeLog2, nutTelCfgBase]
  | .nutStatus => [nutStatusNextSeq, nutStatusLost, nutStatusCircWraps, nutStatusPinnedFull, nutStatusPinnedUsed]
  | .nutTelStatus => [nutTelStatusNextSeq]
  | .cfgRegistryStatus => [cfgRegistryStatusGeneration, cfgRegistryStatusEntries, cfgRegistryStatusUnpersisted,
      cfgRegistryStatusBank]
  | .cfgRetireCfg => [cfgRetireCfgLock, cfgRetireCfgCoreUncThr, cfgRetireCfgCoreCorrThr, cfgRetireCfgArrUncThr,
      cfgRetireCfgArrParThr]
  | .cfgBgStatus => [cfgBgStatusLastDone, cfgBgStatusForced, cfgBgStatusInSlice, cfgBgStatusLagMs]
  | .cfgBootStatus => [cfgBootStatusFail, cfgBootStatusBootMs, cfgBootStatusWarm, cfgBootStatusRecovery,
      cfgBootStatusStep]
  | .cfgImageStatus => [cfgImageStatusSeq, cfgImageStatusOtherValid, cfgImageStatusSigned, cfgImageStatusCalOk,
      cfgImageStatusBank]
  | .cfgFloors => [cfgFloorsCfgFloor, cfgFloorsFwFloor]
  | .cfgDebug => [cfgDebugKeysZeroed, cfgDebugKey, cfgDebugLevel]
  | .aniResetCause => [aniResetCauseStamp, aniResetCauseWarmCount, aniResetCauseCause]
  | .idVendor => [idVendorDeviceId, idVendorVendorId]
  | .idRev => [idRevPciRev, idRevStepLetter, idRevStepDigit]
  | .idPart => [idPartPart]
  | .idSerial => [idSerialSerial]
  | .idPort => [idPortPort]
  | .idLayout => [idLayoutMapVersion]
  | .hpEvtStatus => [hpEvtStatusDataLoss, hpEvtStatusPinnedFull, hpEvtStatusNutmegErr, hpEvtStatusLinkState,
      hpEvtStatusProtective, hpEvtStatusFwAct, hpEvtStatusCompHeld, hpEvtStatusThermalWarn, hpEvtStatusPeerPort,
      hpEvtStatusRingError, hpEvtStatusFpMismatch, hpEvtStatusCapChange]
  | .hpEvtEn => [hpEvtEnEn]
  | .hpDevSummary => [hpDevSummaryEpochsOpen, hpDevSummaryHp1State, hpDevSummaryHp0State, hpDevSummaryThrottle,
      hpDevSummaryWarning, hpDevSummaryCompHeld, hpDevSummaryPublished, hpDevSummaryRecovery, hpDevSummaryFwState,
      hpDevSummaryRingErrors]
  | .hpRingErr => [hpRingErrErr]
  | .capHdr => [capHdrGeneration, capHdrPublished, capHdrUpdating, capHdrVersion]
  | .capStamp => [capStampStamp]
  | .capCores => [capCoresCores]
  | .capArrays => [capArraysArrays]
  | .capCounts => [capCountsLiveArrays, capCountsLiveCores, capCountsLiveStacks, capCountsLiveLinks, capCountsLivePc]
  | .capDram => [capDramBytes]
  | .capLayers => [capLayersL1Mib, capLayersDataMib]
  | .capBond => [capBondFailedPorts, capBondSparesS, capBondSparesN]
  | .capLinks => [capLinksLanes]
  | .capClock => [capClockFixedMhz, capClockOpenAllowed, capClockMaxOpenS, capClockMaxOpenN]
  | .capPc => [capPcPcs]
  | .capPeak => [capPeakRate]

/-- Where a register lies: BAR, offset of instance 0 (Table 17.1 base included), stride, instances, width, domain. -/
structure RegInfo where
  bar : Nat
  offset : Nat
  stride : Nat
  count : Nat
  width : Nat
  domain : Domain
deriving DecidableEq, Repr

/-- Table 17.5 with the bases of Table 17.1. The second HP instance is the peer's read-only window of R452. -/
def Reg.info : Reg → RegInfo
  | .arrStatus => ⟨0, 0x300000, 0x40, 256, 32, .core⟩
  | .arrBusyCycles => ⟨0, 0x300008, 0x40, 256, 64, .core⟩
  | .arrFrontBubble => ⟨0, 0x300010, 0x40, 256, 64, .core⟩
  | .arrFeedStall => ⟨0, 0x300018, 0x40, 256, 64, .core⟩
  | .arrVectors => ⟨0, 0x300020, 0x40, 256, 64, .core⟩
  | .arrParityCnt => ⟨0, 0x300028, 0x40, 256, 32, .core⟩
  | .arrCtl => ⟨0, 0x300030, 0x40, 256, 32, .core⟩
  | .sumacHistCfg => ⟨0, 0xC00000, 0x0, 1, 32, .package⟩
  | .sumacPolicyCfg => ⟨0, 0xC00004, 0x0, 1, 32, .package⟩
  | .sumacFbretCfg => ⟨0, 0xC00008, 0x0, 1, 32, .package⟩
  | .sumacGfmtCfg => ⟨0, 0xC0000C, 0x0, 1, 32, .package⟩
  | .sumacCtl => ⟨0, 0xC00020, 0x0, 1, 32, .package⟩
  | .sumacStatus => ⟨0, 0xC00024, 0x0, 1, 32, .package⟩
  | .sumacSlot => ⟨0, 0xE00000, 0x40, 32768, 512, .package⟩
  | .fdrSliceCfg => ⟨0, 0x320000, 0x0, 1, 32, .package⟩
  | .safTruncCnt => ⟨0, 0x310000, 0x40, 256, 64, .core⟩
  | .safFloorCnt => ⟨0, 0x310008, 0x40, 256, 64, .core⟩
  | .safSpillCnt => ⟨0, 0x310010, 0x40, 256, 64, .core⟩
  | .safOvfCnt => ⟨0, 0x310018, 0x40, 256, 32, .core⟩
  | .safLaneStatus => ⟨0, 0x31001C, 0x40, 256, 32, .core⟩
  | .safCtl => ⟨0, 0x310020, 0x40, 256, 32, .core⟩
  | .safSpillBase => ⟨0, 0x318000, 0x100, 2, 32, .package⟩
  | .safSpillSize => ⟨0, 0x318004, 0x100, 2, 32, .package⟩
  | .safSpillFree => ⟨0, 0x318008, 0x100, 2, 32, .die⟩
  | .safSpillHwm => ⟨0, 0x31800C, 0x100, 2, 32, .die⟩
  | .safSpillGen => ⟨0, 0x318010, 0x100, 2, 32, .package⟩
  | .safSpillFail => ⟨0, 0x318014, 0x100, 2, 32, .package⟩
  | .safDieCtl => ⟨0, 0x318018, 0x100, 2, 32, .package⟩
  | .cardStatus => ⟨0, 0x330000, 0x40, 64, 32, .core⟩
  | .cardRows => ⟨0, 0x330008, 0x40, 64, 64, .core⟩
  | .cardSideEcc => ⟨0, 0x330010, 0x40, 64, 32, .core⟩
  | .cardSideValid => ⟨0, 0x330014, 0x40, 64, 32, .core⟩
  | .cardCtl => ⟨0, 0x330018, 0x40, 64, 32, .core⟩
  | .updUnitStatus => ⟨0, 0x350000, 0x100, 8, 32, .die⟩
  | .updUnitParams => ⟨0, 0x350008, 0x100, 8, 64, .die⟩
  | .updUnitEvents => ⟨0, 0x350010, 0x100, 8, 32, .package⟩
  | .updUnitScrub => ⟨0, 0x350014, 0x100, 8, 32, .package⟩
  | .updUnitOvf => ⟨0, 0x350018, 0x100, 8, 32, .package⟩
  | .updUnitClamp => ⟨0, 0x35001C, 0x100, 8, 32, .package⟩
  | .updGrpNprev => ⟨0, 0x351000, 0x80, 16, 64, .package⟩
  | .updGrpClip => ⟨0, 0x351008, 0x80, 16, 32, .package⟩
  | .updGrpStatus => ⟨0, 0x35100C, 0x80, 16, 32, .package⟩
  | .updGrpNoise => ⟨0, 0x351010, 0x80, 16, 96, .package⟩
  | .updClipTol => ⟨0, 0x352000, 0x0, 1, 32, .package⟩
  | .updClipHead => ⟨0, 0x352004, 0x0, 1, 32, .package⟩
  | .updClipFb => ⟨0, 0x352008, 0x0, 1, 32, .package⟩
  | .updFpCfg => ⟨0, 0x35200C, 0x0, 1, 32, .package⟩
  | .updFpKey => ⟨0, 0x352010, 0x0, 1, 128, .package⟩
  | .updNoiseCfg => ⟨0, 0x352020, 0x0, 1, 32, .package⟩
  | .updLedgerBase => ⟨0, 0x352030, 0x8, 2, 32, .package⟩
  | .updCtl => ⟨0, 0x352040, 0x0, 1, 32, .package⟩
  | .lyrCfg => ⟨0, 0x360000, 0x0, 1, 32, .package⟩
  | .lyrLaneCfg => ⟨0, 0x360004, 0x0, 1, 32, .package⟩
  | .lyrRowCfg => ⟨0, 0x360008, 0x0, 1, 32, .package⟩
  | .lyrCtl => ⟨0, 0x36000C, 0x0, 1, 32, .package⟩
  | .lyrQuiesce => ⟨0, 0x360010, 0x8, 2, 64, .package⟩
  | .lyrPortStatus => ⟨0, 0x361000, 0x80, 384, 32, .package⟩
  | .lyrPortEcc => ⟨0, 0x361008, 0x80, 384, 64, .package⟩
  | .lyrPortRepair => ⟨0, 0x361040, 0x80, 384, 512, .package⟩
  | .lyrSegRows => ⟨0, 0x36E000, 0x10, 64, 64, .package⟩
  | .lyrThm => ⟨0, 0x370000, 0x10, 160, 128, .package⟩
  | .memIlvCfg => ⟨0, 0x380000, 0x0, 1, 32, .package⟩
  | .memCfg => ⟨0, 0x380004, 0x0, 1, 32, .package⟩
  | .memPcCfg => ⟨0, 0x380008, 0x0, 1, 32, .package⟩
  | .memScrubCfg => ⟨0, 0x38000C, 0x0, 1, 32, .package⟩
  | .memPwrCfg => ⟨0, 0x380010, 0x0, 1, 64, .package⟩
  | .memCtl => ⟨0, 0x380018, 0x0, 1, 32, .package⟩
  | .memCapacity => ⟨0, 0x380020, 0x0, 1, 32, .package⟩
  | .memStackStatus => ⟨0, 0x380100, 0x40, 8, 64, .stack⟩
  | .memPcEcc => ⟨0, 0x381000, 0x10, 528, 64, .package⟩
  | .memResetStatus => ⟨0, 0x383200, 0x8, 8, 32, .package⟩
  | .dmaEngStatus => ⟨0, 0x600000, 0x40, 32, 32, .die⟩
  | .dmaEngBytes => ⟨0, 0x600008, 0x40, 32, 64, .die⟩
  | .dmaEngErr => ⟨0, 0x600010, 0x40, 32, 32, .package⟩
  | .dmaPlanCfg => ⟨0, 0x601000, 0x0, 1, 32, .package⟩
  | .dmaPlanGrp => ⟨0, 0x601100, 0x40, 16, 384, .package⟩
  | .dmaPlanEntry => ⟨0, 0x700000, 0x20, 16384, 256, .package⟩
  | .fenStatus => ⟨0, 0x390000, 0x40, 2, 64, .die⟩
  | .semValue => ⟨0, 0x1000000, 0x8, 262144, 64, .package⟩
  | .semQueue => ⟨0, 0x1200000, 0x10, 4096, 128, .package⟩
  | .semSchedCfg => ⟨0, 0x1300000, 0x0, 1, 32, .package⟩
  | .semPrioRange => ⟨0, 0x1300008, 0x0, 1, 64, .package⟩
  | .semPrioWeight => ⟨0, 0x1300010, 0x0, 1, 32, .package⟩
  | .semStage => ⟨0, 0x1301000, 0x10, 64, 128, .package⟩
  | .blCfg => ⟨0, 0x800000, 0x0, 1, 32, .package⟩
  | .blE2eCfg => ⟨0, 0x800004, 0x0, 1, 32, .package⟩
  | .blLaneCfg => ⟨0, 0x800008, 0x0, 1, 32, .package⟩
  | .blLinkStatus => ⟨0, 0x800100, 0x40, 36, 32, .link⟩
  | .blLinkReplay => ⟨0, 0x800108, 0x40, 36, 64, .package⟩
  | .blLinkFec => ⟨0, 0x800110, 0x40, 36, 64, .package⟩
  | .blLinkLane => ⟨0, 0x800120, 0x40, 36, 128, .link⟩
  | .blRmaWin => ⟨0, 0x802000, 0x10, 16, 128, .package⟩
  | .blRmaSem => ⟨0, 0x802100, 0x0, 1, 64, .package⟩
  | .blSemWatch => ⟨0, 0x803000, 0x8, 4096, 64, .package⟩
  | .blErr => ⟨0, 0x802200, 0x0, 1, 64, .package⟩
  | .blRoute => ⟨0, 0x900000, 0x4, 16384, 32, .package⟩
  | .collTreeStatus => ⟨0, 0x3A0000, 0x10, 1024, 128, .package⟩
  | .collTreeBase => ⟨0, 0x3A4000, 0x0, 1, 64, .package⟩
  | .collExactStats => ⟨0, 0x3A4008, 0x0, 1, 64, .package⟩
  | .hpCfg => ⟨0, 0x100000, 0x80000, 2, 64, .package⟩
  | .hpPortState => ⟨0, 0x100008, 0x80000, 2, 32, .package⟩
  | .hpAttach => ⟨0, 0x10000C, 0x80000, 2, 32, .package⟩
  | .hpAdopt => ⟨0, 0x100010, 0x80000, 2, 32, .package⟩
  | .hpHeartbeat => ⟨0, 0x100014, 0x80000, 2, 32, .hostPort⟩
  | .hpHbLast => ⟨0, 0x100018, 0x80000, 2, 64, .package⟩
  | .hpDrvVersion => ⟨0, 0x100020, 0x80000, 2, 32, .hostPort⟩
  | .hpHoldBase => ⟨0, 0x100028, 0x80000, 2, 64, .package⟩
  | .hpErr => ⟨0, 0x100030, 0x80000, 2, 64, .package⟩
  | .kringBaseLo => ⟨0, 0x200000, 0x40, 16384, 32, .package⟩
  | .kringBaseHi => ⟨0, 0x200004, 0x40, 16384, 32, .package⟩
  | .kringCqbaseLo => ⟨0, 0x200008, 0x40, 16384, 32, .package⟩
  | .kringCqbaseHi => ⟨0, 0x20000C, 0x40, 16384, 32, .package⟩
  | .kringCfg => ⟨0, 0x200010, 0x40, 16384, 32, .package⟩
  | .kringIrq => ⟨0, 0x200014, 0x40, 16384, 32, .package⟩
  | .kringStart => ⟨0, 0x200018, 0x40, 16384, 32, .package⟩
  | .kringCtl => ⟨0, 0x20001C, 0x40, 16384, 32, .package⟩
  | .kringCounts => ⟨0, 0x200020, 0x40, 16384, 128, .package⟩
  | .kringStatus => ⟨0, 0x200030, 0x40, 16384, 32, .package⟩
  | .kringDbSq => ⟨2, 0x0, 0x1000, 16384, 32, .package⟩
  | .kringDbCq => ⟨2, 0x4, 0x1000, 16384, 32, .package⟩
  | .mbxCtl => ⟨0, 0x3B0000, 0x0, 1, 32, .package⟩
  | .mbxMap => ⟨0, 0x3B0100, 0x4, 32, 32, .package⟩
  | .mbxErr => ⟨0, 0x3B0200, 0x0, 1, 64, .package⟩
  | .mbxFwStatus => ⟨0, 0x3B0300, 0x0, 1, 32, .package⟩
  | .mbxFwVersion => ⟨0, 0x3B0304, 0x0, 1, 64, .package⟩
  | .mbxFwAct => ⟨0, 0x3B0310, 0x0, 1, 64, .package⟩
  | .mbxCompStatus => ⟨0, 0x3B0400, 0x8, 6, 64, .package⟩
  | .mbxChStatus => ⟨4, 0x0, 0x8000, 32, 32, .package⟩
  | .mbxChDb => ⟨4, 0x4, 0x8000, 32, 32, .package⟩
  | .mbxChWake => ⟨4, 0x8, 0x8000, 32, 32, .package⟩
  | .mbxChCfg => ⟨4, 0xC, 0x8000, 32, 32, .hostPort⟩
  | .pwrCfg => ⟨0, 0x3C0000, 0x0, 1, 64, .package⟩
  | .pwrStatus => ⟨0, 0x3C0008, 0x0, 1, 64, .package⟩
  | .pwrInput => ⟨0, 0x3C0010, 0x0, 1, 64, .package⟩
  | .pwrEnergy => ⟨0, 0x3C0018, 0x0, 1, 64, .package⟩
  | .pwrShare => ⟨0, 0x3C0020, 0x0, 1, 64, .package⟩
  | .pwrDroopCfg => ⟨0, 0x3C0028, 0x0, 1, 32, .package⟩
  | .pwrSleepCfg => ⟨0, 0x3C0030, 0x0, 1, 32, .package⟩
  | .pwrDie => ⟨0, 0x3C0100, 0x40, 2, 64, .die⟩
  | .pwrStep => ⟨0, 0x3C0108, 0x40, 2, 32, .package⟩
  | .thmCfg => ⟨0, 0x3D0000, 0x0, 1, 32, .package⟩
  | .thmStatus => ⟨0, 0x3D0010, 0x10, 2, 128, .package⟩
  | .thmShutdown => ⟨0, 0x3D0040, 0x0, 1, 128, .anise⟩
  | .ageCfg => ⟨0, 0x3E0000, 0x0, 1, 32, .package⟩
  | .ageRegion => ⟨0, 0x3E0100, 0x10, 32, 128, .package⟩
  | .aniTimebase => ⟨0, 0x3F0000, 0x0, 1, 64, .anise⟩
  | .aniPowerCycles => ⟨0, 0x3F0008, 0x0, 1, 32, .anise⟩
  | .nutCfg => ⟨0, 0x400000, 0x0, 1, 64, .package⟩
  | .nutTelCfg => ⟨0, 0x400008, 0x0, 1, 64, .package⟩
  | .nutStatus => ⟨0, 0x400010, 0x0, 1, 128, .package⟩
  | .nutTelStatus => ⟨0, 0x400020, 0x0, 1, 64, .package⟩
  | .cfgRegistryStatus => ⟨0, 0x410400, 0x0, 1, 64, .package⟩
  | .cfgRetireCfg => ⟨0, 0x410408, 0x0, 1, 32, .package⟩
  | .cfgBgStatus => ⟨0, 0x410500, 0x10, 9, 128, .package⟩
  | .cfgBootStatus => ⟨0, 0x410000, 0x0, 1, 64, .package⟩
  | .cfgImageStatus => ⟨0, 0x410008, 0x0, 1, 64, .package⟩
  | .cfgFloors => ⟨0, 0x410010, 0x0, 1, 64, .package⟩
  | .cfgDebug => ⟨0, 0x410018, 0x0, 1, 32, .package⟩
  | .aniResetCause => ⟨0, 0x3F0010, 0x0, 1, 128, .anise⟩
  | .idVendor => ⟨0, 0x0, 0x0, 1, 32, .package⟩
  | .idRev => ⟨0, 0x4, 0x0, 1, 32, .package⟩
  | .idPart => ⟨0, 0x8, 0x0, 1, 64, .package⟩
  | .idSerial => ⟨0, 0x10, 0x0, 1, 128, .package⟩
  | .idPort => ⟨0, 0x20, 0x0, 1, 32, .package⟩
  | .idLayout => ⟨0, 0x24, 0x0, 1, 32, .package⟩
  | .hpEvtStatus => ⟨0, 0x1000, 0x100, 2, 64, .package⟩
  | .hpEvtEn => ⟨0, 0x1008, 0x100, 2, 64, .hostPort⟩
  | .hpDevSummary => ⟨0, 0x1200, 0x0, 1, 64, .package⟩
  | .hpRingErr => ⟨0, 0x4000, 0x0, 1, 16384, .package⟩
  | .capHdr => ⟨0, 0x8000, 0x0, 1, 64, .package⟩
  | .capStamp => ⟨0, 0x8008, 0x0, 1, 64, .package⟩
  | .capCores => ⟨0, 0x8010, 0x0, 1, 64, .package⟩
  | .capArrays => ⟨0, 0x8020, 0x0, 1, 256, .package⟩
  | .capCounts => ⟨0, 0x8040, 0x0, 1, 64, .package⟩
  | .capDram => ⟨0, 0x8048, 0x0, 1, 64, .package⟩
  | .capLayers => ⟨0, 0x8050, 0x0, 1, 64, .package⟩
  | .capBond => ⟨0, 0x8058, 0x0, 1, 64, .package⟩
  | .capLinks => ⟨0, 0x8060, 0x0, 1, 128, .package⟩
  | .capClock => ⟨0, 0x8070, 0x0, 1, 64, .package⟩
  | .capPc => ⟨0, 0x8080, 0x0, 1, 640, .package⟩
  | .capPeak => ⟨0, 0x80E0, 0x4, 10, 32, .package⟩

/-- Part 0 of Reg.all. -/
def regAllPart0 : List Reg :=
  [.arrStatus, .arrBusyCycles, .arrFrontBubble, .arrFeedStall, .arrVectors, .arrParityCnt,
    .arrCtl, .sumacHistCfg, .sumacPolicyCfg, .sumacFbretCfg, .sumacGfmtCfg, .sumacCtl,
    .sumacStatus, .sumacSlot, .fdrSliceCfg, .safTruncCnt, .safFloorCnt, .safSpillCnt,
    .safOvfCnt, .safLaneStatus, .safCtl, .safSpillBase, .safSpillSize, .safSpillFree,
    .safSpillHwm, .safSpillGen, .safSpillFail, .safDieCtl, .cardStatus, .cardRows,
    .cardSideEcc, .cardSideValid, .cardCtl, .updUnitStatus, .updUnitParams, .updUnitEvents,
    .updUnitScrub, .updUnitOvf, .updUnitClamp, .updGrpNprev, .updGrpClip, .updGrpStatus,
    .updGrpNoise, .updClipTol, .updClipHead, .updClipFb, .updFpCfg, .updFpKey,
    .updNoiseCfg, .updLedgerBase, .updCtl, .lyrCfg, .lyrLaneCfg, .lyrRowCfg,
    .lyrCtl, .lyrQuiesce, .lyrPortStatus, .lyrPortEcc, .lyrPortRepair, .lyrSegRows]

/-- Part 1 of Reg.all. -/
def regAllPart1 : List Reg :=
  [.lyrThm, .memIlvCfg, .memCfg, .memPcCfg, .memScrubCfg, .memPwrCfg,
    .memCtl, .memCapacity, .memStackStatus, .memPcEcc, .memResetStatus, .dmaEngStatus,
    .dmaEngBytes, .dmaEngErr, .dmaPlanCfg, .dmaPlanGrp, .dmaPlanEntry, .fenStatus,
    .semValue, .semQueue, .semSchedCfg, .semPrioRange, .semPrioWeight, .semStage,
    .blCfg, .blE2eCfg, .blLaneCfg, .blLinkStatus, .blLinkReplay, .blLinkFec,
    .blLinkLane, .blRmaWin, .blRmaSem, .blSemWatch, .blErr, .blRoute,
    .collTreeStatus, .collTreeBase, .collExactStats, .hpCfg, .hpPortState, .hpAttach,
    .hpAdopt, .hpHeartbeat, .hpHbLast, .hpDrvVersion, .hpHoldBase, .hpErr,
    .kringBaseLo, .kringBaseHi, .kringCqbaseLo, .kringCqbaseHi, .kringCfg, .kringIrq,
    .kringStart, .kringCtl, .kringCounts, .kringStatus, .kringDbSq, .kringDbCq]

/-- Part 2 of Reg.all. -/
def regAllPart2 : List Reg :=
  [.mbxCtl, .mbxMap, .mbxErr, .mbxFwStatus, .mbxFwVersion, .mbxFwAct,
    .mbxCompStatus, .mbxChStatus, .mbxChDb, .mbxChWake, .mbxChCfg, .pwrCfg,
    .pwrStatus, .pwrInput, .pwrEnergy, .pwrShare, .pwrDroopCfg, .pwrSleepCfg,
    .pwrDie, .pwrStep, .thmCfg, .thmStatus, .thmShutdown, .ageCfg,
    .ageRegion, .aniTimebase, .aniPowerCycles, .nutCfg, .nutTelCfg, .nutStatus,
    .nutTelStatus, .cfgRegistryStatus, .cfgRetireCfg, .cfgBgStatus, .cfgBootStatus, .cfgImageStatus,
    .cfgFloors, .cfgDebug, .aniResetCause, .idVendor, .idRev, .idPart,
    .idSerial, .idPort, .idLayout, .hpEvtStatus, .hpEvtEn, .hpDevSummary,
    .hpRingErr, .capHdr, .capStamp, .capCores, .capArrays, .capCounts,
    .capDram, .capLayers, .capBond, .capLinks, .capClock, .capPc]

/-- Part 3 of Reg.all. -/
def regAllPart3 : List Reg :=
  [.capPeak]

/-- Every register, in the order of the declaration. -/
def Reg.all : List Reg := regAllPart0 ++ regAllPart1 ++ regAllPart2 ++ regAllPart3

end Sys2Proof.Machine
end

