-- ==== Sys2Proof/Machine/Saffron.lean ====
section
/-! DEFINITION. Chapter 4 as pure arithmetic: operands of the array, runs (R100 to R102), the Saffron lane entry in fixed
and anchored mode (R103, R104, R121), special states (Table 4.2), packed and spill forms (R107 to R109), slice passes
(R119 to R122) and the Lanibifel order (R130). -/
namespace Sys2Proof.Machine

/-- One array operand: an integer significand with its weight exponent, scales folded in (R46, R100), or a flagged
element (R41). -/
inductive Opnd where
  | fin (m : Int) (e : Int)
  | inf (neg : Bool)
  | nan
deriving DecidableEq, Repr

/-- R100: the significand and exponent of one element of a format with all further scale `sc` folded in. -/
def Fmt.operand (f : Fmt) (x : Nat) (sc : Int) : Opnd :=
  match f.decode x with
  | .nan => .nan
  | .inf s => .inf s
  | .fin s n _ =>
    if f.isInt || f == .bi8 then .fin (signedNum s n) sc
    else if n = 0 then .fin 0 sc
    else
      let (m, e, bias) := f.layout
      let ex := x / 2 ^ m % 2 ^ e
      let ma := x % 2 ^ m
      let mag := if ex = 0 then ma else 2 ^ m + ma
      let k : Int := (if ex = 0 then 1 - (bias : Int) else (ex : Int) - bias) - m
      .fin (if s then -(mag : Int) else mag) (k + sc)

/-- Significand width of Table 2.1. -/
def Fmt.sigBits (f : Fmt) : Nat :=
  match f with
  | .fp4E2M1 => 2 | .fp6E2M3 => 4 | .fp6E3M2 => 3 | .fp8E4M3 => 4 | .fp8E5M2 => 3 | .int4 => 4 | .int8 => 8
  | .bf16 => 8 | .fp16 => 11 | .bi8 => 8 | _ => 0

/-- The pairing groups of R39. -/
inductive PairGroup where | floating | integer | fp16 | bi8
deriving DecidableEq, Repr

def Fmt.group (f : Fmt) : Option PairGroup :=
  match f with
  | .fp4E2M1 | .fp6E2M3 | .fp6E3M2 | .fp8E4M3 | .fp8E5M2 | .bf16 => some .floating
  | .int4 | .int8 => some .integer
  | .fp16 => some .fp16
  | .bi8 => some .bi8
  | _ => none

/-- Special states of Table 4.2. -/
inductive Special where | finite | pinf | ninf | nan
deriving DecidableEq, Repr

def Special.code : Special → Nat
  | .finite => 0 | .pinf => 1 | .ninf => 2 | .nan => 3

def specialOfCode (c : Nat) : Special :=
  match c % 4 with | 0 => .finite | 1 => .pinf | 2 => .ninf | _ => .nan

/-- Table 4.2: the existing state with an incoming contribution's state. -/
def specialCombine (a b : Special) : Special :=
  match a, b with
  | .nan, _ => .nan
  | _, .nan => .nan
  | .pinf, .ninf => .nan
  | .ninf, .pinf => .nan
  | .pinf, _ => .pinf
  | .ninf, _ => .ninf
  | .finite, x => x

/-- A Saffron lane entry (R103, R121): the register `v`, whose bit 0 weighs 2^-400 in fixed mode and 2^(64 * anchor) in
anchored mode, with its special state and flags. `started` says that an anchored entry has its anchor. -/
structure SafEntry where
  v : Int
  special : Special
  ovf : Bool
  trunc : Bool
  floor : Bool
  anchored : Bool
  started : Bool
  anchor : Int
deriving DecidableEq, Repr

/-- An empty entry of fixed mode. -/
def safFixed : SafEntry := ⟨0, .finite, false, false, false, false, false, 0⟩

/-- An empty entry of anchored mode. -/
def safAnchored : SafEntry := ⟨0, .finite, false, false, false, true, false, 0⟩

/-- Exponent of bit 0 of an entry's register. -/
def SafEntry.unit (s : SafEntry) : Int := if s.anchored then 64 * s.anchor else -400

/-- floor(i * 2^k) with whether bits were removed. -/
def shiftFloor (i : Int) (k : Int) : Int × Bool :=
  if k ≥ 0 then (i * 2 ^ k.toNat, false)
  else (i / ((2 ^ (-k).toNat : Nat) : Int), decide (i % ((2 ^ (-k).toNat : Nat) : Int) ≠ 0))

/-- The counters of Saffron that one operation adds to (SAF_TRUNC_CNT, SAF_FLOOR_CNT, SAF_OVF_CNT, SAF_SPILL_CNT). -/
structure SafCount where
  trunc : Nat
  floor : Nat
  ovf : Nat
  spill : Nat
deriving DecidableEq, Repr

def safCountZero : SafCount := ⟨0, 0, 0, 0⟩

def SafCount.add (a b : SafCount) : SafCount := ⟨a.trunc + b.trunc, a.floor + b.floor, a.ovf + b.ovf, a.spill + b.spill⟩

/-- R104: add `i * 2^e` into a fixed-mode entry. -/
def safAddFixed (s : SafEntry) (i : Int) (e : Int) : SafEntry × SafCount :=
  if s.special ≠ .finite then (s, safCountZero)
  else
    let (d, fl) := shiftFloor i (e + 400)
    let exact := s.v + d
    let cnt : SafCount := ⟨0, if fl then 1 else 0, 0, 0⟩
    if exact ≥ 2 ^ 767 then ({ s with special := .pinf, ovf := true, floor := s.floor || fl, v := 0 }, { cnt with ovf := 1 })
    else if exact < -(2 ^ 767) then
      ({ s with special := .ninf, ovf := true, floor := s.floor || fl, v := 0 }, { cnt with ovf := 1 })
    else ({ s with v := exact, floor := s.floor || fl }, cnt)

/-- R121: add the contribution `i * 2^e` with magnitude bound exponent `t` into an anchored entry. -/
def safAddAnchored (s : SafEntry) (t : Int) (i : Int) (e : Int) : SafEntry × SafCount :=
  if s.special ≠ .finite then (s, safCountZero)
  else
    let a := t / 64 - 10
    let a' := if s.started then max s.anchor a else a
    let (v0, f0) := if s.started then shiftFloor s.v (64 * (s.anchor - a')) else (s.v, false)
    let (d, f1) := shiftFloor i (e - 64 * a')
    ({ s with v := v0 + d, anchor := a', started := true, floor := s.floor || f0 || f1 },
     ⟨0, if f0 || f1 then 1 else 0, 0, 0⟩)

/-- R106 with Table 4.2: combine an incoming special value. -/
def safAddSpecial (s : SafEntry) (x : Special) : SafEntry := { s with special := specialCombine s.special x }

/-- R106: what a flagged product is, or the finite product of two operands. -/
inductive Product where
  | fin (m : Int) (e : Int)
  | special (x : Special)
deriving DecidableEq, Repr

def infOf (neg : Bool) : Special := if neg then .ninf else .pinf

def productOf (a b : Opnd) : Product :=
  match a, b with
  | .nan, _ => .special .nan
  | _, .nan => .special .nan
  | .inf s, .inf t => .special (infOf (s != t))
  | .inf s, .fin m _ => if m = 0 then .special .nan else .special (infOf (s != decide (m < 0)))
  | .fin m _, .inf t => if m = 0 then .special .nan else .special (infOf (t != decide (m < 0)))
  | .fin m e, .fin n f => .fin (m * n) (e + f)

/-- The greatest exponent among the non-zero finite products of a run (R101). -/
def runEMax (ps : List Product) : Option Int :=
  ps.foldl (fun acc p =>
    match p with
    | .fin m e => if m = 0 then acc else (match acc with | none => some e | some x => some (max x e))
    | _ => acc) none

/-- R101, R102: the result of one run of up to 32 products: R, L and whether the run was truncated. -/
def runSum (q : Nat) (ps : List Product) : Int × Int × Bool :=
  match runEMax ps with
  | none => (0, 0, false)
  | some em =>
    let l : Int := em + q - 74
    let r : Int := ps.foldl (fun acc p => match p with | .fin m e => acc + (shiftFloor m (e - l)).1 | _ => acc) 0
    let tr := ps.any (fun p => match p with | .fin m e => decide (m ≠ 0 ∧ em - e > 74 - (q : Int)) | _ => false)
    (r, l, tr)

/-- Promote one run into a fixed entry: the finite sum (R104), then the flagged products (R106). The manual does not say
which of the two comes first, and whether ovf or floor is set can depend on it (DESIGN CHOICE 75). -/
def promoteRun (q : Nat) (s : SafEntry) (ps : List Product) : SafEntry × SafCount :=
  let (r, l, tr) := runSum q ps
  let (s1, c1) := if r = 0 then (s, safCountZero) else safAddFixed s r l
  let s2 := ps.foldl (fun x p => match p with | .special y => safAddSpecial x y | _ => x) s1
  ({ s2 with trunc := s2.trunc || tr }, { c1 with trunc := if tr then 1 else 0 })

/-- Cut a list into pieces of `n`, with fuel. -/
def chunksOf {α : Type} (n : Nat) (fuel : Nat) (xs : List α) : List (List α) :=
  match fuel with
  | 0 => []
  | f + 1 => match xs with | [] => [] | _ => xs.take n :: chunksOf n f (xs.drop n)

/-- R47, R48: one output element: the K products in runs of 32 rows, run after run, on an entry that may already hold a
value (a continuing command). -/
def dotFixed (q : Nat) (s : SafEntry) (prods : List Product) : SafEntry × SafCount :=
  (chunksOf 32 (prods.length + 1) prods).foldl
    (fun acc ps => let (s', c') := promoteRun q acc.1 ps; (s', acc.2.add c')) (s, safCountZero)

/-- One 32-element block of a sliced operand: extended or not, its exponent (none when all zero), the digits of each
element with the highest slice first, and the flagged elements. -/
structure SliceBlock where
  ext : Bool
  eb : Option Int
  digits : List (List Int)
  flagged : List Special
deriving DecidableEq, Repr

/-- R41 for an element before the cut: its special state. -/
def specialOfVal (v : Val) : Special :=
  match v with | .nan => .nan | .inf s => infOf s | _ => .finite

/-- R85, R86: cut a block into 3 slices (FP32-class) or 7 or 9 (FP64-class); `extMode` is FDR_SLICE_CFG.ext_mode. -/
def cutBlock (slices extMode : Nat) (xs : List Val) : SliceBlock :=
  let ext := slices == 7 && (extMode == 1 || (extMode == 0 && decide (sliceSpan xs > 3)))
  let n := if ext then 9 else slices
  let eb := sliceBlockExp xs
  ⟨ext, eb,
   xs.map (fun x => match eb with
     | none => List.replicate n 0
     | some e => if valIsFinite x then sliceDigits n (sliceInt n e x) else List.replicate n 0),
   xs.map specialOfVal⟩

/-- The sum over a run of the products of stationary slice `i` and streamed slice `j`. -/
def slicePairSum (st sm : SliceBlock) (i j : Nat) : Int :=
  (List.zip st.digits sm.digits).foldl (fun acc p => acc + (p.1.getD i 0) * (p.2.getD j 0)) 0

/-- R120 to R122: promote slice pair (i, j) of one run into an anchored entry. A run in which a block is all zero has no
e_A or no e_B, so R121 gives it no t: it brings no contribution and leaves the anchor (DESIGN CHOICE 76). -/
def promoteSlice (s : SafEntry) (st sm : SliceBlock) (i j : Nat) : SafEntry × SafCount :=
  match st.eb, sm.eb with
  | some ea, some eb =>
    if !st.ext && !sm.ext && i + j > 6 then (s, safCountZero)
    else safAddAnchored s (ea + eb + 7) (slicePairSum st sm i j) (ea + eb - 10 - 8 * ((i : Int) + j))
  | _, _ => (s, safCountZero)

/-- The flagged products of one run in slice mode (R41, R106). A zero product of an infinity is NaN. -/
def sliceSpecials (s : SafEntry) (st sm : List Val) : SafEntry :=
  (List.zip st sm).foldl (fun acc p =>
    match specialOfVal p.1, specialOfVal p.2 with
    | .finite, .finite => acc
    | _, _ =>
      match valMul p.1 p.2 with
      | .nan => safAddSpecial acc .nan
      | .inf n => safAddSpecial acc (infOf n)
      | .fin _ _ _ => acc) s

/-- The slice pairs of a tile in the order of R54: pass i, then streamed slice j. -/
def slicePairs (n : Nat) : List (Nat × Nat) :=
  (List.range n).flatMap (fun i => (List.range (n - i)).map (fun j => (i, j)))

/-- R54, R121: one K-chunk of a slice command on one entry: every slice pair in order, its runs g = 0 to 7 one at a
time. `n` is the schedule of the tile (3, 7 or 9). The special products of the K-chunk are met before its finite pairs,
an order that the manual leaves open (DESIGN CHOICE 75). -/
def sliceChunk (n : Nat) (s : SafEntry) (runs : List (SliceBlock × SliceBlock × List Val × List Val)) :
    SafEntry × SafCount :=
  let s0 := runs.foldl (fun acc r => sliceSpecials acc r.2.2.1 r.2.2.2) s
  (slicePairs n).foldl (fun acc p =>
    runs.foldl (fun a r =>
      let (s', c') := promoteSlice a.1 r.1 r.2.1 p.1 p.2
      (s', a.2.add c')) acc) (s0, safCountZero)

/-- R77 for S768: the entry multiplied by 2^e. In fixed mode bits below the register are removed by floor, and a value past
it becomes special (R104); in anchored mode whole steps of 64 go into the anchor and nothing is lost. (DEDUCED 78) -/
def SafEntry.scale (s : SafEntry) (e : Int) : SafEntry × SafCount :=
  if e = 0 ∨ s.special ≠ .finite then (s, safCountZero)
  else if s.anchored then
    if s.started then ({ s with v := s.v * 2 ^ (e % 64).toNat, anchor := s.anchor + e / 64 }, safCountZero) else (s, safCountZero)
  else
    let (x, fl) := shiftFloor s.v e
    let t := { s with floor := s.floor || fl }
    let cnt : SafCount := ⟨0, if fl then 1 else 0, 0, 0⟩
    if x ≥ 2 ^ 767 then ({ t with special := .pinf, ovf := true, v := 0 }, { cnt with ovf := 1 })
    else if x < -(2 ^ 767) then ({ t with special := .ninf, ovf := true, v := 0 }, { cnt with ovf := 1 })
    else ({ t with v := x }, cnt)

/-- The exact value of an entry (R115). -/
def SafEntry.value (s : SafEntry) : Val :=
  match s.special with
  | .finite => valDyadic s.v s.unit
  | .pinf => .inf false
  | .ninf => .inf true
  | .nan => .nan

/-- Position of the lowest set bit of a positive number. -/
def lowestBit (n : Nat) : Nat := (n - (n &&& (n - 1))).log2

/-- Parity of the low `w` bits of `x`. -/
def parityOf (w x : Nat) : Bool := (List.range w).foldl (fun p i => p != x.testBit i) false

/-- The anchor an entry packs with. An anchored entry without a contribution has no anchor yet: it packs with -128, the
lowest code, which every contribution raises as its first one would (DESIGN CHOICE 77). -/
def SafEntry.anchorOut (s : SafEntry) : Int := if s.started then s.anchor else -128

/-- The flag bits [127:113] of Table 4.3 in place, without window, pos and guard. -/
def packedFlags (s : SafEntry) (spill : Bool) : Nat :=
  s.special.code * 2 ^ 126 + (if spill then 2 ^ 125 else 0) + (if s.ovf then 2 ^ 124 else 0)
  + (if s.trunc then 2 ^ 123 else 0) + (if s.floor then 2 ^ 122 else 0)
  + (if s.anchored then 2 ^ 121 + codeOfInt 8 s.anchorOut * 2 ^ 113 else 0)

/-- Set the guard bit so that the parity of the 128 bits is even (Table 4.3). -/
def withGuard (x : Nat) : Nat := if parityOf 128 x then x + 2 ^ 112 else x

/-- R108: the window and pos of a finite value, or none when it does not fit (R109). -/
def packWindow (s : SafEntry) : Option (Nat × Nat) :=
  if s.special ≠ .finite || s.v = 0 then some (0, 0)
  else
    let tz := lowestBit s.v.natAbs
    let w := s.v / ((2 ^ tz : Nat) : Int)
    if -(2 ^ 95) ≤ w ∧ w < 2 ^ 95 then some (codeOfInt 96 w, codeOfInt 16 ((tz : Int) + s.unit)) else none

/-- R107, R108: the packed entry of a value that needs no spill record. -/
def packEntry (s : SafEntry) : Option Nat :=
  (packWindow s).map (fun p => withGuard (packedFlags s false + p.2 * 2 ^ 96 + p.1))

/-- R109 with Table 4.3a: the packed entry of an escalated value. -/
def packSpilled (s : SafEntry) (tensor : Bool) (die gen index : Nat) : Nat :=
  withGuard (packedFlags s true + (if tensor then 2 ^ 65 else die * 2 ^ 64 + gen * 2 ^ 32) + index)

/-- The fields of a packed entry (Table 4.3, Table 4.3a). -/
structure Packed where
  special : Special
  spill : Bool
  ovf : Bool
  trunc : Bool
  floor : Bool
  anchored : Bool
  anchor : Int
  guardOk : Bool
  pos : Int
  window : Int
  tensor : Bool
  die : Nat
  gen : Nat
  index : Nat
deriving DecidableEq, Repr

def unpackEntry (x : Nat) : Packed :=
  ⟨specialOfCode (x / 2 ^ 126), x.testBit 125, x.testBit 124, x.testBit 123, x.testBit 122, x.testBit 121,
   signedOf 8 (x / 2 ^ 113), !parityOf 128 x, signedOf 16 (x / 2 ^ 96), signedOf 96 x, x.testBit 65,
   x / 2 ^ 64 % 2, x / 2 ^ 32 % 2 ^ 32, x % 2 ^ 32⟩

/-- An anchored entry that has received a contribution; the anchor -128 stands for none (DESIGN CHOICE 77). -/
def Packed.hasAnchor (p : Packed) : Bool := p.anchored && p.anchor != -128

/-- The entry of an unspilled packed form. -/
def Packed.entry (p : Packed) : SafEntry :=
  let u : Int := if p.anchored then 64 * p.anchor else -400
  ⟨if p.special = .finite then (shiftFloor p.window (p.pos - u)).1 else 0, p.special, p.ovf, p.trunc, p.floor,
   p.anchored, p.hasAnchor, p.anchor⟩

/-- Table 4.4: the 128 bytes of a spill record as one little-endian number. `tileRow` and `column` are zero for a record
of an S768 tensor or an exact collective partial. -/
def spillRecord (s : SafEntry) (entry owner gen tileRow column : Nat) : Nat :=
  let body := codeOfInt 768 s.v + (entry / 2 ^ 112) * 2 ^ 768 + owner * 2 ^ 800 + gen * 2 ^ 832
    + (tileRow * 256 + column) * 2 ^ 864
  let check := (List.range 31).foldl (fun c i => c ^^^ (body / 2 ^ (32 * i) % 2 ^ 32)) 0
  body + check * 2 ^ 992

/-- The fields of a spill record with whether its check word matches (Table 4.4). -/
structure SpillRec where
  reg : Int
  owner : Nat
  gen : Nat
  tileRow : Nat
  column : Nat
  checkOk : Bool
deriving DecidableEq, Repr

def readSpillRecord (x : Nat) : SpillRec :=
  ⟨signedOf 768 x, x / 2 ^ 800 % 2 ^ 32, x / 2 ^ 832 % 2 ^ 32, x / 2 ^ 872 % 256, x / 2 ^ 864 % 256,
   (List.range 32).foldl (fun c i => c ^^^ (x / 2 ^ (32 * i) % 2 ^ 32)) 0 == 0⟩

/-- The entry of a spilled packed form with its record. -/
def Packed.entryWith (p : Packed) (r : SpillRec) : SafEntry :=
  ⟨if p.special = .finite then r.reg else 0, p.special, p.ovf, p.trunc, p.floor, p.anchored, p.hasAnchor, p.anchor⟩

/-- R130: put a finished group of 16 into the levels, combining pairwise on the way up. -/
def laniPut (fuel : Nat) (levels : List (Option Val)) (g : Val) : List (Option Val) :=
  match fuel, levels with
  | 0, ls => ls
  | _, [] => []
  | _ + 1, none :: rest => some g :: rest
  | f + 1, some x :: rest => none :: laniPut f rest (add32 x g)

/-- R130: one output element from its K products in reduction order. -/
def lanibifel (prods : List Val) : Val :=
  let groups := chunksOf 16 (prods.length + 1) (prods.map f32)
  let levels := groups.foldl (fun ls grp =>
    match grp with
    | [] => ls
    | p :: ps => laniPut 24 ls (ps.foldl add32 p)) (List.replicate 23 none)
  let r := levels.foldl (fun r l => match r, l with
    | none, x => x
    | some y, none => some y
    | some y, some x => some (add32 x y)) none
  r.getD valZero

end Sys2Proof.Machine
end

