-- ==== Sys2Proof/Machine/Device.lean ====
section
/-! DEFINITION. The state of the device as plain data, unit by unit. Every register of Table 17.5 is held in one sparse
register file; what the chapters give a unit beside its registers has a structure of its own here. -/
namespace Sys2Proof.Machine

/-- Where a taken command stands (R336, R354): not started, started with its effect still to come, finished and waiting
for its signals, or signalled and waiting for its record. -/
inductive CmdPhase where | waiting | started | finished | signalled
deriving DecidableEq, Repr

/-- A command taken from a ring and not yet completed (R313): its number, the port that owns its ring, the 64 bytes of its
entry. `opener` names the pending STEP_OPEN whose epoch it waits for (R337), `stepTag` the epoch it belongs to (0 outside
epochs). `blocked`: its wait was found unreached; `held`: a STEP_OPEN behind an uncompleted STEP_CLOSE (R15); `issued`: its
work is under way and ends by an event. `outstanding` lists the tags of peer requests without a response, `fetched` holds
the bytes that arrived from peers by their address, `reached` is the count of its wait semaphore when reached,
`startedAt` the stamp of its start, and `undo` the bytes of memory that its body wrote: address, value before and after
(R70, R220, R242). -/
structure Cmd where
  ring : Nat
  seq : Nat
  port : Nat
  entry : Nat
  opener : Option (Nat × Nat)
  stepTag : Nat
  phase : CmdPhase
  blocked : Bool
  held : Bool
  issued : Bool
  status : Nat
  info : Nat
  outstanding : List Nat
  fetched : List (Nat × List Byte)
  reached : Nat
  startedAt : Nat
  undo : List (Nat × Nat × Nat)
deriving DecidableEq, Repr

/-- A completion record held in its ring's hold slot (R326): the ring and the record's number without its phase bit. -/
structure HeldRec where
  ring : Nat
  record : Nat
deriving DecidableEq, Repr

/-- Records a ring has written since its last interrupt, with the stamp of the oldest (R321). -/
structure RingIrq where
  pending : Nat
  oldest : Nat
deriving DecidableEq, Repr

/-- The weighted round-robin of R315: the class being visited, commands taken from it in this turn, and the ring last
served of each class. -/
structure Wrr where
  cls : Nat
  taken : Nat
  last : List Nat
deriving DecidableEq, Repr

/-- A host port beside its registers: `waiting` says that its driver has attached out of orphan hold and written neither
resume nor reset_rings (R327); `d3` that the function is in D3hot (R334); `perst` that PERST# is asserted (R466), `l0` that its
PCIe link is in L0 and not in L1.2 (R405). -/
structure PortRun where
  waiting : Bool
  d3 : Bool
  perst : Bool
  l0 : Bool
deriving DecidableEq, Repr

/-- The ring side of the device: commands in flight in the order taken, held records in the order held, interrupt
accounts by ring, the scheduler, masked MSI-X vectors' pending bits, and the MSI-X table entries written. Vectors are
numbered `port * 2048 + vector`. `owner` maps a ring to the port that enabled or adopted it (R322), `adopted` lists the
rings held by adoption, `leaving` those that must leave the rebase state (R330,
R331), `raise` those whose fetch error is still to be announced (R314). -/
structure Engine where
  owner : List (Nat × Nat)
  adopted : List Nat
  leaving : List Nat
  raise : List Nat
  taken : List Cmd
  held : List HeldRec
  irq : List (Nat × RingIrq)
  wrr : Wrr
  msixPending : List Nat
  msixTable : List (Nat × Nat)
deriving DecidableEq, Repr

/-- The record of a slot's census at the last close of its group (R89): the tag, the scale and format in force, and
whether it was reduced or holds a carried census. -/
structure ClosedCensus where
  tag : Nat
  e : Nat
  fmt : Nat
  reduced : Bool
  carried : Bool
  fallback : Bool
  blockScaled : Bool
  census : Census
deriving DecidableEq, Repr

/-- The life of a group's epoch: none; a STEP_OPEN taken and not completed; open; its STEP_CLOSE taken; its step message
sent and the verdict awaited. -/
inductive EpochPhase where | idle | pending | opened | closing | reducing
deriving DecidableEq, Repr

/-- A step group (R15 to R22): the epoch's life, tag, port and replica parameters (R352), the reference tag of R16, the
condition mask (R351), the live census by slot, the census carried under R90 and whether
this epoch's counts took one in, the records of the last close that reduced (R99), the records of the last closed epoch, how
many closes have reduced and which of them decided the last STEP_OPEN (R99), the exact norm sums of R178 and R194, the
stamp at which the step message went out, the STEP_CLOSE in
progress, the port-close without a command (R325), the misprediction history of R180, the
clip fall-back state that the next STEP_OPEN takes up, the ranges (address and length) that its epoch has accessed
and those whose data was lost while it was open (R30, R239), S and G of R194 in FP64, the verdict whose commit records are still to be written: mask, verdict, whether
the reduction was lost (R189), how many closes it has had (R266), and the priority order, class weights and depth range
that its open epoch took at STEP_OPEN (R32). -/
structure Group where
  phase : EpochPhase
  tag : Nat
  port : Nat
  comm : Option Nat
  r : Nat
  b : Nat
  clipM : Nat
  nInit : Nat
  hadClean : Bool
  hasRef : Bool
  refTag : Nat
  conds : Nat
  census : List (Nat × Census)
  carried : List (Nat × Census)
  hasCarried : Bool
  carriedIn : Bool
  deciding : List (Nat × ClosedCensus)
  closed : List (Nat × ClosedCensus)
  closeCount : Nat
  decidedBy : Nat
  lastTag : Nat
  n2 : SafEntry
  l2 : SafEntry
  sentAt : Nat
  closing : Option (Nat × Nat)
  selfClose : Bool
  verdict : Nat
  clipHist : Nat
  clipNext : Bool
  openedAt : Nat
  touched : List (Nat × Nat)
  lost : List (Nat × Nat)
  noiseS : Nat
  noiseG : Nat
  decided : Option (Nat × Nat × Bool)
  closes : Nat
  heldPrio : Nat
  heldWeights : List Nat
  heldDepth : Option (Nat × Nat)
deriving DecidableEq, Repr

/-- A SCALE_SET accepted and not yet in effect (R96): the slot, the body word, the groups that govern it, the command (ring
and number), its place in the order in which completions were posted (0: not posted yet), and the STEP_OPEN taken at which
it takes effect. -/
structure Deferred where
  slot : Nat
  word : Nat
  applyGroup : Nat
  otherGroup : Option Nat
  ring : Nat
  seq : Nat
  posted : Nat
  opener : Option (Nat × Nat)
deriving DecidableEq, Repr

/-- Where the data of a plan entry is (R265 to R268): not written yet, at home, at home while it is copied out, copied
out, being restored, in the restore space, or discarded for recompute. -/
inductive PlanPhase where | empty | home | copying | away | restoring | restored | discarded
deriving DecidableEq, Repr

/-- A plan entry in the epoch of its group, as STEP_OPEN placed it: index, group, home and size, placement (the code of
DMA_PLAN_ENTRY.placed), its place in the off-load area, and the command that wrote it (its number and 64 bytes, 0 when
none) with the stamps of R266. `reserve` is where the group's restore space begins (R265: a later change of the areas takes
effect at the next STEP_OPEN), `restoreAt` its place in it, `bad` the first uncorrectable block that its restore met, and
`fetched` the bytes that the command which wrote it read from peers. -/
structure PlanRun where
  index : Nat
  group : Nat
  home : Nat
  size : Nat
  placed : Nat
  areaAt : Nat
  phase : PlanPhase
  ring : Nat
  seq : Nat
  port : Nat
  stepTag : Nat
  writer : Nat
  runNs : Nat
  writtenAt : Nat
  firstRead : Option Nat
  reserve : Nat
  restoreAt : Nat
  bad : Option Nat
  fetched : List (Nat × List Byte)
deriving DecidableEq, Repr

/-- A pipeline stage's account in the current epoch (R272 to R274): commands running, since when, busy time, and the
micro-batches that have started their forward and not completed their backward there. -/
structure StageRun where
  stage : Nat
  running : Nat
  busySince : Nat
  busyNs : Nat
  live : List Nat
deriving DecidableEq, Repr

/-- The last stall record of a stage queue (R271): the queue, and the epoch it was written in. -/
structure QueueRun where
  queue : Nat
  stepTag : Nat
deriving DecidableEq, Repr

/-- The step side of the device: the 16 groups, the counts outside epochs by slot (R88), deferred SCALE_SETs in order,
plan entries and stages in use. -/
structure Steps where
  groups : List Group
  outside : List (Nat × Census)
  deferred : List Deferred
  plan : List PlanRun
  stages : List StageRun
  queues : List QueueRun
deriving DecidableEq, Repr

/-- The ledger of a shard (Table 6.7) without its version, group, shard and check word; `norm2` is the exact sum. -/
structure Ledger where
  seq : Nat
  stepTag : Nat
  phase : Nat
  consumed : Bool
  verdictKnown : Bool
  verdict : Nat
  inactive : Nat
  segment : Nat
  notApplied : Nat
  t : Nat
  lr : Nat
  ih1 : Nat
  ih2 : Nat
  c : Nat
  fp : Nat
  norm2 : SafEntry
deriving DecidableEq, Repr

/-- What UPD_BIND sets for a shard (Tables 6.3 and 12.15); FP32 parameters as their bits. -/
structure Bind where
  shard : Nat
  tiles : Nat
  handle : Nat
  firstTile : Nat
  k : Nat
  n : Nat
  planeA : Nat
  planeB : Nat
  cr0 : Nat
  cr1 : Nat
  mirror : Nat
  sched : Nat
  gmask : Nat
  resume : Bool
  strict : Bool
  frozen : Bool
  clip : Bool
  transposed : Bool
  mround : Bool
  copyFp8 : Bool
  momFp32 : Bool
  masterFp32 : Bool
  opt : Nat
  group : Nat
  unit : Nat
  rcEn : Bool
  rcomm : Nat
  gslot : Nat
  seed : Nat
  beta1 : Nat
  beta2 : Nat
  eps : Nat
  eps1 : Nat
  mu : Nat
  lambda : Nat
  tau : Nat
  lrPeak : Nat
  lrMin : Nat
  gamma : Nat
  w : Nat
  t : Nat
  s : Nat
deriving DecidableEq, Repr

/-- A bound shard: its bind, its ledger, whether a COLL of this epoch delivers to it (R167), the reduced gradient codes
that have arrived and are not consumed (by element of the shard, each as code + 1), the unit of work in hand (a segment,
or a line of plain SGD, R168, R190) and its phase (0 waits for gradient, 1 to 4 waits for the acknowledgement of that
phase's writes, 5 all planes complete), whether a cut interrupted it or it was found unable to finish, whether the
fingerprint of its present count was sent for comparison, the line the copy scrub stands at (R177), the moments,
statistics and remainders of the unit of work as L2 keeps them (R169; key: field * 2^40 + number, value: code + 1), the
place of that unit of work among those begun in its update unit, whether a cut ended the shard's gradient (R190), whether
the replicas were found to differ, and at which count, and the regions whose comparison is on its way and those found to differ (R193). -/
structure Shard where
  bind : Bind
  ledger : Ledger
  delivered : Bool
  staged : List (Nat × Nat)
  unitNo : Nat
  ph : Nat
  interrupted : Bool
  unable : Bool
  fpAsked : Bool
  scrubLine : Nat
  mom : List (Nat × Nat)
  order : Nat
  cut : Bool
  fpDiffer : Option Nat
  fpWait : List Nat
  fpBad : List Nat
deriving DecidableEq, Repr

/-- One node of a tree (Table 10.7): holder, parent (0xFFFF for the root), children in order (leaf flag, index). -/
structure TreeNode where
  holder : Nat
  parent : Nat
  children : List (Bool × Nat)
deriving DecidableEq, Repr

/-- A loaded communicator: number, leaf count, trees. `counts` numbers, by leaf, the collectives this module has
contributed to over it since the load. -/
structure Comm where
  id : Nat
  n : Nat
  trees : List (List TreeNode)
  counts : List (Nat × Nat)
deriving DecidableEq, Repr

/-- Parts of a chunk that a node has received: communicator, collective, chunk, node, the parts with the module each came
from, and whether the node has sent its own part on. -/
structure NodeParts where
  comm : Nat
  inst : Nat
  chunk : Nat
  node : Nat
  parts : List (Nat × CollChunk)
  sent : Bool
deriving DecidableEq, Repr

/-- A collective this module takes part in (R298): the command and its leaf, communicator and number, chunks still to be
delivered to its destination, the result flags gathered so far, and the reduced elements of block-scaled blocks that the
edge of a chunk cuts, by linear index, until their blocks are whole (R83). -/
structure CollRun where
  ring : Nat
  seq : Nat
  comm : Nat
  inst : Nat
  leaf : Nat
  todo : List Nat
  info : Nat
  parted : List (Nat × Nat)
deriving DecidableEq, Repr

/-- A step part that has arrived at a node of tree 0 (R301): communicator, group, tag, node, listed child, the module it
came from, the part. -/
structure StepUp where
  comm : Nat
  group : Nat
  tag : Nat
  node : Nat
  child : Nat
  src : Nat
  part : StepPart
deriving DecidableEq, Repr

/-- A request issued to a peer (R292, R293): tag, peer, issue stamp, the command it belongs to (none for a signal or a
probe), where read data goes, and how many bytes. -/
structure PeerReq where
  tag : Nat
  peer : Nat
  issued : Nat
  ring : Nat
  seq : Nat
  dest : Nat
  len : Nat
deriving DecidableEq, Repr

/-- One flit train in the replay buffer (R283): sequence number of its first flit, number of flits, sends, message. -/
structure Sent where
  seq : Nat
  flits : Nat
  sends : Nat
  msg : Message
deriving DecidableEq, Repr

/-- One link (R278 to R286): next sequence number to send, unacknowledged flits, messages that wait for credits, credits
held by channel, the last sequence number acknowledged, next expected number, whether a NACK is out, the stamp at which
the acks last advanced, stamps of failed retrains, the lanes that the peer reports live, whether the link went down and has
not come up since, and the uncorrectable codewords of the present window. -/
structure Link where
  txSeq : Nat
  replay : List Sent
  waiting : List Message
  credits : List Nat
  txAck : Nat
  rxSeq : Nat
  nackOut : Bool
  ackAt : Nat
  failed : List Nat
  peerMask : Nat
  wasDown : Bool
  ucwWin : Nat
deriving DecidableEq, Repr

/-- The fabric side: links, loaded communicators, node parts, collectives, step parts, peer requests, next request tag,
tags and the stamps at which they were last issued, stamps of the last PROBE_RESP by peer (or of the first PROBE), peers found unreachable, and requests of peers that wait for
a core or a stack under reset (source and payload, R219, R241). -/
structure Fabric where
  links : List Link
  comms : List Comm
  nodes : List NodeParts
  colls : List CollRun
  stepUps : List StepUp
  reqs : List PeerReq
  nextTag : Nat
  issued : List (Nat × Nat)
  probeSeen : List (Nat × Nat)
  unreachable : List Nat
  waitReqs : List (Nat × Payload)
deriving DecidableEq, Repr

/-- What the device sends out: an MSI-X message of a port's vector, a message on a link (the number of its first flit and
the ack that its flits carry, R283), a NACK (the number it names; its ack is the one before), an IDLE flit with its ack and
the credits it returns, the other signals of its pins and management buses by name, and the values of a mailbox response whose layout the manual does
not give. (DESIGN CHOICE 28) -/
inductive Out where
  | msix (port vector : Nat)
  | link (n seq ack : Nat) (m : Message)
  | nack (n seq : Nat)
  | idle (n ack vc cred : Nat)
  | train (n : Nat)
  | answer (path : Nat) (value : Nat)
  | abort (path : Nat)
  | reply (ch : Nat) (values : List Nat)
deriving DecidableEq, Repr

/-- A Nutmeg record (Table 15.4). The manual names the classes and leaves the event codes within a class and the payload
open; `code` is the model's own number of the event and `ident` stands for the identifying bytes. (DESIGN CHOICE 23) -/
structure NutRec where
  cls : Nat
  code : Nat
  sev : Nat
  slot : Nat
  group : Nat
  repeats : Nat
  stamp : Nat
  lastStamp : Nat
  seq : Nat
  unit : Nat
  stepTag : Nat
  powerCycle : Nat
  ident : Nat
deriving DecidableEq, Repr

/-- What a record says of its event: class, the model's code, severity, unit, step group and tag, identifying bytes.
(DESIGN CHOICE 23) -/
structure NutEvent where
  cls : Nat
  code : Nat
  sev : Nat
  unit : Nat
  group : Nat
  stepTag : Nat
  ident : Nat
deriving DecidableEq, Repr

/-- A telemetry entry (Table 15.7): a sample set member or a decision record of R33. (DESIGN CHOICE 23) -/
structure TelRec where
  stamp : Nat
  seq : Nat
  kind : Nat
  unit : Nat
  stepTag : Nat
  values : List Nat
deriving DecidableEq, Repr

/-- Resources retired while in use (Table 15.2), by the index of the register that describes each. Arrays, ports, links,
pseudo-channels and diodes are also told by their own registers. `spared` maps a pseudo-channel to the spare that replaced
it (R227). `capped` is the redirect table of R238: the logical pseudo-channels of each completed capacity retirement, the
latest first; a retired stack is one entry of 64. -/
structure Retired where
  cores : List Nat
  arrays : List Nat
  stackSet : List Nat
  links : List Nat
  lanes : List Nat
  spared : List (Nat × Nat)
  capped : List (List Nat)
deriving DecidableEq, Repr

/-- A reset in progress (R218, R241): of a core (`kind` 1), a die (2) or a stack base (3); its unit, the stamp of its
request, the commands it stopped, each with whether a row of it was lost (R220), and the mailbox channels that asked for it. -/
structure ResetRun where
  kind : Nat
  unit : Nat
  t0 : Nat
  stopped : List (Nat × Nat × Bool)
  asks : List Nat
deriving DecidableEq, Repr

/-- A copy of a retired pseudo-channel in progress (R237, R239): its physical index, the spare that takes over, or none and
the number k of the capacity retirement. `cause` and `stamp` wait for the registry. -/
structure PcMove where
  pc : Nat
  spare : Option Nat
  k : Nat
  cause : Nat
  stamp : Nat
deriving DecidableEq, Repr

/-- An entry of the retirement registry (Table 15.3); its check word is derived, and `torn` says that it fails. -/
structure RegEntry where
  kind : Nat
  cause : Nat
  unit : Nat
  stamp : Nat
  detail : Nat
  powerCycle : Nat
  torn : Bool
deriving DecidableEq, Repr

/-- A configuration image as the boot ROM reads it (Tables 16.3 and 16.4): sequence, signed flag, digest, register values
(BAR0 offset and value), subsystem identity, mailbox map words (none: shipped), countersign key, debug keys with their
highest levels, and the policy requests permitted (none: all of Table 13.11). -/
structure ConfigImage where
  seq : Nat
  isSigned : Bool
  digest : Nat
  values : List (Nat × Nat)
  pci : Nat
  mbxMap : List Nat
  counterKey : Option Nat
  debugKeys : List (Nat × Nat)
  policy : Option (List Nat)
deriving DecidableEq, Repr

/-- A margin table of a power region (R407): its generation, the powered hours that it had at a stamp, that stamp, and
voltages by step in units of 100 µV (none: the nominal ones). -/
structure MarginTable where
  gen : Nat
  hours : Nat
  since : Nat
  margins : List Nat
deriving DecidableEq, Repr

/-- What survives a loss of power (Table 16.1): configuration banks (none: not valid), the retirement registry's
generation, live bank and entries in order, the pinned Nutmeg mirror and the stored seq, margin tables by region, the four
counters of Table 16.5, whether the factory calibration block verifies, whether the PUF reconstructs and matches the
certificate, and whether the flash authenticates its counters. -/
structure NonVol where
  banks : List (Option ConfigImage)
  regGen : Nat
  regBank : Nat
  registry : List RegEntry
  mirror : List NutRec
  seqStore : Nat
  margins : List MarginTable
  counters : List Nat
  calOk : Bool
  pufOk : Bool
  idOk : Bool
  flashOk : Bool
deriving DecidableEq, Repr

/-- The records side: events in the hardware queue of Table 13.2 with their stamps, live Nutmeg records (pinned slots 0 to 4,095, circular above), next circular slot, events counted
lost and not yet summarised with the stamps of first and last, telemetry log, records written in the current second, and the errors counted toward thresholds (R412, R414): the kind
and unit, and the stamp. `laneHits` are the corrections of bond lanes: the lane, the row, the stamp (R204). -/
structure Records where
  queue : List (NutEvent × Nat)
  nut : List NutRec
  nextCirc : Nat
  lostPending : Nat
  lostFirst : Nat
  lostLast : Nat
  secStart : Nat
  secCount : Nat
  tel : List TelRec
  errs : List (Nat × Nat)
  laneHits : List (Nat × Nat × Nat)
deriving DecidableEq, Repr

/-- A Fennel transfer on its way (R251, R253): its source (a ring), the command it belongs to, destination and data. -/
structure FennelXfer where
  source : Nat
  seq : Nat
  dst : Nat
  data : List Byte
deriving DecidableEq, Repr

/-- A firmware image in a bank of Cumin's SRAM (Table 13.3): its versions, hand-over schemas, size, whether it is
countersigned, the SHAKE256 digest of its first load_size bytes, and whether it was marked failed (R376).
(DESIGN CHOICE 71) -/
structure FwImage where
  major : Nat
  minor : Nat
  patch : Nat
  secVersion : Nat
  schemaMin : Nat
  schemaMax : Nat
  schemaOut : Nat
  loadSize : Nat
  countersigned : Bool
  digest : Nat
  failed : Bool
deriving DecidableEq, Repr

/-- The firmware side (R359 to R379, R449 to R451): images of banks A and B, the channel of a LOAD in progress, the channel
of an ACTIVATE accepted and not answered, the stamp t_f of a hand-over, the protocol versions that HELLO agreed (channel
and service as one number, version), compartment faults (compartment, stamp), the challenge of the latest GET_CHALLENGE
with its counter value, the identity keys: ready in the key store, or zeroed, Cumin's private SRAM, the regions its MPU
holds, base and length, and the compartment they belong to (R359, R362). -/
structure Firmware where
  banks : List (Option FwImage)
  loading : Option Nat
  activating : Option Nat
  frozenAt : Nat
  opened : List (Nat × Nat)
  faults : List (Nat × Nat)
  challenge : Option (Nat × Nat)
  keysReady : Bool
  keysZeroed : Bool
  sram : List Host.Cell
  mpu : List (Nat × Nat)
  running : Nat
deriving DecidableEq, Repr

/-- Policy requests accepted (R32, R386): the priority order, the depth range, and the profile requested. What the open
epochs took at their STEP_OPEN is held by their groups; the class weights stand in SEM_PRIO_WEIGHT. -/
structure Policy where
  prio : Nat
  depth : Option (Nat × Nat)
  profileReq : Option Nat
deriving DecidableEq, Repr

/-- Whether the module has input power, main power, and is awake (R387, R405, R442). -/
inductive PowerState where | unpowered | standby | running | asleep
deriving DecidableEq, Repr

/-- The power side of a die (R389 to R394): divisor and skip of the hardware cap loop and whether the current limit set
them, the step that a change in progress leads to, stamps of droops in the present millisecond, and the value from which a
rise is told during a warning (R400). -/
structure DiePower where
  loopD : Nat
  loopS : Nat
  current : Bool
  target : Nat
  droops : List Nat
  warnRef : Nat
deriving DecidableEq, Repr

/-- A suspect episode of a layer diode (R215): sensor, whether it is open, stamps of its flags, and the last stamp at which
the diode was suspect. -/
structure Episode where
  sensor : Nat
  flags : List Nat
  lastAt : Nat
deriving DecidableEq, Repr

/-- Power and heat beside the registers: the power state, dies, each stack's share in mW (R394), its windows in the present
millisecond and those over the limit (R234), the readings of the Anise domain (R398: logic-die diodes from 0, layer and cap
diodes from 160, stacks from 320), suspect episodes, stamps of thermal shutdowns
(R404), a restart asked for (R404), the part of a µJ of the energy counter, and the model temperatures of the layer regions
in units of 2^-20 °C (R213). -/
structure PowerRun where
  state : PowerState
  dies : List DiePower
  share : List Nat
  windows : List (Nat × Nat)
  diodes : List (Nat × Nat)
  episodes : List Episode
  shutdowns : List Nat
  restartAsked : Bool
  energyRest : Nat
  layerTemps : List (Nat × Int)
deriving DecidableEq, Repr

/-- The sideband side: the dynamic I3C address, whether the target may raise events (ENEC, DISEC), the TAP instruction in
force and the pattern in its boundary register, and whether Cumin is halted (R451, R469, R471). -/
structure Side where
  address : Option Nat
  events : Bool
  tap : Nat
  boundary : Nat
  halted : Bool
deriving DecidableEq, Repr

/-- What the hardware of this device meets and no command brings about (DESIGN CHOICE 79): the words of the layers whose
writes fail the layer's check (R203), the bonded ports whose next access meets a vote disagreement on its command
lanes, one entry for each (R202), the arrays whose next fetch of operands meets a parity error, each with whether the
second fetch fails too (R68), and what the self-tests of the next start-up find bad: the kind of Table 15.3, the unit and
the detail of each finding (R206, R240, R418). -/
structure Env where
  writeBad : List Nat
  votes : List Nat
  parity : List (Nat × Bool)
  defects : List (Nat × Nat × Nat)
deriving DecidableEq, Repr

/-- The device. `time` is ANI_TIMEBASE; `regs` the register file (key: register and instance) with the value of every
register that differs from its reset value; `cnts` the counters whose unit depends on where the scheduler places work;
`mem` the memories at their addresses of the 64-bit device address space, host windows included; `grads` the local
gradient elements of bound gradient views; `spills` the allocated spill records (key: die and index) with the slot that
owns each (R111); `sideValid` the valid pages of side memory (R149); `fennel` the transfers in flight; `rdOk` and `wrOut` the peer ranges whose
bytes the command in hand has fetched and those it has written, `acc` the ranges that it has accessed (all empty between
commands); `marks` the error pattern of a DRAM block (576 bits, 8 to a symbol) or of an 8-byte word (72 bits), by its address;
`hostRefused` the host ranges (base, length) that a host answers with an error; `env` what the hardware meets; `resets` and `moves` the resets and pseudo-channel copies in progress; `nv` what survives
a loss of power; `mbx` the buffers of the mailbox channels (key: channel * 0x8000 + offset), `fw` and `policy` the firmware, `pwr`
power and heat; `side` the board-management bus and the TAP; `free` counts the free values used. -/
structure Dev where
  time : Nat
  regs : List (Nat × Nat)
  cnts : List (Nat × Nat)
  mem : List Host.Cell
  grads : List (Nat × Nat)
  spills : List (Nat × Nat)
  sideValid : List Nat
  fennel : List FennelXfer
  rdOk : List (Nat × Nat)
  wrOut : List (Nat × Nat)
  acc : List (Nat × Nat)
  marks : List (Nat × Nat)
  hostRefused : List (Nat × Nat)
  env : Env
  retired : Retired
  resets : List ResetRun
  moves : List PcMove
  nv : NonVol
  mbx : List Host.Cell
  fw : Firmware
  policy : Policy
  pwr : PowerRun
  ports : List PortRun
  side : Side
  eng : Engine
  steps : Steps
  shards : List Shard
  fab : Fabric
  recs : Records
  free : Nat
  out : List Out
deriving DecidableEq, Repr

end Sys2Proof.Machine
end

