-- ==== Sys2Proof/Machine/Ecc.lean ====
section
/-! DEFINITION. Error codes: the Reed-Solomon code of a DRAM block (R228, R229) and the SECDED code of an 8-byte word
(R203, R149). An error pattern is the number whose bits are the stored bits that read wrong. -/
namespace Sys2Proof.Machine

/-- Multiplication by α in GF(2^8) over x^8 + x^4 + x^3 + x^2 + 1 (R228). -/
def rsDouble (a : Nat) : Nat := if 2 * a < 256 then 2 * a else (2 * a) ^^^ 0x11D

/-- The product of `a` and the `k` low bits of `b`. -/
def rsMulBits (k a b : Nat) : Nat :=
  match k with
  | 0 => 0
  | n + 1 => (if b % 2 = 1 then a else 0) ^^^ rsMulBits n (rsDouble a) (b / 2)

def rsMul (a b : Nat) : Nat := rsMulBits 8 a b

/-- α^n. -/
def rsAlpha (n : Nat) : Nat :=
  match n with
  | 0 => 1
  | k + 1 => rsDouble (rsAlpha k)

/-- A polynomial, highest coefficient first, times x + r. -/
def rsTimesRoot (p : List Nat) (r : Nat) : List Nat := List.zipWith (· ^^^ ·) (p ++ [0]) (0 :: p.map (rsMul r))

/-- The generator, with the roots α^0 to α^7 (R228). -/
def rsGenerator : List Nat := (List.range 8).foldl (fun p i => rsTimesRoot p (rsAlpha i)) [1]

/-- The 8 check symbols of data symbols, the first symbol as the highest power (R228). (DESIGN CHOICE 39) -/
def rsCheck (data : List Nat) : List Nat :=
  data.foldl (fun reg x =>
    List.zipWith (· ^^^ ·) (reg.drop 1 ++ [0]) ((rsGenerator.drop 1).map (rsMul (x ^^^ reg.headD 0)))) (List.replicate 8 0)

/-- The 72 symbols of a 64-byte block: byte k is symbol k, pins 32 to 35 carry the check symbols (R228). -/
def rsEncode (block : List (BitVec 8)) : List Nat :=
  let data := block.map (·.toNat)
  data ++ rsCheck data

/-- The value of a word of symbols at α^j: zero for j from 0 to 7 exactly on the words of the code. -/
def rsSyndrome (word : List Nat) (j : Nat) : Nat := word.foldl (fun a c => rsMul a (rsAlpha j) ^^^ c) 0

/-- The symbol and the bit in it that pin `p` carries in beat `beat` (R228). -/
def rsPlace (p beat : Nat) : Nat × Nat := (2 * p + beat / 8, beat % 8)

/-- The symbols in which an error pattern of a block differs from what was stored. -/
def rsWeight (pattern : Nat) : Nat := ((List.range 72).filter (fun i => bits pattern (8 * i + 7) (8 * i) != 0)).length

/-- The wrong bits of an error pattern of a word of the (72,64) code. -/
def wordWeight (pattern : Nat) : Nat := ((List.range 72).filter (fun i => pattern.testBit i)).length

/-- The lowest wrong bit of an error pattern of a word. -/
def wordBit (pattern : Nat) : Nat := ((List.range 72).find? (fun i => pattern.testBit i)).getD 0

end Sys2Proof.Machine
end

