-- ==== Sys2Proof/Machine/Operands.lean ====
section
/-! DEFINITION. The encodings of chapter 12 as pure functions of the numbers that the 64-byte entries, tensor
descriptors and parameter blocks spell: the common header (Table 12.1), the opcodes (Table 12.2), tensor descriptors
(Table 12.3) and the reserved bits of every body (R8, R335). -/
namespace Sys2Proof.Machine

/-- Word `k` (64 bits, at byte offset 8k) of a command entry. -/
def entryWord (e k : Nat) : Nat := e / 2 ^ (64 * k) % 2 ^ 64

/-- A completion signal of the header (Table 12.1, sig0 and sig1). -/
structure Sig where
  amount : Nat
  remote : Bool
  peer : Nat
  sem : Nat
deriving DecidableEq, Repr

def sigOf (w : Nat) : Sig := ⟨bits w 63 48, bit w 32, bits w 31 18, bits w 17 0⟩

/-- The common header of Table 12.1. -/
structure Header where
  opx : Nat
  stageEn : Bool
  stage : Nat
  group : Nat
  inEpoch : Bool
  sig1En : Bool
  sig0En : Bool
  waitEn : Bool
  opcode : Nat
  tag : Nat
  waitTarget : Nat
  mbatch : Nat
  waitSem : Nat
  sig0 : Sig
  sig1 : Sig
deriving DecidableEq, Repr

def headerOf (e : Nat) : Header :=
  let w0 := entryWord e 0
  let w1 := entryWord e 1
  ⟨bits w0 31 23, bit w0 22, bits w0 21 16, bits w0 15 12, bit w0 11, bit w0 10, bit w0 9, bit w0 8, bits w0 7 0,
   bits w0 63 32, bits w1 31 0, bits w1 63 50, bits w1 49 32, sigOf (entryWord e 2), sigOf (entryWord e 3)⟩

/-- The word of a completion signal (Table 12.1). -/
def sigWord (s : Sig) : Nat := s.amount * 2 ^ 48 + b2n s.remote * 2 ^ 32 + s.peer * 2 ^ 18 + s.sem

/-- The four words of a header, the inverse of `headerOf` (Table 12.1). -/
def headerWords (h : Header) : Nat :=
  (h.opcode + b2n h.waitEn * 2 ^ 8 + b2n h.sig0En * 2 ^ 9 + b2n h.sig1En * 2 ^ 10 + b2n h.inEpoch * 2 ^ 11
    + h.group * 2 ^ 12 + h.stage * 2 ^ 16 + b2n h.stageEn * 2 ^ 22 + h.opx * 2 ^ 23 + h.tag * 2 ^ 32)
  + (h.waitTarget + h.waitSem * 2 ^ 32 + h.mbatch * 2 ^ 50) * 2 ^ 64
  + sigWord h.sig0 * 2 ^ 128 + sigWord h.sig1 * 2 ^ 192

/-- The opcodes of Table 12.2. -/
inductive Opcode where
  | mm | conv | sliceMm | row | vec | copy | mcast | fennelPut | semWait | semSignal | coll | updBind | updUnbind
  | stepOpen | stepClose | scaleSet | censusRead | digest | fence | timestamp | nop
deriving DecidableEq, Repr

def opcodeOf (c : Nat) : Option Opcode :=
  match c with
  | 0x01 => some .mm | 0x02 => some .conv | 0x03 => some .sliceMm | 0x08 => some .row | 0x09 => some .vec
  | 0x10 => some .copy | 0x11 => some .mcast | 0x12 => some .fennelPut | 0x18 => some .semWait
  | 0x19 => some .semSignal | 0x20 => some .coll | 0x28 => some .updBind | 0x29 => some .updUnbind
  | 0x30 => some .stepOpen | 0x31 => some .stepClose | 0x38 => some .scaleSet | 0x39 => some .censusRead
  | 0x3C => some .digest | 0x40 => some .fence | 0x41 => some .timestamp | 0x7F => some .nop | _ => none

def Opcode.code : Opcode → Nat
  | .mm => 0x01 | .conv => 0x02 | .sliceMm => 0x03 | .row => 0x08 | .vec => 0x09 | .copy => 0x10 | .mcast => 0x11
  | .fennelPut => 0x12 | .semWait => 0x18 | .semSignal => 0x19 | .coll => 0x20 | .updBind => 0x28
  | .updUnbind => 0x29 | .stepOpen => 0x30 | .stepClose => 0x31 | .scaleSet => 0x38 | .censusRead => 0x39
  | .digest => 0x3C | .fence => 0x40 | .timestamp => 0x41 | .nop => 0x7F

/-- The ring class that permits an opcode; none where any class does (R310, Tables 11.4 and 12.2). -/
def Opcode.ringClass : Opcode → Option Nat
  | .mm | .conv | .sliceMm | .row | .vec => some 0
  | .copy | .mcast | .fennelPut => some 1
  | .coll => some 2
  | .updBind | .updUnbind | .stepOpen | .stepClose | .scaleSet | .censusRead | .digest => some 3
  | .semWait | .semSignal | .fence | .timestamp | .nop => none

/-- The collective operation of a COLL entry, body [3:0] (Table 12.13). -/
inductive CollOp where | allreduce | reduce | broadcast | allgather | treeLoad | routeLoad
deriving DecidableEq, Repr

def collOpOf (c : Nat) : Option CollOp :=
  match c with
  | 0 => some .allreduce | 1 => some .reduce | 2 => some .broadcast | 3 => some .allgather
  | 8 => some .treeLoad | 9 => some .routeLoad | _ => none

/-- Table 12.2, column "Serialising". -/
def serialising (e : Nat) : Bool :=
  match opcodeOf (headerOf e).opcode with
  | some .updBind | some .updUnbind | some .stepOpen | some .stepClose | some .scaleSet | some .fence => true
  | some .coll => match collOpOf (bits (entryWord e 4) 3 0) with | some .treeLoad | some .routeLoad => true | _ => false
  | _ => false

/-- Bits [hi:lo] set. -/
def ones (hi lo : Nat) : Nat := (2 ^ (hi + 1 - lo) - 1) * 2 ^ lo

/-- The body bits that chapter 12 names for an opcode, as masks of words 4 to 7; every other body bit is reserved
(R335). -/
def bodyMask (op : Opcode) (inline : Bool) : Nat × Nat × Nat × Nat :=
  let full := ones 63 0
  match op with
  | .mm | .sliceMm => (full, full, full, full - ones 31 30)
  | .conv => (full, full, full, full)
  | .row => (full - ones 31 9, full, full, full)
  | .vec => (full - ones 31 12, full, full, full)
  | .copy => (full, full, ones 63 32 + ones 8 0, full)
  | .mcast => (full, ones 41 0, full, ones 31 0)
  | .fennelPut => if inline then (full, full, full, full) else (full, 0, 0, 0)
  | .semWait => (0, 0, 0, 0)
  | .semSignal => (ones 63 48 + ones 35 0, ones 31 0, 0, 0)
  | .coll => (full - ones 47 21, full, full, ones 31 0)
  | .updBind => (full, 0, 0, 0)
  | .updUnbind => (ones 31 0, 0, 0, 0)
  | .stepOpen => (full - ones 47 43, full, ones 31 0, 0)
  | .stepClose => (ones 32 0, 0, 0, 0)
  | .scaleSet => (ones 39 16 + ones 14 0, 0, 0, 0)
  | .censusRead => (full, ones 33 16 + ones 14 0, 0, 0)
  | .digest => (full, ones 12 0, full, 0)
  | .fence => (ones 0 0, 0, 0, 0)
  | .timestamp => (full, ones 0 0, 0, 0)
  | .nop => (0, 0, 0, 0)

/-- No bit outside `mask` is set. -/
def within (w mask : Nat) : Bool := (w ||| mask) == mask

/-- The length and inline flag that FENNEL_PUT carries in opx (Table 12.10). -/
def fennelLen (h : Header) : Nat := h.opx / 2 + 1
def fennelInline (h : Header) : Bool := h.opx % 2 == 1

/-- R8, R335, R336: every reserved bit of header and body is zero, and so are the fields of a clear enable bit. -/
def reservedOk (op : Opcode) (e : Nat) : Bool :=
  let h := headerOf e
  let m := bodyMask op (fennelInline h)
  let opxOk := match op with
    | .mm | .sliceMm => h.opx % 64 == 0
    | .fennelPut => true
    | _ => h.opx == 0
  let sigMask := ones 63 48 + ones 32 0
  opxOk
  && (h.waitEn || (h.waitTarget == 0 && h.waitSem == 0))
  && (h.stageEn || (h.stage == 0 && h.mbatch == 0))
  && (if h.sig0En then within (entryWord e 2) sigMask else entryWord e 2 == 0)
  && (if op = .fennelPut then !h.sig1En
      else if h.sig1En then within (entryWord e 3) sigMask else entryWord e 3 == 0)
  && (!h.inEpoch || !(op == .stepOpen || op == .stepClose || op == .scaleSet || op == .updBind || op == .updUnbind))
  && within (entryWord e 4) m.1 && within (entryWord e 5) m.2.1 && within (entryWord e 6) m.2.2.1
  && within (entryWord e 7) m.2.2.2

/-- R336: a valid signal has an amount of at least 1. FENNEL_PUT has no sig1. -/
def sigAmountsOk (op : Opcode) (h : Header) : Bool :=
  (!h.sig0En || h.sig0.amount != 0) && (op == .fennelPut || !h.sig1En || h.sig1.amount != 0)

/-- The rounding field of an entry where its own body carries one (Tables 12.4, 12.7, 12.8, 12.10, 12.12). -/
def roundField (op : Opcode) (e : Nat) : Nat :=
  match op with
  | .mm | .sliceMm => (headerOf e).opx / 64
  | .row => bits (entryWord e 4) 6 4
  | .vec => bits (entryWord e 4) 11 9
  | .copy => bits (entryWord e 6) 7 5
  | .coll => bits (entryWord e 4) 9 7
  | _ => 0

/-- Completion statuses of Table 12.17. -/
inductive Status where
  | ok | reservedField | badOpcode | classNotPermitted | badFormat | badShape | badRounding | badAddress
  | resourceUnavailable | slotGroup | epochState | tagOrder | bindLimit | bindConflict | badParam | fingerprint
  | treeInvalid | treeState | planUnplaceable | auxRequired | modeDisabled
  | uncorrectable | unbacked | hostAccess | linkLoss | remoteDenied | unroutable | spillExhausted | stoppedByReset
  | semError | aborted | commitWrite | treeMismatch | parkMismatch
  /-- Not a status of the record: the body needs bytes of a peer that have not arrived yet. -/
  | remoteData
  /-- Not a status of the record: the body waits for a restore or recompute of a plan entry (R267). -/
  | planWait
  /-- Not a status of the record: the access waits for a core or a memory stack under reset (R219, R241). -/
  | resetWait
deriving DecidableEq, Repr

def Status.code : Status → Nat
  | .ok => 0 | .reservedField => 0x1001 | .badOpcode => 0x1002 | .classNotPermitted => 0x1003 | .badFormat => 0x1004
  | .badShape => 0x1005 | .badRounding => 0x1006 | .badAddress => 0x1007 | .resourceUnavailable => 0x1008
  | .slotGroup => 0x1009 | .epochState => 0x100A | .tagOrder => 0x100B | .bindLimit => 0x100C
  | .bindConflict => 0x100D | .badParam => 0x100E | .fingerprint => 0x100F | .treeInvalid => 0x1010
  | .treeState => 0x1011 | .planUnplaceable => 0x1012 | .auxRequired => 0x1013 | .modeDisabled => 0x1014
  | .uncorrectable => 0x2001 | .unbacked => 0x2002 | .hostAccess => 0x2003 | .linkLoss => 0x2004
  | .remoteDenied => 0x2005 | .unroutable => 0x2006 | .spillExhausted => 0x2007 | .stoppedByReset => 0x2008
  | .semError => 0x2009 | .aborted => 0x200A | .commitWrite => 0x200B | .treeMismatch => 0x200C
  | .parkMismatch => 0x200D | .remoteData => 0x10000 | .planWait => 0x10001 | .resetWait => 0x10002

/-- Layouts of a tensor (Table 12.3). -/
inductive Layout where | strided | tiled
deriving DecidableEq, Repr

/-- Views of a bound tensor (Table 12.3). -/
inductive View where | forward | transposed | master | gradient
deriving DecidableEq, Repr

def viewOf (c : Nat) : View := match c % 4 with | 0 => .forward | 1 => .transposed | 2 => .master | _ => .gradient

/-- A tensor descriptor (Table 12.3) as its 64 bytes spell it. -/
structure RawDesc where
  base : Nat
  aux : Nat
  ext0 : Nat
  ext1 : Nat
  ext2 : Nat
  ext3 : Nat
  auxCount : Nat
  stride1 : Nat
  stride2 : Nat
  stride3 : Nat
  bound : Bool
  handle : Nat
  planEn : Bool
  plan : Nat
  view : View
  blockScaled : Bool
  fmtFromSlot : Bool
  slotEn : Bool
  slot : Nat
  layout : Nat
  fmt : Nat
  reservedOk : Bool
deriving DecidableEq, Repr

def rawDescOf (x : Nat) : RawDesc :=
  let w2 := entryWord x 2
  let w3 := entryWord x 3
  let w4 := entryWord x 4
  let w5 := entryWord x 5
  let w6 := entryWord x 6
  let w7 := entryWord x 7
  ⟨entryWord x 0, entryWord x 1, bits w2 31 0, bits w2 63 32, bits w3 31 0, bits w3 63 32, bits w4 63 40, bits w4 39 0,
   bits w5 39 0, bits w6 39 0, bit w5 63, bits w5 55 40, bit w6 54, bits w6 53 40, viewOf (bits w7 27 26), bit w7 25,
   bit w7 24, bit w7 23, bits w7 22 8, bits w7 7 4, bits w7 3 0,
   bits w5 62 56 == 0 && bits w6 63 55 == 0 && bits w7 63 28 == 0⟩

/-- Elements of a tensor. -/
def RawDesc.count (d : RawDesc) : Nat := d.ext0 * d.ext1 * d.ext2 * d.ext3

end Sys2Proof.Machine
end

