-- ==== Sys2Proof/Machine/SMap.lean ====
section
/-! DEFINITION. Sparse maps as plain data: a list of key and value pairs with strictly rising keys and no entry equal
to what an unlisted key reads as. Memories, register files and tables of the state all have this one canonical form. -/
namespace Sys2Proof.Machine

/-- The value at key `k`; `d` is what an unlisted key reads as. (DESIGN CHOICE 2) -/
def smapGet {α : Type} (m : List (Nat × α)) (k : Nat) (d : α) : α :=
  match m with
  | [] => d
  | (j, v) :: rest => if j = k then v else smapGet rest k d

/-- Whether key `k` is listed. -/
def smapHas {α : Type} (m : List (Nat × α)) (k : Nat) : Bool :=
  match m with
  | [] => false
  | (j, _) :: rest => j == k || smapHas rest k

/-- Remove key `k`. -/
def smapErase {α : Type} (m : List (Nat × α)) (k : Nat) : List (Nat × α) :=
  match m with
  | [] => []
  | (j, v) :: rest => if j = k then smapErase rest k else (j, v) :: smapErase rest k

/-- Put `v` at key `k`, whatever `v` is. -/
def smapPut {α : Type} (m : List (Nat × α)) (k : Nat) (v : α) : List (Nat × α) :=
  match m with
  | [] => [(k, v)]
  | (j, w) :: rest =>
    if j < k then (j, w) :: smapPut rest k v else if j = k then (k, v) :: rest else (k, v) :: (j, w) :: rest

/-- Write `v` at key `k`: an entry equal to what an unlisted key reads as (`d`) is removed. -/
def smapSet {α : Type} [DecidableEq α] (m : List (Nat × α)) (k : Nat) (v d : α) : List (Nat × α) :=
  if v = d then smapErase m k else smapPut m k v

/-- Every key of the list lies above `lo`, keys rise strictly, and no entry equals the unlisted value of its key. -/
def smapWfFrom {α : Type} [DecidableEq α] (dflt : Nat → α) (lo : Nat) (m : List (Nat × α)) : Bool :=
  match m with
  | [] => true
  | (j, v) :: rest => decide (lo ≤ j) && decide (v ≠ dflt j) && smapWfFrom dflt (j + 1) rest

/-- The canonical form. -/
def smapWf {α : Type} [DecidableEq α] (dflt : Nat → α) (m : List (Nat × α)) : Bool := smapWfFrom dflt 0 m

/-- The keys at which two maps in canonical form differ, with the values of both. -/
def smapDiff {α : Type} [DecidableEq α] (fuel : Nat) (dflt : α) (a b : List (Nat × α)) : List (Nat × α × α) :=
  match fuel, a, b with
  | 0, _, _ => []
  | _ + 1, [], [] => []
  | f + 1, (i, x) :: a, [] => (i, x, dflt) :: smapDiff f dflt a []
  | f + 1, [], (j, y) :: b => (j, dflt, y) :: smapDiff f dflt [] b
  | f + 1, (i, x) :: a, (j, y) :: b =>
    if i < j then (i, x, dflt) :: smapDiff f dflt a ((j, y) :: b)
    else if j < i then (j, dflt, y) :: smapDiff f dflt ((i, x) :: a) b
    else if x = y then smapDiff f dflt a b else (i, x, y) :: smapDiff f dflt a b

/-- Replace the entries whose key satisfies `p` by nothing. -/
def smapDrop {α : Type} (p : Nat → Bool) (m : List (Nat × α)) : List (Nat × α) :=
  m.filter (fun e => !p e.1)

end Sys2Proof.Machine
end

