-- ==== Sys2Proof/Machine/Ops.lean ====
section
/-! DEFINITION. The named operations that every meaning is written with: register fields, memory and its decode (R14,
R196, R197, R148, R290), ECC (R229, R203), semaphores (R255), MSI-X and event banks (R321, R461), Nutmeg records (R420
to R424) and telemetry entries (R426). -/
namespace Sys2Proof.Machine

/-! ### Registers -/

/-- The key of instance `i` of a register in the register file. -/
def regKey (r : Reg) (i : Nat) : Nat := r.ctorIdx * 2 ^ 20 + i

/-- Reset values that differ between instances: the shipped ring ranges of R322, the shipped channel map of Table 13.8
and the spares of Table 8.1 (MEM_PC_ECC). (DESIGN CHOICE 5) -/
def regInstanceReset (r : Reg) (i : Nat) : Nat :=
  match r with
  | .hpCfg => if i = 0 then 8191 * 2 ^ 14 else 8192 + 16383 * 2 ^ 14
  | .memPcEcc => if i % 66 ≥ 64 then 3 else 0
  | .mbxMap => mbxMapShipped i
  | .mbxChStatus => bits (mbxMapShipped i) 8 8 * 4
  | _ => 0
where
  /-- Table 13.8: initiator, responder and the enabled bit, as the map word of a channel. -/
  mbxMapShipped (c : Nat) : Nat :=
    let word := fun (initiator responder enabled : Nat) => initiator + responder * 2 ^ 4 + enabled * 2 ^ 8
    if c ≤ 4 then word (c % 2) 2 1
    else if c = 5 then word 5 2 1
    else if c = 6 then word 6 2 1
    else if c = 7 then word 4 2 0
    else if c ≤ 13 then word (c % 2) 3 1
    else if c = 14 then word 6 3 1
    else if c ≤ 16 then word ((c + 1) % 2) 3 1
    else if c = 17 then word 4 3 1
    else if c = 18 then word 5 3 1
    else word 7 7 0

/-- The value of a register after the reset of its domain, with the shipped configuration. (DESIGN CHOICE 5) -/
def regReset (r : Reg) (i : Nat) : Nat :=
  r.fields.foldl (fun a f => a + f.reset * 2 ^ f.lo) 0 + regInstanceReset r i

def regGet (d : Dev) (r : Reg) (i : Nat) : Nat := smapGet d.regs (regKey r i) (regReset r i)

def regSet (d : Dev) (r : Reg) (i v : Nat) : Dev :=
  { d with regs := smapSet d.regs (regKey r i) v (regReset r i) }

/-- Read a field of instance `i`. -/
def fget (d : Dev) (f : Field) (i : Nat) : Nat := bits (regGet d f.reg i) f.hi f.lo

/-- Write a field of instance `i`. -/
def fset (d : Dev) (f : Field) (i v : Nat) : Dev := regSet d f.reg i (setBits (regGet d f.reg i) f.hi f.lo v)

/-- Add to a field that saturates at its greatest value. -/
def fsat (d : Dev) (f : Field) (i n : Nat) : Dev := fset d f i (satAdd f.width (fget d f i) n)

/-- Add to a field that wraps. -/
def fwrap (d : Dev) (f : Field) (i n : Nat) : Dev := fset d f i (fget d f i + n)

/-- A counter of a unit that the scheduler's placement chooses: its value and its increment, held apart from the
register file so that an open placement never blocks it. A counter stays as it is while its unit freezes it (R10).
(DESIGN CHOICE 11) -/
def cntGet (d : Dev) (f : Field) (i : Nat) : Nat := smapGet d.cnts (regKey f.reg i * 2 ^ 8 + f.lo) 0

/-- DESIGN CHOICE 11 of the log. -/
def cntAdd (d : Dev) (f : Field) (i n : Nat) : Dev :=
  { d with cnts := smapSet d.cnts (regKey f.reg i * 2 ^ 8 + f.lo) (satAdd f.width (cntGet d f i) n) 0 }

def cntClear (d : Dev) (f : Field) (i : Nat) : Dev :=
  { d with cnts := smapSet d.cnts (regKey f.reg i * 2 ^ 8 + f.lo) 0 0 }

/-- A free value of `w` bits, with the counter advanced. (DESIGN CHOICE 37) -/
def takeFree (d : Dev) (w : Nat) : Nat × Dev := ((Config.free w d.free).toNat, { d with free := d.free + 1 })

/-- The device sends something out. (DESIGN CHOICE 62) -/
def emit (d : Dev) (o : Out) : Dev := { d with out := d.out ++ [o] }

/-! ### Addresses -/

/-- The regions of the device address space. -/
inductive Region where
  | dram
  | layer (die k off : Nat)
  | scratch (core off : Nat)
  | side (core off : Nat)
  | host (port : Nat)
  | peer (id off : Nat)
  | nothing
deriving DecidableEq, Repr

/-- The window of a bonded layer (R196): which die and layer an offset from 0x0001_0000_0000_0000 falls in. -/
def layerOf (o : Nat) : Region :=
  let die := o / 2 ^ 32 % 2
  let k := 1 + (o / 2 ^ 31 % 2) + 2 * (o / 2 ^ 33)
  .layer die k (o % 2 ^ 31)

/-- Decode an address (00 Scope and conventions, R196, R148, R290). -/
def regionOf (a : Nat) : Region :=
  if a < 0x9000000000 then .dram
  else if 0x0001000000000000 ≤ a ∧ a < 0x0001000400000000 then layerOf (a - 0x0001000000000000)
  else if 0x0002000000000000 ≤ a ∧ a < 0x0002000040000000 then
    let o := (a - 0x0002000000000000) % 2 ^ 24
    let c := (a - 0x0002000000000000) / 2 ^ 24
    if o < 0x600000 then .scratch c o
    else if 0x800000 ≤ o ∧ o < 0xC00000 then .side c (o - 0x800000) else .nothing
  else if 0x4000000000000000 ≤ a ∧ a < 0x5000000000000000 then .host 0
  else if 0x5000000000000000 ≤ a ∧ a < 0x6000000000000000 then .host 1
  else if 0x6000000000000000 ≤ a ∧ a < 0x6040000000000000 then .peer (a / 2 ^ 40 % 2 ^ 14) (a % 2 ^ 40)
  else .nothing

/-- R290: the local address of an offset in a peer's window; none for the semaphore range and unbacked offsets. -/
def peerOffsetAddr (o : Nat) : Option Nat :=
  if o < 0x9000000000 then some o
  else if 0xC000000000 ≤ o ∧ o < 0xC400000000 then some (0x0001000000000000 + (o - 0xC000000000))
  else none

/-- The module's own fabric identity. -/
def ownId (d : Dev) : Nat := fget d blCfgDevId 0

/-- R290: an address in the window of the module itself reaches local memory. -/
def localAddr (d : Dev) (a : Nat) : Nat :=
  match regionOf a with
  | .peer id o => if id = ownId d then (peerOffsetAddr o).getD a else a
  | _ => a

/-- Backed DRAM in bytes (R238, R240). -/
def dramBytes (d : Dev) : Nat := 0x9000000000 - 0x48000000 * fget d memCapacityRetired 0

def arrayRetired (d : Dev) (i : Nat) : Bool := d.retired.arrays.contains i || d.retired.cores.contains (i / 4)
def coreRetired (d : Dev) (c : Nat) : Bool := d.retired.cores.contains c

/-- The core a layer offset belongs to, and its array in L1 (R197), as a core number and an array index. -/
def layerCore (die k off : Nat) : Nat := die * 32 + (if k = 1 then off / 2 ^ 25 else off / 0x3000000)
def layerArray (die off : Nat) : Nat := die * 128 + off / 2 ^ 25 * 4 + off / 2 ^ 23 % 4

/-- R14, R196, R148, R238: whether an address is backed by memory, host memory or a peer. -/
def backed (d : Dev) (a : Nat) : Bool :=
  match regionOf (localAddr d a) with
  | .dram => decide (localAddr d a < dramBytes d)
  | .layer die k off =>
    if k = 1 then decide (off < 2 ^ 30) && !arrayRetired d (layerArray die off)
    else decide (off < 0x60000000) && !coreRetired d (layerCore die k off)
  | .scratch c _ => !coreRetired d c
  | .side c _ => !coreRetired d c
  | .host _ => true
  | .peer _ o => (peerOffsetAddr o).isSome
  | .nothing => false

/-- An address on another module. -/
def isRemote (d : Dev) (a : Nat) : Bool :=
  match regionOf (localAddr d a) with | .peer _ _ => true | _ => false

/-! The place of a granule (R225, R238). A logical pseudo-channel is numbered stack * 64 + index. -/

/-- Rows of a pseudo-channel, and granules of DRAM (R225). -/
def pcRows : Nat := 294912
def dramGranules : Nat := 512 * pcRows

/-- Table 8.1: stack, pseudo-channel and row of granule `g` under the plain mapping with `lc` stack-local
pseudo-channels. -/
def plainPlace (lc g : Nat) : Nat × Nat × Nat :=
  let i := 8 * (64 - lc) * pcRows
  if g < i then (g % 8, g / 8 % (64 - lc), g / (8 * (64 - lc)))
  else
    let r := (g - i) % (lc * pcRows)
    ((g - i) / (lc * pcRows), 64 - lc + r % lc, r / lc)

/-- How many granules below `g` the plain mapping puts into logical pseudo-channel `p`. -/
def plainCount (lc p g : Nat) : Nat :=
  let n := 64 - lc
  let i := 8 * n * pcRows
  if p % 64 < n then cdiv (min g i - (p / 64 + 8 * (p % 64))) (8 * n)
  else cdiv (min (g - (i + p / 64 * (lc * pcRows))) (lc * pcRows) - (p % 64 - n)) lc

/-- The least number from `lo` on, at most 2^`bits` above it, at which `p` holds, where `p` once true stays true. -/
def leastFrom (bits lo : Nat) (p : Nat → Bool) : Nat :=
  match bits with
  | 0 => if p lo then lo else lo + 1
  | k + 1 => if p (lo + 2 ^ k) then leastFrom k lo p else leastFrom k (lo + 2 ^ k) p

/-- The first granule of the range that the capacity retirements of a redirect table have freed (R238 step 1). -/
def freedLow (capped : List (List Nat)) : Nat := dramGranules - pcRows * (capped.map (·.length)).foldl (· + ·) 0

/-- How many granules below `g` lie physically in logical pseudo-channel `p` after the moves of a redirect table: those
that lay there before, and those of the latest move whose targets lie there (R238 steps 2 and 3). -/
def physCount (lc : Nat) (capped : List (List Nat)) (p g : Nat) : Nat :=
  match capped with
  | [] => plainCount lc p g
  | out :: older =>
    if out.contains p then 0
    else
      let low := freedLow (out :: older)
      let g := min g low
      let moved := out.foldl (fun a q => a + physCount lc older q g) 0
      let targets := fun (x : Nat) => x - low - out.foldl (fun a q =>
        a + (physCount lc older q x - physCount lc older q low)) 0
      let x := leastFrom 28 low (fun x => decide (moved ≤ targets x))
      physCount lc older p g + (physCount lc older p x - physCount lc older p low)

/-- The granule whose plain place holds granule `g` after the moves of a redirect table: the j-th granule to move goes to
the j-th target, both in ascending order (R238). -/
def physGranule (lc : Nat) (capped : List (List Nat)) (g : Nat) : Nat :=
  match capped with
  | [] => g
  | out :: older =>
    let q := physGranule lc older g
    let pc := fun (x : Nat) => let p := plainPlace lc x; p.1 * 64 + p.2.1
    if out.contains (pc q) then
      let low := freedLow (out :: older)
      let j := out.foldl (fun a q => a + physCount lc older q g) 0
      let targets := fun (x : Nat) => x - low - out.foldl (fun a q =>
        a + (physCount lc older q x - physCount lc older q low)) 0
      physGranule lc older (leastFrom 28 low (fun x => decide (j < targets (x + 1))))
    else q

/-- Stack, logical pseudo-channel and row in which the block of a DRAM address lies (R225, R238). -/
def dramPlace (d : Dev) (a : Nat) : Nat × Nat × Nat :=
  let lc := fget d memIlvCfgLocal 0
  plainPlace lc (physGranule lc d.retired.capped (a / 4096))

/-- The physical pseudo-channel of a DRAM address: the logical one, or the spare that replaced it (R227). -/
def physPc (d : Dev) (a : Nat) : Nat :=
  let p := dramPlace d a
  smapGet d.retired.spared (p.1 * 66 + p.2.1) (p.1 * 66 + p.2.1)

/-- The die whose engines and units serve an address (R246). -/
def dieOfAddr (d : Dev) (a : Nat) : Nat :=
  match regionOf (localAddr d a) with
  | .dram => (plainPlace (fget d memIlvCfgLocal 0) (localAddr d a / 4096)).1 / 4
  | .layer die _ _ => die
  | .scratch c _ => c / 32
  | .side c _ => c / 32
  | .host p => p
  | _ => 0

/-- The spill area of die `e` (R111): base address and size. -/
def spillBase (d : Dev) (e : Nat) : Nat := 0x0001000000000000 + e * 2 ^ 32 + fget d safSpillBaseBase e * 512
def spillBytes (d : Dev) (e : Nat) : Nat := fget d safSpillSizeUnits e * 4096 * 128

/-- R112: a range meets a spill area. -/
def inSpill (d : Dev) (a n : Nat) : Bool :=
  [0, 1].any (fun e => decide (a < spillBase d e + spillBytes d e ∧ spillBase d e < a + n))

/-! ### Memory -/

/-- What a byte of memory that nothing has written reads as (DESIGN CHOICE 2). -/
def memUnlisted : Byte := 0

/-- The canonical form of the memory: addresses strictly rising, and no entry equal to what an unlisted address reads as. -/
def Memory.wf (m : List Host.Cell) : Bool := smapWf (fun _ => memUnlisted) m

def memGet (d : Dev) (a : Nat) : Byte := smapGet d.mem (localAddr d a) memUnlisted

def memSet (d : Dev) (a : Nat) (v : Byte) : Dev := { d with mem := smapSet d.mem (localAddr d a) v memUnlisted }

/-- `n` bytes from address `a`. -/
def memRead (d : Dev) (a n : Nat) : List Byte := (List.range n).map (fun i => memGet d (a + i))

/-- The little-endian number of `n` bytes at `a` (R7). -/
def memReadNat (d : Dev) (a n : Nat) : Nat :=
  match n with
  | 0 => 0
  | k + 1 => (memGet d a).toNat + 256 * memReadNat d (a + 1) k

/-- Write bytes in address order. -/
def memWrite (d : Dev) (a : Nat) (bs : List Byte) : Dev :=
  match bs with
  | [] => d
  | b :: rest => memWrite (memSet d a b) (a + 1) rest

/-- Write the `n` low bytes of a number, little-endian. -/
def memWriteNat (d : Dev) (a n v : Nat) : Dev := memWrite d a (leBytes n v)

/-- The protected unit of an address: its base and whether it is a 64-byte DRAM block (R228) or an 8-byte word (R203,
R149, R415). -/
def eccBase (a : Nat) : Nat := match regionOf a with | .dram => a / 64 * 64 | _ => a / 8 * 8

/-- The error pattern of the unit of an address. (DESIGN CHOICE 39) -/
def markOf (d : Dev) (a : Nat) : Nat := smapGet d.marks (eccBase (localAddr d a)) 0

/-- R229, R203: a unit whose errors its code cannot correct: more than 3 symbols of a block, more than one bit of a word.
Past 5 symbols a DRAM block is detected all but always; the model takes it as detected (DESIGN CHOICE 3). -/
def uncorrectableAt (d : Dev) (a : Nat) : Bool :=
  match regionOf (localAddr d a) with
  | .dram => decide (rsWeight (markOf d a) > 3)
  | .host _ => false
  | .peer _ _ => false
  | _ => decide (wordWeight (markOf d a) > 1)

/-- A unit with a correctable error. -/
def correctableAt (d : Dev) (a : Nat) : Bool :=
  (match regionOf (localAddr d a) with
   | .dram => decide (rsWeight (markOf d a) ≥ 1)
   | _ => decide (wordWeight (markOf d a) ≥ 1)) && !uncorrectableAt d a

/-- Clear the mark of a unit: a whole write replaces it (R231). -/
def markClear (d : Dev) (a : Nat) : Dev := { d with marks := smapErase d.marks (eccBase (localAddr d a)) }

/-- Put a number into a rising list without repeats. -/
def insertNat (xs : List Nat) (x : Nat) : List Nat :=
  match xs with
  | [] => [x]
  | y :: rest => if y < x then y :: insertNat rest x else if y = x then y :: rest else x :: y :: rest

/-- The number of a page of side memory in `sideValid` (R149). -/
def sidePage (core off : Nat) : Nat := core * 1024 + off / 4096

/-- R149: a write of side memory sets the valid bits of the pages it meets; every record of a page that was not valid
reads as zero. -/
def sideWritten (d : Dev) (a n : Nat) : Dev :=
  match regionOf (localAddr d a) with
  | .side core off =>
    let pages := (List.range ((off % 4096 + n + 4095) / 4096)).map (fun i => sidePage core (off + 4096 * i))
    let fresh := fun (x : Nat) => match regionOf x with
      | .side c o => pages.contains (sidePage c o) && !d.sideValid.contains (sidePage c o)
      | _ => false
    { d with sideValid := pages.foldl insertNat d.sideValid, mem := smapDrop fresh d.mem, marks := smapDrop fresh d.marks }
  | _ => d

/-- How an access fails: the status and the device address of the first failing block (R358). -/
structure Fail where
  status : Status
  info : Nat
deriving DecidableEq, Repr

/-- HP_PORT_STATE.state values. -/
def portState (d : Dev) (p : Nat) : Nat := fget d hpPortStateState p

/-- A port that issues no request to its host: orphan hold, adopted or link down (Table 11.6, R330, R333). -/
def portSilent (d : Dev) (p : Nat) : Bool := portState d p == 2 || portState d p == 3 || portState d p == 4

/-- A host that refuses an address. (DESIGN CHOICE 39) -/
def hostRefuses (d : Dev) (a : Nat) : Bool := d.hostRefused.any (fun r => decide (r.1 ≤ a ∧ a < r.1 + r.2))

/-- R306, R308: the windows that a command of a port's ring may name. -/
def windowAllowed (d : Dev) (port a : Nat) : Bool :=
  match regionOf a with
  | .host p => p == port || (fget d hpCfgCrossHost 0 == 1 && fget d hpCfgCrossHost 1 == 1)
  | _ => true

/-- The checks a command makes on every range it names before it starts (R112, R290, R306). -/
def rangeNamed (d : Dev) (port a n : Nat) : Bool :=
  windowAllowed d port a && windowAllowed d port (a + n - 1) && !inSpill d (localAddr d a) n
  && (match regionOf a with
      | .peer _ _ => (match regionOf (a + n - 1) with | .peer _ o => (peerOffsetAddr o).isSome | _ => false)
      | .nothing => decide (a < 0x6000000000000000)
      | _ => true)

/-- R149: a read of side memory in a page whose valid bit is clear fails. -/
def sideInvalid (d : Dev) (a : Nat) : Bool :=
  match regionOf (localAddr d a) with
  | .side core off => !d.sideValid.contains (sidePage core off)
  | _ => false

/-- A reset of this kind and unit is in progress. -/
def inReset (d : Dev) (kind unit : Nat) : Bool := d.resets.any (fun r => r.kind == kind && r.unit == unit)

/-- R219, R241, Table 7.3: what an access meets at a unit under reset. Requests to a die's layers, scratch and side memory
fail; requests to a core or a stack wait. -/
def resetMet (d : Dev) (l : Nat) : Option Status :=
  match regionOf l with
  | .dram => if inReset d 3 (dramPlace d l).1 then some .resetWait else none
  | .layer die k off =>
    if inReset d 2 die then some .stoppedByReset
    else if inReset d 1 (if k = 1 then layerArray die off / 4 else layerCore die k off) then some .resetWait else none
  | .scratch c _ => if inReset d 2 (c / 32) then some .stoppedByReset else if inReset d 1 c then some .resetWait else none
  | .side c _ => if inReset d 2 (c / 32) then some .stoppedByReset else if inReset d 1 c then some .resetWait else none
  | _ => none

/-- One block's access failure (R14, R25, R35, R203, R230, R231, R249). `whole` says that a write covers the whole unit.
(DESIGN CHOICE 39) -/
def blockFails (d : Dev) (a : Nat) (write whole : Bool) : Option Fail :=
  let l := localAddr d a
  if !backed d a then some ⟨.unbacked, a⟩
  else if (resetMet d l).isSome then (resetMet d l).map (fun s => ⟨s, a⟩)
  else
    match regionOf l with
    | .host p => if portSilent d p || hostRefuses d l then some ⟨.hostAccess, a⟩ else none
    | .peer _ _ => none
    | _ =>
      if (uncorrectableAt d a && !(write && whole)) || (!write && sideInvalid d a)
          || (write && d.env.writeBad.contains (eccBase l)) then
        some ⟨.uncorrectable, eccBase l⟩ else none

/-- A read of peer bytes that have not been fetched for the command in hand: what it needs, as address and length. -/
def remoteNeed (d : Dev) (a n : Nat) : Option Fail :=
  if isRemote d a && !d.rdOk.any (fun r => decide (r.1 ≤ a ∧ a + n ≤ r.1 + r.2)) then some ⟨.remoteData, a * 2 ^ 64 + n⟩
  else none

/-- The first failing block of an access to `n` bytes at `a`, in address order by 8-byte units. (DESIGN CHOICE 39) -/
def accessFails (d : Dev) (a n : Nat) (write : Bool) : Option Fail :=
  if n = 0 then none
  else if !write && (remoteNeed d a n).isSome then remoteNeed d a n
  else
    (List.range (cdiv (a % 8 + n) 8)).findSome? (fun i =>
      let b := a / 8 * 8 + 8 * i
      let u := match regionOf (localAddr d b) with | .dram => 64 | _ => 8
      blockFails d b write (decide (a ≤ b / u * u) && decide (b / u * u + u ≤ a + n)))

/-! ### MSI-X and events -/

/-- A vector's mask bit in the MSI-X table: bit 0 of its last dword, 1 after reset (PRESUMED, the PCI layout).
(PRESUMED 22) -/
def vectorMasked (d : Dev) (p v : Nat) : Bool := smapGet d.eng.msixTable ((p * 2048 + v) * 4 + 3) 1 % 2 == 1

/-- R321, R324, R333: send a vector of a port: nothing while the port issues no requests, a pending bit while masked. -/
def sendVector (d : Dev) (p v : Nat) : Dev :=
  if portSilent d p then d
  else if vectorMasked d p v then
    { d with eng := { d.eng with msixPending :=
        if d.eng.msixPending.contains (p * 2048 + v) then d.eng.msixPending else d.eng.msixPending ++ [p * 2048 + v] } }
  else emit d (.msix p v)

/-- R461: set event bit `k` in port `p`'s bank. -/
def evtSetOne (d : Dev) (p k : Nat) : Dev :=
  let s := regGet d .hpEvtStatus p
  let d1 := regSet d .hpEvtStatus p (setBits s k k 1)
  if !bit s k && regGet d1 .hpEvtStatus p &&& regGet d1 .hpEvtEn p != 0 then sendVector d1 p 0 else d1

/-- R461: an event sets its bit in both banks. -/
def evtSet (d : Dev) (k : Nat) : Dev := evtSetOne (evtSetOne d 0 k) 1 k

/-! ### Logs in DRAM (R420, R426) -/

/-- The bytes of a number at their addresses from `a` on, those that an unlisted byte reads as left out. -/
def cellsOf (a : Nat) (bs : List Byte) : List Host.Cell :=
  match bs with
  | [] => []
  | b :: rest => if b = memUnlisted then cellsOf (a + 1) rest else (a, b) :: cellsOf (a + 1) rest

/-- Cumin writes `n` bytes of a number to a DRAM area of its own, in whole blocks; nothing where DRAM does not reach.
(DESIGN CHOICE 23) -/
def logWrite (d : Dev) (a n v : Nat) : Dev :=
  if a + n ≤ dramBytes d then
    { d with mem := d.mem.filter (fun c => decide (c.1 < a)) ++ cellsOf a (leBytes n v)
               ++ d.mem.filter (fun c => decide (a + n ≤ c.1)),
             marks := smapDrop (fun m => decide (a ≤ m ∧ m < a + n)) d.marks }
  else d

/-- The exclusive or of the low `n` 32-bit words of a number. -/
def xorWords (n v : Nat) : Nat := (List.range n).foldl (fun a i => a ^^^ v / 2 ^ (32 * i) % 2 ^ 32) 0

/-- A record as the number its 256 bytes spell (Table 15.4). (DESIGN CHOICE 23) -/
def nutBytes (r : NutRec) : Nat :=
  let src := (Config.nutSource r.cls r.code).val
  let head := r.cls % 2 ^ 8 * 2 ^ 24 + (Config.nutCode r.cls r.code).toNat * 2 ^ 16 + r.sev % 4 * 2 ^ 14
    + (if r.slot < 4096 then 2 ^ 13 else 0) + (if src < 6 then src else src + 10) * 2 ^ 8
    + (if r.stepTag = 0 then 0 else r.group % 16 * 2 ^ 4)
  let v := head + r.repeats % 2 ^ 32 * 2 ^ 32 + r.stamp % 2 ^ 64 * 2 ^ 64 + r.lastStamp % 2 ^ 64 * 2 ^ 128
    + r.seq % 2 ^ 64 * 2 ^ 192 + r.unit % 2 ^ 32 * 2 ^ 256 + r.stepTag % 2 ^ 32 * 2 ^ 288
    + r.powerCycle % 2 ^ 32 * 2 ^ 320 + (Config.nutPayload r.cls r.code r.ident).toNat * 2 ^ 384
  v + xorWords 63 v * 2 ^ 2016

/-- The address of a slot of the record area. -/
def nutAddr (d : Dev) (slot : Nat) : Nat := fget d nutCfgBase 0 * 2 ^ 26 + 256 * (slot % 2 ^ 18)

/-- A record is written, or written again in place (R420, R422). -/
def nutWrite (d : Dev) (r : NutRec) : Dev := logWrite d (nutAddr d r.slot) 256 (nutBytes r)

/-- A telemetry entry as the number its 64 bytes spell (Table 15.7). -/
def telBytes (r : TelRec) : Nat :=
  let vs := r.values.take 8
  let v := r.stamp % 2 ^ 64 + r.seq % 2 ^ 64 * 2 ^ 64 + vs.length * 2 ^ 128 + r.kind % 2 ^ 16 * 2 ^ 144
    + r.unit % 2 ^ 32 * 2 ^ 160 + r.stepTag % 2 ^ 32 * 2 ^ 192
    + (vs.zipIdx.map (fun x => x.1 % 2 ^ 32 * 2 ^ (224 + 32 * x.2))).foldl (· + ·) 0
  v + xorWords 15 v * 2 ^ 480

/-- The entries that the telemetry log holds, and the address of the one numbered `seq` (R426). -/
def telSlots (d : Dev) : Nat := max 1 (2 ^ fget d nutTelCfgSizeLog2 0 / 64)
def telAddr (d : Dev) (seq : Nat) : Nat := fget d nutTelCfgBase 0 * 2 ^ 26 + 64 * (seq % telSlots d)

/-- A local address that lies in neither of the two areas that Cumin logs to (R420, R426). -/
def logFree (d : Dev) (a : Nat) : Bool :=
  let nut := fget d nutCfgBase 0 * 2 ^ 26
  let tel := fget d nutTelCfgBase 0 * 2 ^ 26
  decide (a < nut ∨ nut + 2 ^ 26 ≤ a) && decide (a < tel ∨ tel + 64 * telSlots d ≤ a)

/-! ### Nutmeg -/

/-- The number of a unit (Table 15.6). -/
def unitId (type index : Nat) : Nat := type * 2 ^ 24 + index % 2 ^ 24

/-- The lowest pinned slot that is free (R420). -/
def freePinned (d : Dev) : Option Nat :=
  let used := (d.recs.nut.filter (fun r => r.slot < 4096)).map (fun r => r.slot)
  if used.length < 4096 then (List.range (used.length + 1)).find? (fun i => !used.contains i) else none

/-- R422: a record of an event's kind. -/
def sameKind (e : NutEvent) (r : NutRec) : Bool :=
  r.cls == e.cls && r.code == e.code && r.unit == e.unit && r.ident == e.ident

/-- R422: the record that an event stamped now folds into, the latest of its kind while the stamp lies in its window. -/
def foldsInto (d : Dev) (e : NutEvent) : Option NutRec :=
  ((d.recs.nut.filter (sameKind e)).getLast?).filter fun r =>
    decide (r.stamp ≤ d.time ∧ d.time < r.stamp + fget d nutCfgFoldMs 0 * 1000000)

/-- Open a new record (R420): severity error and fatal go to a free pinned slot, all others to the circular region. Every
4,096 records the next seq goes to the NVM (R423). (DESIGN CHOICE 23) -/
def nutOpen (d : Dev) (e : NutEvent) : Dev :=
  let seq := fget d nutStatusNextSeq 0
  let pin := if e.sev ≥ 2 then freePinned d else none
  let slot := pin.getD (4096 + d.recs.nextCirc)
  let rec0 : NutRec := ⟨e.cls, e.code, e.sev, slot, e.group, 1, d.time, d.time, seq, e.unit, e.stepTag,
    fget d aniPowerCyclesCount 0, e.ident⟩
  let kept := d.recs.nut.filter (fun r => r.slot != slot)
  let next := if pin.isSome then d.recs.nextCirc else (d.recs.nextCirc + 1) % 258048
  let d1 := nutWrite { d with recs := { d.recs with nut := kept ++ [rec0], nextCirc := next } } rec0
  let d1 := if (seq + 1) % 4096 = 0 then { d1 with nv := { d1.nv with seqStore := seq + 1 } } else d1
  let d2 := fset d1 nutStatusNextSeq 0 (seq + 1)
  let d3 := if pin.isNone && next == 0 then fwrap d2 nutStatusCircWraps 0 1 else d2
  let d4 := if pin.isSome then
      let used := fget d3 nutStatusPinnedUsed 0 + 1
      let d5 := fset d3 nutStatusPinnedUsed 0 used
      if used = 4096 then evtSet (fset d5 nutStatusPinnedFull 0 1) 10 else d5
    else d3
  if e.sev ≥ 2 then evtSet d4 9 else d4

/-- R424: events beyond 10,000 records in a second are counted lost. -/
def nutRateOk (d : Dev) : Bool := decide (d.time ≥ d.recs.secStart + 1000000000) || decide (d.recs.secCount < 10000)

/-- Count a record in the current second. -/
def nutCount (d : Dev) : Dev :=
  if d.time ≥ d.recs.secStart + 1000000000 then
    { d with recs := { d.recs with secStart := d.time / 1000000000 * 1000000000, secCount := 1 } }
  else { d with recs := { d.recs with secCount := d.recs.secCount + 1 } }

/-- R424: one record of class 0x0A for the events lost so far. -/
def nutSummarise (d : Dev) : Dev :=
  if d.recs.lostPending = 0 then d
  else
    let n := d.recs.lostPending
    nutOpen { d with recs := { d.recs with lostPending := 0 } }
      ⟨0x0A, 0, 2, 0, 0, 0, n + d.recs.lostFirst * 2 ^ 64 + d.recs.lostLast * 2 ^ 128⟩

/-- An event that the queue or the rate limit turns away (R424). -/
def nutLose (d : Dev) : Dev :=
  fsat { d with recs := { d.recs with
      lostPending := d.recs.lostPending + 1,
      lostFirst := if d.recs.lostPending = 0 then d.time else d.recs.lostFirst,
      lostLast := d.time } } nutStatusLost 0 1

/-- R420 to R424: compartment 4 records an event. -/
def nutRecord (d : Dev) (e : NutEvent) : Dev :=
  match foldsInto d e with
  | some r =>
    let r1 := { r with repeats := r.repeats + 1, lastStamp := d.time }
    let nut := listUpdWhere d.recs.nut (fun x => x.seq == r.seq) (fun _ => r1)
    nutWrite { d with recs := { d.recs with nut := nut } } r1
  | none => if nutRateOk d then nutOpen (nutSummarise (nutCount d)) e else nutLose d

/-- The firmware serves and compartment `k` of it runs (Table 13.2); no hand-over pauses it (R378), Cumin has power (R405)
and no scan halts it (R451). (DESIGN CHOICE 71) -/
def compServes (d : Dev) (k : Nat) : Bool :=
  fget d mbxFwStatusState 0 == 2 && fget d mbxCompStatusState k == 1 && !d.side.halted && fget d mbxChStatusAwake 0 == 1

/-- R420, Table 13.2: an event is recorded, or waits in the hardware queue while compartment 4 does not serve.
(DESIGN CHOICE 23) -/
def nutmeg (d : Dev) (e : NutEvent) : Dev :=
  if compServes d 4 then nutRecord d e
  else if d.recs.queue.length < 4096 then { d with recs := { d.recs with queue := d.recs.queue ++ [(e, d.time)] } }
  else nutLose d

/-- Compartment 4 serves again: queued events are recorded with their own stamps, in order, and then those that the queue
turned away are summed up (R424). -/
def nutFlush (d : Dev) : Dev :=
  if compServes d 4 then
    let run := fun (x : Dev) (q : NutEvent × Nat) => nutRecord { x with time := q.2 } q.1
    let d1 := d.recs.queue.foldl run { d with recs := { d.recs with queue := [] } }
    let d2 := { d1 with time := d.time }
    if d2.recs.lostPending ≠ 0 ∧ nutRateOk d2 then nutSummarise (nutCount d2) else d2
  else d

/-! ### Errors met by accesses (R149, R202, R203, R224, R230, R231, R414) -/

/-- The kinds of counted errors: a corrected or an uncorrectable error of a pseudo-channel, of a core's side memory or
scratch, of a layer port, a corrected error of a layer row, a parity error (kind 7) and a second-fetch failure (8) of an array, an attributed
correction of a bond lane (9). Key: kind * 2^32 + unit
index. -/
def errKey (kind unit : Nat) : Nat := kind * 2 ^ 32 + unit

/-- The number of a layer row in `errKey`: die, layer, row of the window. -/
def layerRow (die k off : Nat) : Nat := (die * 4 + k - 1) * 2 ^ 22 + off / 512

def errAdd (d : Dev) (kind unit : Nat) : Dev :=
  { d with recs := { d.recs with errs := d.recs.errs ++ [(errKey kind unit, d.time)] } }

/-- The logical pseudo-channel that a physical one backs (R236). -/
def backedPc (d : Dev) (c : Nat) : Nat := ((d.retired.spared.find? (fun p => p.2 == c)).map (·.1)).getD c

/-- A read of DRAM block `a` that has an error: MEM_PC_ECC of the physical pseudo-channel counts it, and the logical one
for the thresholds (R230, R236). -/
def noteDram (d : Dev) (a : Nat) (unc : Bool) : Dev :=
  let c := physPc d a
  if unc then
    nutmeg (errAdd (fsat d memPcEccUncorrectable c 1) 1 (backedPc d c)) ⟨0x03, 0, 2, unitId 0x07 c, 0, 0, a⟩
  else errAdd (fsat d memPcEccCorrected c 1) 0 (backedPc d c)

/-- A read of side memory or scratch of core `c`. -/
def noteCore (d : Dev) (c : Nat) (side unc : Bool) : Dev :=
  let d := errAdd d (if unc then 3 else 2) c
  if !side || fget d cardCtlCntFreeze c = 1 then d
  else if unc then fsat d cardSideEccUncorrectable c 1 else fsat d cardSideEccCorrected c 1

/-- The port that serves a layer offset: the array port of L1, or the half-port `h` of the core. -/
def portOf (die k off h : Nat) : Nat :=
  if k = 1 then die * 192 + layerArray 0 off else die * 192 + 128 + layerCore 0 k off * 2 + h

/-- The number of a bond lane: port, group and lane. -/
def laneId (port group lane : Nat) : Nat := (port * 64 + group) * 128 + lane

/-- A correction on bit `b` of a word is a hit of its lane on the word's row. Once the lane has hits on two distinct rows it
is attributed: LYR_PORT_ECC.lane_attr and the lane's own errors count it (R204). -/
def laneHit (d : Dev) (port off row b : Nat) : Dev :=
  let lane := laneId port (off / 8 % 64) b
  let d1 := { d with recs := { d.recs with laneHits := d.recs.laneHits ++ [(lane, row, d.time)] } }
  if d.recs.laneHits.any (fun h => h.1 == lane && h.2.1 != row) then errAdd (fsat d1 lyrPortEccLaneAttr port 1) 9 lane
  else d1

/-- A read of a layer word: the array port of L1, or the half-port that served it, which the manual leaves open. -/
def noteLayer (d : Dev) (die k off pattern : Nat) (unc : Bool) : Dev :=
  let (h, d) := if k = 1 then (0, d) else takeFree d 1
  let p := portOf die k off h
  if unc then errAdd (fsat d lyrPortEccUncorrectable p 1) 5 p
  else
    let row := layerRow die k off
    laneHit (errAdd (errAdd (fsat d lyrPortEccCorrected p 1) 4 p) 6 row) p off row (wordBit pattern)

/-- Count the errors of one marked unit that a read meets. (DEDUCED 65) -/
def noteUnit (d : Dev) (a : Nat) : Dev :=
  match regionOf a with
  | .dram => noteDram d a (uncorrectableAt d a)
  | .layer die k off => noteLayer d die k off (markOf d a) (uncorrectableAt d a)
  | .scratch c _ => noteCore d c false (uncorrectableAt d a)
  | .side c _ => noteCore d c true (uncorrectableAt d a)
  | _ => d

/-- Bytes of the protected unit at a base address. -/
def unitSize (a : Nat) : Nat := match regionOf a with | .dram => 64 | _ => 8

/-- The marked units that meet a range. -/
def marksIn (d : Dev) (l n : Nat) : List Nat :=
  (d.marks.map (·.1)).filter (fun m => decide (l < m + unitSize m) && decide (m < l + n))

/-- The ports that serve a range of a layer: one array port or half-port for each row (R198). -/
def portServes (l n p : Nat) : Bool :=
  (List.range (cdiv (l % 512 + n) 512)).any (fun i =>
    match regionOf (l / 512 * 512 + 512 * i) with
    | .layer die k off => portOf die k off 0 == p || portOf die k off 1 == p
    | _ => false)

/-- R202: the vote disagreements that an access to a range meets increment the corrected counts of their ports.
(DESIGN CHOICE 79) -/
def noteVotes (d : Dev) (l n : Nat) : Dev :=
  let met := d.env.votes.filter (portServes l n)
  met.foldl (fun d p => fsat d lyrPortEccCorrected p 1)
    { d with env := { d.env with votes := d.env.votes.filter (fun p => !portServes l n p) } }

/-- An access to a range: the command in hand has touched it (R239), and its rows cross the bond (R202). -/
def noteAccess (d : Dev) (a n : Nat) : Dev :=
  noteVotes { d with acc := d.acc ++ [(localAddr d a, n)] } (localAddr d a) n

/-- Count the errors that a read of `n` bytes at `a` meets. (DEDUCED 65) -/
def noteRead (d : Dev) (a n : Nat) : Dev :=
  (marksIn d (localAddr d a) n).foldl noteUnit (noteAccess d a n)

/-- Count the errors that a read of ranges meets. -/
def noteRanges (d : Dev) (rs : List (Nat × Nat)) : Dev := rs.foldl (fun d r => noteRead d r.1 r.2) d

/-- A write to a range: units that it covers whole become good again (R231); of a unit that it covers in part the write
is a read, a merge and a write of the whole unit, so that its error is counted and corrected (R224). The layers read and
merge a word inside the layer (R201), where no port counts it. -/
def openWrite (d : Dev) (a n : Nat) : Dev :=
  let l := localAddr d a
  (marksIn d l n).foldl (fun d m =>
    let whole := decide (l ≤ m) && decide (m + unitSize m ≤ l + n)
    let inside := match regionOf m with | .layer _ _ _ => true | _ => false
    markClear (if whole || inside then d else noteUnit d m) m) d

/-- The same for the ranges of a target, which the command in hand then touches. -/
def openRanges (d : Dev) (rs : List (Nat × Nat)) : Dev :=
  rs.foldl (fun d r => noteAccess (openWrite d r.1 r.2) r.1 r.2) d

/-- A store: bytes land, the units it meets become good again, and pages of side memory become valid. A store to a peer is
noted, and leaves as WR requests when the command in hand has run (R291). -/
def store (d : Dev) (a : Nat) (bs : List Byte) : Dev :=
  let d := memWrite (sideWritten (openWrite d a bs.length) a bs.length) a bs
  if isRemote d a then { d with wrOut := d.wrOut ++ [(localAddr d a, bs.length)] } else d

/-! ### Telemetry -/

/-- R426: append an entry to the telemetry log, a circular ring of 2^size_log2 bytes of 64-byte entries.
(DESIGN CHOICE 23) -/
def telemetry (d : Dev) (kind unit stepTag : Nat) (values : List Nat) : Dev :=
  let seq := fget d nutTelStatusNextSeq 0
  let entry : TelRec := ⟨d.time, seq, kind, unit, stepTag, values⟩
  let log := d.recs.tel ++ [entry]
  let d1 := fset { d with recs := { d.recs with tel := log.drop (log.length - telSlots d) } } nutTelStatusNextSeq 0 (seq + 1)
  logWrite d1 (telAddr d seq) 64 (telBytes entry)

/-- The open epoch that was opened first, of the lowest group where several were opened at one time. (DESIGN CHOICE 88) -/
def earliestEpoch (d : Dev) : Option Group :=
  (d.steps.groups.filter (fun g => g.phase == .opened || g.phase == .closing || g.phase == .reducing)).foldl
    (fun acc g => match acc with | some a => if g.openedAt < a.openedAt then some g else some a | none => some g) none

/-- R33: the step tag of a decision that concerns the whole module: that of the earliest open epoch, 0 outside epochs.
(DESIGN CHOICE 88) -/
def tagNow (d : Dev) : Nat := (earliestEpoch d).elim 0 (·.tag)

/-- Decision records of R33, kinds 0x0100 onward in the order of its list: 0 scale, 1 gradient format, 2 offload or
recompute, 3 power split or throttle, 4 retirement, 5 margin re-plan. (DESIGN CHOICE 23) -/
def decision (d : Dev) (which unit stepTag : Nat) (values : List Nat) : Dev :=
  telemetry d (0x0100 + which) unit stepTag values

/-! ### Semaphores (R255) -/

def semCount (d : Dev) (s : Nat) : Nat := fget d semValueCount s
def semErr (d : Dev) (s : Nat) : Bool := fget d semValueErr s == 1

/-- The four operations of R255. -/
inductive SemAct where
  | add (n : Nat)
  | set (v : Nat)
  | errSet (n : Nat)
  | errClear
deriving DecidableEq, Repr

def semApply (d : Dev) (s : Nat) (a : SemAct) : Dev :=
  match a with
  | .add n => fset d semValueCount s (semCount d s + n)
  | .set v => fset d semValueCount s v
  | .errSet n => fset (fset d semValueErr s 1) semValueCount s (semCount d s + n)
  | .errClear => fset d semValueErr s 0

/-- The operation of an encoding: 0 ADD, 1 SET, 2 ERR_SET, 3 ERR_CLEAR (Tables 10.4 and 12.11). -/
def semActOf (op amount value : Nat) : SemAct :=
  match op % 4 with | 0 => .add amount | 1 => .set value | 2 => .errSet amount | _ => .errClear

/-- R256: the wait for target `t` is reached. -/
def waitReached (d : Dev) (s t : Nat) : Bool := decide (serialDiff (semCount d s) t < 2 ^ 31)

end Sys2Proof.Machine
end

