-- ==== Sys2Proof/Machine/Tensors.lean ====
section
/-! DEFINITION. Tensors in memory: descriptors resolved against binds and scale slots (R338 to R341), element addresses
in strided, tiled and bound layouts (R339, R158, R161, R162), element reads and writes with block scales (R82 to R84),
S768 and BI8 storage (R87, R117), and the census of conversions (R88). -/
namespace Sys2Proof.Machine

/-- A resolved tensor: its descriptor, its format, the format of the slot that counts its conversions (R88: its own where
it has no bound slot), tensor scale exponent (R341: 0 for copies, master and block-scaled tensors), and the shards of its
handle when bound. -/
structure Tensor where
  raw : RawDesc
  fmt : Fmt
  hist : Fmt
  e : Int
  shards : List Shard
deriving DecidableEq, Repr

/-! ### Planes and commit records -/

def Bind.params (b : Bind) : Nat := 65536 * b.tiles

/-- Bytes per parameter and field of Table 6.1: master, first moment, second moment. -/
def Bind.masterBytes (b : Bind) : Nat := if b.masterFp32 then 4 else 2
def Bind.momBytes (b : Bind) : Nat := if b.momFp32 then 4 else 2
def Bind.hasM (b : Bind) : Bool := b.opt ≥ 1
def Bind.hasV (b : Bind) : Bool := b.opt == 2 || b.opt == 3
def Bind.hasStats (b : Bind) : Bool := b.opt == 4
def Bind.masterFmt (b : Bind) : Fmt := if b.masterFp32 then .fp32 else .bf16
def Bind.momFmt (b : Bind) : Fmt := if b.momFp32 then .fp32 else .bf16
def Bind.copyFmt (b : Bind) : Fmt := if b.copyFp8 then .fp8E4M3 else .bf16

/-- Offsets of the fields from the plane base, in the order of Table 6.1 (R161). -/
def Bind.offM (b : Bind) : Nat := b.params * b.masterBytes
def Bind.offV (b : Bind) : Nat := b.offM + (if b.hasM then b.params * b.momBytes else 0)
def Bind.offStats (b : Bind) : Nat := b.offV + (if b.hasV then b.params * b.momBytes else 0)
def Bind.offRho (b : Bind) : Nat := b.offStats + (if b.hasStats then 2048 * b.tiles else 0)
def Bind.offFwd (b : Bind) : Nat := b.offRho + 2 * b.params
def Bind.copyBytes (b : Bind) : Nat := if b.copyFp8 then b.params + b.params / 32 else 2 * b.params
def Bind.offTrans (b : Bind) : Nat := b.offFwd + b.copyBytes
def Bind.planeSize (b : Bind) : Nat := b.offTrans + (if b.transposed then b.copyBytes else 0)
def Bind.plane (b : Bind) (x : Nat) : Nat := if x = 0 then b.planeA else b.planeB

/-- A commit record (Table 6.6). -/
structure CommitRec where
  plane : Nat
  tag : Nat
  commitTag : Nat
  count : Nat
  mask : Nat
  verdict : Nat
  notApplied : Nat
  fp : Nat
  shard : Nat
deriving DecidableEq, Repr

/-- The 64 bytes of a commit record, check word included (Table 6.6). -/
def CommitRec.code (c : CommitRec) : Nat :=
  let body := (1 * 2 ^ 16 + c.plane) + c.tag * 2 ^ 32 + c.commitTag * 2 ^ 64 + c.count * 2 ^ 96
    + (c.mask * 2 ^ 8 + c.verdict) * 2 ^ 128 + c.notApplied * 2 ^ 160 + c.fp * 2 ^ 192 + c.shard * 2 ^ 320
  body + xorWords 15 body * 2 ^ 480

def commitOf (x : Nat) : CommitRec :=
  ⟨x % 2, bits x 63 32, bits x 95 64, bits x 127 96, bits x 143 136, bits x 130 128, bits x 191 160, bits x 319 192,
   bits x 351 320⟩

/-- One copy at an address, if it can be read and its check word holds. -/
def readCommitAt (d : Dev) (a : Nat) : Option CommitRec :=
  if (accessFails d a 64 false).isSome then none
  else
    let x := memReadNat d a 64
    if xorWords 16 x = 0 ∧ bits x 31 16 = 1 then some (commitOf x) else none

/-- R184: the copy with a valid check word and the greater tag in serial-number arithmetic. -/
def readCommit (d : Dev) (b : Bind) : Option CommitRec :=
  match readCommitAt d b.cr0, readCommitAt d b.cr1 with
  | some x, some y => if serialDiff y.tag x.tag < 2 ^ 31 ∧ y.tag ≠ x.tag then some y else some x
  | some x, none => some x
  | none, y => y

/-- The committed plane of a shard. -/
def committedPlane (d : Dev) (s : Shard) : Nat := match readCommit d s.bind with | some c => c.plane | none => 0

/-! ### Tiles -/

/-- Tile columns and tile rows of a tensor of `k` rows and `n` columns (R158). -/
def tileCols (n : Nat) : Nat := cdiv n 256
def tileRows (k : Nat) : Nat := cdiv k 256

/-- The shard that holds tile `t` of a tensor handle. -/
def shardOfTile (ss : List Shard) (t : Nat) : Option Shard :=
  ss.find? (fun s => decide (s.bind.firstTile ≤ t ∧ t < s.bind.firstTile + s.bind.tiles))

/-- The bound shards of a tensor handle, in order of first tile. -/
def shardsOf (d : Dev) (handle : Nat) : List Shard := d.shards.filter (fun s => s.bind.handle == handle)

/-! ### Resolving descriptors -/

/-- Read a number of `n` bytes for a command, or say how it fails. -/
def readFor (d : Dev) (port a n : Nat) : Except Fail Nat :=
  if !rangeNamed d port a n then .error ⟨.badAddress, 0⟩
  else match accessFails d a n false with
    | some f => .error f
    | none => .ok (memReadNat d a n)

/-- SUMAC_SLOT fields as the rules of chapter 3 use them. -/
def slotBound (d : Dev) (s : Nat) : Bool := fget d sumacSlotBound s == 1
def slotGroup (d : Dev) (s : Nat) : Nat := fget d sumacSlotGroup s
def slotFmt (d : Dev) (s : Nat) : Nat := fget d sumacSlotFmt s
def slotExp (d : Dev) (s : Nat) : Int := signedOf 8 (fget d sumacSlotE s)
/-- The slot is in saturate-and-count, set or entered (R78, R95). -/
def slotSaturates (d : Dev) (s : Nat) : Bool := fget d sumacSlotPolicy s == 1 || fget d sumacSlotFallback s == 1

/-- The checks of a bound descriptor (R341). (DEDUCED 16) -/
def boundOk (d : Dev) (r : RawDesc) : Option Status :=
  let ss := shardsOf d r.handle
  match ss with
  | [] => some .bindConflict
  | s :: _ =>
    let tiles := tileRows s.bind.k * tileCols s.bind.n
    let covered := ss.foldl (fun a x => a + x.bind.tiles) 0
    if covered ≠ tiles then some .bindConflict
    else if r.view = .transposed ∧ ss.any (fun x => !x.bind.transposed) then some .bindConflict
    else
      let want := if r.view = .transposed then (s.bind.k, s.bind.n) else (s.bind.n, s.bind.k)
      if r.ext0 ≠ want.1 ∨ r.ext1 ≠ want.2 ∨ r.ext2 ≠ 1 ∨ r.ext3 ≠ 1 then some .badShape
      else match r.view with
        | .gradient => if r.fmtFromSlot then none else some .badFormat
        | .master => if !r.fmtFromSlot && r.fmt == s.bind.masterFmt.code then none else some .badFormat
        | _ => if !r.fmtFromSlot && r.fmt == s.bind.copyFmt.code then none else some .badFormat

/-- R8, R339 to R341: the static checks of a descriptor, with the format it takes (R137). (DEDUCED 16) -/
def descStatus (d : Dev) (r : RawDesc) : Except Status Fmt :=
  if !r.reservedOk || r.layout > 1 then .error .reservedField
  else if r.ext0 = 0 ∨ r.ext1 = 0 ∨ r.ext2 = 0 ∨ r.ext3 = 0 then .error .badShape
  else if r.layout = 1 ∧ r.stride1 ≠ 0 then .error .reservedField
  else if r.layout = 1 ∧ (r.ext2 ≠ 1 ∨ r.ext3 ≠ 1) then .error .badShape
  else if r.bound && (r.base != 0 || r.aux != 0 || r.stride1 != 0 || r.stride2 != 0 || r.stride3 != 0) then
    .error .reservedField
  else
    let code := if r.fmtFromSlot then slotFmt d r.slot else r.fmt
    if r.fmtFromSlot && !(r.slotEn && slotBound d r.slot) then .error .badFormat
    else match fmtOfCode code with
      | none => .error .reservedField
      | some f =>
        if r.blockScaled && !f.blockScalable then .error .badFormat
        else if !r.bound && !r.blockScaled && f != .s768 && f != .bi8 && (r.aux != 0 || r.auxCount != 0) then
          .error .reservedField
        else if (r.blockScaled || f == .bi8) && r.auxCount != 0 then .error .reservedField
        else if r.bound then (match boundOk d r with | some s => .error s | none => .ok f)
        else .ok f

/-- R92: an epoch converts only into slots of its own group. A tensor that a command only reads and does not convert is
resolved with no group, so that its slot is not held to this. -/
def slotGroupOk (d : Dev) (group : Option Nat) (r : RawDesc) : Bool :=
  match group with
  | none => true
  | some g => !r.slotEn || !slotBound d r.slot || slotGroup d r.slot == g

/-- Bytes that a tensor of storage occupies, as ranges (base, length): each innermost row of a strided tensor, all blocks
of a tiled one; then the auxiliary array (R84, R87, R117). -/
def tensorRanges (t : Tensor) : List (Nat × Nat) :=
  let r := t.raw
  let w := t.fmt.width
  let rows := (List.range r.ext3).flatMap (fun i3 => (List.range r.ext2).flatMap (fun i2 =>
    (List.range r.ext1).map (fun i1 => (r.base + i1 * r.stride1 + i2 * r.stride2 + i3 * r.stride3, cdiv (r.ext0 * w) 8))))
  let nrows := r.ext1 * r.ext2 * r.ext3
  let data :=
    if r.bound then []
    else if r.layout = 1 then [(r.base, tileRows r.ext1 * tileCols r.ext0 * 65536 * w / 8)]
    else if t.fmt = .bi8 then [] else rows
  let aux :=
    if r.bound then []
    else if r.blockScaled then
      [(r.aux, if r.layout = 1 then tileRows r.ext1 * tileCols r.ext0 * 2048 else nrows * cdiv r.ext0 32)]
    else if t.fmt = .bi8 then [(r.aux, 4 * nrows * cdiv r.ext0 32)]
    else if t.fmt = .s768 ∧ r.auxCount ≠ 0 then [(r.aux, 128 * r.auxCount)] else []
  data ++ aux

/-- Bound views: the committed-plane ranges of the view's field, shard by shard (R341). -/
def boundRanges (d : Dev) (t : Tensor) : List (Nat × Nat) :=
  if !t.raw.bound then []
  else match t.raw.view with
    | .gradient => []
    | v => t.shards.map (fun s =>
        let base := s.bind.plane (committedPlane d s)
        match v with
        | .master => (base, s.bind.params * s.bind.masterBytes)
        | .transposed => (base + s.bind.offTrans, s.bind.copyBytes)
        | _ => (base + s.bind.offFwd, s.bind.copyBytes))

/-- R267: a tensor of a plan entry that has been restored is read in the restore space. -/
def planRaw (d : Dev) (r : RawDesc) : RawDesc :=
  match d.steps.plan.find? (fun p => r.planEn && !r.bound && p.index == r.plan && p.phase == .restored) with
  | some p =>
    let moved := fun (x : Nat) => if p.home ≤ x ∧ x < p.home + p.size then p.restoreAt + (x - p.home) else x
    { r with base := moved r.base, aux := moved r.aux }
  | none => r

/-- The format that counts a tensor's conversions: of its slot, where it has a bound one (R88). -/
def histFmt (d : Dev) (r : RawDesc) (f : Fmt) : Fmt :=
  if r.slotEn && slotBound d r.slot then (fmtOfCode (slotFmt d r.slot)).getD f else f

/-- Header word of block `b` of a BI8 tensor (R87). -/
def bi8Header (d : Dev) (t : Tensor) (b : Nat) : Nat := memReadNat d (t.raw.aux + 4 * b) 4

/-- Slices of one tensor: the n of its first block. -/
def bi8Slices (d : Dev) (t : Tensor) : Nat := bits (bi8Header d t 0) 19 16

/-- Blocks of one row of a BI8 tensor, and of the whole tensor. -/
def bi8Per (t : Tensor) : Nat := cdiv t.raw.ext0 32
def bi8Blocks (t : Tensor) : Nat := bi8Per t * t.raw.ext1 * t.raw.ext2 * t.raw.ext3

/-- The slice array of a BI8 tensor of `n` slices as a range. -/
def bi8RangesOf (n : Nat) (t : Tensor) : List (Nat × Nat) :=
  if t.fmt = .bi8 && !t.raw.bound && t.raw.layout = 0 then [(t.raw.base, 32 * n * bi8Blocks t)] else []

/-- The slice array that a stored BI8 tensor has. -/
def bi8Ranges (d : Dev) (t : Tensor) : List (Nat × Nat) := bi8RangesOf (bi8Slices d t) t

/-- Resolve the descriptor at address `a` (R338): read it, check it, check the ranges it names (R112, R306, R290). The slice
array of a BI8 tensor is checked by its reader (`resolveSource`) or its writer. -/
def resolve (d : Dev) (port : Nat) (group : Option Nat) (a : Nat) : Except Fail Tensor :=
  if a % 64 ≠ 0 then .error ⟨.badAddress, 0⟩
  else if isRemote d a then .error ⟨.badAddress, 0⟩
  else match readFor d port a 64 with
    | .error f => .error f
    | .ok x =>
      let r := planRaw d (rawDescOf x)
      match descStatus d r with
      | .error s => .error ⟨s, 0⟩
      | .ok f =>
        if !slotGroupOk d group r then .error ⟨.slotGroup, 0⟩
        else
          let scaled := r.slotEn && !r.blockScaled && (!r.bound || r.view == .gradient)
          let t : Tensor :=
            ⟨r, f, histFmt d r f, if scaled then slotExp d r.slot else 0, if r.bound then shardsOf d r.handle else []⟩
          if (tensorRanges t).all (fun p => p.2 == 0 || rangeNamed d port p.1 p.2) then .ok t
          else .error ⟨.badAddress, 0⟩

/-- Resolve a tensor that is read: its slice array, of the length that its first header gives, is a range it names too. -/
def resolveSource (d : Dev) (port : Nat) (group : Option Nat) (a : Nat) : Except Fail Tensor :=
  match resolve d port group a with
  | .error f => .error f
  | .ok t =>
    if (bi8Ranges d t).all (fun p => p.2 == 0 || rangeNamed d port p.1 p.2) then .ok t else .error ⟨.badAddress, 0⟩

/-! ### Element addresses -/

/-- Split a linear index into (i0, i1, i2, i3) (R339). -/
def splitIndex (r : RawDesc) (i : Nat) : Nat × Nat × Nat × Nat :=
  (i % r.ext0, i / r.ext0 % r.ext1, i / (r.ext0 * r.ext1) % r.ext2, i / (r.ext0 * r.ext1 * r.ext2))

/-- Position of column `c` and row `k` in tiled storage of `n` columns, in elements (R133, R339). -/
def tiledPos (n c k : Nat) : Nat := (k / 256 * tileCols n + c / 256) * 65536 + k % 256 * 256 + c % 256

/-- Where an element of a bound view lies: byte base of the field, element number, and the shard (R162, R341). The
transposed copy of a tile stands at the tile's own number with rows and columns exchanged. -/
def boundPos (d : Dev) (t : Tensor) (c k : Nat) : Option (Nat × Nat × Shard) :=
  let (wc, wk) := if t.raw.view = .transposed then (k, c) else (c, k)
  let n := if t.raw.view = .transposed then t.raw.ext1 else t.raw.ext0
  let tile := wk / 256 * tileCols n + wc / 256
  (shardOfTile t.shards tile).map (fun s =>
    let inTile := if t.raw.view = .transposed then wc % 256 * 256 + wk % 256 else wk % 256 * 256 + wc % 256
    let base := s.bind.plane (committedPlane d s)
    let off := match t.raw.view with
      | .master => 0
      | .transposed => s.bind.offTrans
      | _ => s.bind.offFwd
    (base + off, (tile - s.bind.firstTile) * 65536 + inTile, s))

/-- The place of element `i`: byte address of its field's start, element number in it, and the address of the block-scale
byte when it has one. -/
def elemPlace (d : Dev) (t : Tensor) (i : Nat) : Nat × Nat × Option Nat :=
  let r := t.raw
  let (i0, i1, i2, i3) := splitIndex r i
  if r.bound then
    match boundPos d t i0 i1 with
    | some (base, pos, s) =>
      let blk := if s.bind.copyFp8 ∧ r.view ≠ .master then some (base + s.bind.params + pos / 32) else none
      (base, pos, blk)
    | none => (0, 0, none)
  else if r.layout = 1 then
    let pos := tiledPos r.ext0 i0 i1
    (r.base, pos, if r.blockScaled then some (r.aux + pos / 32) else none)
  else
    let row := i1 + r.ext1 * (i2 + r.ext2 * i3)
    (r.base + i1 * r.stride1 + i2 * r.stride2 + i3 * r.stride3, i0,
     if r.blockScaled then some (r.aux + row * cdiv r.ext0 32 + i0 / 32) else none)

/-- Read `w` bits at bit `pos * w` from byte address `a` (R75). -/
def readPacked (d : Dev) (a pos w : Nat) : Nat :=
  let b := pos * w
  memReadNat d (a + b / 8) (cdiv (b % 8 + w) 8) / 2 ^ (b % 8) % 2 ^ w

/-- Write `w` bits at bit `pos * w` from byte address `a`; whole bytes go through `store`, parts of a byte are merged. -/
def writePacked (d : Dev) (a pos w v : Nat) : Dev :=
  let b := pos * w
  let n := cdiv (b % 8 + w) 8
  let old := memReadNat d (a + b / 8) n
  store d (a + b / 8) (leBytes n (setBits old (b % 8 + w - 1) (b % 8) v))

/-- The device address of element `i`, or of the byte that holds its first bit. -/
def elemAddr (d : Dev) (t : Tensor) (i : Nat) : Nat :=
  let p := elemPlace d t i
  p.1 + p.2.1 * t.fmt.width / 8

/-- The key of a local gradient element of a bound tensor (R341: a gradient view has no address of its own).
(DESIGN CHOICE 9) -/
def gradKey (handle i : Nat) : Nat := handle * 2 ^ 40 + i

/-- The code of element `i`. An element of a gradient view is held by its bind (DESIGN CHOICE 9). -/
def elemCode (d : Dev) (t : Tensor) (i : Nat) : Nat :=
  if t.raw.bound && t.raw.view == .gradient then smapGet d.grads (gradKey t.raw.handle i) 0
  else
    let (a, pos, _) := elemPlace d t i
    readPacked d a pos t.fmt.width

/-- DESIGN CHOICE 9 of the log. -/
def setElemCode (d : Dev) (t : Tensor) (i v : Nat) : Dev :=
  if t.raw.bound && t.raw.view == .gradient then { d with grads := smapSet d.grads (gradKey t.raw.handle i) v 0 }
  else
    let (a, pos, _) := elemPlace d t i
    writePacked d a pos t.fmt.width v

/-- The block-scale byte of element `i`, when its tensor has one. -/
def elemBlock (d : Dev) (t : Tensor) (i : Nat) : Option Nat :=
  (elemPlace d t i).2.2.map (fun a => (memGet d a).toNat)

/-- The scale exponent folded into element `i` on reading: 2^-e of its slot, or its block's factor (R77, R82). -/
def elemScale (d : Dev) (t : Tensor) (i : Nat) : Int :=
  match elemBlock d t i with | some b => blockExp b | none => -t.e

/-! BI8 tensors (R87). -/

/-- Block `b` of a BI8 tensor as slices: 32 * n bytes per block, slice after slice. -/
def bi8Block (d : Dev) (t : Tensor) (b : Nat) : SliceBlock :=
  let h := bi8Header d t b
  let n := bits h 19 16
  let eb := bits h 15 0
  ⟨bit h 20, if eb = 0x8000 then none else some (signedOf 16 eb),
   (List.range 32).map (fun j => (List.range n).map (fun i =>
     signedOf 8 ((memGet d (t.raw.base + b * 32 * n + 32 * i + j)).toNat))), List.replicate 32 .finite⟩

/-- The value that element `i` of a BI8 tensor reads as, before its slot's scale (R85). -/
def bi8Val (d : Dev) (t : Tensor) (i : Nat) : Val :=
  let blk := bi8Block d t (i / t.raw.ext0 * bi8Per t + i % t.raw.ext0 / 32)
  let ds := blk.digits.getD (i % t.raw.ext0 % 32) []
  match blk.eb with | none => valZero | some e => sliceValue ds.length e ds

/-- The first access failure over all ranges of a tensor. -/
def tensorFails (d : Dev) (t : Tensor) (write : Bool) : Option Fail :=
  (tensorRanges t ++ boundRanges d t ++ if write then [] else bi8Ranges d t).findSome? (fun p => accessFails d p.1 p.2 write)

/-- The value of element `i` with its scale removed; every element of a NaN block is NaN (R82). -/
def elemVal (d : Dev) (t : Tensor) (i : Nat) : Val :=
  if t.fmt = .bi8 then valScale (bi8Val d t i) (-t.e)
  else if elemBlock d t i = some 255 then .nan
  else valScale (t.fmt.decode (elemCode d t i)) (elemScale d t i)

/-- The array operand of element `i` (R100). -/
def elemOpnd (d : Dev) (t : Tensor) (i : Nat) : Opnd :=
  if elemBlock d t i = some 255 then .nan else t.fmt.operand (elemCode d t i) (elemScale d t i)

/-! ### Census (R88) -/

def censusZero : Census := ⟨0, 0, 0, 0, 0, List.replicate 32 0, false⟩

/-- The histogram bin of a value whose scaled exponent is `x` (R88). -/
def histBin (eSat x : Int) : Nat := if x ≥ eSat then 0 else min (eSat - x).toNat 31

/-- Count one conversion: the value before scaling, the exponent in force, and its event. -/
def censusCount (c : Census) (f : Fmt) (e : Int) (v : Val) (ev : ConvEvent) : Census :=
  let c := { c with total := c.total + 1 }
  let c := match ev with
    | .overflow => { c with overflow := c.overflow + 1 }
    | .underflow => { c with underflow := c.underflow + 1 }
    | .nonfinite => { c with nonfinite := c.nonfinite + 1 }
    | .none => c
  if valIsFinite v && !valIsZero v then
    { c with amax := max c.amax (encode32Up v), hist := listUpd c.hist (histBin f.eSat (valLog2 v + e)) (· + 1) }
  else c

/-- R90, R24: add two censuses by sum and maximum. -/
def censusAdd (a b : Census) : Census :=
  ⟨a.total + b.total, a.overflow + b.overflow, a.underflow + b.underflow, a.nonfinite + b.nonfinite, max a.amax b.amax,
   List.zipWith (· + ·) a.hist b.hist, a.blocked || b.blocked⟩

/-- Add a census into a slot's entry of a table. -/
def censusInto (m : List (Nat × Census)) (s : Nat) (c : Census) : List (Nat × Census) :=
  smapSet m s (censusAdd (smapGet m s censusZero) c) censusZero

/-- The group whose epoch a command belongs to, when it belongs to one. -/
abbrev EpochOf := Option Nat

/-- Count a census of one command for a slot: in the epoch's census of its group, else in the counts outside epochs.
(DEDUCED 64) -/
def censusFor (d : Dev) (ep : EpochOf) (slot : Nat) (c : Census) : Dev :=
  match ep with
  | none => { d with steps := { d.steps with outside := censusInto d.steps.outside slot c } }
  | some g =>
    let groups := listUpd d.steps.groups g (fun x => { x with census := censusInto x.census slot c })
    { d with steps := { d.steps with groups := groups } }

/-- The condition of verdict code `k` is observed in a group's epoch (R18, R351). -/
def condRaise (d : Dev) (g k : Nat) : Dev :=
  { d with steps := { d.steps with groups := listUpd d.steps.groups g (fun x => { x with conds := x.conds ||| 2 ^ k }) } }

/-- The same for a command's epoch, when it has one. -/
def condFor (d : Dev) (ep : EpochOf) (k : Nat) : Dev := match ep with | none => d | some g => condRaise d g k

/-- What the conversions of a command add up to: a census, and whether an overflow or a non-finite value was counted. -/
structure ConvSum where
  census : Census
  overflow : Bool
  nonfinite : Bool
deriving DecidableEq, Repr

def convSumZero : ConvSum := ⟨censusZero, false, false⟩

def ConvSum.count (s : ConvSum) (f : Fmt) (e : Int) (v : Val) (ev : ConvEvent) : ConvSum :=
  ⟨censusCount s.census f e v ev, s.overflow || ev == .overflow, s.nonfinite || ev == .nonfinite⟩

/-- R78, R79, R88: book the conversions of a command into a tensor: its slot's census, and the overflow condition of the
epoch unless a finite overflow meets a slot in saturate-and-count. (DEDUCED 64) -/
def bookConv (d : Dev) (ep : EpochOf) (t : Tensor) (s : ConvSum) : Dev :=
  let d1 := if t.raw.slotEn then censusFor d ep t.raw.slot { s.census with blocked := t.raw.blockScaled } else d
  let quiet := t.raw.slotEn && slotSaturates d t.raw.slot
  if s.nonfinite || (s.overflow && !quiet) then condFor d1 ep 1 else d1

/-- The feeder's conversion of an operand (R88): each element counts into the operand's slot. `lost` says of an element
that its slices are all zero, an underflow (R80). (DEDUCED 64) -/
def feedCensus (d : Dev) (t : Tensor) (lost : Nat → Bool) : ConvSum :=
  (List.range t.raw.count).foldl (fun s i =>
    let v := elemVal d t i
    s.count t.hist (-(elemScale d t i)) v
      (if !valIsFinite v then .nonfinite else if lost i then .underflow else .none)) convSumZero

/-! ### Writing tensors -/

/-- R81: the SR8 byte of element `i` of a tensor. -/
def srByte (stepTag seed : Nat) (t : Tensor) (i : Nat) : Nat :=
  sr8Bits stepTag seed (if t.raw.slotEn then t.raw.slot else 0) i

/-- The scale exponent with which element values are written: of the block byte, or of the slot. -/
def writeScale (t : Tensor) (blk : Option Nat) : Int := match blk with | some b => -(blockExp b) | none => t.e

/-- Write element `i` with the block byte already chosen; the conversion is counted. -/
def writeElem (mode : RMode) (stepTag seed : Nat) (t : Tensor) (blk : Option Nat) (acc : Dev × ConvSum) (i : Nat)
    (v : Val) : Dev × ConvSum :=
  let e := writeScale t blk
  let res := t.fmt.convert mode (srByte stepTag seed t i) t.raw.blockScaled (valScale v e)
  (setElemCode acc.1 t i res.code, acc.2.count t.hist e v res.event)

/-- Write the elements of one block of a block-scaled tensor (R83, R79): choose the byte, mark a block with a NaN. -/
def writeBlock (mode : RMode) (stepTag seed : Nat) (t : Tensor) (acc : Dev × ConvSum) (xs : List (Nat × Val)) :
    Dev × ConvSum :=
  match xs with
  | [] => acc
  | (i0, _) :: _ =>
    let b := blockChoose t.fmt mode (xs.map (fun x => (x.2, srByte stepTag seed t x.1)))
    let byte := if xs.any (fun x => valIsNan x.2) && !t.fmt.hasNan then 255 else b
    let (d1, s1) := xs.foldl (fun a x => writeElem mode stepTag seed t (some b) a x.1 x.2) acc
    match (elemPlace d1 t i0).2.2 with
    | some a => (store d1 a [BitVec.ofNat 8 byte], s1)
    | none => (d1, s1)

/-- Split (index, value) pairs of ascending indices where the block-scale byte changes. -/
def groupByBlock (d : Dev) (t : Tensor) (fuel : Nat) (xs : List (Nat × Val)) : List (List (Nat × Val)) :=
  match fuel, xs with
  | 0, _ => []
  | _, [] => []
  | f + 1, x :: rest =>
    let b := (elemPlace d t x.1).2.2
    let (same, other) := rest.partition (fun y => (elemPlace d t y.1).2.2 == b)
    (x :: same) :: groupByBlock d t f other

/-- Write values to a tensor of any format but S768 and BI8, by linear index (R77 to R84). -/
def writeVals (d : Dev) (mode : RMode) (stepTag seed : Nat) (t : Tensor) (xs : List (Nat × Val)) : Dev × ConvSum :=
  if t.raw.blockScaled then
    (groupByBlock d t (xs.length + 1) xs).foldl (writeBlock mode stepTag seed t) (d, convSumZero)
  else xs.foldl (fun a x => writeElem mode stepTag seed t none a x.1 x.2) (d, convSumZero)

/-! ### S768 tensors (R117, R114) -/

/-- Load the packed entry `code` that stands at `place`: the four checks of R114. `owner` is what its record must name. The
block that a mismatch names is the record's when the record fails, else the entry's (DEDUCED 31). -/
def loadPacked (d : Dev) (code place : Nat) (tensor : Bool) (owner : Nat) (spillArray : Nat) : Except Fail SafEntry :=
  let p := unpackEntry code
  let bad := fun (a : Nat) => .error ⟨.uncorrectable, eccBase (localAddr d a)⟩
  if !p.guardOk then bad place
  else if !p.spill then .ok p.entry
  else if p.tensor != tensor then bad place
  else
    let a := if tensor then spillArray + 128 * p.index else spillBase d p.die + 128 * p.index
    let r := readSpillRecord (memReadNat d a 128)
    match accessFails d a 128 false with
    | some f => .error f
    | none =>
      if r.checkOk && r.owner == owner && r.gen == p.gen && (tensor || p.gen == fget d safSpillGenGen p.die) then
        .ok (p.entryWith r)
      else bad a

/-- The address of element `i` of an S768 tensor, whose entries take 16 bytes. -/
def entryPlace (d : Dev) (t : Tensor) (i : Nat) : Nat := (elemPlace d t i).1 + 16 * (elemPlace d t i).2.1

/-- The entry of element `i` of an S768 tensor. -/
def elemEntry (d : Dev) (t : Tensor) (i : Nat) : Except Fail SafEntry :=
  loadPacked d (elemCode d t i) (entryPlace d t i) true i t.raw.aux

/-- R117: the element that a record's owner field names holds a spill window with the record's index. -/
def recordUsed (d : Dev) (t : Tensor) (k : Nat) : Bool :=
  let o := (readSpillRecord (memReadNat d (t.raw.aux + 128 * k) 128)).owner
  decide (o < t.raw.count) && (let p := unpackEntry (elemCode d t o); p.spill && p.tensor && p.index == k)

/-- R117: the record that an escalating element takes: the one that its previous contents referenced, else the
lowest-numbered record of the array that no element references. -/
def recordFor (d : Dev) (t : Tensor) (i : Nat) : Option Nat :=
  let own := fun (k : Nat) => recordUsed d t k && (readSpillRecord (memReadNat d (t.raw.aux + 128 * k) 128)).owner == i
  let old := unpackEntry (elemCode d t i)
  if old.spill && old.tensor && decide (old.index < t.raw.auxCount) && own old.index then some old.index
  else (List.range t.raw.auxCount).find? (fun k => !recordUsed d t k)

/-- Write an entry into element `i` of an S768 tensor; none when its spill array is exhausted (R113, R117). -/
def setElemEntry (d : Dev) (t : Tensor) (i : Nat) (s : SafEntry) : Option (Dev × SafCount) :=
  match packEntry s with
  | some x => some (setElemCode d t i x, safCountZero)
  | none =>
    (recordFor d t i).map (fun k =>
      let x := packSpilled s true 0 0 k
      (setElemCode (store d (t.raw.aux + 128 * k) (leBytes 128 (spillRecord s x i 0 0 0))) t i x, ⟨0, 0, 0, 1⟩))

/-- R73, R79, R80: what the conversion of an entry into S768 counts, from the entry before and after its scaling. -/
def entryEvent (before after : SafEntry) : ConvEvent :=
  if after.special ≠ .finite then .nonfinite else if before.v ≠ 0 ∧ after.v = 0 then .underflow else .none

/-- R77, R117: convert an entry into element `i` of an S768 tensor in its slot's scale, with what the conversion counts;
none when the spill array is exhausted. -/
def convertEntry (d : Dev) (t : Tensor) (i : Nat) (s : SafEntry) : Option (Dev × SafCount × ConvEvent × SafEntry) :=
  let (x, c) := s.scale t.e
  (setElemEntry d t i x).map (fun p => (p.1, c.add p.2, entryEvent s x, x))

end Sys2Proof.Machine
end

