-- ==== Sys2Proof/Machine/Flags.lean ====
section
/-! DEFINITION. What a command's body answers: the context it runs in (R337), the result flags of its completion record
(Table 12.18, R118), the condition a failure raises in its epoch (Table 6.5, R25, R35, R113, R114, R221, R261). -/
namespace Sys2Proof.Machine

/-- The context of a running command: its ring and number, the port that owns the ring, the group and tag of its epoch
(tag 0 outside epochs), whether it is a recompute of R268, which adds nothing to a census, and whether its work began
before and is taken up `again` (R69). -/
structure Ctx where
  ring : Nat
  seq : Nat
  port : Nat
  group : Option Nat
  stepTag : Nat
  recompute : Bool
  again : Bool
deriving DecidableEq, Repr

/-- The result flags of Table 12.18. -/
structure InfoFlags where
  nine : Bool
  nonfinite : Bool
  overflow : Bool
  ovf : Bool
  floor : Bool
  trunc : Bool
deriving DecidableEq, Repr

def infoZero : InfoFlags := ⟨false, false, false, false, false, false⟩

def InfoFlags.code (f : InfoFlags) : Nat :=
  b2n f.trunc + 2 * b2n f.floor + 4 * b2n f.ovf + 8 * b2n f.overflow + 16 * b2n f.nonfinite + 32 * b2n f.nine

/-- R118: the flags of an entry the command produced. -/
def InfoFlags.entry (f : InfoFlags) (s : SafEntry) : InfoFlags :=
  { f with trunc := f.trunc || s.trunc, floor := f.floor || s.floor, ovf := f.ovf || s.ovf }

/-- The conversions of the command. -/
def InfoFlags.conv (f : InfoFlags) (s : ConvSum) : InfoFlags :=
  { f with overflow := f.overflow || s.overflow, nonfinite := f.nonfinite || s.nonfinite }

/-- What a body answers: the device after it, and the status and info of its end, or none while its effect is still to
come. -/
structure Res where
  dev : Dev
  done : Option (Nat × Nat)
deriving DecidableEq, Repr

def resOk (d : Dev) (info : Nat) : Res := ⟨d, some (0, info)⟩
def resWait (d : Dev) : Res := ⟨d, none⟩

/-- The verdict code of the condition that a failure status raises in its epoch; `orphan` says that the command's port is
in orphan hold (R35). (DEDUCED 24) -/
def statusCond (orphan : Bool) (s : Nat) : Option Nat :=
  if s = Status.uncorrectable.code ∨ s = Status.spillExhausted.code then some 3
  else if s = Status.stoppedByReset.code then some 6
  else if s = Status.semError.code ∨ s = Status.parkMismatch.code then some 5
  else if s = Status.hostAccess.code && orphan then some 5
  else none

/-- A failure with a status, as the record will carry it. Info is kept where Table 12.18 gives one. -/
def resFail (d : Dev) (f : Fail) : Res := ⟨d, some (f.status.code, f.info)⟩

def resStatus (d : Dev) (s : Status) : Res := resFail d ⟨s, 0⟩

/-! ### Reads of tensors -/

/-- The same for a tensor. -/
def noteTensor (d : Dev) (t : Tensor) : Dev := noteRanges d (tensorRanges t ++ boundRanges d t ++ bi8Ranges d t)

/-- A target tensor is about to be written: every unit that its ranges meet is replaced or corrected (R224, R231). -/
def openTensor (d : Dev) (t : Tensor) : Dev := openRanges d (tensorRanges t ++ boundRanges d t)

/-- Book a conversion sum for a command (R88); a recompute adds nothing (R268). -/
def bookFor (d : Dev) (c : Ctx) (t : Tensor) (s : ConvSum) : Dev := if c.recompute then d else bookConv d c.group t s

/-- The status of a rounding mode code with a target format (R76). -/
def roundStatus (code : Nat) (f : Fmt) : Except Status RMode :=
  match rmodeOfCode code with
  | none => .error .badRounding
  | some .sr8 => if f = .fp64 ∨ f = .int32 ∨ f = .s768 then .error .badRounding else .ok .sr8
  | some m => .ok m

/-- R341: a bound view that a command may write. -/
def writableView (t : Tensor) : Bool := !t.raw.bound || t.raw.view == .gradient

end Sys2Proof.Machine
end

