-- ==== Sys2Proof/Machine/Matrix.lean ====
section
/-! DEFINITION. The matrix commands MM, SLICE_MM and CONV (chapters 2 and 4, R342 to R344): their products as exact dot
products in the lane order of R47, R48 and R54, the Lanibifel order (R130), parking and loading (R50, R109 to R114), and
read-out (R115 to R117). -/
namespace Sys2Proof.Machine

/-! ### Live arrays -/

/-- Arrays on which a command may be placed (R31). -/
def liveArrays (d : Dev) : List Nat := (List.range 256).filter (fun i => !arrayRetired d i)

/-- R131: the die allows Lanibifel-exact commands. -/
def lanibifelDie (d : Dev) (die : Nat) : Bool := fget d safDieCtlLanibifelEn die == 1

/-- `p` if some element satisfies it, else everything. -/
def preferring {α : Type} (p : α → Bool) (xs : List α) : List α := if (xs.filter p).isEmpty then xs else xs.filter p

/-- The array that runs tile `t` of a command, in tile column `tc`: an array of a core takes the tile columns of its own
number modulo 4, so that the arrays of one core produce different output columns (R44); arrays under reset and, for a
Lanibifel command, arrays of a die that does not allow it take none (R131). (DESIGN CHOICE 11) -/
def tileArrayOf (d : Dev) (c : Ctx) (lani : Bool) (tc t : Nat) : Nat :=
  let use := (liveArrays d).filter (fun i => !lani || lanibifelDie d (i / 128))
  let use := preferring (fun i => i % 4 == tc % 4) (preferring (fun i => !inReset d 1 (i / 4) && !inReset d 2 (i / 128)) use)
  use.getD ((Config.tileArray c.ring c.seq t).val % use.length) 0

/-- Add a tile's Saffron counts to its array (R102, R104, R109), unless frozen. -/
def countSaffron (d : Dev) (arr : Nat) (k : SafCount) : Dev :=
  if fget d safCtlCntFreeze arr = 1 then d
  else cntAdd (cntAdd (cntAdd (cntAdd d safTruncCntTrunc arr k.trunc) safFloorCntFloor arr k.floor)
    safSpillCntSpill arr k.spill) safOvfCntOvf arr k.ovf

/-- The counters of an array over a tile, unless frozen: ARR_VECTORS; and ARR_BUSY_CYCLES, ARR_FRONT_BUBBLE and
ARR_FEED_STALL, which grow by free amounts, since the model has no cycles (DESIGN CHOICE 34). -/
def countVectors (d : Dev) (arr n : Nat) : Dev :=
  if fget d arrCtlCntFreeze arr = 1 then d
  else
    let (busy, d1) := takeFree (cntAdd d arrVectorsVectors arr n) 64
    let (bubble, d2) := takeFree d1 64
    let (stall, d3) := takeFree d2 64
    cntAdd (cntAdd (cntAdd d3 arrBusyCyclesBusy arr busy) arrFrontBubbleBubble arr bubble) arrFeedStallStall arr stall

/-! ### The product of a matrix command -/

/-- What a matrix command multiplies: `m` vectors of `k` elements against `k` rows of `n` columns, in output tiles of 256
rows by `w` columns. `a v r t` is the linear index in A of vector `v`, row `r` for tile column `t` (none: a row that takes
zero), `b r c` that of row `r`, column `c` in B. -/
structure MatShape where
  m : Nat
  k : Nat
  n : Nat
  w : Nat

/-- The result of one output element: the entry, or the Lanibifel value. -/
structure LaneOut where
  idx : Nat
  entry : SafEntry
  lani : Option Val
deriving DecidableEq, Repr

/-- One output tile and the array that runs it. -/
structure TileOut where
  tile : Nat
  arr : Nat
  outs : List LaneOut
  count : SafCount
  nine : Bool
deriving DecidableEq, Repr

/-- Rows and columns of tile `t`. -/
def MatShape.tileCols (s : MatShape) : Nat := cdiv s.n s.w
def MatShape.tileRows (s : MatShape) : Nat := cdiv s.m 256
def MatShape.tiles (s : MatShape) : Nat := s.tileRows * s.tileCols
def MatShape.rowsOf (s : MatShape) (t : Nat) : List Nat :=
  let r0 := t / s.tileCols * 256
  (List.range (min 256 (s.m - r0))).map (· + r0)
def MatShape.colsOf (s : MatShape) (t : Nat) : List Nat :=
  let c0 := t % s.tileCols * s.w
  (List.range (min s.w (s.n - c0))).map (· + c0)

/-- The cells of a tile, row after row. -/
def MatShape.cellsOf (s : MatShape) (t : Nat) : List (Nat × Nat) :=
  (s.rowsOf t).flatMap (fun v => (s.colsOf t).map (fun c => (v, c)))

/-- Operands as the arrays take them: element `r` of vector `v` for tile column `t`, and element `r` of column `c`. -/
structure MatOps where
  a : Nat → Nat → Nat → Opnd
  b : Nat → Nat → Opnd

/-- Run the fixed-mode tile: every cell from its starting entry (R47, R48). -/
def tileFixed (s : MatShape) (q : Nat) (o : MatOps) (start : Nat → Nat → SafEntry) (t : Nat) : TileOut :=
  let tc := t % s.tileCols
  let (outs, cnt) := (s.cellsOf t).foldl (fun (acc : List LaneOut × SafCount) vc =>
    let (e, k) := dotFixed q (start vc.1 vc.2) ((List.range s.k).map (fun r => productOf (o.a vc.1 r tc) (o.b r vc.2)))
    (acc.1 ++ [⟨vc.2 + s.n * vc.1, e, none⟩], acc.2.add k)) ([], safCountZero)
  ⟨t, 0, outs, cnt, false⟩

/-- The Lanibifel tile (R130): exact products rounded to FP32 in the order of the pairwise tree. -/
def tileLani (s : MatShape) (a : Nat → Nat → Nat → Val) (b : Nat → Nat → Val) (t : Nat) : TileOut :=
  let tc := t % s.tileCols
  ⟨t, 0, (s.cellsOf t).map (fun vc =>
    ⟨vc.2 + s.n * vc.1, safFixed, some (lanibifel ((List.range s.k).map (fun r => valMul (a vc.1 r tc) (b r vc.2))))⟩),
   safCountZero, false⟩

/-- The blocks of one reduction line, run by run: its values in pieces of 32, the last filled with zeros (R119). -/
def lineBlocks (slices extMode : Nat) (xs : List Val) : List (SliceBlock × List Val) :=
  (chunksOf 32 (xs.length + 1) xs).map (fun p =>
    let p' := p ++ List.replicate (32 - p.length) valZero
    (cutBlock slices extMode p', p'))

/-- One cell of a slice tile: the K-chunks in order, each of 8 runs (R54). -/
def cellSlice (n : Nat) (s : SafEntry) (st sm : List (SliceBlock × List Val)) : SafEntry × SafCount :=
  let runs := (List.zip st sm).map (fun p => (p.1.1, p.2.1, p.1.2, p.2.2))
  (chunksOf 8 (runs.length + 1) runs).foldl (fun acc ch =>
    let (e, k) := sliceChunk n acc.1 ch
    (e, acc.2.add k)) (s, safCountZero)

/-- The slice tile (R54, R55): the 9-slice schedule when any block of either operand in the tile is extended. -/
def tileSlice (s : MatShape) (slices : Nat) (va : Nat → Nat → List (SliceBlock × List Val))
    (vb : Nat → List (SliceBlock × List Val)) (start : Nat → Nat → SafEntry) (t : Nat) : TileOut :=
  let tc := t % s.tileCols
  let rows := (s.rowsOf t).map (fun v => (v, va v tc))
  let cols := (s.colsOf t).map (fun c => (c, vb c))
  let nine := rows.any (fun r => r.2.any (fun b => b.1.ext)) || cols.any (fun c => c.2.any (fun b => b.1.ext))
  let n := if nine then 9 else slices
  let (outs, cnt) := rows.foldl (fun (acc : List LaneOut × SafCount) r =>
    cols.foldl (fun (acc : List LaneOut × SafCount) c =>
      let (e, k) := cellSlice n (start r.1 c.1) c.2 r.2
      (acc.1 ++ [⟨c.1 + s.n * r.1, e, none⟩], acc.2.add k)) acc) ([], safCountZero)
  ⟨t, 0, outs, cnt, nine⟩

/-! ### The spill area (R109 to R113) -/

/-- The `k`-th number that a rising list does not hold. (DESIGN CHOICE 17) -/
def nthFree (xs : List Nat) (k : Nat) : Nat := xs.foldl (fun k x => if x ≤ k then k + 1 else k) k

/-- Records of die `e` in use, rising. -/
def spillUsed (d : Dev) (e : Nat) : List Nat :=
  (d.spills.filter (fun r => r.1 / 2 ^ 32 == e)).map (fun r => r.1 % 2 ^ 32)

/-- Keep SAF_SPILL_FREE and SAF_SPILL_HWM after a change of the free list. -/
def spillFreeSet (d : Dev) (e : Nat) : Dev :=
  let free := fget d safSpillSizeUnits e * 4096 - (spillUsed d e).length
  let d := fset d safSpillFreeFree e free
  fset d safSpillHwmMinFree e (min (fget d safSpillHwmMinFree e) free)

/-- Allocate a record of die `e` for an owner: which free record it is, the manual leaves open; where the area is backed in
part, the drawn record or the next one that is. (DESIGN CHOICE 17) -/
def spillAlloc (d : Dev) (e owner : Nat) : Option (Nat × Dev) :=
  let used := spillUsed d e
  let total := fget d safSpillSizeUnits e * 4096
  let free := total - used.length
  if free = 0 then none
  else
    let (r, d) := takeFree d 32
    let i := nthFree used (r % free)
    let ok := fun (j : Nat) => backed d (spillBase d e + 128 * j)
    let take := if ok i then some i else
      ((List.range total).map (fun k => (i + k) % total)).find? (fun j => !used.contains j && ok j)
    take.map (fun j => (j, spillFreeSet { d with spills := smapPut d.spills (e * 2 ^ 32 + j) (owner + 1) } e))

/-- Free one record. -/
def spillRelease (d : Dev) (e i : Nat) : Dev := spillFreeSet { d with spills := smapErase d.spills (e * 2 ^ 32 + i) } e

/-- Free every record that a park slot owns (R111, re-park). -/
def spillReleaseOwner (d : Dev) (owner : Nat) : Dev :=
  let d := { d with spills := d.spills.filter (fun r => r.2 != owner + 1) }
  spillFreeSet (spillFreeSet d 0) 1

/-- SAF_SPILL_FAIL of a die (R113). -/
def spillFail (d : Dev) (e : Nat) : Dev := fsat d safSpillFailFail e 1

/-! ### Parking and loading (R50, R110, R114) -/

/-- The park slots of a command: die, byte offset of tile 0 in its L1, columns of a bank. -/
structure Park where
  die : Nat
  off : Nat
  w : Nat
deriving DecidableEq, Repr

def Park.addr (p : Park) (t v c : Nat) : Nat :=
  0x0001000000000000 + p.die * 2 ^ 32 + p.off + t * 0x100000 + 16 * (v * p.w + c)

/-- The owner field of a slot, and the owner with its die as the free list knows it. -/
def Park.owner (p : Park) (t : Nat) : Nat := (p.off + t * 0x100000) / 512
def Park.key (p : Park) (t : Nat) : Nat := p.die * 2 ^ 32 + p.owner t

/-- Load one entry of a slot, or say how it fails (R114). (DEDUCED 31) -/
def parkLoad (d : Dev) (p : Park) (anchored : Bool) (t v c : Nat) : Except Fail SafEntry :=
  let a := p.addr t v c
  match accessFails d a 16 false with
  | some f => .error f
  | none =>
    match loadPacked d (memReadNat d a 16) a false (p.owner t) 0 with
    | .error f => .error f
    | .ok e => if e.anchored ≠ anchored then .error ⟨.parkMismatch, 0⟩ else .ok e

/-- Free the record of a loaded entry (R111). -/
def parkRelease (d : Dev) (p : Park) (t v c : Nat) : Dev :=
  let u := unpackEntry (memReadNat d (p.addr t v c) 16)
  if u.spill && !u.tensor then spillRelease d u.die u.index else d

/-- Park one entry (R108, R109): packed in place, or escalated to a record of the array's die. -/
def parkStore (d : Dev) (p : Park) (arr t v c : Nat) (e : SafEntry) : Except Fail (Dev × Nat) :=
  let a := p.addr t v c
  match packEntry e with
  | some x => .ok (store d a (leBytes 16 x), 0)
  | none =>
    let die := arr / 128
    match spillAlloc d die (p.key t) with
    | none => .error ⟨.spillExhausted, 0⟩
    | some (i, d) =>
      let gen := fget d safSpillGenGen die
      let x := packSpilled e false die gen i
      .ok (store (store d (spillBase d die + 128 * i) (leBytes 128 (spillRecord e x (p.owner t) gen v c))) a
        (leBytes 16 x), 1)

/-! ### Read-out -/

/-- The state of a read-out on its way: device, flags, failure. -/
structure Going where
  dev : Dev
  flags : InfoFlags
  fail : Option Fail
deriving DecidableEq, Repr

/-- R141: an element of a gradient view that lies in a frozen shard is not read out. -/
def suppressed (t : Tensor) (i : Nat) : Bool :=
  t.raw.bound && t.raw.view == .gradient
  && (match shardOfTile t.shards (i / t.raw.ext0 / 256 * tileCols t.raw.ext0 + i % t.raw.ext0 / 256) with
      | some s => s.bind.frozen
      | none => true)

/-- Read one element out into an S768 tensor in its slot's scale; the conversion is counted (R77, R88, R117). -/
def readOutEntry (t : Tensor) (arr : Nat) (acc : Going × ConvSum) (o : LaneOut) : Going × ConvSum :=
  let (g, s) := acc
  match g.fail with
  | some _ => acc
  | none =>
    match convertEntry g.dev t o.idx o.entry with
    | none => ({ g with dev := spillFail g.dev (arr / 128), fail := some ⟨.spillExhausted, 0⟩ }, s)
    | some (d, k, ev, x) => (⟨countSaffron d arr k, g.flags.entry x, none⟩, s.count t.hist t.e o.entry.value ev)

/-- Read all tiles out into an S768 tensor (R117). -/
def readOutPacked (c : Ctx) (t : Tensor) (g : Going) (tiles : List TileOut) : Going :=
  let (g, s) := tiles.foldl (fun acc tile =>
    (tile.outs.filter (fun o => !suppressed t o.idx)).foldl (readOutEntry t tile.arr) acc)
    ({ g with dev := openTensor g.dev t }, convSumZero)
  ⟨bookFor g.dev c t s, g.flags.conv s, g.fail⟩

/-- Read all tiles out into a converted target (R115, R116). -/
def readOutConvert (mode : RMode) (seed : Nat) (c : Ctx) (t : Tensor) (g : Going) (tiles : List TileOut) : Going :=
  let outs := (tiles.flatMap (·.outs)).filter (fun o => !suppressed t o.idx)
  let (d, s) := writeVals (openTensor g.dev t) mode c.stepTag seed t (outs.map (fun o => (o.idx, o.lani.getD o.entry.value)))
  ⟨bookFor d c t s, (outs.foldl (fun f o => f.entry o.entry) g.flags).conv s, g.fail⟩

/-- Counters of the finished tiles, and the 9-slice flag. -/
def countTiles (vectors : TileOut → Nat) (g : Going) (tiles : List TileOut) : Going :=
  tiles.foldl (fun g t =>
    ⟨countVectors (countSaffron g.dev t.arr t.count) t.arr (vectors t), { g.flags with nine := g.flags.nine || t.nine },
     g.fail⟩) g

/-- R68: the parity errors that the shadow rows of an array meet: each counts, and toward the array's thresholds (R415);
whether the second fetch of one failed too. (DESIGN CHOICE 79) -/
def parityMet (d : Dev) (arr : Nat) : Dev × Bool :=
  let met := d.env.parity.filter (fun p => p.1 == arr)
  let count := fun (d : Dev) (p : Nat × Bool) =>
    let d1 := errAdd d 7 arr
    let d2 := if p.2 then errAdd d1 8 arr else d1
    if fget d arrCtlCntFreeze arr = 1 then d2 else fsat d2 arrParityCntParityErr arr 1
  (met.foldl count { d with env := { d.env with parity := d.env.parity.filter (fun p => p.1 != arr) } }, met.any (·.2))

/-- The same for the arrays of a command's tiles. -/
def parityTiles (d : Dev) (tiles : List TileOut) : Dev × Bool :=
  tiles.foldl (fun acc t => let (d, bad) := parityMet acc.1 t.arr; (d, acc.2 || bad)) (d, false)

/-- The end of a matrix command. -/
def Going.res (g : Going) : Res :=
  match g.fail with
  | some f => resFail g.dev f
  | none => resOk g.dev g.flags.code

/-! ### MM and SLICE_MM -/

/-- The body of Table 12.4. -/
structure MatBody where
  aDesc : Nat
  bDesc : Nat
  cDesc : Nat
  seed : Nat
  slotDie : Nat
  slotOff : Nat
  slices : Nat
  aTrans : Bool
  lani : Bool
  park : Bool
  cont : Bool
  round : Nat
deriving DecidableEq, Repr

def matBodyOf (e : Nat) : MatBody :=
  let w7 := entryWord e 7
  ⟨entryWord e 4, entryWord e 5, entryWord e 6, bits w7 63 32, bits w7 29 29, bits w7 28 8 * 512, bits w7 7 4,
   bit w7 3, bit w7 2, bit w7 1, bit w7 0, (headerOf e).opx / 64⟩

/-- R342: vectors and their length. (DEDUCED 13) -/
def streamShape (b : MatBody) (a : Tensor) : Nat × Nat :=
  if b.aTrans then (a.raw.ext0, a.raw.ext1) else (a.raw.ext1 * a.raw.ext2 * a.raw.ext3, a.raw.ext0)

/-- The linear index in A of element `r` of vector `v`. -/
def streamIndex (b : MatBody) (a : Tensor) (v r : Nat) : Nat :=
  if b.aTrans then v + a.raw.ext0 * r else r + a.raw.ext0 * v

/-- R87, R119: a pre-sliced operand must be streamed along its blocks and hold the slices of the schedule. (DEDUCED 13) -/
def preSlicedOk (d : Dev) (slices : Nat) (t : Tensor) : Bool :=
  t.fmt != .bi8 || (let n := bi8Slices d t; if slices = 3 then n == 3 else n == 7 || n == 9)

/-- R39, R343: the formats of the two operands. R39 lists BI8 slices as a group of their own; that MM and CONV without
slices refuse the pair is the model's choice, since only SLICE_MM and slice mode give slices a meaning (DESIGN CHOICE 80). -/
def operandPairOk (slice : Bool) (a b : Fmt) : Bool :=
  if slice then (a == .fp32 || a == .fp64 || a == .bi8) && (b == .fp32 || b == .fp64 || b == .bi8)
  else a.group.isSome && a.group == b.group && a != .bi8

/-- R343, Table 3.1: the target format. -/
def targetOk (slice : Bool) (a c : Fmt) : Bool :=
  if slice then c == .fp32 || c == .fp64 || c == .s768
  else c.readOutTarget && (c != .int32 || a.group == some .integer)

/-- R131 but for its last condition. -/
def laniOk (b : MatBody) (k : Nat) (a : Fmt) (c : Option Fmt) : Bool :=
  (a.group == some .floating || a == .fp16) && decide (k ≤ 67108864) && !b.park && !b.cont
  && c.any (fun f => f == .fp32 || f == .bf16 || f == .fp16)

/-- R76: the mode code is one of Table 3.4 and the target, if any, admits it. -/
def roundOk (code : Nat) (c : Option Fmt) : Bool :=
  match c with
  | none => (rmodeOfCode code).isSome
  | some f => match roundStatus code f with | .error _ => false | .ok _ => true

/-- The checks of a matrix command after its descriptors are resolved (Tables 12.4 and 12.17). (DEDUCED 15) -/
def matStatus (d : Dev) (slice : Bool) (b : MatBody) (s : MatShape) (a bt : Tensor) (c : Option Tensor) : Option Status :=
  let tf := c.map (·.fmt)
  if b.aTrans && a.raw.layout != 1 then some .badShape
  else if bt.raw.ext1 ≠ s.k ∨ bt.raw.ext2 ≠ 1 ∨ bt.raw.ext3 ≠ 1 then some .badShape
  else if c.any (fun t => t.raw.ext0 != s.n || t.raw.count != s.n * s.m) then some .badShape
  else if !operandPairOk slice a.fmt bt.fmt then some .badFormat
  else if tf.any (fun f => !targetOk slice a.fmt f) then some .badFormat
  else if b.lani && !laniOk b s.k a.fmt tf then some .badFormat
  else if !roundOk b.round tf then some .badRounding
  else if c.any (fun t => !writableView t) then some .badAddress
  else if slice && (bt.fmt == .bi8 || (a.fmt == .bi8 && b.aTrans)) then some .badShape
  else if slice && !preSlicedOk d b.slices a then some .badFormat
  else if (b.park || b.cont) && b.slotOff + (s.tiles - 1) * 0x100000 + 16 * 256 * s.w > 2 ^ 30 then some .badAddress
  else if (b.park || b.cont) && (List.range s.tiles).any (fun t =>
      inSpill d (0x0001000000000000 + b.slotDie * 2 ^ 32 + b.slotOff + t * 0x100000) (16 * 256 * s.w)) then
    some .badAddress
  else if liveArrays d = [] then some .resourceUnavailable
  else if b.lani && !(liveArrays d).any (fun i => lanibifelDie d (i / 128)) then some .modeDisabled
  else none

/-- The first access failure of a matrix command: operands, target, and the rows of the park slots, which it writes when
it parks (R14). -/
def matAccess (d : Dev) (p : Option Park) (park : Bool) (s : MatShape) (a b : Tensor) (c : Option Tensor) : Option Fail :=
  match tensorFails d a false with
  | some f => some f
  | none =>
    match tensorFails d b false with
    | some f => some f
    | none =>
      match c.bind (fun t => tensorFails d t true) with
      | some f => some f
      | none =>
        p.bind (fun q => (List.range s.tiles).findSome? (fun t => (s.rowsOf t).findSome? (fun v =>
          accessFails d (q.addr t (v % 256) 0) (16 * (s.colsOf t).length) park)))

/-- The values of one reduction line of a slice operand, as blocks. -/
def sliceLine (d : Dev) (slices : Nat) (t : Tensor) (idx : List Nat) : List (SliceBlock × List Val) :=
  lineBlocks slices (fget d fdrSliceCfgExtMode 0) (idx.map (elemVal d t))

/-- The block of a pre-sliced tensor as stored (R87), with the tensor scale folded into its exponent (R46, R77); elements
past the end of the row read as zero (R119). (DEDUCED 13) -/
def preSlicedBlock (d : Dev) (t : Tensor) (row i : Nat) : SliceBlock × List Val :=
  let b := bi8Block d t (row * bi8Per t + i)
  let digits := (List.range 32).map (fun j =>
    let ds := b.digits.getD j []
    if 32 * i + j < t.raw.ext0 then ds else ds.map (fun _ => 0))
  let b := { b with eb := b.eb.map (fun e => e - t.e), digits := digits }
  (b, digits.map (fun ds => match b.eb with | some e => sliceValue ds.length e ds | none => valZero))

/-- A row of a pre-sliced tensor, block after block. -/
def preSlicedLine (d : Dev) (t : Tensor) (row : Nat) : List (SliceBlock × List Val) :=
  (List.range (bi8Per t)).map (preSlicedBlock d t row)

/-- The elements of a cut reduction line whose slices are all zero though they are not (R80, R85): `idx` names the element
that each place of the line takes. -/
def lostOf (idx : List (Option Nat)) (blocks : List (SliceBlock × List Val)) : List Nat :=
  let cut := blocks.flatMap (fun b => b.1.digits.zip b.2)
  ((idx.zip cut).filter (fun x => x.2.1.all (· == 0) && valIsFinite x.2.2 && !valIsZero x.2.2)).filterMap (·.1)

/-- The same over lines of a tensor; a pre-sliced one is not cut. -/
def linesLost (d : Dev) (slices : Nat) (t : Tensor) (lines : List (List Nat)) : List Nat :=
  if t.fmt = .bi8 then [] else lines.flatMap (fun idx => lostOf (idx.map some) (sliceLine d slices t idx))

/-- Load every entry that a continuing command starts from. -/
def loadBanks (d : Dev) (p : Park) (anchored : Bool) (s : MatShape) : Except Fail (List (Nat × SafEntry)) :=
  (List.range s.tiles).foldl (fun acc t =>
    (s.cellsOf t).foldl (fun acc vc =>
      match acc with
      | .error f => .error f
      | .ok xs =>
        match parkLoad d p anchored t (vc.1 % 256) (vc.2 % s.w) with
        | .error f => .error f
        | .ok e => .ok (xs ++ [(vc.2 + s.n * vc.1, e)])) acc) (.ok [])

/-- Release the records of the loaded entries. -/
def releaseBanks (d : Dev) (p : Park) (s : MatShape) : Dev :=
  (List.range s.tiles).foldl (fun d t =>
    (s.cellsOf t).foldl (fun d vc => parkRelease d p t (vc.1 % 256) (vc.2 % s.w)) d) d

/-- Park the tiles (R50, R111): each slot's old records are freed first. -/
def parkTiles (p : Park) (s : MatShape) (g : Going) (tiles : List TileOut) : Going :=
  tiles.foldl (fun g t =>
    t.outs.foldl (fun g o =>
      match g.fail with
      | some _ => g
      | none =>
        match parkStore g.dev p t.arr t.tile (o.idx / s.n % 256) (o.idx % s.n % s.w) o.entry with
        | .error f => { g with dev := spillFail g.dev (t.arr / 128), fail := some f }
        | .ok (d, k) =>
          ⟨if k = 0 then d else countSaffron d t.arr ⟨0, 0, 0, k⟩, g.flags.entry o.entry, none⟩)
      { g with dev := if g.fail.isSome then g.dev else spillReleaseOwner g.dev (p.key t.tile) }) g

/-- Vectors launched by a tile: each slice-vector once, per K-chunk, 45 for a vector of a tile with 9 slices (R54, R55,
ARR_VECTORS). -/
def tileVectors (s : MatShape) (slices : Nat) (t : TileOut) : Nat :=
  let n := if t.nine then 9 else slices
  (s.rowsOf t.tile).length * cdiv s.k 256 * (if n = 0 then 1 else n * (n + 1) / 2)

/-- The tiles of MM and SLICE_MM. -/
def matTiles (d : Dev) (slice : Bool) (b : MatBody) (s : MatShape) (a bt : Tensor) (init : List (Nat × SafEntry)) :
    List TileOut :=
  let empty := if slice then safAnchored else safFixed
  let start := fun v c => smapGet init (c + s.n * v) empty
  (List.range s.tiles).map (fun t =>
    if slice then
      tileSlice s b.slices
        (fun v _ => if a.fmt = .bi8 then preSlicedLine d a v
          else sliceLine d b.slices a ((List.range s.k).map (streamIndex b a v)))
        (fun c => sliceLine d b.slices bt ((List.range s.k).map (fun r => c + s.n * r))) start t
    else if b.lani then
      tileLani s (fun v r _ => elemVal d a (streamIndex b a v r)) (fun r c => elemVal d bt (c + s.n * r)) t
    else
      tileFixed s (a.fmt.sigBits + bt.fmt.sigBits)
        ⟨fun v r _ => elemOpnd d a (streamIndex b a v r), fun r c => elemOpnd d bt (c + s.n * r)⟩ start t)

/-- Finish a matrix command whose tiles are computed: census of the feeder, counters, park or read-out. `lostA` and
`lostB` are the elements whose slices are all zero. A second fetch that fails ends the command before any tile is read out
(R68, DESIGN CHOICE 79). -/
def matFinish (d : Dev) (c : Ctx) (b : MatBody) (s : MatShape) (p : Option Park) (a bt : Tensor) (ct : Option Tensor)
    (lostA lostB : List Nat) (tiles : List TileOut) : Res :=
  let tiles := tiles.map (fun t => { t with arr := tileArrayOf d c b.lani (t.tile % s.tileCols) t.tile })
  let fa := feedCensus d a lostA.contains
  let fb := feedCensus d bt lostB.contains
  let d := bookFor (bookFor d c a fa) c bt fb
  let (d, bad) := parityTiles d tiles
  if bad then resFail d ⟨.uncorrectable, elemAddr d bt 0⟩
  else
    let g : Going := ⟨d, (infoZero.conv fa).conv fb, none⟩
    let g := countTiles (tileVectors s b.slices) g tiles
    match ct, p with
    | some t, _ =>
      let mode := (rmodeOfCode b.round).getD .rne
      if t.fmt = .s768 then (readOutPacked c t g tiles).res else (readOutConvert mode b.seed c t g tiles).res
    | none, some q => (parkTiles q s g tiles).res
    | none, none => g.res

/-- R69: a command that began on live arrays and finds none left ends UNCORRECTABLE at its first target element, or at its
first park slot when it has no target. -/
def arraysLost (d : Dev) (c : Ctx) (st : Status) (p : Option Park) (ct : Option Tensor) : Res :=
  if st = .resourceUnavailable && c.again then
    resFail d ⟨.uncorrectable, match ct, p with | some t, _ => elemAddr d t 0 | none, some q => q.addr 0 0 0 | none, none => 0⟩
  else resStatus d st

/-- Run MM (`slice` false) or SLICE_MM once it has started. (DESIGN CHOICE 10) -/
def runMatrix (slice : Bool) (d : Dev) (c : Ctx) (e : Nat) : Res :=
  let b := matBodyOf e
  if (slice && (b.slices != 3 && b.slices != 7 || b.lani)) || (!slice && b.slices != 0) || (b.park && b.cDesc != 0) then
    resStatus d .reservedField
  else
    match resolveSource d c.port c.group b.aDesc, resolveSource d c.port c.group b.bDesc,
        (if b.park then .ok none else (resolve d c.port c.group b.cDesc).map some) with
    | .error f, _, _ => resFail d f
    | _, .error f, _ => resFail d f
    | _, _, .error f => resFail d f
    | .ok a, .ok bt, .ok ct =>
      let mk := streamShape b a
      let s : MatShape := ⟨mk.1, mk.2, bt.raw.ext0, if a.fmt = .fp16 then 128 else 256⟩
      let p : Option Park := if b.park || b.cont then some ⟨b.slotDie, b.slotOff, s.w⟩ else none
      match matStatus d slice b s a bt ct with
      | some st => arraysLost d c st p ct
      | none =>
        let fails := matAccess d p b.park s a bt ct
        let lines := fun (l : List (List Nat)) (t : Tensor) => if slice then linesLost d b.slices t l else []
        let lostA := lines ((List.range s.m).map (fun v => (List.range s.k).map (streamIndex b a v))) a
        let lostB := lines ((List.range s.n).map (fun c => (List.range s.k).map (fun r => c + s.n * r))) bt
        let d := noteTensor (noteTensor d a) bt
        match fails with
        | some f => resFail d f
        | none =>
          match p, b.cont with
          | some q, true =>
            match loadBanks d q slice s with
            | .error f => resFail d f
            | .ok init =>
              matFinish (releaseBanks d q s) c b s p a bt ct lostA lostB (matTiles d slice b s a bt init)
          | _, _ => matFinish d c b s p a bt ct lostA lostB (matTiles d slice b s a bt [])

/-! ### CONV -/

/-- The parameter block of Table 12.5. -/
structure ConvBlock where
  span : Nat
  lines : Nat
  chan : Nat
  slices : Nat
  round : Nat
  seed : Nat
  dy : List Nat
  dz : List Nat
  reservedOk : Bool
deriving DecidableEq, Repr

/-- A row-map entry (Table 12.6): the row takes zero, or an element of the hold. -/
structure RowMap where
  zero : Bool
  line : Nat
  pos : Nat
  chan : Nat
  reservedOk : Bool
deriving DecidableEq, Repr

def rowMapOf (x : Nat) : RowMap :=
  ⟨bit x 15, bits x 13 11, bits x 10 8, bits x 7 0, !bit x 14 && (!bit x 15 || x == 2 ^ 15)⟩

def convBlockOf (x : Nat) : ConvBlock :=
  ⟨bits x 23 20, bits x 19 16, bits x 15 8 + 1, bits x 7 4, bits x 2 0, bits x 63 32,
   (List.range 8).map (fun h => bits x (64 + 16 * h + 7) (64 + 16 * h)),
   (List.range 8).map (fun h => bits x (64 + 16 * h + 15) (64 + 16 * h + 8)),
   bits x 31 24 == 0 && !bit x 3 && bits x 511 192 == 0⟩

/-- Row-map entry `r` of array `a` in the block at an address. (DEDUCED 14) -/
def convMap (d : Dev) (pb a r : Nat) : RowMap := rowMapOf (memReadNat d (pb + 0x40 + 512 * a + 2 * r) 2)

/-- The offsets of the active lines. -/
def ConvBlock.maxDy (b : ConvBlock) : Nat := (b.dy.take b.lines).foldl max 0
def ConvBlock.maxDz (b : ConvBlock) : Nat := (b.dz.take b.lines).foldl max 0

/-- R344: the linear index in the input of row-map entry `mp` for output point (x, y, z). (DEDUCED 14) -/
def convIndex (b : ConvBlock) (inp : Tensor) (mp : RowMap) (x y z : Nat) : Nat :=
  let r := inp.raw
  mp.chan + r.ext0 * ((x + b.span - 1 - mp.pos)
    + r.ext1 * ((y + b.dy.getD mp.line 0) + r.ext2 * (z + b.dz.getD mp.line 0)))

/-- R59, R344: the shape checks of CONV. -/
def convShapeOk (b : ConvBlock) (i w o : Tensor) (maps : List RowMap) : Bool :=
  decide (1 ≤ b.span ∧ b.span ≤ 8 ∧ 1 ≤ b.lines ∧ b.lines ≤ 8)
  && i.raw.ext0 == b.chan && o.raw.ext0 == w.raw.ext0 && decide (w.raw.ext1 ≤ 256) && w.raw.ext2 == 1 && w.raw.ext3 == 1
  && o.raw.ext1 + b.span == i.raw.ext1 + 1 && o.raw.ext2 + b.maxDy == i.raw.ext2 && o.raw.ext3 + b.maxDz == i.raw.ext3
  && maps.all (fun mp => mp.zero || (decide (mp.line < b.lines) && decide (mp.pos < b.span) && decide (mp.chan < b.chan)))

/-- R119 for a pre-sliced input of CONV: every run of 32 rows takes the channels of one block in order from one place of the
hold, its rows past the last channel take zero, or the whole run takes zero. -/
def convBlocksOk (b : ConvBlock) (maps : List RowMap) : Bool :=
  (chunksOf 32 (maps.length + 1) maps).all (fun run =>
    match run with
    | [] => true
    | m0 :: _ =>
      if m0.zero then run.all (·.zero)
      else m0.chan % 32 == 0 && (List.range run.length).all (fun j =>
        let m := run.getD j m0
        if m0.chan + j < b.chan then !m.zero && m.line == m0.line && m.pos == m0.pos && m.chan == m0.chan + j else m.zero))

/-- The blocks of a vector of a pre-sliced input, run by run, from the element that each of its rows takes. -/
def convBlocks (d : Dev) (t : Tensor) (rows : List (Option Nat)) : List (SliceBlock × List Val) :=
  (chunksOf 32 (rows.length + 1) rows).map (fun run =>
    match run.headD none with
    | some x => preSlicedBlock d t (x / t.raw.ext0) (x % t.raw.ext0 / 32)
    | none => (⟨false, none, List.replicate 32 [], List.replicate 32 .finite⟩, List.replicate 32 valZero))

/-- Run CONV once it has started. A pre-sliced weight operand is refused: its blocks run along the output columns and not
along the reduction (R119). -/
def runConv (d : Dev) (c : Ctx) (e : Nat) : Res :=
  let pb := entryWord e 7
  match resolveSource d c.port c.group (entryWord e 4), resolveSource d c.port c.group (entryWord e 5),
      resolve d c.port c.group (entryWord e 6) with
  | .error f, _, _ => resFail d f
  | _, .error f, _ => resFail d f
  | _, _, .error f => resFail d f
  | .ok i, .ok w, .ok o =>
    if pb % 64 ≠ 0 || !rangeNamed d c.port pb 2112 then resStatus d .badAddress
    else match accessFails d pb 2112 false with
    | some f => resFail d f
    | none =>
      let b := convBlockOf (memReadNat d pb 64)
      let maps := (List.range 4).flatMap (fun a => (List.range w.raw.ext1).map (convMap d pb a))
      let slice := b.slices != 0
      let s : MatShape := ⟨o.raw.ext1 * o.raw.ext2 * o.raw.ext3, w.raw.ext1, w.raw.ext0, if i.fmt = .fp16 then 128 else 256⟩
      if !b.reservedOk || maps.any (fun m => !m.reservedOk) || (slice && b.slices != 3 && b.slices != 7) then
        resStatus d .reservedField
      else if !convShapeOk b i w o maps then resStatus d .badShape
      else if !operandPairOk slice i.fmt w.fmt || !targetOk slice i.fmt o.fmt then resStatus d .badFormat
      else if w.fmt == .bi8 || (i.fmt == .bi8
          && !(List.range 4).all (fun a => convBlocksOk b ((List.range w.raw.ext1).map (convMap d pb a)))) then
        resStatus d .badShape
      else if slice && !preSlicedOk d b.slices i then resStatus d .badFormat
      else match roundStatus b.round o.fmt with
      | .error st => resStatus d st
      | .ok _ =>
        if !writableView o then resStatus d .badAddress
        else if liveArrays d = [] then arraysLost d c .resourceUnavailable none (some o)
        else
        let fails := matAccess d none false s i w (some o)
        let d := noteTensor (noteTensor d i) w
        match fails with
        | some f => resFail d f
        | none =>
          let at3 := fun v => (v % o.raw.ext1, v / o.raw.ext1 % o.raw.ext2, v / (o.raw.ext1 * o.raw.ext2))
          let inOp := fun v r tc =>
            let mp := convMap d pb (tc % 4) r
            if mp.zero then none else let q := at3 v; some (convIndex b i mp q.1 q.2.1 q.2.2)
          let convLine := fun v tc => lineBlocks b.slices (fget d fdrSliceCfgExtMode 0) ((List.range s.k).map (fun r =>
            match inOp v r tc with | some x => elemVal d i x | none => valZero))
          let tiles := (List.range s.tiles).map (fun t =>
            if slice then
              tileSlice s b.slices
                (fun v tc =>
                  if i.fmt = .bi8 then convBlocks d i ((List.range s.k).map (fun r => inOp v r tc))
                  else convLine v tc)
                (fun cc => sliceLine d b.slices w ((List.range s.k).map (fun r => cc + s.n * r)))
                (fun _ _ => safAnchored) t
            else
              tileFixed s (i.fmt.sigBits + w.fmt.sigBits)
                ⟨fun v r tc => match inOp v r tc with | some x => elemOpnd d i x | none => .fin 0 0,
                 fun r cc => elemOpnd d w (cc + s.n * r)⟩ (fun _ _ => safFixed) t)
          let body : MatBody := ⟨0, 0, 0, b.seed, 0, 0, b.slices, false, false, false, false, b.round⟩
          let lostW := if slice then
              linesLost d b.slices w ((List.range s.n).map (fun cc => (List.range s.k).map (fun r => cc + s.n * r)))
            else []
          let lostI := if slice && i.fmt != .bi8 then
              (List.range s.m).flatMap (fun v => (List.range s.tileCols).flatMap (fun tc =>
                lostOf ((List.range s.k).map (fun r => inOp v r tc)) (convLine v tc)))
            else []
          matFinish d c body s none i w (some o) lostI lostW tiles

end Sys2Proof.Machine
end

