-- ==== Sys2Proof/Machine/RowVec.lean ====
section
/-! DEFINITION. Cardamom's ROW commands (R144 to R154, R345) and the vector unit's VEC commands (R155 to R157, R346). -/
namespace Sys2Proof.Machine

/-! ### Exact sums -/

/-- The exponent whose negative every dyadic value of the row engine is a multiple of: FP32 products reach 2^-298. -/
def sumUnit : Nat := 1200

/-- A finite dyadic value as a multiple of 2^-1200. -/
def toUnits (v : Val) : Int :=
  match v with | .fin s n d => signedNum s (n * 2 ^ sumUnit / d) | _ => 0

/-- R146: the exact sum of values, with the special values of Table 4.2. -/
def exactSum (xs : List Val) : Val :=
  let sp := xs.foldl (fun a x => specialCombine a (specialOfVal x)) .finite
  match sp with
  | .nan => .nan
  | .pinf => .inf false
  | .ninf => .inf true
  | .finite => valDyadic (xs.foldl (fun a x => a + toUnits x) 0) (-(sumUnit : Int))

def sum32 (xs : List Val) : Val := f32 (exactSum xs)

/-- R146: a sum divided by L, formed from the exact sum and rounded once. -/
def mean32 (xs : List Val) : Val := f32 (valDiv (exactSum xs) (valNat xs.length))

/-- The 32 bits of a value, for the fixed functions. -/
def bits32 (v : Val) : BitVec 32 := BitVec.ofNat 32 (encode32 v)

/-- R146: exp and 1/√, within 1 ulp of FP32. -/
def exp32 (x : Val) : Val :=
  let pick := (Config.expFn (bits32 x)).toNat
  if valIsFinite x then near32 1 pick (realExp x) else decode32 pick
def rsqrt32 (x : Val) : Val :=
  let pick := (Config.rsqrtFn (bits32 x)).toNat
  if valIsFinite x && valLt valZero x then near32 1 pick (realRsqrt x) else decode32 pick

/-- Add one exact value into a fixed-mode entry (R153). -/
def safAddVal (s : SafEntry) (v : Val) : SafEntry × SafCount :=
  match v with
  | .fin g n d => if n = 0 then (s, safCountZero) else safAddFixed s (signedNum g n) (-(d.log2 : Int))
  | w => (safAddSpecial s (specialOfVal w), safCountZero)

/-! ### ROW -/

/-- The kinds of Table 5.2. -/
inductive RowKind where | softmaxFwd | softmaxBwd | softmaxBwdRc | lnFwd | lnBwd | rmsFwd | rmsBwd
deriving DecidableEq, Repr

def rowKindOf (c : Nat) : Option RowKind :=
  match c with
  | 0 => some .softmaxFwd | 1 => some .softmaxBwd | 2 => some .softmaxBwdRc | 3 => some .lnFwd | 4 => some .lnBwd
  | 5 => some .rmsFwd | 6 => some .rmsBwd | _ => none

/-- Which of x, y, dy, gamma, beta, out, dgamma, dbeta a kind takes (R345). -/
def RowKind.takes : RowKind → List Bool
  | .softmaxFwd => [true, false, false, false, false, true, false, false]
  | .softmaxBwd => [false, true, true, false, false, true, false, false]
  | .softmaxBwdRc => [true, false, true, false, false, true, false, false]
  | .lnFwd => [true, false, false, true, true, true, false, false]
  | .lnBwd => [true, false, true, true, false, true, true, true]
  | .rmsFwd => [true, false, false, true, false, true, false, false]
  | .rmsBwd => [true, false, true, true, false, true, true, false]

def RowKind.writesStats : RowKind → Bool
  | .softmaxFwd | .lnFwd | .rmsFwd => true
  | _ => false

def RowKind.readsStats : RowKind → Bool
  | .softmaxBwdRc | .lnBwd | .rmsBwd => true
  | _ => false

/-- The body of Table 12.7. -/
structure RowBody where
  delta : Int
  maskEn : Bool
  clear : Bool
  round : Nat
  kind : Nat
  eps : Val
  tau : Val
  ops : Nat
  stats : Nat
deriving DecidableEq, Repr

def rowBodyOf (e : Nat) : RowBody :=
  let w4 := entryWord e 4
  let w5 := entryWord e 5
  ⟨signedOf 32 (bits w4 63 32), bit w4 8, bit w4 7, bits w4 6 4, bits w4 3 0, decode32 (bits w5 63 32),
   decode32 (bits w5 31 0), entryWord e 6, entryWord e 7⟩

/-- The inputs of one row: values, the row's number, and its record. -/
structure RowIn where
  i : Nat
  x : List Val
  y : List Val
  dy : List Val
  g : List Val
  b : List Val
  s0 : Val
  s1 : Val
deriving DecidableEq, Repr

/-- The outputs of one row: values out, record words, contributions to dgamma and dbeta. -/
structure RowOut where
  out : List Val
  stats : Nat × Nat
  dg : List Val
  db : List Val
deriving DecidableEq, Repr

/-- Element `j` of row `i` is masked: `j > i + delta`. -/
def masked (b : RowBody) (i j : Nat) : Bool := b.maskEn && decide ((j : Int) > i + b.delta)

def allMasked (b : RowBody) (i l : Nat) : Bool := (List.range l).all (masked b i)

def nan32 : Nat := 0x7FC00000

/-- The exponentials of a row after its maximum `m`. -/
def softE (b : RowBody) (i : Nat) (x : List Val) (m : Val) : List Val :=
  (List.zipIdx x).map (fun p => if masked b i p.2 then valZero else exp32 (sub32 (mul32 b.tau p.1) m))

/-- The greatest of a list, none when it is empty. -/
def maxOf (xs : List Val) : Option Val :=
  xs.foldl (fun a x => match a with | none => some x | some y => some (valMax y x)) none

/-- SOFTMAX_FWD with R152. -/
def softmaxFwd (b : RowBody) (r : RowIn) : RowOut :=
  let live := (List.zipIdx r.x).filter (fun p => !masked b r.i p.2)
  match maxOf (live.map (fun p => mul32 b.tau p.1)) with
  | none => ⟨r.x.map (fun _ => valZero), (0, 0), [], []⟩
  | some m =>
    if live.any (fun p => !valIsFinite p.1) then ⟨r.x.map (fun _ => .nan), (nan32, nan32), [], []⟩
    else
      let e := softE b r.i r.x m
      let q := div32 (valNat 1) (sum32 e)
      ⟨e.map (fun x => valMul x q), (encode32 m, encode32 q), [], []⟩

/-- SOFTMAX_BWD from the values y. -/
def softmaxBwd (b : RowBody) (i : Nat) (y dy : List Val) : RowOut :=
  if allMasked b i dy.length && b.maskEn then ⟨dy.map (fun _ => valZero), (0, 0), [], []⟩
  else
    let dd := sum32 (List.zipWith valMul dy y)
    ⟨List.zipWith (fun g v => valMul (valMul b.tau v) (sub32 g dd)) dy y, (0, 0), [], []⟩

/-- A record with a NaN (R152). -/
def nanRecord (r : RowIn) : Bool := valIsNan r.s0 || valIsNan r.s1

/-- SOFTMAX_BWD_RC (R151). -/
def softmaxBwdRc (b : RowBody) (r : RowIn) : RowOut :=
  if nanRecord r then ⟨r.dy.map (fun _ => .nan), (0, 0), [], []⟩
  else softmaxBwd b r.i ((softE b r.i r.x r.s0).map (fun e => mul32 e r.s1)) r.dy

/-- LN_FWD. -/
def lnFwd (b : RowBody) (r : RowIn) : RowOut :=
  let mu := mean32 r.x
  let d := r.x.map (fun v => sub32 v mu)
  let rho := rsqrt32 (add32 (mean32 (d.map (fun v => valMul v v))) b.eps)
  let xh := d.map (fun v => mul32 v rho)
  ⟨List.zipWith valAdd (List.zipWith valMul r.g xh) r.b, (encode32 mu, encode32 rho), [], []⟩

/-- RMS_FWD. -/
def rmsFwd (b : RowBody) (r : RowIn) : RowOut :=
  let q := mean32 (r.x.map (fun v => valMul v v))
  let rho := rsqrt32 (add32 q b.eps)
  ⟨List.zipWith valMul r.g (r.x.map (fun v => mul32 v rho)), (encode32 q, encode32 rho), [], []⟩

/-- LN_BWD and RMS_BWD: `ln` subtracts the mean of g. -/
def normBwd (ln : Bool) (r : RowIn) : RowOut :=
  if nanRecord r then ⟨r.dy.map (fun _ => .nan), (0, 0), r.dy.map (fun _ => .nan), if ln then r.dy else []⟩
  else
    let xh := if ln then r.x.map (fun v => mul32 (sub32 v r.s0) r.s1) else r.x.map (fun v => mul32 v r.s1)
    let g := List.zipWith mul32 r.dy r.g
    let a := if ln then mean32 g else valZero
    let b := mean32 (List.zipWith valMul g xh)
    let u := List.zipWith (fun gj xj => sub32 (sub32 gj a) (mul32 xj b)) g xh
    ⟨u.map (fun v => valMul r.s1 v), (0, 0), List.zipWith valMul r.dy xh, if ln then r.dy else []⟩

def rowCompute (k : RowKind) (b : RowBody) (r : RowIn) : RowOut :=
  match k with
  | .softmaxFwd => softmaxFwd b r
  | .softmaxBwd => softmaxBwd b r.i r.y r.dy
  | .softmaxBwdRc => softmaxBwdRc b r
  | .lnFwd => lnFwd b r
  | .lnBwd => normBwd true r
  | .rmsFwd => rmsFwd b r
  | .rmsBwd => normBwd false r

/-- R144: a format of a row input. -/
def rowInputFmt (f : Fmt) : Bool := f.group == some .floating || f == .fp16 || f == .fp32

/-- A format that a row or vector output may be converted to (Table 3.1): a vector input is any of them but S768. -/
def vecOutFmt (f : Fmt) : Bool := f != .bi8
def vecInFmt (f : Fmt) : Bool := f != .s768 && f != .bi8

def sameExtents (a b : RawDesc) : Bool := a.ext0 == b.ext0 && a.ext1 == b.ext1 && a.ext2 == b.ext2 && a.ext3 == b.ext3

/-- Row `i` of a tensor. -/
def rowVals (d : Dev) (t : Tensor) (i : Nat) : List Val :=
  (List.range t.raw.ext0).map (fun j => elemVal d t (j + t.raw.ext0 * i))

/-- Resolve the operand descriptors of a list of addresses; a zero address is an absent operand. The operands from `first`
on are converted into, and are held to the command's group (R92). -/
def resolveOps (d : Dev) (c : Ctx) (first : Nat) (as : List Nat) : Except Fail (List (Option Tensor)) :=
  as.foldl (fun acc a =>
    match acc with
    | .error f => .error f
    | .ok xs =>
      if a = 0 then .ok (xs ++ [none])
      else match (if xs.length < first then resolveSource d c.port none a else resolve d c.port c.group a) with
        | .error f => .error f
        | .ok t => .ok (xs ++ [some t])) (.ok [])

/-- The operand list at an address. -/
def readOps (d : Dev) (c : Ctx) (a n : Nat) : Except Fail (List Nat) :=
  if a % (8 * n) ≠ 0 || isRemote d a || !rangeNamed d c.port a (8 * n) then .error ⟨.badAddress, 0⟩
  else match accessFails d a (8 * n) false with
    | some f => .error f
    | none => .ok ((List.range n).map (fun i => memReadNat d (a + 8 * i) 8))

/-- Whether operand `i` is present. -/
def opAt (ops : List (Option Tensor)) (i : Nat) : Option Tensor := (ops[i]?).join

/-- The static checks of ROW after its operands are resolved (R144, R345). (DEDUCED 15) -/
def rowStatus (d : Dev) (k : RowKind) (b : RowBody) (ops : List (Option Tensor)) (lead : Tensor) : Option Status :=
  let l := lead.raw.ext0
  let rows := [0, 1, 2, 5].filterMap (opAt ops)
  let vecs := [3, 4, 6, 7].filterMap (opAt ops)
  if l > 1048576 || rows.any (fun t => !sameExtents t.raw lead.raw)
      || vecs.any (fun t => t.raw.ext0 != l || t.raw.ext1 != 1 || t.raw.ext2 != 1 || t.raw.ext3 != 1) then some .badShape
  else if ([0, 1, 2, 3, 4].filterMap (opAt ops)).any (fun t => !rowInputFmt t.fmt)
      || ([6, 7].filterMap (opAt ops)).any (fun t => t.fmt != .s768)
      || (opAt ops 5).any (fun t => !vecOutFmt t.fmt) then some .badFormat
  else if ([5, 6, 7].filterMap (opAt ops)).any (fun t => !roundOk b.round (some t.fmt)) then some .badRounding
  else if ([5, 6, 7].filterMap (opAt ops)).any (fun t => !writableView t) then some .badAddress
  else if (k.writesStats || k.readsStats) && (b.stats % 8 != 0) then some .badAddress
  else if liveArrays d = [] then some .resourceUnavailable
  else none

/-- The core that runs a ROW command (R148): that of its side memory, or the scheduler's. -/
def rowCore (d : Dev) (c : Ctx) (stats n : Nat) : Nat :=
  match regionOf (localAddr d stats), regionOf (localAddr d (stats + n - 1)) with
  | .side a _, .side b _ => if a = b then a else tileArrayOf d c false 0 0 / 4
  | _, _ => tileArrayOf d c false 0 0 / 4

/-- A row, vector or S768 output on its way: the going, and what its conversions add up to. -/
abbrev OutGoing := Going × ConvSum

/-- The event of a value added into an S768 entry (R79, R80): `v` as given, `x` scaled, `s` the entry after it. -/
def addEvent (v x : Val) (s : SafEntry) : ConvEvent :=
  if s.special ≠ .finite then .nonfinite else if !valIsZero v && valIsZero x then .underflow else .none

/-- Add one contribution into element `i` of an S768 tensor in its slot's scale (R153, R139), and count its conversion. -/
def accumulateOne (c : Ctx) (core : Nat) (t : Tensor) (acc : OutGoing) (i : Nat) (start : Except Fail SafEntry) (v : Val) :
    OutGoing :=
  let (g, s) := acc
  match g.fail, start with
  | some _, _ => acc
  | none, .error f => ({ g with fail := some f }, s)
  | none, .ok e =>
    if e.anchored then ({ g with fail := some ⟨.parkMismatch, 0⟩ }, s)
    else
      let x := valScale v t.e
      let (e', k) := safAddVal e x
      match setElemEntry g.dev t i e' with
      | none => ({ g with dev := spillFail g.dev (core / 32), fail := some ⟨.spillExhausted, 0⟩ }, s)
      | some (d, n) =>
        (⟨countSaffron d (tileArrayOf d c false 0 0) (n.add k), g.flags.entry e', none⟩,
         s.count t.hist t.e v (addEvent v x e'))

/-- Add a row's contributions into an S768 tensor (R153), element by element. -/
def accumulate (c : Ctx) (core : Nat) (t : Tensor) (acc : OutGoing) (xs : List Val) : OutGoing :=
  (List.zipIdx xs).foldl (fun acc p => accumulateOne c core t acc p.2 (elemEntry acc.1.dev t p.2) p.1) acc

/-- Convert values into a tensor by linear index: into S768 as entries in the slot's scale (R77, R117). -/
def writeOut (d : Dev) (c : Ctx) (core : Nat) (mode : RMode) (seed : Nat) (t : Tensor) (xs : List (Nat × Val)) : OutGoing :=
  if t.fmt = .s768 then
    xs.foldl (fun acc p => accumulateOne c core t acc p.1 (.ok safFixed) p.2) (⟨d, infoZero, none⟩, convSumZero)
  else
    let (d, s) := writeVals d mode c.stepTag seed t xs
    (⟨d, infoZero, none⟩, s)

/-- Book what the conversions into a tensor add up to. -/
def OutGoing.book (acc : OutGoing) (c : Ctx) (t : Tensor) : Going :=
  ⟨bookFor acc.1.dev c t acc.2, acc.1.flags.conv acc.2, acc.1.fail⟩

/-- Set every element of an S768 tensor to zero (the clear flag of R153). (DEDUCED 16) -/
def clearTensor (d : Dev) (t : Tensor) : Dev :=
  (List.range t.raw.count).foldl (fun d i => setElemCode d t i 0) d

/-- Run ROW once it has started. Table 12.7 gives the body no seed; SR8 takes seed 0 (DESIGN CHOICE 81).
(DESIGN CHOICE 10) -/
def runRow (d : Dev) (c : Ctx) (e : Nat) : Res :=
  let b := rowBodyOf e
  match rowKindOf b.kind with
  | none => resStatus d .reservedField
  | some k =>
    match readOps d c b.ops 8 with
    | .error f => resFail d f
    | .ok as =>
      if (List.zip as k.takes).any (fun p => !p.2 && p.1 != 0) then resStatus d .reservedField
      else match resolveOps d c 5 as with
      | .error f => resFail d f
      | .ok ops =>
        if (List.zip ops k.takes).any (fun p => p.2 && p.1.isNone) then resStatus d .badAddress
        else match (if k = .softmaxBwd then opAt ops 2 else opAt ops 0), opAt ops 5 with
        | some lead, some out =>
          let n := lead.raw.ext1 * lead.raw.ext2 * lead.raw.ext3
          let l := lead.raw.ext0
          let usesStats := k.writesStats || k.readsStats
          match rowStatus d k b ops lead with
          | some st => resStatus d st
          | none =>
            if usesStats && !rangeNamed d c.port b.stats (8 * n) then resStatus d .badAddress
            else
              let ins := [0, 1, 2, 3, 4, 6, 7].filterMap (opAt ops)
              let fails := match ins.findSome? (fun t => tensorFails d t false) with
                | some f => some f
                | none => match tensorFails d out true with
                  | some f => some f
                  | none => if usesStats then accessFails d b.stats (8 * n) k.writesStats else none
              let d := ins.foldl noteTensor d
              let d := if k.readsStats then noteRead d b.stats (8 * n) else d
              match fails with
              | some f => resFail d f
              | none =>
                let rd := fun i j => match opAt ops i with | some t => rowVals d t j | none => []
                let rows := (List.range n).map (fun i =>
                  rowCompute k b ⟨i, rd 0 i, rd 1 i, rd 2 i, rd 3 0, rd 4 0,
                    decode32 (memReadNat d (b.stats + 8 * i) 4), decode32 (memReadNat d (b.stats + 8 * i + 4) 4)⟩)
                let core := rowCore d c b.stats (8 * n)
                let vals := (List.zipIdx rows).flatMap (fun p => (List.zipIdx p.1.out).map (fun q => (q.2 + l * p.2, q.1)))
                let grads := [6, 7].filterMap (opAt ops)
                let d1 := (out :: grads).foldl openTensor d
                let g := (writeOut d1 c core ((rmodeOfCode b.round).getD .rne) 0 out vals).book c out
                let record := fun (d : Dev) (p : RowOut × Nat) =>
                  store d (b.stats + 8 * p.2) (leBytes 4 p.1.stats.1 ++ leBytes 4 p.1.stats.2)
                let g := if k.writesStats then
                    { g with dev := (List.zipIdx rows).foldl record (openRanges g.dev [(b.stats, 8 * n)]) }
                  else g
                let g := if b.clear then { g with dev := grads.foldl clearTensor g.dev } else g
                let g := if fget g.dev cardCtlCntFreeze core = 1 then g else { g with dev := cntAdd g.dev cardRowsRows core n }
                let add := fun (g : Going) (t : Option Tensor) (xs : RowOut → List Val) =>
                  match t with
                  | none => g
                  | some t => OutGoing.book (rows.foldl (fun acc r => accumulate c core t acc (xs r)) (g, convSumZero)) c t
                let g := add (add g (opAt ops 6) (·.dg)) (opAt ops 7) (·.db)
                g.res
        | _, _ => resStatus d .badAddress

/-! ### VEC -/

/-- The body of Table 12.8. -/
structure VecBody where
  seed : Nat
  round : Nat
  bwd : Bool
  func : Nat
  p0 : Val
  p1 : Val
  ops : Nat
  aux : Nat
deriving DecidableEq, Repr

/-- DEDUCED 16 of the log. -/
def vecBodyOf (e : Nat) : VecBody :=
  let w4 := entryWord e 4
  let w5 := entryWord e 5
  ⟨bits w4 63 32, bits w4 11 9, bit w4 8, bits w4 7 0, decode32 (bits w5 31 0), decode32 (bits w5 63 32),
   entryWord e 6, entryWord e 7⟩

/-- A function of Table 12.9 with a fixed FP32 result (codes 0x10 to 0x19). -/
def isActivation (f : Nat) : Bool := decide (0x10 ≤ f ∧ f ≤ 0x19)

/-- SiLU and the sigmoid form of GELU save an auxiliary byte (R156). -/
def usesAux (f : Nat) : Bool := f == 0x15 || f == 0x16

/-- R346: the forward result before its one conversion. -/
def vecForward (b : VecBody) (x y : Val) : Val :=
  match b.func with
  | 0 => valAdd x y
  | 1 => valSub x y
  | 2 => valMul x y
  | 3 => valMax x y
  | 4 => valMin x y
  | 5 => valAdd (valMul x b.p0) b.p1
  | 0x10 => valMax valZero (f32 x)
  | 0x11 => if valLt valZero x then f32 x else mul32 b.p0 (f32 x)
  | f =>
    let pick := (Config.vecFn (if f = 0x19 then 0x15 else f) (bits32 x)).toNat
    if valIsFinite x then near32 2 pick (vecReal f (f32 x)) else decode32 pick

/-- R156: the FP32 sigmoid value of the forward step, within 2 ulp and at most 1. -/
def auxSigma (f : Nat) (x : Val) : Val :=
  let x := f32 x
  valMin (valNat 1) (near32 2 (Config.vecFn (0x100 + f) (bits32 x)).toNat
    (realSigmoid (if f = 0x16 then valMul (micro 1702000) x else x)))

/-- R156: the auxiliary byte of an element: the sigmoid value in units of 1/256. That of an input that is not finite the
manual does not state. (DESIGN CHOICE 68) -/
def auxByte (f : Nat) (x : Val) : Nat :=
  if !valIsFinite x then (Config.vecFn (0x200 + f) (bits32 x)).toNat % 256
  else match auxSigma f x with
    | .fin _ n d => min (n * 256 / d) 255
    | _ => 0

/-- The value read from an auxiliary byte. -/
def auxVal (u : Nat) : Val := .fin false (2 * u + 1) 512

/-- R155, R157: the derivative from the saved value `y` and the auxiliary value. Table 5.4 gives no order for
1.702 × y × (1 − σ̃): the model rounds 1.702 to FP32 and multiplies from left to right (DESIGN CHOICE 82). -/
def vecDerivative (b : VecBody) (y sg : Val) : Val :=
  let one := valNat 1
  let infNan := fun v => match y with | .inf _ => Val.nan | _ => v
  if valIsNan y then .nan
  else match b.func with
  | 0x10 => if valLt valZero y then one else valZero
  | 0x11 => if valLt valZero y then one else b.p0
  | 0x12 => infNan (mul32 y (sub32 one y))
  | 0x13 => infNan (sub32 one (mul32 y y))
  | 0x14 => y
  | 0x15 => infNan (add32 sg (mul32 y (sub32 one sg)))
  | 0x16 => infNan (add32 sg (mul32 (mul32 (f32 (.fin false 1702 1000)) y) (sub32 one sg)))
  | f =>
    let pick := (Config.vecDeriv f (bits32 y)).toNat
    if valIsFinite y then near32 2 pick (vecRealDeriv f (f32 y)) else decode32 pick

/-- The index in b of element `i` of out: the same, or broadcast across rows (R346). -/
def vecBIndex (b out : RawDesc) (i : Nat) : Nat := if sameExtents b out then i else i % out.ext0

/-- The extents of VEC operands (R346). -/
def vecShapeOk (ops : List (Option Tensor)) (out : Tensor) : Bool :=
  (opAt ops 0).all (fun t => sameExtents t.raw out.raw)
  && (opAt ops 1).all (fun t => sameExtents t.raw out.raw
      || (t.raw.ext0 == out.raw.ext0 && t.raw.ext1 == 1 && t.raw.ext2 == 1 && t.raw.ext3 == 1))

/-- Whether a function takes operand b: two-operand functions, and every backward. -/
def vecTakesB (b : VecBody) : Bool := decide (b.func ≤ 4) || b.bwd

/-- Run VEC once it has started. (DESIGN CHOICE 10) -/
def runVec (d : Dev) (c : Ctx) (e : Nat) : Res :=
  let b := vecBodyOf e
  if !(decide (b.func ≤ 5) || isActivation b.func) || (b.bwd && !isActivation b.func)
      || (b.aux != 0 && !usesAux b.func) then resStatus d .reservedField
  else if b.bwd && usesAux b.func && b.aux == 0 then resStatus d .auxRequired
  else match readOps d c b.ops 4 with
  | .error f => resFail d f
  | .ok as =>
    if as.getD 3 0 != 0 || (!vecTakesB b && as.getD 1 0 != 0) then resStatus d .reservedField
    else match resolveOps d c 2 as with
    | .error f => resFail d f
    | .ok ops =>
      match opAt ops 0, opAt ops 2 with
      | some a, some out =>
        if vecTakesB b && (opAt ops 1).isNone then resStatus d .badAddress
        else if !vecShapeOk ops out then resStatus d .badShape
        else if !vecOutFmt out.fmt || ([0, 1].filterMap (opAt ops)).any (fun t => !vecInFmt t.fmt) then
          resStatus d .badFormat
        else if !roundOk b.round (some out.fmt) then resStatus d .badRounding
        else if !writableView out then resStatus d .badAddress
        else if b.aux != 0 && !rangeNamed d c.port b.aux out.raw.count then resStatus d .badAddress
        else if liveArrays d = [] then resStatus d .resourceUnavailable
        else
          let ins := [some a, opAt ops 1].filterMap id
          let fails := match ins.findSome? (fun t => tensorFails d t false) with
            | some f => some f
            | none => match tensorFails d out true with
              | some f => some f
              | none => if b.aux != 0 then accessFails d b.aux out.raw.count (!b.bwd) else none
          let d := ins.foldl noteTensor d
          let d := if b.aux != 0 && b.bwd then noteRead d b.aux out.raw.count else d
          match fails with
          | some f => resFail d f
          | none =>
            let idx := List.range out.raw.count
            let vb := fun i => match opAt ops 1 with | some t => elemVal d t (vecBIndex t.raw out.raw i) | none => valZero
            let vals := idx.map (fun i =>
              (i, if b.bwd then
                  valMul (elemVal d a i) (vecDerivative b (vb i) (auxVal (memGet d (b.aux + i)).toNat))
                else vecForward b (elemVal d a i) (vb i)))
            let g := (writeOut (openTensor d out) c (tileArrayOf d c false 0 0 / 4) ((rmodeOfCode b.round).getD .rne) b.seed out
              vals).book c out
            let bytes := idx.map (fun i => BitVec.ofNat 8 (auxByte b.func (elemVal d a i)))
            if b.aux != 0 && !b.bwd then
              Going.res { g with dev := store (openRanges g.dev [(b.aux, out.raw.count)]) b.aux bytes }
            else g.res
      | _, _ => resStatus d .badAddress

end Sys2Proof.Machine
end

