-- ==== Sys2Proof/Machine/Transfer.lean ====
section
/-! DEFINITION. Transfers: COPY raw and converting (R246 to R249, R347), MCAST (R263) and FENNEL_PUT with the landing of
Fennel transfers (R251, R253). -/
namespace Sys2Proof.Machine

/-! ### Engines -/

def linkUp (d : Dev) (n : Nat) : Bool := fget d blLinkStatusState n == 2
def linkUsable (d : Dev) (n : Nat) : Bool := linkUp d n || fget d blLinkStatusState n == 1

/-- R288, R289: the port by which a message for `dst` leaves. -/
def routeOf (d : Dev) (dst : Nat) : Option Nat :=
  if fget d blRouteValid dst = 1 ∧ linkUsable d (fget d blRoutePort dst) then some (fget d blRoutePort dst)
  else if fget d blRouteAltValid dst = 1 ∧ linkUsable d (fget d blRouteAltPort dst) then some (fget d blRouteAltPort dst)
  else none

/-- The die that runs a piece with this destination (R246): for peer memory, the die of the router port by which the route
leaves. -/
def pieceDie (d : Dev) (a : Nat) : Nat :=
  match regionOf (localAddr d a) with
  | .peer id _ => (routeOf d id).getD (fget d blRoutePort id) / 18
  | _ => dieOfAddr d a

/-- The engine of die `e` that takes its piece number `i`: dealt round-robin over the engines requested; a request of 0
leaves the engine to the scheduler. (DESIGN CHOICE 11) -/
def pieceEngine (c : Ctx) (engines e i : Nat) : Nat :=
  e * 16 + (if engines = 0 then (Config.freeEngine c.ring c.seq i).val else i % engines)

/-- One piece of a COPY: destination address and length, within one 4 KiB block. -/
structure Piece where
  dst : Nat
  len : Nat
deriving DecidableEq, Repr

/-- R246: pieces at the 4 KiB boundaries of the destination, in address order. -/
def piecesOf (a n : Nat) : List Piece :=
  (List.range (if n = 0 then 0 else cdiv (a % 4096 + n) 4096)).map (fun i =>
    let lo := max a (a / 4096 * 4096 + 4096 * i)
    ⟨lo, min (a + n) (a / 4096 * 4096 + 4096 * (i + 1)) - lo⟩)

/-- R246: the pieces of a COPY whose destination is several ranges: what falls into one 4 KiB block, in address order. -/
def piecesOfRanges (rs : List (Nat × Nat)) : List Piece :=
  ((rs.flatMap (fun r => piecesOf r.1 r.2)).foldl (fun m p =>
    let old := smapGet m (p.dst / 4096) ⟨p.dst, 0⟩
    smapPut m (p.dst / 4096) ⟨min old.dst p.dst, old.len + p.len⟩) []).map (·.2)

/-- Pieces with the engine each one runs on. -/
def dealPieces (d : Dev) (c : Ctx) (engines : Nat) (ps : List Piece) : List (Piece × Nat) :=
  (ps.foldl (fun (acc : List (Piece × Nat) × Nat × Nat) p =>
    let e := pieceDie d p.dst % 2
    let i := if e = 0 then acc.2.1 else acc.2.2
    (acc.1 ++ [(p, pieceEngine c engines e i)],
      if e = 0 then (acc.2.1 + 1, acc.2.2) else (acc.2.1, acc.2.2 + 1))) ([], 0, 0)).1

def engineBytes (d : Dev) (e n : Nat) : Dev := cntAdd d dmaEngBytesBytes e n
def engineFailed (d : Dev) (e : Nat) : Dev := cntAdd d dmaEngErrFailed e 1

/-! ### Raw COPY -/

/-- The body of COPY in Table 12.10. -/
structure CopyBody where
  src : Nat
  dst : Nat
  seed : Nat
  raw : Bool
  round : Nat
  engines : Nat
  length : Nat
deriving DecidableEq, Repr

def copyBodyOf (e : Nat) : CopyBody :=
  let w := entryWord e 6
  ⟨entryWord e 4, entryWord e 5, bits w 63 32, bit w 8, bits w 7 5, bits w 4 0, entryWord e 7⟩

/-- R247: two ranges meet. -/
def rangesMeet (d : Dev) (a n b m : Nat) : Bool := decide (localAddr d a < localAddr d b + m ∧ localAddr d b < localAddr d a + n)

/-- How one piece fails: its read, then its write. -/
def pieceFails (d : Dev) (src dst : Nat) (p : Piece) : Option Fail :=
  match accessFails d (src + (p.dst - dst)) p.len false with
  | some f => some f
  | none => accessFails d p.dst p.len true

/-- Carry out the pieces of a raw COPY. When any piece fails, which of the others were written is not defined (R249).
(DESIGN CHOICE 10) (DEDUCED 55) -/
def copyPieces (d : Dev) (src dst : Nat) (ps : List (Piece × Nat)) : Dev × Option Fail :=
  let first := ps.findSome? (fun p => pieceFails d src dst p.1)
  match first with
  | some ⟨.remoteData, i⟩ => (d, some ⟨.remoteData, i⟩)
  | _ =>
    let d0 := d
    (ps.foldl (fun d p =>
      match pieceFails d0 src dst p.1 with
      | some _ => engineFailed d p.2
      | none =>
        let (go, d) := match first with | none => (true, d) | some _ => let (f, d) := takeFree d 1; (f == 1, d)
        if go then engineBytes (store (noteAccess d p.1.dst p.1.len) p.1.dst (memRead d0 (src + (p.1.dst - dst)) p.1.len)) p.2 p.1.len else d) d, first)

/-- Run a raw COPY. -/
def runCopyRaw (d : Dev) (c : Ctx) (b : CopyBody) : Res :=
  if b.length = 0 then resStatus d .badParam
  else if !rangeNamed d c.port b.src b.length || !rangeNamed d c.port b.dst b.length
      || rangesMeet d b.src b.length b.dst b.length then resStatus d .badAddress
  else
    let d1 := noteRead d b.src b.length
    match copyPieces d1 b.src b.dst (dealPieces d c b.engines (piecesOf b.dst b.length)) with
    | (d2, some f) => resFail d2 f
    | (d2, none) => resOk d2 0

/-! ### Converting COPY -/

/-- R248: a stored-tensor format other than S768. -/
def copyFmtOk (f : Fmt) : Bool := f != .s768

/-- R248: a descriptor that names a format code which Table 3.1 reserves. -/
def unstoredCode (d : Dev) (port a : Nat) : Bool :=
  match readFor d port a 64 with
  | .error _ => false
  | .ok x => let r := rawDescOf x; r.reservedOk && !r.fmtFromSlot && (fmtOfCode r.fmt).isNone

/-- The byte range of element `i` of a tensor. -/
def elemBytes (d : Dev) (t : Tensor) (i : Nat) : Nat × Nat :=
  let (a, pos, _) := elemPlace d t i
  let b := pos * t.fmt.width
  (a + b / 8, cdiv (b % 8 + t.fmt.width) 8)

/-- The number of the BI8 block of element `i`. -/
def bi8BlockOf (t : Tensor) (i : Nat) : Nat := i / t.raw.ext0 * bi8Per t + i % t.raw.ext0 / 32

/-- The bytes that element `i` is stored in: with its block's scale byte, or its whole BI8 block of `n` slices. -/
def elemRanges (d : Dev) (n : Nat) (t : Tensor) (i : Nat) : List (Nat × Nat) :=
  if t.fmt = .bi8 then
    let b := bi8BlockOf t i
    [(t.raw.base + b * 32 * n, 32 * n), (t.raw.aux + 4 * b, 4)]
  else if t.raw.bound && t.raw.view == .gradient then []
  else elemBytes d t i :: ((elemPlace d t i).2.2.map (fun a => (a, 1))).toList

/-- Slices of a block of a 9-slice tensor that is not extended: 7 slices and two of zeros (R87). -/
def padSlices (n : Nat) (ds : List Int) : List Int := ds ++ List.replicate (n - ds.length) 0

/-- A block of the 32 elements of a BI8 tensor of `n` slices (R85 to R87). -/
def bi8Cut (d : Dev) (n : Nat) (xs : List Val) : SliceBlock :=
  cutBlock (if n = 3 then 3 else 7) (fget d fdrSliceCfgExtMode 0) (xs ++ List.replicate (32 - xs.length) valZero)

/-- Write block `b` of a BI8 tensor (R85 to R87). -/
def writeBi8Block (d : Dev) (t : Tensor) (n b : Nat) (xs : List Val) : Dev :=
  let blk := bi8Cut d n xs
  let eb := match blk.eb with | none => 0x8000 | some e => codeOfInt 16 e
  let hdr := b2n blk.ext * 2 ^ 20 + n * 2 ^ 16 + eb
  let cols := blk.digits.map (padSlices n)
  let bytes := (List.range n).flatMap (fun i => cols.map (fun ds => BitVec.ofNat 8 (codeOfInt 8 (ds.getD i 0))))
  store (store d (t.raw.aux + 4 * b) (leBytes 4 hdr)) (t.raw.base + b * 32 * n) bytes

/-- The blocks of values of a BI8 tensor, by number, in the scale of its slot. -/
def bi8Split (t : Tensor) (vals : List Val) : List (List Val × Nat) :=
  (List.zipIdx (chunksOf t.raw.ext0 (vals.length + 1) vals)).flatMap (fun r =>
    (List.zipIdx (chunksOf 32 (r.1.length + 1) (r.1.map (fun v => valScale v t.e)))).map (fun b => (b.1, r.2 * bi8Per t + b.2)))

/-- The slices of a BI8 tensor that the device writes: 3 for a source of the FP32 class; for FP64 it is 9 when R86 extends
some block and 7 when it extends none. The manual states no rule for the class. (DESIGN CHOICE 89) -/
def bi8Count (d : Dev) (src : Fmt) (blocks : List (List Val × Nat)) : Nat :=
  if src ≠ .fp64 then 3 else if blocks.any (fun b => (bi8Cut d 7 b.1).ext) then 9 else 7

/-- What the conversion of a value into BI8 counts (R79, R80): `x` is the value in the slot's scale, in block `blk`. -/
def bi8Event (n : Nat) (blk : SliceBlock) (x : Val) : ConvEvent :=
  if !valIsFinite x then .nonfinite
  else if sliceLost (if blk.ext then 9 else min n 7) blk.eb x then .underflow else .none

/-- Write the blocks of a BI8 tensor whose elements are all among those to be written, and count those elements. -/
def writeBi8 (d : Dev) (t : Tensor) (n : Nat) (keep : Nat → Bool) (vals : List Val) : Dev × ConvSum :=
  (bi8Split t vals).foldl (fun acc b =>
    if keep b.2 then
      let blk := bi8Cut d n b.1
      (writeBi8Block acc.1 t n b.2 b.1,
       b.1.foldl (fun s x => s.count t.hist t.e (valScale x (-t.e)) (bi8Event n blk x)) acc.2)
    else acc) (d, convSumZero)

/-- The 4 KiB block of the destination that holds element `i` of the target. -/
def elemPiece (d : Dev) (n : Nat) (t : Tensor) (i : Nat) : Nat := (((elemRanges d n t i).head?.map (·.1)).getD 0) / 4096

/-- How the source of element `i`, or its place in the target, fails. (DEDUCED 55) -/
def elemFails (d : Dev) (ns nt : Nat) (s t : Tensor) (i : Nat) : Option Fail :=
  match (elemRanges d ns s i).findSome? (fun r => accessFails d r.1 r.2 false) with
  | some f => some f
  | none => (elemRanges d nt t i).findSome? (fun r => accessFails d r.1 r.2 true)

/-- The pieces of a failing converting COPY: for each whether it fails, and whether one that does not is written, as it may
happen (R249). (DESIGN CHOICE 10) -/
def survivors (d : Dev) (ns nt : Nat) (s t : Tensor) (idx : List Nat) : Dev × List (Nat × Bool × Bool) :=
  ((idx.map (elemPiece d nt t)).eraseDups).foldl (fun (acc : Dev × List (Nat × Bool × Bool)) p =>
    if idx.any (fun i => elemPiece d nt t i == p && (elemFails d ns nt s t i).isSome) then (acc.1, acc.2 ++ [(p, true, false)])
    else
      let (f, d') := takeFree acc.1 1
      (d', acc.2 ++ [(p, false, f == 1)])) (d, [])

/-- All ranges of a tensor, its slice array of `n` slices included. -/
def allRanges (d : Dev) (n : Nat) (t : Tensor) : List (Nat × Nat) := tensorRanges t ++ boundRanges d t ++ bi8RangesOf n t

/-- The peer bytes of a source that have not arrived yet. -/
def remoteFails (d : Dev) (s : Tensor) : Option Fail :=
  match tensorFails d s false with
  | some f => if f.status = .remoteData then some f else none
  | none => none

/-- Run a COPY between descriptors. -/
def runCopyDesc (d : Dev) (c : Ctx) (b : CopyBody) : Res :=
  if b.length ≠ 0 then resStatus d .reservedField
  else if unstoredCode d c.port b.src || unstoredCode d c.port b.dst then resStatus d .badFormat
  else match resolveSource d c.port none b.src, resolve d c.port c.group b.dst with
  | .error f, _ => resFail d f
  | _, .error f => resFail d f
  | .ok s, .ok t =>
    if !copyFmtOk s.fmt || !copyFmtOk t.fmt then resStatus d .badFormat
    else if !sameExtents s.raw t.raw then resStatus d .badShape
    else if !roundOk b.round (some t.fmt) then resStatus d .badRounding
    else if !writableView t then resStatus d .badAddress
    else
      match remoteFails d s with
      | some f => resFail d f
      | none =>
      let idx := List.range t.raw.count
      let vals := idx.map (elemVal d s)
      let ns := bi8Slices d s
      let nt := bi8Count d s.fmt (bi8Split t vals)
      let target : List (Nat × Nat) := allRanges d nt t
      if !target.all (fun p => p.2 == 0 || rangeNamed d c.port p.1 p.2)
          || (allRanges d ns s).any (fun p => target.any (fun q => rangesMeet d p.1 p.2 q.1 q.2)) then resStatus d .badAddress
      else
      let mode := (rmodeOfCode b.round).getD .rne
      let fails := match tensorFails d s false with
        | some f => some f
        | none => target.findSome? (fun (p : Nat × Nat) => accessFails d p.1 p.2 true)
      let dealt : List (Piece × Nat) := dealPieces d c b.engines (piecesOfRanges target)
      let d := noteTensor d s
      let write := fun (d : Dev) (keep : Nat → Bool) =>
        if t.fmt = .bi8 then
          writeBi8 d t nt (fun k => idx.all (fun i => bi8BlockOf t i != k || keep (elemPiece d nt t i))) vals
        else writeVals d mode c.stepTag b.seed t ((idx.zip vals).filter (fun x => keep (elemPiece d nt t x.1)))
      match fails with
      | some f =>
        let (d1, met) := survivors d ns nt s t idx
        let kept := fun (p : Nat) => met.any (fun x => x.1 == p && x.2.2)
        let failed := fun (p : Nat) => met.any (fun x => x.1 == p && x.2.1)
        let (d2, cs) := write (openRanges d1 (target.filter (fun r => kept (r.1 / 4096) && kept ((r.1 + r.2 - 1) / 4096)))) kept
        let d3 := dealt.foldl (fun (d : Dev) (p : Piece × Nat) =>
          if kept (p.1.dst / 4096) then engineBytes d p.2 p.1.len
          else if failed (p.1.dst / 4096) then engineFailed d p.2 else d) d2
        resFail (bookFor d3 c t cs) f
      | none =>
        let (d1, cs) := write (openRanges d target) (fun _ => true)
        let d2 := dealt.foldl (fun (d : Dev) (p : Piece × Nat) => engineBytes d p.2 p.1.len) d1
        resOk (bookFor d2 c t cs) (infoZero.conv cs).code

/-- Run COPY once it has started. -/
def runCopy (d : Dev) (c : Ctx) (e : Nat) : Res :=
  let b := copyBodyOf e
  if b.engines > 16 then resStatus d .badParam
  else if b.raw then runCopyRaw d c b else runCopyDesc d c b

/-! ### MCAST -/

/-- The address of offset `o` in core `i`'s scratch window or its segment of layer `k`; `seg` bytes each. -/
def mcastAddr (target i o : Nat) : Nat :=
  let win := fun k => 0x0001000000000000 + (i / 32) * 2 ^ 32 + ((k - 1) % 2) * 2 ^ 31 + ((k - 1) / 2) * 2 ^ 33
    + i % 32 * 0x3000000 + o
  match target with
  | 0 => 0x0002000000000000 + i * 2 ^ 24 + o
  | 1 => win 2
  | 2 => win 3
  | _ => win 4

def mcastLimit (target : Nat) : Nat := if target = 0 then 2 ^ 24 else 0x3000000

/-- R263: the destination of core `i` is there whole. -/
def mcastBacked (d : Dev) (target i o n : Nat) : Bool :=
  !coreRetired d i && decide (o + n ≤ mcastLimit target)
  && (List.range (n / 512)).all (fun r => backed d (mcastAddr target i (o + 512 * r)))

/-- Run MCAST once it has started. (DEDUCED 16) (DEDUCED 55) -/
def runMcast (d : Dev) (c : Ctx) (e : Nat) : Res :=
  let src := entryWord e 4
  let target := bits (entryWord e 5) 41 40
  let off := bits (entryWord e 5) 39 0
  let cores := (List.range 64).filter (fun i => bit (entryWord e 6) i)
  let n := bits (entryWord e 7) 31 0
  if n = 0 ∨ n % 512 ≠ 0 then resStatus d .badParam
  else if src % 512 ≠ 0 || off % 512 ≠ 0 || !rangeNamed d c.port src n then resStatus d .badAddress
  else if !cores.all (fun i => mcastBacked d target i off n) then resStatus d .resourceUnavailable
  else
    let fails := match accessFails d src n false with
      | some f => some f
      | none => cores.findSome? (fun i => accessFails d (mcastAddr target i off) n true)
    let d1 := noteRead d src n
    match fails with
    | some f => resFail d1 f
    | none =>
      let data := memRead d1 src n
      let deliver := fun (d : Dev) (i : Nat) => store (noteAccess d (mcastAddr target i off) n) (mcastAddr target i off) data
      resOk (cores.foldl deliver d1) 0

/-! ### FENNEL_PUT -/

/-- A Fennel engine has completed `n` transfers (R251). -/
def fennelDone (d : Dev) (die n : Nat) : Dev := cntAdd d fenStatusTransfers die n

/-- The transfers of an internal unit whose number the manual does not give (R251). (DESIGN CHOICE 83) -/
def fennelSome (d : Dev) (die : Nat) : Dev := let (n, d) := takeFree d 16; fennelDone d die n

/-- Run FENNEL_PUT once it has started: the transfer is issued, and lands under R253. (DEDUCED 55) -/
def runFennel (d : Dev) (c : Ctx) (e : Nat) : Res :=
  let h := headerOf e
  let n := fennelLen h
  let dst := entryWord e 3
  if fennelInline h && n > 32 then resStatus d .badParam
  else if !rangeNamed d c.port dst n || (!fennelInline h && !rangeNamed d c.port (entryWord e 4) n) then
    resStatus d .badAddress
  else if fennelInline h then
    resWait { d with fennel := d.fennel ++ [⟨c.ring, c.seq, dst, leBytes n (e / 2 ^ 256)⟩] }
  else
    let fails := accessFails d (entryWord e 4) n false
    let d1 := noteRead d (entryWord e 4) n
    match fails with
    | some f => resFail d1 f
    | none => resWait { d1 with fennel := d1.fennel ++ [⟨c.ring, c.seq, dst, memRead d1 (entryWord e 4) n⟩] }

/-- The oldest transfer of a source, and the rest (R253). -/
def fennelNext (d : Dev) (source : Nat) : Option FennelXfer := d.fennel.find? (fun x => x.source == source)

/-- A transfer lands: its bytes are written, or it fails; the answer says how its command ends. (DEDUCED 55) -/
def fennelLand (d : Dev) (port : Nat) (x : FennelXfer) : Res :=
  let d1 := { d with fennel := d.fennel.erase x }
  match accessFails d1 x.dst x.data.length true with
  | some f => resFail d1 f
  | none => resOk (fennelDone (store (noteAccess d1 x.dst x.data.length) x.dst x.data) port 1) 0

end Sys2Proof.Machine
end

