-- ==== Sys2Proof/Machine/Commands.lean ====
section
/-! DEFINITION. Commands in flight: finding and changing them, the context they run in, how they finish (R336, R357), the
epoch a command joins (R337, R15, R352), and what the device sends over its links (R282, R286, R289, R292). -/
namespace Sys2Proof.Machine

/-! ### Commands in flight -/

def isCmd (ring seq : Nat) (c : Cmd) : Bool := c.ring == ring && c.seq == seq

def findCmd (d : Dev) (ring seq : Nat) : Option Cmd := d.eng.taken.find? (isCmd ring seq)

def updCmd (d : Dev) (ring seq : Nat) (f : Cmd → Cmd) : Dev :=
  { d with eng := { d.eng with taken := listUpdWhere d.eng.taken (isCmd ring seq) f } }

def dropCmd (d : Dev) (ring seq : Nat) : Dev :=
  { d with eng := { d.eng with taken := d.eng.taken.filter (fun c => !isCmd ring seq c) } }

/-- Commands of a ring taken before this one and not completed. -/
def earlierOf (d : Dev) (c : Cmd) : List Cmd :=
  (d.eng.taken.takeWhile (fun x => !isCmd c.ring c.seq x)).filter (fun x => x.ring == c.ring)

def Cmd.header (c : Cmd) : Header := headerOf c.entry
def Cmd.opcode (c : Cmd) : Option Opcode := opcodeOf c.header.opcode
def Cmd.serial (c : Cmd) : Bool := serialising c.entry
def Cmd.collOp (c : Cmd) : Option CollOp :=
  if c.opcode = some .coll then collOpOf (bits (entryWord c.entry 4) 3 0) else none

/-- The group whose epoch the command belongs to. -/
def Cmd.groupOf (c : Cmd) : Option Nat := if c.header.inEpoch && c.stepTag != 0 then some c.header.group else none

def Cmd.ctx (c : Cmd) : Ctx := ⟨c.ring, c.seq, c.port, c.groupOf, c.stepTag, false, !c.fetched.isEmpty⟩

/-- A command is over as far as later commands of its ring ask (R354). -/
def Cmd.ended (c : Cmd) : Bool := c.phase == .finished || c.phase == .signalled

/-- R30: the command needed data that was lost while the epoch of its group was open. -/
def needsLost (d : Dev) (g : Option Nat) (status info : Nat) : Bool :=
  status == Status.unbacked.code && (((g.bind (fun g => d.steps.groups[g]?)).map (·.lost)).getD []).any
    (fun r => decide (r.1 ≤ info ∧ info < r.1 + r.2))

/-- A command finishes: its status and info are fixed, and a failure raises its condition in its epoch (Table 6.5, R30).
(DEDUCED 24) -/
def finishCmd (d : Dev) (ring seq status info : Nat) : Dev :=
  match findCmd d ring seq with
  | none => d
  | some c =>
    let d1 := updCmd d ring seq (fun c => { c with phase := .finished, status := status, info := info, issued := true })
    let cond := if needsLost d c.groupOf status info then some 3
      else statusCond (portState d c.port == 2 || portState d c.port == 3) status
    match c.groupOf, cond with
    | some g, some k => condRaise d1 g k
    | _, _ => d1

def finishWith (d : Dev) (c : Cmd) (s : Status) : Dev := finishCmd d c.ring c.seq s.code 0

/-- A command that has not started completes as aborted; no condition of Table 6.5 comes of it. -/
def Cmd.abort (c : Cmd) : Cmd := { c with phase := .finished, status := Status.aborted.code, info := 0, issued := true }

/-- The commands of a kind that are taken and have not started complete as aborted (R21, R318). -/
def abortTaken (d : Dev) (p : Cmd → Bool) : Dev :=
  { d with eng := { d.eng with taken := d.eng.taken.map (fun c => if p c && c.phase == .waiting then c.abort else c) } }

/-! ### Groups and epochs -/

def groupAt (d : Dev) (g : Nat) : Option Group := d.steps.groups[g]?

def groupPhase (d : Dev) (g : Nat) : EpochPhase := ((groupAt d g).map (·.phase)).getD .idle

def updGroup (d : Dev) (g : Nat) (f : Group → Group) : Dev :=
  { d with steps := { d.steps with groups := listUpd d.steps.groups g f } }

/-- A STEP_OPEN or STEP_CLOSE of group `g` that is taken, not rejected and not completed. -/
def isStepCmd (g : Nat) (c : Cmd) : Bool :=
  (c.opcode == some .stepOpen || c.opcode == some .stepClose) && c.header.group == g && c.status == 0

/-- The latest of them. -/
def lastStepCmd (d : Dev) (g : Nat) : Option Cmd := (d.eng.taken.filter (isStepCmd g)).getLast?

/-- R15, R337: the epoch that a command of group `g` taken now joins. -/
inductive Join where
  | none
  | open
  | pending (ring seq port tag : Nat)
deriving DecidableEq, Repr

def joinOf (d : Dev) (g : Nat) : Join :=
  match lastStepCmd d g with
  | some c =>
    if c.opcode = some .stepOpen then .pending c.ring c.seq c.port (bits (entryWord c.entry 4) 31 0) else .none
  | none => if groupPhase d g = .opened then .open else .none

/-- A group has an open or pending epoch (R15). -/
def epochOpen (d : Dev) (g : Nat) : Bool :=
  groupPhase d g != .idle || d.eng.taken.any (fun c => isStepCmd g c && c.opcode == some .stepOpen)

/-- R15, R164, R96: a group has an open or pending epoch as command `c` sees it; a STEP_OPEN behind `c` in its own ring
cannot start before it and is not counted. -/
def epochOpenFor (d : Dev) (c : Ctx) (g : Nat) : Bool :=
  groupPhase d g != .idle || d.eng.taken.any (fun x =>
    isStepCmd g x && x.opcode == some .stepOpen
    && !(x.ring == c.ring && x.seq != c.seq && decide (serialDiff x.seq c.seq < 2 ^ 31)))

/-! ### What a command has accessed -/

/-- A range joins those that an epoch has accessed. -/
def addRange (rs : List (Nat × Nat)) (r : Nat × Nat) : List (Nat × Nat) := if rs.contains r then rs else rs ++ [r]

/-- The accesses made since the last command go to the epoch of a group, or to none (R30, R239). -/
def touchAcc (d : Dev) (g : Option Nat) : Dev :=
  match g with
  | some g => { updGroup d g (fun x => { x with touched := d.acc.foldl addRange x.touched }) with acc := [] }
  | none => { d with acc := [] }

/-- The body of a command has run from `d0` to `d1`: the command keeps the bytes it changed in this module or a host, and
its epoch what it accessed. -/
def bodyRan (d0 d1 : Dev) (c : Cmd) : Dev :=
  let diff := (smapDiff (d0.mem.length + d1.mem.length) memUnlisted d0.mem d1.mem).filter (fun x => decide (x.1 < 0x6000000000000000))
  touchAcc (updCmd d1 c.ring c.seq (fun c => { c with undo := c.undo ++ diff.map (fun x => (x.1, x.2.1.toNat, x.2.2.toNat)) }))
    c.groupOf

/-! ### Sending over the links -/

/-- Data bytes of a message, for its flits (R282): collective elements at the width of their mode. -/
def payloadBytes (p : Payload) : Nat :=
  match p with
  | .wr _ _ data => data.length
  | .rdResp _ data => data.length
  | .semOp _ _ _ _ => 4
  | .collData c => if c.op = 15 then 20 * c.vals.length else if c.up then c.vals.length * (match c.mode with | 0 => 4 | 1 => 8 | 4 => 8 | _ => 16) else 4096
  | .collSpill _ => 128
  | _ => 0

/-- Flits of a message (R282). (DESIGN CHOICE 28) -/
def flitsOf (p : Payload) : Nat :=
  let n := payloadBytes p
  if n ≤ 224 then 1 else 1 + cdiv (n - 224) 240

/-- The virtual channel of a message (Table 10.3). -/
def vcOf (p : Payload) : Nat :=
  match p with
  | .wr _ _ _ | .rdReq _ _ _ | .semOp _ _ _ _ | .probe _ => 0
  | .rdResp _ _ | .wrAck _ | .semAck _ | .probeResp _ | .errResp _ _ => 1
  | .collData _ | .collSpill _ | .stepMsg _ => 2
  | .linkMgmt _ _ _ => 3

def updLink (d : Dev) (n : Nat) (f : Link → Link) : Dev := { d with fab := { d.fab with links := listUpd d.fab.links n f } }

def linkAt (d : Dev) (n : Nat) : Option Link := d.fab.links[n]?

/-- A message may leave now: the link is up, its channel holds the credits, the replay buffer has room, and no earlier
message of its channel waits. -/
def canSend (d : Dev) (n : Nat) (m : Message) : Bool :=
  match linkAt d n with
  | none => false
  | some l =>
    linkUp d n && decide (flitsOf m.payload ≤ l.credits.getD (vcOf m.payload) 0)
    && decide ((l.txSeq + 2 ^ 16 - 1 - l.txAck) % 2 ^ 16 + flitsOf m.payload ≤ 4096)

/-- The latest ack of a link: the number before the one it expects (R283). -/
def Link.ack (l : Link) : Nat := (l.rxSeq + 2 ^ 16 - 1) % 2 ^ 16

/-- Transmit a message for the first time (R283, R286). (DESIGN CHOICE 28) -/
def transmit (d : Dev) (n : Nat) (m : Message) : Dev :=
  let k := flitsOf m.payload
  let (seq, ack) := ((linkAt d n).map (fun l => (l.txSeq, l.ack))).getD (0, 0)
  let send := fun (l : Link) =>
    let since := if l.replay = [] then d.time else l.ackAt
    let credits := listUpd l.credits (vcOf m.payload) (· - k)
    { l with txSeq := (l.txSeq + k) % 65536, replay := l.replay ++ [⟨l.txSeq, k, 1, m⟩], credits := credits, ackAt := since }
  let d1 := updLink d n send
  emit d1 (.link n seq ack m)

/-- The queue of an output port that a message waits in: STEP_MSG goes before the rest of its channel (R288). -/
def portQueue (p : Payload) : Nat := match p with | .stepMsg _ => 4 | _ => vcOf p

/-- Put a message on link `n`: sent, or waiting its turn. -/
def onLink (d : Dev) (n : Nat) (m : Message) : Dev :=
  let queued := match linkAt d n with
    | some l => l.waiting.any (fun w => portQueue w.payload == portQueue m.payload)
    | none => false
  if !queued && canSend d n m then transmit d n m else updLink d n (fun l => { l with waiting := l.waiting ++ [m] })

/-- The messages of several queues in round-robin, over `n` turns. -/
def takeTurns (n : Nat) (qs : List (List Message)) : List Message :=
  match n with
  | 0 => []
  | k + 1 => qs.filterMap (·.head?) ++ takeTurns k (qs.map (·.tail))

/-- What waits at an output port, in the order in which it is granted: control, STEP_MSG, then the other channels in
round-robin (R288). The model counts whole messages. (DESIGN CHOICE 28) -/
def granted (ms : List Message) : List Message :=
  let q := fun (k : Nat) => ms.filter (fun m => portQueue m.payload == k)
  q 3 ++ q 4 ++ takeTurns ms.length [q 0, q 1, q 2]

/-- Send what waits on a link and can go, each queue in order. -/
def drainLink (d : Dev) (n : Nat) : Dev :=
  match linkAt d n with
  | none => d
  | some l => (granted l.waiting).foldl onLink' (updLink d n (fun l => { l with waiting := [] }))
where
  onLink' (d : Dev) (m : Message) : Dev := onLink d n m

/-- Send a message; false when it has no usable port and is discarded. -/
def sendMsg (d : Dev) (dst : Nat) (p : Payload) : Dev × Bool :=
  match routeOf d dst with
  | some n => (onLink d n ⟨dst, ownId d, p⟩, true)
  | none => (fsat d blErrUnroutable 0 1, false)

/-- Send a message that nobody waits for. -/
def sendQuiet (d : Dev) (dst : Nat) (p : Payload) : Dev := (sendMsg d dst p).1

/-- The tags issued within the last two response timeouts (R293). -/
def recentTags (d : Dev) : List (Nat × Nat) :=
  d.fab.issued.filter (fun x => decide (d.time < x.2 + 2000000 * fget d blE2eCfgRespTimeout 0))

/-- The next request tag that no request in flight uses and that was not issued within two timeouts (R293). -/
def freshTag (d : Dev) : Nat :=
  let recent := recentTags d
  ((List.range (d.fab.reqs.length + recent.length + 1)).map (fun i => (d.fab.nextTag + i) % 65536)).find?
    (fun t => !d.fab.reqs.any (fun r => r.tag == t) && !recent.any (fun x => x.1 == t)) |>.getD d.fab.nextTag

/-- The block that Table 12.18 names for a request of `n` bytes at `a` that fails with 0x2001 to 0x2003: the answer of
R291 names no block, so it is any block of the range. (DESIGN CHOICE 90) -/
def failedBlock (d : Dev) (status a n : Nat) : Nat × Dev :=
  if n = 0 ∨ status < 0x2001 ∨ 0x2003 < status then (0, d)
  else
    let (v, d1) := takeFree d 64
    (64 * (a / 64 + v % ((a + n - 1) / 64 - a / 64 + 1)), d1)

/-- A command after its request failed: its first failure gives the status, and the info of Table 12.18. (DEDUCED 27) -/
def Cmd.fail (c : Cmd) (tag status block : Nat) : Cmd :=
  let kept := c.status ≠ 0 ∨ c.opcode = some .stepClose ∨ c.opcode = some .updBind ∨ c.opcode = some .updUnbind
  { c with outstanding := c.outstanding.erase tag, status := if c.status = 0 then status else c.status,
           info := if kept then c.info else block }

/-- Fail the command that issued a request of `n` bytes at `a`. -/
def failCmd (d : Dev) (ring seq tag status a n : Nat) : Dev :=
  let (block, d1) := failedBlock d status a n
  updCmd d1 ring seq (fun c => c.fail tag status block)

/-- Issue a request of a command to a peer (R291, R292); `mk` makes its payload from the tag. -/
def issueReq (d : Dev) (ring seq peer dest len : Nat) (mk : Nat → Payload) : Dev :=
  let t := freshTag d
  let d1 := { d with fab := { d.fab with
    nextTag := (t + 1) % 65536, issued := smapPut (recentTags d) t d.time, reqs := d.fab.reqs ++ [⟨t, peer, d.time, ring, seq, dest, len⟩] } }
  let d2 := updCmd d1 ring seq (fun c => { c with outstanding := c.outstanding ++ [t] })
  match sendMsg d2 peer (mk t) with
  | (d3, true) => d3
  | (d3, false) =>
    failCmd { d3 with fab := { d3.fab with reqs := d3.fab.reqs.filter (fun r => r.tag != t) } } ring seq t
      Status.unroutable.code dest len

/-- Peer and offset of a device address in a peer window (R290). -/
def peerPlace (a : Nat) : Nat × Nat := (a / 2 ^ 40 % 2 ^ 14, a % 2 ^ 40)

/-- Pieces of at most 4,096 bytes (R282). -/
def msgPieces (a n : Nat) : List (Nat × Nat) :=
  (List.range (cdiv n 4096)).map (fun i => (a + 4096 * i, min 4096 (n - 4096 * i)))

/-- Request the peer bytes that a command needs (R291). -/
def requestReads (d : Dev) (ring seq a n : Nat) : Dev :=
  (msgPieces a n).foldl (fun d p =>
    issueReq d ring seq (peerPlace p.1).1 p.1 p.2 (fun t => .rdReq (peerPlace p.1).2 t p.2)) d

/-- Join neighbouring ranges written in order. -/
def mergeRanges (rs : List (Nat × Nat)) : List (Nat × Nat) :=
  rs.foldl (fun acc r =>
    match acc.getLast? with
    | some l => if r.1 = l.1 + l.2 then acc.dropLast ++ [(l.1, l.2 + r.2)] else if r = l then acc else acc ++ [r]
    | none => [r]) []

/-- Forget the local copies of peer bytes. -/
def dropStaged (d : Dev) : Dev :=
  { d with wrOut := [], rdOk := [], mem := smapDrop (fun a => decide (0x6000000000000000 ≤ a)) d.mem }

/-- Turn the peer bytes that a command has stored into WR requests, and forget the local copy of the peer's bytes. -/
def flushWrites (d : Dev) (ring seq : Nat) : Dev :=
  let outs := mergeRanges d.wrOut
  let d1 := outs.foldl (fun d r =>
    (msgPieces r.1 r.2).foldl (fun d p =>
      let data := (List.range p.2).map (fun i => smapGet d.mem (p.1 + i) memUnlisted)
      issueReq d ring seq (peerPlace p.1).1 p.1 p.2 (fun t => .wr (peerPlace p.1).2 t data)) d) d
  dropStaged d1

/-- Lay the fetched bytes of a command where its body reads them. -/
def stageReads (d : Dev) (c : Cmd) : Dev :=
  c.fetched.foldl (fun d f => { memWrite d f.1 f.2 with rdOk := d.rdOk ++ [(f.1, f.2.length)] }) d

/-! ### Local semaphores -/

/-- Apply a completion signal of a command: locally, or as a SEM_OP (R336, R292). -/
def applySignal (d : Dev) (ring seq : Nat) (s : Sig) (err : Bool) : Dev :=
  let act : SemAct := if err then .errSet s.amount else .add s.amount
  if s.remote && s.peer != ownId d then
    issueReq d ring seq s.peer 0 0 (fun t => .semOp t (if err then 2 else 0) s.sem s.amount)
  else semApply d s.sem act

end Sys2Proof.Machine
end

