-- ==== Sys2Proof/Machine/UpdMath.lean ====
section
/-! DEFINITION. The arithmetic of the update unit on single elements (R171, R172, R175, R176) and the fingerprint over
GF(2^128) (R191). -/
namespace Sys2Proof.Machine

/-! ### Schedule scalars (R171) -/

/-- Pi in FP64. -/
def pi64 : Val := decode64 0x400921FB54442D18

def sub64 (a b : Val) : Val := f64 (valSub a b)
/-- The cosine of R171; of an argument outside what R171 forms its result is open. -/
def cos64 (x : Val) : Val :=
  let pick := (Config.cosFn (BitVec.ofNat 64 (encode64 x))).toNat
  if valIsFinite x && valLe (valAbs x) (valNat 8) then near64 1 pick (realCos x) else decode64 pick

/-- The power of R171. -/
def pow64 (x : Val) (n : Nat) : Val :=
  let pick := (Config.powFn (BitVec.ofNat 64 (encode64 x)) n).toNat
  if valIsFinite x then near64 1 pick (realPow (n.log2 + 1) x n) else decode64 pick

/-- The learning rate of step `t`, each operation in FP64 and the result rounded once to FP32. -/
def scheduleLr (b : Bind) (t : Nat) : Val :=
  let peak := decode32 b.lrPeak
  let low := decode32 b.lrMin
  if t < b.w then f32 (div64 (mul64 peak (valNat (t + 1))) (valNat b.w))
  else
    let f := div64 (valNat (min (t - b.w) (b.t - b.w))) (valNat (b.t - b.w))
    match b.sched with
    | 0 => peak
    | 1 => f32 (add64 low (mul64 (mul64 (decode64 0x3FE0000000000000) (sub64 peak low))
        (add64 (valNat 1) (cos64 (mul64 pi64 f)))))
    | 2 => f32 (sub64 peak (mul64 (sub64 peak low) f))
    | _ => f32 (valMax low (mul64 peak (pow64 (decode32 b.gamma) ((t - b.w) / b.s))))

/-- ih1 and ih2: 1 / (1 - beta^(t + 1)). -/
def scheduleIh (beta t : Nat) : Val := f32 (div64 (valNat 1) (sub64 (valNat 1) (pow64 (decode32 beta) (t + 1))))

/-! ### The element update (R172) -/

/-- The gradient after the per-tensor bound, and whether it was clamped. -/
def updBound (tau : Nat) (g : Val) : Val × Bool :=
  let t := decode32 tau
  if valLt valZero t then
    let g' := valMin (valMax g (valNeg t)) t
    (f32 g', !(valIsNan g) && (valLt g g' || valLt g' g))
  else (g, false)

/-- The gradient as the optimiser uses it: after the clip factor and the coupled decay. -/
def updGrad (b : Bind) (c w g : Val) : Val :=
  let g := if b.clip then mul32 g c else g
  if b.opt ≤ 2 then f32 (valAdd g (valMul (decode32 b.lambda) w)) else g

/-- 1 - x, exactly. -/
def oneMinus (x : Val) : Val := valSub (valNat 1) x

/-- The new first moment before its conversion, exactly. -/
def updM (b : Bind) (m g : Val) : Val :=
  if b.opt = 1 then valAdd (valMul (decode32 b.mu) m) g
  else valAdd (valMul (decode32 b.beta1) m) (valMul (oneMinus (decode32 b.beta1)) g)

/-- The new second moment before its conversion, exactly. -/
def updV (b : Bind) (v g : Val) : Val :=
  valAdd (valMul (decode32 b.beta2) v) (valMul (valMul (oneMinus (decode32 b.beta2)) g) g)

/-- A factored statistic before its conversion: `sq` is the exact sum of the 256 squares with eps1 (R172). -/
def updStat (b : Bind) (r sq : Val) : Val :=
  valAdd (valMul (decode32 b.beta2) r) (valMul (oneMinus (decode32 b.beta2)) (valDiv sq (valNat 256)))

/-- A square root kept to 2,048 bits below the binary point of the scaled number, with a sticky bit: exact for a perfect
square, and on the same side of every FP32 rounding boundary otherwise. -/
def sqrtFine (v : Val) : Val :=
  match v with
  | .fin s n d =>
    if n = 0 then v
    else if s then .nan
    else
      let m := n * d * 2 ^ 4096
      let r := isqrt m
      .fin false (if r * r = m then 2 * r else 2 * r + 1) (d * 2 ^ 2049)
  | .inf s => if s then .nan else .inf false
  | .nan => .nan

/-- a / (sqrt(x) + eps) + z, rounded once to FP32. -/
def ratio32 (a x eps z : Val) : Val := f32 (valAdd (valDiv a (valAdd (sqrtFine x) eps)) z)

/-- The scalars of a shard's ledger. -/
structure UpdScalars where
  lr : Val
  ih1 : Val
  ih2 : Val
deriving DecidableEq, Repr

/-- delta from the stored moments (R172, R173); `v` is v' for Adam and AdamW, and R'[i] * C'[j] / Rm for the factored
optimiser. Plain SGD passes its gradient as `m`. -/
def updDelta (b : Bind) (k : UpdScalars) (w m v : Val) : Val :=
  let lw := valMul (decode32 b.lambda) w
  let d :=
    match b.opt with
    | 0 => m
    | 1 => m
    | 2 => ratio32 (valMul m k.ih1) (valMul v k.ih2) (decode32 b.eps) valZero
    | 3 => f32 (valAdd (ratio32 (valMul m k.ih1) (valMul v k.ih2) (decode32 b.eps) valZero) lw)
    | _ => ratio32 (valMul m k.ih1) (valMul v k.ih2) (decode32 b.eps) lw
  f32 (valNeg (valMul k.lr d))

/-- The exponent of the ulp of a master format at |w| (R175). -/
def ulpExp (f : Fmt) (w : Val) : Int :=
  let m : Int := f.layout.1
  match w with
  | .fin _ n d => if n = 0 then f.emin - m else max (ilog2 n d) f.emin - m
  | _ => f.emin - m

/-- Round to the nearest integer, ties to even. -/
def roundInt (v : Val) : Int :=
  match v with
  | .fin s n d => let k := roundUnits .rne s 0 n d; if s then -(k : Int) else k
  | _ => 0

/-- What the master step gives: the new master's code, the new remainder, whether it overflowed or met a NaN. -/
structure MasterOut where
  code : Nat
  rho : Int
  ovf : Bool
deriving DecidableEq, Repr

/-- The effective weight: w + rho * 2^(u - 15). -/
def effWeight (f : Fmt) (w : Val) (rho : Int) : Val := valAdd w (valDyadic rho (ulpExp f w - 15))

/-- R175: the master step. -/
def updMaster (f : Fmt) (w : Val) (rho : Int) (delta : Val) : MasterOut :=
  match valAdd (effWeight f w rho) delta with
  | .nan => ⟨f.nanCode, 0, true⟩
  | .inf s => ⟨f.satWith s, 0, true⟩
  | .fin s n d =>
    if valLe f.overflowBound (.fin false n d) then ⟨f.satWith s, 0, true⟩
    else
      let code := (f.convert .rne 0 false (.fin s n d)).code
      let w' := f.decode code
      ⟨code, roundInt (valScale (valSub (.fin s n d) w') (15 - ulpExp f w')), false⟩

/-! ### Fingerprint (R191) -/

/-- Multiply by x in GF(2^128) modulo x^128 + x^7 + x^2 + x + 1. -/
def gfDouble (a : Nat) : Nat := if a.testBit 127 then (2 * a) % 2 ^ 128 ^^^ 0x87 else 2 * a

/-- Product in GF(2^128), by the bits of `b` from `k` down. -/
def gfMulAux (a b k acc : Nat) : Nat :=
  match k with
  | 0 => acc
  | j + 1 => gfMulAux a b j (gfDouble acc ^^^ (if b.testBit j then a else 0))

def gfMul (a b : Nat) : Nat := gfMulAux a b 128 0

/-- a^n, by the bits of `n` from `k` down. -/
def gfPowAux (a n k acc : Nat) : Nat :=
  match k with
  | 0 => acc
  | j + 1 => gfPowAux a n j (let s := gfMul acc acc; if n.testBit j then gfMul s a else s)

def gfPow (a n : Nat) : Nat := gfPowAux a n 40 1

/-- The sum of blocks b_1, b_2, … times h^1, h^2, …. -/
def gfSum (h : Nat) (bs : List Nat) : Nat := bs.foldr (fun b acc => gfMul h (b ^^^ acc)) 0

end Sys2Proof.Machine
end

