-- ==== Sys2Proof/Machine/UpdateUnit.lean ====
section
/-! DEFINITION. The update units at work: ledgers and their mirrors (Table 6.7), units of work and their four phases
(R168, R169, R190), the working copies and their scrub (R176, R177), fingerprints of planes (R191), the ledger at the
open of an epoch (R171), roll-forward and interruption (R185 to R190) and the commit (R183, R184). -/
namespace Sys2Proof.Machine

def findShard (d : Dev) (h : Nat) : Option Shard := d.shards.find? (fun s => s.bind.shard == h)

def updShard (d : Dev) (h : Nat) (f : Shard → Shard) : Dev :=
  { d with shards := listUpdWhere d.shards (fun s => s.bind.shard == h) f }

/-! ### The ledger -/

/-- The 96-bit window of an anchored entry, bits below it removed by floor. -/
def packFloor (s : SafEntry) : Nat :=
  match packEntry s with
  | some x => x
  | none =>
    let k := s.v.natAbs.log2 + 1 - 95
    let v := s.v / ((2 ^ k : Nat) : Int) * ((2 ^ k : Nat) : Int)
    (packEntry { s with v := v, floor := true }).getD 0

/-- The 128 bytes of Table 6.7 as a number. -/
def ledgerCode (b : Bind) (l : Ledger) : Nat :=
  let w4 := l.phase * 2 ^ 28 + b2n l.consumed * 2 ^ 27 + b2n l.verdictKnown * 2 ^ 26 + l.verdict * 2 ^ 23
    + l.inactive * 2 ^ 22 + l.segment
  let body := (2 ^ 16 + b.group * 2 ^ 12) + l.seq * 2 ^ 32 + l.stepTag * 2 ^ 64 + b.shard * 2 ^ 96 + w4 * 2 ^ 128
    + l.notApplied * 2 ^ 160 + l.t * 2 ^ 192 + l.lr * 2 ^ 224 + l.ih1 * 2 ^ 256 + l.ih2 * 2 ^ 288 + l.c * 2 ^ 320
    + l.fp * 2 ^ 448 + packFloor l.norm2 * 2 ^ 576
  body + xorWords 31 body * 2 ^ 992

/-- The ledger that 128 bytes of Table 6.7 hold. -/
def ledgerOf (x : Nat) : Ledger :=
  let w := fun (o : Nat) => x / 2 ^ (8 * o) % 2 ^ 32
  { seq := w 0x04, stepTag := w 0x08, phase := bits (w 0x10) 31 28, consumed := bit (w 0x10) 27,
    verdictKnown := bit (w 0x10) 26, verdict := bits (w 0x10) 25 23, inactive := bits (w 0x10) 22 22,
    segment := bits (w 0x10) 11 0, notApplied := w 0x14, t := w 0x18, lr := w 0x1C, ih1 := w 0x20, ih2 := w 0x24,
    c := w 0x28, fp := x / 2 ^ 448 % 2 ^ 128, norm2 := (unpackEntry (x / 2 ^ 576 % 2 ^ 128)).entry }

/-- R185: the copy of the ledger, in L2 or in the mirror, that has a valid check word and the greater seq. -/
def resumedLedger (d : Dev) (s : Shard) : Ledger :=
  let m := memReadNat d s.bind.mirror 128
  if (accessFails d s.bind.mirror 128 false).isNone && xorWords 32 m == 0 && decide (s.ledger.seq < (ledgerOf m).seq) then
    ledgerOf m
  else s.ledger

/-- Write a shard's ledger: its seq advances and the mirror follows. (DEDUCED 36) -/
def putLedger (d : Dev) (h : Nat) (f : Ledger → Ledger) : Dev :=
  match findShard d h with
  | none => d
  | some s =>
    let l := f s.ledger
    let l := { l with seq := (l.seq + 1) % 2 ^ 32 }
    let d1 := updShard d h (fun s => { s with ledger := l })
    store d1 s.bind.mirror (leBytes 128 (ledgerCode s.bind l))

/-! ### Elements and units of work -/

/-- Row and column in the tensor of element `x` of a shard, in tile order (R158). -/
def elemRowCol (b : Bind) (x : Nat) : Nat × Nat :=
  let t := b.firstTile + x / 65536
  let cols := tileCols b.n
  (t / cols * 256 + x % 65536 / 256, t % cols * 256 + x % 256)

/-- The element lies inside the tensor (R159), and its parameter index there (R173). -/
def elemInside (b : Bind) (x : Nat) : Bool := decide ((elemRowCol b x).1 < b.k) && decide ((elemRowCol b x).2 < b.n)
def elemIndex (b : Bind) (x : Nat) : Nat := (elemRowCol b x).1 * b.n + (elemRowCol b x).2

/-- Plain SGD works line by line (R190), every other optimiser segment by segment (R158). -/
def Bind.units (b : Bind) : Nat := if b.opt = 0 then 256 * b.tiles else cdiv b.tiles 4

/-- The elements of unit of work `u`. -/
def Bind.unitElems (b : Bind) (u : Nat) : List Nat :=
  if b.opt = 0 then (List.range 256).map (fun i => 256 * u + i)
  else (List.range (min 4 (b.tiles - 4 * u) * 65536)).map (fun i => 262144 * u + i)

def Bind.unitTiles (b : Bind) (u : Nat) : List Nat := (List.range (min 4 (b.tiles - 4 * u))).map (fun i => 4 * u + i)

/-- The segment that holds a unit of work. -/
def Bind.segmentOf (b : Bind) (u : Nat) : Nat := if b.opt = 0 then u / 1024 else u

/-- A number of `n` bytes in an array of such numbers. -/
def arrGet (d : Dev) (base n i : Nat) : Nat := memReadNat d (base + n * i) n
def arrSet (d : Dev) (base n i v : Nat) : Dev := store d (base + n * i) (leBytes n v)

/-- The fields of element `x` in a plane: master, moments, remainder. -/
def fieldW (d : Dev) (b : Bind) (p x : Nat) : Val := b.masterFmt.decode (arrGet d p b.masterBytes x)
def fieldM (d : Dev) (b : Bind) (p x : Nat) : Val := b.momFmt.decode (arrGet d (p + b.offM) b.momBytes x)
def fieldV (d : Dev) (b : Bind) (p x : Nat) : Val := b.momFmt.decode (arrGet d (p + b.offV) b.momBytes x)
def fieldRho (d : Dev) (b : Bind) (p x : Nat) : Int := signedOf 16 (arrGet d (p + b.offRho) 2 x)
/-- A factored statistic of tile `t`: 256 row values, then 256 column values. -/
def fieldStat (d : Dev) (b : Bind) (p t i : Nat) : Val := decode32 (arrGet d (p + b.offStats) 4 (512 * t + i))

/-- The key in L2 of number `x` of a field of the unit of work in hand (R169): 0 first moments, 1 second moments,
2 factored statistics, 3 remainders. -/
def momKey (field x : Nat) : Nat := field * 2 ^ 40 + x

/-- A code that L2 keeps, or else `plane`: after an interruption the moments are read as written in the inactive plane
(R169, R186). -/
def momGet (s : Shard) (field x plane : Nat) : Nat := match smapGet s.mom (momKey field x) 0 with | 0 => plane | c + 1 => c

/-- The work of one phase on its way: device, moment or master overflows, overflows of copies, clamped elements, the norm
register, and what L2 keeps (R169). -/
structure UpdAcc where
  dev : Dev
  ovf : Nat
  copyOvf : Nat
  clamped : Nat
  norm : SafEntry
  mom : List (Nat × Nat)
deriving DecidableEq, Repr

/-- Add an exact non-negative value into the anchored norm register (R121, R178). -/
def normAdd (s : SafEntry) (v : Val) : SafEntry :=
  match v with
  | .fin g n d => if n = 0 then s else (safAddAnchored s (valLog2 v) (signedNum g n) (-(d.log2 : Int))).1
  | w => safAddSpecial s (specialOfVal w)

/-- The reduced gradient of element `x`, its scale removed and rounded once to FP32 (R172). -/
def gradOf (d : Dev) (s : Shard) (x : Nat) : Val :=
  let code := smapGet s.staged x 1 - 1
  let f := (fmtOfCode (slotFmt d s.bind.gslot)).getD .bf16
  if elemInside s.bind x then f32 (valScale (f.decode code) (-(slotExp d s.bind.gslot))) else valZero

/-- The bounded gradient of element `x` and the gradient the optimiser uses. -/
def gradPair (d : Dev) (s : Shard) (committed x : Nat) : Val × Bool × Val :=
  let (g1, cl) := updBound s.bind.tau (gradOf d s x)
  (g1, cl, if elemInside s.bind x then updGrad s.bind (decode32 s.ledger.c) (fieldW d s.bind committed x) g1 else valZero)

/-- Count one consumed gradient element: clamping, and g squared of a shard that takes part in clipping (R178). -/
def UpdAcc.consume (a : UpdAcc) (s : Shard) (x : Nat) (g : Val) (cl : Bool) : UpdAcc :=
  { a with clamped := a.clamped + b2n (cl && elemInside s.bind x),
           norm := if s.bind.clip && elemInside s.bind x then normAdd a.norm (valMul g g) else a.norm }

/-- The conversion of a moment (R172 to R174). -/
def momConvert (s : Shard) (x : Nat) (v : Val) : ConvResult :=
  let mode : RMode := if s.bind.mround then .sr8 else .rne
  s.bind.momFmt.convert mode (sr8Bits s.ledger.stepTag s.bind.seed 0 (elemIndex s.bind x)) false v

/-- Keep a code in L2. -/
def UpdAcc.keep (a : UpdAcc) (field x code : Nat) : UpdAcc := { a with mom := smapPut a.mom (momKey field x) (code + 1) }

def evOvf (e : ConvEvent) : Nat := if e = .overflow ∨ e = .nonfinite then 1 else 0

/-- Write the new moments of element `x` into plane `q` from the committed plane `p`. -/
def momentElem (s : Shard) (p q : Nat) (a : UpdAcc) (x : Nat) : UpdAcc :=
  let b := s.bind
  if !elemInside b x then
    let d1 := arrSet a.dev (q + b.offM) b.momBytes x 0
    { a with dev := if b.hasV then arrSet d1 (q + b.offV) b.momBytes x 0 else d1 }
  else
    let (g1, cl, g) := gradPair a.dev s p x
    let a := a.consume s x g1 cl
    let m := momConvert s x (updM b (fieldM a.dev b p x) g)
    let a := { a.keep 0 x m.code with dev := arrSet a.dev (q + b.offM) b.momBytes x m.code, ovf := a.ovf + evOvf m.event }
    if b.hasV then
      let v := momConvert s x (updV b (fieldV a.dev b p x) g)
      { a.keep 1 x v.code with dev := arrSet a.dev (q + b.offV) b.momBytes x v.code, ovf := a.ovf + evOvf v.event }
    else a

/-- Write the factored statistics of tile `t` (R172). Elements of an edge tile outside the tensor enter the means with a
gradient of zero, and the means divide by 256 (DESIGN CHOICE 84). -/
def statTile (s : Shard) (p q : Nat) (a : UpdAcc) (t : Nat) : UpdAcc :=
  let b := s.bind
  let sq := fun i j =>
    let g := (gradPair a.dev s p (65536 * t + 256 * i + j)).2.2
    valAdd (valMul g g) (decode32 b.eps1)
  let sum := fun (f : Nat → Val) => (List.range 256).foldl (fun v i => valAdd v (f i)) valZero
  let put := fun (a : UpdAcc) (i : Nat) (v : Val) =>
    let r := Fmt.fp32.convert .rne 0 false v
    { a.keep 2 (512 * t + i) r.code with
      dev := arrSet a.dev (q + b.offStats) 4 (512 * t + i) r.code, ovf := a.ovf + evOvf r.event }
  let rows := (List.range 256).map (fun i => updStat b (fieldStat a.dev b p t i) (sum (fun j => sq i j)))
  let cols := (List.range 256).map (fun j => updStat b (fieldStat a.dev b p t (256 + j)) (sum (fun i => sq i j)))
  (List.zipIdx (rows ++ cols)).foldl (fun a v => put a v.2 v.1) a

/-- What stands for v' in the factored optimiser: R'[i] * C'[j] / Rm, from the new statistics in their stored format. -/
def factorV (d : Dev) (s : Shard) (q x : Nat) : Val :=
  let t := x / 65536
  let stat := fun (i : Nat) => decode32 (momGet s 2 (512 * t + i) (arrGet d (q + s.bind.offStats) 4 (512 * t + i)))
  let rm := f32 (valDiv ((List.range 256).foldl (fun v i => valAdd v (stat i)) valZero) (valNat 256))
  valDiv (valMul (stat (x % 65536 / 256)) (stat (256 + x % 256))) rm

/-- The new moments of element `x` as phase 2 takes them (R169, R173). -/
def newM (d : Dev) (s : Shard) (q x : Nat) : Val :=
  s.bind.momFmt.decode (momGet s 0 x (arrGet d (q + s.bind.offM) s.bind.momBytes x))
def newV (d : Dev) (s : Shard) (q x : Nat) : Val :=
  s.bind.momFmt.decode (momGet s 1 x (arrGet d (q + s.bind.offV) s.bind.momBytes x))

/-- The master step of element `x` (R173, R175), from the committed plane `p` and the new moments of plane `q`. -/
def masterElem (d : Dev) (s : Shard) (p q x : Nat) : MasterOut :=
  let b := s.bind
  if !elemInside b x then ⟨0, 0, false⟩
  else
    let k : UpdScalars := ⟨decode32 s.ledger.lr, decode32 s.ledger.ih1, decode32 s.ledger.ih2⟩
    let w := fieldW d b p x
    let m := if b.opt = 0 then (gradPair d s p x).2.2 else newM d s q x
    let v := if b.opt = 4 then factorV d s q x else if b.hasV then newV d s q x else valZero
    updMaster b.masterFmt w (fieldRho d b p x) (updDelta b k w m v)

/-! ### Working copies (R176) -/

/-- The codes of one block of 32 copy elements, its scale byte, and how many conversions overflowed. -/
def copyBlock (b : Bind) (ws : List Val) : List Nat × Nat × Nat :=
  let byte := if b.copyFp8 then blockChoose .fp8E4M3 .rne (ws.map (fun w => (w, 0))) else 0
  let rs := ws.map (fun w =>
    b.copyFmt.convert .rne 0 b.copyFp8 (if b.copyFp8 then valScale w (-(blockExp byte)) else w))
  (rs.map (·.code), byte, rs.foldl (fun n r => n + evOvf r.event) 0)

/-- Where a copy field starts, and the master element that copy element `i` comes from: its own, or the one with row and
column of the tile exchanged (R162). -/
def copySource (trans : Bool) (i : Nat) : Nat :=
  if trans then i / 65536 * 65536 + i % 256 * 256 + i % 65536 / 256 else i

/-- Derive block `k` (32 elements) of a copy of plane `q`. -/
def putCopyBlock (s : Shard) (trans : Bool) (q : Nat) (a : UpdAcc) (k : Nat) : UpdAcc :=
  let b := s.bind
  let off := q + (if trans then b.offTrans else b.offFwd)
  let (codes, byte, n) := copyBlock b ((List.range 32).map (fun i => fieldW a.dev b q (copySource trans (32 * k + i))))
  let bytes := if b.copyFp8 then 1 else 2
  let d1 := (List.zipIdx codes).foldl (fun d c => arrSet d off bytes (32 * k + c.2) c.1) a.dev
  { a with dev := if b.copyFp8 then arrSet d1 (off + b.params) 1 k byte else d1, copyOvf := a.copyOvf + n }

/-- Derive the copies of the elements `xs`, given by their blocks: forward, then transposed. The transposed copy of a
line is complete once its tile is, so it is derived when the last line of a tile is in hand. -/
def putCopies (s : Shard) (q : Nat) (a : UpdAcc) (blocks : List Nat) (byLine : Bool) : UpdAcc :=
  let a1 := blocks.foldl (putCopyBlock s false q) a
  if !s.bind.transposed then a1
  else if byLine then
    (blocks.filter (fun k => k % 2048 == 2047)).foldl (fun a k =>
      (List.range 2048).foldl (fun a i => putCopyBlock s true q a (k / 2048 * 2048 + i)) a) a1
  else blocks.foldl (putCopyBlock s true q) a1

def Bind.unitBlocks (b : Bind) (u : Nat) : List Nat :=
  if b.opt = 0 then (List.range 8).map (fun i => 8 * u + i)
  else (List.range (min 4 (b.tiles - 4 * u) * 2048)).map (fun i => 8192 * u + i)

/-! ### Fingerprints (R191) -/

/-- The bytes of line `l` that the fingerprint covers. -/
def lineBytes (d : Dev) (b : Bind) (p l : Nat) : List Byte :=
  let part := fun off n => memRead d (p + off + 256 * n * l) (256 * n)
  part 0 b.masterBytes
  ++ (if b.hasM then part b.offM b.momBytes else [])
  ++ (if b.hasV then part b.offV b.momBytes else [])
  ++ (if b.hasStats && l % 256 == 0 then memRead d (p + b.offStats + 2048 * (l / 256)) 2048 else [])
  ++ part b.offRho 2

/-- J: blocks of 16 bytes per line, of the longest line. -/
def Bind.lineBlocks (b : Bind) : Nat :=
  16 * (b.masterBytes + (if b.hasM then b.momBytes else 0) + (if b.hasV then b.momBytes else 0) + 2)
  + (if b.hasStats then 128 else 0)

/-- Bytes as blocks of 16, the last one zero-padded. -/
def blocks16 (fuel : Nat) (bs : List Byte) : List Nat :=
  match fuel with
  | 0 => []
  | f + 1 => if bs.isEmpty then [] else leNat (bs.take 16) :: blocks16 f (bs.drop 16)

/-- The terms of lines `ls` in the fingerprint of plane `p`. -/
def fpLines (d : Dev) (b : Bind) (p : Nat) (ls : List Nat) : Nat :=
  let h := fget d updFpKeyH 0
  ls.foldl (fun acc l =>
    acc ^^^ gfMul (gfPow h (b.lineBlocks * l)) (gfSum h (blocks16 (b.lineBlocks + 1) (lineBytes d b p l)))) 0

/-- The fingerprint of a plane. (DESIGN CHOICE 58) -/
def fpPlane (d : Dev) (b : Bind) (p : Nat) : Nat := fpLines d b p (List.range (256 * b.tiles))

/-- The fingerprint of 1 MiB region `r` of a plane (R193), its bytes taken as blocks in address order. -/
def fpRegion (d : Dev) (b : Bind) (p r : Nat) : Nat :=
  let n := min 1048576 (b.planeSize - 1048576 * r)
  gfSum (fget d updFpKeyH 0) (blocks16 65537 (memRead d (p + 1048576 * r) n))

def Bind.unitLines (b : Bind) (u : Nat) : List Nat :=
  if b.opt = 0 then [u] else (List.range (min 4 (b.tiles - 4 * u) * 256)).map (fun i => 1024 * u + i)

/-! ### Phases (R168) -/

/-- The planes of a shard: committed and inactive base. -/
def planeBase (s : Shard) (committed : Bool) : Nat :=
  s.bind.plane (if committed then 1 - s.ledger.inactive else s.ledger.inactive)

/-- A unit of work of the shard is in flight: one of its four phases is (R168). -/
def Shard.inFlight (s : Shard) : Bool := decide (1 ≤ s.ph ∧ s.ph ≤ 4)

/-- The shards of an update unit, and those with work in flight. -/
def unitShards (d : Dev) (u : Nat) : List Shard := d.shards.filter (fun s => s.bind.unit == u)
def unitBusy (d : Dev) (u : Nat) : List Shard := (unitShards d u).filter (·.inFlight)

/-- The one of two shards whose work in flight began first. -/
def olderOf (a b : Shard) : Shard := if b.order < a.order then b else a

/-- UPD_UNIT_STATUS of unit `u` after a change: the phase is that of the oldest work in flight. -/
def unitStatus (d : Dev) (u : Nat) : Dev :=
  let busy := unitBusy d u
  let oldest := busy.head?.map (fun s => busy.foldl olderOf s)
  fset (fset (fset d updUnitStatusShards u (unitShards d u).length) updUnitStatusBusy u (b2n (!busy.isEmpty)))
    updUnitStatusPhase u ((oldest.map (·.ph)).getD 0)

/-- Book what a phase raised: UPD_UNIT_OVF with the overflow condition (R174, R175), the condition alone for a copy (R79),
clamped elements, the norm, and what L2 keeps. -/
def bookUpd (a : UpdAcc) (s : Shard) : Dev :=
  let d1 := fsat (fsat a.dev updUnitOvfSat s.bind.unit a.ovf) updUnitClampClamped s.bind.unit a.clamped
  let d2 := if a.ovf + a.copyOvf = 0 then d1 else condRaise d1 s.bind.group 1
  updShard d2 s.bind.shard (fun s => { s with ledger := { s.ledger with norm2 := a.norm }, mom := a.mom })

/-- The ranges of the committed plane that a unit of work reads. -/
def unitRanges (s : Shard) (u : Nat) : List (Nat × Nat) :=
  let b := s.bind
  let p := planeBase s true
  let x0 := if b.opt = 0 then 256 * u else 262144 * u
  let n := if b.opt = 0 then 256 else min 4 (b.tiles - 4 * u) * 65536
  let atField := fun off w => (p + off + w * x0, w * n)
  [atField 0 b.masterBytes] ++ (if b.hasM then [atField b.offM b.momBytes] else [])
    ++ (if b.hasV then [atField b.offV b.momBytes] else [])
    ++ (if b.hasStats then [(p + b.offStats + 2048 * (x0 / 65536), 2048 * (n / 65536))] else []) ++ [atField b.offRho 2]

/-- The first uncorrectable block of the committed fields of a unit of work. -/
def unitFails (d : Dev) (s : Shard) (u : Nat) : Option Fail :=
  (unitRanges s u).findSome? (fun r => accessFails d r.1 r.2 false)

/-- The unit reads ranges for a shard: errors are counted (R230), and the shard's epoch has touched the ranges (R239). -/
def unitRead (d : Dev) (s : Shard) (rs : List (Nat × Nat)) : Dev :=
  let d1 := { noteRanges d rs with acc := d.acc }
  { d1 with steps := { d1.steps with groups := listUpd d1.steps.groups s.bind.group (fun g => { g with touched := g.touched ++ rs }) } }

/-- Every gradient element of a unit of work has arrived. -/
def unitStaged (s : Shard) (u : Nat) : Bool :=
  (s.bind.unitElems u).all (fun x => !elemInside s.bind x || smapHas s.staged x)

/-- A shard found unable to go on: the epoch raises UNCORRECTABLE (Table 6.5) and the shard does nothing more. -/
def shardUnable (d : Dev) (s : Shard) : Dev :=
  let d1 := condRaise d s.bind.group 3
  unitStatus (updShard d1 s.bind.shard (fun s => { s with unable := true, ph := 5 })) s.bind.unit

/-- Issue the writes of phase `ph` of the shard's unit of work, and record the phase. A line of plain SGD that is completed
on resume (`again`) has been counted (R190). (DEDUCED 36) -/
def issuePhase (d : Dev) (s : Shard) (ph : Nat) (again : Bool) : Dev :=
  let b := s.bind
  let p := planeBase s true
  let q := planeBase s false
  let xs := b.unitElems s.unitNo
  let a0 : UpdAcc := ⟨d, 0, 0, 0, s.ledger.norm2, s.mom⟩
  let a :=
    match ph with
    | 1 =>
      let a1 := if b.opt = 4 then (b.unitTiles s.unitNo).foldl (statTile s p q) a0 else a0
      xs.foldl (momentElem s p q) a1
    | 2 =>
      let a1 := if b.opt = 0 && !again then xs.foldl (fun a x =>
          let (g, cl, _) := gradPair a.dev s p x
          a.consume s x g cl) a0 else a0
      xs.foldl (fun a x =>
        let r := masterElem a.dev s p q x
        { a.keep 3 x (codeOfInt 16 r.rho) with dev := arrSet a.dev q b.masterBytes x r.code, ovf := a.ovf + b2n r.ovf }) a1
    | 3 =>
      let a1 := xs.foldl (fun a x => { a with dev := arrSet a.dev (q + b.offRho) 2 x (momGet s 3 x 0) }) a0
      { a1 with mom := [] }
    | _ => putCopies s q a0 (b.unitBlocks s.unitNo) (b.opt == 0)
  let d1 := bookUpd a s
  let d2 := if ph = 2 then fwrap d1 updUnitParamsParams b.unit xs.length else d1
  let d3 := updShard d2 b.shard (fun s => { s with ph := ph })
  unitStatus (putLedger d3 b.shard (fun l => { l with phase := ph, segment := b.segmentOf s.unitNo })) b.unit

/-- A stack holds part of the planes or the ledger mirror of a shard (R185). -/
def shardOnStack (d : Dev) (s : Shard) (st : Nat) : Bool :=
  let b := s.bind
  let meets := fun (a n : Nat) => (List.range (n / 4096 + 1)).any (fun i => (dramPlace d (a + min (4096 * i) (n - 1))).1 == st)
  meets b.planeA b.planeSize || meets b.planeB b.planeSize || meets b.mirror 128

/-- A unit's work stands still: its die or a stack that it needs is under reset. -/
def unitHalted (d : Dev) (s : Shard) : Bool :=
  inReset d 2 (s.bind.unit / 4) || d.resets.any (fun r => r.kind == 3 && shardOnStack d s r.unit)

/-- Lines of the inactive plane whose gradient never arrived become copies of the committed plane (R190). -/
def copyLine (s : Shard) (p q : Nat) (d : Dev) (l : Nat) : Dev :=
  let b := s.bind
  let cp := fun (d : Dev) off n => store d (q + off + 256 * n * l) (memRead d (p + off + 256 * n * l) (256 * n))
  cp (cp d 0 b.masterBytes) b.offRho 2

/-- R190: finish a plain SGD shard whose remaining gradient was lost. -/
def finishSgd (d : Dev) (s : Shard) : Dev :=
  let b := s.bind
  let p := planeBase s true
  let q := planeBase s false
  let rest := (List.range b.units).filter (fun u => decide (s.unitNo ≤ u))
  let d1 := rest.foldl (copyLine s p q) d
  let a := putCopies s q ⟨d1, 0, 0, 0, s.ledger.norm2, []⟩ (rest.flatMap b.unitBlocks) (b.opt == 0)
  let d2 := fwrap (bookUpd a s) updUnitParamsParams b.unit (256 * rest.length)
  let fp := fpLines d2 b q rest
  let d3 := updShard d2 b.shard (fun s => { s with ph := 5, unitNo := b.units, staged := [] })
  putLedger d3 b.shard (fun l =>
    { l with phase := 5, consumed := true, fp := l.fp ^^^ fp, notApplied := l.notApplied + rest.length })

/-- R168: the update unit can begin work that starts with phase `ph`: fewer than two segments are in flight, and phase 1 of
at most one of them runs. -/
def unitRoom (d : Dev) (u ph : Nat) : Bool :=
  decide ((unitBusy d u).length < 2) && (ph != 1 || !(unitBusy d u).any (fun s => s.ph == 1))

/-- The number that follows those of the work in flight in an update unit. -/
def nextOrder (d : Dev) (u : Nat) : Nat := (unitBusy d u).foldl (fun n s => max n (s.order + 1)) 0

/-- The shard may begin its next unit of work as far as it itself goes: it has one, waits for nothing but its gradient, and
its unit works. -/
def unitPending (d : Dev) (s : Shard) : Bool :=
  s.ph == 0 && !unitHalted d s && !s.unable && !s.interrupted && !s.bind.frozen && decide (s.unitNo < s.bind.units)

/-- Start the next unit of work of a shard when its gradient is there and its update unit has room (R168, R190). The
lines that a cut left without a gradient become copies (R190). -/
def startUnit (d : Dev) (h : Nat) : Dev :=
  match findShard d h with
  | none => d
  | some s =>
    let ph := if s.bind.opt = 0 then 2 else 1
    if !unitPending d s then d
    else if !unitStaged s s.unitNo then (if s.bind.opt = 0 && s.cut then unitStatus (finishSgd d s) s.bind.unit else d)
    else if !unitRoom d s.bind.unit ph then d
    else if (unitFails d s s.unitNo).isSome then shardUnable (unitRead d s (unitRanges s s.unitNo)) s
    else
      let order := nextOrder d s.bind.unit
      let d1 := updShard (unitRead d s (unitRanges s s.unitNo)) h (fun s => { s with order := order })
      issuePhase d1 s ph false

/-- The shards of an update unit go on as far as there is room, in the order of their binds. -/
def wakeUnit (d : Dev) (u : Nat) : Dev := (unitShards d u).foldl (fun d s => startUnit d s.bind.shard) d

/-- Fold a finished unit of work into the ledger's fingerprint and go on, or reach phase 5. (DEDUCED 36) -/
def finishUnit (d : Dev) (s : Shard) : Dev :=
  let b := s.bind
  let fp := fpLines d b (planeBase s false) (b.unitLines s.unitNo)
  let last := decide (b.units ≤ s.unitNo + 1)
  let done := b.unitElems s.unitNo
  let clear := fun (s : Shard) => { s with unitNo := s.unitNo + 1, ph := if last then 5 else 0,
                                           staged := s.staged.filter (fun e => !done.contains e.1) }
  let d1 := putLedger (updShard d b.shard clear) b.shard (fun l =>
    { l with fp := l.fp ^^^ fp, phase := if last then 5 else l.phase, consumed := l.consumed || last })
  let d2 := if last && s.cut && b.opt != 0 then fsat d1 updUnitEventsRollfwd b.unit 1 else d1
  wakeUnit (unitStatus d2 b.unit) b.unit

/-- R168: every write of the phase in flight is acknowledged. (DEDUCED 36) -/
def phaseDone (d : Dev) (h : Nat) : Dev :=
  match findShard d h with
  | none => d
  | some s =>
    if unitHalted d s then d
    else match s.ph with
    | 1 =>
      let last := decide (s.bind.units ≤ s.unitNo + 1)
      let d1 := if last then putLedger d h (fun l => { l with consumed := true }) else d
      (match findShard d1 h with | some s1 => wakeUnit (issuePhase d1 s1 2 false) s.bind.unit | none => d1)
    | 2 => issuePhase d s 3 false
    | 3 => issuePhase d s 4 false
    | 4 => finishUnit d s
    | _ => d

/-- R167: deliver the reduced code of an element of a shard. Gradient that comes while the unit stands still, or after a
cut, is lost with the cut (R187, R190). (DEDUCED 36) -/
def deliverGrad (d : Dev) (h x code : Nat) : Dev :=
  match findShard d h with
  | none => d
  | some s =>
    if unitHalted d s || s.cut || s.interrupted then d
    else updShard d h (fun s => { s with staged := smapPut s.staged x (code + 1) })

/-- The COLL that delivers to a shard has failed: no more gradient comes. A shard that has consumed nothing may have
another one (R167). -/
def deliveryFailed (d : Dev) (h : Nat) : Dev := updShard d h (fun s => { s with delivered := false })

/-- A COLL of this epoch delivers, or has delivered, gradient to the shard (R167). -/
def Shard.receiving (s : Shard) : Bool := s.delivered || !s.staged.isEmpty || s.unitNo != 0 || s.ph != 0

/-! ### Open, interruption and close -/

/-- The ledger of a shard at the open of epoch `tag` (R171), with the clip factor of its group. -/
def openShard (tag c : Nat) (d : Dev) (h : Nat) : Dev :=
  match findShard d h with
  | none => d
  | some s =>
    let b := s.bind
    let r := readCommit d b
    let t := (r.map (·.count)).getD 0
    let inactive := 1 - (r.map (·.plane)).getD 0
    let ih := fun beta => if b.opt ≥ 2 then encode32 (scheduleIh beta t) else 0
    let l : Ledger := { s.ledger with
      stepTag := tag, phase := 0, consumed := false, verdictKnown := false, verdict := 0, inactive := inactive,
      segment := 0, notApplied := 0, t := t, lr := encode32 (scheduleLr b t), ih1 := ih b.beta1, ih2 := ih b.beta2,
      c := c, fp := 0, norm2 := safAnchored }
    let reset := fun (s : Shard) => { s with
      ledger := l, delivered := false, staged := [], unitNo := 0, ph := 0, interrupted := false, unable := r.isNone,
      mom := [], order := 0, cut := false }
    putLedger (updShard d h reset) h id

/-- The shard has nothing more to do before the verdict (R181, steps 1 and 2). -/
def shardSettled (s : Shard) : Bool := s.bind.frozen || s.ph == 5 || s.interrupted || s.unable || (!s.delivered && s.ph == 0)

/-- The shard raises the interrupted condition and is skipped at close (R187). (DEDUCED 36) -/
def interruptShard (d : Dev) (s : Shard) : Dev :=
  let d1 := condRaise d s.bind.group 6
  let d2 := updShard d1 s.bind.shard (fun s => { s with interrupted := true, ph := 5 })
  unitStatus (fsat d2 updUnitEventsInterrupted s.bind.unit 1) s.bind.unit

/-- The epoch of the shard's group was open when the cut began at `t0`: the unit had its work on the shard before it.
(DEDUCED 36) -/
def openAtCut (d : Dev) (s : Shard) (t0 : Nat) : Bool :=
  match groupAt d s.bind.group with
  | some g => (g.phase == .opened || g.phase == .closing) && decide (g.openedAt ≤ t0)
  | none => false

/-- R185 to R190: what a shard in an open epoch does when its unit resumes after a cut that began at `t0`, from the ledger
copy of R185. A shard with moments that had consumed nothing is interrupted, its gradient delivered or still to come
(R187); one that had consumed its gradient repeats phases 2 to 4 from the recorded segment (R186). A plain SGD shard
completes its staged lines, and the others become copies (R190). (DEDUCED 36) -/
def resumeShard (t0 : Nat) (d : Dev) (h : Nat) : Dev :=
  match findShard d h with
  | none => d
  | some s =>
    if s.bind.frozen || decide (s.ph = 5) || s.interrupted || s.unable || unitHalted d s
        || (!s.delivered && (s.bind.opt == 0 || !openAtCut d s t0)) then d
    else
      let l := resumedLedger d s
      let unit := if s.bind.opt = 0 then s.unitNo else l.segment
      let again := fun (x : Shard) => { x with ledger := l, mom := [], cut := true, unitNo := unit }
      let d1 := updShard d h again
      let s1 := again s
      if s.bind.opt = 0 then
        let rest := (List.range s.bind.units).filter (fun u => decide (s.unitNo ≤ u))
        if s.bind.strict && !rest.all (unitStaged s) then interruptShard d1 s1
        else if s.ph = 0 then d1 else issuePhase d1 s1 2 true
      else if l.consumed then issuePhase d1 s1 2 true
      else interruptShard d1 s1

/-- The units of resumed shards take up what waits. -/
def wakeUnits (d : Dev) : Dev := (List.range 8).foldl wakeUnit d

/-- The write of a commit record of the shard stands still: its unit's die, or a stack that holds a copy, is under reset
(R189, R241). -/
def commitHalted (d : Dev) (s : Shard) : Bool :=
  inReset d 2 (s.bind.unit / 4) || [s.bind.cr0, s.bind.cr1].any (fun a => resetMet d (localAddr d a) == some .resetWait)

/-- Write both copies of a commit record; the answer says whether at least one landed (R183). -/
def writeCommit (d : Dev) (b : Bind) (r : CommitRec) : Dev × Bool :=
  let put := fun (d : Dev) a =>
    if (accessFails d a 64 true).isSome then (d, false) else (store d a (leBytes 64 r.code), true)
  let (d1, ok0) := put d b.cr0
  let (d2, ok1) := put d1 b.cr1
  (d2, ok0 || ok1)

/-- R183, R184, R188: what the verdict leaves of a shard's commit record. The record of a frozen shard never flips; an
interrupted step leaves every record as it was. The answer says whether the record could be written. -/
def commitShard (tag mask verdict : Nat) (d : Dev) (h : Nat) : Dev × Bool :=
  match findShard d h with
  | none => (d, true)
  | some s =>
    let flips := verdict == 0 && !s.bind.frozen && !s.interrupted && !s.unable && s.ph == 5
    let skip := fun (d : Dev) => putLedger d h (fun l => { l with phase := 7, verdictKnown := true, verdict := verdict })
    if verdict = 6 then (skip d, true)
    else match readCommit d s.bind with
      | none => (skip d, false)
      | some r =>
        let r1 : CommitRec :=
          if flips then
            { r with plane := s.ledger.inactive, tag := tag, commitTag := tag, count := (r.count + 1) % 2 ^ 32,
                     mask := mask, verdict := verdict, notApplied := s.ledger.notApplied, fp := s.ledger.fp }
          else { r with tag := tag, mask := mask, verdict := verdict }
        let (d1, ok) := writeCommit d s.bind r1
        if !ok then (skip d1, false)
        else if flips then
          (updShard (putLedger d1 h (fun l => { l with phase := 6, verdictKnown := true, verdict := verdict })) h
            (fun s => { s with fpAsked := false, scrubLine := 0 }), true)
        else (skip d1, true)

/-! ### Copy scrub (R177) -/

/-- Derive line `l` of one copy of the committed plane `p` again: a line that differs is rewritten, counted and told. -/
def scrubCopy (s : Shard) (p l : Nat) (trans : Bool) (d : Dev) : Dev :=
  let blocks := (List.range 8).map (fun i => 8 * l + i)
  let a := blocks.foldl (putCopyBlock s trans p) ⟨d, 0, 0, 0, safAnchored, []⟩
  if a.dev.mem = d.mem then d
  else nutmeg (fsat a.dev updUnitScrubFixed s.bind.unit 1)
    ⟨0x09, 1, 2, unitId 0x0E s.bind.shard, s.bind.group, 0, s.bind.shard * 2 ^ 33 + b2n trans * 2 ^ 32 + l⟩

/-- Compare the copies of the scrub's line with what the committed master gives, rewrite those that differ, and go to the
next line. -/
def scrubShard (d : Dev) (h : Nat) : Dev :=
  match findShard d h with
  | none => d
  | some s =>
    let p := s.bind.plane (committedPlane d s)
    let d0 := scrubCopy s p s.scrubLine false d
    let d1 := if s.bind.transposed then scrubCopy s p s.scrubLine true d0 else d0
    let last := decide (s.scrubLine + 1 ≥ 256 * s.bind.tiles)
    let d2 := if last then fwrap d1 updUnitScrubPasses s.bind.unit 1 else d1
    updShard d2 h (fun s => { s with scrubLine := if last then 0 else s.scrubLine + 1 })

end Sys2Proof.Machine
end

