-- ==== Sys2Proof/Machine/Update.lean ====
section
/-! DEFINITION. Binding and detaching shards (Table 12.15, R140, R143, R159, R160, R164, R165, R166, R353). -/
namespace Sys2Proof.Machine

/-! ### The bind descriptor -/

/-- 32-bit word at byte offset `o` of a descriptor. -/
def word32 (x o : Nat) : Nat := x / 2 ^ (8 * o) % 2 ^ 32
def word64 (x o : Nat) : Nat := x / 2 ^ (8 * o) % 2 ^ 64

/-- The fields of Table 12.15. -/
def bindOf (x : Nat) : Bind :=
  let f := word32 x 0x40
  let g := word32 x 0x44
  { shard := word32 x 0x04, tiles := bits (word32 x 0x08) 31 16, handle := bits (word32 x 0x08) 15 0,
    firstTile := word32 x 0x0C, k := word32 x 0x10, n := word32 x 0x14,
    planeA := word64 x 0x18, planeB := word64 x 0x20, cr0 := word64 x 0x28, cr1 := word64 x 0x30,
    mirror := word64 x 0x38, sched := bits f 23 22, gmask := bits f 21 19, resume := bit f 18, strict := bit f 17,
    frozen := bit f 16, clip := bit f 15, transposed := bit f 14, mround := bit f 13, copyFp8 := bit f 12,
    momFp32 := bit f 11, masterFp32 := bit f 10, opt := bits f 9 7, group := bits f 6 3, unit := bits f 2 0,
    rcEn := bit g 26, rcomm := bits g 25 16, gslot := bits g 14 0, seed := word32 x 0x48,
    beta1 := word32 x 0x50, beta2 := word32 x 0x54, eps := word32 x 0x58, eps1 := word32 x 0x5C, mu := word32 x 0x60,
    lambda := word32 x 0x64, tau := word32 x 0x68, lrPeak := word32 x 0x6C, lrMin := word32 x 0x70,
    gamma := word32 x 0x74, w := word32 x 0x78, t := word32 x 0x7C, s := word32 x 0x80 }

/-- Version 0x0001 and every reserved bit zero (R8). -/
def bindReservedOk (x : Nat) : Bool :=
  word32 x 0 == 1 && bits (word32 x 0x40) 31 24 == 0 && bits (word32 x 0x44) 31 27 == 0 && bit (word32 x 0x44) 15 == false
  && word32 x 0x4C == 0 && x / 2 ^ (8 * 0x84) % 2 ^ (8 * 60) == 0

/-- Byte ranges of the two planes. -/
def Bind.planes (b : Bind) : List (Nat × Nat) := [(b.planeA, b.planeSize), (b.planeB, b.planeSize)]

def overlaps (p q : Nat × Nat) : Bool := decide (p.1 < q.1 + q.2 ∧ q.1 < p.1 + p.2)

def inDram (d : Dev) (a n : Nat) : Bool := decide (a + n ≤ dramBytes d)

/-- R353: the checks of a bind, with the status of the first that fails. (DEDUCED 15) -/
def bindStatus (d : Dev) (c : Ctx) (b : Bind) : Option Status :=
  let same := shardsOf d b.handle
  if epochOpenFor d c b.group then some .epochState
  else if (findShard d b.shard).isSome || decide (d.shards.length ≥ 65536)
      || decide ((d.shards.filter (fun s => s.bind.unit == b.unit)).length ≥ 8192) then some .bindLimit
  else if same.any (fun s => s.bind.k != b.k || s.bind.n != b.n) then some .bindConflict
  else if b.opt ≥ 5 then some .badParam
  else if b.tiles = 0 || decide (b.tiles > 16384) || decide (b.firstTile + b.tiles > tileRows b.k * tileCols b.n) then
    some .badShape
  else if ((b.sched = 1 || b.sched = 2) && decide (b.t ≤ b.w)) || (b.sched = 3 && b.s = 0) then some .badParam
  else if same.any (fun s => overlaps (b.firstTile, b.tiles) (s.bind.firstTile, s.bind.tiles))
      || d.shards.any (fun s => b.planes.any (fun p => s.bind.planes.any (overlaps p)))
      || d.shards.any (fun s => s.bind.gslot == b.gslot && (s.bind.gmask != b.gmask || s.bind.group != b.group)) then
    some .bindConflict
  else if b.planes.any (fun p => p.1 % 4096 != 0 || !inDram d p.1 p.2 || inSpill d p.1 p.2)
      || overlaps (b.planeA, b.planeSize) (b.planeB, b.planeSize)
      || b.cr0 % 64 ≠ 0 || b.cr1 % 64 ≠ 0
      || (decide (regionOf b.cr0 = .dram ∧ regionOf b.cr1 = .dram) && (dramPlace d b.cr0).1 == (dramPlace d b.cr1).1)
      || b.mirror % 128 ≠ 0 || inSpill d b.cr0 64 || inSpill d b.cr1 64 || inSpill d b.mirror 128 then some .badAddress
  else if !b.frozen && b.gmask = 0 then some .badFormat
  else none

/-- R159: zero the elements of plane `p` outside the tensor. -/
def zeroEdges (d : Dev) (b : Bind) (p : Nat) : Dev :=
  ((List.range b.params).filter (fun x => !elemInside b x)).foldl (fun d x =>
    let d := arrSet d p b.masterBytes x 0
    let d := if b.hasM then arrSet d (p + b.offM) b.momBytes x 0 else d
    let d := if b.hasV then arrSet d (p + b.offV) b.momBytes x 0 else d
    arrSet d (p + b.offRho) 2 x 0) d

/-- A shard as it stands after its bind. -/
def newShard (b : Bind) : Shard :=
  ⟨b, ⟨0, 0, 0, false, false, 0, 0, 0, 0, 0, 0, 0, 0, 0, 0, safAnchored⟩, false, [], 0, 0, false, false, false, 0, [], 0, false,
    none, [], []⟩

/-- R16: a bind with start = resume raises the group's reference tag. -/
def raiseRef (d : Dev) (g tag : Nat) : Dev :=
  updGroup d g (fun x =>
    if x.hasRef then (if serialDiff tag x.refTag < 2 ^ 31 then { x with refTag := tag } else x)
    else if tag = 0 then x else { x with hasRef := true, refTag := tag })

/-- The bytes of a plane that a bind reads: master, moments, statistics and remainder; all of it when the bind is frozen,
since the other plane becomes its twin (R140). -/
def Bind.readBytes (b : Bind) : Nat := if b.frozen && b.resume then b.planeSize else b.offFwd

/-- R140: the planes of a frozen shard hold the same. -/
def twinPlanes (d : Dev) (b : Bind) (p : Nat) : Dev :=
  if b.frozen then store d (b.plane (1 - p)) (memRead d (b.plane p) b.planeSize) else d

/-- A bind with start = init (R165): plane A holds the initial state; the unit derives its copies, and the record says that
it is committed. -/
def bindInit (d : Dev) (b : Bind) : Except Fail (Dev × CommitRec) :=
  match accessFails d b.planeA b.readBytes false with
  | some f => .error f
  | none =>
    let d0 := zeroEdges (noteRead d b.planeA b.readBytes) b b.planeA
    let d1 := (putCopies (newShard b) b.planeA ⟨d0, 0, 0, 0, safAnchored, []⟩ (List.range (2048 * b.tiles)) false).dev
    let r : CommitRec := ⟨0, 0, 0, 0, 0, 0, 0, fpPlane d1 b b.planeA, b.shard⟩
    match writeCommit (twinPlanes d1 b 0) b r with
    | (d2, true) => .ok (d2, r)
    | (_, false) => .error ⟨.commitWrite, 0⟩

/-- A bind with start = resume (R165): the committed plane must have the fingerprint of the commit record. -/
def bindResume (d : Dev) (b : Bind) : Except Fail (Dev × CommitRec) :=
  match readCommit d b with
  | none => .error ⟨.fingerprint, 0⟩
  | some r =>
    match accessFails d (b.plane r.plane) b.readBytes false with
    | some f => .error f
    | none =>
      if fpPlane d b (b.plane r.plane) = r.fp then
        .ok (twinPlanes (noteRead (noteRead (noteRead d b.cr0 64) b.cr1 64) (b.plane r.plane) b.readBytes) b r.plane, r)
      else .error ⟨.fingerprint, 0⟩

/-- The record that a bind leaves committed, and the device after the unit's work on the planes (R140, R165). -/
def bindPlanes (d : Dev) (b : Bind) : Except Fail (Dev × CommitRec) := if b.resume then bindResume d b else bindInit d b

/-- Run UPD_BIND. The info of its record is the shard handle, whatever the status (Table 12.18). -/
def runBind (d : Dev) (c : Ctx) (e : Nat) : Res :=
  let a := entryWord e 4
  if a % 64 ≠ 0 then resStatus d .badAddress
  else match readFor d c.port a 192 with
    | .error f => resFail d f
    | .ok x =>
      let b := bindOf x
      let fail := fun (s : Status) (i : Nat) =>
        let info := if s.code = 0x2001 ∨ s.code = 0x2002 ∨ s.code = 0x2003 then i else b.shard
        (⟨d, some (s.code, info)⟩ : Res)
      if !bindReservedOk x then fail .reservedField 0
      else match bindStatus d c b with
        | some s => fail s 0
        | none =>
          match bindPlanes d b with
          | .error f => fail f.status f.info
          | .ok (d1, r) =>
            let d2 := unitStatus { d1 with shards := d1.shards ++ [newShard b] } b.unit
            let d3 := if b.resume then raiseRef d2 b.group r.tag else d2
            resOk d3 b.shard

/-- Run UPD_UNBIND once nothing that names the tensor is in flight (R164, R166). -/
def runUnbind (d : Dev) (c : Ctx) (e : Nat) : Res :=
  let h := bits (entryWord e 4) 31 0
  match findShard d h with
  | none => ⟨d, some (Status.bindConflict.code, h)⟩
  | some s =>
    if epochOpenFor d c s.bind.group then ⟨d, some (Status.epochState.code, h)⟩
    else
      resOk (unitStatus { d with shards := d.shards.filter (fun x => x.bind.shard != h) } s.bind.unit) h

end Sys2Proof.Machine
end

