-- ==== Sys2Proof/Machine/Trees.lean ====
section
/-! DEFINITION. Communicators and their tree tables (R296, R297), routing tables (R288, R350) and the arithmetic of the
nodes (Table 4.6, R124 to R129, R300). -/
namespace Sys2Proof.Machine

/-! ### Tree images -/

/-- The child of bits [23:0]: leaf flag and index (Table 10.7). -/
def childOf (x : Nat) : Bool × Nat := (bit x 23, x % 2 ^ 17)

/-- The code of a child in messages: bit 23 marks a leaf. -/
def childCode (c : Bool × Nat) : Nat := b2n c.1 * 2 ^ 23 + c.2

/-- Child slot `i` of a node record. -/
def nodeSlot (x i : Nat) : Nat := x / 2 ^ (64 + 24 * i) % 2 ^ 24

/-- A reserved bit of a node record is set, or a slot beyond its children is not zero (Table 10.7, R8). (DEDUCED 32) -/
def nodeReserved (x : Nat) : Bool :=
  let k := bits (word32 x 4) 3 0
  bits (word32 x 0) 17 16 != 0 || bits (word32 x 4) 31 4 != 0 || (List.range (min k 8)).any (fun i => bits (nodeSlot x i) 22 17 != 0)
    || (List.range (8 - k)).any (fun i => nodeSlot x (k + i) != 0)

/-- One node record of Table 10.7; none when the child count is outside 1 to 8. -/
def treeNodeOf (x : Nat) : Option TreeNode :=
  let k := bits (word32 x 4) 3 0
  if k == 0 || decide (k > 8) then none
  else some ⟨bits (word32 x 0) 31 18, bits (word32 x 0) 15 0, ((List.range k).map (nodeSlot x)).map childOf⟩

/-- A whole list of options. -/
def allSome {α : Type} (xs : List (Option α)) : Option (List α) :=
  match xs with
  | [] => some []
  | none :: _ => none
  | some x :: rest => (allSome rest).map (x :: ·)

/-- The root of a tree: its only node with parent 0xFFFF. -/
def treeRoots (t : List TreeNode) : List Nat := ((List.zipIdx t).filter (fun n => n.1.parent == 0xFFFF)).map (·.2)

/-- Steps from a node to the root, within `fuel`; none when a parent is missing or the walk does not end. -/
def treeDepth (t : List TreeNode) (fuel i : Nat) : Option Nat :=
  match fuel with
  | 0 => none
  | f + 1 => match t[i]? with
    | none => none
    | some n => if n.parent = 0xFFFF then some 0 else (treeDepth t f n.parent).map (· + 1)

/-- R297: every leaf appears exactly once as a child, every node except one root has a parent that lists it, and there
is no cycle. -/
def treeOk (n : Nat) (t : List TreeNode) : Bool :=
  let kids := t.flatMap (·.children)
  let leaves := (kids.filter (·.1)).map (·.2)
  let nodes := (kids.filter (fun c => !c.1)).map (·.2)
  (leaves.length == n) && (List.range n).all leaves.contains
  && (treeRoots t).length == 1
  && (List.zipIdx t).all (fun x =>
      x.1.parent == 0xFFFF || (t[x.1.parent]?).any (fun p => p.children.contains (false, x.2)))
  && decide (nodes.length + 1 = t.length)
  && (List.range t.length).all (fun i => (treeDepth t (t.length + 1) i).isSome)

/-- Cut a list into parts of the given lengths. -/
def cutLengths {α : Type} (ks : List Nat) (xs : List α) : List (List α) :=
  match ks with
  | [] => []
  | k :: rest => xs.take k :: cutLengths rest (xs.drop k)

/-- The node counts of the eight trees that a header gives. -/
def treeCount (hdr i : Nat) : Nat := hdr / 2 ^ (128 + 16 * i) % 2 ^ 16

/-- A reserved bit of a tree image is set (R8, DEDUCED 32). -/
def treeReserved (img : List Byte) : Bool :=
  let hdr := leNat (img.take 32)
  let t := bits (word32 hdr 4) 20 17
  bits (word32 hdr 0) 31 26 != 0 || bits (word32 hdr 4) 31 21 != 0 || word32 hdr 12 != 0
    || (List.range (8 - t)).any (fun i => treeCount hdr (t + i) != 0)
    || (List.range (word32 hdr 8)).any (fun i => nodeReserved (leNat ((img.drop (32 + 32 * i)).take 32)))

/-- Read a tree image (R296): the communicator it describes, or none when a check fails. -/
def readTree (img : List Byte) (comm : Nat) : Option Comm :=
  let hdr := leNat (img.take 32)
  let n := bits (word32 hdr 4) 16 0
  let t := bits (word32 hdr 4) 20 17
  let total := word32 hdr 8
  let counts := (List.range t).map (treeCount hdr)
  if bits (word32 hdr 0) 15 0 != 1 || bits (word32 hdr 0) 25 16 != comm || n == 0 || decide (n > 65536) || t == 0 || decide (t > 8)
      || counts.foldl (· + ·) 0 != total then none
  else
    match allSome ((List.range total).map (fun i => treeNodeOf (leNat ((img.drop (32 + 32 * i)).take 32)))) with
    | none => none
    | some nodes =>
      let trees := cutLengths counts nodes
      if trees.all (treeOk n) then some ⟨comm, n, trees, []⟩ else none

/-- Node records that the loaded communicators hold, without one. -/
def nodesHeld (d : Dev) (comm : Nat) : Nat :=
  (d.fab.comms.filter (fun c => c.id != comm)).foldl (fun a c => a + (c.trees.map (·.length)).foldl (· + ·) 0) 0

def findComm (d : Dev) (comm : Nat) : Option Comm := d.fab.comms.find? (fun c => c.id == comm)

/-- Run TREE_LOAD (R296, R297). The info is the digest. (DEDUCED 32) -/
def runTreeLoad (d : Dev) (c : Ctx) (e : Nat) : Res :=
  let comm := bits (entryWord e 4) 19 10
  let a := entryWord e 6
  match readFor d c.port a 32 with
  | .error f => resFail d f
  | .ok hdr =>
    let total := word32 hdr 8
    if total > 262144 then resStatus d .treeInvalid
    else match readFor d c.port a (32 + 32 * total) with
      | .error f => resFail d f
      | .ok _ =>
        let img := memRead d a (32 + 32 * total)
        if treeReserved img then resStatus d .reservedField
        else match readTree img comm with
        | none => resStatus d .treeInvalid
        | some t =>
          if nodesHeld d comm + total > 262144 then resStatus d .treeInvalid
          else
            let digest := leNat (shake256 img 8)
            let d1 := { d with fab := { d.fab with comms := d.fab.comms.filter (fun x => x.id != comm) ++ [t] } }
            let d2 := fset (fset d1 collTreeStatusDigest comm digest) collTreeStatusTrees comm t.trees.length
            let d3 := fset (fset d2 collTreeStatusState comm 1) collTreeStatusLeaves comm t.n
            resOk (fset d3 collTreeStatusNodes comm total) digest

/-- Run ROUTE_LOAD (R350). -/
def runRouteLoad (d : Dev) (c : Ctx) (e : Nat) : Res :=
  let a := entryWord e 6
  match readFor d c.port a 16 with
  | .error f => resFail d f
  | .ok hdr =>
    let first := bits (word32 hdr 4) 13 0
    let n := bits (word32 hdr 8) 14 0
    if bits (word32 hdr 0) 15 0 != 1 || bits (word32 hdr 0) 31 16 != 0 || bits (word32 hdr 4) 31 14 != 0
        || bits (word32 hdr 8) 31 15 != 0 || word32 hdr 12 != 0 then resStatus d .reservedField
    else if n == 0 || decide (n > 16384 - first) then resStatus d .badParam
    else match readFor d c.port (a + 16) (4 * n) with
      | .error f => resFail d f
      | .ok x =>
        let entry := fun i => x / 2 ^ (32 * i) % 2 ^ 32
        if (List.range n).any (fun i => bits (entry i) 31 16 != 0 || bits (entry i) 7 6 != 0
            || (bit (entry i) 15 && decide (bits (entry i) 5 0 > 35)) || (bit (entry i) 14 && decide (bits (entry i) 13 8 > 35))) then
          resStatus d .reservedField
        else resOk ((List.range n).foldl (fun d i => regSet d .blRoute (first + i) (entry i)) d) 0

/-! ### Element modes (Table 4.6) -/

/-- Elements in a chunk of 4,096 bytes in the tree's element mode (R298). -/
def chunkElems (mode : Nat) : Nat := match mode with | 0 => 1024 | 1 => 512 | 4 => 512 | _ => 256

/-- The mode admits leaves of this tensor (Table 4.6). -/
def modeAdmits (mode : Nat) (t : Tensor) : Bool :=
  let f := t.fmt
  match mode with
  | 0 => (f.group == some .floating || f == .fp16 || f == .fp32) && !t.raw.blockScaled
  | 1 => (f == .fp32 || f == .fp64) && !t.raw.blockScaled
  | 2 => f != .fp64 && f != .bi8
  | 3 => f == .fp64 || f == .s768
  | _ => f == .int4 || f == .int8 || f == .int32

/-- The target of a mode. -/
def modeTargets (mode : Nat) (f : Fmt) : Bool :=
  match mode with
  | 0 | 1 => f != .s768 && f != .bi8
  | 4 => f.isInt
  | _ => f != .bi8

/-- An exact value as it travels: the packed entry, and above bit 128 the record of an escalated one (R129). The owner
field of the record is the element's number in its chunk. (DESIGN CHOICE 17) -/
def packExact (s : SafEntry) (element : Nat) : Nat :=
  match packEntry s with
  | some x => x
  | none =>
    let x := packSpilled s false 0 0 element
    x + spillRecord s x element 0 0 0 * 2 ^ 128

def unpackExact (x : Nat) : SafEntry :=
  let p := unpackEntry (x % 2 ^ 128)
  if p.spill then p.entryWith (readSpillRecord (x / 2 ^ 128)) else p.entry

/-- The exact modes of Table 4.6. -/
def exactMode (mode : Nat) : Bool := mode == 2 || mode == 3

/-- An escalated value of an exact mode. -/
def escalated (mode x : Nat) : Bool := exactMode mode && x.testBit 125

/-- A value escalated and without its record yet. -/
def lacksRecord (mode x : Nat) : Bool := escalated mode x && x / 2 ^ 128 == 0

/-! ### Records of partials (R109, R113, R114, R129) -/

/-- The owner of a partial's record, as the free list knows it: no park slot has this number. -/
def partOwner : Nat := 2 ^ 40

/-- The address of the record that an escalated entry names. -/
def heldAt (d : Dev) (x : Nat) : Nat := let p := unpackEntry (x % 2 ^ 128); spillBase d p.die + 128 * p.index

/-- Pack element `i` of a partial: an escalated one takes a record of die `e`'s spill area, and stands with 1 above bit
128. None when no record is left. -/
def packHeld (d : Dev) (e i : Nat) (s : SafEntry) : Option (Nat × Dev) :=
  match packEntry s with
  | some x => some (x, d)
  | none =>
    (spillAlloc d e partOwner).map (fun r =>
      let gen := fget d safSpillGenGen e
      let x := packSpilled s false e gen r.1
      (x + 2 ^ 128, store r.2 (spillBase d e + 128 * r.1) (leBytes 128 (spillRecord s x i gen 0 0))))

/-- Load element `i` of a partial, with the checks of R114: from the spill area, or from the record that came with it. -/
def loadPart (d : Dev) (mode i x : Nat) : Except Fail SafEntry :=
  let p := unpackEntry (x % 2 ^ 128)
  let r := readSpillRecord (x / 2 ^ 128)
  let got : Except Fail SafEntry :=
    if p.spill && x / 2 ^ 128 != 1 then
      if p.guardOk && !p.tensor && r.checkOk && r.owner == i && r.gen == p.gen then .ok (p.entryWith r)
      else .error ⟨.uncorrectable, 0⟩
    else loadPacked d (x % 2 ^ 128) 0 false i 0
  match got with
  | .error f => .error f
  | .ok s => if s.anchored == (mode == 3) then .ok s else .error ⟨.treeState, 0⟩

def loadParts (d : Dev) (mode i : Nat) (xs : List Nat) : Except Fail (List SafEntry) :=
  match xs with
  | [] => .ok []
  | x :: rest => match loadPart d mode i x, loadParts d mode (i + 1) rest with
    | .ok s, .ok ss => .ok (s :: ss)
    | .error f, _ => .error f
    | _, .error f => .error f

/-- Free the records that the elements of a partial hold (R129); a die reset has freed those of an earlier generation. -/
def releaseParts (d : Dev) (mode : Nat) (xs : List Nat) : Dev :=
  xs.foldl (fun d x =>
    let p := unpackEntry (x % 2 ^ 128)
    if escalated mode x && x / 2 ^ 128 == 1 && p.gen == fget d safSpillGenGen p.die then spillRelease d p.die p.index else d) d

/-- Pack the elements of a partial on die `e`, or free what they have taken when a record is missing. -/
def packParts (e i : Nat) (acc : Dev × List Nat) (ss : List SafEntry) : Option (Dev × List Nat) :=
  match ss with
  | [] => some acc
  | s :: rest => match packHeld acc.1 e i s with
    | none => none
    | some (x, d) => packParts e (i + 1) (d, acc.2 ++ [x]) rest

/-- The bytes of an escalated element as they leave: its entry, then its record. -/
def travelCode (d : Dev) (mode x : Nat) : Nat :=
  if escalated mode x && x / 2 ^ 128 == 1 then x % 2 ^ 128 + memReadNat d (heldAt d x) 128 * 2 ^ 128 else x

def intOfVal (v : Val) : Int := match v with | .fin s n d => signedNum s (n / d) | _ => 0

/-- A leaf element widened exactly into the mode (R126, R127). -/
def leafRep (d : Dev) (mode : Nat) (t : Tensor) (i : Nat) : Except Fail Nat :=
  let scaled := if (elemBlock d t i).isSome then elemVal d t i else t.fmt.decode (elemCode d t i)
  if t.fmt = .s768 then
    match elemEntry d t i with
    | .error f => .error f
    | .ok s => if s.anchored == (mode == 3) then .ok (packExact s i) else .error ⟨.treeState, 0⟩
  else match mode with
    | 0 => .ok (encode32 scaled)
    | 1 => .ok (encode64 scaled)
    | 2 => .ok (packExact (safAddVal safFixed scaled).1 i)
    | 3 => .ok (packExact (normAdd safAnchored scaled) i)
    | _ => .ok (codeOfInt 64 (intOfVal scaled))

/-- The value that a reduction holds, for its conversion at the root. -/
def repVal (mode x : Nat) : Val :=
  match mode with
  | 0 => decode32 x
  | 1 => decode64 x
  | 4 => valInt (signedOf 64 x)
  | _ => (unpackExact x).value

/-- Add one exact entry to another (R104, R121, R127, R128): an anchored one as the contributions it has received, so
that the greater anchor holds; one without contributions brings none. -/
def exactAdd (a b : SafEntry) : SafEntry :=
  let s := { a with ovf := a.ovf || b.ovf, trunc := a.trunc || b.trunc, floor := a.floor || b.floor }
  if b.special ≠ .finite then safAddSpecial s b.special
  else if b.anchored then (if b.started then (safAddAnchored s (64 * (b.anchor + 10)) b.v b.unit).1 else s)
  else (safAddFixed s b.v (-400)).1

/-- One addition of a node in a mode that is not exact (R124, Table 4.6). -/
def nodeAdd (mode x y : Nat) : Nat :=
  match mode with
  | 0 => encode32 (add32 (decode32 x) (decode32 y))
  | 1 => encode64 (add64 (decode64 x) (decode64 y))
  | _ => (x + y) % 2 ^ 64

/-- Add the children's values in listed order. -/
def nodeSum {α : Type} (add : α → α → α) (parts : List (List α)) : List α :=
  match parts with
  | [] => []
  | p :: rest => rest.foldl (fun acc q => List.zipWith add acc q) p

end Sys2Proof.Machine
end

