-- ==== Sys2Proof/Machine/Coll.lean ====
section
/-! DEFINITION. Collectives (R298 to R300, R349, R167): a leaf's contribution, the nodes, the root's one conversion
(R126), the way down and the delivery. -/
namespace Sys2Proof.Machine

/-- The body of Table 12.12. -/
structure CollBody where
  leaf : Nat
  toUpdate : Bool
  comm : Nat
  round : Nat
  mode : Nat
  op : CollOp
  src : Nat
  dst : Nat
  seed : Nat
deriving DecidableEq, Repr

def collBodyOf (e : Nat) : CollBody :=
  let w := entryWord e 4
  ⟨bits w 63 48, bit w 20, bits w 19 10, bits w 9 7, bits w 6 4, (collOpOf (bits w 3 0)).getD .allreduce,
   entryWord e 5, entryWord e 6, bits (entryWord e 7) 31 0⟩

/-- Codes of the data operations in messages. -/
def CollOp.code : CollOp → Nat
  | .allreduce => 0 | .reduce => 1 | .broadcast => 2 | .allgather => 3 | .treeLoad => 8 | .routeLoad => 9

/-- The COLL takes a source, and a destination (Table 12.13). -/
def CollBody.takesSrc (b : CollBody) : Bool := b.op != .broadcast || b.leaf == 0
def CollBody.takesDst (b : CollBody) : Bool := b.op != .reduce || b.leaf == 0

/-- Resolve a descriptor that the COLL takes; a source counts into no census and needs no group (R92). -/
def resolveIf (d : Dev) (port : Nat) (group : Option Nat) (use : Bool) (a : Nat) : Except Fail (Option Tensor) :=
  if use then (resolve d port group a).map some else .ok none

/-- The shards that a gradient view covers and that are not frozen (R141, R167). -/
def liveShards (t : Tensor) : List Shard := t.shards.filter (fun s => !s.bind.frozen)

/-- The COLL reduces its tensor. -/
def CollBody.reduces (b : CollBody) : Bool := b.op == .allreduce || b.op == .reduce

/-- A COLL that reduces a tensor carries no line of a frozen shard (R141). -/
def CollBody.carries (b : CollBody) (src dst : Option Tensor) (i : Nat) : Bool :=
  !b.reduces || (!src.any (fun t => suppressed t i) && !dst.any (fun t => suppressed t i))

/-- R167, R337: what forbids the delivery to the update units. -/
def deliverStatus (d : Dev) (c : Ctx) (b : CollBody) (t : Tensor) : Option Status :=
  if !b.toUpdate then none
  else if !(t.raw.bound && t.raw.view == .gradient) || b.op != .allreduce then some .badAddress
  else if (liveShards t).any (fun s => c.group != some s.bind.group) then some .epochState
  else if (liveShards t).any (fun s => ((findShard d s.bind.shard).map (·.receiving)).getD true) then some .bindConflict
  else none

/-- The checks of a data operation once its descriptors are resolved (R349, R126, R76). (DEDUCED 15) -/
def collStatus (d : Dev) (c : Ctx) (b : CollBody) (t : Comm) (src dst : Option Tensor) : Option Status :=
  let n := match b.op with | .allgather => t.n | _ => 1
  if src.any (fun s => !modeAdmits b.mode s) then some .badFormat
  else if dst.any (fun x => !modeTargets b.mode x.fmt) then some .badFormat
  else if (match src, dst with | some s, some x => x.raw.count != n * s.raw.count | _, _ => false) then some .badShape
  else if !roundOk b.round (dst.map (·.fmt)) then some .badRounding
  else if dst.any (fun x => !writableView x) then some .badAddress
  else dst.bind (deliverStatus d c b)

/-- The linear indices of the block of 32 that holds element `i` of a block-scaled tensor (R82). -/
def blockOf (t : Tensor) (i : Nat) : List Nat :=
  let i0 := i % t.raw.ext0
  (List.range (min 32 (t.raw.ext0 - i0 / 32 * 32))).map (fun j => i - i0 % 32 + j)

/-- An element that can be converted once the elements `is` are reduced: every element of its block-scaled block that the
COLL carries is among them (R83). An edge of a chunk may cut a block, whose parts are converted where they meet, at the
destination. (DEDUCED 85) -/
def blockWhole (carries : Nat → Bool) (t : Tensor) (is : List Nat) (i : Nat) : Bool :=
  !t.raw.blockScaled || (blockOf t i).all (fun j => !carries j || is.contains j)

/-- What the root's conversion gives: the codes by linear index, the block byte above bit 128 (R126); what they count; and
the result flags of the entries they come from (R118). -/
structure RootOut where
  codes : List (Nat × Nat)
  sum : ConvSum
  flags : InfoFlags

/-- Convert a reduced entry into an S768 target: scaled once from the source's slot into the target's (R77). -/
def rootEntry (t : Tensor) (eSrc : Int) (acc : RootOut) (x : Nat × Nat) : RootOut :=
  let s := unpackExact x.2
  let y := (s.scale (t.e - eSrc)).1
  ⟨acc.codes ++ [(x.1, packExact y x.1)], acc.sum.count t.hist t.e (valScale s.value (-eSrc)) (entryEvent s y),
   acc.flags.entry y⟩

/-- Convert the elements of one block, or the single elements of a target without block scales (R83, R79). -/
def rootBlock (mode : RMode) (stepTag seed : Nat) (t : Tensor) (acc : RootOut) (g : List (Nat × Val)) : RootOut :=
  let blk : Option Nat := if t.raw.blockScaled then
    some (blockChoose t.fmt mode (g.map (fun x => (x.2, srByte stepTag seed t x.1)))) else none
  let byte := if g.any (fun x => valIsNan x.2) && !t.fmt.hasNan then 255 else blk.getD 0
  let e := writeScale t blk
  g.foldl (fun acc x =>
    let r := t.fmt.convert mode (srByte stepTag seed t x.1) t.raw.blockScaled (valScale x.2 e)
    { acc with codes := acc.codes ++ [(x.1, r.code + (if blk.isSome then byte * 2 ^ 128 else 0))],
               sum := acc.sum.count t.hist e x.2 r.event }) acc

/-- Convert reduced values (linear index, value in mode `m`) into codes of the target (R126, R77 to R83). -/
def rootCodes (d : Dev) (mode : RMode) (stepTag seed : Nat) (m : Nat) (t : Tensor) (eSrc : Int) (xs : List (Nat × Nat)) :
    RootOut :=
  let zero : RootOut := ⟨[], convSumZero, infoZero⟩
  if t.fmt = .s768 then xs.foldl (rootEntry t eSrc) zero
  else
    let flags := if exactMode m then xs.foldl (fun f x => f.entry (unpackExact x.2)) infoZero else infoZero
    let vals := xs.map (fun x => (x.1, valScale (repVal m x.2) (-eSrc)))
    let groups := if t.raw.blockScaled then groupByBlock d t (vals.length + 1) vals else vals.map (fun v => [v])
    groups.foldl (rootBlock mode stepTag seed t) { zero with flags := flags }

/-- Put one delivered code into the destination. -/
def putCode (d : Dev) (t : Tensor) (i code : Nat) : Except Fail Dev :=
  if t.fmt = .s768 then
    match setElemEntry d t i (unpackExact code) with
    | some (d, _) => .ok d
    | none => .error ⟨.spillExhausted, 0⟩
  else
    let d1 := setElemCode d t i (code % 2 ^ 128)
    if t.raw.blockScaled then
      match (elemPlace d1 t i).2.2 with
      | some a => .ok (store d1 a [BitVec.ofNat 8 (code / 2 ^ 128)])
      | none => .ok d1
    else .ok d1

def putCodes (d : Dev) (t : Tensor) (xs : List (Nat × Nat)) : Except Fail Dev :=
  match xs with
  | [] => .ok d
  | (i, c) :: rest => match putCode d t i c with | .ok d1 => putCodes d1 t rest | .error f => .error f

/-- R167: deliver reduced codes to the shards of a gradient view. -/
def deliverLines (d : Dev) (t : Tensor) (xs : List (Nat × Nat)) : Dev :=
  let n := t.raw.ext0
  let d1 := xs.foldl (fun d x =>
    let tile := x.1 / n / 256 * tileCols n + x.1 % n / 256
    match shardOfTile t.shards tile with
    | some s => deliverGrad d s.bind.shard ((tile - s.bind.firstTile) * 65536 + x.1 / n % 256 * 256 + x.1 % n % 256) x.2
    | none => d) d
  (liveShards t).foldl (fun d s => startUnit d s.bind.shard) d1

/-! ### Runs -/

/-- DEDUCED 29 of the log. -/
def isRun (comm inst : Nat) (r : CollRun) : Bool := r.comm == comm && r.inst == inst

def findRun (d : Dev) (comm inst : Nat) : Option CollRun := d.fab.colls.find? (isRun comm inst)

/-- The shards that a COLL delivers to, by its entry. -/
def deliveredShards (d : Dev) (cmd : Cmd) : List Shard :=
  let b := collBodyOf cmd.entry
  if !b.toUpdate then []
  else match resolve d cmd.port cmd.groupOf b.dst with | .ok t => liveShards t | .error _ => []

/-- End a run: its command finishes. The shards that a failed one delivered to get no more gradient (R167). -/
def endRun (d : Dev) (r : CollRun) (status info : Nat) : Dev :=
  let lost := if status = 0 then [] else (findCmd d r.ring r.seq).elim [] (deliveredShards d)
  let d0 := lost.foldl (fun d s => deliveryFailed d s.bind.shard) d
  let d1 := { d0 with fab := { d0.fab with colls := d0.fab.colls.filter (fun x => !(x.ring == r.ring && x.seq == r.seq)) } }
  finishCmd (flushWrites d1 r.ring r.seq) r.ring r.seq status info

/-- Fail every run over a communicator (R295, R297). -/
def failRuns (d : Dev) (p : CollRun → Bool) (s : Status) : Dev :=
  (d.fab.colls.filter p).foldl (fun d r => endRun d r s.code 0) d

/-- A run has received chunk `j`. -/
def runGot (d : Dev) (r : CollRun) (j info : Nat) : Dev :=
  let r1 := { r with todo := r.todo.erase j, info := r.info ||| info }
  if r1.todo.isEmpty then endRun d r1 0 r1.info
  else { d with fab := { d.fab with colls := listUpdWhere d.fab.colls (fun x => x.ring == r.ring && x.seq == r.seq) (fun _ => r1) } }

/-- R297: the digest comparison of tree 0 has its result. (DEDUCED 29) -/
def markDigest (d : Dev) (comm digest : Nat) : Dev :=
  if digest = 2 ^ 64 then
    let d1 := if fget d collTreeStatusState comm = 3 then d else nutmeg d ⟨0x06, 3, 1, 0, 0, 0, comm⟩
    failRuns (fset d1 collTreeStatusState comm 3) (fun r => r.comm == comm) .treeMismatch
  else fset d collTreeStatusState comm 2

/-- What the conversion of a COLL needs beside its target: the scale of the values it reduces, which its leaves share
(R126), and what it carries. -/
def collScale (d : Dev) (cmd : Cmd) (b : CollBody) (t : Tensor) : Int × (Nat → Bool) :=
  match resolveIf d cmd.port none b.takesSrc b.src with
  | .ok (some s) => (s.e, b.carries (some s) (some t))
  | _ => (t.e, b.carries none (some t))

/-- Convert reduced values for the destination of a COLL. -/
def collConvert (d : Dev) (cmd : Cmd) (b : CollBody) (t : Tensor) (xs : List (Nat × Nat)) : RootOut :=
  rootCodes d ((rmodeOfCode b.round).getD .rne) cmd.stepTag b.seed b.mode t (collScale d cmd b t).1 xs

/-- The run of this module that a chunk comes down to, at its leaf. -/
def leafRun (d : Dev) (c : CollChunk) : Option CollRun :=
  d.fab.colls.find? (fun r => isRun c.comm c.inst r && r.leaf == c.child)

/-- The bytes that delivered elements take in a destination; a gradient view has none (R341). -/
def putRanges (d : Dev) (t : Tensor) (is : List Nat) : List (Nat × Nat) :=
  if t.raw.bound then [] else mergeRanges (is.map (fun i => (elemAddr d t i, max 1 (t.fmt.width / 8))))

/-- A chunk that meets a unit under reset waits for it (R219, R241). -/
def chunkWaits (d : Dev) (c : CollChunk) : Dev :=
  { d with fab := { d.fab with waitReqs := d.fab.waitReqs ++ [(ownId d, .collData c)] } }

/-- A chunk could not reach its destination. -/
def chunkFails (d : Dev) (r : CollRun) (c : CollChunk) (f : Fail) : Dev :=
  if f.status = .resetWait then chunkWaits d c else endRun d r f.status.code f.info

/-- The converted codes of a chunk reach the destination of a run. A failed escalation into an S768 target counts on the die
of the target's address (DESIGN CHOICE 86). -/
def chunkPuts (d : Dev) (cmd : Cmd) (t : Tensor) (r : CollRun) (c : CollChunk) (info : Nat) (xs : List (Nat × Nat)) : Dev :=
  match putCodes (openRanges d (putRanges d t (xs.map (·.1)))) t xs with
  | .error f => endRun (spillFail d (dieOfAddr d t.raw.base)) r f.status.code f.info
  | .ok d1 => runGot (touchAcc d1 cmd.groupOf) r c.chunk info

/-- A chunk has come down to a leaf of this module. The values of a REDUCE are converted here, at its one destination, and
so are the blocks that an edge of a chunk cut, which leaf 0 counts. -/
def leafGets (d : Dev) (c : CollChunk) : Dev :=
  match leafRun d c with
  | none => d
  | some r =>
    if c.status ≠ 0 then endRun d r c.status c.info
    else match findCmd d r.ring r.seq with
      | none => d
      | some cmd =>
        let b := collBodyOf cmd.entry
        if !b.takesDst then runGot d r c.chunk c.info
        else match resolve d cmd.port cmd.groupOf b.dst with
          | .error f => chunkFails d r c f
          | .ok t =>
            let reduce := b.op == .reduce
            let parted := r.parted ++ (if reduce then List.zip c.pos c.vals else c.parted)
            let whole := blockWhole (collScale d cmd b t).2 t (parted.map (·.1))
            let out := collConvert d cmd b t (parted.filter (fun x => whole x.1))
            let xs := (if reduce then [] else List.zip c.pos c.vals) ++ out.codes
            match (putRanges d t (xs.map (·.1))).findSome? (fun p => accessFails d p.1 p.2 true) with
            | some f => chunkFails d r c f
            | none =>
              let d1 := if reduce || r.leaf == 0 then bookFor d cmd.ctx t out.sum else d
              let info := (out.flags.conv out.sum).code ||| (if reduce then 0 else c.info)
              let r1 := { r with parted := parted.filter (fun x => !whole x.1) }
              if b.toUpdate then runGot (deliverLines d1 t xs) r1 c.chunk info else chunkPuts d1 cmd t r1 c info xs

/-! ### Nodes -/

def isParts (c : CollChunk) (p : NodeParts) : Bool :=
  p.comm == c.comm && p.inst == c.inst && p.chunk == c.chunk && p.node == c.node

def findParts (d : Dev) (c : CollChunk) : Option NodeParts := d.fab.nodes.find? (isParts c)

def putParts (d : Dev) (c : CollChunk) (f : NodeParts → NodeParts) : Dev :=
  if (findParts d c).isSome then { d with fab := { d.fab with nodes := listUpdWhere d.fab.nodes (isParts c) f } }
  else { d with fab := { d.fab with nodes := d.fab.nodes ++ [f ⟨c.comm, c.inst, c.chunk, c.node, [], false⟩] } }

def treeNodeAt (t : Comm) (chunk node : Nat) : Option TreeNode := (t.trees[chunk % t.trees.length]?).bind (·[node]?)

/-- Every child's part is there, with the records of its escalated elements (R298, R129). -/
def partsReady (n : TreeNode) (p : NodeParts) : Bool :=
  !p.sent && n.children.all (fun k => p.parts.any (fun x =>
    x.2.child == childCode k && !x.2.vals.any (lacksRecord x.2.mode)))

/-- Parts in the listed order of the children. -/
def orderedParts (n : TreeNode) (p : NodeParts) : List (Nat × CollChunk) :=
  n.children.filterMap (fun k => p.parts.find? (fun x => x.2.child == childCode k))

/-- R349: parts of one chunk agree in operation, mode and element count, and with this module's own COLL. -/
def partsAgree (d : Dev) (ps : List (Nat × CollChunk)) : Bool :=
  match ps with
  | [] => true
  | (_, c) :: rest =>
    rest.all (fun x => x.2.op == c.op && x.2.mode == c.mode && x.2.total == c.total)
    && (d.fab.colls.filter (isRun c.comm c.inst)).all (fun r =>
        match findCmd d r.ring r.seq with
        | some cmd => let b := collBodyOf cmd.entry; b.op.code == c.op && b.mode == c.mode
        | none => true)

/-- The part of a node or a leaf that has failed. -/
def failPart (c : CollChunk) (status info : Nat) : CollChunk :=
  { c with status := status, info := info, pos := [], vals := [], parted := [] }

/-- Form a partial of exact values on a die of this module, which of the two the manual leaves to the collective units: its
escalated elements take records of that die's spill area (R109). It fails past 16 of them (R300) or when a record is
missing (R113). (DESIGN CHOICE 17) (DEDUCED 29) -/
def formPart (d : Dev) (c : CollChunk) (ss : List SafEntry) : Dev × CollChunk :=
  let n := (ss.filter (fun s => (packEntry s).isNone)).length
  let (e, d) := if n = 0 then (0, d) else takeFree d 1
  if n > 16 then (spillFail (fsat d collExactStatsCapFail 0 1) e, failPart c Status.spillExhausted.code 0)
  else match packParts e 0 (d, []) ss with
    | some (d1, xs) => (d1, { c with vals := xs })
    | none => (spillFail d e, failPart c Status.spillExhausted.code 0)

/-- A part of exact values that has arrived with all its records: each escalated element takes a record of this module
until its node has added it (R129), after the checks of R114. -/
def holdPart (d : Dev) (c : CollChunk) : Dev × CollChunk :=
  if c.status != 0 || !(c.vals.any (fun x => escalated c.mode x && x / 2 ^ 128 != 1)) || c.vals.any (lacksRecord c.mode) then (d, c)
  else match loadParts d c.mode 0 c.vals with
    | .error f => (d, failPart c f.status.code f.info)
    | .ok ss =>
      let (e, d) := takeFree d 1
      match packParts e 0 (d, []) ss with
      | some (d1, xs) => (d1, { c with vals := xs })
      | none => (spillFail d e, failPart c Status.spillExhausted.code 0)

/-- The values of parts of exact values, loaded and their records freed. -/
def takeExact (d : Dev) (cs : List CollChunk) : Except Fail (List (List SafEntry)) :=
  match cs with
  | [] => .ok []
  | c :: rest => match loadParts d c.mode 0 c.vals, takeExact d rest with
    | .ok s, .ok ss => .ok (s :: ss)
    | .error f, _ => .error f
    | _, .error f => .error f

/-- The values of a node's own part in an exact mode. -/
def exactResult (d : Dev) (gather : Bool) (r : CollChunk) (cs : List CollChunk) : Dev × CollChunk :=
  let freed := cs.foldl (fun d c => releaseParts d c.mode c.vals) d
  match takeExact d cs with
  | .error f => (freed, failPart r f.status.code f.info)
  | .ok parts => formPart freed r (if gather then parts.flatten else nodeSum exactAdd parts)

/-- The node's own part: the sum of its children's (R124), or what makes it fail. (DEDUCED 29) -/
def nodeResult (d : Dev) (own : Nat) (n : TreeNode) (c : CollChunk) (p : NodeParts) : Dev × CollChunk :=
  let ps := orderedParts n p
  let cs := ps.map (·.2)
  let gather := c.op == CollOp.allgather.code || c.op == CollOp.broadcast.code
  let pos := if gather then cs.flatMap (·.pos) else ((cs.head?).map (·.pos)).getD []
  let digest := if cs.all (fun x => x.digest == own) then own else 2 ^ 64
  let r := { c with up := true, digest := digest, status := 0, info := 0, leafEdge := false, pos := pos, parted := [] }
  let freed := cs.foldl (fun d c => releaseParts d c.mode c.vals) d
  match cs.find? (fun x => x.status != 0) with
  | some x => (freed, failPart r x.status x.info)
  | none =>
    if !partsAgree d ps then (freed, failPart r Status.treeState.code 0)
    else if exactMode c.mode then exactResult d gather r cs
    else (d, { r with vals := if gather then cs.flatMap (·.vals) else nodeSum (nodeAdd c.mode) (cs.map (·.vals)) })

/-- Send a part up: its data, then the records of its escalated elements, which leave the spill area (R129). -/
def sendPart (d : Dev) (dst : Nat) (c : CollChunk) : Dev :=
  let recs := (List.zipIdx (c.vals.map (travelCode d c.mode))).filter (fun x => escalated c.mode x.1)
  let d0 := releaseParts d c.mode c.vals
  let d1 := sendQuiet d0 dst (.collData { c with vals := if exactMode c.mode then c.vals.map (· % 2 ^ 128) else c.vals })
  let d2 := recs.foldl (fun d x =>
    sendQuiet d dst (.collSpill ⟨c.comm, c.inst, c.chunk, c.node, c.child, x.2, x.1 / 2 ^ 128⟩)) d1
  fsat d2 collExactStatsSpills 0 recs.length

/-- The root has the reduced chunk: convert it once for the way down (R126, R299), but for the blocks that an edge of the
chunk cuts. A REDUCE goes down as it is, and its one destination converts it. -/
def rootDown (d0 : Dev) (run : CollRun) (c : CollChunk) : Dev × CollChunk :=
  let d := releaseParts d0 c.mode c.vals
  let vals := (List.zipIdx c.vals).map (fun x =>
    if exactMode c.mode then (match loadPart d0 c.mode x.2 x.1 with | .ok s => packExact s x.2 | .error _ => x.1) else x.1)
  let down := { c with up := false, vals := vals }
  match findCmd d run.ring run.seq with
  | none => (d, down)
  | some cmd =>
    let b := collBodyOf cmd.entry
    if c.status ≠ 0 || b.op == .reduce then (d, down)
    else match resolve d cmd.port cmd.groupOf b.dst with
      | .error f => (d, failPart down f.status.code f.info)
      | .ok t =>
        let xs := List.zip c.pos vals
        let whole := blockWhole (collScale d cmd b t).2 t c.pos
        let out := collConvert d cmd b t (xs.filter (fun x => whole x.1))
        (bookFor d cmd.ctx t out.sum, { down with
          pos := out.codes.map (·.1), vals := out.codes.map (·.2),
          parted := xs.filter (fun x => !whole x.1), info := (out.flags.conv out.sum).code })

/-! ### Comparison of fingerprints (R192, R193)

A comparison is a collective of its own operation code: its number names the shard and its count, chunk 0 carries the
fingerprint of the plane and chunk r + 1 that of region r. (DESIGN CHOICE 58) -/

/-- The operation code of a comparison. (DESIGN CHOICE 58) -/
def fpOp : Nat := 15

def fpInst (h count : Nat) : Nat := 2 ^ 64 + h * 2 ^ 32 + count

/-- A leaf's part of a comparison. -/
def fpPart (d : Dev) (t : Comm) (h count chunk node leaf v : Nat) : CollChunk :=
  ⟨t.id, fpInst h count, chunk, node, true, childCode (true, leaf), fpOp, 0, h, fget d collTreeStatusDigest t.id, false, 0, 0,
    [1], [v], []⟩

/-- One more value among distinct values with their leaf counts. -/
def fpCount (acc : List (Nat × Nat)) (x : Nat × Nat) : List (Nat × Nat) :=
  if acc.any (fun y => y.1 == x.1) then acc.map (fun y => if y.1 = x.1 then (y.1, y.2 + x.2) else y) else acc ++ [x]

/-- What a node passes up: the distinct values of its children, each with its leaf count. -/
def fpNode (n : TreeNode) (c : CollChunk) (p : NodeParts) : CollChunk :=
  let all := ((orderedParts n p).flatMap (fun x => List.zip x.2.vals x.2.pos)).foldl fpCount []
  { c with vals := all.map (·.1), pos := all.map (·.2) }

/-- What the root returns: the value that more than half of the leaves hold, or none, and whether the replicas differ. -/
def fpAnswer (t : Comm) (c : CollChunk) : CollChunk :=
  let most := (List.zip c.vals c.pos).find? (fun x => decide (2 * x.2 > t.n))
  { c with up := false, vals := (most.map (·.1)).toList, pos := [], info := b2n (decide (c.vals.length ≠ 1)) }

/-- The answer for a replica: it notes that the planes differ, or what came of a region; with the last region it writes
the record of R193 and raises the interrupt. -/
def fpGets (d : Dev) (c : CollChunk) : Dev :=
  let h := c.total
  match findShard d h with
  | none => d
  | some s =>
    if c.chunk = 0 then
      if c.info = 1 then updShard d h (fun s => { s with fpDiffer := some (c.inst % 2 ^ 32) }) else d
    else
      let r := c.chunk - 1
      if !s.fpWait.contains r then d
      else
        let bad := if c.info = 1 then s.fpBad ++ [r] else s.fpBad
        let wait := s.fpWait.erase r
        let d1 := updShard d h (fun s => { s with fpWait := wait, fpBad := bad })
        if wait.isEmpty then
          let ident := (bad.take 64).foldl (fun a r => a * 2 ^ 32 + r) (bad.length * 2 ^ 32 + h)
          evtSet (nutmeg (updShard d1 h (fun s => { s with fpDiffer := none }))
            ⟨0x09, 0, 2, unitId 0x0E h, s.bind.group, s.ledger.stepTag, ident⟩) 1
        else d1

/-- A chunk reaches a leaf of this module. -/
def leafTakes (d : Dev) (c : CollChunk) : Dev := if c.op = fpOp then fpGets d c else leafGets d c

/-- What a node makes of the parts of its children. -/
def nodePart (d : Dev) (n : TreeNode) (c : CollChunk) (p : NodeParts) : Dev × CollChunk :=
  if c.op = fpOp then (d, fpNode n c p) else nodeResult d (fget d collTreeStatusDigest c.comm) n c p

/-- What the root sends down. -/
def rootPart (d : Dev) (t : Comm) (r : CollChunk) : Option (Dev × CollChunk) :=
  if r.op = fpOp then some (d, fpAnswer t r) else (findRun d r.comm r.inst).map (fun run => rootDown d run r)

/-- The digest that the root sent is compared once, with the first chunk of a collective (R297). -/
def markFirst (d : Dev) (c : CollChunk) : Dev := if c.chunk = 0 ∧ c.op ≠ fpOp then markDigest d c.comm c.digest else d

/-- One step of a chunk: down at a node or a leaf, or up at a node; what follows on this module is done at once. -/
def pushChunk (fuel : Nat) (d : Dev) (src : Nat) (c : CollChunk) : Dev :=
  match fuel with
  | 0 => d
  | f + 1 =>
    match findComm d c.comm with
    | none => d
    | some t =>
      if c.leafEdge && !c.up then leafTakes (markFirst d c) c
      else match treeNodeAt t c.chunk c.node with
        | none => d
        | some n =>
          if c.up then
            let (d0, c) := holdPart d c
            let d1 := putParts d0 c (fun p =>
              { p with parts := p.parts.filter (fun x => x.2.child != c.child) ++ [(src, c)] })
            tryNode f d1 t n c
          else
            let d0 := markFirst d c
            let srcs := ((findParts d0 c).map (·.parts)).getD []
            let d1 := { d0 with fab := { d0.fab with nodes := d0.fab.nodes.filter (fun p => !isParts c p) } }
            n.children.foldl (fun d k =>
              if k.1 then
                let dest := ((srcs.find? (fun x => x.2.child == childCode k)).map (·.1)).getD (ownId d)
                let m := { c with leafEdge := true, child := k.2 }
                if dest = ownId d then leafTakes d m else sendQuiet d dest (.collData m)
              else
                let m := { c with node := k.2 }
                match treeNodeAt t c.chunk k.2 with
                | some kn => if kn.holder = ownId d then pushChunk f d (ownId d) m else sendQuiet d kn.holder (.collData m)
                | none => d) d1
where
  /-- A node that may have all its parts sends its own on, or turns round at the root. -/
  tryNode (f : Nat) (d : Dev) (t : Comm) (n : TreeNode) (c : CollChunk) : Dev :=
    match findParts d c with
    | none => d
    | some p =>
      if !partsReady n p || (n.parent == 0xFFFF && c.op != fpOp && (findRun d c.comm c.inst).isNone) then d
      else
        let (d1, r) := nodePart d n c p
        let added := fun (p : NodeParts) =>
        { p with sent := true, parts := p.parts.map (fun (x : Nat × CollChunk) => (x.1, { x.2 with vals := [] })) }
        let d2 := putParts d1 c added
        if n.parent = 0xFFFF then
          match rootPart d2 t r with
          | none => d2
          | some (d3, m) => (match f with | 0 => d3 | g + 1 => pushChunk g d3 (ownId d3) m)
        else
          let m := { r with node := n.parent, child := c.node }
          match treeNodeAt t c.chunk n.parent with
          | none => d2
          | some pn =>
            if pn.holder = ownId d2 then (match f with | 0 => d2 | g + 1 => pushChunk g d2 (ownId d2) m)
            else sendPart d2 pn.holder m

/-- Enough steps for the longest way up and down one tree. -/
def Comm.fuel (t : Comm) : Nat := 4 * ((t.trees.map (·.length)).foldl max 0) + 8

/-- DEDUCED 29 of the log. -/
def chunkArrives (d : Dev) (src : Nat) (c : CollChunk) : Dev :=
  match findComm d c.comm with
  | none => d
  | some t => pushChunk t.fuel d src c

/-- R129: a spill record joins its entry; the node goes on when nothing more is missing. -/
def spillArrives (d : Dev) (s : CollSpill) : Dev :=
  let hit := fun (p : NodeParts) => p.comm == s.comm && p.inst == s.inst && p.chunk == s.chunk && p.node == s.node
  match (d.fab.nodes.find? hit).bind (fun p => p.parts.find? (fun x => x.2.child == s.child)) with
  | none => d
  | some (src, c) =>
    if (c.vals[s.element]?).any (lacksRecord c.mode) then
      chunkArrives d src { c with vals := listUpd c.vals s.element (fun x => x + s.record * 2 ^ 128) }
    else d

/-! ### The command -/

/-- The widened values of a leaf by linear index, or how a read of them fails. -/
def leafReps (d : Dev) (mode : Nat) (t : Tensor) (is : List Nat) : Except Fail (List Nat) :=
  match is with
  | [] => .ok []
  | i :: rest => match leafRep d mode t i with
    | .error s => .error s
    | .ok v => (leafReps d mode t rest).map (v :: ·)

/-- The node that lists leaf `l` in the tree of chunk `j`, by index. -/
def leafNode (t : Comm) (j l : Nat) : Option Nat :=
  ((t.trees[j % t.trees.length]?).getD []).findIdx? (fun n => n.children.contains (true, l))

/-- R194: the local sum of squares of the leaves that go to the update units. -/
def addLocalNorm (d : Dev) (c : Ctx) (t : Tensor) (is : List Nat) : Dev :=
  match c.group with
  | none => d
  | some g => updGroup d g (fun x =>
      { x with l2 := is.foldl (fun s i => let v := elemVal d t i; normAdd s (valMul v v)) x.l2 })

/-- Contribute a leaf's chunks. (DEDUCED 29) -/
def contribute (d : Dev) (b : CollBody) (t : Comm) (inst digest total : Nat) (xs : List (Nat × Nat)) (chunks : Nat) : Dev :=
  let per := chunkElems b.mode
  (List.range chunks).foldl (fun d j =>
    match leafNode t j b.leaf with
    | none => d
    | some node =>
      let mine := (xs.drop (per * j)).take per
      let c0 : CollChunk := ⟨b.comm, inst, j, node, true, childCode (true, b.leaf), b.op.code, b.mode, total, digest, false,
        0, 0, mine.map (·.1), mine.map (·.2), []⟩
      let (d, c) := if exactMode b.mode then formPart d c0 (c0.vals.map unpackExact) else (d, c0)
      match treeNodeAt t j node with
      | none => d
      | some n =>
        if n.holder = ownId d then pushChunk t.fuel d (ownId d) c else sendPart d n.holder c) d

/-- Nodes of this collective that were waiting for this module's own COLL. -/
def retryNodes (d : Dev) (t : Comm) (inst : Nat) : Dev :=
  (d.fab.nodes.filter (fun p => p.comm == t.id && p.inst == inst && !p.sent)).foldl (fun d p =>
    match p.parts.head? with
    | none => d
    | some (src, c) => pushChunk t.fuel d src c) d

/-- The peers that this module exchanges the chunks of a collective with, as leaf `l` and as a holder of nodes. -/
def collPeers (d : Dev) (t : Comm) (l : Nat) : List Nat :=
  let own := ownId d
  let edges := fun (tr : List TreeNode) (n : TreeNode) =>
    let near := n.children.filterMap (fun k => if k.1 then none else (tr[k.2]?).map (·.holder)) ++ ((tr[n.parent]?).map (·.holder)).toList
    (if n.holder = own then near else []) ++ (if n.children.contains (true, l) then [n.holder] else [])
  (t.trees.flatMap (fun tr => tr.flatMap (edges tr))).filter (· != own)

/-- R31: every port of the routes to a peer is retired. -/
def routeRetired (d : Dev) (dst : Nat) : Bool :=
  let port := fun (v p : Field) => if fget d v dst = 1 then [fget d p dst] else []
  let ports := port blRouteValid blRoutePort ++ port blRouteAltValid blRouteAltPort
  !ports.isEmpty && ports.all d.retired.links.contains

/-- The collective begins: it is numbered, its run is noted, and the shards it delivers to are taken. -/
def openRun (d : Dev) (c : Ctx) (b : CollBody) (t : Comm) (inst chunks : Nat) (dst : Option Tensor) : Dev :=
  let t1 := { t with counts := smapPut t.counts b.leaf (inst + 1) }
  let run : CollRun := ⟨c.ring, c.seq, b.comm, inst, b.leaf, List.range chunks, 0, []⟩
  let comms := listUpdWhere d.fab.comms (fun x => x.id == b.comm) (fun _ => t1)
  let d1 := { d with fab := { d.fab with comms := comms, colls := d.fab.colls ++ [run] } }
  match dst with
  | some x => if b.toUpdate then
      (liveShards x).foldl (fun d s => updShard d s.bind.shard (fun s => { s with delivered := true })) d1
    else d1
  | none => d1

/-- What a COLL contributes and waits for, once its checks have passed. -/
def startColl (d : Dev) (c : Ctx) (b : CollBody) (t : Comm) (src dst : Option Tensor) : Res :=
  let total := ((src <|> dst).map (·.raw.count)).getD 0
  let is := (List.range total).filter (b.carries src dst)
  match (match src with | some s => leafReps d b.mode s is | none => .ok []) with
  | .error f => resFail d f
  | .ok reps =>
    let inst := smapGet t.counts b.leaf 0
    let off := if b.op = .allgather then b.leaf * total else 0
    let chunks := cdiv is.length (chunkElems b.mode)
    let d1 := openRun d c b t inst chunks dst
    let d2 := match src with | some s => if b.toUpdate then addLocalNorm d1 c s is else d1 | none => d1
    let d3 := retryNodes d2 t inst
    if chunks = 0 then resOk { d3 with fab := { d3.fab with colls := d3.fab.colls.filter (fun r => !(r.ring == c.ring && r.seq == c.seq)) } } 0
    else resWait (contribute d3 b t inst (fget d collTreeStatusDigest b.comm) total
      (if src.isSome then List.zip (is.map (· + off)) reps else []) chunks)

/-- Run a data operation of COLL once it has started: the leaf contributes, and the command ends when every chunk of its
destination has come down. -/
def runCollData (d : Dev) (c : Ctx) (e : Nat) : Res :=
  let b := collBodyOf e
  let state := fget d collTreeStatusState b.comm
  if b.mode > 4 then resStatus d .reservedField
  else if (!b.takesSrc && b.src != 0) || (!b.takesDst && b.dst != 0) then resStatus d .reservedField
  else match findComm d b.comm with
    | none => resStatus d .treeState
    | some t =>
      if state = 0 ∨ state = 3 ∨ b.leaf ≥ t.n then resStatus d .treeState
      else if (collPeers d t b.leaf).any (routeRetired d) then resStatus d .resourceUnavailable
      else match resolveIf d c.port none b.takesSrc b.src, resolveIf d c.port c.group b.takesDst b.dst with
        | .error f, _ => resFail d f
        | _, .error f => resFail d f
        | .ok src, .ok dst =>
          match collStatus d c b t src dst with
          | some s => resStatus d s
          | none =>
            let fails := (src.bind (fun s => tensorFails d s false)) <|> (dst.bind (fun x => if b.toUpdate then none else tensorFails d x true))
            let d := match src with | some s => noteTensor d s | none => d
            match fails with
            | some f => resFail d f
            | none => startColl (match dst with | some x => openTensor d x | none => d) c b t src dst

/-- COLL commands in progress over a communicator (R356). -/
def collsOver (d : Dev) (comm : Nat) : Bool := d.fab.colls.any (fun r => r.comm == comm)

/-- Whether a module holds a node of a communicator (R295). -/
def commHolds (t : Comm) (peer : Nat) : Bool := t.trees.any (·.any (fun n => n.holder == peer))

end Sys2Proof.Machine
end

