-- ==== Sys2Proof/Machine/Sumac.lean ====
section
/-! DEFINITION. Sumac: the rule of the scale exponent (R93), what a reduced close does to a slot (R94, R95), gradient
formats (R97 to R99), SCALE_SET at once and deferred (R96), and census records (R89, R90, R472). -/
namespace Sys2Proof.Machine

/-! ### Slots -/

/-- Slots that hold anything beside their reset value, and are bound, in ascending order. -/
def boundSlots (d : Dev) : List Nat :=
  d.regs.filterMap (fun e =>
    if e.1 / 2 ^ 20 = Reg.sumacSlot.ctorIdx ∧ slotBound d (e.1 % 2 ^ 20) then some (e.1 % 2 ^ 20) else none)

def groupSlots (d : Dev) (g : Nat) : List Nat := (boundSlots d).filter (fun s => slotGroup d s == g)

/-- SUMAC_STATUS after a change of slots. (DEDUCED 15) -/
def sumacStatus (d : Dev) : Dev :=
  let b := boundSlots d
  fset (fset d sumacStatusSlotsBound 0 b.length) sumacStatusSlotsFallback 0 (b.filter (slotSaturates d)).length

/-- History entry `i`, a BF16 magnitude. -/
def histEntry (d : Dev) (s i : Nat) : Nat := fget d sumacSlotHist s / 2 ^ (16 * i) % 2 ^ 16

/-- The entries in force: hist_count of them, at most hist_len. -/
def histMax (d : Dev) (s : Nat) : Nat :=
  (List.range (min (fget d sumacSlotHistCount s) (fget d sumacHistCfgHistLen 0))).foldl (fun m i => max m (histEntry d s i)) 0

/-- floor(log2) of a positive BF16 magnitude; 128 for +∞ (R93). -/
def bf16Log (x : Nat) : Int := if x = 0x7F80 then 128 else valLog2 (Fmt.bf16.decode x)

/-- R93: the exponent before the clamp, for a format; none when the history holds nothing. -/
def rawScale (d : Dev) (s : Nat) (f : Fmt) : Option Int :=
  let a := histMax d s
  if a = 0 then none
  else some (f.eSat - bf16Log a - 1 - (fget d sumacSlotHeadroom s : Int) - (fget d sumacSlotExtra s : Int))

def clampScale (e : Int) : Int := min (max e (-126)) 126

/-- R93: compute the exponent of a slot in history mode. -/
def computeScale (d : Dev) (s : Nat) : Dev :=
  match rawScale d s ((fmtOfCode (slotFmt d s)).getD .bf16) with
  | none => d
  | some e =>
    let d1 := fset d sumacSlotE s (codeOfInt 8 (clampScale e))
    fset d1 sumacSlotClamped s (b2n (decide (e < -126 ∨ e > 126)))

/-! ### The close (R94, R95) -/

/-- Ones among the low `n` bits. -/
def popcount (n x : Nat) : Nat := ((List.range n).filter x.testBit).length

/-- Step 1 of R94. -/
def pushHistory (d : Dev) (s amax : Nat) : Dev :=
  let len := fget d sumacHistCfgHistLen 0
  let head := fget d sumacSlotHistHead s % max 1 len
  let v := encodeBf16Up (decode32 amax)
  let h := fget d sumacSlotHist s
  let d1 := fset d sumacSlotHist s (setBits h (16 * head + 15) (16 * head) v)
  fset (fset d1 sumacSlotHistHead s ((head + 1) % max 1 len)) sumacSlotHistCount s (min (fget d sumacSlotHistCount s + 1) len)

/-- Steps 2 to 5 of R94, and the count of R95. -/
def closeSlot (d : Dev) (tag verdict : Nat) (s : Nat) (c : Census) : Dev :=
  let sat := slotSaturates d s
  let d1 := pushHistory d s c.amax
  let win := (fget d1 sumacSlotSkipWin s * 2 + b2n (!sat && c.overflow != 0)) % 2 ^ 128
  let d2 := fset d1 sumacSlotSkipWin s win
  let bad := c.overflow != 0 || c.nonfinite != 0
  let d3 :=
    if bad then
      fset (fset d2 sumacSlotExtra s (min (fget d2 sumacSlotExtra s + 1) (fget d2 sumacPolicyCfgExtraMax 0))) sumacSlotClean s 0
    else if verdict = 0 then
      let n := fget d2 sumacSlotClean s + 1
      if n ≥ fget d2 sumacPolicyCfgDecaySteps 0 then
        fset (fset d2 sumacSlotExtra s (fget d2 sumacSlotExtra s - 1)) sumacSlotClean s 0
      else fset d2 sumacSlotClean s n
    else d2
  let ones := popcount (fget d3 sumacPolicyCfgSkipWindow 0) win
  let d4 := if !sat && decide (ones > fget d3 sumacPolicyCfgSkipMax 0) then
      fset (fset d3 sumacSlotFallback s 1) sumacSlotFbCnt s 0 else d3
  let d5 := if sat && fget d sumacFbretCfgFbReturn 0 != 0 then
      fset d4 sumacSlotFbCnt s (if c.overflow = 0 then satAdd 16 (fget d4 sumacSlotFbCnt s) 1 else 0) else d4
  let d6 := fset d5 sumacSlotLastTag s tag
  if bad || fget d6 sumacSlotExtra s != fget d sumacSlotExtra s || fget d6 sumacSlotFallback s != fget d sumacSlotFallback s then
    decision d6 0 (unitId 0 s) tag [s, fget d6 sumacSlotExtra s, fget d6 sumacSlotFallback s] else d6

/-- The record of a slot at a close (Table 3.6). Its flag [21] is set for every slot in saturate-and-count, by R94 or by
SCALE_SET (DEDUCED 87). A slot without conversions goes on serving a block-scaled tensor if it did (R82). -/
def closedOf (d : Dev) (grp : Group) (tag : Nat) (reduced : Bool) (s : Nat) (c : Census) : ClosedCensus :=
  let before := (grp.closed.find? (fun r => r.1 == s)).any (·.2.blockScaled)
  ⟨tag, fget d sumacSlotE s, slotFmt d s, reduced, grp.carriedIn, slotSaturates d s, c.blocked || (c.total == 0 && before), c⟩

/-- R94 over every slot of a group, or R90 when the census did not reduce. (DEDUCED 64) -/
def sumacClose (d : Dev) (g tag verdict : Nat) (reduced : Option (List (Nat × Census))) (comm : Bool) : Dev :=
  match groupAt d g with
  | none => d
  | some grp =>
    let slots := groupSlots d g
    match reduced with
    | none =>
      let recs := slots.map (fun s => (s, closedOf d grp tag false s (smapGet grp.census s censusZero)))
      updGroup d g (fun x =>
        { x with carried := x.census, hasCarried := true, closed := recs, lastTag := tag })
    | some cs =>
      let recs := slots.map (fun s => (s, closedOf d grp tag comm s (smapGet cs s censusZero)))
      let d1 := updGroup d g (fun x =>
        { x with closed := recs, deciding := recs, closeCount := x.closeCount + 1, lastTag := tag, carried := [], hasCarried := false })
      sumacStatus (slots.foldl (fun d s => closeSlot d tag verdict s (smapGet cs s censusZero)) d1)

/-! ### Gradient formats (R97 to R99) -/

/-- The ranks of R97, by the bits of the mask. -/
def gradRanks : List Fmt := [.fp8E4M3, .fp8E5M2, .bf16]

/-- Values of a census that format `c` would lose, given the scale `ec` it would have (R97). -/
def predictedLoss (c : Fmt) (ec : Int) (k : ClosedCensus) : Nat :=
  let f := (fmtOfCode k.fmt).getD .bf16
  ((List.zipIdx k.census.hist).map (fun h =>
    let lost := if h.2 = 31 then c != .bf16
      else decide (f.eSat - (h.2 : Int) - signedOf 8 k.e + ec < c.emin)
    if lost then h.1 else 0)).foldl (· + ·) 0

/-- A candidate qualifies (R97). -/
def qualifies (d : Dev) (s : Nat) (k : ClosedCensus) (c : Fmt) : Bool :=
  let ec := match rawScale d s c with | some e => clampScale e | none => slotExp d s
  decide (predictedLoss c ec k * 2 ^ fget d sumacGfmtCfgUflowLog2 0 ≤ k.census.hist.foldl (· + ·) 0)

/-- R98, R99: the format and the qualification count of a slot at STEP_OPEN. `mask` is the permitted mask; `fresh` says
that the deciding census is newer than the one that decided the last STEP_OPEN. -/
def chooseFormat (d : Dev) (s mask : Nat) (fresh : Bool) (k : Option ClosedCensus) : Nat × Nat :=
  let cur := slotFmt d s
  let qual := fget d sumacSlotFmtQual s
  let permitted := ((List.zipIdx gradRanks).filter (fun r => mask.testBit r.2)).map (·.1)
  let last := ((permitted.getLast?).map Fmt.code).getD cur
  let good := match k with
    | some k => if k.census.hist.foldl (· + ·) 0 = 0 then [] else permitted.filter (qualifies d s k)
    | none => []
  let values := k.any (fun k => k.census.hist.foldl (· + ·) 0 != 0)
  if permitted.isEmpty then (cur, qual)
  else if !permitted.any (fun f => f.code == cur) then (((good.head?).map Fmt.code).getD last, 0)
  else if !values then (cur, if fresh then 0 else qual)
  else
    let rank := (gradRanks.findIdx? (fun f => f.code == cur)).getD 0
    if !good.any (fun f => f.code == cur) then
      let below := good.filter (fun f => decide ((gradRanks.findIdx? (· == f)).getD 0 > rank))
      (((below.head?).map Fmt.code).getD last, 0)
    else if !fresh then (cur, qual)
    else
      match (good.filter (fun f => decide ((gradRanks.findIdx? (· == f)).getD 0 < rank))).head? with
      | none => (cur, 0)
      | some f => if qual + 1 ≥ fget d sumacGfmtCfgQualSteps 0 then (f.code, 0) else (cur, qual + 1)

/-- The permitted mask of a slot's binds in a group (R138). -/
def slotMask (d : Dev) (g s : Nat) : Option Nat :=
  (d.shards.find? (fun x => x.bind.gslot == s && x.bind.group == g)).map (fun x => x.bind.gmask)

/-! ### SCALE_SET (R96) -/

/-- The fields of the body word of SCALE_SET (Table 12.16). -/
structure ScaleSet where
  e : Int
  hrDflt : Bool
  unbind : Bool
  keepHist : Bool
  policy : Nat
  histMode : Nat
  headroom : Nat
  group : Nat
  fmt : Nat
  slot : Nat
deriving DecidableEq, Repr

def scaleSetOf (w : Nat) : ScaleSet :=
  ⟨signedOf 8 (bits w 39 32), bit w 31, bit w 30, bit w 29, bits w 28 28, bits w 27 27, bits w 26 24, bits w 23 20,
   bits w 19 16, bits w 14 0⟩

/-- A SCALE_SET takes effect. -/
def applyScaleSet (d : Dev) (w : Nat) : Dev :=
  let x := scaleSetOf w
  let s := x.slot
  if x.unbind then sumacStatus (fset d sumacSlotBound s 0)
  else
    let hr := if x.hrDflt then fget d sumacHistCfgHeadroomDflt 0 else x.headroom
    let put := fun (d : Dev) (p : Field × Nat) => fset d p.1 s p.2
    let d1 := [(sumacSlotBound, 1), (sumacSlotGroup, x.group), (sumacSlotFmt, x.fmt), (sumacSlotE, codeOfInt 8 x.e),
      (sumacSlotHistMode, x.histMode), (sumacSlotPolicy, x.policy), (sumacSlotHeadroom, hr), (sumacSlotExtra, 0),
      (sumacSlotClean, 0), (sumacSlotSkipWin, 0), (sumacSlotFallback, 0), (sumacSlotFbCnt, 0)].foldl put d
    let d2 := if x.keepHist then d1
      else [(sumacSlotHist, 0), (sumacSlotHistCount, 0), (sumacSlotHistHead, 0)].foldl put d1
    sumacStatus d2

/-- The groups that govern a SCALE_SET: the one whose STEP_OPEN applies it, and another one. -/
def scaleGroups (d : Dev) (x : ScaleSet) : Option Nat × Option Nat :=
  let cur := if slotBound d x.slot then some (slotGroup d x.slot) else none
  if x.unbind then (cur, none)
  else (some x.group, if cur = some x.group then none else cur)

/-- Run SCALE_SET. -/
def runScaleSet (d : Dev) (c : Ctx) (e : Nat) : Res :=
  let w := entryWord e 4
  let x := scaleSetOf w
  if (x.unbind && w != 2 ^ 30 + x.slot) || (x.hrDflt && x.headroom != 0) || (!x.unbind && (fmtOfCode x.fmt).isNone) then
    resStatus d .reservedField
  else if x.e < -126 ∨ x.e > 126 then resStatus d .badParam
  else
    let gs := scaleGroups d x
    let isOpen := fun (g : Option Nat) => g.any (epochOpenFor d c)
    if !isOpen gs.1 && !isOpen gs.2 then resOk (applyScaleSet d w) 0
    else match gs.1 with
      | none => resOk (applyScaleSet d w) 0
      | some g => resOk { d with steps := { d.steps with deferred := d.steps.deferred ++ [⟨x.slot, w, g, gs.2, c.ring, c.seq, 0, none⟩] } } 0

def updDeferred (d : Dev) (f : Deferred → Deferred) : Dev :=
  { d with steps := { d.steps with deferred := d.steps.deferred.map f } }

/-- A STEP_OPEN of group `g` is taken: the deferred SCALE_SETs that no other governing group's open epoch holds back take
effect at it (R96). -/
def markDeferred (d : Dev) (g ring seq : Nat) : Dev :=
  updDeferred d (fun x =>
    if x.applyGroup == g && x.opener.isNone && !x.otherGroup.any (fun o => o != g && epochOpen d o) then
      { x with opener := some (ring, seq) } else x)

/-- A STEP_OPEN that opened nothing leaves them for another one. -/
def unmarkDeferred (d : Dev) (ring seq : Nat) : Dev :=
  updDeferred d (fun x => if x.opener = some (ring, seq) then { x with opener := none } else x)

/-- The completion of a SCALE_SET is posted (R96). -/
def postDeferred (d : Dev) (ring seq : Nat) : Dev :=
  let n := d.steps.deferred.foldl (fun m x => max m x.posted) 0 + 1
  updDeferred d (fun x => if x.ring = ring ∧ x.seq = seq then { x with posted := n } else x)

/-- Of two SCALE_SETs for one slot the one that applies: later in ring order, or posted later when the rings differ. -/
def laterDeferred (a b : Deferred) : Deferred :=
  if a.ring = b.ring then (if serialDiff b.seq a.seq < 2 ^ 31 then b else a)
  else if b.posted = 0 ∨ (a.posted ≠ 0 ∧ a.posted ≤ b.posted) then b else a

/-- R96: of the SCALE_SETs that take effect at a STEP_OPEN, apply one for each slot. -/
def applyDeferred (d : Dev) (ring seq : Nat) : Dev :=
  let due := d.steps.deferred.filter (fun x => x.opener == some (ring, seq))
  let last := due.filter (fun x => due.foldl (fun a y => if y.slot = a.slot then laterDeferred a y else a) x == x)
  let d1 := { d with steps := { d.steps with deferred := d.steps.deferred.filter (fun x => x.opener != some (ring, seq)) } }
  last.foldl (fun d x => applyScaleSet d x.word) d1

/-! ### The open (R93, R95, R99) -/

/-- What STEP_OPEN does to one slot of the group. A slot in saturate-and-count, by R94 or by SCALE_SET, returns to skip
policy under R95 (DEDUCED 87); a slot that serves a block-scaled tensor gets no scale (R82). -/
def openSlot (g tag : Nat) (fresh : Bool) (recs : List (Nat × ClosedCensus)) (d : Dev) (s : Nat) : Dev :=
  let ret := fget d sumacFbretCfgFbReturn 0
  let d1 := if slotSaturates d s && ret != 0 && decide (fget d sumacSlotFbCnt s ≥ ret) then
      [(sumacSlotFallback, 0), (sumacSlotPolicy, 0), (sumacSlotSkipWin, 0), (sumacSlotFbCnt, 0)].foldl
        (fun d p => fset d p.1 s p.2) d else d
  if fget d1 sumacSlotHistMode s = 0 then d1
  else
    let k := (recs.find? (fun r => r.1 == s)).map (·.2)
    let d2 := match slotMask d1 g s with
      | none => d1
      | some mask =>
        let (f, q) := chooseFormat d1 s mask fresh k
        let d2 := fset (fset d1 sumacSlotFmt s f) sumacSlotFmtQual s q
        if f = slotFmt d1 s then d2 else decision d2 1 (unitId 0 s) tag [s, f]
    let d3 := if k.any (·.blockScaled) then d2 else computeScale d2 s
    if fget d3 sumacSlotE s = fget d sumacSlotE s then d3 else decision d3 0 (unitId 0 s) tag [s, fget d3 sumacSlotE s]

/-- Sumac at the STEP_OPEN `seq` of ring `ring` for group `g`. -/
def sumacOpen (d : Dev) (g tag ring seq : Nat) : Dev :=
  match groupAt d g with
  | none => d
  | some grp =>
    let fresh := grp.closeCount != grp.decidedBy
    let d1 := (groupSlots d g).foldl (openSlot g tag fresh grp.deciding) d
    let d2 := applyDeferred d1 ring seq
    sumacStatus (updGroup d2 g (fun x => { x with decidedBy := x.closeCount }))

/-! ### CENSUS_READ (R89, R472) -/

/-- The 192 bytes of Table 3.6; each count saturates. -/
def censusRecord (tag e fmt slot : Nat) (reduced carried fallback : Bool) (c : Census) : List Byte :=
  let flags := b2n reduced * 8 + b2n carried * 4 + b2n fallback * 2 + b2n c.blocked
  let w1 := e % 256 * 2 ^ 24 + flags * 2 ^ 20 + fmt % 16 * 2 ^ 16 + slot % 2 ^ 15
  let sat := fun (w x : Nat) => min x (2 ^ w - 1)
  leBytes 4 tag ++ leBytes 4 w1 ++ leBytes 8 (sat 64 c.total) ++ leBytes 4 (sat 32 c.overflow)
  ++ leBytes 4 (sat 32 c.underflow) ++ leBytes 4 (sat 32 c.nonfinite) ++ leBytes 4 0 ++ leBytes 4 c.amax
  ++ leBytes 28 0 ++ c.hist.flatMap (fun h => leBytes 4 (sat 32 h))

/-- The record of one slot, as R472 chooses it. -/
def censusOf (d : Dev) (c : Ctx) (closed : Bool) (s : Nat) : List Byte :=
  let g := slotGroup d s
  let cur := fun (tag : Nat) (carried : Bool) (k : Census) =>
    censusRecord tag (fget d sumacSlotE s) (slotFmt d s) s false carried (slotSaturates d s) k
  if closed then
    match (groupAt d g).bind (fun x => (x.closed.find? (fun r => r.1 == s)).map (·.2)) with
    | some k => censusRecord k.tag k.e k.fmt s k.reduced k.carried k.fallback k.census
    | none => cur (((groupAt d g).map (·.lastTag)).getD 0) false censusZero
  else if c.group = some g && slotBound d s then
    let grp := groupAt d g
    cur c.stepTag ((grp.map (·.carriedIn)).getD false) (smapGet ((grp.map (·.census)).getD []) s censusZero)
  else cur 0 false (smapGet d.steps.outside s censusZero)

/-- The command reads the counts outside epochs of slot `s`. -/
def readsOutside (d : Dev) (c : Ctx) (closed : Bool) (s : Nat) : Bool :=
  !closed && !(c.group = some (slotGroup d s) && slotBound d s)

/-- Run CENSUS_READ. -/
def runCensusRead (d : Dev) (c : Ctx) (e : Nat) : Res :=
  let dst := entryWord e 4
  let w := entryWord e 5
  let closed := bit w 33
  let n := bits w 31 16
  let first := bits w 14 0
  if n = 0 ∨ first + n > 32768 then resStatus d .badParam
  else if dst % 64 ≠ 0 || !rangeNamed d c.port dst (192 * n) then resStatus d .badAddress
  else match accessFails d dst (192 * n) true with
    | some f => resFail d f
    | none =>
      let slots := (List.range n).map (fun i => first + i)
      let d1 := store d dst (slots.flatMap (censusOf d c closed))
      let d2 := if bit w 32 then
          slots.foldl (fun d s => if readsOutside d c closed s then
            { d with steps := { d.steps with outside := smapErase d.steps.outside s } } else d) d1
        else d1
      resOk d2 (n % 2 ^ 16)

end Sys2Proof.Machine
end

