-- ==== Sys2Proof/Machine/Plan.lean ====
section
/-! DEFINITION. The memory plan (R265 to R268): the entries that commands write and read, their placement at STEP_OPEN,
copy-out, restore and recompute, and the accounts of pipeline stages (R272 to R274). -/
namespace Sys2Proof.Machine

/-! ### The entries of a command -/

/-- The plan entry that the descriptor at an address names, if it can be read and names one. -/
def descPlan (d : Dev) (a : Nat) : Option Nat :=
  if a = 0 || a % 64 ≠ 0 || (accessFails d a 64 false).isSome then none
  else
    let r := rawDescOf (memReadNat d a 64)
    if r.planEn && !r.bound then some r.plan else none

/-- Addresses of the descriptors that a command reads, and of those that it writes. -/
def commandDescs (d : Dev) (e : Nat) : List Nat × List Nat :=
  let w := entryWord e
  let ops := fun a n => (List.range n).map (fun i => if (accessFails d a (8 * n) false).isSome then 0 else memReadNat d (a + 8 * i) 8)
  match opcodeOf (headerOf e).opcode with
  | some .mm | some .sliceMm | some .conv => ([w 4, w 5], [w 6])
  | some .row => let o := ops (w 6) 8; ((List.range 8).filterMap (fun i => if i = 5 then none else o[i]?), [o.getD 5 0])
  | some .vec => let o := ops (w 6) 4; ([o.getD 0 0, o.getD 1 0], [o.getD 2 0])
  | some .copy => if bit (w 6) 8 then ([], []) else ([w 4], [w 5])
  | some .coll => ([w 5], [w 6])
  | _ => ([], [])

def planReads (d : Dev) (e : Nat) : List Nat := (commandDescs d e).1.filterMap (descPlan d)
def planWrites (d : Dev) (e : Nat) : List Nat := (commandDescs d e).2.filterMap (descPlan d)

def findPlan (d : Dev) (i : Nat) : Option PlanRun := d.steps.plan.find? (fun p => p.index == i)

def updPlan (d : Dev) (i : Nat) (f : PlanRun → PlanRun) : Dev :=
  { d with steps := { d.steps with plan := listUpdWhere d.steps.plan (fun p => p.index == i) f } }

/-- An entry whose data is not there to be read. -/
def PlanRun.absent (p : PlanRun) : Bool := p.phase == .away || p.phase == .restoring || p.phase == .discarded

/-- R266, R272: whether a command belongs to the backward pass. ROW and VEC say so; for the others the manual does not.
(DESIGN CHOICE 18) -/
def isBackward (e : Nat) : Bool :=
  match opcodeOf (headerOf e).opcode with
  | some .row => (rowKindOf (rowBodyOf e).kind).any (fun k => !k.writesStats)
  | some .vec => bit (entryWord e 4) 8
  | _ => Config.isBackward e

/-- R267: whether a command of an epoch waits for the plan, and how a restore that met an error fails it (R230). -/
def planBlocks (d : Dev) (c : Ctx) (e : Nat) : Option Fail :=
  if c.group.isNone || c.recompute then none
  else (planReads d e).findSome? (fun i =>
    match findPlan d i with
    | none => none
    | some p =>
      if p.absent then some ⟨.planWait, i⟩
      else match p.bad with | some a => some ⟨.uncorrectable, a⟩ | none => none)

/-- The stamps of first backward reads, and entries about to be written again. -/
def planStart (d : Dev) (c : Ctx) (e : Nat) : Dev :=
  if c.group.isNone || c.recompute then d
  else
    let d1 := (planReads d e).foldl (fun d i => updPlan d i (fun p =>
      if isBackward e && p.writtenAt ≠ 0 && p.firstRead.isNone then { p with firstRead := some d.time } else p)) d
    (planWrites d1 e).foldl (fun d i => updPlan d i (fun p => { p with phase := .empty, bad := none })) d1

/-- The forward write of an entry has committed: it is at home, or discarded when it is to be recomputed (R266 to R268). -/
def planCommit (d : Dev) (cmd : Cmd) : Dev :=
  if cmd.groupOf.isNone || cmd.status != 0 then d
  else (planWrites d cmd.entry).foldl (fun d i => updPlan d i (fun p =>
    { p with phase := if p.placed = 4 then .discarded else .home, ring := cmd.ring, seq := cmd.seq, port := cmd.port,
             stepTag := cmd.stepTag, writer := cmd.entry, runNs := d.time - cmd.startedAt, writtenAt := max 1 d.time,
             firstRead := none, fetched := cmd.fetched })) d

/-! ### Placement (R266) -/

/-- Valid entries of a group, by index. -/
def planEntries (d : Dev) (g : Nat) : List Nat :=
  d.regs.filterMap (fun e =>
    let i := e.1 % 2 ^ 20
    if e.1 / 2 ^ 20 = Reg.dmaPlanEntry.ctorIdx ∧ fget d dmaPlanEntryValid i = 1 ∧ fget d dmaPlanEntryGroup i = g then some i
    else none)

/-- Insertion by ascending slack; the list given is by ascending index, which breaks ties. -/
def insertSlack (d : Dev) (xs : List Nat) (i : Nat) : List Nat :=
  match xs with
  | [] => [i]
  | x :: rest =>
    if fget d dmaPlanEntrySlackUs x ≤ fget d dmaPlanEntrySlackUs i then x :: insertSlack d rest i else i :: x :: rest

/-- Space left in the areas of a group while it is being placed, and what has been placed. -/
structure Placing where
  home : Nat
  dram : Nat
  host : Nat
  dramAt : Nat
  hostAt : Nat
  reserve : Nat
  done : List PlanRun
deriving DecidableEq, Repr

/-- cost(t) of R266 in nanoseconds, 0 without a measurement. -/
def planCost (d : Dev) (g area size slackUs : Nat) : Nat :=
  let count := ((groupAt d g).map (·.closes)).getD 0
  let bw := if count = 0 then 0 else Config.planRate g area count
  if bw = 0 then 0 else 2 * size * 1000000000 / bw - slackUs * 1000

/-- The plan entries among the inputs of the command that last wrote an entry. -/
def writerInputs (d : Dev) (i : Nat) : List Nat :=
  match findPlan d i with | some p => if p.writer = 0 then [] else planReads d p.writer | none => []

/-- R268: recompute is permitted only for a recorded command all of whose plan inputs are placed otherwise. -/
def recomputeOk (d : Dev) (g : Nat) (pl : Placing) (i : Nat) : Bool :=
  ((findPlan d i).map (fun p => p.writer != 0)).getD false
  && (writerInputs d i).all (fun j =>
    (pl.done ++ d.steps.plan.filter (fun p => p.group != g)).any (fun p => p.index == j && p.placed != 4))

/-- Place one entry; none when it cannot be placed. (DEDUCED 38) -/
def placeEntry (d : Dev) (g : Nat) (pl : Placing) (i : Nat) : Option Placing :=
  let size := fget d dmaPlanEntrySize i
  let permit := fget d dmaPlanEntryPermit i
  let slack := fget d dmaPlanEntrySlackUs i
  let keep := bit permit 0 && decide (size ≤ pl.home)
  let dram := bit permit 1 && decide (size ≤ pl.dram)
  let host := bit permit 2 && decide (size ≤ pl.host)
  let rc := bit permit 3 && recomputeOk d g pl i
  let cd := planCost d g 2 size slack
  let ch := planCost d g 3 size slack
  let cr := fget d dmaPlanEntryTRcUs i * 1000
  let free := if keep then some 1 else if dram && cd = 0 then some 2 else if host && ch = 0 then some 3 else none
  let best : Option (Nat × Nat) := [(dram, 2, cd), (host, 3, ch), (rc, 4, cr)].foldl (fun acc o =>
    if !o.1 then acc else match acc with
      | none => some (o.2.1, o.2.2)
      | some (k, c) => if o.2.2 < c then some (o.2.1, o.2.2) else some (k, c)) none
  match free <|> best.map (·.1) with
  | none => none
  | some k =>
    let old := findPlan d i
    let areaAt := if k = 2 then pl.dramAt else if k = 3 then pl.hostAt else 0
    let run : PlanRun := ⟨i, g, fget d dmaPlanEntryHome i, size, k, areaAt, .empty, 0, 0, 0, 0,
      (old.map (·.writer)).getD 0, 0, 0, none, pl.reserve, 0, none, (old.map (·.fetched)).getD []⟩
    let pl := { pl with done := pl.done ++ [run] }
    some (match k with
      | 1 => { pl with home := pl.home - size }
      | 2 => { pl with dram := pl.dram - size, dramAt := pl.dramAt + size }
      | 3 => { pl with host := pl.host - size, hostAt := pl.hostAt + size }
      | _ => pl)

/-- Place the entries of a group in order; the first that cannot be placed is named. -/
def placeAll (d : Dev) (g : Nat) (pl : Placing) (is : List Nat) : Except Nat Placing :=
  match is with
  | [] => .ok pl
  | i :: rest => match placeEntry d g pl i with | some pl => placeAll d g pl rest | none => .error i

/-- R266: place the plan of a group. (DEDUCED 38) -/
def placePlan (d : Dev) (g : Nat) : Except Nat Placing :=
  let is := planEntries d g
  let largest := is.foldl (fun m i => max m (fget d dmaPlanEntrySize i)) 0
  let hostMax := fget d dmaPlanCfgHostMax 0 * 2 ^ 30
  placeAll d g ⟨fget d dmaPlanGrpHomeSize g - 2 * largest, fget d dmaPlanGrpDramSize g, min (fget d dmaPlanGrpHostSize g) hostMax,
    fget d dmaPlanGrpDramBase g, fget d dmaPlanGrpHostBase g,
    fget d dmaPlanGrpHomeBase g + fget d dmaPlanGrpHomeSize g - 2 * largest, []⟩ (is.foldl (insertSlack d) [])

/-- R112: an area or a home of the group's plan lies in a spill area. -/
def planInSpill (d : Dev) (g : Nat) : Bool :=
  let bad := fun (a n : Nat) => n != 0 && inSpill d (localAddr d a) n
  bad (fget d dmaPlanGrpHomeBase g) (fget d dmaPlanGrpHomeSize g) || bad (fget d dmaPlanGrpDramBase g) (fget d dmaPlanGrpDramSize g)
  || bad (fget d dmaPlanGrpHostBase g) (fget d dmaPlanGrpHostSize g)
  || (planEntries d g).any (fun i => bad (fget d dmaPlanEntryHome i) (fget d dmaPlanEntrySize i))

/-- Put a placement in force; entries that have left the plan read unplaced. -/
def takePlan (d : Dev) (g tag : Nat) (pl : Placing) : Dev :=
  let gone := (d.steps.plan.filter (fun p => p.group == g)).map (·.index)
  let d0 := gone.foldl (fun d i => fset d dmaPlanEntryPlaced i 0) d
  let d1 := { d0 with steps := { d0.steps with plan := d0.steps.plan.filter (fun p => p.group != g) ++ pl.done } }
  let d2 := pl.done.foldl (fun d p => fset d dmaPlanEntryPlaced p.index p.placed) d1
  if pl.done.isEmpty then d2 else decision d2 2 (unitId 0 g) tag (pl.done.flatMap (fun p => [p.index, p.placed]))

/-- R266: what the epoch measured, at its close. (DEDUCED 38) -/
def measurePlan (d : Dev) (g : Nat) : Dev :=
  (d.steps.plan.filter (fun p => p.group == g)).foldl (fun d p =>
    if p.writtenAt = 0 then d
    else
      let d1 := fset d dmaPlanEntryTRcUs p.index (p.runNs / 1000)
      match p.firstRead with
      | some t => fset d1 dmaPlanEntrySlackUs p.index ((t - p.writtenAt) / 1000)
      | none => d1) d

/-! ### Copy-out, restore (R267) -/

/-- Copy `n` bytes for the plan, in storage that the plan owns. -/
def planCopy (d : Dev) (src dst n : Nat) : Dev := store d dst (memRead d src n)

/-- The other entries of a group that hold a place of its restore space. -/
def holdersOf (d : Dev) (p : PlanRun) (at_ : Nat) : List PlanRun :=
  d.steps.plan.filter (fun q => q.group == p.group && q.index != p.index && (q.phase == .restored || q.phase == .restoring)
    && q.restoreAt == at_)

/-- A restored entry whose backward read has been made, so that its place can be used again: it was read, and no command
under way reads it. (DEDUCED 38) -/
def readDone (d : Dev) (q : PlanRun) : Bool :=
  q.phase == .restored && q.firstRead.isSome
  && !d.eng.taken.any (fun c => c.phase == .started && (planReads d c.entry).contains q.index)

/-- A place for an entry in the restore space of its group, which has room for two: an empty one first, else one whose
entries have been read; none while both are in use. (DEDUCED 38) -/
def restoreSpace (d : Dev) (p : PlanRun) : Option Nat :=
  let half := (d.steps.plan.filter (fun q => q.group == p.group)).foldl (fun m q => max m q.size) 0
  let places := [p.reserve, p.reserve + half]
  (places.find? (fun a => (holdersOf d p a).isEmpty)) <|> places.find? (fun a => (holdersOf d p a).all (readDone d))

/-- Entry `i` takes a place of the restore space in phase `ph`; an entry that stood there is off-loaded, or discarded, as
before its restore. -/
def takeSpace (d : Dev) (p : PlanRun) (at_ : Nat) (ph : PlanPhase) : Dev :=
  let d1 := (holdersOf d p at_).foldl (fun d q => updPlan d q.index (fun q =>
    { q with phase := if q.placed = 4 then .discarded else .away })) d
  updPlan d1 p.index (fun q => { q with phase := ph, restoreAt := at_ })

/-- OFFLOAD_COPY_OUT: the copy-out of an entry placed in DRAM or host memory begins. -/
def offloadStart (d : Dev) (i : Nat) : Dev :=
  match findPlan d i with
  | some p => if p.phase = .home ∧ (p.placed = 2 ∨ p.placed = 3) then updPlan d i (fun p => { p with phase := .copying }) else d
  | none => d

/-- OFFLOAD_COPY_DONE: the bytes are in the area and the home space is free. A block that cannot be read is remembered
for the restore. -/
def offloadDone (d : Dev) (i : Nat) : Dev :=
  match findPlan d i with
  | some p =>
    if p.phase = .copying then
      let bad := (accessFails d p.home p.size false).map (·.info)
      updPlan (planCopy (touchAcc (noteRead d p.home p.size) p.group) p.home p.areaAt p.size) i
        (fun p => { p with phase := .away, bad := bad })
    else d
  | none => d

/-- RESTORE_START, once the restore space has a place. -/
def restoreStart (d : Dev) (i : Nat) : Dev :=
  match findPlan d i with
  | some p =>
    if p.phase = .away then match restoreSpace d p with | some a => takeSpace d p a .restoring | none => d
    else d
  | none => d

/-- RESTORE_COMPLETE. -/
def restoreDone (d : Dev) (i : Nat) : Dev :=
  match findPlan d i with
  | some p =>
    if p.phase = .restoring then
      let bad := p.bad <|> (accessFails d p.areaAt p.size false).map (·.info)
      updPlan (planCopy (touchAcc (noteRead d p.areaAt p.size) p.group) p.areaAt p.restoreAt p.size) i
        (fun p => { p with phase := .restored, bad := bad })
    else d
  | none => d

/-! ### Stages (R272 to R274) -/

def findStage (d : Dev) (t : Nat) : StageRun := (d.steps.stages.find? (fun s => s.stage == t)).getD ⟨t, 0, 0, 0, []⟩

def putStage (d : Dev) (r : StageRun) : Dev :=
  { d with steps := { d.steps with stages := d.steps.stages.filter (fun s => s.stage != r.stage) ++ [r] } }

/-! Stage queues. A command whose completion adds to the F semaphore of a queue's pair delivers an item to it (R258, R269). -/

/-- The queues that are configured. -/
def knownQueues (d : Dev) : List Nat :=
  ((d.regs.filter (fun e => e.1 / 2 ^ 20 == (Reg.semQueue).ctorIdx)).map (fun e => e.1 % 2 ^ 20)).filter (fun q =>
    decide (2 ≤ fget d semQueueSlots q))

/-- A command signals a semaphore of this module. -/
def signalsSem (d : Dev) (c : Cmd) (s : Nat) : Bool :=
  let here := fun (g : Sig) => (!g.remote || g.peer == ownId d) && g.sem == s
  (c.header.sig0En && here c.header.sig0) || (c.header.sig1En && c.opcode != some .fennelPut && here c.header.sig1)

/-- The queue that a command delivers an item to, and whether the item goes forward. (DEDUCED 38) -/
def queueOf (d : Dev) (c : Cmd) : Option (Nat × Bool) :=
  (knownQueues d).findSome? (fun q =>
    if signalsSem d c (2 * fget d semQueueFwdPair q) then some (q, true)
    else if signalsSem d c (2 * fget d semQueueBwdPair q) then some (q, false) else none)

/-- R270: the queue has a credit for the item of a command. (DEDUCED 38) -/
def queueAdmits (d : Dev) (c : Cmd) : Bool :=
  match queueOf d c with
  | none => true
  | some (q, fwd) => decide ((if fwd then 2 else 1) ≤ fget d semQueueCredits q)

/-- The producer takes its credit (R269). -/
def queueTake (d : Dev) (c : Cmd) : Dev :=
  match queueOf d c with
  | none => d
  | some (q, _) => fset d semQueueCredits q (fget d semQueueCredits q - 1)

/-- A freed slot of a queue returns its credit. -/
def queueReturn (d : Dev) (q : Nat) : Dev :=
  if fget d semQueueCredits q < fget d semQueueSlots q then fset d semQueueCredits q (fget d semQueueCredits q + 1) else d

/-- R32: the depth range that bounds a stage for a command: what the open epoch took, or the latest outside epochs. -/
def depthRange (d : Dev) (g : Option Nat) : Nat × Nat :=
  ((g.bind (groupAt d)).elim d.policy.depth (·.heldDepth)).getD (fget d semSchedCfgDMin 0, fget d semSchedCfgDMax 0)

/-- R272: the scheduler may start a command of a stage: it is no forward command of a new micro-batch, or fewer than D
micro-batches are between their forward and their backward there. (DESIGN CHOICE 18) -/
def stageAdmits (d : Dev) (c : Cmd) : Bool :=
  let s := findStage d c.header.stage
  let r := depthRange d c.groupOf
  !c.header.stageEn || isBackward c.entry || s.live.contains c.header.mbatch
  || decide (s.live.length < max r.1 (min r.2 (fget d semStageDepth c.header.stage)))

/-- A command of a stage starts; the forward of its micro-batch has then started. -/
def stageStart (d : Dev) (c : Cmd) : Dev :=
  if !c.header.stageEn then d
  else
    let s := findStage d c.header.stage
    let m := c.header.mbatch
    putStage d { s with running := s.running + 1, busySince := if s.running = 0 then d.time else s.busySince,
                        live := if isBackward c.entry || s.live.contains m then s.live else s.live ++ [m] }

/-- R272: a backward command has completed as the last of its micro-batch's commands in flight at the stage.
(DESIGN CHOICE 18) -/
def backwardOver (d : Dev) (c : Cmd) : Bool :=
  isBackward c.entry && !d.eng.taken.any (fun x =>
    !isCmd c.ring c.seq x && x.header.stageEn && x.header.stage == c.header.stage && x.header.mbatch == c.header.mbatch)

/-- A command of a stage completes; one that never started was not counted. -/
def stageEnd (d : Dev) (c : Cmd) : Dev :=
  if !c.header.stageEn then d
  else
    let s := findStage d c.header.stage
    let s1 := if s.running = 0 then s
      else if s.running = 1 then { s with running := 0, busyNs := s.busyNs + (d.time - s.busySince) }
      else { s with running := s.running - 1 }
    putStage d (if backwardOver d c then { s1 with live := s1.live.erase c.header.mbatch } else s1)

/-- R274: publish the accounts of the stages at a close, and start new ones. (DESIGN CHOICE 18) -/
def stagesClose (d : Dev) (openedAt tag : Nat) : Dev :=
  let n := d.steps.stages.length
  if n = 0 then d
  else
    let busy := fun (s : StageRun) => s.busyNs + (if s.running = 0 then 0 else d.time - s.busySince)
    let total := d.steps.stages.foldl (fun a s => a + busy s) 0
    let most := d.steps.stages.foldl (fun a s => max a (busy s)) 0
    let imb := if total = 0 then 0 else encode32 (f32 (valDiv (valNat (most * n)) (valNat total)))
    let len := d.time - openedAt
    let d1 := d.steps.stages.foldl (fun d s =>
      fset (fset (fset d semStageImbalance s.stage imb) semStageBusyUs s.stage (busy s / 1000)) semStageIdleUs s.stage
        ((len - busy s) / 1000)) d
    let d2 := decision d1 2 (unitId 0 0) tag (imb :: d.steps.stages.flatMap (fun s => [s.stage, fget d1 semStageDepth s.stage]))
    { d2 with steps := { d2.steps with stages := d2.steps.stages.map (fun s => { s with busyNs := 0, busySince := d.time }) } }

/-- The weights of SEM_PRIO_WEIGHT, by class. -/
def classWeights (d : Dev) : List Nat :=
  [fget d semPrioWeightW0 0, fget d semPrioWeightW1 0, fget d semPrioWeightW2 0, fget d semPrioWeightW3 0]

/-- R32: the epoch that opens takes the limits in force; requests made while it is open do not reach it. (DEDUCED 45) -/
def policyOpen (d : Dev) (g : Nat) : Dev :=
  updGroup d g (fun x => { x with heldPrio := d.policy.prio, heldWeights := classWeights d, heldDepth := d.policy.depth })

/-- R32: the priority order in force: what the earliest of the open epochs took, or the latest outside epochs. The order
divides the power of the whole module, so one epoch has to govern. (DEDUCED 45) -/
def prioNow (d : Dev) : Nat := (earliestEpoch d).elim d.policy.prio (·.heldPrio)

/-- R273: the memory plan can place the entries of a stage for `n` micro-batches; without a plan it always can.
(DEDUCED 38) -/
def stageFits (d : Dev) (stage n : Nat) : Bool := d.steps.plan.isEmpty || Config.planFits stage n d.time

/-- R273: adjust the depth of each stage at STEP_OPEN from the last closed epoch. -/
def stagesOpen (d : Dev) : Dev :=
  let r := depthRange d none
  d.steps.stages.foldl (fun d s =>
    let busy := fget d semStageBusyUs s.stage
    let idle := fget d semStageIdleUs s.stage
    let cur := max r.1 (fget d semStageDepth s.stage)
    let want := if !stageFits d s.stage cur then cur - 1
      else if decide (idle * 100 > fget d semSchedCfgIdlePct 0 * (busy + idle)) && stageFits d s.stage (cur + 1) then cur + 1 else cur
    fset d semStageDepth s.stage (min r.2 (max r.1 want))) d

end Sys2Proof.Machine
end

