-- ==== Sys2Proof/Machine/Steps.lean ====
section
/-! DEFINITION. Epochs: STEP_OPEN (R15, R16, R93, R99, R171, R179, R266, R352), STEP_CLOSE with its drain (R181), the
step tree (R19, R301), the verdict (Table 1.5), clipping and noise at the close (R178 to R180, R194), the commit of every
shard (R183, R184) and closes without a command (R325). -/
namespace Sys2Proof.Machine

/-! ### STEP_OPEN -/

/-- The body of STEP_OPEN (Table 12.14). -/
structure OpenBody where
  r : Nat
  commEn : Bool
  comm : Nat
  tag : Nat
  nInit : Nat
  clipM : Nat
  b : Nat
deriving DecidableEq, Repr

def openBodyOf (e : Nat) : OpenBody :=
  let w := entryWord e 4
  ⟨bits w 63 48, bit w 42, bits w 41 32, bits w 31 0, bits (entryWord e 5) 63 32, bits (entryWord e 5) 31 0,
   bits (entryWord e 6) 31 0⟩

/-- R16: the tag rule. -/
def tagOk (g : Group) (tag : Nat) : Bool :=
  tag != 0 && (!g.hasRef || decide (1 ≤ serialDiff tag g.refTag ∧ serialDiff tag g.refTag < 2 ^ 31))

/-- R16, R352: the checks of STEP_OPEN once it takes effect. (DEDUCED 15) -/
def openStatus (d : Dev) (g : Group) (b : OpenBody) : Option Status :=
  let m := decode32 b.clipM
  let n := decode32 b.nInit
  if !b.commEn && b.comm != 0 then some .reservedField
  else if !tagOk g b.tag then some .tagOrder
  else if b.commEn && !(fget d collTreeStatusState b.comm == 1 || fget d collTreeStatusState b.comm == 2) then some .treeState
  else if b.r = 0 || (!b.commEn && b.r != 1) then some .badParam
  else if !valIsFinite m || !valIsFinite n || valLt n valZero then some .badParam
  else none

/-- R179: the clip factor that STEP_OPEN predicts. -/
def clipPredict (m nPrev h : Val) : Val :=
  if !valLt valZero m || valIsZero nPrev || valLe (mul64 nPrev (add64 (valNat 1) h)) m then valNat 1
  else f32 (div64 m nPrev)

/-- The shards of a group, by handle. -/
def groupShards (d : Dev) (g : Nat) : List Nat :=
  ((d.shards.filter (fun s => s.bind.group == g)).map (fun s => s.bind.shard)).foldl insertNat []

/-- The epoch opens: Sumac, clipping, ledgers, plan. -/
def openEpoch (d : Dev) (c : Ctx) (g : Nat) (grp : Group) (b : OpenBody) (pl : Placing) : Dev :=
  let d1 := takePlan (stagesOpen (policyOpen d g)) g b.tag pl
  let d2 := sumacOpen d1 g b.tag c.ring c.seq
  let nPrev := if grp.hadClean then decode64 (fget d2 updGrpNprevNPrev g) else decode32 b.nInit
  let cl := encode32 (clipPredict (decode32 b.clipM) nPrev (decode32 (fget d2 updClipHeadH 0)))
  let fb := b2n grp.clipNext
  let d3 := fset (fset d2 updGrpClipC g cl) updGrpStatusFallback g fb
  let d4 := if grp.hadClean then d3 else fset d3 updGrpNprevNPrev g (encode64 nPrev)
  let set := fun (x : Group) =>
    { x with phase := .opened, tag := b.tag, port := c.port, comm := if b.commEn then some b.comm else none, r := b.r,
             b := b.b, clipM := b.clipM, nInit := b.nInit, hasRef := true, refTag := b.tag, conds := 0,
             census := x.carried, carriedIn := x.hasCarried, carried := [], hasCarried := false, n2 := safAnchored,
             l2 := safAnchored, touched := [], lost := [], decided := none, sentAt := 0, closing := none, selfClose := false, verdict := 0, openedAt := d.time }
  (groupShards d g).foldl (openShard b.tag cl) (updGroup d4 g set)

/-- Run STEP_OPEN when it takes effect. -/
def runStepOpen (d : Dev) (c : Ctx) (e : Nat) : Res :=
  let g := (headerOf e).group
  let b := openBodyOf e
  match groupAt d g with
  | none => resStatus d .epochState
  | some grp =>
    if grp.phase ≠ .idle then resStatus d .epochState
    else match openStatus d grp b with
    | some s => resStatus d s
    | none => if planInSpill d g then resStatus d .badAddress else match placePlan d g with
      | .error i => resFail d ⟨.planUnplaceable, i⟩
      | .ok pl =>
        let n := pl.done.length
        let rc := (pl.done.filter (fun p => p.placed == 4)).length
        resOk (openEpoch d c g grp b pl) (rc % 65536 * 65536 + n % 65536)

/-! ### STEP_CLOSE -/

/-- A command of the epoch of group `g`. -/
def inEpochOf (g : Nat) (c : Cmd) : Bool := c.groupOf == some g

/-- R21: with the abort flag, commands of the epoch that have not started complete with ABORTED. -/
def abortEpoch (d : Dev) (g : Nat) : Dev := abortTaken d (inEpochOf g)

/-- Run STEP_CLOSE: the epoch drains, and the close goes on by STEP_CLOSE_REDUCE (R181). -/
def runStepClose (d : Dev) (c : Ctx) (e : Nat) : Res :=
  let g := (headerOf e).group
  let abort := bit (entryWord e 4) 32
  match groupAt d g with
  | none => resStatus d .epochState
  | some grp =>
    if grp.phase ≠ .opened then resStatus d .epochState
    else if bits (entryWord e 4) 31 0 ≠ grp.tag then resStatus d .tagOrder
    else
      let d1 := updGroup d g (fun x => { x with phase := .closing, closing := some (c.ring, c.seq) })
      resWait (if abort then abortEpoch (condRaise d1 g 5) g else d1)

/-- R181, steps 1 and 2: every command of the epoch has completed and every shard of the group is settled. -/
def drained (d : Dev) (g : Nat) : Bool :=
  !d.eng.taken.any (inEpochOf g)
  && d.shards.all (fun s => s.bind.group != g || shardSettled s)

/-- R167: a shard that received no gradient, in whole or in part. -/
def lacksGradient (s : Shard) : Bool := !s.bind.frozen && !s.interrupted && !s.unable && s.ph != 5

/-! ### The verdict -/

/-- Table 1.5: the reported verdict of a condition mask. -/
def verdictOf (mask : Nat) : Nat := ([3, 4, 6, 5, 1, 2].find? (fun k => bit mask k)).getD 0

/-- R178: n = sqrt(N2 / r), the division rounded once to FP64 and the root taken in FP64. -/
def normOf (n2 : Val) (r : Nat) : Val := sqrt64 (f64 (valDiv n2 (valNat r)))

/-- R179: the misprediction test. -/
def mispredicts (m c n tol : Val) : Bool :=
  if !valLt valZero m || !valIsFinite n then false
  else
    let cx := if valLe n m then valNat 1 else div64 m n
    valLt (valMul tol cx) (valAbs (valSub c cx))

/-- R180: the clip history of a group after a close; `raised` is CLIP_MISPREDICT in the mask, `mis` the test itself. -/
def clipAfter (d : Dev) (g : Nat) (grp : Group) (verdict : Nat) (raised mis : Bool) : Dev :=
  let win := fget d updClipFbClipWindow 0
  let hist := (grp.clipHist * 2 + b2n raised) % 2 ^ 127
  let fb := fget d updGrpStatusFallback g == 1
  let put := fun (d : Dev) (h : Nat) (next : Bool) => updGroup d g (fun x => { x with clipHist := h, clipNext := next })
  let d1 :=
    if win = 0 then put d hist false
    else if fb then
      if verdict = 0 && !mis then
        let run := fget d updGrpStatusCleanRun g + 1
        if run ≥ fget d updClipFbClipRet 0 then put (fset d updGrpStatusCleanRun g 0) hist false
        else put (fset d updGrpStatusCleanRun g run) hist true
      else put (fset d updGrpStatusCleanRun g 0) hist true
    else put d hist (grp.clipNext || decide (popcount win hist > fget d updClipFbClipSkipMax 0))
  fset d1 updGrpStatusWinCount g (popcount win (((groupAt d1 g).map (·.clipHist)).getD 0))

/-- R194: the noise statistics at a close whose norms reduced. -/
def noiseAfter (d : Dev) (g : Nat) (grp : Group) (verdict : Nat) (n2 l2 : Val) : Dev :=
  let r := valNat grp.r
  let bs := valNat grp.b
  let bb := mul64 r bs
  let gs := div64 (f64 (valDiv l2 r)) (mul64 bs bs)
  let gb := div64 (f64 (valDiv n2 r)) (mul64 bb bb)
  let gEst := div64 (sub64 (mul64 bb gb) (mul64 bs gs)) (sub64 bb bs)
  let sEst := div64 (sub64 gs gb) (sub64 (div64 (valNat 1) bs) (div64 (valNat 1) bb))
  if verdict ≠ 0 ∨ grp.r < 2 then d
  else
    let beta := decode32 (fget d updNoiseCfgBeta 0)
    let mix := fun (old new : Val) => add64 (mul64 beta old) (mul64 (sub64 (valNat 1) beta) new)
    let s := mix (decode64 grp.noiseS) sEst
    let gg := mix (decode64 grp.noiseG) gEst
    let crit := if valLt valZero gg then encode32 (div64 s gg) else 0
    let d0 := updGroup d g (fun x => { x with noiseS := encode64 s, noiseG := encode64 gg })
    let d1 := fset (fset (fset d0 updGrpNoiseS g (encode32 s)) updGrpNoiseG g (encode32 gg)) updGrpNoiseBCrit g crit
    decision d1 0 (unitId 0 g) grp.tag [encode32 s, encode32 gg, crit]

/-! ### Committing and ending a close -/

/-- Write the commit record of every shard of a group; the first that could not be written is named. -/
def commitAll (d : Dev) (g tag mask verdict : Nat) : Dev × Option Nat :=
  (groupShards d g).foldl (fun acc h =>
    let (d1, ok) := commitShard tag mask verdict acc.1 h
    (d1, if ok then acc.2 else acc.2 <|> some h)) (d, none)

/-- The end of a close: the record's info under Table 12.18, the STEP_CLOSE finished, the group ready for its next
epoch, one more close of it counted (R266). -/
def endClose (d : Dev) (g : Nat) (mask verdict : Nat) (lost : Bool) (bad : Option Nat) : Dev :=
  match groupAt d g with
  | none => d
  | some grp =>
    let na := d.shards.any (fun s => s.bind.group == g && s.ledger.notApplied != 0)
    let info := (bad.getD 0) * 2 ^ 32 + b2n ((fget d updGrpStatusFallback g) == 1) * 2 ^ 18 + b2n lost * 2 ^ 17
      + b2n na * 2 ^ 16 + mask * 2 ^ 8 + verdict
    let d1 := stagesClose (measurePlan d g) grp.openedAt grp.tag
    let d2 := { d1 with fab := { d1.fab with stepUps := d1.fab.stepUps.filter (fun u => !(u.group == g && u.tag == grp.tag)) } }
    match grp.closing with
    | some (r, q) =>
      finishCmd (updGroup d2 g (fun x => { x with phase := .reducing, verdict := verdict })) r q
        (if bad.isSome then Status.commitWrite.code else 0) info
    | none => updGroup d2 g (fun x => { x with phase := .idle, verdict := verdict, selfClose := false })

/-- Step 5 and 6 of R181 for a verdict that has been taken: the commit records are written once none of them stands still,
so that a record whose write a reset cuts short is written on resume (R189), and the close ends. -/
def commitWhenReady (d : Dev) (g : Nat) : Dev :=
  match (groupAt d g).bind (·.decided) with
  | none => d
  | some (mask, verdict, lost) =>
    if verdict ≠ 6 ∧ d.shards.any (fun s => s.bind.group == g && commitHalted d s) then d
    else
      let d1 := updGroup d g (fun x => { x with decided := none, closes := x.closes + 1 })
      let (d2, bad) := commitAll d1 g (((groupAt d g).map (·.tag)).getD 0) mask verdict
      endClose d2 g mask verdict lost bad

/-- Every group whose commit records can now be written (R189). -/
def commitGroups (d : Dev) : Dev := (List.range d.steps.groups.length).foldl commitWhenReady d

/-- The verdict of a group is taken; its commit records follow. -/
def verdictTaken (d : Dev) (g mask verdict : Nat) (lost : Bool) : Dev :=
  commitWhenReady (updGroup d g (fun x => { x with decided := some (mask, verdict, lost) })) g

/-- Steps 4 to 6 of R181 with the reduced part, or without one when the reduction could not complete (R90, R301). -/
def decideClose (d : Dev) (g : Nat) (part : Option StepPart) : Dev :=
  match groupAt d g with
  | none => d
  | some grp =>
    match part with
    | none =>
      let mask := grp.conds ||| 2 ^ 4
      let d1 := sumacClose (clipAfter d g grp 4 false false) g grp.tag 4 none grp.comm.isSome
      verdictTaken d1 g mask 4 true
    | some p =>
      let n2 := (unpackExact (p.n2.entry + p.n2.record * 2 ^ 128)).value
      let l2 := (unpackExact (p.l2.entry + p.l2.record * 2 ^ 128)).value
      let n := normOf n2 grp.r
      let mis := mispredicts (decode32 grp.clipM) (decode32 (fget d updGrpClipC g)) n (decode32 (fget d updClipTolTol 0))
      let fb := fget d updGrpStatusFallback g == 1
      let d1 := if mis && fb then fsat d updGrpStatusClipDev g 1 else d
      let mask := if mis && !fb then p.mask ||| 2 ^ 2 else p.mask
      let verdict := verdictOf mask
      let d2 := clipAfter d1 g grp verdict (bit mask 2) mis
      let d3 := if verdict = 0 && valIsFinite n then
          updGroup (fset d2 updGrpNprevNPrev g (encode64 n)) g (fun x => { x with hadClean := true }) else d2
      let d4 := noiseAfter d3 g grp verdict n2 l2
      verdictTaken (sumacClose d4 g grp.tag verdict (some p.census) grp.comm.isSome) g mask verdict false

/-! ### The step tree (R301) -/

def exactCodeOf (s : SafEntry) : ExactCode := let x := packExact s 0; ⟨x % 2 ^ 128, x / 2 ^ 128⟩
def exactOf (x : ExactCode) : SafEntry := unpackExact (x.entry + x.record * 2 ^ 128)

def stepPartZero : StepPart := ⟨0, [], exactCodeOf safAnchored, exactCodeOf safAnchored, false⟩

/-- A node adds two parts (R19, R24, R178, R194). -/
def stepPartAdd (a b : StepPart) : StepPart :=
  ⟨a.mask ||| b.mask, b.census.foldl (fun m c => censusInto m c.1 c.2) a.census,
   exactCodeOf (exactAdd (exactOf a.n2) (exactOf b.n2)), exactCodeOf (exactAdd (exactOf a.l2) (exactOf b.l2)), a.lost || b.lost⟩

def treeZero (t : Comm) : List TreeNode := (t.trees.head?).getD []

/-- The leaves of tree 0 that stand for this module: those it has contributed to over the communicator, else one that the
manual leaves open (DESIGN CHOICE 33). -/
def ownLeaves (d : Dev) (t : Comm) : List Nat :=
  if t.counts.isEmpty then [Config.stepLeaf t.id (ownId d) % t.n] else t.counts.map (·.1)

/-- The node of tree 0 that lists a leaf. -/
def stepLeafNode (t : Comm) (l : Nat) : Option Nat := (treeZero t).findIdx? (fun n => n.children.contains (true, l))

def isUp (comm g tag node : Nat) (u : StepUp) : Bool := u.comm == comm && u.group == g && u.tag == tag && u.node == node

/-- A step part goes up from `node`, or the result goes down from it; what follows on this module is done at once. The
answer of the down direction for this module is left in `decideClose` by the caller through `verdictIn`. -/
def stepUp (fuel : Nat) (d : Dev) (t : Comm) (g tag src node child : Nat) (p : StepPart) : Dev × Option StepPart :=
  match fuel with
  | 0 => (d, none)
  | f + 1 =>
    match (treeZero t)[node]? with
    | none => (d, none)
    | some n =>
      let u : StepUp := ⟨t.id, g, tag, node, child, src, p⟩
      let rest := d.fab.stepUps.filter (fun x => !(isUp t.id g tag node x && x.child == child))
      let d1 := { d with fab := { d.fab with stepUps := rest ++ [u] } }
      let mine := d1.fab.stepUps.filter (isUp t.id g tag node)
      let parts := n.children.filterMap (fun k => (mine.find? (fun x => x.child == childCode k)).map (·.part))
      if parts.length ≠ n.children.length then (d1, none)
      else
        let sum := parts.foldl stepPartAdd stepPartZero
        if n.parent = 0xFFFF then (d1, some sum)
        else match (treeZero t)[n.parent]? with
          | none => (d1, none)
          | some pn =>
            if pn.holder = ownId d1 then stepUp f d1 t g tag (ownId d1) n.parent node sum
            else (sendQuiet d1 pn.holder (.stepMsg (.up t.id g tag n.parent node sum)), none)

/-- Send a result down from `node` to the holders below it; the answer says whether a leaf of this module is among them. -/
def stepDown (fuel : Nat) (d : Dev) (t : Comm) (g tag node : Nat) (p : StepPart) : Dev × Bool :=
  match fuel with
  | 0 => (d, false)
  | f + 1 =>
    match (treeZero t)[node]? with
    | none => (d, false)
    | some n =>
      let mine := d.fab.stepUps.filter (isUp t.id g tag node)
      n.children.foldl (fun acc k =>
        if k.1 then
          let dest := ((mine.find? (fun x => x.child == childCode k)).map (·.src)).getD (ownId acc.1)
          if dest = ownId acc.1 then (acc.1, true)
          else (sendQuiet acc.1 dest (.stepMsg (.down t.id g tag 0xFFFF p)), acc.2)
        else match (treeZero t)[k.2]? with
          | some kn =>
            if kn.holder = ownId acc.1 then
              let (d1, here) := stepDown f acc.1 t g tag k.2 p
              (d1, acc.2 || here)
            else (sendQuiet acc.1 kn.holder (.stepMsg (.down t.id g tag k.2 p)), acc.2)
          | none => acc) (d, false)

/-- The result of an epoch reaches this module: its close goes on when it waits for it. -/
def verdictIn (d : Dev) (g tag : Nat) (p : StepPart) : Dev :=
  match groupAt d g with
  | some grp => if grp.phase = .reducing && grp.tag == tag && grp.sentAt != 0 then
      decideClose (updGroup d g (fun x => { x with sentAt := 0 })) g (if p.lost then none else some p) else d
  | none => d

/-- Turn a sum round at the root, or send LINK_LOSS down from a node whose reduction cannot complete. -/
def sendDown (d : Dev) (t : Comm) (g tag node : Nat) (p : StepPart) : Dev :=
  let (d1, here) := stepDown (t.fuel) d t g tag node p
  if here then verdictIn d1 g tag p else d1

/-- A part reaches a node of this module. -/
def partArrives (d : Dev) (t : Comm) (g tag src node child : Nat) (p : StepPart) : Dev :=
  match stepUp t.fuel d t g tag src node child p with
  | (d1, some sum) => sendDown d1 t g tag ((treeRoots (treeZero t)).headD 0) sum
  | (d1, none) => d1

/-- R301: a node whose child's part cannot come sends LINK_LOSS up in its place and down its own subtree. (DEDUCED 24)
(DEDUCED 30) -/
def nodeLost (d : Dev) (t : Comm) (g tag node : Nat) : Dev :=
  let lost := { stepPartZero with lost := true }
  match (treeZero t)[node]? with
  | none => d
  | some n =>
    let d1 := sendDown d t g tag node lost
    if n.parent = 0xFFFF then d1
    else match (treeZero t)[n.parent]? with
      | none => d1
      | some pn =>
        if pn.holder = ownId d1 then partArrives d1 t g tag (ownId d1) n.parent node lost
        else sendQuiet d1 pn.holder (.stepMsg (.up t.id g tag n.parent node lost))

/-- Nodes of this module that wait for parts of a group's epoch. (DEDUCED 30) -/
def waitingNodes (d : Dev) (t : Comm) (g tag : Nat) : List Nat :=
  ((List.zipIdx (treeZero t)).filter (fun n =>
    n.1.holder == ownId d && !n.1.children.all (fun k =>
      d.fab.stepUps.any (fun u => isUp t.id g tag n.2 u && u.child == childCode k)))).map (·.2)

/-- R301: the nodes among `among` that wait for a child node whose holder is unreachable give up. (DEDUCED 30) -/
def cutNodes (d : Dev) (t : Comm) (g tag : Nat) (among : List Nat) : Dev :=
  ((waitingNodes d t g tag).filter (fun i => among.contains i &&
    ((((treeZero t)[i]?).map (·.children)).getD []).any (fun k =>
      !k.1 && ((((treeZero t)[k.2]?).map (·.holder)).any d.fab.unreachable.contains)
        && !d.fab.stepUps.any (fun u => isUp t.id g tag i u && u.child == childCode k)))).foldl
    (fun d n => nodeLost d t g tag n) d

/-- A STEP_MSG arrives (R301). (DEDUCED 30) -/
def stepArrives (d : Dev) (src : Nat) (m : StepMsg) : Dev :=
  match m with
  | .up comm g tag node child p =>
    (match findComm d comm with | some t => cutNodes (partArrives d t g tag src node child p) t g tag [node] | none => d)
  | .down comm g tag node p =>
    (match findComm d comm with
      | some t => if node = 0xFFFF then verdictIn d g tag p else sendDown d t g tag node p
      | none => d)

/-! ### STEP_CLOSE_REDUCE and its limits -/

/-- This module's own part (R181, step 3). -/
def ownPart (d : Dev) (g : Nat) (grp : Group) : StepPart :=
  let ss := d.shards.filter (fun s => s.bind.group == g && s.bind.clip && !s.bind.frozen)
  let n2 := ss.foldl (fun a s => exactAdd a s.ledger.norm2) safAnchored
  ⟨grp.conds, grp.census, exactCodeOf n2, exactCodeOf grp.l2, false⟩

/-- R167, R181: what the drained epoch adds to its conditions. -/
def lastConditions (d : Dev) (g : Nat) : Dev :=
  if d.shards.any (fun s => s.bind.group == g && lacksGradient s) then condRaise d g 5 else d

/-- STEP_CLOSE_REDUCE: the drained epoch is reduced over its communicator, or decided here. -/
def closeReduce (d0 : Dev) (g : Nat) : Dev :=
  match groupAt d0 g with
  | none => d0
  | some grp0 =>
    if grp0.phase ≠ .closing || !drained d0 g then d0
    else
      let d := lastConditions d0 g
      match groupAt d g with
      | none => d
      | some grp =>
        let part := ownPart d g grp
        match grp.comm with
        | none => decideClose (updGroup d g (fun x => { x with phase := .reducing })) g (some part)
        | some comm =>
          let d1 := updGroup d g (fun x => { x with phase := .reducing, sentAt := max 1 d.time })
          match findComm d1 comm with
          | none => decideClose d1 g none
          | some t =>
            let leaves := ownLeaves d1 t
            if leaves.isEmpty then decideClose d1 g none
            else
              let d2 := (List.zipIdx leaves).foldl (fun d l =>
                let p := if l.2 = 0 then part else stepPartZero
                match stepLeafNode t l.1 with
                | none => d
                | some node => match (treeZero t)[node]? with
                  | none => d
                  | some n =>
                    let child := childCode (true, l.1)
                    if n.holder = ownId d then partArrives d t g grp.tag (ownId d) node child p
                    else sendQuiet d n.holder (.stepMsg (.up t.id g grp.tag node child p))) d1
              cutNodes d2 t g grp.tag (List.range (treeZero t).length)

/-- STEP_CLOSE_TIMEOUT: close_timeout has passed without a child's message or a verdict (R301). (DEDUCED 30) -/
def closeTimeout (d : Dev) (g : Nat) : Dev :=
  match groupAt d g with
  | none => d
  | some grp =>
    let lim := fget d blE2eCfgCloseTimeout 0 * 1000000000
    if grp.phase ≠ .reducing || grp.sentAt = 0 || lim = 0 then d
    else match grp.comm.bind (findComm d) with
      | none => d
      | some t =>
        let d1 := (waitingNodes d t g grp.tag).foldl (fun d n => nodeLost d t g grp.tag n) d
        verdictIn d1 g grp.tag { stepPartZero with lost := true }

/-- A peer has become unreachable (R295, R301): the open epochs whose communicator holds it raise link loss, and nodes
that wait for its parts give up. (DEDUCED 30) -/
def stepsLosePeer (d : Dev) (peer : Nat) : Dev :=
  (List.range d.steps.groups.length).foldl (fun d g =>
    match groupAt d g with
    | none => d
    | some grp =>
      match grp.comm.bind (findComm d) with
      | none => d
      | some t =>
        if grp.phase = .idle || !commHolds t peer then d
        else
          let d1 := if grp.phase = .opened ∨ grp.phase = .closing then condRaise d g 4 else d
          let lostNodes := (waitingNodes d1 t g grp.tag).filter (fun i =>
            (((treeZero t)[i]?).map (·.children)).getD [] |>.any (fun k =>
              !k.1 && (((treeZero t)[k.2]?).map (·.holder)) == some peer))
          lostNodes.foldl (fun d n => nodeLost d t g grp.tag n) d1) d

/-- R325: the device closes an epoch of its own accord, as aborted. -/
def selfClose (d : Dev) (g : Nat) : Dev :=
  if groupPhase d g = .opened then
    abortEpoch (condRaise (updGroup d g (fun x => { x with phase := .closing, closing := none, selfClose := true })) g 5) g
  else d

end Sys2Proof.Machine
end

