-- ==== Sys2Proof/Machine/Replicas.lean ====
section
/-! DEFINITION. Replica fingerprints: when a shard's fingerprint is due, and what its replica sends (R192, R193). -/
namespace Sys2Proof.Machine

/-- R192: the commit record of a shard whose fingerprint is due for comparison. (DESIGN CHOICE 58) -/
def fpDue (d : Dev) (s : Shard) : Option CommitRec :=
  match readCommit d s.bind with
  | none => none
  | some r =>
    if fget d updFpCfgEnable 0 = 1 && s.bind.rcEn && !s.fpAsked && r.count != 0
        && r.count % max 1 (fget d updFpCfgInterval 0) == 0 then some r else none

/-- Send one value of a shard for comparison, for every leaf of the replica communicator that this module is.
(DESIGN CHOICE 33) (DESIGN CHOICE 58) -/
def fpContribute (d : Dev) (s : Shard) (count chunk v : Nat) : Dev :=
  match findComm d s.bind.rcomm with
  | none => d
  | some t => (ownLeaves d t).foldl (fun d l =>
      match leafNode t chunk l with
      | none => d
      | some node => match treeNodeAt t chunk node with
        | none => d
        | some n =>
          let c := fpPart d t s.bind.shard count chunk node l v
          if n.holder = ownId d then pushChunk t.fuel d (ownId d) c else sendPart d n.holder c) d

/-- FINGERPRINT_COMPARE: send the fingerprint of a shard over its replica communicator. (DESIGN CHOICE 58) -/
def fpSend (d : Dev) (h : Nat) : Dev :=
  match findShard d h with
  | none => d
  | some s =>
    match fpDue d s with
    | none => d
    | some r => fpContribute (updShard d h (fun s => { s with fpAsked := true })) s r.count 0 r.fp

/-- The 1 MiB regions of a plane, counted from its base. -/
def Bind.regions (b : Bind) : Nat := cdiv b.planeSize 1048576

/-- FINGERPRINT_RESULT: the replicas of a shard were found to differ, and this one sends the fingerprint of each region of
its committed plane for comparison (R193). (DESIGN CHOICE 58) -/
def fpResult (d : Dev) (h : Nat) : Dev :=
  match findShard d h with
  | none => d
  | some s =>
    match s.fpDiffer with
    | none => d
    | some count =>
      if !s.fpWait.isEmpty then d
      else
        let rs := List.range s.bind.regions
        rs.foldl (fun d r => fpContribute d s count (r + 1) (fpRegion d s.bind (planeBase s true) r))
          (updShard d h (fun s => { s with fpWait := rs, fpBad := [] }))

end Sys2Proof.Machine
end

