-- ==== Sys2Proof/Machine/Rings.lean ====
section
/-! DEFINITION. The rings at work: which ring is served (R315), taking a command (R313, R310, R335 to R337), starting
commands (R354 to R356, R259, R260), their bodies, and completing them (R316, R321, R326, R336). -/
namespace Sys2Proof.Machine

/-! ### Ring fields -/

def ringBase (d : Dev) (r : Nat) : Nat := fget d kringBaseHiBaseHi r * 2 ^ 32 + fget d kringBaseLoBaseLo r * 4096
def ringCqBase (d : Dev) (r : Nat) : Nat := fget d kringCqbaseHiBaseHi r * 2 ^ 32 + fget d kringCqbaseLoBaseLo r * 4096
def ringDepth (d : Dev) (r : Nat) : Nat := 2 ^ fget d kringCfgLog2Depth r
def ringState (d : Dev) (r : Nat) : Nat := fget d kringStatusState r
def ringOwner (d : Dev) (r : Nat) : Option Nat := (d.eng.owner.find? (fun o => o.1 == r)).map (·.2)

/-- Rings whose status register holds anything beside its reset value, in ascending order. -/
def knownRings (d : Dev) : List Nat :=
  d.regs.filterMap (fun e => if e.1 / 2 ^ 20 = Reg.kringStatus.ctorIdx then some (e.1 % 2 ^ 20) else none)

/-- The address of the next entry of a ring. -/
def entryAddr (d : Dev) (r : Nat) : Nat := ringBase d r + 64 * (fget d kringCountsSqHead r % ringDepth d r)

/-- R324, R333: the next entry lies in the memory of a host to which no request is issued. -/
def entrySilent (d : Dev) (r : Nat) : Bool :=
  match regionOf (entryAddr d r) with | .host p => portSilent d p | _ => false

/-- R313: the ring has a command to take. -/
def ringReady (d : Dev) (r : Nat) : Bool :=
  ringState d r == 1 && !entrySilent d r
  && fget d kringCountsSqHead r != fget d kringCountsSqTail r
  && decide (fget d kringStatusInflight r < 256)
  && decide (serialDiff (fget d kringCountsSqHead r) (fget d kringCountsCqHead r) < ringDepth d r)

/-- The weight of priority class `k` in force for the next command of a ring: what the open epoch that it belongs to took
at its STEP_OPEN, or the latest outside epochs (R32). (DEDUCED 45) -/
def classWeight (d : Dev) (r k : Nat) : Nat :=
  let h := headerOf (memReadNat d (entryAddr d r) 64)
  let held := if h.inEpoch && groupPhase d h.group != .idle then (groupAt d h.group).map (·.heldWeights) else none
  (held.getD (classWeights d)).getD k 0

/-- The next ring of a class in round-robin order. -/
def nextOfClass (last : Nat) (ready : List Nat) : Option Nat := (ready.find? (fun r => decide (r > last))) <|> ready.head?

/-- R315: walk the classes from the one being visited; the answer is the ring and the scheduler's state after it.
(DESIGN CHOICE 63) -/
def wrrWalk (d : Dev) (fuel : Nat) (w : Wrr) : Option (Nat × Wrr) :=
  match fuel with
  | 0 => none
  | f + 1 =>
    let ready := (knownRings d).filter (fun r => ringReady d r && fget d kringCfgPrio r == w.cls)
    match nextOfClass (w.last.getD w.cls 0) ready with
    | some r =>
      if w.taken < max 1 (classWeight d r w.cls) then some (r, { w with taken := w.taken + 1, last := listSet w.last w.cls r })
      else wrrWalk d f { w with cls := (w.cls + 1) % 4, taken := 0 }
    | none => wrrWalk d f { w with cls := (w.cls + 1) % 4, taken := 0 }

/-- DESIGN CHOICE 63 of the log. -/
def nextRing (d : Dev) : Option (Nat × Wrr) := wrrWalk d 6 d.eng.wrr

/-- R314: the fetch of the next entry fails. -/
def fetchFails (d : Dev) (r : Nat) : Bool := (accessFails d (entryAddr d r) 64 false).isSome

/-! ### Taking a command -/

/-- The static checks of Tables 12.1 and 12.2 (R310, R335, R336, R348). (DEDUCED 15) (DEDUCED 16) -/
def takeStatus (d : Dev) (r e : Nat) : Status :=
  let h := headerOf e
  match opcodeOf h.opcode with
  | none => .badOpcode
  | some op =>
    if op.ringClass.any (fun k => k != fget d kringCfgClass r) then .classNotPermitted
    else if !reservedOk op e then .reservedField
    else if op = .coll && (collOpOf (bits (entryWord e 4) 3 0)).isNone then .reservedField
    else if !sigAmountsOk op h then .badParam
    else if op = .semWait && !h.waitEn then .badParam
    else if op = .semSignal && bits (entryWord e 4) 34 33 == 0 && bits (entryWord e 4) 63 48 == 0 then .badParam
    else .ok

/-- R337, R15, R352: the epoch that a command joins: its status, the pending STEP_OPEN it waits for, its step tag, and
whether a STEP_OPEN is held. -/
def joinCommand (d : Dev) (port e : Nat) : Status × Option (Nat × Nat) × Nat × Bool :=
  let h := headerOf e
  let g := h.group
  let own := ((groupAt d g).map (·.port)).getD 0
  let tag := ((groupAt d g).map (·.tag)).getD 0
  match opcodeOf h.opcode with
  | some .stepOpen =>
    (match lastStepCmd d g with
    | some c => if c.opcode = some .stepOpen then (.epochState, none, 0, false) else (.ok, none, 0, true)
    | none => if groupPhase d g = .idle then (.ok, none, 0, false) else (.epochState, none, 0, false))
  | some .stepClose =>
    (match joinOf d g with
    | .none => (.epochState, none, 0, false)
    | .open =>
      if own ≠ port then (.epochState, none, 0, false)
      else if bits (entryWord e 4) 31 0 ≠ tag then (.tagOrder, none, 0, false) else (.ok, none, 0, false)
    | .pending r q p t =>
      if p ≠ port then (.epochState, none, 0, false)
      else if bits (entryWord e 4) 31 0 ≠ t then (.tagOrder, none, 0, false) else (.ok, some (r, q), 0, false))
  | _ =>
    if !h.inEpoch then (.ok, none, 0, false)
    else match joinOf d g with
      | .none => (.epochState, none, 0, false)
      | .open => if own = port then (.ok, none, tag, false) else (.epochState, none, 0, false)
      | .pending r q p t => if p = port then (.ok, some (r, q), t, false) else (.epochState, none, 0, false)

/-- The next command of a ring as it is taken: waiting to start, or rejected at once when a static check fails (R335). -/
def nextCmd (d : Dev) (r : Nat) : Cmd :=
  let e := memReadNat d (entryAddr d r) 64
  let port := (ringOwner d r).getD 0
  let st := takeStatus d r e
  let j := joinCommand d port e
  let status := if st = .ok then j.1 else st
  ⟨r, fget d kringCountsSqHead r, port, e, if status = .ok then j.2.1 else none, j.2.2.1,
    if status = .ok then .waiting else .finished, false, j.2.2.2 && status == .ok, false, status.code, 0, [], [], 0, d.time, []⟩

/-- sq_head advances and one more command is in flight. -/
def countTaken (d : Dev) (r : Nat) : Dev :=
  let d1 := fset d kringCountsSqHead r (fget d kringCountsSqHead r + 1)
  fset d1 kringStatusInflight r (fget d1 kringStatusInflight r + 1)

/-- A command joins those in flight, and the scheduler stands at `w`. -/
def addTaken (d : Dev) (c : Cmd) (w : Wrr) : Dev := { d with eng := { d.eng with taken := d.eng.taken ++ [c], wrr := w } }

/-- A STEP_OPEN that is taken and not rejected decides which SCALE_SETs take effect at it (R96). -/
def openTaken (d : Dev) (c : Cmd) : Dev :=
  if c.opcode = some .stepOpen ∧ c.status = 0 then markDeferred d c.header.group c.ring c.seq else d

/-- Take the next command of a ring. -/
def takeCommand (d : Dev) (r : Nat) (w : Wrr) : Dev :=
  let c := nextCmd d r
  addTaken (countTaken (openTaken d c) r) c w

/-! ### Bodies of the commands that need nothing else -/

/-- Run SEM_SIGNAL (R348, R255, R292). -/
def runSemSignal (d : Dev) (c : Ctx) (e : Nat) : Res :=
  let w := entryWord e 4
  let op := bits w 34 33
  let amount := bits w 63 48
  let value := bits (entryWord e 5) 31 0
  let peer := bits w 31 18
  if bit w 32 && peer != ownId d then
    resOk (issueReq d c.ring c.seq peer 0 0 (fun t => .semOp t op (bits w 17 0) (if op = 1 then value else amount))) 0
  else resOk (semApply d (bits w 17 0) (semActOf op amount value)) 0

/-- Run TIMESTAMP: the timebase at this moment. -/
def runTimestamp (d : Dev) (c : Ctx) (e : Nat) : Res :=
  let a := entryWord e 4
  if a % 8 ≠ 0 || !rangeNamed d c.port a 8 then resStatus d .badAddress
  else match accessFails d a 8 true with
    | some f => resFail d f
    | none => resOk (store d a (leBytes 8 d.time)) (d.time % 2 ^ 64)

/-- The ranges of a DIGEST's list. -/
def digestRanges (d : Dev) (a n : Nat) : List (Nat × Nat) :=
  (List.range n).map (fun i => (memReadNat d (a + 16 * i) 8, memReadNat d (a + 16 * i + 8) 8))

/-- Run DIGEST (R473). -/
def runDigest (d : Dev) (c : Ctx) (e : Nat) : Res :=
  let list := entryWord e 4
  let n := bits (entryWord e 5) 12 0
  let dst := entryWord e 6
  if n = 0 ∨ n > 4096 then resStatus d .badParam
  else if !rangeNamed d c.port list (16 * n) || !rangeNamed d c.port dst 64 then resStatus d .badAddress
  else match accessFails d list (16 * n) false with
    | some f => resFail d f
    | none =>
      let rs := digestRanges d list n
      if rs.any (fun r => r.2 != 0 && !rangeNamed d c.port r.1 r.2) then resStatus d .badAddress
      else
        let fails := (rs.findSome? (fun r => accessFails d r.1 r.2 false)) <|> accessFails d dst 64 true
        let d1 := noteRanges d rs
        match fails with
        | some f => resFail d1 f
        | none =>
          let out := shake256 (rs.flatMap (fun r => memRead d1 r.1 r.2)) 64
          resOk (store d1 dst out) (leNat (out.take 8))

/-- What a command reads beside its tensors: descriptors, operand lists, parameter blocks, images and lists. -/
def commandReads (d : Dev) (e : Nat) : List (Nat × Nat) :=
  let w := entryWord e
  let ds := commandDescs d e
  let blocks := match opcodeOf (headerOf e).opcode with
    | some .row => [(w 6, 64)]
    | some .vec => [(w 6, 32)]
    | some .conv => [(w 7, 2112)]
    | some .updBind => [(w 4, 192)]
    | some .digest => [(w 4, 16 * bits (w 5) 12 0)]
    | some .coll =>
      (match collOpOf (bits (w 4) 3 0) with
      | some .treeLoad => [(w 6, 32 + 32 * min 262144 (word32 (memReadNat d (w 6) 32) 8))]
      | some .routeLoad => [(w 6, 16 + 4 * bits (word32 (memReadNat d (w 6) 16) 8) 14 0)]
      | _ => [])
    | _ => []
  ((ds.1 ++ ds.2).map (fun a => (a, 64)) ++ blocks).filter (fun r => r.1 != 0 && r.2 != 0
    && ((accessFails d r.1 r.2 false).map (·.status)).all (· == .uncorrectable))

/-- The body of a command, by its opcode. (DESIGN CHOICE 8) -/
def runBody (d : Dev) (c : Ctx) (cmd : Cmd) : Res :=
  let e := cmd.entry
  match cmd.opcode with
  | some .mm => runMatrix false d c e
  | some .sliceMm => runMatrix true d c e
  | some .conv => runConv d c e
  | some .row => runRow d c e
  | some .vec => runVec d c e
  | some .copy => runCopy d c e
  | some .mcast => runMcast d c e
  | some .fennelPut => runFennel d c e
  | some .semWait => resOk d cmd.reached
  | some .semSignal => runSemSignal d c e
  | some .coll =>
    (match cmd.collOp with
    | some .treeLoad => runTreeLoad d c e
    | some .routeLoad => runRouteLoad d c e
    | _ => runCollData d c e)
  | some .updBind => runBind d c e
  | some .updUnbind => runUnbind d c e
  | some .stepOpen => runStepOpen d c e
  | some .stepClose => runStepClose d c e
  | some .scaleSet => runScaleSet d c e
  | some .censusRead => runCensusRead d c e
  | some .digest => runDigest d c e
  | some .fence => resOk d 0
  | some .timestamp => runTimestamp d c e
  | some .nop => resOk d 0
  | none => resStatus d .badOpcode

/-! ### Starting commands -/

/-- The communicator of a COLL entry. -/
def Cmd.comm (c : Cmd) : Nat := bits (entryWord c.entry 4) 19 10

/-- A command names a tensor handle. -/
def namesTensor (d : Dev) (h : Nat) (c : Cmd) : Bool :=
  let ds := commandDescs d c.entry
  (ds.1 ++ ds.2).any (fun a =>
    a != 0 && a % 64 == 0 && (accessFails d a 64 false).isNone
    && (let r := rawDescOf (memReadNat d a 64); r.bound && r.handle == h))

/-- Commands taken before this one on any ring and not completed. -/
def beforeOf (d : Dev) (c : Cmd) : List Cmd := d.eng.taken.takeWhile (fun x => !isCmd c.ring c.seq x)

/-- R356: a COLL waits for an earlier load of its communicator, a load for the COLLs in progress over it. -/
def collGate (d : Dev) (c : Cmd) : Bool :=
  match c.collOp with
  | some .treeLoad => !(beforeOf d c).any (fun x => x.collOp.any (fun o => o != .routeLoad && o != .treeLoad) && x.comm == c.comm && x.phase != .waiting)
  | some .routeLoad => true
  | some _ => !(beforeOf d c).any (fun x => x.collOp == some .treeLoad && x.comm == c.comm && !x.ended)
  | none => true

/-- R353, R355: UPD_UNBIND waits for the commands that name its tensor. -/
def unbindGate (d : Dev) (c : Cmd) : Bool :=
  if c.opcode = some .updUnbind then
    match findShard d (bits (entryWord c.entry 4) 31 0) with
    | none => true
    | some s => !(d.eng.taken.filter (fun x => x.ring != c.ring)).any (namesTensor d s.bind.handle)
  else true

/-- R378, Table 13.2: a STEP_OPEN waits for the ring scheduler compartment to place its plan. -/
def placementServed (d : Dev) (c : Cmd) : Bool := c.opcode != some .stepOpen || compServes d 1

/-- R354: what must have happened before the command may start, its own wait and its stage apart. -/
def orderGate (d : Dev) (c : Cmd) : Bool :=
  let before := earlierOf d c
  !c.held && c.opener.isNone
  && before.all (fun x => x.phase != .waiting && !x.serial)
  && (!c.serial || before.isEmpty)
  && collGate d c && unbindGate d c && placementServed d c

/-- The command's wait is reached, or it has none (R256). -/
def waitMet (d : Dev) (c : Cmd) : Bool := !c.header.waitEn || waitReached d c.header.waitSem c.header.waitTarget

/-- R270: a backward item waits for a credit of queue `q` and for nothing else. -/
def backwardWaits (d : Dev) (q : Nat) : Bool :=
  d.eng.taken.any (fun x => x.phase == .waiting && queueOf d x == some (q, false) && orderGate d x && waitMet d x)

/-- What the stage of a command and its queue ask: the depth (R272), a credit for its item, and that no backward item waits
together with a forward one (R270). -/
def admitted (d : Dev) (c : Cmd) : Bool :=
  stageAdmits d c && queueAdmits d c && !(queueOf d c).any (fun x => x.2 && backwardWaits d x.1)

/-- What must have happened before the command may start, its own wait apart (R354, R270, R272). -/
def startGate (d : Dev) (c : Cmd) : Bool := orderGate d c && admitted d c

/-- The command starts. -/
def startCmd (d : Dev) (c : Cmd) (reached : Nat) : Dev :=
  let d1 := updCmd d c.ring c.seq (fun c => { c with phase := .started, blocked := false, reached := reached, startedAt := d.time })
  planStart (stageStart (queueTake d1 c) c) c.ctx c.entry

/-- R256, R260: of a command whose turn has come, fail it if its semaphore is in error, leave it blocked if its wait is not
reached, and start it once its stage admits it. -/
def waitThenStart (d : Dev) (c : Cmd) : Dev :=
  let h := c.header
  let block := fun (b : Bool) => updCmd d c.ring c.seq (fun c => { c with blocked := b })
  if h.waitEn && semErr d h.waitSem then finishWith d c .semError
  else if !waitMet d c then block true
  else if !admitted d c then block false
  else startCmd d c (if h.waitEn then semCount d h.waitSem else 0)

/-- R348: conditions of the body itself. -/
def bodyGate (d : Dev) (c : Cmd) : Bool :=
  match c.opcode with
  | some .semSignal => bit (entryWord c.entry 4) 35 || (earlierOf d c).isEmpty
  | some .timestamp => !bit (entryWord c.entry 5) 0 || (earlierOf d c).isEmpty
  | some .fence => !bit (entryWord c.entry 4) 0 || ((beforeOf d c).filter (fun x => x.port == c.port)).isEmpty
  | _ => true

/-- Run the body of a started command. -/
def runCmd (d : Dev) (c : Cmd) : Dev :=
  if c.status ≠ 0 then finishCmd d c.ring c.seq c.status c.info
  else match planBlocks d c.ctx c.entry with
    | some f => if f.status = .planWait ∨ f.status = .resetWait then d else finishCmd d c.ring c.seq f.status.code f.info
    | none =>
      let d0 := updCmd (stageReads d c) c.ring c.seq (fun c => { c with issued := true })
      let r := runBody (noteRanges d0 (commandReads d0 c.entry)) c.ctx c
      match r.done with
      | none => flushWrites (bodyRan d0 r.dev c) c.ring c.seq
      | some (s, info) =>
        if s = Status.resetWait.code then d
        else if s = Status.remoteData.code then requestReads d c.ring c.seq (info / 2 ^ 64) (info % 2 ^ 64)
        else
          let d1 := flushWrites (bodyRan d0 r.dev c) c.ring c.seq
          match (findCmd d1 c.ring c.seq).filter (fun x => x.status != 0 && s == 0) with
          | some x => finishCmd d1 c.ring c.seq x.status x.info
          | none => finishCmd d1 c.ring c.seq s info

/-- What one command in flight can do now. (DESIGN CHOICE 8) -/
def tryCmd (d : Dev) (ring seq : Nat) : Dev :=
  match findCmd d ring seq with
  | none => d
  | some c =>
    let d1 := if c.phase = .waiting && !c.blocked && orderGate d c then waitThenStart d c else d
    match findCmd d1 ring seq with
    | none => d1
    | some c => if c.phase = .started && !c.issued && c.outstanding.isEmpty && bodyGate d1 c then runCmd d1 c else d1

/-- Let every command in flight do what it can, in the order taken. (DESIGN CHOICE 8) -/
def advance (d : Dev) : Dev := (d.eng.taken.map (fun c => (c.ring, c.seq))).foldl (fun d k => tryCmd d k.1 k.2) d

/-- A row of a command taken from ring `r`: the ring is the next one under R315, its entry can be fetched, and it holds
what the row names (`p`); otherwise nothing happens. (DESIGN CHOICE 1) (DESIGN CHOICE 63) -/
def takeRow (d : Dev) (r : Nat) (p : Nat → Bool) : Dev :=
  match nextRing d with
  | none => d
  | some (n, w) =>
    if n ≠ r || fetchFails d r || !p (memReadNat d (entryAddr d r) 64) then d else advance (takeCommand d r w)

/-- DESIGN CHOICE 63 of the log. -/
def isOpcode (op : Opcode) (e : Nat) : Bool := opcodeOf (headerOf e).opcode == some op

/-- A COLL entry of one operation; a reserved operation code goes with ALLREDUCE (it is rejected, R335). (DEDUCED 16)
(DESIGN CHOICE 63) -/
def isColl (o : CollOp) (e : Nat) : Bool :=
  isOpcode .coll e && (collOpOf (bits (entryWord e 4) 3 0)).getD .allreduce == o

/-! ### Completing commands -/

/-- The info of a record: UPD_BIND and UPD_UNBIND name their shard whatever their status, also where they were rejected
before they ran (Table 12.18). -/
def recordInfo (d : Dev) (c : Cmd) : Nat :=
  let w := entryWord c.entry 4
  if c.opcode = some .updUnbind then bits w 31 0
  else if c.opcode = some .updBind ∧ c.info = 0 then
    (match readFor d c.port w 192 with | .ok x => (bindOf x).shard | .error _ => 0)
  else c.info

/-- The 32 bytes of Table 11.5, without the phase bit. -/
def recordOf (d : Dev) (c : Cmd) : Nat :=
  let own := (c.opcode == some .stepOpen || c.opcode == some .stepClose) && c.status == 0
  let tag := if own then bits (entryWord c.entry 4) 31 0 else c.stepTag
  c.seq + (c.header.opcode * 2 ^ 16 + c.status % 2 ^ 16) * 2 ^ 32 + c.header.tag * 2 ^ 64 + tag * 2 ^ 96
    + d.time % 2 ^ 64 * 2 ^ 128 + recordInfo d c % 2 ^ 64 * 2 ^ 192

/-- The address of completion slot of count `k`, and the phase bit of R316. -/
def slotAddr (d : Dev) (r k : Nat) : Nat := ringCqBase d r + 32 * (k % ringDepth d r)
def phaseBit (d : Dev) (r k : Nat) : Nat := if k / ringDepth d r % 2 = 0 then 2 ^ 63 else 0

/-- R321: send the interrupt of a ring when `due` says so, or its count is reached; nothing while its port is silent. -/
def irqSend (d : Dev) (r : Nat) (due : Bool) : Dev :=
  let now := smapGet d.eng.irq r ⟨0, 0⟩
  let p := (ringOwner d r).getD 0
  if now.pending = 0 || portSilent d p then d
  else if due || decide (now.pending ≥ fget d kringIrqCount r) || fget d kringIrqTimeUs r == 0 then
    sendVector { d with eng := { d.eng with irq := smapErase d.eng.irq r } } p (fget d kringCfgVector r)
  else d

/-- R321: count a record toward the ring's interrupt. -/
def countIrq (d : Dev) (r : Nat) : Dev :=
  if fget d kringCfgVecEn r = 0 then d
  else
    let old := smapGet d.eng.irq r ⟨0, d.time⟩
    let now : RingIrq := ⟨old.pending + 1, if old.pending = 0 then d.time else old.oldest⟩
    irqSend { d with eng := { d.eng with irq := smapPut d.eng.irq r now } } r false

/-- R326: whether the ring's records are held: its completion ring lies in the memory of a silent host, it is to be
rebased, earlier records are held, or the host refuses the write. -/
def mustHold (d : Dev) (r : Nat) : Bool :=
  let a := slotAddr d r (fget d kringCountsCqTail r)
  let silent := match regionOf a with | .host p => portSilent d p | _ => false
  silent || d.eng.leaving.contains r || d.eng.held.any (fun h => h.ring == r) || (accessFails d a 32 true).isSome

/-- Write a record to the completion ring (R316). -/
def putRecord (d : Dev) (r rec0 : Nat) : Dev :=
  let k := fget d kringCountsCqTail r
  let d1 := store d (slotAddr d r k) (leBytes 32 (rec0 + phaseBit d r k))
  countIrq (fset d1 kringCountsCqTail r (k + 1)) r

/-- Hold a record in the ring's hold slot (R326). -/
def holdRecord (d : Dev) (r rec0 : Nat) : Dev :=
  let k := (d.eng.held.filter (fun h => h.ring == r)).length
  let base := fget d hpHoldBaseBase ((ringOwner d r).getD 0) * 4096
  let d1 := store d (base + 8192 * r + 32 * k) (leBytes 32 rec0)
  { d1 with eng := { d1.eng with held := d1.eng.held ++ [⟨r, rec0⟩] } }

/-- R326, R327, R331: write the held records of a ring, in the order held, as far as its completion ring is usable. -/
def releaseHeld (d : Dev) (r : Nat) : Dev :=
  let mine := d.eng.held.filter (fun h => h.ring == r)
  let d0 := { d with eng := { d.eng with held := d.eng.held.filter (fun h => h.ring != r) } }
  mine.foldl (fun d h => if mustHold d r then holdRecord d r h.record else putRecord d r h.record) d0

/-- R314: the vectors of a ring whose fetch failed, once its taken commands have completed. (DEDUCED 19) -/
def announceFetchError (d : Dev) (r : Nat) : Dev :=
  if !d.eng.raise.contains r || fget d kringStatusInflight r != 0 then d
  else
    let p := (ringOwner d r).getD 0
    let d1 := { d with eng := { d.eng with raise := d.eng.raise.erase r } }
    let d2 := evtSetOne d1 p 2
    if fget d2 kringCfgVecEn r = 1 then sendVector d2 p (fget d2 kringCfgVector r) else d2

/-- A ring after one of its commands has completed (R318, R314). -/
def ringAfter (d : Dev) (r : Nat) : Dev :=
  let n := fget d kringStatusInflight r - 1
  let d1 := fset d kringStatusInflight r n
  let d2 := if n = 0 && ringState d1 r == 2 then fset d1 kringStatusState r 0 else d1
  announceFetchError d2 r

/-- The commands that waited for a STEP_OPEN learn how it ended (R337). -/
def resolveOpeners (d : Dev) (c : Cmd) : Dev :=
  let mine := d.eng.taken.filter (fun x => x.opener == some (c.ring, c.seq))
  mine.foldl (fun d x =>
    if c.status = 0 then updCmd d x.ring x.seq (fun x => { x with opener := none })
    else if x.phase = .waiting then
      finishWith (updCmd d x.ring x.seq (fun x => { x with opener := none, stepTag := 0 })) x .epochState
    else d) d

/-- What the completion of STEP_OPEN and STEP_CLOSE changes beside the record. -/
def completeStep (d : Dev) (c : Cmd) : Dev :=
  match c.opcode with
  | some .stepOpen => resolveOpeners (unmarkDeferred d c.ring c.seq) c
  | some .stepClose =>
    if c.status ≠ 0 ∧ c.status ≠ Status.commitWrite.code then d
    else updGroup d c.header.group (fun g => if g.phase = .reducing then { g with phase := .idle, closing := none } else g)
  | _ => d

/-- Write or hold the record of a command and drop it. -/
def recordCmd (d : Dev) (c : Cmd) : Dev :=
  let rec0 := recordOf d c
  let d1 := stageEnd (planCommit d c) c
  let d2 := if mustHold d1 c.ring then holdRecord d1 c.ring rec0 else putRecord d1 c.ring rec0
  ringAfter (completeStep (postDeferred (dropCmd d2 c.ring c.seq) c.ring c.seq) c) c.ring

/-- R336: apply the completion signals of a command. -/
def signalCmd (d : Dev) (c : Cmd) : Dev :=
  let h := c.header
  let err := c.status != 0
  let d0 := updCmd d c.ring c.seq (fun c => { c with phase := .signalled })
  let d1 := if h.sig0En then applySignal d0 c.ring c.seq h.sig0 err else d0
  if h.sig1En && c.opcode != some .fennelPut then applySignal d1 c.ring c.seq h.sig1 err else d1

/-- COMMAND_COMPLETE: every write of a finished command has committed. Its signals are applied and its record written,
at once or, when a signal went to a peer, at the next COMMAND_COMPLETE after the acknowledgement. (DESIGN CHOICE 8) -/
def completeCmd (d : Dev) (ring seq : Nat) : Dev :=
  match findCmd d ring seq with
  | none => d
  | some c =>
    if !c.outstanding.isEmpty then d
    else match c.phase with
      | .finished =>
        let d1 := signalCmd d c
        (match findCmd d1 ring seq with
        | some c1 => if c1.outstanding.isEmpty then advance (recordCmd d1 c1) else d1
        | none => d1)
      | .signalled => advance (recordCmd d c)
      | _ => d

/-- WAIT_RESUME: a blocked command whose wait is now reached starts, or fails when its semaphore is in error (R259,
R260). -/
def waitResume (d : Dev) (ring seq : Nat) : Dev :=
  match findCmd d ring seq with
  | none => d
  | some c => if c.phase = .waiting && c.blocked && orderGate d c then advance (waitThenStart d c) else d

/-- STEP_OPEN_HELD_START: the held STEP_OPEN of a group takes effect once the close before it has completed (R15); where
that close ended with an error and its epoch stays open, it finds the epoch open. -/
def heldStart (d : Dev) (g : Nat) : Dev :=
  match d.eng.taken.find? (fun c => isStepCmd g c && c.held) with
  | none => d
  | some c =>
    if (beforeOf d c).any (fun x => x.header.group == g && x.opcode == some .stepClose) then d
    else advance (updCmd d c.ring c.seq (fun c => { c with held := false }))

/-- STAGE_CREDIT_RETURN: a slot of a queue is freed, and the producers that wait go on (R270). -/
def creditReturn (d : Dev) (q : Nat) : Dev := if decide (q < 4096) then advance (queueReturn d q) else d

/-- A command that waits for nothing but a credit of queue `q`. -/
def stalledOn (d : Dev) (q : Nat) (c : Cmd) : Bool :=
  c.phase == .waiting && !queueAdmits d c && (queueOf d c).any (fun x => x.1 == q)

/-- STAGE_STALL_RECORD: a stall has lasted stall_rec; one record for the queue in the epoch (R271). (DEDUCED 38) -/
def stallRecord (d : Dev) (q : Nat) : Dev :=
  match d.eng.taken.find? (stalledOn d q) with
  | none => d
  | some c =>
    if d.steps.queues.any (fun x => x.queue == q && x.stepTag == c.stepTag) then d
    else
      let d1 := { d with steps := { d.steps with queues := d.steps.queues.filter (fun x => x.queue != q) ++ [⟨q, c.stepTag⟩] } }
      nutmeg d1 ⟨0x09, 3, 1, 0, c.header.group, c.stepTag, q⟩

/-- RECOMPUTE: re-execute the recorded command of a discarded entry into the restore space (R268). What it read from peers
the host has left unchanged, so that it meets the bytes that it fetched then. While an operand lies at a unit under reset it
waits. -/
def recompute (d : Dev) (i : Nat) : Dev :=
  match findPlan d i with
  | none => d
  | some p =>
    if p.phase ≠ .discarded || p.writer = 0 then d
    else
      match restoreSpace d p with
      | none => d
      | some at_ =>
        let d1 := takeSpace d p at_ .restored
        let cmd : Cmd := ⟨p.ring, p.seq, p.port, p.writer, none, p.stepTag, .started, false, false, true, 0, 0, [], p.fetched, 0, d.time, []⟩
        let c : Ctx := { cmd.ctx with recompute := true }
        let r := runBody (noteRanges (stageReads d1 cmd) (commandReads d1 p.writer)) c cmd
        let d2 := touchAcc (dropStaged r.dev) p.group
        match r.done with
        | some (0, _) => advance d2
        | some (s, info) =>
          if s = Status.resetWait.code then d else
          let d3 := match statusCond false s with | some k => condRaise d2 p.group k | none => d2
          advance (updPlan d3 i (fun q => { q with bad := some info }))
        | none => advance d2

end Sys2Proof.Machine
end

