-- ==== Sys2Proof/Machine/Ports.lean ====
section
/-! DEFINITION. Host ports and the writes that reach rings from them: ring enable, disable, abort and error clear (R309 to
R331), doorbells (R312, R317, R319), MSI-X (R321), heartbeat, orphan hold and attach (R323 to R328), adoption (R329 to
R332) and port resets (R333, R334). -/
namespace Sys2Proof.Machine

/-! ### Ports -/

def portRun (d : Dev) (p : Nat) : PortRun := (d.ports[p]?).getD ⟨false, false, false, true⟩

def updPort (d : Dev) (p : Nat) (f : PortRun → PortRun) : Dev := { d with ports := listUpd d.ports p f }

/-- The port answers its host: main power is on (R466), its link is not down, PERST# is released and the function is in D0. -/
def portAnswers (d : Dev) (p : Nat) : Bool :=
  decide (p < 2) && (d.pwr.state == .running || d.pwr.state == .asleep) && portState d p != 4 && !(portRun d p).perst && !(portRun d p).d3

/-- What a host does through a port that answers; otherwise nothing reaches the device. (DESIGN CHOICE 1) -/
def hostAct (d : Dev) (p : Nat) (f : Dev → Dev) : Dev := if portAnswers d p then f d else d

/-- Change HP_PORT_STATE.state, with the peer_port event (R461). -/
def setPortState (d : Dev) (p s : Nat) : Dev :=
  if portState d p = s then d else evtSet (fset d hpPortStateState p s) 3

/-- The rings of a port, in ascending order. -/
def portRings (d : Dev) (p : Nat) : List Nat :=
  (d.eng.owner.map (·.1)).filter (fun r => decide (r < 16384) && ringOwner d r == some p)

/-- The groups whose open epoch belongs to a port (R17). -/
def portGroups (d : Dev) (p : Nat) : List Nat :=
  (List.range d.steps.groups.length).filter (fun g => groupPhase d g != .idle && ((groupAt d g).map (·.port)) == some p)

/-! ### Rights over a ring (R322) -/

def inPortRange (d : Dev) (p r : Nat) : Bool := decide (fget d hpCfgRingLo p ≤ r ∧ r ≤ fget d hpCfgRingHi p)

/-- A port's writes to a ring take effect: it owns the ring, nobody does, or the ring is disabled and lies in its range.
(DEDUCED 19) -/
def mayWriteRing (d : Dev) (p r : Nat) : Bool :=
  match ringOwner d r with
  | none => true
  | some o => o == p || (ringState d r == 0 && inPortRange d p r)

/-- R322: a write from a port without the right is dropped and counted. (DEDUCED 19) -/
def ringAct (d : Dev) (p r : Nat) (f : Dev → Dev) : Dev :=
  if mayWriteRing d p r then f d else fsat d hpErrForeignWrite p 1

/-- The ring can be configured and enabled: it is disabled, or drains on its way out of the rebase state (R331).
(DEDUCED 19) -/
def ringOpen (d : Dev) (r : Nat) : Bool := ringState d r == 0 || (ringState d r == 2 && d.eng.leaving.contains r)

/-! ### Enable, disable, abort, clear -/

/-- R309: a ring part begins where it may: in device DRAM, the bonded layers, core scratch or, lying there wholly, the port's
own host window; and it meets no spill area (R112). -/
def ringPlaced (d : Dev) (p a n : Nat) : Bool :=
  !inSpill d a n &&
  (match regionOf a with
  | .dram | .layer _ _ _ | .scratch _ _ => true
  | .host q => q == p && regionOf (a + n - 1) == .host p
  | _ => false)

/-- R309: the depth is a power of two from 64 to 65,536. (DEDUCED 6) -/
def ringDepthOk (d : Dev) (r : Nat) : Bool :=
  decide (6 ≤ fget d kringCfgLog2Depth r) && decide (fget d kringCfgLog2Depth r ≤ 16)

/-- The cause for which an enable fails (R311, R331, R370), 0 for none. (DEDUCED 6) -/
def enableError (d : Dev) (p r : Nat) : Nat :=
  if fget d mbxFwStatusState 0 < 2 then 7
  else if !(inPortRange d p r || (d.eng.adopted.contains r && ringOwner d r == some p)) then 3
  else if !bit (fget d hpCfgClassAllow p) (fget d kringCfgClass r) then 5
  else if fget d hpDrvVersionMajor p ≠ fget d mbxFwVersionMajor 0 then 4
  else if !(ringDepthOk d r && ringPlaced d p (ringBase d r) (64 * ringDepth d r) && ringPlaced d p (ringCqBase d r) (32 * ringDepth d r)) then 6
  else if d.eng.leaving.contains r && fget d kringStartStart r != fget d kringCountsSqHead r then 8
  else 0

/-- The counts that an enable sets: KRING_START, and for a ring leaving rebase the completion counts of R331. (DEDUCED 20) -/
def enableCounts (d : Dev) (r : Nat) : Dev :=
  let start := fget d kringStartStart r
  let owed := (d.eng.held.filter (fun h => h.ring == r)).length + fget d kringStatusInflight r
  let cq := if d.eng.leaving.contains r then serialDiff start owed else start
  let d1 := fset (fset d kringCountsSqHead r start) kringCountsSqTail r start
  fset (fset d1 kringCountsCqTail r cq) kringCountsCqHead r cq

/-- RING_ENABLE: KRING_CFG.enable is set (R311, R331). -/
def ringEnable (d : Dev) (p r : Nat) : Dev :=
  ringAct d p r (fun d =>
    if !ringOpen d r then d
    else
      let err := enableError d p r
      if err ≠ 0 then fset (fset d kringCfgEnable r 0) kringStatusErr r err
      else
        let d1 := enableCounts d r
        let keeps := d.eng.adopted.contains r && ringOwner d r == some p
        let adopted := if keeps then d1.eng.adopted else d1.eng.adopted.filter (· != r)
        let d2 := { d1 with eng := { d1.eng with
          owner := smapPut d1.eng.owner r p, adopted := adopted, leaving := d1.eng.leaving.filter (· != r) } }
        let d3 := fset (fset (fset d2 kringCfgEnable r 1) kringCfgOwner r p) kringStatusErr r 0
        advance (releaseHeld (fset d3 kringStatusState r 1) r))

/-- A ring stops taking commands (R318). -/
def drainRing (d : Dev) (r : Nat) : Dev :=
  let d1 := fset d kringCfgEnable r 0
  if ringState d r = 0 ∨ ringState d r = 2 then d1
  else fset d1 kringStatusState r (if fget d kringStatusInflight r = 0 then 0 else 2)

/-- RING_DISABLE: KRING_CFG.enable is cleared. -/
def ringDisable (d : Dev) (p r : Nat) : Dev := ringAct d p r (fun d => drainRing d r)

/-- Taken commands of a ring that have not started complete as aborted (R318). -/
def abortRing (d : Dev) (r : Nat) : Dev := abortTaken d (fun c => c.ring == r)

/-- RING_ABORT: KRING_CTL.abort is written. -/
def ringAbort (d : Dev) (p r : Nat) : Dev := ringAct d p r (fun d => advance (abortRing d r))

/-- RING_CLEAR_ERR: the error state ends (R314); the ring of a port that waits for resume is held. -/
def ringClearErr (d : Dev) (p r : Nat) : Dev :=
  ringAct d p r (fun d =>
    if ringState d r ≠ 3 then d
    else
      let next := if (portRun d ((ringOwner d r).getD 0)).waiting then 4 else 1
      let d1 := fset (fset d kringStatusState r next) kringStatusErr r 0
      { d1 with eng := { d1.eng with raise := d1.eng.raise.filter (· != r) } })

/-- A ring enters the error state; its vectors follow when its taken commands have completed (R314). -/
def ringError (d : Dev) (r err : Nat) : Dev :=
  let d1 := nutmeg (fset (fset d kringStatusState r 3) kringStatusErr r err) ⟨0x07, 0, 1, unitId 0x0B r, 0, 0, err⟩
  announceFetchError { d1 with eng := { d1.eng with raise := insertNat d1.eng.raise r } } r

/-- RING_FETCH_ERROR: the fetch of the next entry of a ring fails (R314). (DESIGN CHOICE 63) -/
def ringFetchError (d : Dev) (r : Nat) : Dev :=
  if ringReady d r && fetchFails d r then ringError (fsat d hpErrFetchErr ((ringOwner d r).getD 0) 1) r 2 else d

/-! ### Doorbells -/

/-- A doorbell write is ignored and counted (R317, R319). -/
def doorbellBad (d : Dev) (p : Nat) : Dev := fsat d hpErrDoorbellBad p 1

/-- Doorbells act for the owner; a ring that nobody owns is disabled (R319, R322). -/
def doorbellAct (d : Dev) (p r : Nat) (f : Dev → Dev) : Dev :=
  match ringOwner d r with
  | none => doorbellBad d p
  | some o => if o = p then f d else fsat d hpErrForeignWrite p 1

/-- KRING_DB_SQ: a submission doorbell (R312, R319). (DEDUCED 19) -/
def doorbellSq (d : Dev) (p r v : Nat) : Dev :=
  doorbellAct d p r (fun d =>
    let st := ringState d r
    if st ≠ 1 ∧ st ≠ 3 ∧ st ≠ 4 then doorbellBad d p
    else
      let ahead := serialDiff v (fget d kringCountsSqTail r)
      if ahead = 0 ∨ 2 ^ 31 ≤ ahead then d
      else if serialDiff v (fget d kringCountsSqHead r) ≤ ringDepth d r then fset d kringCountsSqTail r v
      else if st = 3 then doorbellBad d p
      else ringError d r 1)

/-- KRING_DB_CQ: a completion doorbell (R317, R319). -/
def doorbellCq (d : Dev) (p r v : Nat) : Dev :=
  doorbellAct d p r (fun d =>
    let st := ringState d r
    if st = 0 ∨ st = 5 then doorbellBad d p
    else
      let step := serialDiff v (fget d kringCountsCqHead r)
      if 0 < step ∧ step < 2 ^ 31 ∧ serialDiff (fget d kringCountsCqTail r) v < 2 ^ 31 then fset d kringCountsCqHead r v
      else doorbellBad d p)

/-! ### MSI-X -/

/-- MSIX_UNMASK: a vector is unmasked, and its pending message goes out (R321). (PRESUMED 22) -/
def msixUnmask (d : Dev) (p v : Nat) : Dev :=
  let key := p * 2048 + v
  let old := smapGet d.eng.msixTable (key * 4 + 3) 1
  let d1 := { d with eng := { d.eng with msixTable := smapSet d.eng.msixTable (key * 4 + 3) (old / 2 * 2) 1 } }
  if d1.eng.msixPending.contains key && !portSilent d1 p then
    emit { d1 with eng := { d1.eng with msixPending := d1.eng.msixPending.filter (· != key) } } (.msix p v)
  else d1

/-- IRQ_COALESCE_TIMEOUT: the oldest pending record of a ring has waited KRING_IRQ.time_us. -/
def irqTimeout (d : Dev) (r : Nat) : Dev := irqSend d r true

/-! ### Heartbeat and orphan hold -/

/-- The stamp of the last heartbeat or attach. -/
def beat (d : Dev) (p : Nat) : Dev := fset d hpHbLastStamp p d.time

/-- HEARTBEAT_WRITE (R323, R328). (DEDUCED 20) -/
def heartbeatWrite (d : Dev) (p v : Nat) : Dev :=
  if portState d p = 2 then d
  else
    let d1 := fset d hpHeartbeatBeat p v
    if portState d p = 1 then beat d1 p else d1

/-- A port enters orphan hold (R324, step 1), with its record (Table 15.5). -/
def orphanPort (d : Dev) (p : Nat) : Dev :=
  nutmeg (setPortState (updPort d p (fun x => { x with waiting := false })) p 2) ⟨0x07, 1, 1, unitId 0x0A p, 0, 0, 0⟩

/-- HEARTBEAT_TIMEOUT: no heartbeat in hb_timeout (R323). Between an attach out of orphan hold and the resume that re-arms
it, the heartbeat is not supervised (R327). -/
def heartbeatTimeout (d : Dev) (p : Nat) : Dev :=
  if portState d p = 1 && !(portRun d p).waiting then orphanPort d p else d

/-- A port whose hold is not yet over: in orphan hold, or attached out of it and waiting (R325, R327). -/
def portHeld (d : Dev) (p : Nat) : Bool := portState d p == 2 || (portRun d p).waiting

/-- ORPHAN_READ_ABANDON: 10 µs after t_h the rings of the port are held (R324, step 3). -/
def orphanHold (d : Dev) (p : Nat) : Dev :=
  if !portHeld d p then d
  else advance ((portRings d p).foldl (fun d r => if ringState d r = 1 then fset d kringStatusState r 4 else d) d)

/-- Close every open epoch of a port whose STEP_CLOSE has not been taken (R325). -/
def closePort (d : Dev) (p : Nat) : Dev := (portGroups d p).foldl selfClose d

/-- ORPHAN_CLOSE_TIMEOUT: orphan_close seconds have passed since t_h (R325). -/
def orphanClose (d : Dev) (p : Nat) : Dev :=
  if portHeld d p && fget d hpCfgOrphanClose p != 0 then advance (closePort d p) else d

/-! ### Attach and adopt -/

/-- The result of an HP_ATTACH or HP_ADOPT command: done, or wrong state. -/
def attachResult (d : Dev) (p : Nat) (ok : Bool) : Dev := fset d hpAttachResult p (if ok then 0 else 1)

/-- ATTACH (R323, R327, R332): a port already attached or whose link is down is in the wrong state. (DEDUCED 20) -/
def portAttach (d : Dev) (p : Nat) : Dev :=
  let st := portState d p
  if st = 1 ∨ st = 4 then attachResult d p false
  else
    let d1 := updPort d p (fun x => { x with waiting := st == 2 })
    let d2 := fset d1 hpPortStateSession p (fget d1 hpPortStateSession p + 1)
    let d3 := beat (setPortState d2 p 1) p
    (portRings d3 p).foldl (fun d r => irqSend d r false) (attachResult d3 p true)

/-- RESUME (R327, R330). -/
def portResume (d : Dev) (p : Nat) : Dev :=
  if portState d p ≠ 1 then attachResult d p false
  else
    let d1 := beat (updPort d p (fun x => { x with waiting := false })) p
    let d2 := (portRings d1 p).foldl (fun d r =>
      releaseHeld (if ringState d r = 4 then fset d kringStatusState r 1 else d) r) d1
    advance (attachResult d2 p true)

/-- RESET_RINGS (R327). -/
def portResetRings (d : Dev) (p : Nat) : Dev :=
  if portState d p ≠ 1 then attachResult d p false
  else
    let rings := portRings d p
    let d1 := beat (updPort d p (fun x => { x with waiting := false })) p
    let d2 := { d1 with eng := { d1.eng with held := d1.eng.held.filter (fun h => !rings.contains h.ring) } }
    let d3 := rings.foldl (fun d r => drainRing (abortRing d r) r) d2
    advance (attachResult (closePort d3 p) p true)

/-- DETACH: the port is detached, without heartbeat supervision (R323). -/
def portDetach (d : Dev) (p : Nat) : Dev :=
  if portState d p ≠ 1 then attachResult d p false
  else attachResult (setPortState (updPort d p (fun x => { x with waiting := false })) p 0) p true

/-- A part of a ring lies in the window of host port `q`. -/
def ringInHost (d : Dev) (r q : Nat) : Bool :=
  regionOf (ringBase d r) == .host q || regionOf (ringCqBase d r) == .host q

/-- A ring passes to its adopter (R329, R330). (DEDUCED 20) -/
def adoptRing (q p : Nat) (d : Dev) (r : Nat) : Dev :=
  let st := ringState d r
  let hosted := ringInHost d r q && st != 0
  let d1 := fset (fset d kringCfgOwner r p) kringCfgVecEn r 0
  let d2 := { d1 with eng := { d1.eng with
    owner := smapPut d1.eng.owner r p, adopted := insertNat d1.eng.adopted r, irq := smapErase d1.eng.irq r,
    leaving := if hosted then insertNat d1.eng.leaving r else d1.eng.leaving,
    taken := d1.eng.taken.map (fun c => if c.ring = r then { c with port := p } else c) } }
  if hosted then fset d2 kringStatusState r 5 else if st = 1 then fset d2 kringStatusState r 4 else d2

/-- ADOPT: port `p` adopts the other port (R329). (DEDUCED 20) -/
def portAdopt (d : Dev) (p : Nat) : Dev :=
  let q := 1 - p
  if portState d p = 1 && portState d q == 2 && fget d hpCfgAdoptive q == 1 then
    let groups := portGroups d q
    let d1 := (portRings d q).foldl (adoptRing q p) d
    let d2 := groups.foldl (fun d g => updGroup d g (fun x => { x with port := p })) d1
    advance (fset (setPortState d2 q 3) hpAdoptResult p 0)
  else fset d hpAdoptResult p 1

/-! ### Port resets -/

/-- The mailbox channels whose initiator is a port (Table 13.8). -/
def portChannels (d : Dev) (p : Nat) : List Nat := (List.range 32).filter (fun c => fget d mbxMapInitiator c == p)

/-- The host-port domain of a port returns to its reset values (R11, R333). -/
def resetPortDomain (d : Dev) (p : Nat) : Dev :=
  let clear := fun (d : Dev) (r : Reg) (i : Nat) => regSet d r i (regReset r i)
  let d1 := [Reg.hpHeartbeat, .hpDrvVersion, .hpEvtEn].foldl (fun d r => clear d r p) d
  (portChannels d p).foldl (fun d c => clear d .mbxChCfg c) d1

/-- What a port-level reset does to the port (R333): an attached port enters orphan hold at once, a detached one is link
down until its link has retrained. (DEDUCED 61) -/
def portReset (d : Dev) (p : Nat) : Dev :=
  let d1 := resetPortDomain d p
  let st := portState d1 p
  if st = 1 then orphanPort d1 p else if st = 0 then setPortState d1 p 4 else d1

/-- PERST_RELEASE: PERST# is released, and the port trains (R466). -/
def perstRelease (d : Dev) (p : Nat) : Dev := updPort d p (fun x => { x with perst := false })

/-- HOST_LINK_TRAINED: the PCIe link has retrained. -/
def hostTrained (d : Dev) (p : Nat) : Dev :=
  if portState d p = 4 && !(portRun d p).perst then setPortState d p 0 else d

/-- D3HOT_ENTRY (R334). (DEDUCED 61) -/
def d3Entry (d : Dev) (p : Nat) : Dev :=
  let d1 := updPort (resetPortDomain d p) p (fun x => { x with d3 := true })
  if portState d1 p = 1 then orphanPort d1 p else d1

/-- D0_RETURN (R334): the port stays in orphan hold until its driver attaches. (DEDUCED 61) -/
def d0Return (d : Dev) (p : Nat) : Dev := updPort d p (fun x => { x with d3 := false })

/-- ATS_INVALIDATION: no request of the model is in progress between commands, so the invalidation completes at once
(R305); `tag` names it in the answer to the host. (DESIGN CHOICE 67) -/
def atsInvalidate (d : Dev) (p tag : Nat) : Dev := emit d (.answer p tag)

/-! ### Event banks (R461, R462) -/

/-- A write of bank `q` from a port other than its own is dropped and counted. -/
def bankAct (d : Dev) (p q : Nat) (f : Dev → Dev) : Dev := if p = q then f d else fsat d hpErrForeignWrite p 1

/-- Vector 0 of port `p` when its bank's product is non-zero. -/
def bankVector (d : Dev) (p : Nat) : Dev :=
  if regGet d .hpEvtStatus p &&& regGet d .hpEvtEn p ≠ 0 then sendVector d p 0 else d

/-- EVT_STATUS_CLEAR: a W1C write of HP_EVT_STATUS[q] from port `p`. -/
def evtClear (d : Dev) (p q v : Nat) : Dev :=
  bankAct d p q (fun d =>
    let s := regGet d .hpEvtStatus q
    bankVector (regSet d .hpEvtStatus q (s - (s &&& v))) q)

/-- EVT_EN_WRITE: a write of HP_EVT_EN[q] from port `p`. -/
def evtEnWrite (d : Dev) (p q v : Nat) : Dev := bankAct d p q (fun d => bankVector (fset d hpEvtEnEn q v) q)

end Sys2Proof.Machine
end

