-- ==== Sys2Proof/Machine/Retire.lean ====
section
/-! DEFINITION. Retirement: thresholds (R412), the registry (R417 to R419), the capability table (R459, R460), and the
retirement of arrays and cores (R30, R415, R416). -/
namespace Sys2Proof.Machine

/-! ### Thresholds (R412) -/

/-- Twenty-four hours in ticks. -/
def day : Nat := 86400000000000

/-- The rule "n events in T" at the latest event of a key: exactly for n up to 16, in 64 buckets above. (DEDUCED 65) -/
def thresholdMet (d : Dev) (key n T : Nat) : Bool :=
  let st := (d.recs.errs.filter (fun e => e.1 == key)).map (·.2)
  match st.getLast? with
  | none => false
  | some t =>
    if n ≤ 16 then decide (n ≤ (st.filter (fun s => decide (t < s + T))).length)
    else decide (n ≤ (st.filter (fun s => decide (t / (T / 64) < s / (T / 64) + 64))).length)

/-- The stamp of the latest error of some keys, the present where there is none (R411). -/
def errStamp (d : Dev) (keys : List Nat) : Nat :=
  ((d.recs.errs.filter (fun e => keys.contains e.1)).map (·.2)).getLast?.getD d.time

/-- Events of both keys count together. -/
def thresholdMet2 (d : Dev) (k1 k2 n T : Nat) : Bool :=
  let errs := d.recs.errs.map (fun e => if e.1 = k2 then (k1, e.2) else e)
  thresholdMet { d with recs := { d.recs with errs := errs } } k1 n T

/-! ### The capability table -/

def sumBits (n : Nat) (p : Nat → Bool) : Nat := (List.range n).foldl (fun a i => a + b2n (p i) * 2 ^ i) 0
def countIn (n : Nat) (p : Nat → Bool) : Nat := ((List.range n).filter p).length

/-- A physical pseudo-channel backs an address. -/
def pcBacks (d : Dev) (c : Nat) : Bool := fget d memPcEccState c == 0

/-- The lane code of CAP_LINKS. -/
def laneCode (d : Dev) (n : Nat) : Nat :=
  if fget d blLinkStatusState n = 3 then 0 else popcount 4 (fget d blLinkStatusLanes n) - 1

/-- Unused spare bond lanes of a die (R202). -/
def spareLanes (d : Dev) (die : Nat) : Nat :=
  (List.range 192).foldl (fun a i => a + (64 - fget d lyrPortStatusSparesUsed (die * 192 + i))) 0

/-- CAP_PEAK[j] (R460), for `live` arrays: the cycles P per product of Table 0.2, and g. -/
def peakOf (live j : Nat) : Nat :=
  let p := [1, 2, 2, 2, 4, 4, 6, 24, 112, 180].getD j 1
  let g := if j = 6 then 2 else 1
  2 * 65536 * live * 1900000000 / (p * g) / 1000000000

/-- The fields of Table 17.3 below CAP_STAMP, from what is alive. -/
def capFill (d : Dev) : Dev :=
  let live := countIn 256 (fun i => !arrayRetired d i)
  let cores := countIn 64 (fun i => !coreRetired d i)
  let d1 := fset d capCoresCores 0 (sumBits 64 (fun i => !coreRetired d i))
  let d2 := fset d1 capArraysArrays 0 (sumBits 256 (fun i => !arrayRetired d i))
  let d3 := fset (fset d2 capCountsLiveArrays 0 live) capCountsLiveCores 0 cores
  let d4 := fset d3 capCountsLiveStacks 0 (8 - d.retired.stackSet.length)
  let d5 := fset d4 capCountsLiveLinks 0 (countIn 36 (fun n => fget d blLinkStatusState n != 3))
  let d6 := fset (fset d5 capCountsLivePc 0 (countIn 528 (pcBacks d))) capDramBytes 0 (dramBytes d)
  let d7 := fset (fset d6 capLayersL1Mib 0 (8 * live)) capLayersDataMib 0 (144 * cores)
  let d8 := fset d7 capBondFailedPorts 0 (countIn 384 (fun p => fget d lyrPortStatusState p == 3))
  let d9 := fset (fset d8 capBondSparesS 0 (spareLanes d 1)) capBondSparesN 0 (spareLanes d 0)
  let d10 := fset d9 capLinksLanes 0 ((List.range 36).foldl (fun a n => a + laneCode d n * 4 ^ n) 0)
  let d11 := fset (fset d10 capClockFixedMhz 0 1900) capClockOpenAllowed 0 (fget d pwrCfgOpenAllowed 0)
  let d12 := fset (fset d11 capClockMaxOpenS 0 (fget d pwrStepMaxOpen 1)) capClockMaxOpenN 0 (fget d pwrStepMaxOpen 0)
  let d13 := fset d12 capPcPcs 0 (sumBits 528 (pcBacks d))
  (List.range 10).foldl (fun d j => fset d capPeakRate j (peakOf live j)) d13

/-- R459: a change of the published table, with its generation, stamp and event. Before publication the table stays as it
is (R444). (DEDUCED 47) -/
def capChange (d : Dev) : Dev :=
  if fget d capHdrPublished 0 = 0 then d
  else evtSet (fset (fset (capFill d) capHdrGeneration 0 (fget d capHdrGeneration 0 + 1)) capStampStamp 0 d.time) 0

/-! ### The registry -/

/-- CFG_REGISTRY_STATUS follows the live bank. -/
def registryShow (d : Dev) : Dev :=
  let d1 := fset (fset d cfgRegistryStatusGeneration 0 d.nv.regGen) cfgRegistryStatusEntries 0 d.nv.registry.length
  fset d1 cfgRegistryStatusBank 0 d.nv.regBank

/-- R419: entries that a later one makes moot: spare rows and lanes of arrays, cores and ports retired later, lanes of a link
retired later, arrays of a core retired later. -/
def mootBy (e later : RegEntry) : Bool :=
  let u := e.unit % 2 ^ 24
  let v := later.unit % 2 ^ 24
  let core := if e.unit / 2 ^ 24 = 3 then u / 4 else u
  match e.kind, later.kind with
  | 0x03, 0x09 => e.unit == later.unit
  | 0x03, 0x0A => core == v
  | 0x01, 0x02 => e.unit == later.unit
  | 0x04, 0x05 => u / 4 == v
  | 0x09, 0x0A => u / 4 == v
  | _, _ => false

/-- The entries that survive a compaction. -/
def compacted (es : List RegEntry) : List RegEntry :=
  match es with
  | [] => []
  | e :: rest => if e.torn || rest.any (mootBy e) then compacted rest else e :: compacted rest

/-- R419: the other bank takes the live entries, with the generation incremented. -/
def registryTurn (d : Dev) : Dev :=
  registryShow { d with nv := { d.nv with
    registry := compacted d.nv.registry, regGen := d.nv.regGen + 1, regBank := 1 - d.nv.regBank } }

/-- REGISTRY_COMPACT (R419). -/
def registryCompact (d : Dev) : Dev := if d.nv.registry.length < 28672 then d else registryTurn d

/-- Append an entry (R417). A full bank is compacted first; an entry that finds it full after that is counted (R419).
(DEDUCED 47) -/
def registryAdd (d : Dev) (kind cause unit detail stamp : Nat) : Dev :=
  let d1 := if d.nv.registry.length < 32766 then d else registryTurn d
  if d1.nv.registry.length < 32766 then
    let e : RegEntry := ⟨kind, cause, unit, stamp, detail, fget d1 aniPowerCyclesCount 0, false⟩
    registryShow { d1 with nv := { d1.nv with registry := d1.nv.registry ++ [e] } }
  else nutmeg (fsat d1 cfgRegistryStatusUnpersisted 0 1) ⟨0x02, 0x10, 2, unit, 0, 0, 0⟩

/-! ### Retiring -/

/-- Two lists of ranges have a byte in common. -/
def rangesShare (a b : List (Nat × Nat)) : Bool :=
  a.any (fun x => b.any (fun y => decide (x.1 < y.1 + y.2 ∧ y.1 < x.1 + x.2)))

/-- R30, R239: the data of the ranges `lost` is gone, and of whatever else `meets` says of an accessed range. An open epoch
that has accessed some of it observes the uncorrectable condition at once, another one when a command of it comes to need a
range of `lost`. (DEDUCED 47) -/
def lossOpenBy (d : Dev) (lost : List (Nat × Nat)) (meets : Nat × Nat → Bool) : Dev :=
  (List.range d.steps.groups.length).foldl (fun d g =>
    if groupPhase d g = .opened ∨ groupPhase d g = .closing then
      let needed := ((groupAt d g).map (fun x => x.touched.any meets)).getD false
      let d1 := updGroup d g (fun x => { x with lost := x.lost ++ lost })
      if needed then condRaise d1 g 3 else d1
    else d) d

/-- The data of the ranges `lost` is gone. -/
def lossOpen (d : Dev) (lost : List (Nat × Nat)) : Dev := lossOpenBy d lost (fun r => rangesShare [r] lost)

/-- The window of layer `k` of die `die`. -/
def layerBase (die k : Nat) : Nat := 0x0001000000000000 + die * 2 ^ 32 + (k - 1) % 2 * 2 ^ 31 + (k - 1) / 2 * 2 ^ 33

/-- The L1 segment of array `i` (R197). -/
def arrayRange (i : Nat) : Nat × Nat := (layerBase (i / 128) 1 + i % 128 * 2 ^ 23, 2 ^ 23)

/-- What core `c` holds: its segments, its scratch and its side memory (R148, R197). -/
def coreRanges (c : Nat) : List (Nat × Nat) :=
  [0, 1, 2, 3].map (fun k => arrayRange (4 * c + k))
    ++ [2, 3, 4].map (fun k => (layerBase (c / 32) k + c % 32 * 0x3000000, 0x3000000))
    ++ [(0x0002000000000000 + c * 2 ^ 24, 0x600000), (0x0002000000800000 + c * 2 ^ 24, 0x400000)]

/-- A record of an event stamped `t` (R411). -/
def nutmegAt (d : Dev) (t : Nat) (e : NutEvent) : Dev := { nutmeg { d with time := t } e with time := d.time }

/-- What every retirement leaves behind: its registry entry, a Nutmeg record, both with the stamp of the event that
completed it (R411), a decision record and the new table. (DEDUCED 47) -/
def retireRecord (d : Dev) (kind cause unit detail sev stamp : Nat) : Dev :=
  let d1 := registryAdd d kind cause unit detail stamp
  let d2 := nutmegAt d1 stamp ⟨0x02, kind, sev, unit, 0, 0, detail⟩
  capChange (decision d2 4 unit (tagNow d2) [kind, cause])

/-- The state field of a retired array reads 0b11 (R455). -/
def showArrays (d : Dev) (is : List Nat) : Dev := is.foldl (fun d i => fset d arrStatusState i 3) d

/-- The stamp of the event that completed a retirement: a threshold is completed by an error (R411). -/
def causeStamp (d : Dev) (cause : Nat) (keys : List Nat) : Nat := if cause = 1 then errStamp d keys else d.time

/-- A core is retired (R415). -/
def retireCore (d : Dev) (c cause : Nat) : Dev :=
  if c ≥ 64 || coreRetired d c then d
  else
    let d1 := { d with retired := { d.retired with cores := insertNat d.retired.cores c } }
    retireRecord (lossOpen (showArrays d1 [4 * c, 4 * c + 1, 4 * c + 2, 4 * c + 3]) (coreRanges c)) 0x0A cause (unitId 0x02 c) 0 2
      (causeStamp d cause [errKey 2 c, errKey 3 c])

/-- An array is retired (R415), and its core with its last live array (R416). -/
def retireArray (d : Dev) (i cause : Nat) : Dev :=
  if i ≥ 256 || arrayRetired d i then d
  else
    let d1 := { d with retired := { d.retired with arrays := insertNat d.retired.arrays i } }
    let d2 := retireRecord (lossOpen (showArrays d1 [i]) [arrayRange i]) 0x09 cause (unitId 0x03 i) 0 2
      (causeStamp d cause [errKey 7 i, errKey 8 i])
    if [0, 1, 2, 3].all (fun k => arrayRetired d2 (i / 4 * 4 + k)) then retireCore d2 (i / 4) 5 else d2

end Sys2Proof.Machine
end

