-- ==== Sys2Proof/Machine/LinkEvents.lean ====
section
/-! DEFINITION. The receiving side of the links: acceptance in sequence, acks, credits and replay (R283 to R286), training and
lane retirement (R278 to R280, R285), forwarding (R288, R289), requests of peers (R290 to R292), responses and
reachability (R293, R295). -/
namespace Sys2Proof.Machine

/-! ### Link state -/

/-- The message is a request, whose loss is answered (R289). -/
def isRequest (p : Payload) : Bool := vcOf p == 0

/-- The tag that an answer echoes. -/
def tagOf (p : Payload) : Nat :=
  match p with
  | .wr _ t _ | .rdReq _ t _ | .semOp t _ _ _ | .probe t => t
  | .rdResp t _ | .wrAck t | .semAck t | .probeResp t | .errResp t _ => t
  | _ => 0

/-- Send a message of any source on its way (R288, R289). -/
def forward (d : Dev) (m : Message) : Dev :=
  match routeOf d m.dst with
  | some n => onLink d n m
  | none =>
    let d1 := fsat d blErrUnroutable 0 1
    if isRequest m.payload then sendQuiet d1 m.src (.errResp (tagOf m.payload) Status.unroutable.code) else d1

/-- A link starts training (R279). -/
def retrain (d : Dev) (n : Nat) : Dev :=
  if linkUsable d n then
    let d1 := nutmeg (fset d blLinkStatusState n 1) ⟨0x06, 0, 1, unitId 0x08 n, 0, 0, 0⟩
    emit d1 (.train n)
  else d

/-- What a link starts with after it was down. -/
def linkFresh (l : Link) : Link :=
  { l with txSeq := 0, replay := [], waiting := [], credits := [1024, 1024, 2048, 64], txAck := 65535, rxSeq := 0,
           nackOut := false, failed := [], wasDown := true }

/-- A link leaves service in state `st` (0 down, 3 retired): unacknowledged messages are lost, waiting ones take another
route (R285, R289). (DEDUCED 26) -/
def linkDown (d : Dev) (n st : Nat) : Dev :=
  let waiting := ((linkAt d n).map (·.waiting)).getD []
  let d1 := updLink (fset d blLinkStatusState n st) n linkFresh
  let d2 := evtSet (nutmeg d1 ⟨0x06, 1, 2, unitId 0x08 n, 0, 0, 0⟩) 8
  waiting.foldl forward d2

/-- The lanes of a link that are not retired. -/
def ownLanes (d : Dev) (n : Nat) : Nat := sumBits 4 (fun l => !d.retired.lanes.contains (n * 4 + l))

/-- R280: a link is retired. (DEDUCED 47) -/
def retireLink (d : Dev) (n cause : Nat) : Dev :=
  if n ≥ 36 || d.retired.links.contains n then d
  else
    let d1 := { d with retired := { d.retired with links := insertNat d.retired.links n } }
    retireRecord (linkDown d1 n 3) 0x05 cause (unitId 0x08 n) 0 1 d.time

/-- A lane is retired (R278); with fewer than 2 lanes left the link is retired too (R280). -/
def retireLane (d : Dev) (n l cause : Nat) : Dev :=
  if n ≥ 36 || l ≥ 4 || d.retired.lanes.contains (n * 4 + l) then d
  else
    let d1 := { d with retired := { d.retired with lanes := insertNat d.retired.lanes (n * 4 + l) } }
    let mask := setBits (fget d1 blLinkStatusLanes n) l l 0
    let d2 := retireRecord (fset d1 blLinkStatusLanes n mask) 0x04 cause (unitId 0x09 (n * 4 + l)) 0 1 d.time
    if popcount 4 (ownLanes d2 n) < 2 then retireLink d2 n 5 else d2

/-! ### Acks, credits, replay -/

/-- Serial difference of 16-bit sequence numbers. -/
def seqDiff (b a : Nat) : Nat := (b + 2 ^ 16 - a % 2 ^ 16) % 2 ^ 16

/-- An ack up to `a` has arrived (R283). (DEDUCED 26) -/
def takeAck (d : Dev) (n a : Nat) : Dev :=
  updLink d n (fun l =>
    let step := seqDiff a l.txAck
    if step = 0 || decide (seqDiff l.txSeq l.txAck ≤ step) then l
    else { l with txAck := a, ackAt := d.time, replay := l.replay.filter (fun s => decide (step < seqDiff (s.seq + s.flits - 1) l.txAck)) })

/-- Credits returned on a channel (R286). (DEDUCED 26) -/
def takeCredit (d : Dev) (n vc k : Nat) : Dev :=
  let cap := [1024, 1024, 2048, 64].getD vc 0
  updLink d n (fun l => { l with credits := listUpd l.credits vc (fun c => min (c + k) cap) })

/-- What every good flit carries, its own number apart. (DEDUCED 26) -/
def takeHeader (d : Dev) (n ack vc k : Nat) : Dev := drainLink (takeCredit (takeAck d n ack) n vc k) n

/-- Resend the unacknowledged flits from number `q` onward; the eighth send of one flit retrains the link (R284, R285).
(DESIGN CHOICE 28) -/
def resend (d : Dev) (n q : Nat) : Dev :=
  match linkAt d n with
  | none => d
  | some l =>
    let from0 := if seqDiff q (l.txAck + 1) < seqDiff l.txSeq (l.txAck + 1) then q else l.txAck + 1
    let count := seqDiff l.txSeq from0
    let again := fun (s : Sent) => decide (seqDiff from0 (l.txAck + 1) ≤ seqDiff (s.seq + s.flits - 1) (l.txAck + 1))
    let replay := l.replay.map (fun s => if again s then { s with sends := s.sends + 1 } else s)
    let d1 := fwrap (updLink d n (fun l => { l with replay := replay })) blLinkReplayReplays n count
    let d2 := (l.replay.filter again).foldl (fun d s => emit d (.link n s.seq l.ack s.msg)) d1
    if replay.any (fun s => decide (fget d blLaneCfgReplayMax 0 ≤ s.sends)) then retrain d2 n else d2

/-- NACK: the peer names the number it expects (R284). (DEDUCED 26) -/
def nackArrives (d : Dev) (n ack vc k seq : Nat) : Dev :=
  if linkUp d n then resend (takeHeader d n ack vc k) n seq else d

/-- IDLE (R283). (DEDUCED 26) -/
def idleArrives (d : Dev) (n ack vc k : Nat) : Dev := if linkUp d n then takeHeader d n ack vc k else d

/-- A flit is discarded; one NACK goes out (R284). -/
def sendNack (d : Dev) (n : Nat) : Dev :=
  match linkAt d n with
  | none => d
  | some l =>
    if l.nackOut then d else emit (updLink d n (fun l => { l with nackOut := true })) (.nack n l.rxSeq)

/-- CORRUPT_FLIT: a flit that is bad, ahead of sequence, or of a wrong type (R277, R281, R284). (DEDUCED 26)
(DESIGN CHOICE 28) -/
def corruptFlit (d : Dev) (n : Nat) (f : FlitFault) : Dev :=
  if !linkUp d n then d
  else match f with
    | .protocol => retrain (fsat d blErrProto 0 1) n
    | .codeword => sendNack (fsat (updLink d n (fun l => { l with ucwWin := l.ucwWin + 1 })) blLinkFecUcw n 1) n
    | _ => sendNack d n

/-- ACK_STALL_REPLAY and ACK_STALL_RETRAIN: acks have not advanced while flits are unacknowledged. -/
def ackStall (d : Dev) (n : Nat) (long : Bool) : Dev :=
  match linkAt d n with
  | none => d
  | some l => if !linkUp d n || l.replay.isEmpty then d else if long then retrain d n else resend d n (l.txAck + 1)

/-! ### Training -/

/-- LINK_MGMT in training or operation: the peer's identity, port and lane mask (R279). -/
def linkMgmt (d : Dev) (n peer port mask : Nat) : Dev :=
  let d1 := fset (fset d blLinkStatusPeerId n peer) blLinkStatusPeerPort n port
  updLink d1 n (fun l => { l with peerMask := mask % 16 })

/-- Training succeeds on the lanes both ends hold live: sending resumes from the oldest unacknowledged flit (R279).
(DEDUCED 26) -/
def trainOk (d : Dev) (n : Nat) : Dev :=
  match linkAt d n with
  | none => d
  | some l =>
    let live := ownLanes d n &&& l.peerMask
    if popcount 4 live < 2 then retireLink d n 3
    else
      let d1 := fset (fset d blLinkStatusLanes n live) blLinkStatusState n 2
      let once := l.replay.map (fun s => { s with sends := 1 })
      let d2 := updLink d1 n (fun l => { l with replay := once, failed := [], wasDown := false, nackOut := false, ackAt := d.time })
      let d3 := if l.wasDown then evtSet d2 8 else d2
      drainLink (if once.isEmpty then d3 else resend d3 n (l.txAck + 1)) n

/-- Training fails: after three failures in a second, or with no live lane pair, the link goes down (R285). (DEDUCED 26) -/
def trainFail (d : Dev) (n lanes : Nat) : Dev :=
  match linkAt d n with
  | none => d
  | some l =>
    let failed := (l.failed.filter (fun t => decide (d.time < t + 1000000000))) ++ [d.time]
    let d1 := updLink d n (fun l => { l with failed := failed })
    if l.wasDown then fset d1 blLinkStatusState n 0
    else if failed.length ≥ 3 || ownLanes d n &&& lanes &&& l.peerMask == 0 then linkDown d1 n 0
    else emit d1 (.train n)

/-- LINK_TRAIN_DONE: `lanes` is the mask of lanes that trained; a live lane that failed is retired (R278). -/
def trainDone (d : Dev) (n : Nat) (ok : Bool) (lanes : Nat) : Dev :=
  if fget d blLinkStatusState n ≠ 1 || n ≥ 36 then d
  else if !ok then trainFail d n lanes
  else
    let d1 := [0, 1, 2, 3].foldl (fun d l => if bit lanes l then d else retireLane d n l 3) d
    if fget d1 blLinkStatusState n = 1 then trainOk d1 n else d1

/-- LINK_RETRY_TIMER: a down link trains again (R285). -/
def linkRetry (d : Dev) (n : Nat) : Dev :=
  if fget d blLinkStatusState n = 0 && decide (n < 36) then emit (fset d blLinkStatusState n 1) (.train n) else d

/-- LANE_WINDOW_END: the corrected symbols of the four lanes in the window that ends (R278). -/
def laneWindow (d : Dev) (n : Nat) (syms : List Nat) : Dev :=
  if !linkUp d n then d
  else
    let word := (List.range 4).foldl (fun a k => a + min (syms.getD k 0) (2 ^ 32 - 1) * 2 ^ (32 * k)) 0
    let d1 := fsat (fset d blLinkLaneSym n word) blLinkFecCorrected n (syms.foldl (· + ·) 0)
    let ucw := ((linkAt d1 n).map (·.ucwWin)).getD 0
    let d2 := updLink d1 n (fun l => { l with ucwWin := 0 })
    let worn := (List.range 4).filter (fun k => decide (fget d blLaneCfgSymThr 0 * 1024 ≤ syms.getD k 0) && bit (fget d blLinkStatusLanes n) k)
    let d3 := worn.foldl (fun d k => retireLane d n k 1) d2
    if !worn.isEmpty || decide (fget d blLaneCfgUcwThr 0 ≤ ucw) then retrain d3 n else d3

/-! ### Accepting flits -/

/-- A flit train arrives on link `n`: in sequence it is accepted and delivered or forwarded, and an IDLE acks it and returns
its credits (R283, R286); ahead of it a NACK goes out, a duplicate is dropped (R284, R288). (DEDUCED 26)
(DESIGN CHOICE 28) -/
def acceptFlit (d : Dev) (n : Nat) (f : Flit) (p : Payload) (deliver : Dev → Dev) : Dev :=
  match linkAt d n with
  | none => d
  | some l =>
    let training := match p with | .linkMgmt _ _ _ => true | _ => false
    if !(linkUp d n || (training && linkUsable d n)) then d
    else if f.seq % 2 ^ 16 = l.rxSeq then
      let k := flitsOf p
      let d1 := emit (updLink d n (fun l => { l with rxSeq := (l.rxSeq + k) % 2 ^ 16, nackOut := false }))
        (.idle n ((l.rxSeq + k + 2 ^ 16 - 1) % 2 ^ 16) (vcOf p) k)
      let d2 := takeHeader d1 n f.ack f.credVc f.cred
      if f.dst = ownId d2 || training then deliver d2 else forward d2 ⟨f.dst, f.src, p⟩
    else if seqDiff f.seq l.rxSeq < 2 ^ 15 then sendNack d n
    else d

/-! ### Requests of peers -/

/-- R291: the range lies in one enabled window with the permission. -/
def rmaAllows (d : Dev) (a n : Nat) (write : Bool) : Bool :=
  (List.range 16).any (fun w =>
    let base := fget d blRmaWinBase w * 4096
    let size := fget d blRmaWinSize w * 4096
    decide (base ≤ a ∧ a + n ≤ base + size) && (if write then fget d blRmaWinWr w == 1 else fget d blRmaWinRd w == 1))

/-- Refuse a request (R291). -/
def refuse (d : Dev) (src tag : Nat) : Dev :=
  sendQuiet (fsat d blErrDenied 0 1) src (.errResp tag Status.remoteDenied.code)

/-- A request that meets a unit under reset waits for it (R219, R241); another failure is answered. (DEDUCED 27) -/
def requestFails (d : Dev) (src : Nat) (p : Payload) (f : Fail) : Dev :=
  if f.status = .resetWait then { d with fab := { d.fab with waitReqs := d.fab.waitReqs ++ [(src, p)] } }
  else sendQuiet d src (.errResp (tagOf p) f.status.code)

/-- Serve a request of peer `src`, or go on with a chunk that waited at its leaf. (DEDUCED 27) -/
def serveRequest (d : Dev) (src : Nat) (p : Payload) : Dev :=
  match p with
  | .wr o t data =>
    (match peerOffsetAddr o with
    | none => refuse d src t
    | some a =>
      if !rmaAllows d a data.length true || inSpill d a data.length then refuse d src t
      else match accessFails d a data.length true with
        | some f => requestFails d src p f
        | none => sendQuiet (store d a data) src (.wrAck t))
  | .rdReq o t len =>
    (match peerOffsetAddr o with
    | none => refuse d src t
    | some a =>
      if !rmaAllows d a len false || inSpill d a len then refuse d src t
      else match accessFails d a len false with
        | some f => requestFails (touchAcc (noteRead d a len) none) src p f
        | none => sendQuiet (touchAcc (noteRead d a len) none) src (.rdResp t (memRead d a len)))
  | .semOp t op sem amount =>
    if fget d blRmaSemLo 0 ≤ sem ∧ sem ≤ fget d blRmaSemHi 0 then
      advance (sendQuiet (semApply d sem (semActOf op amount amount)) src (.semAck t))
    else refuse d src t
  | .probe t => sendQuiet d src (.probeResp t)
  | .collData c => leafTakes d c
  | _ => d

/-! ### Responses -/

def findReq (d : Dev) (src tag : Nat) : Option PeerReq := d.fab.reqs.find? (fun r => r.tag == tag && r.peer == src)

def dropReq (d : Dev) (tag : Nat) : Dev :=
  { d with fab := { d.fab with reqs := d.fab.reqs.filter (fun r => r.tag != tag) } }

/-- A request of a command has its answer. -/
def reqDone (d : Dev) (r : PeerReq) (data : List Byte) : Dev :=
  let got := fun (c : Cmd) =>
    { c with outstanding := c.outstanding.erase r.tag, fetched := if data.isEmpty then c.fetched else c.fetched ++ [(r.dest, data)] }
  advance (updCmd (dropReq d r.tag) r.ring r.seq got)

/-- A request of a command has failed. A command that has finished beside its writes observes the condition now. -/
def reqFailed (d : Dev) (r : PeerReq) (status : Nat) : Dev :=
  let d1 := failCmd (dropReq d r.tag) r.ring r.seq r.tag status r.dest r.len
  let d2 := match findCmd d r.ring r.seq with
    | some c =>
      if c.phase = .finished && c.status == 0 then
        match c.groupOf, statusCond false status with
        | some g, some k => condRaise d1 g k
        | _, _ => d1
      else d1
    | none => d1
  advance d2

/-- RD_RESP, WR_ACK, SEM_ACK, PROBE_RESP and ERR_RESP from peer `src`; a late one is discarded (R291 to R295).
(DEDUCED 27) -/
def responseArrives (d : Dev) (src : Nat) (p : Payload) : Dev :=
  match p with
  | .probeResp _ =>
    let fab := { d.fab with probeSeen := smapPut d.fab.probeSeen src d.time, unreachable := d.fab.unreachable.filter (· != src) }
    { d with fab := fab }
  | .errResp t s => match findReq d src t with | some r => reqFailed d r (s % 2 ^ 16) | none => d
  | .rdResp t data => match findReq d src t with | some r => reqDone d r data | none => d
  | .wrAck t => match findReq d src t with | some r => reqDone d r [] | none => d
  | .semAck t => match findReq d src t with | some r => reqDone d r [] | none => d
  | _ => d

/-- RESP_TIMEOUT: a request without a response within resp_timeout (R293). (DEDUCED 27) -/
def respTimeout (d : Dev) (tag : Nat) : Dev :=
  match d.fab.reqs.find? (fun r => r.tag == tag) with
  | some r => reqFailed (fsat d blErrRespTo 0 1) r Status.linkLoss.code
  | none => d

/-! ### Reachability (R295) -/

/-- The valid BL_SEM_WATCH entries: peer and semaphore. -/
def watchEntries (d : Dev) : List (Nat × Nat) :=
  d.regs.filterMap (fun e =>
    if e.1 / 2 ^ 20 = Reg.blSemWatch.ctorIdx && fget d blSemWatchValid (e.1 % 2 ^ 20) == 1 then
      some (fget d blSemWatchPeer (e.1 % 2 ^ 20), fget d blSemWatchSem (e.1 % 2 ^ 20)) else none)

/-- The peers a module probes. (DEDUCED 27) -/
def probedPeers (d : Dev) : List Nat :=
  let holders := d.fab.comms.flatMap (fun t => t.trees.flatMap (fun ns => ns.map (·.holder)))
  ((holders ++ (watchEntries d).map (·.1)).filter (fun p => p != ownId d)).foldl insertNat []

/-- PROBE_TICK: one PROBE to each of them. -/
def probeTick (d : Dev) : Dev :=
  (probedPeers d).foldl (fun d p =>
    let seen := if smapHas d.fab.probeSeen p then d.fab.probeSeen else smapPut d.fab.probeSeen p d.time
    sendQuiet { d with fab := { d.fab with probeSeen := seen, nextTag := (d.fab.nextTag + 1) % 65536 } } p (.probe d.fab.nextTag)) d

/-- The communicator of a collective holds a peer. -/
def runHolds (d : Dev) (peer : Nat) (r : CollRun) : Bool :=
  match findComm d r.comm with | some t => commHolds t peer | none => false

/-- PEER_UNREACHABLE: no PROBE_RESP of a probed peer within probe_timeout. (DEDUCED 27) -/
def peerUnreachable (d : Dev) (peer : Nat) : Dev :=
  if !(probedPeers d).contains peer || d.fab.unreachable.contains peer then d
  else
    let d1 := { d with fab := { d.fab with unreachable := insertNat d.fab.unreachable peer } }
    let d2 := nutmeg d1 ⟨0x06, 2, 1, unitId 0x00 0, 0, 0, peer⟩
    let d3 := (watchEntries d).foldl (fun d w => if w.1 = peer then semApply d w.2 (.errSet 0) else d) d2
    advance (failRuns (stepsLosePeer d3 peer) (runHolds d3 peer) .linkLoss)

end Sys2Proof.Machine
end

