-- ==== Sys2Proof/Machine/Reset.lean ====
section
/-! DEFINITION. The device with nothing in it, and the reset of register domains (R11, R446). -/
namespace Sys2Proof.Machine

/-! ### The blank device -/

def linkBlank : Link := ⟨0, [], [], [1024, 1024, 2048, 64], 65535, 0, false, 0, [], 15, false, 0⟩

def groupBlank : Group :=
  { phase := .idle, tag := 0, port := 0, comm := none, r := 1, b := 0, clipM := 0, nInit := 0, hadClean := false,
    hasRef := false, refTag := 0, conds := 0, census := [], carried := [], hasCarried := false, carriedIn := false,
    deciding := [], closed := [], closeCount := 0, decidedBy := 0, lastTag := 0, n2 := safAnchored, l2 := safAnchored,
    sentAt := 0, closing := none, selfClose := false, verdict := 0, clipHist := 0, clipNext := false, openedAt := 0,
    touched := [], lost := [], noiseS := 0, noiseG := 0, decided := none, closes := 0, heldPrio := 0, heldWeights := [],
    heldDepth := none }

def engineBlank : Engine :=
  { owner := [], adopted := [], leaving := [], raise := [], taken := [], held := [], irq := [], wrr := ⟨0, 0, [0, 0, 0, 0]⟩,
    msixPending := [], msixTable := [] }

def stepsBlank : Steps :=
  { groups := List.replicate 16 groupBlank, outside := [], deferred := [], plan := [], stages := [], queues := [] }

def fabricBlank : Fabric :=
  { links := List.replicate 36 linkBlank, comms := [], nodes := [], colls := [], stepUps := [], reqs := [], nextTag := 0,
    issued := [], probeSeen := [], unreachable := [], waitReqs := [] }

def recordsBlank : Records :=
  { queue := [], nut := [], nextCirc := 0, lostPending := 0, lostFirst := 0, lostLast := 0, secStart := 0, secCount := 0, tel := [], errs := [],
    laneHits := [] }

/-- The NVM as it leaves the factory in this model: no configuration image, nothing retired (DESIGN CHOICE 21). -/
def nonVolBlank : NonVol :=
  { banks := [none, none], regGen := 0, regBank := 0, registry := [], mirror := [], seqStore := 0,
    margins := List.replicate 32 ⟨0, 0, 0, []⟩, counters := [0, 0, 0, 0], calOk := true, pufOk := true, idOk := true, flashOk := true }

def firmwareBlank : Firmware :=
  { banks := [none, none], loading := none, activating := none, frozenAt := 0, opened := [], faults := [], challenge := none,
    keysReady := false, keysZeroed := false, sram := [], mpu := [], running := 0 }

def policyBlank : Policy := ⟨0, none, none⟩

def dieBlank : DiePower := ⟨1, 0, false, 0, [], 0⟩

def powerBlank : PowerRun :=
  { state := .standby, dies := [dieBlank, dieBlank], share := List.replicate 8 40000, windows := List.replicate 8 (0, 0),
    diodes := [], episodes := [], shutdowns := [], restartAsked := false, energyRest := 0, layerTemps := [] }

/-- PRESUMED 56 of the log. -/
def sideBlank : Side := ⟨none, true, 1, 0, false⟩

/-- DESIGN CHOICE 5 of the log. -/
def devBlank : Dev :=
  { time := 0, regs := [], cnts := [], mem := [], grads := [], spills := [], sideValid := [], fennel := [], rdOk := [],
    wrOut := [], acc := [], marks := [], hostRefused := [], env := ⟨[], [], [], []⟩, retired := ⟨[], [], [], [], [], [], []⟩, resets := [], moves := [],
    nv := nonVolBlank, mbx := [], fw := firmwareBlank, policy := policyBlank, pwr := powerBlank,
    ports := List.replicate 2 ⟨false, false, true, true⟩, side := sideBlank, eng := engineBlank, steps := stepsBlank, shards := [],
    fab := fabricBlank, recs := recordsBlank, free := 0, out := [] }

/-! ### Register domains -/

/-- The register that a key of the register file belongs to, and its instance. -/
def regOfKey (k : Nat) : Option Reg := Reg.all[k / 2 ^ 20]?

/-- The die of an instance of a register with instances on both dies, die N first. -/
def instDie (r : Reg) (i : Nat) : Nat := i * 2 / max 1 r.info.count

/-- Return to their reset values the registers that `p` picks by register and instance. -/
def dropRegs (d : Dev) (p : Reg → Nat → Bool) : Dev :=
  let keep := fun (k : Nat) => match regOfKey k with | some r => !p r (k % 2 ^ 20) | none => true
  { d with regs := d.regs.filter (fun e => keep e.1), cnts := d.cnts.filter (fun e => keep (e.1 / 2 ^ 8)) }

/-- A counter outside the register file that its unit keeps beside a package-domain register is not touched. -/
def inDie (die : Nat) (r : Reg) (i : Nat) : Bool :=
  (r.info.domain == .die || r.info.domain == .core || r.info.domain == .stack || r.info.domain == .link) && instDie r i == die

/-- Core-domain registers of core `c`: four instances to a core for arrays, one for the Cardamom side. -/
def inCore (c : Nat) (r : Reg) (i : Nat) : Bool :=
  r.info.domain == .core && (if r.info.count = 256 then i / 4 == c else i == c)

/-- What a reset must show again of what is retired (Reset column "cfg"). -/
def showRetired (d : Dev) : Dev :=
  let arrays := (List.range 256).filter (arrayRetired d)
  let d1 := showArrays d arrays
  let d2 := d.retired.stackSet.foldl (fun d s => fset d memStackStatusRetired s 1) d1
  let d3 := (List.range 8).foldl (fun d s =>
    fset d memStackStatusSparesUsed s ((d.retired.spared.filter (fun x => x.1 / 66 == s)).length)) d2
  let d4 := (List.range 36).foldl (fun d n => fset d blLinkStatusLanes n (ownLanes d n)) d3
  d.retired.links.foldl (fun d n => fset d blLinkStatusState n 3) d4

/-! ### Loss of power -/

/-- Memory that does not belong to the module. (DESIGN CHOICE 2) -/
def hostMem (d : Dev) : List Host.Cell :=
  d.mem.filter (fun c => match regionOf c.1 with | .host _ => true | _ => false)

/-- The powered hours of a region since its last re-plan (AGE_REGION.hours). -/
def hoursNow (d : Dev) (m : MarginTable) : Nat := min 65535 (m.hours + (d.time - m.since) / 3600000000000)

/-- The main rails go: what the regions have been powered for is kept. -/
def saveHours (d : Dev) : Dev :=
  if d.pwr.state = .running ∨ d.pwr.state = .asleep then
    { d with nv := { d.nv with margins := d.nv.margins.map (fun m => { m with hours := hoursNow d m, since := d.time }) } }
  else d

/-- The main rails come: powered time goes on. -/
def startHours (d : Dev) : Dev :=
  { d with nv := { d.nv with margins := d.nv.margins.map (fun m => { m with since := d.time }) } }

/-- Every rail except VANISE is switched off: only the NVM, the Anise domain and what is outside the module are left (R209,
R244, R388, R402). (DEDUCED 52) -/
def powerOff (d0 : Dev) : Dev :=
  let d := saveHours d0
  let anise := d.regs.filter (fun e => match regOfKey e.1 with | some r => r.info.domain == .anise | none => false)
  let fw := { firmwareBlank with keysReady := d.fw.keysReady, keysZeroed := d.fw.keysZeroed }
  let pwr := { powerBlank with state := .standby, shutdowns := d.pwr.shutdowns, restartAsked := d.pwr.restartAsked, diodes := d.pwr.diodes }
  let links := fun (d : Dev) => setPortState (setPortState d 0 4) 1 4
  links { devBlank with time := d.time, regs := anise, mem := hostMem d, hostRefused := d.hostRefused, nv := d.nv,
                        side := d.side, fw := fw, env := d.env, pwr := pwr, ports := d.ports.map (fun p => { p with waiting := false }),
                        free := d.free, out := d.out }

end Sys2Proof.Machine
end

