-- ==== Sys2Proof/Machine/Power.lean ====
section
/-! DEFINITION. Power and heat: rate limits (R390), the cap loops (R393 to R395), voltage and frequency steps (R389), droops
(R391, R392), input conditions (R388), thermal levels (R398 to R404), stack power (R233 to R235), ageing (R406 to R408) and
the layer estimates (R212 to R217). -/
namespace Sys2Proof.Machine

/-! ### Small helpers -/

def diePower (d : Dev) (e : Nat) : DiePower := (d.pwr.dies[e]?).getD dieBlank

def updDie (d : Dev) (e : Nat) (f : DiePower → DiePower) : Dev :=
  { d with pwr := { d.pwr with dies := listUpd d.pwr.dies e f } }

/-- Main power is on. -/
def mainPower (d : Dev) : Bool := d.pwr.state == .running || d.pwr.state == .asleep

/-- What happens only while main power is on. (DESIGN CHOICE 1) -/
def powered (d : Dev) (f : Dev → Dev) : Dev := if mainPower d then f d else d

/-- A 16-bit temperature in units of 1/16 °C. -/
def tempOf (v : Nat) : Int :=
  let x : Nat := v % 2 ^ 16
  if x < 2 ^ 15 then (x : Int) else (x : Int) - 2 ^ 16
def tempCode (t : Int) : Nat := (t % 2 ^ 16).toNat

/-- A protective action under R34: its event and record. -/
def protectiveAct (d : Dev) (code unit sev : Nat) : Dev :=
  evtSet (decision (nutmeg d ⟨0x05, code, sev, unit, 0, 0, 0⟩) 3 unit (tagNow d) [code]) 7

/-! ### Thermal levels -/

/-- The locations of Table 14.7 on a die: 0 the logic die, 1 its layers, 2 its stacks. -/
def levelField (loc : Nat) : Field :=
  match loc with | 0 => thmStatusDieLvl | 1 => thmStatusLayerLvl | _ => thmStatusStackLvl

def level (d : Dev) (e loc : Nat) : Nat := fget d (levelField loc) e

def lowered (d : Dev) (loc : Nat) : Int :=
  match loc with | 0 => fget d thmCfgDieLow 0 | 1 => fget d thmCfgLayerLow 0 | _ => fget d thmCfgStackLow 0

/-- Warning, throttle and shutdown thresholds in 1/16 °C (R399); the first two 20 °C lower when the calibration block fails
(R443). -/
def warnAt (d : Dev) (loc : Nat) : Int :=
  16 * ([95, 90, 85].getD loc 85 - lowered d loc - (if fget d cfgImageStatusCalOk 0 = 1 then 0 else 20))
def throttleAt (d : Dev) (loc : Nat) : Int :=
  16 * ([105, 100, 95].getD loc 95 - lowered d loc - (if fget d cfgImageStatusCalOk 0 = 1 then 0 else 20))
def shutdownAt (loc : Nat) : Int := 16 * [120, 115, 105].getD loc 105

def maxInt (xs : List Int) : Int := xs.foldl max (-32768)

/-- What a temperature request names as its source (R28): a layer diode, a canary estimate, the layer model (numbered as
LYR_THM.gov_src), a logic-die diode, a stack. -/
def srcDie : Nat := 3
def srcStack : Nat := 4

/-- The readings of a location for the hardware comparators, each with its source and sensor (R216, R398). -/
def hwReadings (d : Dev) (e loc : Nat) : List (Int × Nat × Nat) :=
  match loc with
  | 0 => (d.pwr.diodes.filter (fun x => x.1 / 80 == e)).map (fun x => (tempOf x.2, srcDie, x.1))
  | 1 => (List.range 64).flatMap (fun i =>
      let s := e * 80 + i
      let canary := if fget d lyrThmCanaryFault s = 1 then [] else [(tempOf (fget d lyrThmCanary s), 1, s)]
      (tempOf (fget d lyrThmDiode s), 0, s) :: canary)
  | _ => (List.range 4).map (fun i => (tempOf (fget d memStackStatusTemp (e * 4 + i)), srcStack, e * 4 + i))

/-- The readings of a location for firmware actions: for the layers the governing values (R214). -/
def fwReadings (d : Dev) (e loc : Nat) : List (Int × Nat × Nat) :=
  if loc = 1 then (List.range 64).map (fun i =>
    let s := e * 80 + i
    (tempOf (fget d lyrThmGov s), fget d lyrThmGovSrc s, s)) else hwReadings d e loc

/-- The value of a location for the hardware comparators. -/
def hwTemp (d : Dev) (e loc : Nat) : Int := maxInt ((hwReadings d e loc).map (·.1))

/-- The value of a location for firmware actions. -/
def fwTemp (d : Dev) (e loc : Nat) : Int := maxInt ((fwReadings d e loc).map (·.1))

/-- The source and sensor of the highest reading of a location; the governing one among equals. -/
def hottest (d : Dev) (e loc : Nat) : Nat × Nat :=
  let rs := fwReadings d e loc ++ hwReadings d e loc
  ((rs.find? (fun x => x.1 == max (hwTemp d e loc) (fwTemp d e loc))).map (·.2)).getD (0, 0)

/-- A throttle of the die is active. -/
def throttled (d : Dev) (e : Nat) : Bool := [0, 1, 2].any (fun l => decide (2 ≤ level d e l))
def warned (d : Dev) (e : Nat) : Bool := [0, 1, 2].any (fun l => decide (1 ≤ level d e l))

/-! ### Rate limits (R390) -/

/-- The active limits of a die as divisor, skip and source bit; the governor holds a step and limits no rate of its own. -/
def limitsOf (d : Dev) (e : Nat) : List (Nat × Nat × Nat) :=
  let p := diePower d e
  let cap := if p.loopD > 1 ∨ p.loopS > 0 then [(p.loopD, p.loopS, if p.current then 1 else 0)] else []
  let uv := if fget d pwrStatusUv 0 = 1 then [(2, 0, 2)] else []
  let thermal := [0, 1, 2].filterMap (fun l =>
    match level d e l with | 2 => some (2, 0, 3 + l) | 3 => some (4, 0, 3 + l) | _ => none)
  cap ++ uv ++ thermal

/-- The slower of two limits. -/
def slower (a b : Nat × Nat × Nat) : Nat × Nat × Nat := if (16 - b.2.1) * a.1 < (16 - a.2.1) * b.1 then b else a

/-- PWR_DIE shows the lowest rate among the active limits, and their sources. -/
def rateShow (d : Dev) (e : Nat) : Dev :=
  let ls := limitsOf d e
  let r := ls.foldl slower (1, 0, 0)
  let src := ls.foldl (fun a l => a ||| 2 ^ l.2.2) (if fget d mbxFwStatusGovernor 0 = 1 then 2 ^ 6 else 0)
  fset (fset (fset d pwrDieDiv e (if r.1 = 4 then 2 else r.1 - 1)) pwrDieSkip e r.2.1) pwrDieSrc e src

/-- The conditions of R373: throttle-level event, undervoltage, droop storm. -/
def actConditions (d : Dev) : Nat :=
  let thr := [0, 1].any (fun e => throttled d e || decide (1 < (diePower d e).loopD))
  let storm := [0, 1].any (fun e => fget d pwrDieStorm e == 1)
  b2n thr + 2 * fget d pwrStatusUv 0 + 4 * b2n storm

/-- MBX_FW_ACT shows the conditions; an activation accepted and not yet frozen is deferred while one is active (R373,
R377). -/
def condShow (d : Dev) : Dev :=
  let c := actConditions d
  let d1 := fset d mbxFwActConditions 0 c
  if c ≠ 0 ∧ d.fw.activating.isSome ∧ fget d mbxFwActState 0 = 1 then fset d1 mbxFwActState 0 2 else d1

/-- R34, R365: a cap above the effective one waits while a throttle or undervoltage acts, and any change while the fallback
governor does. -/
def protecting (d : Dev) : Bool := throttled d 0 || throttled d 1 || fget d pwrStatusUv 0 == 1

def capApply (d : Dev) : Dev :=
  let req := fget d pwrStatusCapReq 0
  if fget d mbxFwStatusGovernor 0 = 1 then d
  else if protecting d && decide (fget d pwrStatusCapEff 0 < req) then d else fset d pwrStatusCapEff 0 req

/-- Everything that follows a change of limits. -/
def limitsShow (d : Dev) : Dev := capApply (condShow (rateShow (rateShow d 0) 1))

/-! ### Shutdown and comparators -/

/-- A shutdown is recorded in the Anise domain, and the rails go (R388, R402, R404). -/
def shutdown (d : Dev) (cause sensor : Nat) : Dev :=
  let d1 := fset (fset (fset d thmShutdownCause 0 cause) thmShutdownSensor 0 sensor) thmShutdownStamp 0 d.time
  let d2 := fsat d1 thmShutdownCount 0 1
  let d3 :=
    if cause ≤ 3 then
      let st := (d2.pwr.shutdowns.filter (fun s => decide (d.time < s + day))) ++ [d.time]
      let d4 := { d2 with pwr := { d2.pwr with shutdowns := st } }
      if st.length ≥ 3 then fset d4 thmShutdownHold 0 1 else d4
    else d2
  powerOff d3

/-- The level that a location takes at a sample (R399 to R401). (DESIGN CHOICE 54) -/
def nextLevel (d : Dev) (e loc : Nat) : Nat :=
  let lvl := level d e loc
  let v := fwTemp d e loc
  let h := max (hwTemp d e loc) v
  if lvl ≥ 2 then (if lvl = 3 ∧ h ≤ throttleAt d loc - 80 then 2 else lvl)
  else if throttleAt d loc ≤ h then 2
  else if warnAt d loc ≤ v then 1
  else if lvl = 1 ∧ v ≤ warnAt d loc - 80 then 0
  else lvl

/-- Set a level, with its event and record; a throttle request names its source and sensor (R28). -/
def setLevel (d : Dev) (e loc lvl : Nat) : Dev :=
  let old := level d e loc
  let src := hottest d e loc
  let d1 := fset d (levelField loc) e lvl
  let d2 := if old = 0 ∧ 1 ≤ lvl then evtSet (nutmeg d1 ⟨0x04, 0, 1, unitId 0x01 e, 0, 0, loc⟩) 4 else d1
  let d3 := if old < 2 ∧ 2 ≤ lvl then
      let d4 := nutmeg d2 ⟨0x04, 1, 1, unitId 0x01 e, 0, 0, loc + src.1 * 2 ^ 8 + src.2 * 2 ^ 16⟩
      evtSet (decision d4 3 (unitId 0x01 e) (tagNow d4) [loc, lvl, src.1, src.2]) 7
    else d2
  if old = lvl then d else limitsShow d3

/-- The comparators act on the values of a location; `sensor` is the one just sampled. -/
def compareTemp (d : Dev) (e loc sensor : Nat) : Dev :=
  if !mainPower d then d
  else if shutdownAt loc ≤ hwTemp d e loc then shutdown d (loc + 1) sensor
  else setLevel d e loc (nextLevel d e loc)

/-- THM_STATUS shows the highest values of a die. -/
def tempShow (d : Dev) (e : Nat) : Dev :=
  fset (fset (fset d thmStatusDieMax e (tempCode (hwTemp d e 0))) thmStatusLayerMax e (tempCode (fwTemp d e 1)))
    thmStatusStackMax e (tempCode (hwTemp d e 2))

/-- R235: the refresh interval of a stack. -/
def refreshShow (d : Dev) (s : Nat) : Dev :=
  let t := tempOf (fget d memStackStatusTemp s)
  if 16 * 85 ≤ t then fset d memStackStatusRefresh2x s 1
  else if t < 16 * 80 then fset d memStackStatusRefresh2x s 0 else d

/-- THERMAL_SAMPLE of a logic-die diode (kind 0, index die * 80 + diode), a layer or cap diode (kind 1, index of LYR_THM) or a
stack (kind 2): the reading, and what the comparators do (R398 to R402); a stack under base reset holds its last reading
(R243). (DESIGN CHOICE 54) -/
def thermalSample (d : Dev) (kind i v : Nat) : Dev :=
  if d.pwr.state = .unpowered then d
  else match kind with
    | 0 =>
      if i ≥ 160 then d
      else
        let d1 := { d with pwr := { d.pwr with diodes := smapSet d.pwr.diodes i (v % 2 ^ 16) 0 } }
        if mainPower d then compareTemp (tempShow d1 (i / 80)) (i / 80) 0 i else d1
    | 1 =>
      if i ≥ 160 then d
      else
        let d1 := { d with pwr := { d.pwr with diodes := smapSet d.pwr.diodes (160 + i) (v % 2 ^ 16) 0 } }
        if mainPower d then compareTemp (tempShow (fset d1 lyrThmDiode i v) (i / 80)) (i / 80) 1 i else d1
    | _ =>
      if i ≥ 8 || inReset d 3 i then d
      else
        let d1 := { d with pwr := { d.pwr with diodes := smapSet d.pwr.diodes (320 + i) (v % 2 ^ 16) 0 } }
        if mainPower d then compareTemp (tempShow (refreshShow (fset d1 memStackStatusTemp i v) i) (i / 4)) (i / 4) 2 i
        else d1

/-- THROTTLE_ESCALATE: still at or above the threshold after 10 ms (R401). -/
def throttleEscalate (d : Dev) (e loc : Nat) : Dev :=
  if level d e loc = 2 ∧ throttleAt d loc ≤ max (hwTemp d e loc) (fwTemp d e loc) then setLevel d e loc 3 else d

/-- THROTTLE_RELEASE: 10 ms at 5 °C below the threshold (R401). (DESIGN CHOICE 54) -/
def throttleRelease (d : Dev) (e loc : Nat) : Dev :=
  if 2 ≤ level d e loc ∧ max (hwTemp d e loc) (fwTemp d e loc) ≤ throttleAt d loc - 80 then
    setLevel d e loc (if fwTemp d e loc ≤ warnAt d loc - 80 then 0 else 1)
  else d

/-! ### Steps (R389) -/

/-- The highest step of the profile for a die. -/
def topStep (d : Dev) (e : Nat) : Nat :=
  if fget d cfgImageStatusCalOk 0 = 0 then 0 else if fget d pwrStatusProfile 0 = 1 then fget d pwrStepMaxOpen e else 15

/-- A die heads for a step; until the change completes it runs at the lower frequency. -/
def stepTo (d : Dev) (e k : Nat) : Dev :=
  let d1 := updDie d e (fun p => { p with target := k })
  fset d1 pwrStepStep e (min (fget d pwrStepStep e) k)

/-- The nominal voltage of step `k` in units of 100 µV (Table 14.3), rounded down. -/
def nominalV (k : Nat) : Nat :=
  if k = 0 then 5500 else if k ≤ 14 then 5500 + 400 * k / 3 else [7500, 7800, 8150, 8500].getD (k - 15) 8500

/-- The margin tables of a die's regions come into force: generation, voltage and margin of step 15 (R407). -/
def marginsShow (d : Dev) (e : Nat) : Dev :=
  (List.range 16).foldl (fun d r =>
    let i := e * 16 + r
    match d.nv.margins[i]? with
    | none => d
    | some m =>
      let v := m.margins.getD 15 (nominalV 15)
      fset (fset (fset d ageRegionGen i m.gen) ageRegionV15Uv i v) ageRegionMargin15 i ((v + 65536 - nominalV 15) % 65536)) d

/-- STEP_CHANGE_DONE: the die switches to its new PLL, and a margin table planned since comes into force (R389, R407). -/
def stepChangeDone (d : Dev) (e : Nat) : Dev :=
  powered d (fun d => if e < 2 then marginsShow (fset d pwrStepStep e (diePower d e).target) e else d)

/-- WARNING_STEP_DOWN: 100 ms of a warning in which the value has risen (R400). -/
def warningStepDown (d : Dev) (e : Nat) : Dev :=
  let now := max (fwTemp d e 0) (max (fwTemp d e 1) (fwTemp d e 2))
  let d1 := updDie d e (fun p => { p with warnRef := tempCode now })
  if !warned d e then d
  else if tempOf (diePower d e).warnRef < now then stepTo d1 e (fget d pwrStepStep e - 1) else d1

/-! ### Droops (R391, R392) -/

/-- DROOP_DETECT on a core of the die: its 64 cycles of skipping change only timing. A storm begins at the tick after the
detection, whose window holds it. -/
def droopDetect (d : Dev) (core : Nat) : Dev :=
  powered d (fun d =>
    let e := core / 32
    let kept := ((diePower d e).droops.filter (fun s => decide (d.time ≤ s + 1000000))) ++ [d.time]
    let win := kept.filter (fun s => decide (d.time < s + 1000000))
    let d1 := fsat (updDie d e (fun p => { p with droops := kept })) pwrDieDroops e 1
    if decide (fget d pwrDroopCfgStorm 0 < win.length) && fget d pwrDieStorm e == 0 then
      condShow (nutmeg (fset d1 pwrDieStorm e 1) ⟨0x05, 1, 1, unitId 0x01 e, 0, 0, 0⟩)
    else d1)

/-- DROOP_STORM_END: the window [t − 1 ms, t) holds at most storm / 4 detections. (DESIGN CHOICE 4) -/
def droopStormEnd (d : Dev) (e : Nat) : Dev :=
  let win := (diePower d e).droops.filter (fun s => decide (d.time ≤ s + 1000000 ∧ s < d.time))
  if fget d pwrDieStorm e = 1 ∧ 4 * win.length ≤ fget d pwrDroopCfgStorm 0 then condShow (fset d pwrDieStorm e 0) else d

/-! ### Input (R388) -/

/-- INPUT_SAMPLE: voltage in mV, current in 10 mA, losses in W; a microsecond of energy is added. (DESIGN CHOICE 53) -/
def inputSample (d : Dev) (mv ma10 loss : Nat) : Dev :=
  powered d (fun d =>
    let uw := mv * ma10 * 10
    let nj := d.pwr.energyRest + uw / 1000000 * 1000 + uw % 1000000 / 1000
    let d1 := fset (fset d pwrInputMv 0 mv) pwrInputMa10 0 ma10
    let d2 := fset (fset d1 pwrInputPowerW 0 (uw / 1000000)) pwrInputLossW 0 loss
    fwrap { d2 with pwr := { d2.pwr with energyRest := nj % 1000 } } pwrEnergyUj 0 (nj / 1000))

/-- INPUT_UNDERVOLTAGE: both dies are divided by 2. -/
def undervoltage (d : Dev) : Dev :=
  powered d (fun d => if fget d pwrStatusUv 0 = 1 then d else limitsShow (protectiveAct (fset d pwrStatusUv 0 1) 0 0 2))

/-- UNDERVOLTAGE_CLEAR. -/
def undervoltageClear (d : Dev) : Dev := powered d (fun d => limitsShow (fset d pwrStatusUv 0 0))

/-- UNDERVOLTAGE_SHUTDOWN and OVERVOLTAGE_SHUTDOWN. -/
def inputShutdown (d : Dev) (cause : Nat) : Dev := powered d (fun d => shutdown d cause 0)

/-! ### The cap loops -/

/-- One run of the hardware cap loop (R393) on the power of the window against a cap. (DESIGN CHOICE 53) -/
def loopRun (p : DiePower) (power cap margin : Nat) : DiePower :=
  if cap < power + margin then
    if p.loopS < 8 then { p with loopS := p.loopS + 1 }
    else if p.loopD < 4 then { p with loopD := 2 * p.loopD, loopS := 0 } else p
  else if 100 * (power + margin) + 2 * cap < 100 * cap then
    if 0 < p.loopS then { p with loopS := p.loopS - 1 }
    else if 1 < p.loopD then { p with loopD := p.loopD / 2, loopS := 8 } else p
  else p

/-- HW_CAP_LOOP: measured and modelled input power of the last 10 µs in W. The fixed profile acts on the modelled power
unless the measured power exceeds the cap by more than 5% (R396); the current limit is a second cap of 70 A at the measured
voltage (R390). (DESIGN CHOICE 53) -/
def hwCapLoop (d : Dev) (e measured modelled : Nat) : Dev :=
  powered d (fun d =>
    let cap := fget d pwrStatusCapEff 0
    let second := fget d pwrInputMv 0 * 70 / 1000
    let amps := decide (second < cap) && decide (0 < second)
    let limit := if amps then second else cap
    let power := if fget d pwrStatusProfile 0 = 1 ∨ cap * 105 < measured * 100 then measured else modelled
    let run := fun (p : DiePower) => { loopRun p (if amps then measured else power) limit (fget d pwrCfgMarginW 0) with current := amps }
    limitsShow (updDie d e run))

/-- The classes in the order of a priority code (Table 14.5): 0 links, 1 memory, 2 compute. -/
def prioOrder (code : Nat) : List Nat :=
  match code with
  | 0 => [0, 1, 2] | 1 => [0, 2, 1] | 2 => [1, 0, 2] | 3 => [1, 2, 0] | 4 => [2, 0, 1] | _ => [2, 1, 0]

/-- R395: the shares, class by class in order, from (class, demand, floor). (DESIGN CHOICE 53) -/
def splitPower (avail : Int) (cs : List (Nat × Nat × Nat)) : List (Nat × Nat) :=
  match cs with
  | [] => []
  | (c, demand, flr) :: rest =>
    let later : Int := rest.foldl (fun a x => a + x.2.2) 0
    let share := if rest.isEmpty then avail else min (demand : Int) (avail - later)
    let give := max (flr : Int) share
    (c, give.toNat) :: splitPower (avail - give) rest

/-- What the firmware loop measures and predicts: losses, other power, the demands of the classes, the compute floor, and
the highest step of each die whose predicted power fits its part of the compute share (R394). -/
structure LoopInput where
  loss : Nat
  other : Nat
  links : Nat
  memory : Nat
  compute : Nat
  computeFloor : Nat
  stepN : Nat
  stepS : Nat
deriving DecidableEq, Repr

/-- The step that the firmware loop may choose for a die (R392, R394, R400). (DESIGN CHOICE 53) -/
def chooseStep (d : Dev) (e fits : Nat) : Dev :=
  let cur := fget d pwrStepStep e
  let want := min fits (topStep d e)
  if fget d pwrDieStorm e = 1 then stepTo d e (cur - 1)
  else if cur < want && (warned d e || decide (1 < (diePower d e).loopD)) then d
  else stepTo d e want

/-- FW_CAP_LOOP: a run of the firmware loop in compartment 0. (DESIGN CHOICE 53) -/
def fwCapLoop (d : Dev) (x : LoopInput) : Dev :=
  if !mainPower d || !compServes d 0 then d
  else
    let cap := fget d pwrStatusCapEff 0
    let avail : Int := (cap : Int) - fget d pwrCfgMarginW 0 - x.loss - x.other
    let liveLinks := countIn 36 (fun n => fget d blLinkStatusState n != 3)
    let stackSet := 8 - d.retired.stackSet.length
    let links := (0, min x.links (13 * liveLinks / 2), 9 * liveLinks / 2)
    let memory := (1, min x.memory (40 * stackSet), 10 * stackSet)
    let compute := (2, x.compute, x.computeFloor)
    let classes := (prioOrder (prioNow d)).map (fun c => if c = 0 then links else if c = 1 then memory else compute)
    let shares := splitPower avail classes
    let share := fun (c : Nat) => ((shares.find? (fun s => s.1 == c)).map (·.2)).getD 0
    let floors := decide (avail < (links.2.2 + memory.2.2 + compute.2.2 : Nat))
    let d1 := fset (fset (fset (fset d pwrShareLinksW 0 (share 0)) pwrShareMemW 0 (share 1)) pwrShareComputeW 0 (share 2)) pwrShareOtherW 0 x.other
    let d2 := fset { d1 with pwr := { d1.pwr with share := List.replicate 8 (share 1 * 1000 / max 1 stackSet) } } pwrStatusFloors 0 (b2n floors)
    let d3 := if floors && fget d pwrStatusFloors 0 == 0 then protectiveAct d2 2 0 1 else d2
    let changed := fget d3 pwrShareLinksW 0 != fget d pwrShareLinksW 0 || fget d3 pwrShareMemW 0 != fget d pwrShareMemW 0
      || fget d3 pwrShareComputeW 0 != fget d pwrShareComputeW 0
    let d4 := if changed then decision d3 3 0 (tagNow d3) [share 0, share 1, share 2] else d3
    limitsShow (chooseStep (chooseStep d4 0 x.stepN) 1 x.stepS)

/-! ### Stack power (R233, R234) -/

/-- The limit of a stack in mW: its cap, its share, and 20 W while it throttles (R401). (DESIGN CHOICE 54) -/
def stackLimit (d : Dev) (s : Nat) : Nat :=
  let hot := decide (2 ≤ level d (s / 4) 2) && decide (throttleAt d 2 - 80 < tempOf (fget d memStackStatusTemp s))
  let base := min (fget d memPwrCfgCapMw 0) (d.pwr.share.getD s 40000)
  if hot then min base 20000 else base

/-- Refresh and background power of a stack in mW at a temperature, from the 16-point table of the configuration image, which
gives 6.0 W at 85 °C (Table 8.2). (DESIGN CHOICE 53) -/
def stackIdle (t : Nat) : Nat := if t = 16 * 85 then 6000 else Config.stackIdle t

/-- STACK_POWER_WINDOW: activates, read and write bursts of the last 1 µs, and the background power at the present
temperature (R233). (DESIGN CHOICE 53) -/
def stackWindow (d : Dev) (s acts rds wrs : Nat) : Dev :=
  powered d (fun d =>
    let uw := acts * fget d memPwrCfgEAct 0 + rds * fget d memPwrCfgERd 0 + wrs * fget d memPwrCfgEWr 0
    let mw := uw / 1000 + stackIdle (fget d memStackStatusTemp s)
    let (n, overs) := (d.pwr.windows.getD s (0, 0))
    let over1 := overs + b2n (decide (stackLimit d s < mw))
    let win := if n + 1 = 1000 then (0, 0) else (n + 1, over1)
    let d1 := fset { d with pwr := { d.pwr with windows := listSet d.pwr.windows s win } } memStackStatusPowerMw s (min mw 65535)
    if n + 1 = 1000 then fset d1 memStackStatusLimitPct s (over1 * 100 / 1000) else d1)

/-! ### Layer estimates -/

/-- CANARY_UPDATE: the number of cells of the group that read 0, or that all failed after a hold of 1 µs (R212).
(DESIGN CHOICE 54) -/
def canaryUpdate (d : Dev) (s n : Nat) (dead : Bool) : Dev :=
  powered d (fun d =>
    if s ≥ 160 || s % 80 ≥ 64 || fget d lyrThmCanaryFault s = 1 then d
    else if dead then
      let d1 := registryAdd (fset d lyrThmCanaryFault s 1) 0x0C 1 (unitId 0x05 s) 0 d.time
      nutmeg d1 ⟨0x04, 2, 1, unitId 0x05 s, 0, 0, 0⟩
    else
      let old := tempOf (fget d lyrThmCanary s)
      let t := min (max (if n > 512 then old + 8 else old - 8) (16 * 70)) (16 * 130)
      fset (fset d lyrThmCanary s (tempCode t)) lyrThmCanaryFloor s (b2n (decide (t = 16 * 70))))

/-- The model temperature of a region in units of 2^-20 °C; before its first update it is the diode's reading. -/
def modelTemp (d : Dev) (s : Nat) : Int := smapGet d.pwr.layerTemps s (tempOf (fget d lyrThmDiode s) * 2 ^ 16)

/-- T_ss of R213 in units of 2^-20 °C, for layer `k` (0 to 3) with its neighbours at `below` and `above` in 1/16 °C, its own
temperature `tm` and `rows` rows accessed in the millisecond. Powers count in nW and conductances in nW/°C: one row of
E_row pJ in a millisecond is E_row nW. -/
def steadyTemp (k : Nat) (below above tm : Int) (rows : Nat) : Int :=
  let power : Int := Config.layerRowEnergy k * rows + Config.layerLeak k tm
  (Config.layerDown k * (below * 2 ^ 16) + Config.layerUp k * (above * 2 ^ 16) + power * 2 ^ 20)
    / (Config.layerDown k + Config.layerUp k)

/-- LAYER_MODEL_UPDATE: the model temperature of a layer region from its neighbours and the rows accessed in the last
millisecond (R213). (DESIGN CHOICE 54) -/
def layerModelUpdate (d : Dev) (s rows : Nat) : Dev :=
  powered d (fun d =>
    if s ≥ 160 || s % 80 ≥ 64 then d
    else
      let e := s / 80
      let j := s % 80 / 16
      let r := s % 16
      let under := [4 * r, 4 * r + 1, 4 * r + 2, 4 * r + 3]
      let below := if j = 0 then maxInt (under.map (fun i => tempOf (smapGet d.pwr.diodes (e * 80 + i) 0)))
        else tempOf (fget d lyrThmGov (s - 16))
      let above := tempOf (if j = 3 then fget d lyrThmDiode (s + 16) else fget d lyrThmGov (s + 16))
      let tm := modelTemp d s
      let t := tm + (steadyTemp j below above tm rows - tm) * Config.layerStep j / 2 ^ 32
      fset { d with pwr := { d.pwr with layerTemps := smapPut d.pwr.layerTemps s t } } lyrThmModel s (tempCode (t / 2 ^ 16)))

/-- The available estimates of a layer region: source code and value (R214). -/
def estimates (d : Dev) (s : Nat) : List (Nat × Int) :=
  let diode := if fget d lyrThmRetired s = 1 then [] else [(0, tempOf (fget d lyrThmDiode s))]
  let canary := if fget d lyrThmCanaryFault s = 1 ∨ fget d lyrThmCanaryFloor s = 1 then [] else [(1, tempOf (fget d lyrThmCanary s))]
  diode ++ canary ++ [(2, tempOf (fget d lyrThmModel s))]

/-- The largest of estimates; the earlier of equals. -/
def largest (es : List (Nat × Int)) : Nat × Int := es.foldl (fun a x => if a.2 < x.2 then x else a) (es.headD (2, -32768))

/-- R214: the governing value and its source, and whether the diode is suspect. -/
def govern (d : Dev) (s : Nat) : (Nat × Int) × Bool :=
  let es := estimates d s
  let top := largest es
  let low := es.foldl (fun a x => min a x.2) top.2
  let dis : Int := 16 * (fget d lyrCfgDisagree 0 : Int)
  match es.find? (fun x => x.1 == 0) with
  | some x => if top.2 - low ≤ dis then (x, false) else (top, decide (dis < top.2 - x.2))
  | none => (top, false)

def findEpisode (d : Dev) (s : Nat) : Option Episode := d.pwr.episodes.find? (fun e => e.sensor == s)

/-- LYR_THM.flags: the flags of a sensor stamped within the last 24 h. -/
def flagShow (d : Dev) (s : Nat) : Dev :=
  let flags := (((findEpisode d s).map (·.flags)).getD []).filter (fun t => decide (d.time < t + day))
  fset d lyrThmFlags s (min flags.length 255)

/-- R215: a diode is retired from control; its episode goes on until it closes. -/
def retireDiode (d : Dev) (s : Nat) : Dev :=
  if fget d lyrThmRetired s = 1 then d
  else
    let d1 := registryAdd (fset d lyrThmRetired s 1) 0x0B 1 (unitId 0x05 s) 0 d.time
    decision (nutmeg d1 ⟨0x04, 3, 1, unitId 0x05 s, 0, 0, 0⟩) 4 (unitId 0x05 s) (tagNow d1) [0x0B, 1]

/-- The diode is suspect at this moment. -/
def suspectNow (d : Dev) (s : Nat) : Dev :=
  let last := (findEpisode d s).getD ⟨s, [], d.time⟩
  let rest := d.pwr.episodes.filter (fun e => e.sensor != s)
  { d with pwr := { d.pwr with episodes := rest ++ [{ last with lastAt := d.time }] } }

/-- A suspect episode counts a flag; the third within 24 h retires the diode. -/
def addFlag (d : Dev) (s : Nat) : Dev :=
  let old := (findEpisode d s).getD ⟨s, [], d.time⟩
  let flags := (old.flags.filter (fun t => decide (d.time < t + day))) ++ [d.time]
  let rest := d.pwr.episodes.filter (fun e => e.sensor != s)
  let d1 := flagShow { d with pwr := { d.pwr with episodes := rest ++ [{ old with flags := flags }] } } s
  if flags.length ≥ 3 then retireDiode d1 s else d1

/-- LAYER_GOVERN_UPDATE (R214, R215, R217). -/
def layerGovern (d : Dev) (s : Nat) : Dev :=
  powered d (fun d =>
    if s ≥ 160 || s % 80 ≥ 64 then d
    else
      let ((src, v), suspect) := govern d s
      let d1 := fset (fset d lyrThmGov s (tempCode v)) lyrThmGovSrc s src
      let d2 := if src ≠ 0 then nutmeg d1 ⟨0x04, 4, 1, unitId 0x05 s, 0, 0, src⟩ else d1
      let open1 := fget d lyrThmSuspect s == 1
      let d2 := if suspect then suspectNow d2 s else d2
      let d3 :=
        if suspect && !open1 then addFlag (nutmeg (fset d2 lyrThmSuspect s 1) ⟨0x04, 5, 1, unitId 0x05 s, 0, 0, 0⟩) s
        else d2
      compareTemp (tempShow d3 (s / 80)) (s / 80) 1 s)

/-- SUSPECT_FLAG_TICK: 10 min more of an episode. -/
def suspectTick (d : Dev) (s : Nat) : Dev := if fget d lyrThmSuspect s = 1 then addFlag d s else d

/-- SUSPECT_EPISODE_CLOSE: the diode has not been suspect throughout [t − 10 s, t) (R215, R413). (DESIGN CHOICE 4) -/
def suspectClose (d : Dev) (s : Nat) : Dev :=
  let clear := (findEpisode d s).all (fun e => decide (e.lastAt + 10000000000 < d.time))
  if fget d lyrThmSuspect s = 1 ∧ clear then flagShow (fset d lyrThmSuspect s 0) s else d

/-! ### Ageing (R406 to R408) -/

/-- AGEING_PROBE: the ageing index of a region in ppm and the lowest voltage at step 15 in 100 µV. -/
def ageingProbe (d : Dev) (i index vmin : Nat) : Dev :=
  powered d (fun d => if i < 32 then fset (fset d ageRegionIndexPpm i index) ageRegionVmin15Uv i vmin else d)

/-- Round up to 2.5 mV. -/
def upTo25 (v : Nat) : Nat := (v + 24) / 25 * 25

/-- The re-planned voltage of step `k` (R407): guard added, rounded up, lowered by at most 5 mV. `v` is the probe with the
drift of 720 h. (DESIGN CHOICE 54) -/
def replanned (d : Dev) (v old : Nat) : Nat := max (upTo25 (v + 10 * fget d ageCfgGuardMv 0)) (old - 50)

/-- MARGIN_REPLAN: the margin table of region `i` is planned again; it comes into force at the next step change of the die
and at start-up. A voltage above 0.85 V removes open steps of the die, and
at step 15 retires a core of the region (R408); which of the two has the failing replica, the event says.
(DESIGN CHOICE 54) -/
def marginReplan (d : Dev) (i core : Nat) : Dev :=
  powered d (fun d =>
    if i ≥ 32 then d
    else
      let e := i / 16
      let old := (d.nv.margins[i]?).getD ⟨0, 0, 0, []⟩
      let oldV := fun (k : Nat) => old.margins.getD k (nominalV k)
      let v := fun (k : Nat) => replanned d (Config.replanVoltage i (old.gen + 1) k) (oldV k)
      let table : MarginTable := ⟨old.gen + 1, 0, d.time, (List.range 19).map v⟩
      let bad := [16, 17, 18].find? (fun k => decide (8500 < v k))
      let d1 := { d with nv := { d.nv with margins := listSet d.nv.margins i table } }
      let d2 := fset d1 ageRegionHours i 0
      let d3 := decision d2 5 (unitId 0x0F i) (tagNow d2) [old.gen + 1, v 15]
      let d4 := nutmeg d3 ⟨0x05, 3, 1, unitId 0x0F i, 0, 0, 0⟩
      let d5 := match bad with
        | some k =>
          if k ≤ fget d4 pwrStepMaxOpen e then
            retireRecord (fset d4 pwrStepMaxOpen e (k - 1)) 0x0D 1 (unitId 0x01 e) k 1 d.time
          else d4
        | none => d4
      if 8500 < v 15 && i * 2 ≤ core && core ≤ i * 2 + 1 then retireCore d5 core 1 else d5)

end Sys2Proof.Machine
end

