-- ==== Sys2Proof/Machine/Mailbox.lean ====
section
/-! DEFINITION. The mailboxes (R380 to R385), loading (R366 to R369), live update (R372 to R379), compartments (R363 to R365)
and policy requests (R386). -/
namespace Sys2Proof.Machine

/-! ### Cumin's private SRAM and MPU (R359, R362) -/

/-- Byte `a` of the private SRAM. -/
def sramGet (d : Dev) (a : Nat) : Byte := smapGet d.fw.sram a 0

/-- Cumin writes bytes to its private SRAM, from address `a` on. -/
def sramWrite (d : Dev) (a : Nat) (bs : List Byte) : Dev :=
  match bs with
  | [] => d
  | b :: rest => sramWrite { d with fw := { d.fw with sram := smapSet d.fw.sram a b 0 } } (a + 1) rest

/-- R362: Cumin switches to compartment `k`, with at most 16 regions of it loaded. (DESIGN CHOICE 71) -/
def enterComp (d : Dev) (k : Nat) : Dev :=
  { d with fw := { d.fw with running := k, mpu := (Config.mpuRegions (fget d mbxFwStatusBank 0) k).take 16 } }

/-! ### Channel buffers -/

/-- Byte `off` of the window of channel `ch`. -/
def mbxGet (d : Dev) (ch off : Nat) : Byte := smapGet d.mbx (ch * 0x8000 + off) 0

def mbxSet (d : Dev) (ch off : Nat) (v : Byte) : Dev := { d with mbx := smapSet d.mbx (ch * 0x8000 + off) v 0 }

def mbxWrite (d : Dev) (ch off : Nat) (bs : List Byte) : Dev :=
  match bs with
  | [] => d
  | b :: rest => mbxWrite (mbxSet d ch off b) ch (off + 1) rest

def mbxRead (d : Dev) (ch off n : Nat) : List Byte := (List.range n).map (fun i => mbxGet d ch (off + i))

/-- A little-endian number of the request of a channel, at an offset from its header (Table 13.9). -/
def reqWord (d : Dev) (ch off n : Nat) : Nat := leNat (mbxRead d ch (0x1000 + off) n)
def reqFunction (d : Dev) (ch : Nat) : Nat := reqWord d ch 0 1
def reqService (d : Dev) (ch : Nat) : Nat := reqWord d ch 2 2

/-- R380: channels 0 to 7 are secure. -/
def secure (ch : Nat) : Bool := decide (ch < 8)

/-- Zero both buffers of a channel (R383). -/
def mbxZero (d : Dev) (ch : Nat) : Dev := { d with mbx := d.mbx.filter (fun c => c.1 / 0x8000 != ch) }

/-! ### Responses (R383) -/

/-- The version that HELLO agreed on a channel's service. -/
def agreed (d : Dev) (ch : Nat) : Option Nat := smapGet (d.fw.opened.map (fun x => (x.1, some x.2))) (ch * 65536 + reqService d ch) none

/-- Table 13.9: the header of the response to the request that a channel holds. -/
def respHeader (d : Dev) (ch result len : Nat) : List Byte :=
  let proto := (agreed d ch).getD (reqWord d ch 1 1)
  leBytes 1 (reqFunction d ch) ++ leBytes 1 proto ++ leBytes 2 (reqService d ch) ++ leBytes 4 (reqWord d ch 4 4)
    ++ leBytes 4 len ++ leBytes 4 result

/-- The responder writes its response, sets done and raises the channel's vector. -/
def respond (d : Dev) (ch result : Nat) (payload : List Byte) : Dev :=
  let d1 := mbxWrite d ch 0x4000 (respHeader d ch result payload.length ++ payload)
  let d2 := fset (fset d1 mbxChStatusBusy ch 1) mbxChStatusDone ch 1
  let p := fget d mbxMapInitiator ch
  if fget d mbxChCfgVecEn ch = 1 ∧ p < 2 then sendVector d2 p (fget d mbxChCfgVector ch) else d2

/-- A response without a payload. -/
def answer (d : Dev) (ch result : Nat) : Dev := respond d ch result []

/-- A response whose layout the manual does not give: its length and bytes are free, and the values go out beside it.
(DESIGN CHOICE 41) -/
def respondFree (d : Dev) (ch : Nat) (values : List Nat) : Dev :=
  let (n, d1) := takeFree d 14
  let len := n % (0x4000 - 15)
  let (v, d2) := takeFree d1 (8 * len)
  emit (respond d2 ch 0 (leBytes len v)) (.reply ch values)

/-! ### Doorbells -/

/-- The compartment that serves a channel (Table 13.2). -/
def servingComp (ch : Nat) : Nat := if secure ch then 3 else 5

def fwState (d : Dev) : Nat := fget d mbxFwStatusState 0
def compState (d : Dev) (k : Nat) : Nat := fget d mbxCompStatusState k

/-- Identity `ident` may use the buffers and doorbells of channel `ch` (R382). -/
def mbxBound (d : Dev) (ident ch : Nat) : Bool := fget d mbxMapEnabled ch == 1 && fget d mbxMapInitiator ch == ident

/-- R384: a write to a channel whose receiving domain is powered down: counted, and logged at most once per channel and
second. -/
def mbxDown (d : Dev) (ch : Nat) : Dev :=
  let d1 := fsat d mbxErrDown 0 1
  let logged := d.recs.nut.any (fun r => r.cls == 0x07 && r.code == 0x20 && r.ident == ch && decide (d.time < r.lastStamp + 1000000000))
    || d.recs.queue.any (fun q => q.1.cls == 0x07 && q.1.code == 0x20 && q.1.ident == ch && decide (d.time < q.2 + 1000000000))
  if logged then d1 else nutmeg d1 ⟨0x07, 0x20, 1, 0, 0, 0, ch⟩

/-- MBX_DOORBELL: identity `ident` (coded as in MBX_MAP) writes a length to MBX_CH_DB (R382 to R384). (DEDUCED 42) -/
def mbxDoorbell (d : Dev) (ident ch len : Nat) : Dev :=
  if ch ≥ 32 then d
  else if !mbxBound d ident ch then fsat d mbxErrForeign 0 1
  else if fget d mbxChStatusAwake ch = 0 then mbxDown d ch
  else if fget d mbxChStatusBusy ch = 1 ∨ fget d mbxChStatusDone ch = 1 then fsat d mbxErrOverrun 0 1
  else if len < 16 ∨ 12288 < len then d
  else
    let d1 := fset d mbxChStatusBusy ch 1
    if fwState d < 2 then (if ch ≤ 1 ∧ reqService d ch = 1 then d1 else answer d1 ch 2)
    else if fwState d = 2 ∧ compState d (servingComp ch) ≠ 1 then answer d1 ch 1
    else d1

/-- MBX_DONE_CLEAR: 1 is written to MBX_CH_STATUS.done (R383). (DEDUCED 42) -/
def mbxDoneClear (d : Dev) (ident ch : Nat) : Dev :=
  if ch ≥ 32 then d
  else if !mbxBound d ident ch then fsat d mbxErrForeign 0 1
  else
    let d1 := fset (fset d mbxChStatusBusy ch 0) mbxChStatusDone ch 0
    if secure ch then mbxZero d1 ch else d1

/-! ### Which request a channel holds -/

/-- A request waits for its response, and is not one that ends by an event of its own. -/
def pendingReq (d : Dev) (ch : Nat) : Bool :=
  decide (ch < 32) && fget d mbxChStatusBusy ch == 1 && fget d mbxChStatusDone ch == 0
  && d.fw.loading != some ch && d.fw.activating != some ch && !d.resets.any (fun r => r.asks.contains ch)

/-- The channels of a service (Tables 13.4 and 13.8). (DEDUCED 42) -/
def serviceChannels (svc : Nat) : List Nat :=
  match svc with
  | 0x01 => [0, 1] | 0x02 => [2, 3, 6] | 0x03 => [4] | 0x04 => [5] | 0x10 => [8, 9, 15, 16] | 0x11 => [10, 11, 14]
  | 0x12 => [12, 13, 14, 18] | 0x13 => [17] | _ => []

/-- DEDUCED 42 of the log. -/
def holds (d : Dev) (ch svc : Nat) : Bool := pendingReq d ch && reqService d ch == svc && (serviceChannels svc).contains ch

/-- The firmware takes a request of service `svc` from channel `ch`. (DESIGN CHOICE 1) (DEDUCED 42) (DESIGN CHOICE 71) -/
def served (d : Dev) (ch svc : Nat) (f : Dev → Dev) : Dev :=
  if holds d ch svc && compServes d (servingComp ch) then f (enterComp d (servingComp ch)) else d

/-- As `served`, and the request's function code is `fn` (Tables 13.11 and 16.8, R447). -/
def servedFn (d : Dev) (ch svc fn : Nat) (f : Dev → Dev) : Dev :=
  served d ch svc (fun d => if reqFunction d ch = fn then f d else d)

/-- R371: a service that is not privileged answers DENIED to a host whose driver has another major version. -/
def driverGate (d : Dev) (ch : Nat) (f : Dev → Dev) : Dev :=
  let p := fget d mbxMapInitiator ch
  if p < 2 ∧ fget d hpDrvVersionMajor p ≠ fget d mbxFwVersionMajor 0 then answer d ch 4 else f d

/-- HELLO: the lowest and highest protocol version that the initiator speaks (R371). (DESIGN CHOICE 40) (DESIGN CHOICE 66) -/
def hello (d : Dev) (ch lo hi : Nat) : Dev :=
  let svc := reqService d ch
  let rom := decide (fwState d < 2) && svc == 1
  if !(holds d ch svc && (rom || compServes d (servingComp ch))) then d
  else
    let v := min hi (Config.protocolHighest svc)
    if v < lo ∨ v = 0 then answer d ch 3
    else respondFree { d with fw := { d.fw with opened := smapPut d.fw.opened (ch * 65536 + svc) v } } ch [v]

/-! ### Images (Table 13.3, R433) -/

def byteWord (bs : List Byte) (off n : Nat) : Nat := leNat ((bs.drop off).take n)

/-- R437: the live configuration image, none in recovery. -/
def liveConfig (d : Dev) : Option ConfigImage :=
  if fget d cfgBootStatusRecovery 0 = 1 then none else (d.nv.banks[fget d cfgImageStatusBank 0]?).getD none

/-- R433: an image that passes verification. -/
def verifyImage (d : Dev) (bs : List Byte) : Option FwImage :=
  let size := byteWord bs 0x14 4
  if byteWord bs 0 4 ≠ 0x4E444F53 ∨ size < 64 ∨ 1835008 < size ∨ bs.length < size + 256 then none
  else
    let blk := (bs.drop size).take 256
    let digest := leNat (shake256 (bs.take size) 64)
    let root := Config.ed448Verify (Config.trustedKey 0) digest (byteWord blk 0x08 114) 0
    let counter := match (liveConfig d).bind (·.counterKey) with
      | some k => Config.ed448Verify k digest (byteWord blk 0x80 114) 1
      | none => true
    if byteWord blk 0 4 = 0x53494746 && root && counter && decide (d.nv.counters.getD 0 0 ≤ byteWord bs 8 4) then
      let v := byteWord bs 4 4
      let s := byteWord bs 0x0C 4
      some ⟨bits v 31 24, bits v 23 16, bits v 15 0, byteWord bs 8 4, bits s 15 0, bits s 31 16, byteWord bs 0x10 2, size,
        byteWord blk 4 4 % 2 == 1, digest, false⟩
    else none

/-- What reading an image from a host window gives: its bytes, or the result that the request ends with. (DEDUCED 43) -/
def hostImage (d : Dev) (p addr len : Nat) : Except Nat (List Byte) :=
  if len = 0 ∨ regionOf addr ≠ .host p ∨ regionOf (addr + len - 1) ≠ .host p then .error 5
  else if (accessFails d addr len false).isSome then .error 0x0E
  else .ok (memRead d addr len)

/-- R368, step 1: the image goes to the staging area in DRAM; where in it, the firmware decides. (DEDUCED 43) -/
def stageImage (d : Dev) (bs : List Byte) : Dev :=
  let (n, d1) := takeFree d 30
  store d1 (0x0C800000 + n % (0x33800000 - bs.length)) bs

/-- Cumin's image banks. -/
def fwBank (d : Dev) (b : Nat) : Option FwImage := (d.fw.banks[b]?).getD none
def putBank (d : Dev) (b : Nat) (x : Option FwImage) : Dev := { d with fw := { d.fw with banks := listSet d.fw.banks b x } }
def runBank (d : Dev) : Nat := fget d mbxFwStatusBank 0

/-- An image that passed verification is copied into a bank: what the manifest says and, in the SRAM, its bytes
(Table 13.1). (DESIGN CHOICE 71) -/
def fillBank (d : Dev) (b : Nat) (x : FwImage) (bs : List Byte) : Dev :=
  putBank (sramWrite d (b * 0x1C0000) (bs.take x.loadSize)) b (some x)

/-! ### Loading (R366 to R369) -/

/-- LOAD of the image at a host address (R367, R368). (DEDUCED 43) -/
def fwLoad (d : Dev) (ch addr len : Nat) : Dev :=
  if !holds d ch 1 then d
  else
    let p := fget d mbxMapInitiator ch
    if portState d p ≠ 1 ∨ fget d hpCfgLoadRight p = 0 then answer d ch 4
    else if 2 ≤ fwState d then answer d ch 0x0B
    else if fwState d = 1 then answer d ch 1
    else match hostImage d p addr len with
      | .error r => answer d ch r
      | .ok bs =>
        let d1 := stageImage d bs
        match verifyImage d bs with
        | none => answer d1 ch 0x0A
        | some x =>
          let d2 := fillBank (fset (fset d1 mbxFwStatusState 0 1) mbxFwStatusBank 0 0) 0 x bs
          { d2 with fw := { d2.fw with loading := some ch } }

/-- The version registers show the image of a bank. -/
def showVersion (d : Dev) (b : Nat) : Dev :=
  match fwBank d b with
  | none => d
  | some x => fset (fset (fset (fset d mbxFwVersionSecVersion 0 x.secVersion) mbxFwVersionMajor 0 x.major)
      mbxFwVersionMinor 0 x.minor) mbxFwVersionPatch 0 x.patch

/-- Every lock bit of the device (R444). -/
def lockFields : List (Field × Nat) :=
  [(sumacCtlLock, 0), (fdrSliceCfgLock, 0), (safDieCtlLock, 0), (safDieCtlLock, 1), (updCtlLock, 0), (lyrCtlLock, 0),
   (memCtlLock, 0), (dmaPlanCfgLock, 0), (semSchedCfgLock, 0), (blCfgLock, 0), (collTreeBaseLock, 0), (hpCfgLock, 0),
   (hpCfgLock, 1), (mbxCtlLock, 0), (pwrCfgLock, 0), (thmCfgLock, 0), (ageCfgLock, 0), (nutCfgLock, 0), (cfgRetireCfgLock, 0)]

def lockAll (d : Dev) : Dev := lockFields.foldl (fun d f => fset d f.1 f.2 1) d

/-- R444, R459: the capability table is published with generation 1. -/
def capPublish (d : Dev) : Dev := capChange (fset (fset d capHdrPublished 0 1) capHdrVersion 0 1)

/-- All compartments run. -/
def compsRun (d : Dev) : Dev := (List.range 6).foldl (fun d k => fset d mbxCompStatusState k 1) d

/-- Compartment 0 serves again: the governor lets go (R365). -/
def governorOff (d : Dev) : Dev := limitsShow (fset d mbxFwStatusGovernor 0 0)

def governorOn (d : Dev) : Dev := limitsShow (fset d mbxFwStatusGovernor 0 1)

/-- What follows when firmware serves: queued events are recorded, waiting STEP_OPENs go on. -/
def fwServes (d : Dev) : Dev := advance (nutFlush d)

/-- FW_RUNNING: every compartment has started (R369), and start-up ends (R444, Table 16.6 step 7). -/
def fwRunning (d : Dev) : Dev :=
  match d.fw.loading with
  | none => d
  | some ch =>
    let d1 := enterComp (showVersion (compsRun (fset d mbxFwStatusState 0 2)) 0) 0
    let d2 := fset (capPublish (lockAll d1)) cfgBootStatusStep 0 7
    let d3 := answer { d2 with fw := { d2.fw with loading := none } } ch 0
    fwServes (governorOff d3)

/-! ### Live update (R372 to R379) -/

/-- STAGE of the image at a host address. (DEDUCED 43) -/
def fwStage (d : Dev) (ch addr len : Nat) : Dev :=
  if holds d ch 1 && decide (fwState d < 2) then answer d ch 2
  else served d ch 1 (fun d =>
    match hostImage d (fget d mbxMapInitiator ch) addr len with
    | .error r => answer d ch r
    | .ok bs =>
      let d1 := stageImage d bs
      match verifyImage d bs, fwBank d (runBank d) with
      | some x, some run =>
        if run.schemaOut < x.schemaMin ∨ x.schemaMax < run.schemaOut then answer d1 ch 3
        else
          let d2 := fillBank d1 (1 - runBank d1) x bs
          answer (if d2.fw.activating.isSome then d2 else fset d2 mbxFwActState 0 1) ch 0
      | _, _ => answer d1 ch 0x0A)

/-- A ring of class 0 to 3 is enabled on either port (R374, R451). -/
def ringsEnabled (d : Dev) : Bool := d.eng.owner.any (fun o => fget d kringCfgEnable o.1 == 1)

/-- R374: another major version needs every ring to be disabled. -/
def majorClash (d : Dev) : Bool :=
  match fwBank d (runBank d), fwBank d (1 - runBank d) with
  | some run, some x => run.major != x.major && ringsEnabled d
  | _, _ => false

/-- MBX_FW_ACT.result changes, with its event. -/
def actResult (d : Dev) (r : Nat) : Dev :=
  if fget d mbxFwActResult 0 = r then d else evtSet (fset d mbxFwActResult 0 r) 6

/-- The request of an activation ends with a result. -/
def actEnd (d : Dev) (mbxResult : Nat) : Dev :=
  match d.fw.activating with
  | none => d
  | some ch => answer { d with fw := { d.fw with activating := none } } ch mbxResult

/-- ACTIVATE of the staged image (R373, R374). (DEDUCED 43) -/
def fwActivate (d : Dev) (ch : Nat) : Dev :=
  if holds d ch 1 && decide (fwState d < 2) then answer d ch 2
  else served d ch 1 (fun d =>
    let usable := match fwBank d (1 - runBank d) with | some x => !x.failed | none => false
    if d.fw.activating.isSome then answer d ch 0x0F
    else if fget d mbxFwActState 0 ≠ 1 || !usable then answer d ch 5
    else if majorClash d then answer (actResult d 5) ch 4
    else
      let d1 := { d with fw := { d.fw with activating := some ch } }
      fset d1 mbxFwActState 0 2)

/-- A deferral ends without an activation: the image stays staged (R373). -/
def deferEnd (d : Dev) (result mbxResult : Nat) : Dev := actEnd (actResult (fset d mbxFwActState 0 1) result) mbxResult

def deferred (d : Dev) : Bool := d.fw.activating.isSome && fget d mbxFwActState 0 == 2

/-- CANCEL (R373). (DEDUCED 43) -/
def fwCancel (d : Dev) (ch : Nat) : Dev :=
  if holds d ch 1 && decide (fwState d < 2) then answer d ch 2
  else served d ch 1 (fun d => if deferred d then answer (deferEnd d 4 0x0D) ch 0 else answer d ch 5)

/-- STATUS: the firmware and activation state. -/
def fwStatus (d : Dev) (ch : Nat) : Dev :=
  if holds d ch 1 && (decide (fwState d < 2) || compServes d 3) then
    respondFree d ch [regGet d .mbxFwStatus 0, regGet d .mbxFwVersion 0, regGet d .mbxFwAct 0]
  else d

/-- Table 13.6: the emergency flags of the hand-over record; flag 3 is 0, since a shutdown comparator acts as its threshold is
reached. -/
def emergencyFlags (d : Dev) : Nat := actConditions d + 16 * fget d thmShutdownHold 0

/-- Table 13.6: the hand-over record, with `free` the number of its bytes that the manual does not lay out.
(DESIGN CHOICE 71) -/
def handRecord (d : Dev) (free : Nat) : List Byte :=
  let body := leBytes 16 (emergencyFlags d) ++ leBytes 34816 (free / 2 ^ 256)
  leBytes 32 free ++ shake256 body 16 ++ body

/-- The running image writes its hand-over record (Table 13.5, step 2). -/
def handWrite (d : Dev) : Dev :=
  let (free, d1) := takeFree d 278784
  sramWrite d1 0x380000 (handRecord d free)

/-- ACTIVATION_PROCEED: a second without an active condition has passed; the freeze, step 1 of Table 13.5. -/
def actProceed (d : Dev) : Dev :=
  if !deferred d || fwState d != 2 || actConditions d != 0 then d
  else if majorClash d then deferEnd d 5 4
  else
    let d1 := fset (fset d mbxFwStatusState 0 3) mbxFwActState 0 3
    handWrite (governorOn { d1 with fw := { d1.fw with frozenAt := d1.time } })

/-- ACTIVATION_EXPIRED: the deferral has lasted max_defer. -/
def actExpired (d : Dev) : Dev := if deferred d then deferEnd d 3 0x0C else d

/-- The length of a pause in µs. -/
def pauseShow (d : Dev) : Dev := fset d mbxFwActPauseUs 0 (min 65535 ((d.time - d.fw.frozenAt) / 1000))

/-- HANDOVER_RESUME: the new image serves (Table 13.5, step 4). (DEDUCED 43) -/
def handResume (d : Dev) : Dev :=
  if fwState d ≠ 3 then d
  else
    let d1 := fset (fset (fset d mbxFwStatusState 0 2) mbxFwActState 0 4) mbxFwStatusBank 0 (1 - runBank d)
    fwServes (governorOff (compsRun (pauseShow (enterComp d1 0))))

/-- HANDOVER_CONFIRM: the new image confirms (Table 13.5, step 5). -/
def handConfirm (d : Dev) : Dev :=
  if fget d mbxFwActState 0 ≠ 4 then d
  else actEnd (actResult (showVersion (putBank (fset d mbxFwActState 0 0) (1 - runBank d) none) (runBank d)) 1) 0

/-- Every request that a responder has taken and not answered ends with a result; an activation that was deferred ends with
its request. (DEDUCED 44) -/
def answerTaken (d : Dev) (chs : List Nat) (result : Nat) : Dev :=
  let taken := chs.filter (fun ch => fget d mbxChStatusBusy ch == 1 && fget d mbxChStatusDone ch == 0 && d.fw.loading != some ch)
  let d1 := taken.foldl (fun d ch => answer d ch result) d
  let forget := fun (r : ResetRun) => { r with asks := r.asks.filter (fun c => !taken.contains c) }
  let d2 := { d1 with resets := d1.resets.map forget }
  match d2.fw.activating with
  | some ch =>
    if taken.contains ch then
      let d3 := { d2 with fw := { d2.fw with activating := none } }
      if fget d3 mbxFwActState 0 = 2 then fset d3 mbxFwActState 0 1 else d3
    else d2
  | none => d2

/-- R376: Cumin returns to the old image; a compartment that is held down stays so (R364). (DEDUCED 43) -/
def rollBack (d : Dev) : Dev :=
  let taken := fget d mbxFwActState 0 == 4
  let old := if taken then 1 - runBank d else runBank d
  let d1 := fset (fset (fset d mbxFwStatusState 0 4) mbxFwStatusBank 0 old) mbxFwActState 0 0
  let d2 := putBank d1 (1 - old) ((fwBank d1 (1 - old)).map (fun x => { x with failed := true }))
  let d3 := (List.range 6).foldl (fun d k => if compState d k = 3 then d else fset d mbxCompStatusState k 2) d2
  let d4 := if taken then answerTaken d3 (List.range 32) 8 else d3
  let d5 := actEnd (actResult (governorOn { d4 with fw := { d4.fw with frozenAt := d4.time } }) 2) 8
  nutmeg d5 ⟨0x08, 2, 2, 0, 0, 0, 0⟩

/-- A hand-over is under way and not confirmed. -/
def handing (d : Dev) : Bool := fwState d == 3 || fget d mbxFwActState 0 == 4

/-- HANDOVER_TIMEOUT: t_f + 250 ms without a confirmation. -/
def handTimeout (d : Dev) : Dev := if handing d then rollBack d else d

/-! ### Compartments (R363, R364) -/

/-- What a compartment's fault shows in its register and records. (DEDUCED 44) -/
def faultShow (d : Dev) (k cause : Nat) : Dev :=
  let d1 := fset (fsat (fset d mbxCompStatusCause k cause) mbxCompStatusFaults k 1) mbxCompStatusLastFault k (d.time / 1000)
  let d2 := if cause = 2 then fsat d1 mbxErrCuminRange 0 1 else d1
  let recent := d2.fw.faults.filter (fun f => decide (d.time < f.2 + 3600000000000))
  nutmeg { d2 with fw := { d2.fw with faults := recent ++ [(k, d.time)] } } ⟨0x08, 0, 2, unitId 0x0D k, 0, 0, cause⟩

/-- The channels of a compartment. (DEDUCED 44) -/
def compChannels (k : Nat) : List Nat :=
  match k with | 3 => List.range 8 | 5 => (List.range 24).map (· + 8) | _ => []

/-- COMPARTMENT_FAULT of compartment `k` with a cause of MBX_COMP_STATUS. (DEDUCED 43) (DEDUCED 44) -/
def compFault (d : Dev) (k cause : Nat) : Dev :=
  if k ≥ 6 || compState d k != 1 then d
  else
    let d1 := faultShow d k cause
    let held := decide (3 ≤ (d1.fw.faults.filter (fun f => f.1 == k)).length)
    let d2 := fset d1 mbxCompStatusState k (if held then 3 else 2)
    let d3 := if held then nutmeg (evtSet d2 5) ⟨0x08, 1, 2, unitId 0x0D k, 0, 0, 0⟩ else d2
    if handing d then rollBack d3
    else
      let d4 := answerTaken d3 (compChannels k) 7
      if k = 0 then governorOn d4 else d4

/-- COMPARTMENT_RESTARTED: a compartment serves again; after a rollback the firmware does when all have. (DEDUCED 43) -/
def compRestarted (d : Dev) (k : Nat) : Dev :=
  if k ≥ 6 || compState d k != 2 then d
  else
    let d1 := enterComp (fset d mbxCompStatusState k 1) k
    let back := fwState d1 == 4 && (List.range 6).all (fun i => compState d1 i != 2)
    let d2 := if back then pauseShow (fset d1 mbxFwStatusState 0 2) else d1
    fwServes (if compServes d2 0 && fget d2 mbxFwStatusGovernor 0 == 1 then governorOff d2 else d2)

/-! ### Policy requests (R386) -/

/-- No epoch is open in any group. -/
def noEpoch (d : Dev) : Bool := (List.range 16).all (fun g => groupPhase d g == .idle)

/-- R434: the configuration permits the request. -/
def permitted (d : Dev) (fn : Nat) : Bool :=
  match (liveConfig d).bind (·.policy) with | some fns => fns.contains fn | none => true

/-- A policy request: refused where the configuration forbids it or a value is out of bounds, else carried out and
recorded. (DEDUCED 45) -/
def policyRow (d : Dev) (ch fn : Nat) (inBounds : Bool) (values : List Nat) (f : Dev → Dev × Nat) : Dev :=
  servedFn d ch 0x10 fn (fun d =>
    if !permitted d fn then answer d ch 4
    else if !inBounds then answer d ch 5
    else
      let (d1, r) := f d
      answer (if r = 0 then decision d1 3 0 (tagNow d1) (fn :: values) else d1) ch r)

/-- SET_CAP in W. (DESIGN CHOICE 40) (DEDUCED 45) -/
def setCap (d : Dev) (ch w : Nat) : Dev :=
  policyRow d ch 0x20 (decide (1200 ≤ w ∧ w ≤ 3000)) [w] (fun d =>
    (capApply (fset d pwrStatusCapReq 0 w), if protecting d && decide (fget d pwrStatusCapEff 0 < w) then 9 else 0))

/-- PROFILE_SWITCH: the requested profile takes effect while no epoch is open (R397). (DEDUCED 45) -/
def profileSwitch (d : Dev) : Dev :=
  match d.policy.profileReq with
  | none => d
  | some x =>
    if !noEpoch d then d
    else
      let d1 := fset { d with policy := { d.policy with profileReq := none } } pwrStatusProfile 0 x
      let clampStep := fun (d : Dev) (e : Nat) => if topStep d e < (diePower d e).target then stepTo d e (topStep d e) else d
      clampStep (clampStep d1 0) 1

/-- SET_PROFILE: 0 fixed, 1 open. (DESIGN CHOICE 40) (DEDUCED 45) -/
def setProfile (d : Dev) (ch x : Nat) : Dev :=
  policyRow d ch 0x21 (decide (x = 0 ∨ (x = 1 ∧ fget d pwrCfgOpenAllowed 0 = 1))) [x] (fun d =>
    (profileSwitch { d with policy := { d.policy with profileReq := some x } }, 0))

/-- SET_PRIORITY with a code of PWR_CFG.prio: it holds at once outside epochs, and for a group from its next STEP_OPEN
(R32). (DESIGN CHOICE 40) (DEDUCED 45) -/
def setPriority (d : Dev) (ch code : Nat) : Dev :=
  policyRow d ch 0x22 (decide (code < 6 ∧ fget d pwrCfgPrioOverride 0 = 1)) [code] (fun d =>
    ({ d with policy := { d.policy with prio := code } }, 0))

/-- SET_CLASS_WEIGHTS of classes 0 to 3, as SET_PRIORITY. (DEDUCED 45) -/
def setWeights (d : Dev) (ch w0 w1 w2 w3 : Nat) : Dev :=
  let within := fun (w : Nat) (lo hi : Field) => decide (fget d lo 0 ≤ w ∧ w ≤ fget d hi 0)
  let ok := within w0 semPrioRangeMin0 semPrioRangeMax0 && within w1 semPrioRangeMin1 semPrioRangeMax1
    && within w2 semPrioRangeMin2 semPrioRangeMax2 && within w3 semPrioRangeMin3 semPrioRangeMax3
  policyRow d ch 0x23 ok [w0, w1, w2, w3] (fun d =>
    ([(semPrioWeightW0, w0), (semPrioWeightW1, w1), (semPrioWeightW2, w2), (semPrioWeightW3, w3)].foldl
      (fun d p => fset d p.1 0 p.2) d, 0))

/-- SET_DEPTH_RANGE. (DEDUCED 45) -/
def setDepth (d : Dev) (ch lo hi : Nat) : Dev :=
  policyRow d ch 0x24 (decide (fget d semSchedCfgDMin 0 ≤ lo ∧ lo ≤ hi ∧ hi ≤ fget d semSchedCfgDMax 0)) [lo, hi] (fun d =>
    ({ d with policy := { d.policy with depth := some (lo, hi) } }, 0))

/-- GET_POLICY: requested and effective values. -/
def getPolicy (d : Dev) (ch : Nat) : Dev :=
  servedFn d ch 0x10 0x30 (fun d =>
    if !permitted d 0x30 then answer d ch 4
    else respondFree d ch
      ([fget d pwrStatusCapReq 0, fget d pwrStatusCapEff 0, d.policy.profileReq.getD (fget d pwrStatusProfile 0),
        fget d pwrStatusProfile 0, d.policy.prio, prioNow d, regGet d .semPrioWeight 0]
        ++ d.steps.groups.flatMap (fun g => if g.phase = .idle then [] else g.heldWeights) ++ [(d.policy.depth.map (·.1)).getD (fget d semSchedCfgDMin 0),
        (d.policy.depth.map (·.2)).getD (fget d semSchedCfgDMax 0)]))

end Sys2Proof.Machine
end

