-- ==== Sys2Proof/Machine/Resets.lean ====
section
/-! DEFINITION. Resets of cores, dies, stack bases and links (R218 to R222, R241 to R244, R446 to R448), layer repairs
(R204, R205), pseudo-channel sparing and retirement (R236 to R240), and the landing of Fennel transfers (R253). -/
namespace Sys2Proof.Machine

/-! ### Fennel transfers -/

/-- FENNEL_LAND: the oldest transfer of a source lands (R253), unless its die or its destination is under reset.
(DEDUCED 55) -/
def fennelLandRow (d : Dev) (source : Nat) : Dev :=
  match fennelNext d source with
  | none => d
  | some x =>
    match findCmd d x.source x.seq with
    | none => { d with fennel := d.fennel.erase x }
    | some c =>
      if inReset d 2 c.port then d
      else
        let r := fennelLand d c.port x
        match r.done with
        | none => d
        | some (s, info) =>
          if s = Status.resetWait.code then d
          else advance (finishCmd (flushWrites (touchAcc r.dev c.groupOf) c.ring c.seq) c.ring c.seq s info)

/-! ### Commands stopped by a reset (R70, R221, R242) -/

/-- A command that may have work on the unit: on a core the matrix, row and vector commands; on a die or a stack also the
others that read or write memory. -/
def worksOn (kind : Nat) (c : Cmd) : Bool :=
  match c.opcode with
  | some .mm => true | some .conv => true | some .sliceMm => true | some .row => true | some .vec => true
  | some .copy | some .mcast | some .fennelPut | some .coll | some .updBind | some .censusRead | some .digest
  | some .timestamp => kind != 1
  | _ => false

/-- A command that runs, or whose writes have not all committed. -/
def runsNow (c : Cmd) : Bool := (c.phase == .started || c.phase == .finished) && c.status == 0

/-- Which commands the reset meets: the scheduler's placement is open, so each that may have work on the unit has a free
bit (R31). (DEDUCED 46) -/
def chooseStopped (d : Dev) (kind : Nat) (cs : List Cmd) : List (Nat × Nat × Bool) × Dev :=
  match cs with
  | [] => ([], d)
  | c :: rest =>
    if runsNow c && worksOn kind c then
      let (x, d1) := takeFree d 1
      let (more, d2) := chooseStopped d1 kind rest
      (if x = 1 then (c.ring, c.seq, false) :: more else more, d2)
    else chooseStopped d kind rest

/-- The unit of a write that lands whole or not at all: a 64-byte block of DRAM or of a host, a row elsewhere (R201,
R242). -/
def landUnit (a : Nat) : Nat := match regionOf a with | .dram | .host _ => a / 64 * 64 | _ => a / 512 * 512

/-- A byte that a command wrote and nothing changed since holds its earlier value again. -/
def unwrite (x : Nat × Nat × Nat) (d : Dev) : Dev :=
  if (memGet d x.1).toNat = x.2.2 then memSet d x.1 (BitVec.ofNat 8 x.2.1) else d

/-- Of the units that a stopped command wrote, each stands or keeps its earlier contents: which had been reached is open
(R70, R220, R242). (DEDUCED 46) -/
def undoWrites (d : Dev) (us : List (Nat × Nat × Nat)) : Dev :=
  ((us.map (fun x => landUnit x.1)).foldl insertNat []).foldl (fun d u =>
    let (x, d1) := takeFree d 1
    if x = 1 then d1 else (us.filter (fun y => landUnit y.1 == u)).foldr unwrite d1) d

/-- The part of a stopped COLL on this module is over: what it was to deliver does not come (R167). -/
def cutColl (d : Dev) (c : Cmd) : Dev :=
  if d.fab.colls.any (fun r => r.ring == c.ring && r.seq == c.seq) then
    let d1 := (deliveredShards d c).foldl (fun d s => deliveryFailed d s.bind.shard) d
    { d1 with fab := { d1.fab with colls := d1.fab.colls.filter (fun r => !(r.ring == c.ring && r.seq == c.seq)) } }
  else d

/-- A stopped command does nothing more until the reset ends; what had not landed of its writes does not land, and a Fennel
transfer or a collective of it is cut. -/
def stopCmd (d : Dev) (k : Nat × Nat × Bool) : Dev :=
  match findCmd d k.1 k.2.1 with
  | none => d
  | some c =>
    let d1 := cutColl (undoWrites d c.undo) c
    let d2 := updCmd d1 k.1 k.2.1 (fun c => { c with phase := .started, issued := true, undo := [] })
    { d2 with fennel := d2.fennel.filter (fun x => !(x.source == k.1 && x.seq == k.2.1)) }

/-- The commands that a reset stopped complete: their statuses are fixed and their signals applied with the error bit
(R221, R262). -/
def endStopped (d : Dev) (ks : List (Nat × Nat × Bool)) : Dev :=
  ks.foldl (fun d k =>
    match findCmd d k.1 k.2.1 with
    | none => d
    | some c =>
      let d1 := finishWith d c (if k.2.2 then .uncorrectable else .stoppedByReset)
      match findCmd d1 k.1 k.2.1 with | some c1 => signalCmd d1 c1 | none => d1) d

/-! ### Beginning a reset -/

/-- The bond ports of a core (`kind` 1) or a die (2), as indices of LYR_PORT_STATUS. -/
def bondPorts (kind unit : Nat) : List Nat :=
  if kind = 1 then
    let base := unit / 32 * 192
    let core := unit % 32
    [0, 1, 2, 3].map (fun k => base + core * 4 + k) ++ [base + 128 + core * 2, base + 129 + core * 2]
  else (List.range 192).map (fun i => unit * 192 + i)

/-- The state of every bond port that has not failed. -/
def portsSet (d : Dev) (kind unit st : Nat) : Dev :=
  (bondPorts kind unit).foldl (fun d p => if fget d lyrPortStatusState p = 3 then d else fset d lyrPortStatusState p st) d

/-- LYR_QUIESCE of a die: what quiesced and how long the drain took, which the manual leaves to the traffic and bounds by
2 µs (R218); the core of the last core reset stays. (DEDUCED 46) -/
def quiesceShow (d : Dev) (die kind : Nat) : Dev :=
  let (x, d1) := takeFree d 11
  fset (fset (fset d1 lyrQuiesceKind die kind) lyrQuiesceForced die 0) lyrQuiesceDrainNs die (x % 2000)

/-- The links of a die go down (Table 16.7). -/
def dieLinksDown (d : Dev) (die : Nat) : Dev :=
  ((List.range 18).map (· + die * 18)).foldl (fun d n => if linkUsable d n then linkDown d n 0 else d) d

/-- A reset of kind 1 (core), 2 (die) or 3 (stack base) is requested, by mailbox channel `ask` or by the device itself
(R448). (DEDUCED 46) -/
def resetBegin (d : Dev) (kind unit : Nat) (ask : Option Nat) : Dev :=
  if inReset d kind unit then
    let more := fun (r : ResetRun) => { r with asks := r.asks ++ ask.toList }
    { d with resets := listUpdWhere d.resets (fun r => r.kind == kind && r.unit == unit) more }
  else if kind = 1 && inReset d 2 (unit / 32) then
    match ask with
    | some ch => let (x, d1) := takeFree d 8; answer d1 ch x
    | none => d
  else
    let narrow := fun (r : ResetRun) => kind == 2 && r.kind == 1 && r.unit / 32 == unit
    let taken := (d.resets.filter narrow).flatMap (·.stopped)
    let (ks, d1) := chooseStopped d kind (d.eng.taken.filter (fun c => !taken.any (fun k => isCmd k.1 k.2.1 c)))
    let d2 := ks.foldl stopCmd d1
    let begun := fun (ks : List (Nat × Nat × Bool)) =>
      { d2 with resets := d2.resets.filter (fun r => !narrow r) ++ [⟨kind, unit, d.time, ks, ask.toList⟩] }
    match kind with
    | 1 => fset (quiesceShow (portsSet (begun ks) 1 unit 1) (unit / 32) 1) lyrQuiesceCore (unit / 32) (unit % 32)
    | 2 => dieLinksDown (quiesceShow (portsSet (begun (taken ++ ks)) 2 unit 1) unit 2) unit
    | _ =>
      let (x, d4) := takeFree (begun []) 16
      let d5 := fset (fset (fsat d4 memResetStatusCount unit 1) memResetStatusFailedReqs unit x) memStackStatusState unit 1
      advance (endStopped d5 ks)

/-- QUIESCE_FORCED_IDLE: ports still busy at t0 + 2 µs; `rows` rows of the commands `lost` are lost (R220). -/
def forcedIdle (d : Dev) (kind unit rows : Nat) (lost : List (Nat × Nat)) : Dev :=
  if kind = 0 || decide (3 ≤ kind) || !inReset d kind unit then d
  else
    let die := if kind = 1 then unit / 32 else unit
    let real := lost.filter (fun k => (findCmd d k.1 k.2).any runsNow)
    let d1 := real.foldl (fun d k => stopCmd d (k.1, k.2, true)) d
    let mark := fun (r : ResetRun) =>
      { r with stopped := r.stopped.filter (fun k => !real.contains (k.1, k.2.1)) ++ real.map (fun k => (k.1, k.2, true)) }
    let d2 := { d1 with resets := listUpdWhere d1.resets (fun r => r.kind == kind && r.unit == unit) mark }
    let d3 := fset (fset (fset d2 lyrQuiesceForced die 1) lyrQuiesceLostRows die rows) lyrQuiesceDrainNs die 2000
    portsSet (fsat d3 lyrQuiesceForcedCnt die 1) kind unit 2

/-! ### Ending a reset -/

/-- Requests of peers that waited are served again in order of arrival. -/
def serveWaiting (d : Dev) : Dev :=
  d.fab.waitReqs.foldl (fun d q => serveRequest d q.1 q.2) { d with fab := { d.fab with waitReqs := [] } }

/-- R149: side memory of a core has no valid page. -/
def sideClear (d : Dev) (c : Nat) : Dev := { d with sideValid := d.sideValid.filter (fun p => p / 1024 != c) }

/-- The reset of a unit is over: its stopped commands complete, its requesters are answered, what waited goes on. -/
def resetEnd (d : Dev) (kind unit : Nat) (back : Dev → Dev) : Dev :=
  match d.resets.find? (fun r => r.kind == kind && r.unit == unit) with
  | none => d
  | some r =>
    let d1 := { d with resets := d.resets.filter (fun x => !(x.kind == kind && x.unit == unit)) }
    let d2 := endStopped (back d1) r.stopped
    advance (serveWaiting (r.asks.foldl (fun d ch => answer d ch 0) d2))

/-- The stamp of the request of the reset of a unit. -/
def resetSince (d : Dev) (kind unit : Nat) : Nat :=
  ((d.resets.find? (fun r => r.kind == kind && r.unit == unit)).map (·.t0)).getD 0

/-- CORE_RESET_RELEASE (Table 7.3, Table 16.7). (DEDUCED 46) -/
def coreRelease (d : Dev) (c : Nat) : Dev :=
  resetEnd d 1 c (fun d => portsSet (sideClear (showRetired (dropRegs d (inCore c))) c) 1 c 0)

/-- Links of a die train again. -/
def dieLinksTrain (d : Dev) (die : Nat) : Dev := ((List.range 18).map (· + die * 18)).foldl linkRetry d

/-- The spill records of a die are freed and its generation advances (R111); the generation after 2^32 − 1 is 1. -/
def spillReset (d : Dev) (die : Nat) : Dev :=
  let g := fget d safSpillGenGen die + 1
  let d1 := fset { d with spills := d.spills.filter (fun s => s.1 / 2 ^ 32 != die) } safSpillGenGen die (if g = 2 ^ 32 then 1 else g)
  spillFreeSet (fset d1 safSpillHwmMinFree die (fget d1 safSpillSizeUnits die * 4096)) die

/-- R213: the model temperature of a die's layers starts from the diodes. -/
def modelRestart (d : Dev) (die : Nat) : Dev :=
  let kept := d.pwr.layerTemps.filter (fun x => x.1 / 80 != die)
  (List.range 64).foldl (fun d i => fset d lyrThmModel (die * 80 + i) (fget d lyrThmDiode (die * 80 + i)))
    { d with pwr := { d.pwr with layerTemps := kept } }

/-- The shards whose update unit lies on a die. -/
def dieShards (d : Dev) (die : Nat) : List Nat := (d.shards.filter (fun s => s.bind.unit / 4 == die)).map (·.bind.shard)

/-- The registers of a stack's base at their reset values: its temperature is sampled again, and a base reset or a copy in
progress goes on showing. -/
def stackRegs (d : Dev) (s : Nat) : Dev :=
  let f := fun (x : Dev) (y : Field) => fset x y s (fget d y s)
  let d1 := showRetired (dropRegs d (fun r i => r == .memStackStatus && i == s))
  refreshShow (f (f (f d1 memStackStatusTemp) memStackStatusMoving) memStackStatusState) s

/-- What a die is like after its reset (Table 16.7). -/
def dieBack (die : Nat) (d : Dev) : Dev :=
  let d0 := dropRegs ([0, 1, 2, 3].foldl (fun d i => stackRegs d (die * 4 + i)) d) (fun r i => r.info.domain != .stack && inDie die r i)
  let d1 := [0, 1, 2, 3].foldl (fun d i => unitStatus d (die * 4 + i)) (spillReset (showRetired d0) die)
  let d2 := (List.range 32).foldl (fun d c => sideClear d (die * 32 + c)) d1
  limitsShow (modelRestart (dieLinksTrain (portsSet d2 2 die 0) die) die)

/-- DIE_RESET_RELEASE: signals, then Sumac's copies, then the update units (R262, R185). The copies of Sumac's registers on
the die are no state of their own. (DEDUCED 46) -/
def dieRelease (d : Dev) (die : Nat) : Dev :=
  if !inReset d 2 die then d
  else
    let t0 := resetSince d 2 die
    let d1 := resetEnd d 2 die (dieBack die)
    advance (commitGroups (wakeUnits ((dieShards d1 die).foldl (resumeShard t0) d1)))

/-- A stack that accepts requests again. -/
def stackBack (s : Nat) (d : Dev) : Dev := fset (stackRegs d s) memStackStatusState s 0

/-- STACK_BASE_RESET_DONE (Table 8.3, R185). (DEDUCED 46) -/
def stackDone (d : Dev) (s : Nat) : Dev :=
  if !inReset d 3 s then d
  else
    let t0 := resetSince d 3 s
    let d1 := resetEnd d 3 s (stackBack s)
    let cut := (d1.shards.filter (fun x => shardOnStack d1 x s)).map (·.bind.shard)
    advance (commitGroups (wakeUnits (cut.foldl (resumeShard t0) d1)))

/-! ### Requests for a reset -/

/-- R243: a base reset is refused at or above the warning threshold of the stack. (DEDUCED 46) -/
def stackTooHot (d : Dev) (s : Nat) : Bool := decide (warnAt d 2 ≤ tempOf (fget d memStackStatusTemp s))

/-- UPDATE_UNIT_FAULT: firmware clears it with a die reset (R185). -/
def updateFault (d : Dev) (u : Nat) : Dev := powered d (fun d => if u < 8 then resetBegin d 2 (u / 4) none else d)

/-- STACK_BASE_FAULT: firmware resets the base die (R241). -/
def stackFault (d : Dev) (s : Nat) : Dev :=
  powered d (fun d => if s < 8 && !stackTooHot d s && !d.retired.stackSet.contains s then resetBegin d 3 s none else d)

/-- R447: the other port of a host is out of the way. (DEDUCED 46) -/
def otherIdle (d : Dev) (ch : Nat) : Bool :=
  let p := fget d mbxMapInitiator ch
  decide (2 ≤ p) || portState d (1 - p) == 0 || portState d (1 - p) == 2 || portState d (1 - p) == 3

/-- A reset request of the management service. -/
def resetRow (d : Dev) (ch fn : Nat) (unitOk : Bool) (f : Dev → Dev) : Dev :=
  servedFn d ch 0x10 fn (fun d => if !otherIdle d ch then answer d ch 4 else if !unitOk then answer d ch 5 else f d)

/-- RESET_DIE, RESET_CORE, RESET_STACK; of a retired unit the request is refused (R34). -/
def resetDie (d : Dev) (ch die : Nat) : Dev := resetRow d ch 0x41 (decide (die < 2)) (fun d => resetBegin d 2 die (some ch))
/-- DEDUCED 46 of the log. -/
def resetCore (d : Dev) (ch c : Nat) : Dev :=
  resetRow d ch 0x42 (decide (c < 64)) (fun d => if coreRetired d c then answer d ch 9 else resetBegin d 1 c (some ch))
def resetStack (d : Dev) (ch s : Nat) : Dev :=
  resetRow d ch 0x43 (decide (s < 8)) (fun d =>
    if stackTooHot d s || d.retired.stackSet.contains s then answer d ch 9 else resetBegin d 3 s (some ch))

/-- A link's registers return to their reset values and it trains again (Table 16.7). -/
def linkReset (d : Dev) (n : Nat) : Dev :=
  let st := fget d blLinkStatusState n
  let d1 := dropRegs d (fun r i => r.info.domain == .link && i == n)
  let d2 := fset (fset d1 blLinkStatusLanes n (ownLanes d1 n)) blLinkStatusState n st
  if st = 0 then linkRetry d2 n else retrain d2 n

/-- RESET_LINK. -/
def resetLink (d : Dev) (ch n : Nat) : Dev := resetRow d ch 0x44 (decide (n < 36)) (fun d =>
  if d.retired.links.contains n then answer d ch 9 else answer (linkReset d n) ch 0)

/-! ### Hold limits (R219, R242) -/

/-- The address at which a started command meets a reset, if it does. -/
def waitAddr (d : Dev) (c : Cmd) : Option Nat :=
  if c.phase ≠ .started || c.issued then none
  else match planBlocks d c.ctx c.entry with
    | some f => if f.status = .resetWait then some f.info else none
    | none =>
      match (runBody (stageReads d c) c.ctx c).done with
      | some (s, info) => if s = Status.resetWait.code then some info else none
      | none => none

/-- The Fennel transfer of a command that waits to land at a unit under reset (R242, R253). -/
def waitXfer (d : Dev) (c : Cmd) : Option FennelXfer :=
  d.fennel.find? (fun x => x.source == c.ring && x.seq == c.seq && resetMet d (localAddr d x.dst) == some .resetWait)

/-- The address that a peer's request names, or at which a chunk waits. -/
def reqAddr (d : Dev) (p : Payload) : Option Nat :=
  match p with
  | .wr o _ _ => peerOffsetAddr o
  | .rdReq o _ _ => peerOffsetAddr o
  | .collData c => (((leafRun d c).bind (fun r => findCmd d r.ring r.seq)).bind (fun cmd =>
      match resolve d cmd.port cmd.groupOf (collBodyOf cmd.entry).dst with
      | .error f => if f.status = .resetWait then some f.info else none
      | .ok t => ((putRanges d t c.pos).findSome? (fun p => accessFails d p.1 p.2 true)).map (·.info)))
  | _ => none

def isDram (a : Nat) : Bool := match regionOf a with | .dram => true | _ => false

/-- LYR_HOLD_LIMIT (`dram` false) and MEM_HOLD_LIMIT (true): the hold limit of what waits has passed. -/
def holdLimit (d : Dev) (dram : Bool) (w : Waiter) : Dev :=
  match w with
  | .command ring seq =>
    (match findCmd d ring seq with
    | none => d
    | some c =>
      match waitAddr d c with
      | some a => if isDram (localAddr d a) = dram then advance (finishWith d c .stoppedByReset) else d
      | none => match waitXfer d c with
        | some x =>
          if isDram (localAddr d x.dst) = dram then
            advance (finishWith { d with fennel := d.fennel.erase x } c .stoppedByReset) else d
        | none => d)
  | .request i =>
    (match d.fab.waitReqs[i]? with
    | none => d
    | some (src, p) =>
      if (reqAddr d p).any (fun a => isDram (localAddr d a) == dram) then
        let d1 := { d with fab := { d.fab with waitReqs := d.fab.waitReqs.eraseIdx i } }
        match p with
        | .collData c =>
          (match leafRun d c with
          | none => d1
          | some r => advance (endRun d1 r Status.stoppedByReset.code 0))
        | _ => sendQuiet d1 src (.errResp (tagOf p) Status.stoppedByReset.code)
      else d)

/-! ### Layer repairs -/

/-- The array or core that a bond port belongs to, as a unit. -/
def retirePort (d : Dev) (p cause : Nat) : Dev :=
  let die := p / 192
  let i := p % 192
  if i < 128 then retireArray d (die * 128 + i) cause else retireCore d (die * 32 + (i - 128) / 2) cause

/-- A lane of a port has failed: its group's spare is switched in, and with the spare in use the port fails (R204). -/
def laneFail (d : Dev) (p g b cause stamp : Nat) : Dev :=
  let lane := laneId p g b
  let fresh := { d with recs := { d.recs with
    laneHits := d.recs.laneHits.filter (fun h => h.1 != lane), errs := d.recs.errs.filter (fun e => e.1 != errKey 9 lane) } }
  let map := fget fresh lyrPortRepairMap p
  if bit map (8 * g + 7) then
    let d2 := registryAdd (fset fresh lyrPortStatusState p 3) 0x02 4 (unitId 0x04 p) (g * 128 + b) stamp
    retirePort (nutmegAt d2 stamp ⟨0x02, 0x02, 1, unitId 0x04 p, 0, 0, g * 128 + b⟩) p 5
  else
    let d2 := fset fresh lyrPortRepairMap p (map + (128 + b) * 2 ^ (8 * g))
    let d3 := quiesceShow (fset d2 lyrPortStatusSparesUsed p (fget d2 lyrPortStatusSparesUsed p + 1)) (p / 192) 3
    let d4 := registryAdd d3 0x01 cause (unitId 0x04 p) (g * 128 + b) stamp
    capChange (nutmegAt d4 stamp ⟨0x02, 0x01, 1, unitId 0x04 p, 0, 0, g * 128 + b⟩)

/-- BOND_LANE_REPAIR of lane `b` of group `g` of port `p`: its attributed corrections within the window have reached
lane_thr (R204). -/
def laneRepair (d : Dev) (p g b : Nat) : Dev :=
  powered d (fun d =>
    let key := errKey 9 (laneId p g b)
    if p ≥ 384 || g ≥ 64 || b ≥ 72 || fget d lyrPortStatusState p == 3
        || !thresholdMet d key (fget d lyrLaneCfgLaneThr 0) (fget d lyrLaneCfgLaneWin 0 * 100000000) then d
    else laneFail d p g b 1 (errStamp d [key]))

/-- The field of LYR_SEG_ROWS that counts the spare rows of a segment. -/
def segField (k off : Nat) : Field :=
  match k with
  | 1 => (match off / 2 ^ 23 % 4 with | 0 => lyrSegRowsL1A0 | 1 => lyrSegRowsL1A1 | 2 => lyrSegRowsL1A2 | _ => lyrSegRowsL1A3)
  | 2 => lyrSegRowsL2 | 3 => lyrSegRowsL3 | _ => lyrSegRowsL4

/-- A row has failed: a spare row of its segment takes its corrected contents, and with no spare left the owner of the
segment is retired (R205). -/
def rowFail (d : Dev) (die k row cause stamp : Nat) : Dev :=
  let off := row * 512
  let core := layerCore die k off
  let f := segField k off
  let d1 := { d with recs := { d.recs with errs := d.recs.errs.filter (fun e => e.1 != errKey 6 (layerRow die k off)) } }
  if fget d1 f core ≥ 64 then
    (if k = 1 then retireArray d1 (layerArray die off) 4 else retireCore d1 core 4)
  else
    let a := layerBase die k + off
    let marks := d1.marks.filter (fun m => !(decide (a ≤ m.1 ∧ m.1 < a + 512) && wordWeight m.2 == 1))
    let unit := if k = 1 then unitId 0x03 (layerArray die off) else unitId 0x02 core
    let d2 := registryAdd { d1 with marks := marks } 0x03 cause unit (k * 2 ^ 24 + row) stamp
    nutmegAt (fset d2 f core (fget d2 f core + 1)) stamp ⟨0x02, 0x03, 1, unit, 0, 0, k * 2 ^ 24 + row⟩

/-- BOND_ROW_REPLACE of a row of layer `k` (1 to 4): its corrections within 24 h have reached row_thr (R205). -/
def rowReplace (d : Dev) (die k row : Nat) : Dev :=
  powered d (fun d =>
    let key := errKey 6 (layerRow die k (row * 512))
    if die ≥ 2 || k = 0 || k > 4 || row ≥ 2 ^ 22 || !backed d (layerBase die k + row * 512)
        || !thresholdMet d key (fget d lyrRowCfgRowThr 0) day then d
    else rowFail d die k row 1 (errStamp d [key]))

/-! ### Pseudo-channels (R236 to R240) -/

/-- The number of a physical pseudo-channel's logical one in the redirect table: stack * 64 + index. -/
def redirectPc (d : Dev) (c : Nat) : Nat := let l := backedPc d c; l / 66 * 64 + l % 66

/-- The first spare of a stack that is free and that no copy in progress goes to. -/
def freeSpare (d : Dev) (s : Nat) : Option Nat :=
  [s * 66 + 64, s * 66 + 65].find? (fun c => fget d memPcEccState c == 3 && !d.moves.any (fun m => m.spare == some c))

/-- The bytes of DRAM that `p` picks are gone (R238, R239). (DESIGN CHOICE 2) -/
def dropDram (d : Dev) (p : Nat → Bool) : Dev :=
  let gone := fun (a : Nat) => (match regionOf a with | .dram => true | _ => false) && p a
  { d with mem := smapDrop gone d.mem, marks := smapDrop gone d.marks }

/-- Lost data: its record, its event, and the condition in the open epochs that touched it (R239). (DEDUCED 47) -/
def dataLost (d : Dev) (unit : Nat) (lost : List (Nat × Nat)) (meets : Nat × Nat → Bool) : Dev :=
  lossOpenBy (evtSet (nutmeg d ⟨0x03, 1, 2, unit, 0, 0, (lost.head?.map (·.1)).getD 0⟩) 11) lost meets

/-- Capacity falls by `n` pseudo-channels: the top of DRAM is freed, and its data lost (R238 step 1, R239). -/
def freeTop (d : Dev) (n unit : Nat) : Dev :=
  let high := dramBytes d
  let d1 := fset d memCapacityRetired 0 (min 512 (fget d memCapacityRetired 0 + n))
  let low := dramBytes d1
  let d2 := capChange (dropDram d1 (fun a => decide (low ≤ a)))
  dataLost d2 unit [(low, high - low)] (fun r => rangesShare [r] [(low, high - low)])

/-- MEM_STACK_STATUS.moving of a stack: the oldest copy of it in progress (1 to a spare, 2 within the capacity), or none. -/
def movingShow (d : Dev) (s : Nat) : Dev :=
  fset d memStackStatusMoving s
    (match d.moves.find? (fun x => x.pc / 66 == s) with | none => 0 | some x => if x.spare.isSome then 1 else 2)

/-- The retirement of physical pseudo-channel `c` begins: a copy to a spare, or a move within the reduced capacity. -/
def pcRetireBegin (d : Dev) (c cause stamp : Nat) : Dev :=
  match freeSpare d (c / 66) with
  | some x => movingShow { d with moves := d.moves ++ [⟨c, some x, 0, cause, stamp⟩] } (c / 66)
  | none =>
    let d1 := freeTop d 1 (unitId 0x07 c)
    movingShow { d1 with moves := d1.moves ++ [⟨c, none, fget d1 memCapacityRetired 0, cause, stamp⟩] } (c / 66)

/-- A pseudo-channel in service and not on its way out. -/
def pcLive (d : Dev) (c : Nat) : Bool := decide (c < 528) && fget d memPcEccState c == 0 && !d.moves.any (fun m => m.pc == c)

/-- When the pseudo-channel took over from the one it replaced; nothing where it replaced none. -/
def sparedAt (d : Dev) (c : Nat) : Option Nat :=
  ((d.nv.registry.filter (fun e => e.kind == 6 && e.detail == c)).getLast?).map (·.stamp)

/-- PC_RETIRE: the errors of a logical pseudo-channel within 24 h reach a threshold, with one since the last sparing (R236).
(DEDUCED 65) -/
def pcRetire (d : Dev) (c : Nat) : Dev :=
  powered d (fun d =>
    let l := backedPc d c
    let exceeds := fun (key n : Nat) => thresholdMet d key n day && (sparedAt d c).all (fun t => decide (t < errStamp d [key]))
    let met := [(errKey 0 l, fget d memPcCfgCorrThr 0), (errKey 1 l, fget d memPcCfgUncThr 0)].filter (fun x => exceeds x.1 x.2)
    if pcLive d c && !met.isEmpty then pcRetireBegin d c 1 (errStamp d (met.map (·.1))) else d)

/-- Blocks of a pseudo-channel that can be corrected are written back whole (R239). -/
def correctPc (d : Dev) (c : Nat) : Dev :=
  { d with marks := d.marks.filter (fun m =>
      !((match regionOf m.1 with | .dram => true | _ => false) && decide (rsWeight m.2 ≤ 3) && physPc d m.1 == c)) }

/-- The copies that stand between the start and the end of one. -/
def moveOf (d : Dev) (c : Nat) (spare : Bool) : Option PcMove := d.moves.find? (fun m => m.pc == c && m.spare.isSome == spare)

/-- A copy of a stack has ended. -/
def moveEnd (d : Dev) (m : PcMove) : Dev := movingShow { d with moves := d.moves.erase m } (m.pc / 66)

/-- The spare `x` takes the place of physical pseudo-channel `c` (R227, R237). -/
def spareTakes (d : Dev) (c x cause stamp : Nat) : Dev :=
  let d1 := { d with retired := { d.retired with spared := smapPut d.retired.spared (backedPc d c) x } }
  let d2 := fset (fset d1 memPcEccState c 1) memPcEccState x 0
  let d3 := fset d2 memStackStatusSparesUsed (c / 66) (fget d2 memStackStatusSparesUsed (c / 66) + 1)
  retireRecord d3 0x06 cause (unitId 0x07 c) x 1 stamp

/-- The granules of physical pseudo-channel `c` lie in their places of retirement number `k` (R238 steps 2 to 4, R240). -/
def capacityTakes (d : Dev) (c k cause stamp : Nat) : Dev :=
  let d1 := { d with retired := { d.retired with capped := [redirectPc d c] :: d.retired.capped } }
  retireRecord (fset d1 memPcEccState c 2) 0x07 cause (unitId 0x07 c) k 1 stamp

/-- A copy or a move that a stack takes part in pauses while its base is under reset (R243): a copy is of one stack, a move
may reach all of them. -/
def movePaused (d : Dev) (m : PcMove) : Bool :=
  if m.spare.isSome then inReset d 3 (m.pc / 66) else (List.range 8).any (inReset d 3)

/-- SPARE_COPY_DONE: the spare takes the address (R237). (DEDUCED 47) -/
def spareDone (d : Dev) (c : Nat) : Dev :=
  match moveOf d c true with
  | none => d
  | some m =>
    if movePaused d m then d
    else spareTakes (moveEnd (correctPc d c) m) c (m.spare.getD 0) m.cause m.stamp

/-- A range lies within one granule of physical pseudo-channel `c`. -/
def granuleOf (d : Dev) (c : Nat) (r : Nat × Nat) : Bool :=
  decide (0 < r.2) && decide (r.1 / 4096 = (r.1 + r.2 - 1) / 4096) && decide (r.1 + r.2 ≤ dramBytes d) && physPc d r.1 == c

/-- CAPACITY_MOVE_DONE: the granules of `c` have moved, the move of an earlier retirement before that of a later one; the
ranges of `lost` (address, length) could not be read and were written with zeros (R239). (DEDUCED 47) -/
def capacityDone (d : Dev) (c : Nat) (lost : List (Nat × Nat)) : Dev :=
  match moveOf d c false with
  | none => d
  | some m =>
    if movePaused d m || d.moves.any (fun x => x.spare.isNone && decide (x.k < m.k)) then d
    else
      let real := lost.filter (granuleOf d c)
      let d1 := capacityTakes (moveEnd (correctPc d c) m) c m.k m.cause m.stamp
      real.foldl (fun d r =>
        dataLost (store d r.1 (List.replicate r.2 0)) (unitId 0x07 c) [r] (fun x => rangesShare [x] [r])) d1

/-- The granules that lie in a stack. -/
def onStack (d : Dev) (s a : Nat) : Bool := (dramPlace d a).1 == s

/-- A range has a granule in a stack. -/
def rangeOnStack (d : Dev) (s : Nat) (r : Nat × Nat) : Bool :=
  decide (0 < r.2) && decide (r.1 < 0x9000000000)
  && (List.range ((r.1 + r.2 - 1) / 4096 - r.1 / 4096 + 1)).any (fun i => onStack d s (r.1 + 4096 * i))

/-- A stack is out of use with its pseudo-channels, and its granules that stay backed lie elsewhere from now on (R238,
R240). -/
def stackOut (d : Dev) (s : Nat) : Dev :=
  let d1 := { d with retired := { d.retired with
    stackSet := insertNat d.retired.stackSet s, capped := (List.range 64).map (fun n => s * 64 + n) :: d.retired.capped } }
  (List.range 66).foldl (fun d n => fset d memPcEccState (s * 66 + n) 2) (fset d1 memStackStatusRetired s 1)

/-- A stack in use is retired: what it held is lost (R239, R240). Copies within it end. (DEDUCED 47) -/
def retireStack (d : Dev) (s cause : Nat) : Dev :=
  if s ≥ 8 || d.retired.stackSet.contains s then d
  else
    let held := rangeOnStack d s
    let d0 := dropDram { d with moves := d.moves.filter (fun m => m.pc / 66 != s) } (onStack d s)
    let d1 := dataLost (freeTop d0 64 (unitId 0x06 s)) (unitId 0x06 s) [] held
    retireRecord (movingShow (stackOut d1 s) s) 0x08 cause (unitId 0x06 s) 0 2 d.time

/-! ### Self-tests of start-up (R206, R236, R240, R415) -/

/-- Capacity falls by `n` pseudo-channels before any access: nothing is lost, since contents are undefined (R240). -/
def capFalls (d : Dev) (n : Nat) : Dev := fset d memCapacityRetired 0 (min 512 (fget d memCapacityRetired 0 + n))

/-- What start-up does about a finding: kind of Table 15.3, unit, detail. A pseudo-channel takes a spare or reduces capacity
and copies nothing (R240). (DESIGN CHOICE 79) -/
def startDefect (d : Dev) (x : Nat × Nat × Nat) : Dev :=
  let (kind, u, detail) := x
  match kind with
  | 0x01 => if u < 384 && detail < 8192 && detail % 128 < 72 && fget d lyrPortStatusState u != 3 then
      laneFail d u (detail / 128) (detail % 128) 2 d.time else d
  | 0x03 => if u < 8 && detail < 2 ^ 22 && backed d (layerBase (u / 4) (u % 4 + 1) + detail * 512) then
      rowFail d (u / 4) (u % 4 + 1) detail 2 d.time else d
  | 0x06 | 0x07 => if !pcLive d u then d else match freeSpare d (u / 66) with
      | some s => spareTakes d u s 2 d.time
      | none => let d1 := capFalls d 1; capacityTakes d1 u (fget d1 memCapacityRetired 0) 2 d.time
  | 0x08 => if u ≥ 8 || d.retired.stackSet.contains u then d
      else retireRecord (stackOut (capFalls d 64) u) 0x08 2 (unitId 0x06 u) 0 2 d.time
  | 0x09 => retireArray d u 2
  | 0x0A => retireCore d u 2
  | _ => d

/-- Step 5 of Table 16.6: after power-on the march tests and the BIST of every resource, after a warm package reset the lane
test only (R206, R244). -/
def selfTest (d : Dev) (cold : Bool) : Dev :=
  let tested := fun (x : Nat × Nat × Nat) => cold || x.1 == 0x01
  (d.env.defects.filter tested).foldl startDefect
    { d with env := { d.env with defects := d.env.defects.filter (fun x => !tested x) } }

/-- The threshold of R415 for a core: corrected and uncorrectable errors. (DEDUCED 65) -/
def coreOver (d : Dev) (c : Nat) : Bool :=
  thresholdMet d (errKey 2 c) (fget d cfgRetireCfgCoreCorrThr 0) day || thresholdMet d (errKey 3 c) (fget d cfgRetireCfgCoreUncThr 0) day

/-- The thresholds of R415 for an array: parity errors and second-fetch failures. -/
def arrayOver (d : Dev) (i : Nat) : Bool :=
  thresholdMet d (errKey 7 i) (fget d cfgRetireCfgArrParThr 0) day || thresholdMet d (errKey 8 i) (fget d cfgRetireCfgArrUncThr 0) day

/-- RESOURCE_RETIRE of a unit of Table 15.6 with a cause of Table 15.3 (R416). -/
def resourceRetire (d : Dev) (type i cause : Nat) : Dev :=
  powered d (fun d =>
    match type with
    | 0x02 => if cause != 1 || coreOver d i then retireCore d i cause else d
    | 0x03 => if cause != 1 || arrayOver d i then retireArray d i cause else d
    | 0x04 => if i ≥ 384 || fget d lyrPortStatusState i == 3 then d
        else retirePort (registryAdd (fset d lyrPortStatusState i 3) 0x02 cause (unitId 0x04 i) 0 d.time) i 5
    | 0x06 => retireStack d i cause
    | 0x07 => if pcLive d i && cause != 1 then pcRetireBegin d i cause d.time else pcRetire d i
    | 0x08 => retireLink d i cause
    | 0x09 => retireLane d (i / 4) (i % 4) cause
    | _ => d)

end Sys2Proof.Machine
end

