-- ==== Sys2Proof/Machine/Access.lean ====
section
/-! DEFINITION. How registers are reached: which register an offset names (R452, R453), what a read returns (Table 0.5, R455,
R463), and what a write of some of a register's bits sets (R8, R10, R454). -/
namespace Sys2Proof.Machine

/-! ### Offsets -/

/-- The instance of a register that lies at an offset of its BAR, and the byte within it. -/
def regHere (r : Reg) (off : Nat) : Option (Nat × Nat) :=
  let x := r.info
  if off < x.offset then none
  else
    let o := off - x.offset
    let i := if x.stride = 0 then 0 else o / x.stride
    let b := if x.stride = 0 then o else o % x.stride
    if i < x.count ∧ b < x.width / 8 then some (i, b) else none

/-- The register, instance and byte at an offset of a BAR; none for reserved space. -/
def regAt (bar off : Nat) : Option (Reg × Nat × Nat) :=
  Reg.all.findSome? (fun r => if r.info.bar = bar then (regHere r off).map (fun x => (r, x.1, x.2)) else none)

/-! ### Reads -/

/-- Counters that stand outside the register file. -/
def countedFields : List Field :=
  [safTruncCntTrunc, safFloorCntFloor, safSpillCntSpill, safOvfCntOvf, arrVectorsVectors, arrBusyCyclesBusy,
    arrFrontBubbleBubble, arrFeedStallStall, cardRowsRows, dmaEngBytesBytes, dmaEngErrFailed, fenStatusTransfers]

/-- HP_DEV_SUMMARY (R463). -/
def devSummary (d : Dev) : Nat :=
  let put := fun (a : Nat) (f : Field) (v : Nat) => setBits a f.hi f.lo v
  let groups := sumBits 16 (fun g => groupPhase d g != .idle)
  let thermal := [0, 1].any (throttled d)
  let warn := [0, 1].any (warned d)
  let held := (List.range 6).any (fun k => compState d k == 3)
  let bad := countIn 16384 (fun r => ringState d r == 3)
  put (put (put (put (put (put (put (put (put (put 0 hpDevSummaryEpochsOpen groups) hpDevSummaryHp1State (portState d 1))
    hpDevSummaryHp0State (portState d 0)) hpDevSummaryThrottle (b2n thermal)) hpDevSummaryWarning (b2n warn))
    hpDevSummaryCompHeld (b2n held)) hpDevSummaryPublished (fget d capHdrPublished 0))
    hpDevSummaryRecovery (fget d cfgBootStatusRecovery 0)) hpDevSummaryFwState (fwState d)) hpDevSummaryRingErrors bad

/-- A register of a retired core or array (R455): its instance belongs to one. -/
def regRetired (d : Dev) (r : Reg) (i : Nat) : Bool :=
  r.info.domain == .core && (if r.info.count = 256 then arrayRetired d i else coreRetired d i)

/-- Fields that a write triggers and that read as zero. -/
def woMask (r : Reg) : Nat := (r.fields.filter (fun f => f.acc == .wo)).foldl (fun a f => a + (2 ^ f.width - 1) * 2 ^ f.lo) 0

/-- Status fields that show a unit at work on a command in flight, with the number of values that they take. The model has
no time inside a command, so that they read a free value while one is in flight (DESIGN CHOICE 35). -/
def liveFields : List (Field × Nat) :=
  [(arrStatusFmtStat, 16), (arrStatusFmtStream, 16), (arrStatusLanibifel, 2), (arrStatusSliceExt, 2),
   (arrStatusSliceMode, 2), (arrStatusHoldActive, 2), (arrStatusGang, 2), (arrStatusFrontActive, 2),
   (arrStatusShadowFull, 2), (arrStatusState, 3), (cardStatusKind, 16), (cardStatusBuffered, 2), (cardStatusState, 3),
   (dmaEngStatusBusy, 2), (dmaEngStatusInFlight, 129), (fenStatusQueued, 256), (fenStatusSharePct, 101),
   (safLaneStatusBank0, 4), (safLaneStatusBank1, 4), (safLaneStatusMode, 3)]

/-- A command has started and its record is not yet written, or a Fennel transfer is under way. -/
def unitsBusy (d : Dev) : Bool := d.eng.taken.any (fun c => c.phase != .waiting) || !d.fennel.isEmpty

/-- A slice command in flight has a tile of the 9-slice schedule (R55). -/
def sliceExtended (d : Dev) : Bool :=
  d.eng.taken.any (fun c => c.phase != .waiting && (c.opcode == some .sliceMm || c.opcode == some .conv) && bit c.info 5)

/-- The value of a register with its live fields as the units in flight leave them. (DESIGN CHOICE 35) -/
def withLive (d : Dev) (r : Reg) (i v : Nat) : Nat :=
  if !unitsBusy d then v
  else (liveFields.filter (fun f => f.1.reg = r)).foldl (fun v f =>
    if f.1 = arrStatusSliceExt ∧ sliceExtended d = false then v
    else setBits v f.1.hi f.1.lo (Config.liveStatus (regKey r i) f.1.lo d.time % f.2)) v

/-- LYR_PORT_STATUS: a port that quiesces is idle once it has drained (Table 7.3, step 3). -/
def portShown (d : Dev) (p : Nat) : Nat :=
  let drain := fget d lyrQuiesceDrainNs (p / 192)
  let drained := fun (r : ResetRun) =>
    (r.kind == 1 || r.kind == 2) && (bondPorts r.kind r.unit).contains p && decide (r.t0 + drain ≤ d.time)
  let v := regGet d .lyrPortStatus p
  if fget d lyrPortStatusState p = 1 ∧ d.resets.any drained then setBits v lyrPortStatusState.hi lyrPortStatusState.lo 2 else v

/-- MEM_STACK_STATUS: from t0 + 1 µs a stack is in base reset or, after its release, retraining (Table 8.3); no row says when
it is released. (DESIGN CHOICE 35) -/
def stackShown (d : Dev) (s : Nat) : Nat :=
  let v := regGet d .memStackStatus s
  if d.resets.any (fun r => r.kind == 3 && r.unit == s && decide (r.t0 + 1000 ≤ d.time)) then
    setBits v memStackStatusState.hi memStackStatusState.lo (1 + Config.liveStatus (regKey .memStackStatus s) 0 d.time % 2)
  else v

/-- What a read of instance `i` of a register returns on a path: 0 and 1 the host ports, 2 the register network. -/
def readReg (d : Dev) (path : Nat) (r : Reg) (i : Nat) : Nat :=
  match r with
  | .aniTimebase => d.time
  | .idPort => path
  | .hpDevSummary => devSummary d
  | .hpRingErr => sumBits 16384 (fun k => ringState d k == 3)
  | .kringDbSq => fget d kringCountsSqTail i
  | .kringDbCq => fget d kringCountsCqHead i
  | .hpPortState => setBits (regGet d r i) 7 7 (b2n (!(portGroups d i).isEmpty))
  | .lyrPortStatus => portShown d i
  | .memStackStatus => stackShown d i
  | .ageRegion =>
    match d.nv.margins[i]? with
    | some m => setBits (regGet d .ageRegion i) ageRegionHours.hi ageRegionHours.lo (hoursNow d m)
    | none => regGet d .ageRegion i
  | .lyrThm => regGet (flagShow d i) .lyrThm i
  | .cardSideValid => if coreRetired d i then 0 else (d.sideValid.filter (fun p => p / 1024 == i)).length
  | _ =>
    if regRetired d r i then (if r = .arrStatus then 3 else regReset r i)
    else
      let v := withLive d r i <| countedFields.foldl (fun a f => if f.reg = r then setBits a f.hi f.lo (cntGet d f i) else a) (regGet d r i)
      v - (v &&& woMask r)

/-! ### Writes -/

/-- Bits [lo + n - 1 : lo] of a field's register, as the field sees them: the field's value with those bits replaced by the
ones of `v`, which holds the part from bit `lo`. -/
def fieldPart (d : Dev) (f : Field) (i lo n v : Nat) : Nat :=
  let a := max f.lo lo
  let b := min (f.hi + 1) (lo + n)
  setBits (fget d f i) (b - 1 - f.lo) (a - f.lo) (bits v (b - 1 - lo) (a - lo))

/-- A field meets a part of its register. -/
def fieldMeets (f : Field) (lo n : Nat) : Bool := decide (f.lo < lo + n ∧ lo < f.hi + 1)

/-- What a write does to one field by its access type; RWL fields are Cumin's alone (R444, R10), and a value outside the
field's range is ignored (R8). (DEDUCED 25) -/
def writeField (d : Dev) (f : Field) (i lo n v : Nat) : Dev :=
  let x := fieldPart d f i lo n v
  let ones := fieldPart (fset d f i 0) f i lo n v
  match f.acc with
  | .rw => if f.min ≤ x ∧ x ≤ f.max then fset d f i x else d
  | .w1c => fset d f i (fget d f i - (fget d f i &&& ones))
  | .w1s => fset d f i (fget d f i ||| ones)
  | _ => d

/-- A write of `n` bits from bit `lo` of a register. -/
def writePart (d : Dev) (r : Reg) (i lo n v : Nat) : Dev :=
  (r.fields.filter (fun f => fieldMeets f lo n)).foldl (fun d f => writeField d f i lo n v) d

/-- The bits of a write action field: what is written to it, 0 when the part does not meet it. -/
def actionBits (f : Field) (lo n v : Nat) : Nat :=
  if decide (lo ≤ f.lo) && decide (f.hi < lo + n) then bits v (f.hi - lo) (f.lo - lo) else 0

end Sys2Proof.Machine
end

