-- ==== Sys2Proof/Machine/Security.lean ====
section
/-! DEFINITION. Configuration images (R434, R435), the secure services of Table 16.8 (R438 to R441, R449 to R451) and the
clearing of pinned records (R425). -/
namespace Sys2Proof.Machine

/-! ### Configuration images -/

/-- A field that an image may set (R435). -/
def configurable (f : Field) : Bool := f.acc == .rwl || f.cfg

/-- The configurable fields of a register that a part of 64 bits, or of the whole register when it is narrower, meets. -/
def configFields (r : Reg) (b : Nat) : List Field :=
  r.fields.filter (fun f => configurable f && fieldMeets f (8 * b) (min 64 r.info.width))

/-- The bits of a field within a part of `n` bits from bit `lo`. -/
def fieldMask (f : Field) (lo n : Nat) : Nat :=
  let a := max f.lo lo
  let b := min (f.hi + 1) (lo + n)
  (2 ^ (b - a) - 1) * 2 ^ (a - lo)

/-- An entry of a type 0x01 section is admissible: it names a part of a register, only configurable bits of it, and no value
outside the range of an RWL field. (DEDUCED 25) -/
def configValueOk (e : Nat × Nat) : Bool :=
  match regAt 0 e.1 with
  | none => false
  | some (r, i, b) =>
    let n := min 64 r.info.width
    let fs := configFields r b
    let mask := fs.foldl (fun a f => a ||| fieldMask f (8 * b) n) 0
    let inRange := fun (f : Field) =>
      let x := fieldPart devBlank f i (8 * b) n e.2
      f.acc != .rwl || decide (f.min ≤ x ∧ x ≤ f.max)
    b % 4 == 0 && !fs.isEmpty && (e.2 &&& mask) == e.2 && fs.all inRange

/-- Load an entry: the configurable bits of its part take its value (Table 16.6, step 3). -/
def loadConfigValue (d : Dev) (e : Nat × Nat) : Dev :=
  match regAt 0 e.1 with
  | none => d
  | some (r, i, b) =>
    (configFields r b).foldl (fun d f => fset d f i (fieldPart d f i (8 * b) (min 64 r.info.width) e.2)) d

/-- Cut bytes into pieces of `n`. -/
def cutBytes (fuel n : Nat) (bs : List Byte) : List (List Byte) :=
  match fuel with
  | 0 => []
  | k + 1 => if bs.length < n ∨ n = 0 then [] else bs.take n :: cutBytes k n (bs.drop n)

/-- The sections of an image by type and contents, in directory order. -/
def configSections (bs : List Byte) : List (Nat × List Byte) :=
  (List.range (byteWord bs 0x10 2)).map (fun i =>
    let o := 0x40 + 16 * i
    (byteWord bs o 4, (bs.drop (byteWord bs (o + 12) 4)).take (byteWord bs (o + 8) 4)))

/-- The directory of an image is well formed (R435). -/
def configDirOk (bs : List Byte) : Bool :=
  let size := byteWord bs 0x0C 4
  (List.range (byteWord bs 0x10 2)).all (fun i =>
    let o := 0x40 + 16 * i
    decide (1 ≤ byteWord bs o 4 ∧ byteWord bs o 4 ≤ 6) && decide (byteWord bs (o + 12) 4 + byteWord bs (o + 8) 4 ≤ size))

/-- The contents of the sections of a type, the first of them. -/
def sectionOf (ss : List (Nat × List Byte)) (t : Nat) : Option (List Byte) := (ss.find? (fun s => s.1 == t)).map (·.2)

/-- The register entries of an image. -/
def configValues (ss : List (Nat × List Byte)) : List (Nat × Nat) :=
  (ss.filter (fun s => s.1 == 1)).flatMap (fun s =>
    (cutBytes (s.2.length / 12) 12 s.2).map (fun e => (byteWord e 0 4, byteWord e 4 8)))

/-- A valid image as data (R434, R435); a debug key entry is taken as 57 bytes of key and one of level, a permitted policy
request as its function code (PRESUMED). (PRESUMED 49) -/
def configImage (bs : List Byte) : Option ConfigImage :=
  let size := byteWord bs 0x0C 4
  let n := byteWord bs 0x10 2
  let flags := byteWord bs 6 2
  let seq := byteWord bs 8 4
  let isSigned := flags == 1
  let formed := byteWord bs 0 4 == 0x47464354 && byteWord bs 4 2 == 1 && decide (flags ≤ 1)
    && (if isSigned then decide (2 ^ 31 ≤ seq) else decide (1 ≤ seq ∧ seq < 2 ^ 31))
    && decide (1 ≤ n ∧ n ≤ 64) && decide (0x80 + 16 * n ≤ size) && byteWord bs 0x14 0x2C == 0
    && decide (size + (if isSigned then 290 else 0) ≤ bs.length) && decide (bs.length ≤ 2 ^ 24)
  if !formed || !configDirOk bs then none
  else
    let digest := leNat (shake256 (bs.take (size - 64)) 64)
    let key := (bs.drop size).take 57
    let certOk := Config.ed448Verify (Config.trustedKey 0) (leNat (shake256 key 64)) (byteWord bs (size + 62) 114) 2
    let sigOk := Config.ed448Verify (leNat key) digest (byteWord bs (size + 176) 114) 3
    let ss := configSections bs
    let values := configValues ss
    let whole := ss.all (fun s => s.1 != 1 || s.2.length % 12 == 0)
    if byteWord bs (size - 64) 64 ≠ digest || (isSigned && !(certOk && sigOk)) || !whole || !values.all configValueOk then none
    else
      some ⟨seq, isSigned, digest, values, ((sectionOf ss 2).map leNat).getD 0,
        ((sectionOf ss 3).map (fun b => (cutBytes 32 4 b).map leNat)).getD [],
        (sectionOf ss 4).map leNat,
        ((sectionOf ss 5).map (fun b => (cutBytes 4 58 b).map (fun e => (byteWord e 0 57, byteWord e 57 1)))).getD [],
        (sectionOf ss 6).map (fun b => b.map (·.toNat))⟩

/-- The stored counters and floors shown in CFG_FLOORS. -/
def floorsShow (d : Dev) : Dev :=
  fset (fset d cfgFloorsFwFloor 0 (d.nv.counters.getD 0 0)) cfgFloorsCfgFloor 0 (d.nv.counters.getD 1 0)

/-- Raise counter `k` of the flash to a value above it. -/
def raiseCounter (d : Dev) (k v : Nat) : Dev :=
  { d with nv := { d.nv with counters := listSet d.nv.counters k (max (d.nv.counters.getD k 0) v) } }

/-- The keys of the device are at hand; without them counters can be neither read nor raised (R440, R441, R451). -/
def keysOk (d : Dev) : Bool := d.fw.keysReady && !d.fw.keysZeroed

/-- R440: QUOTE and SIGN are possible. -/
def canSign (d : Dev) : Bool := keysOk d && d.nv.pufOk && d.nv.idOk

/-! ### Attestation and keys -/

/-- The payload of the request of a channel. -/
def reqBytes (d : Dev) (ch off n : Nat) : List Byte := mbxRead d ch (0x1010 + off) n

/-- Bytes 0x000 to 0x15F of a quote (Table 16.9) over the nonce and user data of the request; a digest with no live image to
stand for is free. (DESIGN CHOICE 48) -/
def quoteBody (d : Dev) (ch : Nat) : List Byte × Dev :=
  let fw := fwBank d (runBank d)
  let conf := liveConfig d
  let flags := 1 + b2n (fw.any (·.countersigned)) * 2 ^ 16 + b2n (conf.any (·.isSigned)) * 2 ^ 17
    + fget d cfgBootStatusRecovery 0 * 2 ^ 18 + fget d pwrStatusProfile 0 * 2 ^ 19 + fget d cfgDebugLevel 0 * 2 ^ 20
  let (x, d1) := match conf with | some c => (c.digest, d) | none => takeFree d 512
  let words := [fget d aniPowerCyclesCount 0, fget d mbxFwVersionSecVersion 0, fget d cfgFloorsFwFloor 0, fget d cfgImageStatusSeq 0,
    fget d cfgFloorsCfgFloor 0, fget d cfgRegistryStatusGeneration 0, fget d cfgRegistryStatusEntries 0, fget d capHdrGeneration 0]
  (leBytes 4 0x50595451 ++ leBytes 4 flags ++ reqBytes d ch 0 32 ++ reqBytes d ch 32 64 ++ leBytes 16 Config.serialNumber.toNat
    ++ leBytes 8 d.time ++ words.flatMap (leBytes 4) ++ leBytes 64 ((fw.map (·.digest)).getD 0) ++ leBytes 64 x
    ++ leBytes 64 Config.calibrationDigest, d1)

/-- A signature with the identity key under a context. -/
def idSign (msg ctx : Nat) : Nat := (Config.ed448Sign Config.identityKey msg ctx).toNat

/-- QUOTE (R449). -/
def secQuote (d : Dev) (ch : Nat) : Dev :=
  servedFn d ch 0x02 0x01 (fun d => driverGate d ch (fun d =>
    if !canSign d then answer d ch 4
    else
      let (body, d1) := quoteBody d ch
      respond d1 ch 0 (body ++ leBytes 114 (idSign (leNat (shake256 body 64)) 6) ++ List.replicate 6 0)))

/-- GET_CERT (R440). -/
def secCert (d : Dev) (ch : Nat) : Dev :=
  servedFn d ch 0x02 0x02 (fun d => driverGate d ch (fun d => respond d ch 0 Config.certificate))

/-- SIGN of a 64-byte digest (R449). -/
def secSign (d : Dev) (ch : Nat) : Dev :=
  servedFn d ch 0x03 0x01 (fun d => driverGate d ch (fun d =>
    if !canSign d then answer d ch 4
    else if reqWord d ch 8 4 ≠ 64 then answer d ch 5
    else respond d ch 0 (leBytes 114 (idSign (leNat (reqBytes d ch 0 64)) 7))))

/-- R438: an image may be staged. (DEDUCED 50) -/
def stageable (d : Dev) (c : ConfigImage) : Bool :=
  let flr := d.nv.counters.getD 1 0
  let above := match liveConfig d with | some l => decide (l.seq < c.seq) | none => true
  above && decide (flr ≤ c.seq) && (c.isSigned || decide (flr < 2 ^ 31))

/-- CONFIG_STAGE of the image at a host address. -/
def secStage (d : Dev) (ch addr len : Nat) : Dev :=
  servedFn d ch 0x03 0x02 (fun d => driverGate d ch (fun d =>
    match hostImage d (fget d mbxMapInitiator ch) addr len with
    | .error r => answer d ch r
    | .ok bs =>
      match configImage bs with
      | none => answer d ch 0x0A
      | some c =>
        if !stageable d c then answer d ch 0x0A
        else
          let b := 1 - fget d cfgImageStatusBank 0
          answer { d with nv := { d.nv with banks := listSet d.nv.banks b (some c) } } ch 0))

/-- FLOOR_RAISE (Table 16.5). -/
def secFloor (d : Dev) (ch : Nat) : Dev :=
  servedFn d ch 0x03 0x03 (fun d => driverGate d ch (fun d =>
    if !(keysOk d && d.nv.flashOk) then answer d ch 4
    else
      let d1 := floorsShow (raiseCounter d 0 (fget d mbxFwVersionSecVersion 0))
      respond d1 ch 0 (leBytes 4 (d1.nv.counters.getD 0 0))))

/-! ### Debug unlock -/

/-- GET_CHALLENGE: counter 3 is raised by 1 and a fresh challenge given (R450). -/
def secChallenge (d : Dev) (ch : Nat) : Dev :=
  servedFn d ch 0x04 0x01 (fun d =>
    if !(keysOk d && d.nv.flashOk) then answer d ch 4
    else
      let n := d.nv.counters.getD 3 0 + 1
      let x := (Config.challenge d.free).toNat
      let d1 := raiseCounter { d with free := d.free + 1, fw := { d.fw with challenge := some (x, n) } } 3 n
      respond d1 ch 0 (leBytes 16 Config.serialNumber.toNat ++ leBytes 32 x ++ leBytes 4 n))

/-- The level that a token is granted (R450, R451): 0 for a failure. (DESIGN CHOICE 48) -/
def unlockLevel (d : Dev) (t : List Byte) : Nat :=
  let level := byteWord t 4 4 % 4
  let keyNo := byteWord t 0x3C 4 % 256
  let keys := ((liveConfig d).map (·.debugKeys)).getD []
  let key := if keyNo = 0xFF then some (Config.trustedKey 0, 2) else if keyNo < 4 then keys[keyNo]? else none
  let fresh := match d.fw.challenge with
    | some (x, n) => byteWord t 0x18 32 == x && byteWord t 0x38 4 == n
    | none => false
  match key with
  | none => 0
  | some (k, most) =>
    let sig := Config.ed448Verify k (leNat (shake256 (t.take 0x40) 64)) (byteWord t 0x40 114) 8
    if byteWord t 0 4 == 0x47554244 && byteWord t 8 16 == Config.serialNumber.toNat && fresh && sig
        && decide (1 ≤ level ∧ level ≤ 2 ∧ level ≤ most) && !(level == 2 && ringsEnabled d) then level else 0

/-- UNLOCK with the token of the request. -/
def secUnlock (d : Dev) (ch : Nat) : Dev :=
  servedFn d ch 0x04 0x02 (fun d =>
    let t := reqBytes d ch 0 0xC0
    let level := unlockLevel d t
    let d1 := { d with fw := { d.fw with challenge := none } }
    if level = 0 then answer d1 ch 4
    else
      let d2 := fset (fset d1 cfgDebugLevel 0 level) cfgDebugKey 0 (byteWord t 0x3C 4 % 256)
      let d3 := nutmeg d2 ⟨0x08, 0x10, 2, 0, 0, 0, level⟩
      let d4 := if level = 2 then fset { d3 with fw := { d3.fw with keysZeroed := true } } cfgDebugKeysZeroed 0 1 else d3
      respond d4 ch 0 (leBytes 4 level))

/-! ### Pinned records -/

/-- CLEAR_PINNED: pinned records whose seq is at or below the one named are cleared, with their mirror (R425).
(DESIGN CHOICE 40) -/
def clearPinned (d : Dev) (ch seq : Nat) : Dev :=
  served d ch 0x11 (fun d =>
    let keep := fun (r : NutRec) => !(decide (r.slot < 4096) && decide (r.seq ≤ seq))
    let d1 := { d with recs := { d.recs with nut := d.recs.nut.filter keep }, nv := { d.nv with mirror := d.nv.mirror.filter keep } }
    let used := (d1.recs.nut.filter (fun r => decide (r.slot < 4096))).length
    answer (fset (fset d1 nutStatusPinnedUsed 0 used) nutStatusPinnedFull 0 (b2n (decide (used = 4096)))) ch 0)

end Sys2Proof.Machine
end

