-- ==== Sys2Proof/Machine/Startup.lean ====
section
/-! DEFINITION. Start-up (R436, R437, R442 to R445), the loss and return of power (R209, R388, R403, R404), the warm package
reset (R446), and sleep (R405, R456). -/
namespace Sys2Proof.Machine

/-! ### Step 2: the configuration -/

/-- The bank whose valid image is chosen: the greater seq in serial-number arithmetic (R436). (DEDUCED 50) -/
def chooseBank (nv : NonVol) : Option Nat :=
  match (nv.banks[0]?).getD none, (nv.banks[1]?).getD none with
  | none, none => none
  | some _, none => some 0
  | none, some _ => some 1
  | some a, some b => if 0 < serialDiff b.seq a.seq ∧ serialDiff b.seq a.seq < 2 ^ 31 then some 1 else some 0

def bankImage (nv : NonVol) (b : Nat) : Option ConfigImage := (nv.banks[b]?).getD none

/-- Why start-up continues in recovery (CFG_BOOT_STATUS.fail), 0 for not at all; of several causes, the first met.
(DEDUCED 50) (DEDUCED 51) -/
def recoveryCause (d : Dev) : Nat :=
  match (chooseBank d.nv).bind (bankImage d.nv) with
  | none => 1
  | some c =>
    let flr := d.nv.counters.getD 1 0
    if !d.nv.calOk then 4
    else if !d.nv.pufOk then 5
    else if !d.nv.idOk then 6
    else if !d.nv.flashOk || d.fw.keysZeroed then 7
    else if c.seq < flr then 2
    else if !c.isSigned && decide (2 ^ 31 ≤ flr) then 3
    else 0

/-! ### Step 3: registry, margin tables, configuration values -/

/-- Apply one registry entry (R417); one whose check word fails is ignored and named in a record (R418). -/
def applyEntry (d : Dev) (x : RegEntry × Nat) : Dev :=
  let e := x.1
  let u := e.unit % 2 ^ 24
  if e.torn then nutmeg d ⟨0x01, 1, 1, 0, 0, 0, x.2⟩
  else match e.kind with
    | 0x01 =>
      let g := e.detail / 128
      let map := fget d lyrPortRepairMap u
      fset (fset d lyrPortRepairMap u (setBits map (8 * g + 7) (8 * g) (128 + e.detail % 128))) lyrPortStatusSparesUsed u
        (fget d lyrPortStatusSparesUsed u + 1)
    | 0x02 => fset d lyrPortStatusState u 3
    | 0x03 =>
      let k := e.detail / 2 ^ 24
      let f := if k = 1 then segField 1 (u % 4 * 2 ^ 23) else segField k 0
      let c := if k = 1 then u / 4 else u
      fset d f c (fget d f c + 1)
    | 0x04 => { d with retired := { d.retired with lanes := insertNat d.retired.lanes u } }
    | 0x05 => { d with retired := { d.retired with links := insertNat d.retired.links u } }
    | 0x06 =>
      let d1 := { d with retired := { d.retired with spared := smapPut d.retired.spared (backedPc d u) e.detail } }
      fset (fset d1 memPcEccState u 1) memPcEccState e.detail 0
    | 0x07 =>
      let d1 := { d with retired := { d.retired with capped := [redirectPc d u] :: d.retired.capped } }
      capFalls (fset d1 memPcEccState u 2) 1
    | 0x08 => stackOut (capFalls d 64) u
    | 0x09 => { d with retired := { d.retired with arrays := insertNat d.retired.arrays u } }
    | 0x0A => { d with retired := { d.retired with cores := insertNat d.retired.cores u } }
    | 0x0B => fset d lyrThmRetired u 1
    | 0x0C => fset d lyrThmCanaryFault u 1
    | 0x0D => fset d pwrStepMaxOpen u (min (fget d pwrStepMaxOpen u) (e.detail - 1))
    | _ => d

/-- The registry in entry order, and what the registers show of it. -/
def applyRegistry (d : Dev) : Dev :=
  showRetired (registryShow ((List.zipIdx d.nv.registry).foldl applyEntry { d with retired := ⟨[], [], [], [], [], [], []⟩ }))

/-- Margin tables come into force, with the hours since they were planned (R407). -/
def applyMargins (d : Dev) : Dev :=
  (List.zipIdx d.nv.margins).foldl (fun d x => fset d ageRegionHours x.2 x.1.hours) (marginsShow (marginsShow d 0) 1)

/-- R381: an entry of the mailbox map is admissible for its channel. -/
def mapOk (ch word : Nat) : Bool :=
  let i := bits word 2 0
  let r := bits word 6 4
  i != r && (if secure ch then r == 2 else i != 2 && r != 2)

/-- Load one map entry; one that breaks R381 is disabled and named in a record. -/
def loadMap (d : Dev) (x : Nat × Nat) : Dev :=
  let (word, ch) := x
  let ok := mapOk ch word && bit word 8
  let d1 := fset (fset (fset d mbxMapInitiator ch (bits word 2 0)) mbxMapResponder ch (bits word 6 4)) mbxMapEnabled ch (b2n ok)
  let d2 := fset d1 mbxChStatusEnabled ch (b2n ok)
  if mapOk ch word || bits word 2 0 == 7 then d2 else nutmeg d2 ⟨0x08, 3, 2, 0, 0, 0, ch⟩

/-- RWL and cfg fields take the values of the image, or in recovery the shipped ones (R437). -/
def loadConfig (d : Dev) (conf : Option ConfigImage) : Dev :=
  match conf with
  | none =>
    let d1 := fset (fset d hpCfgClassAllow 0 0) hpCfgClassAllow 1 0
    fset (fset d1 hpCfgLoadRight 0 1) hpCfgLoadRight 1 1
  | some c => (List.zipIdx c.mbxMap).foldl loadMap (c.values.foldl loadConfigValue d)

/-- What follows from configured values. -/
def configShow (d : Dev) : Dev :=
  let cap := fget d pwrCfgCapDflt 0
  let d1 := fset (fset d pwrStatusCapReq 0 cap) pwrStatusCapEff 0 cap
  let d2 := { d1 with policy := { policyBlank with prio := fget d1 pwrCfgPrio 0 } }
  [0, 1].foldl (fun d e =>
    let free := spillBytes d e / 128
    fset (fset d safSpillFreeFree e free) safSpillHwmMinFree e free) d2

/-! ### Steps 4 to 6 -/

/-- Step 4: keys, identity, counters and floors. (DEDUCED 52) -/
def readIdentity (d : Dev) (cold : Bool) : Dev :=
  let d1 := if cold then { d with fw := { d.fw with keysReady := d.nv.pufOk } } else d
  let d2 := fset d1 idSerialSerial 0 (if d1.nv.idOk then Config.serialNumber.toNat else 0)
  let counters := keysOk d2 && d2.nv.flashOk
  let d3 := if cold && counters then raiseCounter d2 2 (d2.nv.counters.getD 2 0 + 1) else d2
  let chosen := (chooseBank d3.nv).bind (bankImage d3.nv)
  let flr := d3.nv.counters.getD 1 0
  let d4 := match chosen with
    | some c => if counters && decide (flr < c.seq) && (c.isSigned || decide (flr < 2 ^ 31)) then raiseCounter d3 1 c.seq else d3
    | none => d3
  let d5 := if counters then floorsShow d4 else d4
  fset (fset d5 aniPowerCyclesCount 0 (d5.nv.counters.getD 2 0)) cfgDebugKeysZeroed 0 (b2n d5.fw.keysZeroed)

/-- R423: the pinned region comes back from the NVM, the circular region starts empty, and seq goes on after the stored one.
(DEDUCED 52) -/
def restoreRecords (d : Dev) : Dev :=
  let next := d.nv.seqStore + 4096
  let used := d.nv.mirror.length
  let area := nutAddr d 0
  let mem := d.mem.filter (fun c => decide (c.1 < area ∨ area + 2 ^ 26 ≤ c.1))
  let d0 := { d with recs := { d.recs with nut := d.nv.mirror }, nv := { d.nv with seqStore := next }, mem := mem }
  let d1 := d.nv.mirror.foldl nutWrite d0
  fset (fset (fset d1 nutStatusNextSeq 0 next) nutStatusPinnedUsed 0 used) nutStatusPinnedFull 0 (b2n (decide (used = 4096)))

/-- Step 5: every link that is not retired starts training. -/
def trainLinks (d : Dev) : Dev :=
  (List.range 36).foldl (fun d n => if d.retired.links.contains n then d else emit (fset d blLinkStatusState n 1) (.train n)) d

/-- The sensors that the Anise domain reads through every reset (R210): diodes of the layers and caps, and stacks. -/
def sensorsShow (d : Dev) : Dev :=
  let d1 := (List.range 160).foldl (fun d s =>
    if smapHas d.pwr.diodes (160 + s) then fset d lyrThmDiode s (smapGet d.pwr.diodes (160 + s) 0) else d) d
  (List.range 8).foldl (fun d s =>
    if smapHas d.pwr.diodes (320 + s) then refreshShow (fset d memStackStatusTemp s (smapGet d.pwr.diodes (320 + s) 0)) s else d) d1

/-- R212: each canary group that has an estimate above its floor is checked against its diode. (DESIGN CHOICE 54) -/
def canaryCheck (d : Dev) : Dev :=
  (List.range 160).foldl (fun d s =>
    let apart := tempOf (fget d lyrThmCanary s) - tempOf (fget d lyrThmDiode s)
    if s % 80 < 64 && fget d lyrThmCanary s != 0 && fget d lyrThmCanaryFloor s == 0 && fget d lyrThmCanaryFault s == 0
        && decide (48 < apart ∨ apart < -48) then
      nutmeg d ⟨0x04, 6, 1, unitId 0x05 s, 0, 0, 0⟩
    else d) d

/-- Steps 2 to 6 of Table 16.6 on a device whose registers are at their reset values. (DEDUCED 52) -/
def boot (d : Dev) (cold : Bool) : Dev :=
  let cause := recoveryCause d
  let bank := chooseBank d.nv
  let live := if cause = 0 then bank.bind (bankImage d.nv) else none
  let other := bank.any (fun b => (bankImage d.nv (1 - b)).isSome)
  let d1 := (List.range 32).foldl (fun d ch => fset d mbxChStatusAwake ch 1) { d with pwr := { d.pwr with state := .running } }
  let d2 := restoreRecords (applyMargins (applyRegistry (loadConfig d1 live)))
  let d3 := fset (fset (fset (fset (fset d2 cfgImageStatusBank 0 (bank.getD 0)) cfgImageStatusSeq 0 ((live.map (·.seq)).getD 0))
    cfgImageStatusOtherValid 0 (b2n other)) cfgImageStatusSigned 0 (b2n (live.any (·.isSigned)))) cfgImageStatusCalOk 0 (b2n d.nv.calOk)
  let d4 := trainLinks (canaryCheck (selfTest (sensorsShow (configShow (readIdentity d3 cold))) cold))
  let (ms, d5) := takeFree d4 8
  let d6 := fset (fset d5 cfgBootStatusBootMs 0 (ms % (if cold then 241 else 131))) cfgBootStatusWarm 0 (b2n (!cold))
  let d7 := fset (fset (fset d6 cfgBootStatusFail 0 cause) cfgBootStatusRecovery 0 (b2n (cause != 0))) cfgBootStatusStep 0 6
  let d8 := [0, 1].foldl (fun d p => fset d hpPortStateState p (if (portRun d p).perst then 0 else 4)) d7
  let d9 := rateShow (rateShow d8 0) 1
  nutmeg d9 ⟨0x01, 0, 1, 0, 0, 0, cause⟩

/-- A start from the loss of everything but NVM and Anise; `cause` as ANI_RESET_CAUSE codes it. (DEDUCED 52) -/
def coldStart (d : Dev) (cause : Nat) : Dev :=
  let d1 := fset (powerOff d) aniResetCauseCause 0 cause
  let d2 := if cause = 0 then d1 else fset d1 aniResetCauseStamp 0 d.time
  let d3 := boot (startHours { d2 with pwr := { d2.pwr with restartAsked := false } }) true
  if cause = 0 then d3
  else nutmeg (fset d3 thmShutdownHold 0 0) ⟨0x01, 2, 3, 0, 0, 0, fget d thmShutdownCause 0⟩

/-! ### Input and restarts -/

/-- The device with no power, keeping what survives and what lies outside. -/
def unpower (d0 : Dev) : Dev :=
  let d := saveHours d0
  { devBlank with mem := hostMem d, hostRefused := d.hostRefused, nv := d.nv, free := d.free, out := d.out, env := d.env,
                  ports := d.ports.map (fun p => { p with waiting := false, d3 := false }),
                  pwr := { powerBlank with state := .unpowered } }

/-- POWER_APPLY: the Anise domain and the timebase start. -/
def powerApply (d : Dev) : Dev :=
  if d.pwr.state = .unpowered then { unpower d with pwr := powerBlank } else d

/-- INPUT_REMOVED. -/
def inputRemoved (d : Dev) : Dev := unpower d

/-- Standing by after a shutdown of a cause, from the first application of the input 0. -/
def standbyAfter (d : Dev) (p : Nat → Bool) : Bool := d.pwr.state == .standby && p (fget d thmShutdownCause 0)

/-- MAIN_POWER_STABLE: the cold start begins (R442). -/
def mainStable (d : Dev) : Dev := if standbyAfter d (· == 0) then coldStart d 0 else d

/-- INPUT_RESTART after an input shutdown. -/
def inputRestart (d : Dev) : Dev := if standbyAfter d (fun c => c == 4 || c == 5) then coldStart d 2 else d

/-- Every sensor of R398 reads below 80 °C (R403). -/
def coolEnough (d : Dev) : Bool := d.pwr.diodes.all (fun x => decide (tempOf x.2 < 16 * 80))

/-- THERMAL_RESTART (R403, R404). -/
def thermalRestart (d : Dev) : Dev :=
  if standbyAfter d (fun c => decide (1 ≤ c ∧ c ≤ 3)) && coolEnough d && (fget d thmShutdownHold 0 == 0 || d.pwr.restartAsked)
  then coldStart d 1 else d

/-- A restart is requested of a device that is held after three thermal shutdowns (R404). -/
def askRestart (d : Dev) : Dev :=
  if standbyAfter d (fun c => decide (1 ≤ c ∧ c ≤ 3)) && fget d thmShutdownHold 0 == 1 then
    let d1 := { d with pwr := { d.pwr with restartAsked := true } }
    if coolEnough d1 then thermalRestart d1 else d1
  else d

/-- PERST_RELEASE of a port, which is also a request for a restart (R404, R466). -/
def perstRow (d : Dev) (p : Nat) : Dev := if p < 2 then askRestart (perstRelease d p) else d

/-! ### Warm package reset (R442, R446) -/

/-- Memory that a warm package reset keeps: everything but the spill areas, which are written to zero. (DEDUCED 52) -/
def keptMem (d : Dev) (a : Nat) : Bool := !inSpill d a 1

/-- A warm package reset; `cause` as ANI_RESET_CAUSE codes it. The canary controllers go on (R210). (DEDUCED 52) -/
def warmReset (d : Dev) (cause : Nat) : Dev :=
  if !mainPower d then d
  else
    let anise := d.regs.filter (fun e => match regOfKey e.1 with | some r => r.info.domain == .anise | none => false)
    let fw := { firmwareBlank with keysReady := d.fw.keysReady, keysZeroed := d.fw.keysZeroed }
    let d0 := { devBlank with
                time := d.time, regs := anise, mem := d.mem.filter (fun c => keptMem d c.1),
                marks := d.marks.filter (fun m => keptMem d m.1), hostRefused := d.hostRefused, nv := d.nv, fw := fw, env := d.env,
                pwr := { powerBlank with shutdowns := d.pwr.shutdowns, diodes := d.pwr.diodes },
                ports := d.ports.map (fun p => { p with waiting := false, d3 := false }), side := { d.side with halted := false },
                free := d.free, out := d.out }
    let d1 := (List.range 160).foldl (fun x s =>
      fset (fset x lyrThmCanary s (fget d lyrThmCanary s)) lyrThmCanaryFloor s (fget d lyrThmCanaryFloor s)) d0
    let d2 := fset (fset d1 aniResetCauseCause 0 cause) aniResetCauseStamp 0 d.time
    boot (fsat d2 aniResetCauseWarmCount 0 1) false

/-- RESET_PACKAGE. -/
def resetPackage (d : Dev) (ch : Nat) : Dev := resetRow d ch 0x40 true (fun d => warmReset d 5)

/-! ### Sleep (R405) -/

/-- Nothing keeps the device awake. -/
def idle (d : Dev) : Bool :=
  fget d pwrSleepCfgEnable 0 == 1 && !ringsEnabled d && noEpoch d && d.fab.colls.isEmpty
  && (List.range 32).all (fun ch => fget d mbxChStatusBusy ch == 0)
  && d.fab.links.all (fun l => l.waiting.isEmpty && l.replay.isEmpty) && d.eng.taken.isEmpty

/-- SLEEP_ENTRY: Cumin, the dies, the links and the memory controllers lose power; core scratch and side memory are on no
rail that stays. (DEDUCED 52) -/
def sleepEntry (d : Dev) : Dev :=
  if !(mainPower d && idle d) then d
  else
    let d1 := (List.range 32).foldl (fun d ch => fset d mbxChStatusAwake ch 0) d
    let d2 := (List.range 36).foldl (fun d n =>
      if fget d blLinkStatusState n = 3 then d else updLink (fset d blLinkStatusState n 0) n linkFresh) d1
    let held := fun (a : Nat) => match regionOf a with | .scratch _ _ => false | .side _ _ => false | _ => true
    { d2 with pwr := { d2.pwr with state := .asleep }, sideValid := [],
                mem := d2.mem.filter (fun c => held c.1),
              marks := d2.marks.filter (fun m => held m.1), ports := d2.ports.map (fun p => { p with l0 := false }) }

def asleep (d : Dev) : Bool := d.pwr.state == .asleep

/-- Cumin resumes from retention. -/
def wakeCumin (d : Dev) : Dev := (List.range 32).foldl (fun d ch => fset d mbxChStatusAwake ch 1) d

/-- MBX_CH_WAKE (R385). (DEDUCED 42) -/
def chWake (d : Dev) (ch : Nat) : Dev := if asleep d && decide (ch < 32) then wakeCumin d else d

/-- A doorbell on a ring, or a ring enable, wakes the dies too; links train again. -/
def wakeDies (d : Dev) : Dev :=
  if asleep d then trainLinks (wakeCumin { d with pwr := { d.pwr with state := .running }, ports := d.ports.map (fun p => { p with l0 := true }) })
  else d

/-- LINK_ACTIVITY_WAKE: a host port comes back to L0. -/
def linkWake (d : Dev) (p : Nat) : Dev := updPort d p (fun x => { x with l0 := true })

end Sys2Proof.Machine
end

