-- ==== Sys2Proof/Machine/Writes.lean ====
section
/-! DEFINITION. Writes of a host through its BARs (R307, R308, R452 to R456): each register with a behaviour of its own goes
to the operation of its chapter, every other sets its fields by access type (R10). -/
namespace Sys2Proof.Machine

/-! ### Registers with a behaviour of their own -/

/-- Part of a register that a write covers: bits `[lo + n - 1 : lo]`, with the value `v` of those bits. -/
structure Part where
  lo : Nat
  n : Nat
  v : Nat
deriving DecidableEq, Repr

/-- A write action field is triggered: 1 is written to it. -/
def Part.hits (x : Part) (f : Field) : Bool := actionBits f x.lo x.n x.v % 2 == 1

def Part.meets (x : Part) (f : Field) : Bool := fieldMeets f x.lo x.n

/-- A doorbell or ring enable that wakes a sleeping device (R405). (DEDUCED 60) -/
def waking (p r : Nat) (f : Dev → Dev) (d : Dev) : Dev := if mayWriteRing d p r then f (wakeDies d) else f d

/-- Both words of a doorbell page (R312, R317). -/
def dbSq (d : Dev) (p r v : Nat) : Dev := if r < 16384 then waking p r (fun d => advance (doorbellSq d p r v)) d else d
def dbCq (d : Dev) (p r v : Nat) : Dev := if r < 16384 then waking p r (fun d => advance (doorbellCq d p r v)) d else d
def enableRing (d : Dev) (p r : Nat) : Dev := if r < 16384 then waking p r (fun d => ringEnable d p r) d else d

/-- KRING_CFG: class and depth are ignored while the ring is not open; `enable` enables or drains it (R309, R311, R318). -/
def writeKringCfg (d : Dev) (p r : Nat) (x : Part) : Dev :=
  let fields := [kringCfgPrio, kringCfgVecEn, kringCfgVector] ++ (if ringOpen d r then [kringCfgClass, kringCfgLog2Depth] else [])
  let d1 := fields.foldl (fun d f => writeField d f r x.lo x.n x.v) d
  if x.hits kringCfgEnable then (if fget d kringCfgEnable r = 1 then d1 else enableRing d1 p r) else drainRing d1 r

/-- A write to a KRING register from port `p` (R309, R314, R318, R322). (DEDUCED 19) -/
def writeKring (d : Dev) (p : Nat) (reg : Reg) (r : Nat) (x : Part) : Dev :=
  ringAct d p r (fun d =>
    match reg with
    | .kringCfg => writeKringCfg d p r x
    | .kringCtl =>
      let d1 := if x.hits kringCtlAbort then ringAbort d p r else d
      if x.hits kringCtlClearErr then advance (ringClearErr d1 p r) else d1
    | .kringIrq => writePart d reg r x.lo x.n x.v
    | .kringStart => writePart d reg r x.lo x.n x.v
    | _ => if ringOpen d r then writePart d reg r x.lo x.n x.v else d)

/-- A write of SEM_VALUE: the count acts as SET, the error bit as ERR_CLEAR or ERR_SET 0 (R255). Waits that it reaches resume
by WAIT_RESUME (R259). -/
def writeSem (d : Dev) (s : Nat) (x : Part) : Dev :=
  let d1 := if x.meets semValueCount then semApply d s (.set (bits x.v 31 0)) else d
  if x.meets semValueErr then semApply d1 s (if x.hits semValueErr then .errSet 0 else .errClear) else d1

/-- A write of SEM_QUEUE: `slots` is ignored while credits are out, and gives the queue all its credits (R269). -/
def writeQueue (d : Dev) (q : Nat) (x : Part) : Dev :=
  let fields := [semQueueBwdPair, semQueueFwdPair].filter x.meets
  let d1 := fields.foldl (fun d f => writeField d f q x.lo x.n x.v) d
  if x.meets semQueueSlots && fget d semQueueCredits q == fget d semQueueSlots q then
    let d2 := writeField d1 semQueueSlots q x.lo x.n x.v
    fset d2 semQueueCredits q (fget d2 semQueueSlots q)
  else d1

/-- HP_ATTACH: attach, resume, reset_rings, detach; other commands are ignored (R323, R327, R332). -/
def writeAttach (d : Dev) (p : Nat) (x : Part) : Dev :=
  match actionBits hpAttachCmd x.lo x.n x.v with
  | 1 => portAttach d p
  | 2 => portResume d p
  | 3 => portResetRings d p
  | 4 => portDetach d p
  | _ => d

/-- Counters that a cnt_clear bit clears (R10). -/
def clearArr (d : Dev) (i : Nat) : Dev :=
  let d1 := [arrVectorsVectors, arrBusyCyclesBusy, arrFrontBubbleBubble, arrFeedStallStall].foldl (fun d f => cntClear d f i) d
  fset d1 arrParityCntParityErr i 0

def clearSaf (d : Dev) (i : Nat) : Dev :=
  [safTruncCntTrunc, safFloorCntFloor, safSpillCntSpill, safOvfCntOvf].foldl (fun d f => cntClear d f i) d

def clearCard (d : Dev) (c : Nat) : Dev :=
  [cardSideEccUncorrectable, cardSideEccCorrected].foldl (fun d f => fset d f c 0) (cntClear d cardRowsRows c)

/-- CARD_CTL.side_inval clears every valid bit of a core's side memory (R149). -/
def sideInvalidate (d : Dev) (c : Nat) : Dev := { d with sideValid := d.sideValid.filter (fun p => p / 1024 != c) }

/-- The core of an instance of a core-domain register. -/
def coreOf (r : Reg) (i : Nat) : Nat := if r.info.count = 256 then i / 4 else i

/-- R455: a register of a core under reset keeps its value, and writes to one of a retired core or array are dropped.
(DEDUCED 60) -/
def coreWritable (d : Dev) (r : Reg) (i : Nat) : Bool :=
  !regRetired d r i && !(r.info.domain == .core && (inReset d 1 (coreOf r i) || inReset d 2 (coreOf r i / 32)))

/-- R446: a register of the die domain of a die under reset, whose instances are shared evenly by the two dies: a host's read
ends in Completer Abort, its write is dropped. -/
def dieAway (d : Dev) (r : Reg) (i : Nat) : Bool := r.info.domain == .die && inReset d 2 (i / (r.info.count / 2))

/-- What a write through port `p` to a part of instance `i` of a BAR0 register does. The port-local region and the peer
region show HP registers as instances 0 and 1 of the offset (R308). -/
def writeReg (d : Dev) (p : Nat) (r : Reg) (i : Nat) (x : Part) : Dev :=
  match r with
  | .hpCfg | .hpDrvVersion | .hpPortState | .hpHbLast | .hpHoldBase | .hpErr =>
    if i = 0 then writePart d r p x.lo x.n x.v else d
  | .hpAttach => if i = 0 then writeAttach d p x else d
  | .hpAdopt => if i = 0 ∧ actionBits hpAdoptCmd x.lo x.n x.v = 1 then portAdopt d p else d
  | .hpHeartbeat => if i = 0 then heartbeatWrite d p (bits x.v 31 0) else d
  | .hpEvtStatus => evtClear d p i (x.v * 2 ^ x.lo)
  | .hpEvtEn => if x.meets hpEvtEnEn then evtEnWrite d p i (bits x.v 11 0) else bankAct d p i id
  | .kringBaseLo | .kringBaseHi | .kringCqbaseLo | .kringCqbaseHi | .kringCfg | .kringIrq | .kringStart | .kringCtl =>
    writeKring d p r i x
  | .semValue => writeSem d i x
  | .semQueue => writeQueue d i x
  | .arrCtl =>
    if !coreWritable d r i then d
    else
      let d1 := writePart d r i x.lo x.n x.v
      if x.hits arrCtlCntClear then clearArr d1 i else d1
  | .safCtl =>
    if !coreWritable d r i then d
    else
      let d1 := writePart d r i x.lo x.n x.v
      if x.hits safCtlCntClear then clearSaf d1 i else d1
  | .cardCtl =>
    if !coreWritable d r i then d
    else
      let d1 := writePart d r i x.lo x.n x.v
      let d2 := if x.hits cardCtlCntClear then clearCard d1 i else d1
      if x.hits cardCtlSideInval then sideInvalidate d2 i else d2
  | _ => if dieAway d r i then d else writePart d r i x.lo x.n x.v

/-! ### Mailbox windows (R380 to R385) -/

/-- The buffers of a channel take bytes from an identity that the channel binds, while its receiving domain has power. -/
def mbxBuffer (d : Dev) (ident ch off : Nat) (bs : List Byte) : Dev :=
  if !mbxBound d ident ch then fsat d mbxErrForeign 0 1
  else if fget d mbxChStatusAwake ch = 0 then mbxDown d ch
  else mbxWrite d ch off bs

/-- MBX_CH_WAKE, a doorbell that only a bound identity may write (R382, R385). -/
def mbxWake (d : Dev) (ident ch : Nat) : Dev :=
  if ch ≥ 32 then d else if mbxBound d ident ch then chWake d ch else fsat d mbxErrForeign 0 1

/-- A write of bytes inside the window of a channel, by an identity. -/
def mbxWindow (d : Dev) (ident ch off : Nat) (bs : List Byte) : Dev :=
  let word := fun (o : Nat) => leNat ((bs.drop (o - off)).take 4)
  let covers := fun (o : Nat) => decide (off ≤ o ∧ o + 4 ≤ off + bs.length)
  if 0x1000 ≤ off then mbxBuffer d ident ch off bs
  else
    let d1 := if covers 0 && bit (word 0) 1 then mbxDoneClear d ident ch else d
    let d2 := if covers 4 then mbxDoorbell d1 ident ch (bits (word 4) 13 0) else d1
    let d3 := if covers 8 && bit (word 8) 0 then mbxWake d2 ident ch else d2
    if covers 12 then writePart d3 .mbxChCfg ch 0 32 (word 12) else d3

/-! ### The three BARs -/

/-- A write of bits at an offset of BAR0 or BAR2, where no register lies under the offset nothing. -/
def writeAt (d : Dev) (p bar off bytes v : Nat) : Dev :=
  match regAt bar off with
  | none => d
  | some (r, i, b) => writeReg d p r i ⟨8 * b, 8 * bytes, v⟩

/-- R454: an 8-byte write acts as one part of a register of at least 64 bits at an offset divisible by 8, and otherwise as two
4-byte parts, the lower first. -/
def writeParts (d : Dev) (p bar off size v : Nat) : Dev :=
  let whole := match regAt bar off with | some (r, _, _) => decide (64 ≤ r.info.width) && r.info.offset % 8 == 0 | none => false
  if size = 8 ∧ !whole then
    writeAt (writeAt d p bar off 4 (bits v 31 0)) p bar (off + 4) 4 (bits v 63 32)
  else writeAt d p bar off size v

/-- A dword of the MSI-X table: bit 0 of an entry's last dword masks its vector (R321). (PRESUMED 22) -/
def writeMsix (d : Dev) (p off v : Nat) : Dev :=
  let k := p * 2048 + off / 16
  let word := off / 4 % 4
  let d1 := { d with eng := { d.eng with msixTable := smapSet d.eng.msixTable (k * 4 + word) v (if word = 3 then 1 else 0) } }
  if word = 3 ∧ v % 2 = 0 then msixUnmask d1 p (off / 16) else d1

/-- R456: what a sleeping device still takes from its hosts. (DEDUCED 60) -/
def reachedAsleep (bar off : Nat) : Bool :=
  bar == 2 || bar == 4 || decide (off < 0x300000) || decide (0x3B0000 ≤ off ∧ off < 0x3C0000)
  || decide (0x3F0000 ≤ off ∧ off < 0x400000)

/-- A write of 4 or 8 bytes through port `p` (R307): misaligned or other sizes are dropped and counted. (DEDUCED 60) -/
def hostWrite (d : Dev) (p bar off size v : Nat) : Dev :=
  if !((size == 4 || size == 8) && off % size == 0) then fsat d hpErrMisaligned p 1
  else if asleep d && !reachedAsleep bar off then d
  else if bar = 4 then
    if off < 0x100000 then mbxWindow d p (off / 0x8000) (off % 0x8000) (leBytes size v) else d
  else if bar = 2 then
    if off % 0x1000 = 0 then
      let d1 := dbSq d p (off / 0x1000) (bits v 31 0)
      if size = 8 then dbCq d1 p (off / 0x1000) (bits v 63 32) else d1
    else if off % 0x1000 = 4 ∧ size = 4 then dbCq d p (off / 0x1000) v
    else d
  else if bar = 0 ∧ 0x110000 ≤ off ∧ off < 0x118000 then
    let d1 := writeMsix d p (off - 0x110000) (bits v 31 0)
    if size = 8 then writeMsix d1 p (off + 4 - 0x110000) (bits v 63 32) else d1
  else if bar = 0 then writeParts d p 0 off size v
  else d

/-- REGISTER_WRITE: a host write through a port that answers. -/
def registerWrite (d : Dev) (p bar off size v : Nat) : Dev := hostAct d p (fun d => hostWrite d p bar off size (v % 2 ^ (8 * size)))

/-- SPILL_HWM_READ: the RC field is returned, then takes the present number of free records (R10, Table 0.5). (DEDUCED 6) -/
def spillHwmRead (d : Dev) (p e : Nat) : Dev :=
  hostAct d p (fun d =>
    if asleep d || dieAway d .safSpillHwm e then emit d (.abort p)
    else if e < 2 then
      fset (emit d (.answer p (fget d safSpillHwmMinFree e))) safSpillHwmMinFree e (fget d safSpillFreeFree e)
    else d)

/-- LOCK_SET: a lock bit of Table 16.6's pass, by its place in `lockFields` (R444). -/
def lockSet (d : Dev) (p k : Nat) : Dev :=
  match lockFields[k]? with
  | none => d
  | some (f, i) => hostAct d p (fun d => if asleep d then d else fset d f i 1)

/-! ### Port-level resets (R333) -/

/-- PORT_LEVEL_RESET: what R333 gives, and PERST# stays asserted until its release. -/
def portLevelReset (d : Dev) (p : Nat) (kind : PortReset) : Dev :=
  if p ≥ 2 then d
  else
    let d1 := powered d (fun d => portReset d p)
    if kind = .perst then updPort d1 p (fun x => { x with perst := true }) else d1

end Sys2Proof.Machine
end

