-- ==== Sys2Proof/Machine/Upkeep.lean ====
section
/-! DEFINITION. The background activities of Table 15.9 (R428, R430) and the upkeep of the records (R423, R426). Each
row is one event of its activity: a pass of a scrub, the calibration of one unit, one sample set. -/
namespace Sys2Proof.Machine

/-- An activity completes a pass or an event: its lag is 0 again and its slice ends (R428). (DEDUCED 59) -/
def bgDone (d : Dev) (a : Nat) : Dev :=
  fset (fset (fset d cfgBgStatusLastDone a d.time) cfgBgStatusInSlice a 0) cfgBgStatusLagMs a 0

/-- A background activity runs only while the device is awake (R430). (DESIGN CHOICE 1) -/
def awake (d : Dev) (f : Dev → Dev) : Dev := if d.pwr.state = .running then f d else d

/-- A scrub reads one marked unit: its error is counted, and a unit that can be corrected is rewritten (R207, R232).
(DEDUCED 59) -/
def scrubUnit (d : Dev) (a : Nat) : Dev :=
  let d1 := noteUnit d a
  if uncorrectableAt d a then d1 else markClear d1 a

/-- DRAM_PATROL_SCRUB: a pass over every block ends (R232); it does not while a stack is under reset (R243). (DEDUCED 59) -/
def dramScrub (d : Dev) : Dev :=
  awake d (fun d =>
    if d.resets.any (fun r => r.kind == 3) then d
    else
      let found := (d.marks.map (·.1)).filter (fun a => (match regionOf a with | .dram => true | _ => false) && backed d a)
      bgDone (found.foldl scrubUnit d) 0)

/-- An uncorrectable word that the layer scrub finds is named in a record (R207). -/
def layerFound (d : Dev) (a : Nat) : Dev :=
  let d1 := if uncorrectableAt d a then nutmeg d ⟨0x03, 2, 2, 0, 0, 0, a⟩ else d
  scrubUnit d1 a

/-- LAYER_SCRUB: a pass over every row of the layers ends (R207); it does not while a core or a die is under reset.
(DEDUCED 59) -/
def layerScrub (d : Dev) : Dev :=
  awake d (fun d =>
    if d.resets.any (fun r => r.kind == 1 || r.kind == 2) then d
    else
      let found := (d.marks.map (·.1)).filter (fun a => (match regionOf a with | .layer _ _ _ => true | _ => false) && backed d a)
      bgDone (found.foldl layerFound d) 1)

/-- COPY_SCRUB of a line of a shard; a pass ends with its last line (R177). -/
def copyScrub (d : Dev) (h : Nat) : Dev :=
  awake d (fun d =>
    let d1 := scrubShard d h
    if (findShard d1 h).any (fun s => s.scrubLine == 0) then bgDone d1 2 else d1)

/-- LINK_PHY_RECAL of lane `l` of link `n`. (DEDUCED 59) -/
def phyRecal (d : Dev) (n l : Nat) : Dev :=
  awake d (fun d => if n < 36 ∧ l < 4 ∧ bit (fget d blLinkStatusLanes n) l = true ∧ linkUsable d n = true then bgDone d 3 else d)

/-- MEM_IF_CAL of pseudo-channel `c`. (DEDUCED 59) -/
def memCal (d : Dev) (c : Nat) : Dev := awake d (fun d => if c < 528 ∧ inReset d 3 (c / 66) = false then bgDone d 4 else d)

/-- SENSOR_CAL of a diode of location `loc` of die `e`, deferred while the location is at warning or above. (DEDUCED 59) -/
def sensorCal (d : Dev) (e loc : Nat) : Dev := awake d (fun d => if e < 2 ∧ loc < 3 ∧ level d e loc = 0 then bgDone d 5 else d)

/-- AGEING_PROBE of a region (R406). -/
def probeRegion (d : Dev) (i index vmin : Nat) : Dev := awake d (fun d => if i < 32 then bgDone (ageingProbe d i index vmin) 6 else d)

/-- D, C, M and the governing value of region `r` of a die as two words (R217). (DESIGN CHOICE 23) -/
def regionWords (d : Dev) (die r : Nat) : List Nat :=
  if 80 ≤ r then []
  else
    let v := fun (f : Field) => fget d f (die * 80 + r)
    [v lyrThmGov * 2 ^ 16 + v lyrThmModel, v lyrThmCanary * 2 ^ 16 + v lyrThmDiode]

/-- The die whose regions a sample set carries: the dies take turns from one sample instant to the next. (DESIGN CHOICE 23) -/
def sampleDie (d : Dev) : Nat := d.time / (1000000 * fget d nutTelCfgSampleMs 0) % 2

/-- The 32 entries of a sample set, as kind, unit and values: input power; steps and active limits of the dies; class shares;
the hottest governing value per die and layer; power and temperature of the stacks (R426); behind its value each entry
carries the temperatures of three regions (R217). (DESIGN CHOICE 23) -/
def sampleSet (d : Dev) : List (Nat × Nat × List Nat) :=
  let perDie := fun (k : Nat) (f : Field) => [0, 1].map (fun e => (k, e, [fget d f e]))
  let hottest := fun (e k : Nat) => tempCode (maxInt ((List.range 16).map (fun r => tempOf (fget d lyrThmGov (e * 80 + k * 16 + r)))))
  let layers := [0, 1].flatMap (fun e => (List.range 4).map (fun k => (5, e * 4 + k, [hottest e k])))
  let stackSet := fun (k : Nat) (f : Field) => (List.range 8).map (fun s => (k, unitId 0x06 s, [fget d f s]))
  let shares := [pwrShareLinksW, pwrShareMemW, pwrShareComputeW].map (fun f => (4, f.lo, [fget d f 0]))
  let entries := [(1, 0, [fget d pwrInputPowerW 0])] ++ perDie 2 pwrStepStep ++ perDie 3 pwrDieSrc ++ shares ++ layers
    ++ stackSet 6 memStackStatusPowerMw ++ stackSet 7 memStackStatusTemp
  entries.zipIdx.map (fun x =>
    (x.1.1, x.1.2.1, x.1.2.2 ++ (List.range 3).flatMap (fun i => regionWords d (sampleDie d) (3 * x.2 + i))))

/-- TELEMETRY_SAMPLE: compartment 4 writes a sample set (R426). -/
def telemetrySample (d : Dev) : Dev :=
  awake d (fun d =>
    if compServes d 4 then bgDone ((sampleSet d).foldl (fun d x => telemetry d x.1 x.2.1 0 x.2.2) d) 7 else d)

/-- The maximum deferrals of Table 15.9 in ms. -/
def maxDeferral (a : Nat) : Nat := [600000, 60000, 3600000, 1000, 100, 600000, 86400000, 100, 60000].getD a 0

/-- BG_DEFERRAL_REACHED: an activity whose lag reaches its maximum takes its slice (R428). (DEDUCED 59) -/
def bgDeferral (d : Dev) (a : Nat) : Dev :=
  awake d (fun d =>
    if a < 9 ∧ fget d cfgBgStatusInSlice a = 0 then
      fset (fset (fsat d cfgBgStatusForced a 1) cfgBgStatusInSlice a 1) cfgBgStatusLagMs a (maxDeferral a)
    else d)

/-- NUTMEG_MIRROR: the pinned records are mirrored to the NVM by compartment 4 (R423). -/
def nutmegMirror (d : Dev) : Dev :=
  if compServes d 4 then { d with nv := { d.nv with mirror := d.recs.nut.filter (fun r => decide (r.slot < 4096)) } } else d

end Sys2Proof.Machine
end

