-- ==== Sys2Proof/Machine/Sideband.lean ====
section
/-! DEFINITION. The board-management sideband (R457, R469, R470), the sideband pins (R466, R467) and boundary scan (R471,
R451). -/
namespace Sys2Proof.Machine

/-! ### Pins -/

/-- R467: ALERT_N is low while an event bit is set in either bank or a thermal warning is active. (DESIGN CHOICE 62) -/
def alertLow (d : Dev) : Bool :=
  [0, 1].any (fun p => regGet d .hpEvtStatus p != 0) || [0, 1].any (warned d)

/-- R469: an in-band interrupt is raised while ALERT_N would be low, unless DISEC has switched events off.
(DESIGN CHOICE 62) -/
def inBand (d : Dev) : Bool := d.side.address.isSome && d.side.events && alertLow d

/-- R466: PWR_GOOD is released once start-up has passed step 5, and low while the rails are off. (DESIGN CHOICE 62) -/
def pwrGood (d : Dev) : Bool := mainPower d

/-! ### I3C (R469) -/

/-- The target is powered whenever the input is present. -/
def bmPowered (d : Dev) : Bool := d.pwr.state != .unpowered

/-- A common command code that every target takes. -/
def bmBroadcast (d : Dev) (f : Side → Side) : Dev := if bmPowered d then { d with side := f d.side } else d

/-- ENTDAA: a target without a dynamic address takes the one that the controller assigns. -/
def entDaa (d : Dev) (addr : Nat) : Dev :=
  bmBroadcast d (fun s => if s.address.isNone then { s with address := some (addr % 128) } else s)

def rstDaa (d : Dev) : Dev := bmBroadcast d (fun s => { s with address := none })
def enEc (d : Dev) : Dev := bmBroadcast d (fun s => { s with events := true })
def disEc (d : Dev) : Dev := bmBroadcast d (fun s => { s with events := false })

/-- A command code directed at the target returns a value of the I3C specification, which the manual does not give; a target
without a dynamic address does not acknowledge. (PRESUMED 56) -/
def bmDirect (d : Dev) (w : Nat) (v : BitVec w) : Dev :=
  if !bmPowered d then d else if d.side.address.isSome then emit d (.answer 3 v.toNat) else emit d (.abort 3)

/-- GETSTATUS: the status word is of the I3C specification as well and free at each read. (PRESUMED 56) -/
def getStatus (d : Dev) : Dev :=
  if bmPowered d && d.side.address.isSome then
    let (v, d1) := takeFree d 16
    bmDirect d1 16 (BitVec.ofNat 16 v)
  else bmDirect d 16 0

/-! ### Register access by BM (R457, R470) -/

/-- A byte of an on-chip register at an offset of the network; reserved bytes of a block read as zero (R453). -/
def netByte (d : Dev) (off : Nat) : Byte :=
  match regAt 0 off with
  | none => 0
  | some (r, i, b) => BitVec.ofNat 8 (bits (readReg d 2 r i) (8 * b + 7) (8 * b))

/-- A byte of a channel's window: its registers or its buffers. -/
def windowByte (d : Dev) (ch off : Nat) : Byte :=
  if 0x1000 ≤ off then mbxGet d ch off
  else match regAt 4 (ch * 0x8000 + off) with
    | none => 0
    | some (r, i, b) => BitVec.ofNat 8 (bits (readReg d 2 r i) (8 * b + 7) (8 * b))

/-- BM's number among the master identities (Table 13.8). -/
def identBm : Nat := 6

/-- The access `[off, off + len)` lies in one channel window: the channel and the offset inside. -/
def windowOf (off len : Nat) : Option (Nat × Nat) :=
  let o := off - 0x4000000
  if 0x4000000 ≤ off ∧ o < 0x100000 ∧ o % 0x8000 + len ≤ 0x8000 then some (o / 0x8000, o % 0x8000) else none

def bmRefuse (d : Dev) : Dev := emit d (.abort 2)

/-- A read by BM, while the dies have power: the identification region, and windows of channels bound to BM. (PRESUMED 56) -/
def bmReadOn (d : Dev) (off len : Nat) : Dev :=
  let give := fun (f : Nat → Byte) => emit d (.answer 2 (leNat ((List.range len).map f)))
  if off + len ≤ 0x100000 then give (fun k => netByte d (off + k))
  else match windowOf off len with
    | none => bmRefuse d
    | some (ch, o) =>
      if !mbxBound d identBm ch then bmRefuse (fsat d mbxErrForeign 0 1)
      else if 0x1000 < o + len && fget d mbxChStatusAwake ch == 0 then bmRefuse d
      else give (fun k => windowByte d ch (o + k))

/-- BM_REGISTER_READ of up to 256 bytes; while the dies are unpowered only the ANI registers are served. (PRESUMED 56) -/
def bmRead (d : Dev) (off len : Nat) : Dev :=
  if !bmPowered d then d
  else if len = 0 ∨ 256 < len then bmRefuse d
  else if d.pwr.state = .running then bmReadOn d off len
  else if 0x3F0000 ≤ off ∧ off + len ≤ 0x400000 then emit d (.answer 2 (leNat ((List.range len).map (fun k => netByte d (off + k)))))
  else bmRefuse d

/-- BM_REGISTER_WRITE: bytes into the windows of channels bound to BM; every other write is refused. (PRESUMED 56) -/
def bmWrite (d : Dev) (off : Nat) (bs : List Byte) : Dev :=
  if !bmPowered d then d
  else if d.pwr.state ≠ .running then bmRefuse d
  else match windowOf off bs.length with
    | none => bmRefuse d
    | some (ch, o) => if mbxBound d identBm ch then mbxWindow d identBm ch o bs else bmRefuse (fsat d mbxErrForeign 0 1)

/-- BM_RESTART acts under R404. -/
def bmRestart (d : Dev) : Dev := askRestart d

/-- BM_PACKAGE_RESET: a warm package reset, dropped while one of the input conditions holds the rails off (R448, R468). -/
def bmPackageReset (d : Dev) : Dev := warmReset d 4

/-! ### Boundary scan (R471) -/

/-- The TAP instructions of Table 18.7. -/
inductive TapInst where
  | bypass | idcode | samplePreload | extest | clamp | highz | extestPulse | extestTrain | internalScan
deriving DecidableEq, Repr

/-- Instructions that drive the host-port and link pins. (DEDUCED 57) -/
def TapInst.drives (t : TapInst) : Bool :=
  match t with
  | .extest | .clamp | .highz | .extestPulse | .extestTrain => true
  | _ => false

/-- The level that an instruction needs (Table 18.7). (DEDUCED 57) -/
def TapInst.level (t : TapInst) : Nat :=
  match t with
  | .bypass | .idcode => 0
  | .internalScan => 2
  | _ => 1

/-- An instruction below whose level the device stands acts as BYPASS. (DEDUCED 57) -/
def tapActs (d : Dev) (t : TapInst) : TapInst := if t.level ≤ fget d cfgDebugLevel 0 then t else .bypass

/-- Hosts and peers see the links go down (R471, Note; R333, R285). (DEDUCED 57) -/
def pinsDriven (d : Dev) : Dev :=
  let d1 := [0, 1].foldl (fun d p => portLevelReset d p .linkDown) d
  (List.range 36).foldl (fun d n => if linkUsable d n then linkDown d n 0 else d) d1

/-- The TAP takes an instruction and `pattern` is shifted into the register that it selects. (DEDUCED 57) -/
def tapRun (d : Dev) (t : TapInst) (pattern : Nat) : Dev :=
  if !bmPowered d then d
  else
    let act := tapActs d t
    let d1 := { d with side := { d.side with tap := act.ctorIdx } }
    match act with
    | .bypass => d1
    | .idcode => emit d1 (.answer 4 0x12A72AC7)
    | .samplePreload =>
      let (v, d2) := takeFree d1 64
      emit { d2 with side := { d2.side with boundary := pattern } } (.answer 4 v)
    | .internalScan =>
      let (v, d2) := takeFree d1 64
      emit { d2 with side := { d2.side with halted := pattern % 2 == 1 } } (.answer 4 v)
    | .extest => pinsDriven { d1 with side := { d1.side with boundary := pattern } }
    | _ => pinsDriven d1

end Sys2Proof.Machine
end

