-- ==== Sys2Proof/Machine/State.lean ====
section
/-! DEFINITION. The state of the block: the device, and the queue of the commands that wait, first in, first out. -/
namespace Sys2Proof.Machine

/-- The device as `Device.lean` gives it, unit by unit, and the commands waiting. -/
structure State where
  dev : Dev
  pending : List Instr
deriving DecidableEq, Repr

/-- The device never stops with a fault: every error of the manual is a status, a record, a count or an interrupt of the
device, which goes on. No meaning raises a fault. -/
inductive Fault where
deriving DecidableEq, Repr

/-- Why a command has no meaning in the model. -/
inductive Refusal where
  /-- The row of this mnemonic has no meaning yet. Raised by an arm of `exec` alone; safe. No arm raises it now. -/
  | notModelled (mnemonic : String)
deriving DecidableEq, Repr

abbrev Answer := Host.Outcome State Fault Refusal

/-- The device as the input is applied to it, before main power is stable (R442): registers at their reset values, memories
empty, PERST# asserted at both ports, the NVM as the module ships, and no command waiting. (DESIGN CHOICE 5) -/
def State.reset : State := { dev := devBlank, pending := [] }

end Sys2Proof.Machine
end

