-- ==== Sys2Proof/Machine/Effect.lean ====
section
/-! DEFINITION. How a command reaches the device: through a port that answers, a master identity, a link in operation. -/
namespace Sys2Proof.Machine

/-- A command acts on the device and leaves the queue. -/
def act (s : State) (f : Dev → Dev) : Answer := .next { s with dev := f s.dev }

/-- A host write to a register of ring `r`. -/
def hostRing (d : Dev) (p r : Nat) (f : Dev → Dev) : Dev := hostAct d p (fun d => if r < 16384 then f d else d)

/-- A host access to a register that is out of reach while the device sleeps (R456). (DESIGN CHOICE 1) -/
def hostAwake (d : Dev) (p : Nat) (f : Dev → Dev) : Dev := hostAct d p (fun d => if asleep d then d else f d)

/-- An event of a host port. -/
def portEvent (d : Dev) (p : Nat) (f : Dev → Dev) : Dev := if p < 2 then powered d f else d

/-- An access under a master identity: 0 and 1 come through their host port, the others over the register network. -/
def identAct (d : Dev) (ident : Nat) (f : Dev → Dev) : Dev := if ident < 2 then hostAct d ident f else awake d f

/-- The links run while the device is awake (R405). (DESIGN CHOICE 1) -/
def linkOn (d : Dev) (f : Dev → Dev) : Dev := awake d f

/-- The part of SEM_VALUE that a write covers: 0 its low word, 1 its high word, else both. -/
def semPart (part v : Nat) : Part :=
  match part with
  | 0 => ⟨0, 32, bits v 31 0⟩
  | 1 => ⟨32, 32, bits v 31 0⟩
  | _ => ⟨0, 64, v⟩

/-- MBX_COMP_STATUS.cause of a watchdog expiry. -/
def watchdogCause : Nat := 5

end Sys2Proof.Machine
end

