-- ==== Sys2Proof/Machine/RingRows.lean ====
section
/-! DEFINITION. The commands that the ring scheduler takes and the events of their life (R313, R335 to R341): the
meaning of each row. -/
namespace Sys2Proof.Machine

/-- MM: a matrix product is taken (R342). -/
def execMm (ring : Nat) (s : State) : Answer := act s (fun d => takeRow d ring (isOpcode .mm))

/-- CONV: a convolution or stencil is taken (R344). -/
def execConv (ring : Nat) (s : State) : Answer := act s (fun d => takeRow d ring (isOpcode .conv))

/-- SLICE_MM: a slice-mode product is taken (R343). -/
def execSliceMm (ring : Nat) (s : State) : Answer := act s (fun d => takeRow d ring (isOpcode .sliceMm))

/-- ROW: a Cardamom row command is taken (R345). -/
def execRow (ring : Nat) (s : State) : Answer := act s (fun d => takeRow d ring (isOpcode .row))

/-- VEC: a vector-unit command is taken (R346). -/
def execVec (ring : Nat) (s : State) : Answer := act s (fun d => takeRow d ring (isOpcode .vec))

/-- COPY: a bulk transfer is taken (R246). -/
def execCopy (ring : Nat) (s : State) : Answer := act s (fun d => takeRow d ring (isOpcode .copy))

/-- MCAST: a multicast is taken (R263). -/
def execMcast (ring : Nat) (s : State) : Answer := act s (fun d => takeRow d ring (isOpcode .mcast))

/-- FENNEL_PUT: a small transfer is taken (R251). -/
def execFennelPut (ring : Nat) (s : State) : Answer := act s (fun d => takeRow d ring (isOpcode .fennelPut))

/-- SEM_WAIT: a bare wait is taken (R348). -/
def execSemWait (ring : Nat) (s : State) : Answer := act s (fun d => takeRow d ring (isOpcode .semWait))

/-- SEM_SIGNAL: a semaphore operation is taken (R348). -/
def execSemSignal (ring : Nat) (s : State) : Answer := act s (fun d => takeRow d ring (isOpcode .semSignal))

/-- ALLREDUCE: an all-reduce is taken (R298). -/
def execAllreduce (ring : Nat) (s : State) : Answer := act s (fun d => takeRow d ring (isColl .allreduce))

/-- REDUCE: a reduction to leaf 0 is taken (R298). -/
def execReduce (ring : Nat) (s : State) : Answer := act s (fun d => takeRow d ring (isColl .reduce))

/-- BROADCAST: a broadcast is taken (R349). -/
def execBroadcast (ring : Nat) (s : State) : Answer := act s (fun d => takeRow d ring (isColl .broadcast))

/-- ALLGATHER: an all-gather is taken (R349). -/
def execAllgather (ring : Nat) (s : State) : Answer := act s (fun d => takeRow d ring (isColl .allgather))

/-- TREE_LOAD: a tree table load is taken (R297). -/
def execTreeLoad (ring : Nat) (s : State) : Answer := act s (fun d => takeRow d ring (isColl .treeLoad))

/-- ROUTE_LOAD: a routing table load is taken (R350). -/
def execRouteLoad (ring : Nat) (s : State) : Answer := act s (fun d => takeRow d ring (isColl .routeLoad))

/-- UPD_BIND: a shard bind is taken (R353). -/
def execUpdBind (ring : Nat) (s : State) : Answer := act s (fun d => takeRow d ring (isOpcode .updBind))

/-- UPD_UNBIND: a shard unbind is taken (R353). -/
def execUpdUnbind (ring : Nat) (s : State) : Answer := act s (fun d => takeRow d ring (isOpcode .updUnbind))

/-- STEP_OPEN: a STEP_OPEN is taken (R15). -/
def execStepOpen (ring : Nat) (s : State) : Answer := act s (fun d => takeRow d ring (isOpcode .stepOpen))

/-- STEP_OPEN_HELD_START: the held STEP_OPEN of a group takes effect (R15). -/
def execStepOpenHeldStart (group : Nat) (s : State) : Answer := act s (fun d => heldStart d group)

/-- STEP_CLOSE: a STEP_CLOSE is taken (R181). -/
def execStepClose (ring : Nat) (s : State) : Answer := act s (fun d => takeRow d ring (isOpcode .stepClose))

/-- STEP_CLOSE_REDUCE: the drained epoch of a group is reduced (R181). -/
def execStepCloseReduce (group : Nat) (s : State) : Answer := act s (fun d => advance (closeReduce d group))

/-- SCALE_SET: a SCALE_SET is taken (R96). -/
def execScaleSet (ring : Nat) (s : State) : Answer := act s (fun d => takeRow d ring (isOpcode .scaleSet))

/-- CENSUS_READ: a census read is taken (R472). -/
def execCensusRead (ring : Nat) (s : State) : Answer := act s (fun d => takeRow d ring (isOpcode .censusRead))

/-- DIGEST: a digest is taken (R473). -/
def execDigest (ring : Nat) (s : State) : Answer := act s (fun d => takeRow d ring (isOpcode .digest))

/-- FENCE: a fence is taken (R348). -/
def execFence (ring : Nat) (s : State) : Answer := act s (fun d => takeRow d ring (isOpcode .fence))

/-- TIMESTAMP: a timestamp is taken (R348). -/
def execTimestamp (ring : Nat) (s : State) : Answer := act s (fun d => takeRow d ring (isOpcode .timestamp))

/-- NOP: a NOP is taken (R348). -/
def execNop (ring : Nat) (s : State) : Answer := act s (fun d => takeRow d ring (isOpcode .nop))

/-- BAD_OPCODE: an entry whose opcode is in no table is taken (R335). -/
def execBadOpcode (ring : Nat) (s : State) : Answer :=
  act s (fun d => takeRow d ring (fun e => (opcodeOf (headerOf e).opcode).isNone))

/-- WAIT_RESUME: a command whose wait is reached resumes (R259). -/
def execWaitResume (ring seq : Nat) (s : State) : Answer := act s (fun d => waitResume d ring seq)

/-- COMMAND_COMPLETE: a command whose writes have committed completes (R336). -/
def execCommandComplete (ring seq : Nat) (s : State) : Answer := act s (fun d => completeCmd d ring seq)

/-- IRQ_COALESCE_TIMEOUT: the oldest pending record of a ring has waited its time (R321). -/
def execIrqCoalesceTimeout (ring : Nat) (s : State) : Answer := act s (fun d => irqTimeout d ring)

end Sys2Proof.Machine
end

