-- ==== Sys2Proof/Machine/EpochRows.lean ====
section
/-! DEFINITION. Epochs, shards, collectives in step, the memory plan, stages and Fennel: the meaning of each row. -/
namespace Sys2Proof.Machine

/-- STEP_CLOSE_TIMEOUT: close_timeout passes in a group (R301). -/
def execStepCloseTimeout (group : Nat) (s : State) : Answer := act s (fun d => advance (closeTimeout d group))

/-- UPD_PHASE_DONE: the writes of a phase of a shard are acknowledged (R168). -/
def execUpdPhaseDone (shard : Nat) (s : State) : Answer := act s (fun d => advance (phaseDone d shard))

/-- FINGERPRINT_COMPARE: the fingerprint of a shard is sent for comparison (R192). -/
def execFingerprintCompare (shard : Nat) (s : State) : Answer :=
  act s (fun d => awake d (fun d => if d.shards.any (fun s => s.bind.shard == shard) then bgDone (fpSend d shard) 8 else d))

/-- FINGERPRINT_RESULT: the replicas of a shard differ, and their 1 MiB regions are compared (R193). -/
def execFingerprintResult (shard : Nat) (_agreed : Bool) (_regions : List Nat) (s : State) : Answer := act s (fun d => fpResult d shard)

/-- COPY_SCRUB: a line of the working copies of a shard is derived again (R177). -/
def execCopyScrub (shard : Nat) (s : State) : Answer := act s (fun d => copyScrub d shard)

/-- FENNEL_LAND: the oldest Fennel transfer of a source lands (R253). -/
def execFennelLand (source : Nat) (s : State) : Answer := act s (fun d => fennelLandRow d source)

/-- OFFLOAD_COPY_OUT: the copy-out of a plan entry begins (R267). -/
def execOffloadCopyOut (entry : Nat) (s : State) : Answer := act s (fun d => offloadStart d entry)

/-- RESTORE_START: the restore of a plan entry begins (R267). -/
def execRestoreStart (entry : Nat) (s : State) : Answer := act s (fun d => restoreStart d entry)

/-- RECOMPUTE: the command of a discarded plan entry runs again (R268). -/
def execRecompute (entry : Nat) (s : State) : Answer := act s (fun d => recompute d entry)

/-- STAGE_CREDIT_RETURN: a slot of a stage queue is freed (R270). -/
def execStageCreditReturn (queue : Nat) (s : State) : Answer := act s (fun d => creditReturn d queue)

/-- STAGE_STALL_RECORD: a stall of a stage queue has lasted stall_rec (R271). -/
def execStageStallRecord (queue : Nat) (s : State) : Answer := act s (fun d => stallRecord d queue)

/-- RESTORE_COMPLETE: the restore of a plan entry completes (R267). -/
def execRestoreComplete (entry : Nat) (s : State) : Answer := act s (fun d => advance (restoreDone d entry))

/-- OFFLOAD_COPY_DONE: the copy-out of a plan entry completes (R267). -/
def execOffloadCopyDone (entry : Nat) (s : State) : Answer := act s (fun d => advance (offloadDone d entry))

end Sys2Proof.Machine
end

