-- ==== Sys2Proof/Machine/LinkRows.lean ====
section
/-! DEFINITION. Messages and events of the Briaris links: the meaning of each row. -/
namespace Sys2Proof.Machine

/-- STEP_MSG: a step message arrives (R301). -/
def execStepMsg (link : Nat) (flit : Flit) (msg : StepMsg) (s : State) : Answer :=
  act s (fun d => linkOn d (fun d => acceptFlit d link flit (.stepMsg msg) (fun d => advance (stepArrives d flit.src msg))))

/-- COLL_DATA: a chunk of a collective arrives (R298). -/
def execCollData (link : Nat) (flit : Flit) (chunk : CollChunk) (s : State) : Answer :=
  act s (fun d => linkOn d (fun d => acceptFlit d link flit (.collData chunk)
    (fun d => advance (chunkArrives d flit.src chunk))))

/-- COLL_SPILL: a spill record arrives after its entry (R129). -/
def execCollSpill (link : Nat) (flit : Flit) (spill : CollSpill) (s : State) : Answer :=
  act s (fun d => linkOn d (fun d => acceptFlit d link flit (.collSpill spill) (fun d => advance (spillArrives d spill))))

/-- WR: a write request of a peer arrives (R291). -/
def execWr (link : Nat) (flit : Flit) (offset tag : Nat) (data : List Byte) (s : State) : Answer :=
  act s (fun d => linkOn d (fun d => acceptFlit d link flit (.wr offset tag data)
    (fun d => serveRequest d flit.src (.wr offset tag data))))

/-- RD_REQ: a read request of a peer arrives (R291). -/
def execRdReq (link : Nat) (flit : Flit) (offset tag len : Nat) (s : State) : Answer :=
  act s (fun d => linkOn d (fun d => acceptFlit d link flit (.rdReq offset tag len)
    (fun d => serveRequest d flit.src (.rdReq offset tag len))))

/-- SEM_OP: a semaphore operation of a peer arrives (R292). -/
def execSemOp (link : Nat) (flit : Flit) (tag op sem amount : Nat) (s : State) : Answer :=
  act s (fun d => linkOn d (fun d => acceptFlit d link flit (.semOp tag op sem amount)
    (fun d => serveRequest d flit.src (.semOp tag op sem amount))))

/-- PROBE: a probe of a peer arrives (R295). -/
def execProbe (link : Nat) (flit : Flit) (tag : Nat) (s : State) : Answer :=
  act s (fun d => linkOn d (fun d => acceptFlit d link flit (.probe tag) (fun d => serveRequest d flit.src (.probe tag))))

/-- RD_RESP: read data of a peer arrives (R291). -/
def execRdResp (link : Nat) (flit : Flit) (tag : Nat) (data : List Byte) (s : State) : Answer :=
  act s (fun d => linkOn d (fun d => acceptFlit d link flit (.rdResp tag data)
    (fun d => responseArrives d flit.src (.rdResp tag data))))

/-- WR_ACK: the acknowledgement of a remote write arrives (R292). -/
def execWrAck (link : Nat) (flit : Flit) (tag : Nat) (s : State) : Answer :=
  act s (fun d => linkOn d (fun d => acceptFlit d link flit (.wrAck tag) (fun d => responseArrives d flit.src (.wrAck tag))))

/-- SEM_ACK: the acknowledgement of a remote semaphore operation arrives (R292). -/
def execSemAck (link : Nat) (flit : Flit) (tag : Nat) (s : State) : Answer :=
  act s (fun d => linkOn d (fun d => acceptFlit d link flit (.semAck tag)
    (fun d => responseArrives d flit.src (.semAck tag))))

/-- PROBE_RESP: a probe response arrives (R295). -/
def execProbeResp (link : Nat) (flit : Flit) (tag : Nat) (s : State) : Answer :=
  act s (fun d => linkOn d (fun d => acceptFlit d link flit (.probeResp tag)
    (fun d => responseArrives d flit.src (.probeResp tag))))

/-- ERR_RESP: an error response arrives (R291). -/
def execErrResp (link : Nat) (flit : Flit) (tag status : Nat) (s : State) : Answer :=
  act s (fun d => linkOn d (fun d => acceptFlit d link flit (.errResp tag status)
    (fun d => responseArrives d flit.src (.errResp tag status))))

/-- LINK_MGMT: a management flit gives the identity, port and lane mask of the peer (R279). -/
def execLinkMgmt (link peerId peerPort laneMask : Nat) (s : State) : Answer :=
  act s (fun d => linkOn d (fun d => if link < 36 then linkMgmt d link peerId peerPort laneMask else d))

/-- NACK: a NACK arrives (R284). -/
def execNack (link ack credVc cred seq : Nat) (s : State) : Answer :=
  act s (fun d => linkOn d (fun d => nackArrives d link ack credVc cred seq))

/-- IDLE: an IDLE flit arrives (R283). -/
def execIdle (link ack credVc cred : Nat) (s : State) : Answer :=
  act s (fun d => linkOn d (fun d => idleArrives d link ack credVc cred))

/-- CORRUPT_FLIT: a flit is discarded (R284). -/
def execCorruptFlit (link : Nat) (why : FlitFault) (s : State) : Answer :=
  act s (fun d => linkOn d (fun d => corruptFlit d link why))

/-- ACK_STALL_REPLAY: acks have not advanced for 20 µs (R284). -/
def execAckStallReplay (link : Nat) (s : State) : Answer := act s (fun d => linkOn d (fun d => ackStall d link false))

/-- ACK_STALL_RETRAIN: acks have not advanced for 1 ms (R285). -/
def execAckStallRetrain (link : Nat) (s : State) : Answer := act s (fun d => linkOn d (fun d => ackStall d link true))

/-- LINK_TRAIN_DONE: training ends, with the lanes that trained (R279). -/
def execLinkTrainDone (link : Nat) (ok : Bool) (lanes : Nat) (s : State) : Answer :=
  act s (fun d => linkOn d (fun d => trainDone d link ok lanes))

/-- LINK_RETRY_TIMER: a down link tries again (R285). -/
def execLinkRetryTimer (link : Nat) (s : State) : Answer := act s (fun d => linkOn d (fun d => linkRetry d link))

/-- LANE_WINDOW_END: a window of 1 s ends, with the symbols corrected on each lane (R278). -/
def execLaneWindowEnd (link sym0 sym1 sym2 sym3 : Nat) (s : State) : Answer :=
  act s (fun d => linkOn d (fun d => if link < 36 then laneWindow d link [sym0, sym1, sym2, sym3] else d))

/-- RESP_TIMEOUT: a request has had no response within resp_timeout (R293). -/
def execRespTimeout (tag : Nat) (s : State) : Answer := act s (fun d => linkOn d (fun d => respTimeout d tag))

/-- PROBE_TICK: probe_ms passes (R295). -/
def execProbeTick (s : State) : Answer := act s (fun d => linkOn d probeTick)

/-- PEER_UNREACHABLE: a watched peer has answered no probe within probe_timeout (R295). -/
def execPeerUnreachable (peer : Nat) (s : State) : Answer := act s (fun d => linkOn d (fun d => peerUnreachable d peer))

end Sys2Proof.Machine
end

