-- ==== Sys2Proof/Machine/HostRows.lean ====
section
/-! DEFINITION. Host ports and the rings reached from them: the meaning of each row. -/
namespace Sys2Proof.Machine

/-- KRING_DB_SQ: a submission doorbell is written (R312). -/
def execKringDbSq (port ring : Nat) (count : BitVec 32) (s : State) : Answer :=
  act s (fun d => hostAct d port (fun d => dbSq d port ring count.toNat))

/-- KRING_DB_CQ: a completion doorbell is written (R317). -/
def execKringDbCq (port ring : Nat) (count : BitVec 32) (s : State) : Answer :=
  act s (fun d => hostAct d port (fun d => dbCq d port ring count.toNat))

/-- RING_ENABLE: KRING_CFG.enable is set (R311). -/
def execRingEnable (port ring : Nat) (s : State) : Answer :=
  act s (fun d => hostAct d port (fun d => enableRing d port ring))

/-- RING_DISABLE: KRING_CFG.enable is cleared (R318). -/
def execRingDisable (port ring : Nat) (s : State) : Answer :=
  act s (fun d => hostRing d port ring (fun d => ringDisable d port ring))

/-- RING_ABORT: KRING_CTL.abort is written (R318). -/
def execRingAbort (port ring : Nat) (s : State) : Answer :=
  act s (fun d => hostRing d port ring (fun d => ringAbort d port ring))

/-- RING_CLEAR_ERR: KRING_CTL.clear_err is written (R314). -/
def execRingClearErr (port ring : Nat) (s : State) : Answer :=
  act s (fun d => hostRing d port ring (fun d => ringClearErr d port ring))

/-- RING_FETCH_ERROR: the fetch of the next entry of a ring fails (R314). -/
def execRingFetchError (ring : Nat) (s : State) : Answer := act s (fun d => ringFetchError d ring)

/-- MSIX_UNMASK: a vector is unmasked (R321). -/
def execMsixUnmask (port vector : Nat) (s : State) : Answer :=
  act s (fun d => hostAct d port (fun d => if vector < 2048 then msixUnmask d port vector else d))

/-- HEARTBEAT_WRITE: HP_HEARTBEAT is written (R323). -/
def execHeartbeatWrite (port : Nat) (value : BitVec 32) (s : State) : Answer :=
  act s (fun d => hostAct d port (fun d => heartbeatWrite d port value.toNat))

/-- HEARTBEAT_TIMEOUT: hb_timeout passes without a heartbeat (R323). -/
def execHeartbeatTimeout (port : Nat) (s : State) : Answer :=
  act s (fun d => portEvent d port (fun d => heartbeatTimeout d port))

/-- ORPHAN_READ_ABANDON: 10 µs have passed in orphan hold (R324). -/
def execOrphanReadAbandon (port : Nat) (s : State) : Answer := act s (fun d => portEvent d port (fun d => orphanHold d port))

/-- ORPHAN_CLOSE_TIMEOUT: orphan_close has passed in orphan hold (R325). -/
def execOrphanCloseTimeout (port : Nat) (s : State) : Answer :=
  act s (fun d => portEvent d port (fun d => orphanClose d port))

/-- ATTACH: attach is written to HP_ATTACH (R323). -/
def execAttach (port : Nat) (s : State) : Answer := act s (fun d => hostAct d port (fun d => portAttach d port))

/-- RESUME: resume is written to HP_ATTACH (R327). -/
def execResume (port : Nat) (s : State) : Answer := act s (fun d => hostAct d port (fun d => portResume d port))

/-- RESET_RINGS: reset_rings is written to HP_ATTACH (R327). -/
def execResetRings (port : Nat) (s : State) : Answer := act s (fun d => hostAct d port (fun d => portResetRings d port))

/-- DETACH: detach is written to HP_ATTACH (R323). -/
def execDetach (port : Nat) (s : State) : Answer := act s (fun d => hostAct d port (fun d => portDetach d port))

/-- ADOPT: adopt is written to HP_ADOPT (R329). -/
def execAdopt (port : Nat) (s : State) : Answer := act s (fun d => hostAct d port (fun d => portAdopt d port))

/-- PORT_LEVEL_RESET: a port-level reset (R333). -/
def execPortLevelReset (port : Nat) (how : PortReset) (s : State) : Answer := act s (fun d => portLevelReset d port how)

/-- PERST_RELEASE: PERST# of a port is released (R466). -/
def execPerstRelease (port : Nat) (s : State) : Answer := act s (fun d => perstRow d port)

/-- D3HOT_ENTRY: the function of a port goes to D3hot (R334). -/
def execD3hotEntry (port : Nat) (s : State) : Answer := act s (fun d => hostAct d port (fun d => d3Entry d port))

/-- D0_RETURN: the function of a port returns to D0 (R334). -/
def execD0Return (port : Nat) (s : State) : Answer := act s (fun d => portEvent d port (fun d => d0Return d port))

/-- ATS_INVALIDATION: an ATS invalidation arrives (R305). -/
def execAtsInvalidation (port tag : Nat) (s : State) : Answer :=
  act s (fun d => hostAct d port (fun d => atsInvalidate d port tag))

/-- EVT_STATUS_CLEAR: HP_EVT_STATUS of a bank is written (R461). -/
def execEvtStatusClear (port bank : Nat) (value : BitVec 64) (s : State) : Answer :=
  act s (fun d => hostAct d port (fun d => if bank < 2 then evtClear d port bank value.toNat else d))

/-- EVT_EN_WRITE: HP_EVT_EN of a bank is written (R461). -/
def execEvtEnWrite (port bank : Nat) (value : BitVec 64) (s : State) : Answer :=
  act s (fun d => hostAct d port (fun d => if bank < 2 then evtEnWrite d port bank (bits value.toNat 11 0) else d))

/-- HOST_LINK_TRAINED: the PCIe link of a port has retrained (R333). -/
def execHostLinkTrained (port : Nat) (s : State) : Answer := act s (fun d => portEvent d port (fun d => hostTrained d port))

end Sys2Proof.Machine
end

