-- ==== Sys2Proof/Machine/RegisterRows.lean ====
section
/-! DEFINITION. Writes of registers by a host: the meaning of each row. -/
namespace Sys2Proof.Machine

/-- SEM_VALUE_WRITE: SEM_VALUE is written: part 0 its low word, 1 its high word, 2 both (R255). -/
def execSemValueWrite (port sem part : Nat) (value : BitVec 64) (s : State) : Answer :=
  act s (fun d => hostAwake d port (fun d => if sem < 262144 then writeSem d sem (semPart part value.toNat) else d))

/-- SIDE_INVAL: CARD_CTL.side_inval is written (R149). -/
def execSideInval (port core : Nat) (s : State) : Answer :=
  act s (fun d => hostAwake d port
    (fun d => if core < 64 ∧ coreWritable d .cardCtl core = true then sideInvalidate d core else d))

/-- ARR_CNT_CLEAR: ARR_CTL.cnt_clear is written (R10). -/
def execArrCntClear (port array : Nat) (s : State) : Answer :=
  act s (fun d => hostAwake d port
    (fun d => if array < 256 ∧ coreWritable d .arrCtl array = true then clearArr d array else d))

/-- SAF_CNT_CLEAR: SAF_CTL.cnt_clear is written (R10). -/
def execSafCntClear (port array : Nat) (s : State) : Answer :=
  act s (fun d => hostAwake d port
    (fun d => if array < 256 ∧ coreWritable d .safCtl array = true then clearSaf d array else d))

/-- CARD_CNT_CLEAR: CARD_CTL.cnt_clear is written (R10). -/
def execCardCntClear (port core : Nat) (s : State) : Answer :=
  act s (fun d => hostAwake d port
    (fun d => if core < 64 ∧ coreWritable d .cardCtl core = true then clearCard d core else d))

/-- LOCK_SET: a lock bit is written, by its place in lockFields (R444). -/
def execLockSet (port lock : Nat) (s : State) : Answer := act s (fun d => lockSet d port lock)

/-- SPILL_HWM_READ: SAF_SPILL_HWM is read (R10). -/
def execSpillHwmRead (port die : Nat) (s : State) : Answer := act s (fun d => spillHwmRead d port die)

/-- REGISTER_WRITE: a write of 4 or 8 bytes at an offset of a BAR (R10, R307). -/
def execRegisterWrite (port bar offset size : Nat) (value : BitVec 64) (s : State) : Answer :=
  act s (fun d => registerWrite d port bar offset size value.toNat)

end Sys2Proof.Machine
end

