-- ==== Sys2Proof/Machine/MailboxRows.lean ====
section
/-! DEFINITION. Mailboxes, firmware, policy and secure services: the meaning of each row. -/
namespace Sys2Proof.Machine

/-- MBX_DOORBELL: MBX_CH_DB is written by a master identity (R383). -/
def execMbxDoorbell (ident ch length : Nat) (s : State) : Answer :=
  act s (fun d => identAct d ident (fun d => mbxDoorbell d ident ch length))

/-- MBX_DONE_CLEAR: 1 is written to MBX_CH_STATUS.done (R383). -/
def execMbxDoneClear (ident ch : Nat) (s : State) : Answer :=
  act s (fun d => identAct d ident (fun d => mbxDoneClear d ident ch))

/-- MBX_CH_WAKE: 1 is written to MBX_CH_WAKE (R385). -/
def execMbxChWake (ident ch : Nat) (s : State) : Answer := act s (fun d => identAct d ident (fun d => mbxWake d ident ch))

/-- HELLO: a service takes the HELLO of a channel (R371). -/
def execHello (ch lowest highest : Nat) (s : State) : Answer := act s (fun d => hello d ch lowest highest)

/-- LOAD: the boot ROM takes the LOAD of a channel (R368). -/
def execLoad (ch addr length : Nat) (s : State) : Answer := act s (fun d => fwLoad d ch addr length)

/-- FW_RUNNING: every compartment has started (R369). -/
def execFwRunning (s : State) : Answer := act s fwRunning

/-- STAGE: the firmware takes the STAGE of a channel (R372). -/
def execStage (ch addr length : Nat) (s : State) : Answer := act s (fun d => fwStage d ch addr length)

/-- ACTIVATE: the firmware takes the ACTIVATE of a channel (R373). -/
def execActivate (ch : Nat) (s : State) : Answer := act s (fun d => fwActivate d ch)

/-- CANCEL: the firmware takes the CANCEL of a channel (R373). -/
def execCancel (ch : Nat) (s : State) : Answer := act s (fun d => fwCancel d ch)

/-- STATUS: the firmware takes the STATUS of a channel (R371). -/
def execStatus (ch : Nat) (s : State) : Answer := act s (fun d => fwStatus d ch)

/-- ACTIVATION_PROCEED: a deferred activation proceeds (R373). -/
def execActivationProceed (s : State) : Answer := act s actProceed

/-- ACTIVATION_EXPIRED: a deferral has lasted max_defer (R373). -/
def execActivationExpired (s : State) : Answer := act s actExpired

/-- HANDOVER_RESUME: the new image serves (R375). -/
def execHandoverResume (s : State) : Answer := act s handResume

/-- HANDOVER_CONFIRM: the new image confirms (R375). -/
def execHandoverConfirm (s : State) : Answer := act s handConfirm

/-- HANDOVER_TIMEOUT: t_f + 250 ms passes without confirmation (R376). -/
def execHandoverTimeout (s : State) : Answer := act s handTimeout

/-- COMPARTMENT_FAULT: a compartment faults, with its cause (R363). -/
def execCompartmentFault (comp cause : Nat) (s : State) : Answer := act s (fun d => compFault d comp cause)

/-- COMPARTMENT_WATCHDOG_EXPIRY: the watchdog of a compartment expires (R363). -/
def execCompartmentWatchdogExpiry (comp : Nat) (s : State) : Answer := act s (fun d => compFault d comp watchdogCause)

/-- COMPARTMENT_RESTARTED: a compartment serves again (R363). -/
def execCompartmentRestarted (comp : Nat) (s : State) : Answer := act s (fun d => compRestarted d comp)

/-- SET_CAP: the SET_CAP request of a channel is taken (R386). -/
def execSetCap (ch watts : Nat) (s : State) : Answer := act s (fun d => setCap d ch watts)

/-- SET_PROFILE: the SET_PROFILE request of a channel is taken (R386). -/
def execSetProfile (ch profile : Nat) (s : State) : Answer := act s (fun d => setProfile d ch profile)

/-- PROFILE_SWITCH: the requested profile takes effect (R397). -/
def execProfileSwitch (s : State) : Answer := act s profileSwitch

/-- SET_PRIORITY: the SET_PRIORITY request of a channel is taken (R386). -/
def execSetPriority (ch code : Nat) (s : State) : Answer := act s (fun d => setPriority d ch code)

/-- SET_CLASS_WEIGHTS: the SET_CLASS_WEIGHTS request of a channel is taken (R386). -/
def execSetClassWeights (ch w0 w1 w2 w3 : Nat) (s : State) : Answer := act s (fun d => setWeights d ch w0 w1 w2 w3)

/-- SET_DEPTH_RANGE: the SET_DEPTH_RANGE request of a channel is taken (R386). -/
def execSetDepthRange (ch lowest highest : Nat) (s : State) : Answer := act s (fun d => setDepth d ch lowest highest)

/-- GET_POLICY: the GET_POLICY request of a channel is taken (R386). -/
def execGetPolicy (ch : Nat) (s : State) : Answer := act s (fun d => getPolicy d ch)

/-- QUOTE: a quote is asked for (R449). -/
def execQuote (ch : Nat) (s : State) : Answer := act s (fun d => secQuote d ch)

/-- GET_CERT: the certificate is asked for (R440). -/
def execGetCert (ch : Nat) (s : State) : Answer := act s (fun d => secCert d ch)

/-- SIGN: a signature is asked for (R449). -/
def execSign (ch : Nat) (s : State) : Answer := act s (fun d => secSign d ch)

/-- CONFIG_STAGE: a configuration image is staged (R438). -/
def execConfigStage (ch addr length : Nat) (s : State) : Answer := act s (fun d => secStage d ch addr length)

/-- FLOOR_RAISE: the firmware floor is raised (R441). -/
def execFloorRaise (ch : Nat) (s : State) : Answer := act s (fun d => secFloor d ch)

/-- GET_CHALLENGE: a debug challenge is asked for (R450). -/
def execGetChallenge (ch : Nat) (s : State) : Answer := act s (fun d => secChallenge d ch)

/-- UNLOCK: a debug token is presented (R450). -/
def execUnlock (ch : Nat) (s : State) : Answer := act s (fun d => secUnlock d ch)

/-- CLEAR_PINNED: pinned records are cleared (R425). -/
def execClearPinned (ch seq : Nat) (s : State) : Answer := act s (fun d => clearPinned d ch seq)

end Sys2Proof.Machine
end

