-- ==== Sys2Proof/Machine/ResetRows.lean ====
section
/-! DEFINITION. Resets and their ends: the meaning of each row. -/
namespace Sys2Proof.Machine

/-- RESET_PACKAGE: a warm package reset is asked for (R447). -/
def execResetPackage (ch : Nat) (s : State) : Answer := act s (fun d => resetPackage d ch)

/-- RESET_DIE: a die reset is asked for (R447). -/
def execResetDie (ch die : Nat) (s : State) : Answer := act s (fun d => resetDie d ch die)

/-- RESET_CORE: a core reset is asked for (R447). -/
def execResetCore (ch core : Nat) (s : State) : Answer := act s (fun d => resetCore d ch core)

/-- RESET_STACK: a stack base reset is asked for (R447). -/
def execResetStack (ch stack : Nat) (s : State) : Answer := act s (fun d => resetStack d ch stack)

/-- RESET_LINK: a link reset is asked for (R447). -/
def execResetLink (ch link : Nat) (s : State) : Answer := act s (fun d => resetLink d ch link)

/-- QUIESCE_FORCED_IDLE: ports of a core (kind 1) or die (2) are forced idle and rows of commands are lost (R220).
-/
def execQuiesceForcedIdle (kind unit rows : Nat) (lost : List (Nat × Nat)) (s : State) : Answer :=
  act s (fun d => forcedIdle d kind unit rows lost)

/-- DIE_RESET_RELEASE: the reset of a die is released (R262). -/
def execDieResetRelease (die : Nat) (s : State) : Answer := act s (fun d => dieRelease d die)

/-- CORE_RESET_RELEASE: the reset of a core is released (R218). -/
def execCoreResetRelease (core : Nat) (s : State) : Answer := act s (fun d => coreRelease d core)

/-- LYR_HOLD_LIMIT: hold_limit passes for what waits on a core (R219). -/
def execLyrHoldLimit (who : Waiter) (s : State) : Answer := act s (fun d => holdLimit d false who)

/-- STACK_BASE_RESET_DONE: the reset of a stack base is done (R241). -/
def execStackBaseResetDone (stack : Nat) (s : State) : Answer := act s (fun d => stackDone d stack)

/-- MEM_HOLD_LIMIT: hold_limit passes for what waits on a stack (R242). -/
def execMemHoldLimit (who : Waiter) (s : State) : Answer := act s (fun d => holdLimit d true who)

/-- PKG_RESET_PIN: PKG_RESET_N has been low for 1 µs (R446). -/
def execPkgResetPin (s : State) : Answer := act s (fun d => warmReset d 3)

/-- UPDATE_UNIT_FAULT: a fault of an update unit is detected (R185). -/
def execUpdateUnitFault (unit : Nat) (s : State) : Answer := act s (fun d => updateFault d unit)

/-- STACK_BASE_FAULT: a fault of a stack base is detected (R241). -/
def execStackBaseFault (stack : Nat) (s : State) : Answer := act s (fun d => stackFault d stack)

end Sys2Proof.Machine
end

