-- ==== Sys2Proof/Machine/PowerRows.lean ====
section
/-! DEFINITION. Power, heat and sleep: the meaning of each row. -/
namespace Sys2Proof.Machine

/-- POWER_APPLY: the input is applied (R442). -/
def execPowerApply (s : State) : Answer := act s powerApply

/-- MAIN_POWER_STABLE: the input has stood above 44 V for 10 ms (R442). -/
def execMainPowerStable (s : State) : Answer := act s mainStable

/-- INPUT_REMOVED: the input is lost (R209). -/
def execInputRemoved (s : State) : Answer := act s inputRemoved

/-- INPUT_SAMPLE: voltage, current and losses of a microsecond (R388). -/
def execInputSample (millivolts centiamps lossWatts : Nat) (s : State) : Answer :=
  act s (fun d => inputSample d millivolts centiamps lossWatts)

/-- INPUT_UNDERVOLTAGE: the input has been below 44 V for 10 µs (R388). -/
def execInputUndervoltage (s : State) : Answer := act s undervoltage

/-- UNDERVOLTAGE_CLEAR: the input has been above 45 V for 1 ms (R388). -/
def execUndervoltageClear (s : State) : Answer := act s undervoltageClear

/-- UNDERVOLTAGE_SHUTDOWN: the input has been below 40 V for 100 µs (R388). -/
def execUndervoltageShutdown (s : State) : Answer := act s (fun d => inputShutdown d 4)

/-- OVERVOLTAGE_SHUTDOWN: the input has been above 60 V for 10 µs (R388). -/
def execOvervoltageShutdown (s : State) : Answer := act s (fun d => inputShutdown d 5)

/-- INPUT_RESTART: after an input shutdown the input has been above 45 V for 1 s (R388). -/
def execInputRestart (s : State) : Answer := act s inputRestart

/-- HW_CAP_LOOP: a run of the hardware cap loop on the power of its window (R393). -/
def execHwCapLoop (die measured modelled : Nat) (s : State) : Answer :=
  act s (fun d => if die < 2 then hwCapLoop d die measured modelled else d)

/-- FW_CAP_LOOP: a run of the firmware loop on what it measures and predicts (R394). -/
def execFwCapLoop (loss other links memory compute computeFloor stepN stepS : Nat) (s : State) : Answer :=
  act s (fun d => fwCapLoop d ⟨loss, other, links, memory, compute, computeFloor, stepN, stepS⟩)

/-- STEP_CHANGE_DONE: a die switches to its new PLL (R389). -/
def execStepChangeDone (die : Nat) (s : State) : Answer := act s (fun d => stepChangeDone d die)

/-- STACK_POWER_WINDOW: a window of a stack ends, with its events (R233, R234). -/
def execStackPowerWindow (stack activates reads writes _background : Nat) (s : State) : Answer :=
  act s (fun d => if stack < 8 then stackWindow d stack activates reads writes else d)

/-- DROOP_DETECT: a droop of a core is detected (R391). -/
def execDroopDetect (core : Nat) (s : State) : Answer := act s (fun d => if core < 64 then droopDetect d core else d)

/-- DROOP_STORM_END: a storm ends (R392). -/
def execDroopStormEnd (die : Nat) (s : State) : Answer := act s (fun d => if die < 2 then droopStormEnd d die else d)

/-- THERMAL_SAMPLE: a reading of a logic-die diode (kind 0), a layer or cap diode (1) or a stack (2), in 1/16 °C
(R398). -/
def execThermalSample (kind index : Nat) (value : BitVec 16) (s : State) : Answer :=
  act s (fun d => thermalSample d kind index value.toNat)

/-- WARNING_STEP_DOWN: 100 ms of rising value during a warning (R400). -/
def execWarningStepDown (die : Nat) (s : State) : Answer := act s (fun d => if die < 2 then warningStepDown d die else d)

/-- THROTTLE_ESCALATE: a location is still at the throttle threshold after 10 ms (R401). -/
def execThrottleEscalate (die location : Nat) (s : State) : Answer :=
  act s (fun d => if die < 2 ∧ location < 3 then powered d (fun d => throttleEscalate d die location) else d)

/-- THROTTLE_RELEASE: a location has stood 5 °C below the threshold for 10 ms (R401). -/
def execThrottleRelease (die location : Nat) (s : State) : Answer :=
  act s (fun d => if die < 2 ∧ location < 3 then powered d (fun d => throttleRelease d die location) else d)

/-- THERMAL_RESTART: every sensor has read below 80 °C for 10 s (R403). -/
def execThermalRestart (s : State) : Answer := act s thermalRestart

/-- CANARY_UPDATE: a canary group has run its test (R212). -/
def execCanaryUpdate (sensor flipped : Nat) (dead : Bool) (s : State) : Answer :=
  act s (fun d => canaryUpdate d sensor flipped dead)

/-- LAYER_MODEL_UPDATE: the model of a layer region is updated (R213). -/
def execLayerModelUpdate (sensor rows : Nat) (s : State) : Answer := act s (fun d => layerModelUpdate d sensor rows)

/-- LAYER_GOVERN_UPDATE: the governing value of a layer region is chosen (R214). -/
def execLayerGovernUpdate (sensor : Nat) (s : State) : Answer := act s (fun d => layerGovern d sensor)

/-- SUSPECT_FLAG_TICK: 10 min more of a suspect episode (R215). -/
def execSuspectFlagTick (sensor : Nat) (s : State) : Answer :=
  act s (fun d => if sensor < 160 then suspectTick d sensor else d)

/-- SUSPECT_EPISODE_CLOSE: a diode has not been suspect for 10 s (R215). -/
def execSuspectEpisodeClose (sensor : Nat) (s : State) : Answer :=
  act s (fun d => if sensor < 160 then suspectClose d sensor else d)

/-- MARGIN_REPLAN: a region is re-planned after 720 h (R407). -/
def execMarginReplan (region core : Nat) (s : State) : Answer := act s (fun d => marginReplan d region core)

/-- SLEEP_ENTRY: idle_s of idleness has passed (R405). -/
def execSleepEntry (s : State) : Answer := act s sleepEntry

/-- LINK_ACTIVITY_WAKE: activity on the PCIe link of a port (R405). -/
def execLinkActivityWake (port : Nat) (s : State) : Answer := act s (fun d => linkWake d port)

end Sys2Proof.Machine
end

