-- ==== Sys2Proof/Machine/UpkeepRows.lean ====
section
/-! DEFINITION. Repairs, retirements and background activities: the meaning of each row. -/
namespace Sys2Proof.Machine

/-- BOND_LANE_REPAIR: a lane of a layer port reaches its threshold (R204). -/
def execBondLaneRepair (port group lane : Nat) (s : State) : Answer := act s (fun d => laneRepair d port group lane)

/-- BOND_ROW_REPLACE: a row of a layer reaches row_thr (R205). -/
def execBondRowReplace (die layer row : Nat) (s : State) : Answer := act s (fun d => rowReplace d die layer row)

/-- PC_RETIRE: a pseudo-channel reaches its threshold (R236). -/
def execPcRetire (pc : Nat) (s : State) : Answer := act s (fun d => pcRetire d pc)

/-- SPARE_COPY_DONE: the copy to a spare completes (R237). -/
def execSpareCopyDone (pc : Nat) (s : State) : Answer := act s (fun d => spareDone d pc)

/-- CAPACITY_MOVE_DONE: the move within the reduced capacity completes, with the ranges that could not be read
(R239). -/
def execCapacityMoveDone (pc : Nat) (lost : List (Nat × Nat)) (s : State) : Answer := act s (fun d => capacityDone d pc lost)

/-- RESOURCE_RETIRE: a resource is retired (R416). -/
def execResourceRetire (kind unit cause : Nat) (s : State) : Answer := act s (fun d => resourceRetire d kind unit cause)

/-- REGISTRY_COMPACT: the registry is compacted (R419). -/
def execRegistryCompact (s : State) : Answer := act s registryCompact

/-- NUTMEG_MIRROR: pinned records are mirrored to the NVM (R423). -/
def execNutmegMirror (s : State) : Answer := act s nutmegMirror

/-- DRAM_PATROL_SCRUB: a pass of the patrol scrub ends (R232). -/
def execDramPatrolScrub (s : State) : Answer := act s dramScrub

/-- LAYER_SCRUB: a pass of the layer scrub ends (R207). -/
def execLayerScrub (s : State) : Answer := act s layerScrub

/-- LINK_PHY_RECAL: a lane is recalibrated (R428). -/
def execLinkPhyRecal (link lane : Nat) (s : State) : Answer := act s (fun d => phyRecal d link lane)

/-- MEM_IF_CAL: the interface of a pseudo-channel is calibrated (R428). -/
def execMemIfCal (pc : Nat) (s : State) : Answer := act s (fun d => memCal d pc)

/-- SENSOR_CAL: a diode at a location of a die is calibrated (R428). -/
def execSensorCal (die location : Nat) (s : State) : Answer := act s (fun d => sensorCal d die location)

/-- AGEING_PROBE: a region has been probed: ageing index in ppm, lowest voltage (R406). -/
def execAgeingProbe (region index vmin : Nat) (s : State) : Answer := act s (fun d => probeRegion d region index vmin)

/-- TELEMETRY_SAMPLE: sample_ms passes (R426). -/
def execTelemetrySample (s : State) : Answer := act s telemetrySample

/-- BG_DEFERRAL_REACHED: the lag of an activity reaches its maximum deferral (R428). -/
def execBgDeferralReached (activity : Nat) (s : State) : Answer := act s (fun d => bgDeferral d activity)

end Sys2Proof.Machine
end

