-- ==== Sys2Proof/Machine/SidebandRows.lean ====
section
/-! DEFINITION. Board management and boundary scan: the meaning of each row. -/
namespace Sys2Proof.Machine

/-- BM_REGISTER_READ: a register read of board management (R470). -/
def execBmRegisterRead (offset length : Nat) (s : State) : Answer := act s (fun d => bmRead d offset length)

/-- BM_REGISTER_WRITE: a register write of board management (R470). -/
def execBmRegisterWrite (offset : Nat) (data : List Byte) (s : State) : Answer := act s (fun d => bmWrite d offset data)

/-- BM_RESTART: RESTART of board management (R404). -/
def execBmRestart (s : State) : Answer := act s bmRestart

/-- BM_PACKAGE_RESET: PACKAGE_RESET of board management (R470). -/
def execBmPackageReset (s : State) : Answer := act s bmPackageReset

/-- ENTDAA: a dynamic address is assigned (R469). -/
def execEntDaa (address : Nat) (s : State) : Answer := act s (fun d => entDaa d address)

/-- RSTDAA: the dynamic address is reset (R469). -/
def execRstDaa (s : State) : Answer := act s rstDaa

/-- ENEC: target events are enabled (R469). -/
def execEnec (s : State) : Answer := act s enEc

/-- DISEC: target events are disabled (R469). -/
def execDisec (s : State) : Answer := act s disEc

/-- GETPID: the provisional ID is read (R469). -/
def execGetPid (s : State) : Answer := act s (fun d => bmDirect d 48 Config.bmPid)

/-- GETBCR: the bus characteristics are read (R469). -/
def execGetBcr (s : State) : Answer := act s (fun d => bmDirect d 8 Config.bmBcr)

/-- GETDCR: the device characteristics are read (R469). -/
def execGetDcr (s : State) : Answer := act s (fun d => bmDirect d 8 Config.bmDcr)

/-- GETSTATUS: the target status is read (R469). -/
def execGetStatus (s : State) : Answer := act s getStatus

/-- GETMXDS: the maximum data speed is read (R469). -/
def execGetMxds (s : State) : Answer := act s (fun d => bmDirect d 16 Config.bmMxds)

/-- TAP_BYPASS: the TAP instruction BYPASS (R471). -/
def execTapBypass (s : State) : Answer := act s (fun d => tapRun d .bypass 0)

/-- TAP_IDCODE: the TAP instruction IDCODE (R471). -/
def execTapIdcode (s : State) : Answer := act s (fun d => tapRun d .idcode 0)

/-- TAP_SAMPLE_PRELOAD: the TAP instruction SAMPLE/PRELOAD, with the pattern shifted in (R471). -/
def execTapSamplePreload (pattern : Nat) (s : State) : Answer := act s (fun d => tapRun d .samplePreload pattern)

/-- TAP_EXTEST: the TAP instruction EXTEST, with the pattern that drives the pins (R471). -/
def execTapExtest (pattern : Nat) (s : State) : Answer := act s (fun d => tapRun d .extest pattern)

/-- TAP_CLAMP: the TAP instruction CLAMP (R471). -/
def execTapClamp (s : State) : Answer := act s (fun d => tapRun d .clamp 0)

/-- TAP_HIGHZ: the TAP instruction HIGHZ (R471). -/
def execTapHighz (s : State) : Answer := act s (fun d => tapRun d .highz 0)

/-- TAP_EXTEST_PULSE: the TAP instruction EXTEST_PULSE (R471). -/
def execTapExtestPulse (s : State) : Answer := act s (fun d => tapRun d .extestPulse 0)

/-- TAP_EXTEST_TRAIN: the TAP instruction EXTEST_TRAIN (R471). -/
def execTapExtestTrain (s : State) : Answer := act s (fun d => tapRun d .extestTrain 0)

/-- TAP_INTERNAL_SCAN: internal scan, with Cumin halted or not (R451). -/
def execTapInternalScan (halt : Bool) (s : State) : Answer := act s (fun d => tapRun d .internalScan (b2n halt))

end Sys2Proof.Machine
end

