-- ==== Sys2Proof/Machine/Dispatch.lean ====
section
/-! DEFINITION. One arm per command: the meaning that its row of the opcode table has. -/
namespace Sys2Proof.Machine

/-- What a command does to everything but the queue. -/
def exec (i : Instr) (s : State) : Host.Outcome State Fault Refusal :=
  match i with
  | .mm ring => Sys2Proof.Machine.execMm ring s
  | .conv ring => Sys2Proof.Machine.execConv ring s
  | .sliceMm ring => Sys2Proof.Machine.execSliceMm ring s
  | .row ring => Sys2Proof.Machine.execRow ring s
  | .vec ring => Sys2Proof.Machine.execVec ring s
  | .copy ring => Sys2Proof.Machine.execCopy ring s
  | .mcast ring => Sys2Proof.Machine.execMcast ring s
  | .fennelPut ring => Sys2Proof.Machine.execFennelPut ring s
  | .semWait ring => Sys2Proof.Machine.execSemWait ring s
  | .semSignal ring => Sys2Proof.Machine.execSemSignal ring s
  | .allreduce ring => Sys2Proof.Machine.execAllreduce ring s
  | .reduce ring => Sys2Proof.Machine.execReduce ring s
  | .broadcast ring => Sys2Proof.Machine.execBroadcast ring s
  | .allgather ring => Sys2Proof.Machine.execAllgather ring s
  | .treeLoad ring => Sys2Proof.Machine.execTreeLoad ring s
  | .routeLoad ring => Sys2Proof.Machine.execRouteLoad ring s
  | .updBind ring => Sys2Proof.Machine.execUpdBind ring s
  | .updUnbind ring => Sys2Proof.Machine.execUpdUnbind ring s
  | .stepOpen ring => Sys2Proof.Machine.execStepOpen ring s
  | .stepOpenHeldStart group => Sys2Proof.Machine.execStepOpenHeldStart group s
  | .stepClose ring => Sys2Proof.Machine.execStepClose ring s
  | .stepCloseReduce group => Sys2Proof.Machine.execStepCloseReduce group s
  | .scaleSet ring => Sys2Proof.Machine.execScaleSet ring s
  | .censusRead ring => Sys2Proof.Machine.execCensusRead ring s
  | .digest ring => Sys2Proof.Machine.execDigest ring s
  | .fence ring => Sys2Proof.Machine.execFence ring s
  | .timestamp ring => Sys2Proof.Machine.execTimestamp ring s
  | .nop ring => Sys2Proof.Machine.execNop ring s
  | .badOpcode ring => Sys2Proof.Machine.execBadOpcode ring s
  | .waitResume ring seq => Sys2Proof.Machine.execWaitResume ring seq s
  | .commandComplete ring seq => Sys2Proof.Machine.execCommandComplete ring seq s
  | .irqCoalesceTimeout ring => Sys2Proof.Machine.execIrqCoalesceTimeout ring s
  | .stepMsg link flit msg => Sys2Proof.Machine.execStepMsg link flit msg s
  | .stepCloseTimeout group => Sys2Proof.Machine.execStepCloseTimeout group s
  | .updPhaseDone shard => Sys2Proof.Machine.execUpdPhaseDone shard s
  | .fingerprintCompare shard => Sys2Proof.Machine.execFingerprintCompare shard s
  | .fingerprintResult shard agreed regions => Sys2Proof.Machine.execFingerprintResult shard agreed regions s
  | .copyScrub shard => Sys2Proof.Machine.execCopyScrub shard s
  | .collData link flit chunk => Sys2Proof.Machine.execCollData link flit chunk s
  | .collSpill link flit spill => Sys2Proof.Machine.execCollSpill link flit spill s
  | .wr link flit offset tag data => Sys2Proof.Machine.execWr link flit offset tag data s
  | .rdReq link flit offset tag len => Sys2Proof.Machine.execRdReq link flit offset tag len s
  | .semOp link flit tag op sem amount => Sys2Proof.Machine.execSemOp link flit tag op sem amount s
  | .probe link flit tag => Sys2Proof.Machine.execProbe link flit tag s
  | .rdResp link flit tag data => Sys2Proof.Machine.execRdResp link flit tag data s
  | .wrAck link flit tag => Sys2Proof.Machine.execWrAck link flit tag s
  | .semAck link flit tag => Sys2Proof.Machine.execSemAck link flit tag s
  | .probeResp link flit tag => Sys2Proof.Machine.execProbeResp link flit tag s
  | .errResp link flit tag status => Sys2Proof.Machine.execErrResp link flit tag status s
  | .linkMgmt link peerId peerPort laneMask => Sys2Proof.Machine.execLinkMgmt link peerId peerPort laneMask s
  | .nack link ack credVc cred seq => Sys2Proof.Machine.execNack link ack credVc cred seq s
  | .idle link ack credVc cred => Sys2Proof.Machine.execIdle link ack credVc cred s
  | .corruptFlit link why => Sys2Proof.Machine.execCorruptFlit link why s
  | .ackStallReplay link => Sys2Proof.Machine.execAckStallReplay link s
  | .ackStallRetrain link => Sys2Proof.Machine.execAckStallRetrain link s
  | .linkTrainDone link ok lanes => Sys2Proof.Machine.execLinkTrainDone link ok lanes s
  | .linkRetryTimer link => Sys2Proof.Machine.execLinkRetryTimer link s
  | .laneWindowEnd link sym0 sym1 sym2 sym3 => Sys2Proof.Machine.execLaneWindowEnd link sym0 sym1 sym2 sym3 s
  | .respTimeout tag => Sys2Proof.Machine.execRespTimeout tag s
  | .probeTick => Sys2Proof.Machine.execProbeTick s
  | .peerUnreachable peer => Sys2Proof.Machine.execPeerUnreachable peer s
  | .kringDbSq port ring count => Sys2Proof.Machine.execKringDbSq port ring count s
  | .kringDbCq port ring count => Sys2Proof.Machine.execKringDbCq port ring count s
  | .ringEnable port ring => Sys2Proof.Machine.execRingEnable port ring s
  | .ringDisable port ring => Sys2Proof.Machine.execRingDisable port ring s
  | .ringAbort port ring => Sys2Proof.Machine.execRingAbort port ring s
  | .ringClearErr port ring => Sys2Proof.Machine.execRingClearErr port ring s
  | .ringFetchError ring => Sys2Proof.Machine.execRingFetchError ring s
  | .msixUnmask port vector => Sys2Proof.Machine.execMsixUnmask port vector s
  | .heartbeatWrite port value => Sys2Proof.Machine.execHeartbeatWrite port value s
  | .heartbeatTimeout port => Sys2Proof.Machine.execHeartbeatTimeout port s
  | .orphanReadAbandon port => Sys2Proof.Machine.execOrphanReadAbandon port s
  | .orphanCloseTimeout port => Sys2Proof.Machine.execOrphanCloseTimeout port s
  | .attach port => Sys2Proof.Machine.execAttach port s
  | .resume port => Sys2Proof.Machine.execResume port s
  | .resetRings port => Sys2Proof.Machine.execResetRings port s
  | .detach port => Sys2Proof.Machine.execDetach port s
  | .adopt port => Sys2Proof.Machine.execAdopt port s
  | .portLevelReset port how => Sys2Proof.Machine.execPortLevelReset port how s
  | .perstRelease port => Sys2Proof.Machine.execPerstRelease port s
  | .d3hotEntry port => Sys2Proof.Machine.execD3hotEntry port s
  | .d0Return port => Sys2Proof.Machine.execD0Return port s
  | .atsInvalidation port tag => Sys2Proof.Machine.execAtsInvalidation port tag s
  | .evtStatusClear port bank value => Sys2Proof.Machine.execEvtStatusClear port bank value s
  | .evtEnWrite port bank value => Sys2Proof.Machine.execEvtEnWrite port bank value s
  | .semValueWrite port sem part value => Sys2Proof.Machine.execSemValueWrite port sem part value s
  | .sideInval port core => Sys2Proof.Machine.execSideInval port core s
  | .arrCntClear port array => Sys2Proof.Machine.execArrCntClear port array s
  | .safCntClear port array => Sys2Proof.Machine.execSafCntClear port array s
  | .cardCntClear port core => Sys2Proof.Machine.execCardCntClear port core s
  | .lockSet port lock => Sys2Proof.Machine.execLockSet port lock s
  | .spillHwmRead port die => Sys2Proof.Machine.execSpillHwmRead port die s
  | .registerWrite port bar offset size value => Sys2Proof.Machine.execRegisterWrite port bar offset size value s
  | .mbxDoorbell ident ch length => Sys2Proof.Machine.execMbxDoorbell ident ch length s
  | .mbxDoneClear ident ch => Sys2Proof.Machine.execMbxDoneClear ident ch s
  | .mbxChWake ident ch => Sys2Proof.Machine.execMbxChWake ident ch s
  | .hello ch lowest highest => Sys2Proof.Machine.execHello ch lowest highest s
  | .load ch addr length => Sys2Proof.Machine.execLoad ch addr length s
  | .fwRunning => Sys2Proof.Machine.execFwRunning s
  | .stage ch addr length => Sys2Proof.Machine.execStage ch addr length s
  | .activate ch => Sys2Proof.Machine.execActivate ch s
  | .cancel ch => Sys2Proof.Machine.execCancel ch s
  | .status ch => Sys2Proof.Machine.execStatus ch s
  | .activationProceed => Sys2Proof.Machine.execActivationProceed s
  | .activationExpired => Sys2Proof.Machine.execActivationExpired s
  | .handoverResume => Sys2Proof.Machine.execHandoverResume s
  | .handoverConfirm => Sys2Proof.Machine.execHandoverConfirm s
  | .handoverTimeout => Sys2Proof.Machine.execHandoverTimeout s
  | .compartmentFault comp cause => Sys2Proof.Machine.execCompartmentFault comp cause s
  | .compartmentWatchdogExpiry comp => Sys2Proof.Machine.execCompartmentWatchdogExpiry comp s
  | .compartmentRestarted comp => Sys2Proof.Machine.execCompartmentRestarted comp s
  | .setCap ch watts => Sys2Proof.Machine.execSetCap ch watts s
  | .setProfile ch profile => Sys2Proof.Machine.execSetProfile ch profile s
  | .profileSwitch => Sys2Proof.Machine.execProfileSwitch s
  | .setPriority ch code => Sys2Proof.Machine.execSetPriority ch code s
  | .setClassWeights ch w0 w1 w2 w3 => Sys2Proof.Machine.execSetClassWeights ch w0 w1 w2 w3 s
  | .setDepthRange ch lowest highest => Sys2Proof.Machine.execSetDepthRange ch lowest highest s
  | .getPolicy ch => Sys2Proof.Machine.execGetPolicy ch s
  | .quote ch => Sys2Proof.Machine.execQuote ch s
  | .getCert ch => Sys2Proof.Machine.execGetCert ch s
  | .sign ch => Sys2Proof.Machine.execSign ch s
  | .configStage ch addr length => Sys2Proof.Machine.execConfigStage ch addr length s
  | .floorRaise ch => Sys2Proof.Machine.execFloorRaise ch s
  | .getChallenge ch => Sys2Proof.Machine.execGetChallenge ch s
  | .unlock ch => Sys2Proof.Machine.execUnlock ch s
  | .resetPackage ch => Sys2Proof.Machine.execResetPackage ch s
  | .resetDie ch die => Sys2Proof.Machine.execResetDie ch die s
  | .resetCore ch core => Sys2Proof.Machine.execResetCore ch core s
  | .resetStack ch stack => Sys2Proof.Machine.execResetStack ch stack s
  | .resetLink ch link => Sys2Proof.Machine.execResetLink ch link s
  | .clearPinned ch seq => Sys2Proof.Machine.execClearPinned ch seq s
  | .quiesceForcedIdle kind unit rows lost => Sys2Proof.Machine.execQuiesceForcedIdle kind unit rows lost s
  | .dieResetRelease die => Sys2Proof.Machine.execDieResetRelease die s
  | .coreResetRelease core => Sys2Proof.Machine.execCoreResetRelease core s
  | .lyrHoldLimit who => Sys2Proof.Machine.execLyrHoldLimit who s
  | .stackBaseResetDone stack => Sys2Proof.Machine.execStackBaseResetDone stack s
  | .memHoldLimit who => Sys2Proof.Machine.execMemHoldLimit who s
  | .pkgResetPin => Sys2Proof.Machine.execPkgResetPin s
  | .powerApply => Sys2Proof.Machine.execPowerApply s
  | .mainPowerStable => Sys2Proof.Machine.execMainPowerStable s
  | .inputRemoved => Sys2Proof.Machine.execInputRemoved s
  | .inputSample millivolts centiamps lossWatts => Sys2Proof.Machine.execInputSample millivolts centiamps lossWatts s
  | .inputUndervoltage => Sys2Proof.Machine.execInputUndervoltage s
  | .undervoltageClear => Sys2Proof.Machine.execUndervoltageClear s
  | .undervoltageShutdown => Sys2Proof.Machine.execUndervoltageShutdown s
  | .overvoltageShutdown => Sys2Proof.Machine.execOvervoltageShutdown s
  | .inputRestart => Sys2Proof.Machine.execInputRestart s
  | .hwCapLoop die measured modelled => Sys2Proof.Machine.execHwCapLoop die measured modelled s
  | .fwCapLoop loss other links memory compute computeFloor stepN stepS => Sys2Proof.Machine.execFwCapLoop loss other links memory compute computeFloor stepN stepS s
  | .stepChangeDone die => Sys2Proof.Machine.execStepChangeDone die s
  | .stackPowerWindow stack activates reads writes background => Sys2Proof.Machine.execStackPowerWindow stack activates reads writes background s
  | .droopDetect core => Sys2Proof.Machine.execDroopDetect core s
  | .droopStormEnd die => Sys2Proof.Machine.execDroopStormEnd die s
  | .thermalSample kind index value => Sys2Proof.Machine.execThermalSample kind index value s
  | .warningStepDown die => Sys2Proof.Machine.execWarningStepDown die s
  | .throttleEscalate die location => Sys2Proof.Machine.execThrottleEscalate die location s
  | .throttleRelease die location => Sys2Proof.Machine.execThrottleRelease die location s
  | .thermalRestart => Sys2Proof.Machine.execThermalRestart s
  | .canaryUpdate sensor flipped dead => Sys2Proof.Machine.execCanaryUpdate sensor flipped dead s
  | .layerModelUpdate sensor rows => Sys2Proof.Machine.execLayerModelUpdate sensor rows s
  | .layerGovernUpdate sensor => Sys2Proof.Machine.execLayerGovernUpdate sensor s
  | .suspectFlagTick sensor => Sys2Proof.Machine.execSuspectFlagTick sensor s
  | .suspectEpisodeClose sensor => Sys2Proof.Machine.execSuspectEpisodeClose sensor s
  | .bondLaneRepair port group lane => Sys2Proof.Machine.execBondLaneRepair port group lane s
  | .bondRowReplace die layer row => Sys2Proof.Machine.execBondRowReplace die layer row s
  | .pcRetire pc => Sys2Proof.Machine.execPcRetire pc s
  | .spareCopyDone pc => Sys2Proof.Machine.execSpareCopyDone pc s
  | .capacityMoveDone pc lost => Sys2Proof.Machine.execCapacityMoveDone pc lost s
  | .resourceRetire kind unit cause => Sys2Proof.Machine.execResourceRetire kind unit cause s
  | .registryCompact => Sys2Proof.Machine.execRegistryCompact s
  | .nutmegMirror => Sys2Proof.Machine.execNutmegMirror s
  | .dramPatrolScrub => Sys2Proof.Machine.execDramPatrolScrub s
  | .layerScrub => Sys2Proof.Machine.execLayerScrub s
  | .linkPhyRecal link lane => Sys2Proof.Machine.execLinkPhyRecal link lane s
  | .memIfCal pc => Sys2Proof.Machine.execMemIfCal pc s
  | .sensorCal die location => Sys2Proof.Machine.execSensorCal die location s
  | .ageingProbe region index vmin => Sys2Proof.Machine.execAgeingProbe region index vmin s
  | .telemetrySample => Sys2Proof.Machine.execTelemetrySample s
  | .bgDeferralReached activity => Sys2Proof.Machine.execBgDeferralReached activity s
  | .marginReplan region core => Sys2Proof.Machine.execMarginReplan region core s
  | .fennelLand source => Sys2Proof.Machine.execFennelLand source s
  | .offloadCopyOut entry => Sys2Proof.Machine.execOffloadCopyOut entry s
  | .restoreStart entry => Sys2Proof.Machine.execRestoreStart entry s
  | .recompute entry => Sys2Proof.Machine.execRecompute entry s
  | .stageCreditReturn queue => Sys2Proof.Machine.execStageCreditReturn queue s
  | .stageStallRecord queue => Sys2Proof.Machine.execStageStallRecord queue s
  | .sleepEntry => Sys2Proof.Machine.execSleepEntry s
  | .linkActivityWake port => Sys2Proof.Machine.execLinkActivityWake port s
  | .bmRegisterRead offset length => Sys2Proof.Machine.execBmRegisterRead offset length s
  | .bmRegisterWrite offset data => Sys2Proof.Machine.execBmRegisterWrite offset data s
  | .bmRestart => Sys2Proof.Machine.execBmRestart s
  | .bmPackageReset => Sys2Proof.Machine.execBmPackageReset s
  | .entDaa address => Sys2Proof.Machine.execEntDaa address s
  | .rstDaa => Sys2Proof.Machine.execRstDaa s
  | .enec => Sys2Proof.Machine.execEnec s
  | .disec => Sys2Proof.Machine.execDisec s
  | .getPid => Sys2Proof.Machine.execGetPid s
  | .getBcr => Sys2Proof.Machine.execGetBcr s
  | .getDcr => Sys2Proof.Machine.execGetDcr s
  | .getStatus => Sys2Proof.Machine.execGetStatus s
  | .getMxds => Sys2Proof.Machine.execGetMxds s
  | .tapBypass => Sys2Proof.Machine.execTapBypass s
  | .tapIdcode => Sys2Proof.Machine.execTapIdcode s
  | .tapSamplePreload pattern => Sys2Proof.Machine.execTapSamplePreload pattern s
  | .tapExtest pattern => Sys2Proof.Machine.execTapExtest pattern s
  | .tapClamp => Sys2Proof.Machine.execTapClamp s
  | .tapHighz => Sys2Proof.Machine.execTapHighz s
  | .tapExtestPulse => Sys2Proof.Machine.execTapExtestPulse s
  | .tapExtestTrain => Sys2Proof.Machine.execTapExtestTrain s
  | .tapInternalScan halt => Sys2Proof.Machine.execTapInternalScan halt s
  | .restoreComplete entry => Sys2Proof.Machine.execRestoreComplete entry s
  | .offloadCopyDone entry => Sys2Proof.Machine.execOffloadCopyDone entry s
  | .updateUnitFault unit => Sys2Proof.Machine.execUpdateUnitFault unit s
  | .stackBaseFault stack => Sys2Proof.Machine.execStackBaseFault stack s
  | .hostLinkTrained port => Sys2Proof.Machine.execHostLinkTrained port s

end Sys2Proof.Machine
end

