-- ==== Sys2Proof/Machine/Step.lean ====
section
/-! DEFINITION. One step of the block: the command at the front of the queue, or an idle tick. -/
namespace Sys2Proof.Machine

/-- The block idles for one cycle of the 25 MHz reference: the timebase, which runs while the input is present, advances by
40 ns (R409). (DESIGN CHOICE 4) -/
def idleTick (s : State) : State :=
  if s.dev.pwr.state = .unpowered then s else { s with dev := { s.dev with time := s.dev.time + 40 } }

/-- The command at the front of the queue runs on the queue's rest; with none the block idles. -/
def step (s : State) : Host.Outcome State Fault Refusal :=
  match s.pending with
  | [] => .next (idleTick s)
  | c :: rest => exec c { s with pending := rest }

/-- The command that a word spells at the front of the queue; the table gives no row any bits, so no word spells one.
(DESIGN CHOICE 7) -/
def State.withFetchWord (s : State) (nbits w : Nat) : State :=
  match decodeTableWord nbits w with
  | some c => { s with pending := c :: s.pending }
  | none => s

end Sys2Proof.Machine
end

