-- ==== Sys2Proof/WellFormed.lean ====
section
/-! DEFINITION. Which commands can stand on a pin, a bus or a register of the device: every number within what the manual
gives it. A command outside these bounds cannot be sent. -/
namespace Sys2Proof

/-- A flit header whose fields fit Table 10.2. -/
def Flit.wf (f : Flit) : Bool :=
  decide (f.seq < 2 ^ 16 ∧ f.ack < 2 ^ 16 ∧ f.credVc < 4 ∧ f.cred < 256 ∧ f.dst < 16384 ∧ f.src < 16384)

/-- A chunk with one position for each value (R298), of a data operation or, with code 15, of a comparison of fingerprints.
(DESIGN CHOICE 58) -/
def CollChunk.wf (c : CollChunk) : Bool :=
  decide (c.comm < 1024 ∧ c.pos.length = c.vals.length ∧ c.mode < 5 ∧ (c.op < 4 ∨ c.op = 15))

/-- A spill record of 128 bytes (R129). -/
def CollSpill.wf (c : CollSpill) : Bool := decide (c.comm < 1024 ∧ c.record < 2 ^ 1024)

/-- A step message names a communicator, a group and a tag (R301). -/
def StepMsg.wf (m : StepMsg) : Bool :=
  match m with
  | .up comm group tag _ _ _ => decide (comm < 1024 ∧ group < 16 ∧ tag < 2 ^ 32)
  | .down comm group tag _ _ => decide (comm < 1024 ∧ group < 16 ∧ tag < 2 ^ 32)

/-- Data of a message: 1 to 4,096 bytes (R282). -/
def dataWf (bs : List Byte) : Bool := decide (1 ≤ bs.length ∧ bs.length ≤ 4096)

/-- Whether a command is well formed. -/
def wellFormed (i : Instr) : Bool :=
  match i with
  | .mm ring => decide (ring < 16384)
  | .conv ring => decide (ring < 16384)
  | .sliceMm ring => decide (ring < 16384)
  | .row ring => decide (ring < 16384)
  | .vec ring => decide (ring < 16384)
  | .copy ring => decide (ring < 16384)
  | .mcast ring => decide (ring < 16384)
  | .fennelPut ring => decide (ring < 16384)
  | .semWait ring => decide (ring < 16384)
  | .semSignal ring => decide (ring < 16384)
  | .allreduce ring => decide (ring < 16384)
  | .reduce ring => decide (ring < 16384)
  | .broadcast ring => decide (ring < 16384)
  | .allgather ring => decide (ring < 16384)
  | .treeLoad ring => decide (ring < 16384)
  | .routeLoad ring => decide (ring < 16384)
  | .updBind ring => decide (ring < 16384)
  | .updUnbind ring => decide (ring < 16384)
  | .stepOpen ring => decide (ring < 16384)
  | .stepOpenHeldStart group => decide (group < 16)
  | .stepClose ring => decide (ring < 16384)
  | .stepCloseReduce group => decide (group < 16)
  | .scaleSet ring => decide (ring < 16384)
  | .censusRead ring => decide (ring < 16384)
  | .digest ring => decide (ring < 16384)
  | .fence ring => decide (ring < 16384)
  | .timestamp ring => decide (ring < 16384)
  | .nop ring => decide (ring < 16384)
  | .badOpcode ring => decide (ring < 16384)
  | .waitResume ring seq => decide (ring < 16384 ∧ seq < 2 ^ 32)
  | .commandComplete ring seq => decide (ring < 16384 ∧ seq < 2 ^ 32)
  | .irqCoalesceTimeout ring => decide (ring < 16384)
  | .stepMsg link flit msg => flit.wf && msg.wf && decide (link < 36)
  | .stepCloseTimeout group => decide (group < 16)
  | .updPhaseDone shard => decide (shard < 2 ^ 32)
  | .fingerprintCompare shard => decide (shard < 2 ^ 32)
  | .fingerprintResult shard _ _ => decide (shard < 2 ^ 32)
  | .copyScrub shard => decide (shard < 2 ^ 32)
  | .collData link flit chunk => flit.wf && chunk.wf && decide (link < 36)
  | .collSpill link flit spill => flit.wf && spill.wf && decide (link < 36)
  | .wr link flit offset tag data => flit.wf && dataWf data && decide (link < 36 ∧ offset < 2 ^ 40 ∧ tag < 2 ^ 16)
  | .rdReq link flit offset tag len => flit.wf && decide (link < 36 ∧ offset < 2 ^ 40 ∧ tag < 2 ^ 16 ∧ len < 4097 ∧ 0 < len)
  | .semOp link flit tag op sem amount => flit.wf && decide (link < 36 ∧ tag < 2 ^ 16 ∧ op < 4 ∧ sem < 262144 ∧ amount < 2 ^ 32)
  | .probe link flit tag => flit.wf && decide (link < 36 ∧ tag < 2 ^ 16)
  | .rdResp link flit tag data => flit.wf && dataWf data && decide (link < 36 ∧ tag < 2 ^ 16)
  | .wrAck link flit tag => flit.wf && decide (link < 36 ∧ tag < 2 ^ 16)
  | .semAck link flit tag => flit.wf && decide (link < 36 ∧ tag < 2 ^ 16)
  | .probeResp link flit tag => flit.wf && decide (link < 36 ∧ tag < 2 ^ 16)
  | .errResp link flit tag status => flit.wf && decide (link < 36 ∧ tag < 2 ^ 16 ∧ status < 2 ^ 32)
  | .linkMgmt link peerId peerPort laneMask => decide (link < 36 ∧ peerId < 16384 ∧ peerPort < 36 ∧ laneMask < 16)
  | .nack link ack credVc cred seq => decide (link < 36 ∧ ack < 2 ^ 16 ∧ credVc < 4 ∧ cred < 256 ∧ seq < 2 ^ 16)
  | .idle link ack credVc cred => decide (link < 36 ∧ ack < 2 ^ 16 ∧ credVc < 4 ∧ cred < 256)
  | .corruptFlit link _ => decide (link < 36)
  | .ackStallReplay link => decide (link < 36)
  | .ackStallRetrain link => decide (link < 36)
  | .linkTrainDone link _ lanes => decide (link < 36 ∧ lanes < 16)
  | .linkRetryTimer link => decide (link < 36)
  | .laneWindowEnd link _ _ _ _ => decide (link < 36)
  | .respTimeout tag => decide (tag < 2 ^ 16)
  | .probeTick => true
  | .peerUnreachable peer => decide (peer < 16384)
  | .kringDbSq port ring _ => decide (port < 2 ∧ ring < 16384)
  | .kringDbCq port ring _ => decide (port < 2 ∧ ring < 16384)
  | .ringEnable port ring => decide (port < 2 ∧ ring < 16384)
  | .ringDisable port ring => decide (port < 2 ∧ ring < 16384)
  | .ringAbort port ring => decide (port < 2 ∧ ring < 16384)
  | .ringClearErr port ring => decide (port < 2 ∧ ring < 16384)
  | .ringFetchError ring => decide (ring < 16384)
  | .msixUnmask port vector => decide (port < 2 ∧ vector < 2048)
  | .heartbeatWrite port _ => decide (port < 2)
  | .heartbeatTimeout port => decide (port < 2)
  | .orphanReadAbandon port => decide (port < 2)
  | .orphanCloseTimeout port => decide (port < 2)
  | .attach port => decide (port < 2)
  | .resume port => decide (port < 2)
  | .resetRings port => decide (port < 2)
  | .detach port => decide (port < 2)
  | .adopt port => decide (port < 2)
  | .portLevelReset port _ => decide (port < 2)
  | .perstRelease port => decide (port < 2)
  | .d3hotEntry port => decide (port < 2)
  | .d0Return port => decide (port < 2)
  | .atsInvalidation port tag => decide (port < 2 ∧ tag < 32)
  | .evtStatusClear port bank _ => decide (port < 2 ∧ bank < 2)
  | .evtEnWrite port bank _ => decide (port < 2 ∧ bank < 2)
  | .semValueWrite port sem part _ => decide (port < 2 ∧ sem < 262144 ∧ part < 3)
  | .sideInval port core => decide (port < 2 ∧ core < 64)
  | .arrCntClear port array => decide (port < 2 ∧ array < 256)
  | .safCntClear port array => decide (port < 2 ∧ array < 256)
  | .cardCntClear port core => decide (port < 2 ∧ core < 64)
  | .lockSet port lock => decide (port < 2 ∧ lock < 19)
  | .spillHwmRead port die => decide (port < 2 ∧ die < 2)
  | .registerWrite port bar offset size _ => decide (port < 2 ∧ bar < 6 ∧ offset < 2 ^ 26 ∧ (size = 4 ∨ size = 8 ∨ size = 1 ∨ size = 2))
  | .mbxDoorbell ident ch length => decide (ident < 7 ∧ ch < 32 ∧ length < 2 ^ 14)
  | .mbxDoneClear ident ch => decide (ident < 7 ∧ ch < 32)
  | .mbxChWake ident ch => decide (ident < 7 ∧ ch < 32)
  | .hello ch _ _ => decide (ch < 32)
  | .load ch addr length => decide (ch < 32 ∧ addr < 2 ^ 64 ∧ length < 2 ^ 32)
  | .fwRunning => true
  | .stage ch addr length => decide (ch < 32 ∧ addr < 2 ^ 64 ∧ length < 2 ^ 32)
  | .activate ch => decide (ch < 32)
  | .cancel ch => decide (ch < 32)
  | .status ch => decide (ch < 32)
  | .activationProceed => true
  | .activationExpired => true
  | .handoverResume => true
  | .handoverConfirm => true
  | .handoverTimeout => true
  | .compartmentFault comp cause => decide (comp < 6 ∧ cause < 6)
  | .compartmentWatchdogExpiry comp => decide (comp < 6)
  | .compartmentRestarted comp => decide (comp < 6)
  | .setCap ch _ => decide (ch < 32)
  | .setProfile ch _ => decide (ch < 32)
  | .profileSwitch => true
  | .setPriority ch _ => decide (ch < 32)
  | .setClassWeights ch _ _ _ _ => decide (ch < 32)
  | .setDepthRange ch _ _ => decide (ch < 32)
  | .getPolicy ch => decide (ch < 32)
  | .quote ch => decide (ch < 32)
  | .getCert ch => decide (ch < 32)
  | .sign ch => decide (ch < 32)
  | .configStage ch addr length => decide (ch < 32 ∧ addr < 2 ^ 64 ∧ length < 2 ^ 32)
  | .floorRaise ch => decide (ch < 32)
  | .getChallenge ch => decide (ch < 32)
  | .unlock ch => decide (ch < 32)
  | .resetPackage ch => decide (ch < 32)
  | .resetDie ch die => decide (ch < 32 ∧ die < 2)
  | .resetCore ch core => decide (ch < 32 ∧ core < 64)
  | .resetStack ch stack => decide (ch < 32 ∧ stack < 8)
  | .resetLink ch link => decide (ch < 32 ∧ link < 36)
  | .clearPinned ch seq => decide (ch < 32 ∧ seq < 2 ^ 64)
  | .quiesceForcedIdle kind unit _ _ => decide (kind < 3 ∧ unit < 64)
  | .dieResetRelease die => decide (die < 2)
  | .coreResetRelease core => decide (core < 64)
  | .lyrHoldLimit _ => true
  | .stackBaseResetDone stack => decide (stack < 8)
  | .memHoldLimit _ => true
  | .pkgResetPin => true
  | .powerApply => true
  | .mainPowerStable => true
  | .inputRemoved => true
  | .inputSample _ _ _ => true
  | .inputUndervoltage => true
  | .undervoltageClear => true
  | .undervoltageShutdown => true
  | .overvoltageShutdown => true
  | .inputRestart => true
  | .hwCapLoop die _ _ => decide (die < 2)
  | .fwCapLoop _ _ _ _ _ _ stepN stepS => decide (stepN < 19 ∧ stepS < 19)
  | .stepChangeDone die => decide (die < 2)
  | .stackPowerWindow stack _ _ _ _ => decide (stack < 8)
  | .droopDetect core => decide (core < 64)
  | .droopStormEnd die => decide (die < 2)
  | .thermalSample kind index _ => decide (kind < 3 ∧ index < 160)
  | .warningStepDown die => decide (die < 2)
  | .throttleEscalate die location => decide (die < 2 ∧ location < 3)
  | .throttleRelease die location => decide (die < 2 ∧ location < 3)
  | .thermalRestart => true
  | .canaryUpdate sensor flipped _ => decide (sensor < 160 ∧ flipped < 1025)
  | .layerModelUpdate sensor _ => decide (sensor < 160)
  | .layerGovernUpdate sensor => decide (sensor < 160)
  | .suspectFlagTick sensor => decide (sensor < 160)
  | .suspectEpisodeClose sensor => decide (sensor < 160)
  | .bondLaneRepair port group lane => decide (port < 384 ∧ group < 64 ∧ lane < 72)
  | .bondRowReplace die layer row => decide (die < 2 ∧ layer < 5 ∧ row < 2 ^ 22)
  | .pcRetire pc => decide (pc < 528)
  | .spareCopyDone pc => decide (pc < 528)
  | .capacityMoveDone pc _ => decide (pc < 528)
  | .resourceRetire kind unit cause => decide (kind < 16 ∧ unit < 2 ^ 24 ∧ cause < 6)
  | .registryCompact => true
  | .nutmegMirror => true
  | .dramPatrolScrub => true
  | .layerScrub => true
  | .linkPhyRecal link lane => decide (link < 36 ∧ lane < 4)
  | .memIfCal pc => decide (pc < 528)
  | .sensorCal die location => decide (die < 2 ∧ location < 3)
  | .ageingProbe region index vmin => decide (region < 32 ∧ index < 2 ^ 32 ∧ vmin < 2 ^ 16)
  | .telemetrySample => true
  | .bgDeferralReached activity => decide (activity < 9)
  | .marginReplan region core => decide (region < 32 ∧ core < 64)
  | .fennelLand source => decide (source < 16384)
  | .offloadCopyOut entry => decide (entry < 16384)
  | .restoreStart entry => decide (entry < 16384)
  | .recompute entry => decide (entry < 16384)
  | .stageCreditReturn queue => decide (queue < 4096)
  | .stageStallRecord queue => decide (queue < 4096)
  | .sleepEntry => true
  | .linkActivityWake port => decide (port < 2)
  | .bmRegisterRead offset length => decide (offset < 2 ^ 32 ∧ length < 2 ^ 32)
  | .bmRegisterWrite offset data => decide (data.length ≤ 12288) && decide (offset < 2 ^ 32)
  | .bmRestart => true
  | .bmPackageReset => true
  | .entDaa address => decide (address < 128)
  | .rstDaa => true
  | .enec => true
  | .disec => true
  | .getPid => true
  | .getBcr => true
  | .getDcr => true
  | .getStatus => true
  | .getMxds => true
  | .tapBypass => true
  | .tapIdcode => true
  | .tapSamplePreload _ => true
  | .tapExtest _ => true
  | .tapClamp => true
  | .tapHighz => true
  | .tapExtestPulse => true
  | .tapExtestTrain => true
  | .tapInternalScan _ => true
  | .restoreComplete entry => decide (entry < 16384)
  | .offloadCopyDone entry => decide (entry < 16384)
  | .updateUnitFault unit => decide (unit < 8)
  | .stackBaseFault stack => decide (stack < 8)
  | .hostLinkTrained port => decide (port < 2)

end Sys2Proof
end

