-- ==== Sys2Proof/Safety.lean ====
section
/-! DEFINITION. What claims about the block are stated with: a command that answers, a property that every step keeps, and
the bytes of memory that a command leaves alone. -/
namespace Sys2Proof.Machine

/-- A command answers a next state whose device is `d`, and the queue is as it was. -/
def Runs (i : Instr) (s : State) (d : Dev) : Prop := exec i s = .next { s with dev := d }

/-- Every step from a state with the property leads to a state with it. -/
def Kept (P : State → Prop) : Prop := ∀ s t : State, P s → step s = .next t → P t

/-- Every byte outside `n` bytes from the local address `a` reads as before, by whatever address it is reached (R290: the
device's own window names the same bytes). -/
def SameMemoryBut (d e : Dev) (a n : Nat) : Prop :=
  ∀ x, (localAddr d x < a ∨ a + n ≤ localAddr d x) → memGet e x = memGet d x

/-- Every byte reads as before. -/
def SameMemory (d e : Dev) : Prop := ∀ x, memGet e x = memGet d x

/-- The registers in `keys` may differ between `d` and `e`; every other register and everything else is the same. -/
def OnlyRegs (d e : Dev) (keys : List (Reg × Nat)) : Prop :=
  e = { d with regs := e.regs } ∧ ∀ r i, i < 2 ^ 20 → (r, i) ∉ keys → regGet e r i = regGet d r i

/-- Every byte outside the two areas that Cumin logs to (R420, R426) is as before, and so are the errors there. -/
def MemKept (d e : Dev) : Prop :=
  ∀ a, logFree d a = true →
    smapGet e.mem a memUnlisted = smapGet d.mem a memUnlisted ∧ smapGet e.marks a 0 = smapGet d.marks a 0

/-- Every byte outside `n` bytes from the local address `a` and outside the logs of Cumin reads as before. -/
def SameButLogs (d e : Dev) (a n : Nat) : Prop :=
  ∀ x, logFree d (localAddr d x) = true → (localAddr d x < a ∨ a + n ≤ localAddr d x) → memGet e x = memGet d x

/-- A write at `a` starts outside side memory, where the first write of a page zeroes the rest of it (R149). -/
def NoSide (d : Dev) (a : Nat) : Prop := ∀ c k, regionOf (localAddr d a) ≠ .side c k

/-- `d` and `e` differ in what the device notes and tells alone: Nutmeg records and their counts, the telemetry log, the areas
of memory that both are written to, event bits, pending and sent interrupts. -/
def Noted (d e : Dev) : Prop :=
  e = { d with
    regs := e.regs, recs := e.recs, out := e.out, mem := e.mem, marks := e.marks,
    nv := { d.nv with seqStore := e.nv.seqStore }, eng := { d.eng with msixPending := e.eng.msixPending } } ∧
  MemKept d e ∧
  ∀ r i, i < 2 ^ 20 → r ≠ .nutStatus → r ≠ .nutTelStatus → r ≠ .hpEvtStatus → regGet e r i = regGet d r i

/-- A host write through port `p` reaches the registers of ring `r`: the port answers and the device does not sleep. -/
def ReachesRing (d : Dev) (p r : Nat) : Prop := portAnswers d p = true ∧ asleep d = false ∧ r < 16384

/-- The device after a list of commands, one after the other; none where one of them stops. -/
def afterAll (cs : List Instr) (d : Dev) : Option Dev :=
  match cs with
  | [] => some d
  | c :: rest =>
    match exec c { dev := d, pending := [] } with
    | .next t => afterAll rest t.dev
    | _ => none

/-- The state after `n` steps; none where one of them stops. -/
def afterSteps (n : Nat) (s : State) : Option State :=
  match n with
  | 0 => some s
  | k + 1 =>
    match step s with
    | .next t => afterSteps k t
    | _ => none

/-- Every field of a command header lies within its bits (Table 12.1). -/
def HeaderFits (h : Header) : Prop :=
  h.opcode < 2 ^ 8 ∧ h.group < 2 ^ 4 ∧ h.stage < 2 ^ 6 ∧ h.opx < 2 ^ 9 ∧ h.tag < 2 ^ 32 ∧ h.waitTarget < 2 ^ 32 ∧
  h.waitSem < 2 ^ 18 ∧ h.mbatch < 2 ^ 14 ∧
  h.sig0.sem < 2 ^ 18 ∧ h.sig0.peer < 2 ^ 14 ∧ h.sig0.amount < 2 ^ 16 ∧
  h.sig1.sem < 2 ^ 18 ∧ h.sig1.peer < 2 ^ 14 ∧ h.sig1.amount < 2 ^ 16

/-- A lane entry as the device holds it: a register within 768 bits, an anchor of 8 bits that is 0 in fixed mode, and in
anchored mode an anchor that has been set. -/
def EntryFits (s : SafEntry) : Prop :=
  -(2 ^ 767) ≤ s.v ∧ s.v < 2 ^ 767 ∧ s.started = s.anchored ∧ -128 < s.anchor ∧ s.anchor < 128 ∧
  (s.anchored = false → s.anchor = 0)

/-- The contributions of a list promoted one after the other into a fixed-mode entry, with what they count. -/
def addAll (s : SafEntry) (cs : List (Int × Int)) : SafEntry × SafCount :=
  cs.foldl (fun a c => let r := safAddFixed a.1 c.1 c.2; (r.1, a.2.add r.2)) (s, safCountZero)

/-- The sum of the magnitudes that contributions take at 2^-400. -/
def addBound (cs : List (Int × Int)) : Nat := (cs.map (fun c => (shiftFloor c.1 (c.2 + 400)).1.natAbs)).sum

/-- The rows of commands that the ring scheduler takes: the ring, and the entries that the row is about (Table 12.2). -/
def takes (i : Instr) : Option (Nat × (Nat → Bool)) :=
  match i with
  | .mm r => some (r, isOpcode .mm) | .conv r => some (r, isOpcode .conv) | .sliceMm r => some (r, isOpcode .sliceMm)
  | .row r => some (r, isOpcode .row) | .vec r => some (r, isOpcode .vec) | .copy r => some (r, isOpcode .copy)
  | .mcast r => some (r, isOpcode .mcast) | .fennelPut r => some (r, isOpcode .fennelPut)
  | .semWait r => some (r, isOpcode .semWait) | .semSignal r => some (r, isOpcode .semSignal)
  | .allreduce r => some (r, isColl .allreduce) | .reduce r => some (r, isColl .reduce)
  | .broadcast r => some (r, isColl .broadcast) | .allgather r => some (r, isColl .allgather)
  | .treeLoad r => some (r, isColl .treeLoad) | .routeLoad r => some (r, isColl .routeLoad)
  | .updBind r => some (r, isOpcode .updBind) | .updUnbind r => some (r, isOpcode .updUnbind)
  | .stepOpen r => some (r, isOpcode .stepOpen) | .stepClose r => some (r, isOpcode .stepClose)
  | .scaleSet r => some (r, isOpcode .scaleSet) | .censusRead r => some (r, isOpcode .censusRead)
  | .digest r => some (r, isOpcode .digest) | .fence r => some (r, isOpcode .fence)
  | .timestamp r => some (r, isOpcode .timestamp) | .nop r => some (r, isOpcode .nop)
  | .badOpcode r => some (r, fun e => (opcodeOf (headerOf e).opcode).isNone)
  | _ => none

/-- The 64 bytes of the next entry of a ring, as one little-endian number. -/
def nextEntry (d : Dev) (r : Nat) : Nat := memReadNat d (entryAddr d r) 64

/-- The command `i` is what the ring scheduler takes next: from ring `r`, with the scheduler at `w` after it. -/
def TakesNext (i : Instr) (d : Dev) (r : Nat) (w : Wrr) : Prop :=
  ∃ p, takes i = some (r, p) ∧ nextRing d = some (r, w) ∧ fetchFails d r = false ∧ p (nextEntry d r) = true

/-- The count at which the wait of a command is reached as it starts; 0 for a command that waits for nothing. -/
def waitCount (t : Dev) (c : Cmd) : Nat := if c.header.waitEn then semCount t c.header.waitSem else 0

/-- A command taken that nothing keeps from starting: no other is in flight, its checks passed, its wait if it has one is
reached at once, it joins no epoch or its open epoch, and no stage queue and no plan entry holds it. `c` is the command as
taken. -/
def StartsAlone (d : Dev) (r : Nat) (w : Wrr) (c : Cmd) : Prop :=
  let t := takeCommand d r w
  d.eng.taken = [] ∧ c = nextCmd d r ∧ c.phase = .waiting ∧ c.status = 0 ∧ c.opener = none ∧ c.held = false ∧
  (c.header.waitEn = true → semErr t c.header.waitSem = false ∧ waitReached t c.header.waitSem c.header.waitTarget = true) ∧
  unbindGate t c = true ∧ placementServed t c = true ∧ admitted t c = true ∧
  planBlocks (startCmd t c (waitCount t c)) c.ctx c.entry = none

/-- A started command as its body finds it. -/
def started (t : Dev) (c : Cmd) : Cmd :=
  { c with phase := .started, blocked := false, reached := waitCount t c, startedAt := t.time }

/-- The device as the body of a command that starts alone finds it: its bytes of peers are none, and it is running. -/
def beforeBody (d : Dev) (r : Nat) (w : Wrr) (c : Cmd) : Dev :=
  let t := takeCommand d r w
  updCmd (stageReads (startCmd t c (waitCount t c)) (started t c)) c.ring c.seq (fun x => { x with issued := true })

/-- What the body of a command that starts alone does. -/
def bodyAlone (d : Dev) (r : Nat) (w : Wrr) (c : Cmd) : Res :=
  let d0 := beforeBody d r w c
  runBody (noteRanges d0 (commandReads d0 c.entry)) c.ctx (started (takeCommand d r w) c)

/-- The device after that body, its writes to peers sent out. -/
def afterBody (d : Dev) (r : Nat) (w : Wrr) (c : Cmd) : Dev :=
  flushWrites (bodyRan (beforeBody d r w c) (bodyAlone d r w c).dev (started (takeCommand d r w) c)) r c.seq

/-- The message rows of a link: the link, the header, the payload, and what a message for this module then does. -/
def delivers (i : Instr) : Option (Nat × Flit × Payload × (Dev → Dev)) :=
  match i with
  | .stepMsg n f m => some (n, f, .stepMsg m, fun d => advance (stepArrives d f.src m))
  | .collData n f c => some (n, f, .collData c, fun d => advance (chunkArrives d f.src c))
  | .collSpill n f c => some (n, f, .collSpill c, fun d => advance (spillArrives d c))
  | .wr n f o t data => some (n, f, .wr o t data, fun d => serveRequest d f.src (.wr o t data))
  | .rdReq n f o t len => some (n, f, .rdReq o t len, fun d => serveRequest d f.src (.rdReq o t len))
  | .semOp n f t op m a => some (n, f, .semOp t op m a, fun d => serveRequest d f.src (.semOp t op m a))
  | .probe n f t => some (n, f, .probe t, fun d => serveRequest d f.src (.probe t))
  | .rdResp n f t data => some (n, f, .rdResp t data, fun d => responseArrives d f.src (.rdResp t data))
  | .wrAck n f t => some (n, f, .wrAck t, fun d => responseArrives d f.src (.wrAck t))
  | .semAck n f t => some (n, f, .semAck t, fun d => responseArrives d f.src (.semAck t))
  | .probeResp n f t => some (n, f, .probeResp t, fun d => responseArrives d f.src (.probeResp t))
  | .errResp n f t st => some (n, f, .errResp t st, fun d => responseArrives d f.src (.errResp t st))
  | _ => none

/-- `d` and `e` differ in the link `n` and in what was sent out. -/
def OnlyLink (d e : Dev) (n : Nat) : Prop :=
  e = { d with fab := { d.fab with links := e.fab.links }, out := e.out } ∧ ∀ k, k ≠ n → linkAt e k = linkAt d k

/-- Channel `ch` holds a response with result `r`: its result word, done and busy (Table 13.9, R383). -/
def Answered (e : Dev) (ch r : Nat) : Prop :=
  leNat (mbxRead e ch 0x400C 4) = r ∧ fget e mbxChStatusDone ch = 1 ∧ fget e mbxChStatusBusy ch = 1

/-- The command writes a response with result `r` to channel `ch` and changes nothing but what that takes: the buffer, the
status of the channel, its interrupt, and the compartment that Cumin runs with its MPU regions (R362). -/
def Replies (i : Instr) (s : State) (ch r : Nat) : Prop :=
  ∃ e, Runs i s e ∧ Answered e ch r ∧
    OnlyRegs { s.dev with
      mbx := e.mbx, out := e.out, fw := { s.dev.fw with running := e.fw.running, mpu := e.fw.mpu },
      eng := { s.dev.eng with msixPending := e.eng.msixPending } } e [(.mbxChStatus, ch)]

/-- What Cumin holds is as before, but for the compartment it runs and that one's MPU regions. -/
def FirmwareKept (d e : Dev) : Prop := e.fw = { d.fw with running := e.fw.running, mpu := e.fw.mpu }

/-- A master identity reaches the mailboxes: a host through its port, another one while the device is awake. -/
def MailReaches (d : Dev) (ident : Nat) : Prop :=
  if ident < 2 then portAnswers d ident = true else d.pwr.state = .running

/-- A request of the management service that channel `ch` holds, served, with function `fn` (R447). -/
def AsksReset (d : Dev) (ch fn : Nat) : Prop :=
  ch < 32 ∧ holds d ch 0x10 = true ∧ compServes d (servingComp ch) = true ∧ reqFunction d ch = fn

/-- The end of a reset that was asked for at `t0`, from the device as its unit comes back: what waited goes on, and for a die
or a stack the update steps it cut resume (R185, R262). -/
def afterReset (kind u t0 : Nat) (e : Dev) : Dev :=
  let f := advance e
  let resumed := fun (hs : List Nat) => advance (commitGroups (wakeUnits (hs.foldl (resumeShard t0) f)))
  match kind with
  | 1 => f
  | 2 => resumed (dieShards f u)
  | _ => resumed ((f.shards.filter (fun x => shardOnStack f x u)).map (·.bind.shard))

/-- PWR_DIE of die `x` shows the lowest rate among its active limits, and the sources of those (R390). -/
def ShowsRate (d : Dev) (x : Nat) : Prop :=
  let r := (limitsOf d x).foldl slower (1, 0, 0)
  fget d pwrDieDiv x = (if r.1 = 4 then 2 else r.1 - 1) % 4 ∧ fget d pwrDieSkip x = r.2.1 % 16 ∧
    ∀ l ∈ limitsOf d x, l.2.2 < 7 → bit (fget d pwrDieSrc x) l.2.2 = true

/-- The rails are off after a shutdown of a cause by a sensor (R388, R402): the NVM, the Anise domain and what is outside the
module are left, with the powered hours of each region brought up to date. -/
def ShutDown (d e : Dev) (cause sensor : Nat) : Prop :=
  e.pwr.state = .standby ∧ fget e thmShutdownCause 0 = cause ∧ fget e thmShutdownSensor 0 = sensor % 2 ^ 16 ∧
  fget e thmShutdownStamp 0 = d.time % 2 ^ 64 ∧ fget e thmShutdownCount 0 = min (fget d thmShutdownCount 0 + 1) (2 ^ 32 - 1) ∧
  e.nv = { d.nv with margins := d.nv.margins.map (fun m => { m with hours := hoursNow d m, since := d.time }) } ∧
  e.time = d.time ∧ e.mem = hostMem d ∧ e.eng.taken = [] ∧ e.fab.colls = [] ∧
  fget e hpPortStateState 0 = 4 ∧ fget e hpPortStateState 1 = 4

/-- The device with a reading stored and shown: of a logic-die diode (kind 0), a layer diode (1) or a stack (2). -/
def reading (d : Dev) (kind i v : Nat) : Dev :=
  let kept := fun (k : Nat) => { d with pwr := { d.pwr with diodes := smapSet d.pwr.diodes k (v % 2 ^ 16) 0 } }
  match kind with
  | 0 => tempShow (kept i) (i / 80)
  | 1 => tempShow (fset (kept (160 + i)) lyrThmDiode i v) (i / 80)
  | _ => tempShow (refreshShow (fset (kept (320 + i)) memStackStatusTemp i v) i) (i / 4)

end Sys2Proof.Machine
end

