-- ==== Sys2Proof/Certificates/Slice0/Obligations.lean ====
section
/-! DEFINITION. The statements for the provers: what the commands of each family do, what they leave alone, and what every
step keeps. -/
open Sys2Proof Sys2Proof.Machine

/-- A step with a command in front of the queue is that command on the rest of the queue; with none the timebase
advances by 40. -/
def Obligations.StepRunsFrontCommand : Prop :=
  (∀ (c : Instr) (s : State), step { s with pending := c :: s.pending } = exec c s) ∧
  ∀ (d : Dev), step { dev := d, pending := [] } =
    .next { dev := if d.pwr.state = .unpowered then d else { d with time := d.time + 40 }, pending := [] }

/-- Every command answers a next state, changes the device alone and does not look at the queue. -/
def Obligations.EveryCommandAnswers : Prop :=
  ∀ c : Instr, ∃ f : Dev → Dev, ∀ s : State, Runs c s (f s.dev)

/-- As many steps as commands wait run them in the order of the queue, and leave the queue empty. -/
def Obligations.QueueRunsFirstInFirstOut : Prop :=
  ∀ (cs : List Instr) (d : Dev), ∃ e : Dev,
    afterAll cs d = some e ∧ afterSteps cs.length { dev := d, pending := cs } = some { dev := e, pending := [] }

/-- Every step keeps the canonical form of the memory. The form is the model's own (it makes equal memories equal
data). -/
def Obligations.MemoryStaysCanonical : Prop :=
  Kept (fun s => Memory.wf s.dev.mem = true)

/-- After reset the memory lists nothing and is canonical, every register has its reset value, and nothing is open,
waiting or running. -/
def Obligations.ResetMemoryIsCanonical : Prop :=
  let s := State.reset
  s.pending = [] ∧ Memory.wf s.dev.mem = true ∧ s.dev.mem = [] ∧
  (∀ (r : Reg) (i : Nat), regGet s.dev r i = regReset r i) ∧ s.dev.pwr.state = .standby ∧
  (∀ g, groupPhase s.dev g = .idle) ∧ s.dev.eng.owner = [] ∧ s.dev.eng.taken = [] ∧ s.dev.time = 0 ∧
  ∀ p, p < 2 → (portRun s.dev p).perst = true

/-- KRING_DB_SQ: stale counts are ignored, counts within the depth become sq_tail, others are an overrun. -/
def Obligations.SubmissionDoorbellMovesTail : Prop :=
  ∀ (s : State) (p r : Nat) (count : BitVec 32), ReachesRing s.dev p r →
    let d := s.dev
    let v := count.toNat
    let ahead := serialDiff v (fget d kringCountsSqTail r)
    let i := Instr.kringDbSq p r count
    let st := ringState d r
    (ringOwner d r = some p → st = 1 ∨ st = 3 ∨ st = 4 →
      (ahead = 0 ∨ 2 ^ 31 ≤ ahead → Runs i s (advance d)) ∧
      (0 < ahead → ahead < 2 ^ 31 → serialDiff v (fget d kringCountsSqHead r) ≤ ringDepth d r →
        ∃ e, Runs i s (advance e) ∧ OnlyRegs d e [(.kringCounts, r)] ∧ fget e kringCountsSqTail r = v ∧
          fget e kringCountsSqHead r = fget d kringCountsSqHead r ∧ fget e kringCountsCqHead r = fget d kringCountsCqHead r ∧
          fget e kringCountsCqTail r = fget d kringCountsCqTail r) ∧
      (0 < ahead → ahead < 2 ^ 31 → ringDepth d r < serialDiff v (fget d kringCountsSqHead r) →
        (st ≠ 3 → ∃ e, Runs i s (advance e) ∧ ringState e r = 3 ∧ fget e kringStatusErr r = 1 ∧
          regGet e .kringCounts r = regGet d .kringCounts r ∧ MemKept d e ∧ e.eng.taken = d.eng.taken) ∧
        (st = 3 → Runs i s (advance (fsat d hpErrDoorbellBad p 1))))) ∧
    (ringOwner d r = some p → st ≠ 1 → st ≠ 3 → st ≠ 4 → Runs i s (advance (fsat d hpErrDoorbellBad p 1))) ∧
    (∀ o, ringOwner d r = some o → o ≠ p → Runs i s (advance (fsat d hpErrForeignWrite p 1)))

/-- KRING_DB_CQ: a count after cq_head and not after cq_tail becomes cq_head; any other is ignored and counted. -/
def Obligations.CompletionDoorbellReturnsSlots : Prop :=
  ∀ (s : State) (p r : Nat) (count : BitVec 32), ReachesRing s.dev p r →
    let d := s.dev
    let v := count.toNat
    let step := serialDiff v (fget d kringCountsCqHead r)
    let i := Instr.kringDbCq p r count
    let st := ringState d r
    let fits := 0 < step ∧ step < 2 ^ 31 ∧ serialDiff (fget d kringCountsCqTail r) v < 2 ^ 31
    (ringOwner d r = some p →
      (st ≠ 0 → st ≠ 5 → fits →
        ∃ e, Runs i s (advance e) ∧ OnlyRegs d e [(.kringCounts, r)] ∧ fget e kringCountsCqHead r = v ∧
          fget e kringCountsSqHead r = fget d kringCountsSqHead r ∧ fget e kringCountsSqTail r = fget d kringCountsSqTail r ∧
          fget e kringCountsCqTail r = fget d kringCountsCqTail r) ∧
      (st = 0 ∨ st = 5 ∨ ¬fits → Runs i s (advance (fsat d hpErrDoorbellBad p 1)))) ∧
    (∀ o, ringOwner d r = some o → o ≠ p → Runs i s (advance (fsat d hpErrForeignWrite p 1)))

/-- KRING_CFG.enable: the conditions of R311, the counts that the enable sets, and the cause of a refusal. -/
def Obligations.RingEnableChecksAndStarts : Prop :=
  ∀ (s : State) (p r : Nat), ReachesRing s.dev p r → mayWriteRing s.dev p r = true → ringOpen s.dev r = true →
    let d := s.dev
    let i := Instr.ringEnable p r
    let serves := 2 ≤ fget d mbxFwStatusState 0
    let ranged := inPortRange d p r = true ∨ (d.eng.adopted.contains r = true ∧ ringOwner d r = some p)
    let allowed := bit (fget d hpCfgClassAllow p) (fget d kringCfgClass r) = true
    let version := fget d hpDrvVersionMajor p = fget d mbxFwVersionMajor 0
    let placed := ringDepthOk d r = true ∧ ringPlaced d p (ringBase d r) (64 * ringDepth d r) = true ∧
      ringPlaced d p (ringCqBase d r) (32 * ringDepth d r) = true
    let start := fget d kringStartStart r
    let leaving := d.eng.leaving.contains r = true
    let matching := leaving → start = fget d kringCountsSqHead r
    let owed := (d.eng.held.filter (fun h => h.ring == r)).length + fget d kringStatusInflight r
    let refused := fun cause => ∃ e, Runs i s e ∧ OnlyRegs d e [(.kringCfg, r), (.kringStatus, r)] ∧
      fget e kringCfgEnable r = 0 ∧ fget e kringStatusErr r = cause ∧ ringState e r = ringState d r
    (serves → ranged → allowed → version → placed → matching →
      ∃ e, Runs i s (advance (releaseHeld e r)) ∧ ringState e r = 1 ∧ fget e kringStatusErr r = 0 ∧
        fget e kringCfgEnable r = 1 ∧ fget e kringCfgOwner r = p ∧ ringOwner e r = some p ∧
        fget e kringCountsSqHead r = start ∧ fget e kringCountsSqTail r = start ∧
        (¬leaving → fget e kringCountsCqHead r = start ∧ fget e kringCountsCqTail r = start) ∧
        (leaving → fget e kringCountsCqHead r = serialDiff start owed ∧ fget e kringCountsCqTail r = serialDiff start owed) ∧
        e.mem = d.mem ∧ e.steps = d.steps ∧ e.eng.taken = d.eng.taken) ∧
    (¬serves → refused 7) ∧
    (serves → ¬ranged → refused 3) ∧
    (serves → ranged → ¬allowed → refused 5) ∧
    (serves → ranged → allowed → ¬version → refused 4) ∧
    (serves → ranged → allowed → version → ¬placed → refused 6) ∧
    (serves → ranged → allowed → version → placed → ¬matching → refused 8)

/-- Clearing enable drains a ring, abort ends its commands that have not started, clear_err ends its error state. -/
def Obligations.RingControlsDrainAbortAndClear : Prop :=
  ∀ (s : State) (p r : Nat), portAnswers s.dev p = true → r < 16384 →
    let d := s.dev
    let st := ringState d r
    (mayWriteRing d p r = true →
      (∃ e, Runs (.ringDisable p r) s e ∧ OnlyRegs d e [(.kringCfg, r), (.kringStatus, r)] ∧ fget e kringCfgEnable r = 0 ∧
        ringState e r = (if st = 0 ∨ st = 2 then st else if fget d kringStatusInflight r = 0 then 0 else 2)) ∧
      Runs (.ringAbort p r) s (advance { d with eng := { d.eng with taken := d.eng.taken.map (fun c =>
        if c.ring = r ∧ c.phase = .waiting then
          { c with phase := .finished, status := Status.aborted.code, info := 0, issued := true } else c) } }) ∧
      (st = 3 → ∃ e, Runs (.ringClearErr p r) s { e with eng := { e.eng with raise := e.eng.raise.filter (· != r) } } ∧
        OnlyRegs d e [(.kringStatus, r)] ∧ fget e kringStatusErr r = 0 ∧
        ringState e r = (if (portRun d ((ringOwner d r).getD 0)).waiting then 4 else 1) ∧
        fget e kringStatusInflight r = fget d kringStatusInflight r) ∧
      (st ≠ 3 → Runs (.ringClearErr p r) s d)) ∧
    (mayWriteRing d p r = false →
      Runs (.ringDisable p r) s (fsat d hpErrForeignWrite p 1) ∧ Runs (.ringAbort p r) s (fsat d hpErrForeignWrite p 1) ∧
      Runs (.ringClearErr p r) s (fsat d hpErrForeignWrite p 1))

/-- A failed fetch of a ring entry puts the ring into the error state with cause fetch error. -/
def Obligations.FetchFailureStopsTheRing : Prop :=
  ∀ (s : State) (r p : Nat), r < 16384 → p < 2 → ringOwner s.dev r = some p → ringReady s.dev r = true →
    fetchFails s.dev r = true →
    ∃ e, Runs (.ringFetchError r) s e ∧ ringState e r = 3 ∧ fget e kringStatusErr r = 2 ∧
      fget e hpErrFetchErr p = min (fget s.dev hpErrFetchErr p + 1) 65535 ∧
      regGet e .kringCounts r = regGet s.dev .kringCounts r ∧ MemKept s.dev e ∧ e.eng.taken = s.dev.eng.taken

/-- A vector that is unmasked sends its pending message; a coalescing timeout sends the interrupt of a ring. -/
def Obligations.InterruptsWaitForUnmaskAndTimeout : Prop :=
  (∀ (s : State) (p v : Nat), portAnswers s.dev p = true → v < 2048 →
    let d := s.dev
    let sends := d.eng.msixPending.contains (p * 2048 + v) = true ∧ portSilent d p = false
    ∃ e, Runs (.msixUnmask p v) s e ∧ vectorMasked e p v = false ∧ e.regs = d.regs ∧ e.mem = d.mem ∧
      (sends → e.out = d.out ++ [.msix p v] ∧ e.eng.msixPending.contains (p * 2048 + v) = false) ∧
      (¬sends → e.out = d.out ∧ e.eng.msixPending = d.eng.msixPending)) ∧
  (∀ (s : State) (r p : Nat), ringOwner s.dev r = some p →
    let d := s.dev
    let v := fget d kringCfgVector r
    let now := smapGet d.eng.irq r ⟨0, 0⟩
    (now.pending ≠ 0 → portSilent d p = false →
      ∃ e, Runs (.irqCoalesceTimeout r) s e ∧ smapGet e.eng.irq r ⟨0, 0⟩ = ⟨0, 0⟩ ∧ e.regs = d.regs ∧ e.mem = d.mem ∧
        (vectorMasked d p v = false → e.out = d.out ++ [.msix p v]) ∧
        (vectorMasked d p v = true → e.out = d.out ∧ e.eng.msixPending.contains (p * 2048 + v) = true)) ∧
    (now.pending = 0 ∨ portSilent d p = true → Runs (.irqCoalesceTimeout r) s d))

/-- Heartbeat writes, the entry to orphan hold when they stop, and the hold of the rings. -/
def Obligations.HeartbeatAndOrphanHold : Prop :=
  (∀ (s : State) (p : Nat) (v : BitVec 32), portAnswers s.dev p = true →
    let d := s.dev
    (portState d p = 1 → ∃ e, Runs (.heartbeatWrite p v) s e ∧ OnlyRegs d e [(.hpHeartbeat, p), (.hpHbLast, p)] ∧
      fget e hpHeartbeatBeat p = v.toNat ∧ fget e hpHbLastStamp p = d.time % 2 ^ 64) ∧
    (portState d p = 2 → Runs (.heartbeatWrite p v) s d) ∧
    (portState d p ≠ 1 → portState d p ≠ 2 → ∃ e, Runs (.heartbeatWrite p v) s e ∧ OnlyRegs d e [(.hpHeartbeat, p)] ∧
      fget e hpHeartbeatBeat p = v.toNat)) ∧
  (∀ (s : State) (p : Nat), p < 2 → mainPower s.dev = true →
    let d := s.dev
    (portState d p = 1 → (portRun d p).waiting = false →
      ∃ e, Runs (.heartbeatTimeout p) s e ∧ portState e p = 2 ∧
        Noted (fset (updPort d p (fun x => { x with waiting := false })) hpPortStateState p 2) e) ∧
    (portState d p ≠ 1 ∨ (portRun d p).waiting = true → Runs (.heartbeatTimeout p) s d)) ∧
  (∀ (s : State) (p : Nat), p < 2 → mainPower s.dev = true → portHeld s.dev p = true →
    let d := s.dev
    (∃ e, Runs (.orphanReadAbandon p) s (advance e) ∧ e.mem = d.mem ∧ e.eng = d.eng ∧ e.steps = d.steps ∧
      (∀ q i, i < 2 ^ 20 → q ≠ .kringStatus → regGet e q i = regGet d q i) ∧
      ∀ r, r < 16384 → ringState e r = (if ringOwner d r = some p ∧ ringState d r = 1 then 4 else ringState d r)) ∧
    (fget d hpCfgOrphanClose p ≠ 0 →
      let mine := fun g => groupPhase d g = .opened ∧ (groupAt d g).map (·.port) = some p
      ∃ e, Runs (.orphanCloseTimeout p) s (advance e) ∧
        e = { d with steps := { d.steps with groups := e.steps.groups }, eng := { d.eng with taken := e.eng.taken } } ∧
        (∀ g x, groupAt d g = some x → groupAt e g = some (if mine g then
          { x with phase := .closing, closing := none, selfClose := true, conds := x.conds ||| 2 ^ 5 } else x)) ∧
        e.eng.taken = d.eng.taken.map (fun c =>
          if c.phase = .waiting ∧ c.groupOf.any (fun g => decide (mine g)) = true then
            { c with phase := .finished, status := Status.aborted.code, info := 0, issued := true } else c)) ∧
    (fget d hpCfgOrphanClose p = 0 → Runs (.orphanCloseTimeout p) s d))

/-- HP_ATTACH: what attach, resume, reset_rings and detach do, and the result wrong state. -/
def Obligations.AttachResumeResetDetach : Prop :=
  ∀ (s : State) (p : Nat), portAnswers s.dev p = true →
    let d := s.dev
    let st := portState d p
    let wrong := fun i => ∃ e, Runs i s e ∧ OnlyRegs d e [(.hpAttach, p)] ∧ fget e hpAttachResult p = 1
    (st = 1 ∨ st = 4 → wrong (.attach p)) ∧
    (st ≠ 1 → st ≠ 4 → ∃ e, Runs (.attach p) s e ∧ portState e p = 1 ∧ fget e hpAttachResult p = 0 ∧
      fget e hpPortStateSession p = (fget d hpPortStateSession p + 1) % 2 ^ 16 ∧ fget e hpHbLastStamp p = d.time % 2 ^ 64 ∧
      (p < d.ports.length → (portRun e p).waiting = (st == 2)) ∧
      e.mem = d.mem ∧ e.steps = d.steps ∧ e.eng.taken = d.eng.taken ∧ e.eng.owner = d.eng.owner ∧ e.eng.held = d.eng.held) ∧
    (st ≠ 1 → wrong (.resume p) ∧ wrong (.resetRings p) ∧ wrong (.detach p)) ∧
    (st = 1 → p < d.ports.length →
      (∃ e, Runs (.resume p) s (advance e) ∧ fget e hpAttachResult p = 0 ∧ fget e hpHbLastStamp p = d.time % 2 ^ 64 ∧
        (portRun e p).waiting = false ∧ e.steps.groups = d.steps.groups ∧
        ∀ r, r < 16384 → ringState e r = (if ringOwner d r = some p ∧ ringState d r = 4 then 1 else ringState d r)) ∧
      (∃ e, Runs (.resetRings p) s (advance e) ∧ fget e hpAttachResult p = 0 ∧ (portRun e p).waiting = false ∧
        fget e hpHbLastStamp p = d.time % 2 ^ 64 ∧ e.mem = d.mem ∧
        (∀ h, h ∈ e.eng.held ↔ h ∈ d.eng.held ∧ h.ring ∉ portRings d p) ∧
        (∀ c ∈ e.eng.taken, c.ring ∈ portRings d p → c.phase ≠ .waiting) ∧
        (∀ r, r < 16384 → regGet e .kringCounts r = regGet d .kringCounts r ∧
          (ringOwner d r = some p → fget e kringCfgEnable r = 0 ∧ ringState e r = (if ringState d r = 0 ∨ ringState d r = 2 then
            ringState d r else if fget d kringStatusInflight r = 0 then 0 else 2)) ∧
          (ringOwner d r ≠ some p → regGet e .kringCfg r = regGet d .kringCfg r ∧ regGet e .kringStatus r = regGet d .kringStatus r)) ∧
        ∀ g x, groupAt d g = some x → groupAt e g = some (if x.phase = .opened ∧ x.port = p then
          { x with phase := .closing, closing := none, selfClose := true, conds := x.conds ||| 2 ^ 5 } else x)) ∧
      (∃ e, Runs (.detach p) s e ∧ fget e hpAttachResult p = 0 ∧ portState e p = 0 ∧ (portRun e p).waiting = false ∧
        e.mem = d.mem ∧ e.eng.taken = d.eng.taken ∧ e.steps = d.steps))

/-- HP_ADOPT: an attached port takes over the rings and epochs of a port in orphan hold that allows it. -/
def Obligations.AdoptionTakesOverRings : Prop :=
  ∀ (s : State) (p : Nat), portAnswers s.dev p = true →
    let d := s.dev
    let q := 1 - p
    let can := portState d p = 1 ∧ portState d q = 2 ∧ fget d hpCfgAdoptive q = 1
    (can → ∃ e, Runs (.adopt p) s (advance e) ∧ portState e q = 3 ∧ fget e hpAdoptResult p = 0 ∧ e.mem = d.mem ∧
      (∀ r, r < 16384 → regGet e .kringCounts r = regGet d .kringCounts r ∧
        (ringOwner d r = some q → ringOwner e r = some p ∧ fget e kringCfgOwner r = p ∧ fget e kringCfgVecEn r = 0 ∧
          ringState e r = (if ringInHost d r q = true ∧ ringState d r ≠ 0 then 5
            else if ringState d r = 1 then 4 else ringState d r)) ∧
        (ringOwner d r ≠ some q → ringOwner e r = ringOwner d r ∧ regGet e .kringCfg r = regGet d .kringCfg r ∧
          regGet e .kringStatus r = regGet d .kringStatus r)) ∧
      ∀ g x, groupAt d g = some x → groupAt e g = some (if x.phase ≠ .idle ∧ x.port = q then { x with port := p } else x)) ∧
    (¬can → ∃ e, Runs (.adopt p) s e ∧ OnlyRegs d e [(.hpAdopt, p)] ∧ fget e hpAdoptResult p = 1)

/-- Port-level resets, D3hot, D0, PERST# release and retraining act on one port and leave rings, counts, held records
and epochs alone. -/
def Obligations.PortResetsTouchOnePort : Prop :=
  (∀ (s : State) (p : Nat) (how : PortReset), p < 2 → mainPower s.dev = true →
    let d := s.dev
    let kept := fun (e : Dev) => MemKept d e ∧ e.steps = d.steps ∧ e.eng.taken = d.eng.taken ∧
      e.eng.owner = d.eng.owner ∧ e.eng.held = d.eng.held ∧ portState e (1 - p) = portState d (1 - p) ∧
      ∀ r, r < 16384 → regGet e .kringCounts r = regGet d .kringCounts r ∧ regGet e .kringStatus r = regGet d .kringStatus r ∧
        regGet e .kringCfg r = regGet d .kringCfg r
    (∃ e, Runs (.portLevelReset p how) s e ∧ kept e ∧
      portState e p = (if portState d p = 1 then 2 else if portState d p = 0 then 4 else portState d p) ∧
      fget e hpHeartbeatBeat p = 0 ∧ fget e hpDrvVersionMajor p = 0 ∧ fget e hpEvtEnEn p = 0) ∧
    (portAnswers d p = true → p < d.ports.length → ∃ e, Runs (.d3hotEntry p) s e ∧ kept e ∧ (portRun e p).d3 = true ∧
      portState e p = (if portState d p = 1 then 2 else portState d p)) ∧
    (Runs (.d0Return p) s (updPort d p (fun x => { x with d3 := false }))) ∧
    (portState d p = 4 → (portRun d p).perst = false →
      ∃ e, Runs (.hostLinkTrained p) s e ∧ portState e p = 0 ∧ Noted (fset d hpPortStateState p 0) e)) ∧
  (∀ (s : State) (p : Nat), p < 2 → p < s.dev.ports.length → mainPower s.dev = true →
    ∃ e, Runs (.perstRelease p) s e ∧ (portRun e p).perst = false ∧ e.regs = s.dev.regs ∧ e.mem = s.dev.mem) ∧
  (∀ (s : State) (p tag : Nat), portAnswers s.dev p = true →
    Runs (.atsInvalidation p tag) s (emit s.dev (.answer p tag)))

/-- HP_EVT_STATUS and HP_EVT_EN: written bits clear, enables are set, vector 0 follows the product, and a foreign bank
is left alone. -/
def Obligations.EventBanksClearAndEnable : Prop :=
  ∀ (s : State) (p bank : Nat) (v : BitVec 64), portAnswers s.dev p = true → bank < 2 →
    let d := s.dev
    let told := fun (e : Dev) => if regGet e .hpEvtStatus p &&& regGet e .hpEvtEn p = 0 then e else sendVector e p 0
    (bank = p →
      (∃ e, Runs (.evtStatusClear p bank v) s (told e) ∧ OnlyRegs d e [(.hpEvtStatus, p)] ∧
        regGet e .hpEvtStatus p = regGet d .hpEvtStatus p - (regGet d .hpEvtStatus p &&& v.toNat)) ∧
      (∃ e, Runs (.evtEnWrite p bank v) s (told e) ∧ OnlyRegs d e [(.hpEvtEn, p)] ∧ fget e hpEvtEnEn p = v.toNat % 4096)) ∧
    (bank ≠ p → Runs (.evtStatusClear p bank v) s (fsat d hpErrForeignWrite p 1) ∧
      Runs (.evtEnWrite p bank v) s (fsat d hpErrForeignWrite p 1))

/-- ADD, SET, ERR_SET and ERR_CLEAR of a semaphore. -/
def Obligations.SemaphoreOperations : Prop :=
  ∀ (d : Dev) (m n v : Nat), m < 262144 → n < 65536 → v < 2 ^ 32 →
    (∀ a, OnlyRegs d (semApply d m a) [(.semValue, m)]) ∧
    semCount (semApply d m (.add n)) m = (semCount d m + n) % 2 ^ 32 ∧ semErr (semApply d m (.add n)) m = semErr d m ∧
    semCount (semApply d m (.set v)) m = v ∧ semErr (semApply d m (.set v)) m = semErr d m ∧
    semCount (semApply d m (.errSet n)) m = (semCount d m + n) % 2 ^ 32 ∧ semErr (semApply d m (.errSet n)) m = true ∧
    semCount (semApply d m .errClear) m = semCount d m ∧ semErr (semApply d m .errClear) m = false

/-- A write of SEM_VALUE: its low word acts as SET, its error bit as ERR_SET 0 or ERR_CLEAR. -/
def Obligations.SemValueWriteSetsAndClears : Prop :=
  ∀ (s : State) (p m : Nat) (v : BitVec 64), portAnswers s.dev p = true → asleep s.dev = false → m < 262144 →
    let d := s.dev
    (∃ e, Runs (.semValueWrite p m 0 v) s e ∧ OnlyRegs d e [(.semValue, m)] ∧ semCount e m = v.toNat % 2 ^ 32 ∧
      semErr e m = semErr d m) ∧
    (∃ e, Runs (.semValueWrite p m 1 v) s e ∧ OnlyRegs d e [(.semValue, m)] ∧ semCount e m = semCount d m ∧
      semErr e m = v.toNat.testBit 0) ∧
    (∃ e, Runs (.semValueWrite p m 2 v) s e ∧ OnlyRegs d e [(.semValue, m)] ∧ semCount e m = v.toNat % 2 ^ 32 ∧
      semErr e m = v.toNat.testBit 32)

/-- side_inval clears the valid bits of one core, cnt_clear the counters of one unit. -/
def Obligations.SideMemoryAndCounterClears : Prop :=
  ∀ (s : State) (p : Nat), portAnswers s.dev p = true → asleep s.dev = false →
    let d := s.dev
    let kept := fun (e : Dev) => e.mem = d.mem ∧ e.eng = d.eng ∧ e.steps = d.steps ∧ e.sideValid = d.sideValid
    (∀ core, core < 64 → coreWritable d .cardCtl core = true →
      (∃ e, Runs (.sideInval p core) s e ∧ e = { d with sideValid := e.sideValid } ∧
        ∀ q, e.sideValid.contains q = (d.sideValid.contains q && decide (q / 1024 ≠ core))) ∧
      (∃ e, Runs (.cardCntClear p core) s e ∧ kept e ∧ cntGet e cardRowsRows core = 0 ∧
        fget e cardSideEccUncorrectable core = 0 ∧ fget e cardSideEccCorrected core = 0 ∧
        ∀ c, c < 64 → c ≠ core → cntGet e cardRowsRows c = cntGet d cardRowsRows c ∧
          regGet e .cardSideEcc c = regGet d .cardSideEcc c)) ∧
    (∀ a, a < 256 → coreWritable d .arrCtl a = true →
      ∃ e, Runs (.arrCntClear p a) s e ∧ kept e ∧ cntGet e arrVectorsVectors a = 0 ∧ cntGet e arrBusyCyclesBusy a = 0 ∧
        cntGet e arrFrontBubbleBubble a = 0 ∧ cntGet e arrFeedStallStall a = 0 ∧ fget e arrParityCntParityErr a = 0 ∧
        ∀ b, b < 256 → b ≠ a → cntGet e arrVectorsVectors b = cntGet d arrVectorsVectors b ∧
          regGet e .arrParityCnt b = regGet d .arrParityCnt b) ∧
    (∀ a, a < 256 → coreWritable d .safCtl a = true →
      ∃ e, Runs (.safCntClear p a) s e ∧ kept e ∧ e.regs = d.regs ∧ cntGet e safTruncCntTrunc a = 0 ∧
        cntGet e safFloorCntFloor a = 0 ∧ cntGet e safSpillCntSpill a = 0 ∧ cntGet e safOvfCntOvf a = 0 ∧
        ∀ b, b < 256 → b ≠ a → cntGet e safTruncCntTrunc b = cntGet d safTruncCntTrunc b ∧
          cntGet e safOvfCntOvf b = cntGet d safOvfCntOvf b)

/-- A lock bit is set and nothing else; SAF_SPILL_HWM is returned and starts anew. -/
def Obligations.LocksAndReadClears : Prop :=
  ∀ (s : State) (p : Nat), portAnswers s.dev p = true → asleep s.dev = false →
    let d := s.dev
    (∀ k f i, lockFields[k]? = some (f, i) →
      ∃ e, Runs (.lockSet p k) s e ∧ OnlyRegs d e [(f.reg, i)] ∧ fget e f i = 1) ∧
    (∀ die, die < 2 → inReset d 2 die = false → ∃ e, Runs (.spillHwmRead p die) s e ∧ e.mem = d.mem ∧ e.eng = d.eng ∧
      e.out = d.out ++ [.answer p (fget d safSpillHwmMinFree die)] ∧
      fget e safSpillHwmMinFree die = fget d safSpillFreeFree die % 2 ^ (safSpillHwmMinFree.hi + 1 - safSpillHwmMinFree.lo) ∧
      ∀ r j, j < 2 ^ 20 → (r, j) ≠ (.safSpillHwm, die) → regGet e r j = regGet d r j) ∧
    (∀ die, die < 2 → inReset d 2 die = true → Runs (.spillHwmRead p die) s (emit d (.abort p)))

/-- REGISTER_WRITE: misaligned accesses are counted, aligned ones reach the register that the offset names. -/
def Obligations.RegisterWriteReachesOneRegister : Prop :=
  ∀ (s : State) (p bar off size : Nat) (v : BitVec 64), portAnswers s.dev p = true →
    let d := s.dev
    (¬((size = 4 ∨ size = 8) ∧ off % size = 0) →
      ∃ e, Runs (.registerWrite p bar off size v) s e ∧ OnlyRegs d e [(.hpErr, p)] ∧
        fget e hpErrMisaligned p = min (fget d hpErrMisaligned p + 1) 65535) ∧
    (asleep d = false → off % 4 = 0 → (off < 0x110000 ∨ 0x118000 ≤ off) →
      (regAt 0 off = none → Runs (.registerWrite p 0 off 4 v) s d) ∧
      (∀ r i b, regAt 0 off = some (r, i, b) →
        Runs (.registerWrite p 0 off 4 v) s (writeReg d p r i ⟨8 * b, 32, v.toNat % 2 ^ 32⟩)))

/-- What a write does to a field: RW takes values in its range, W1C clears and W1S sets written bits, all others keep
their value. -/
def Obligations.FieldsObeyTheirAccessType : Prop :=
  ∀ (d : Dev) (f : Field) (i v : Nat), i < 2 ^ 20 → f.lo ≤ f.hi → f.hi < 64 →
    let x := bits v f.hi f.lo
    let e := writeField d f i 0 64 v
    OnlyRegs d e [(f.reg, i)] ∧
    (f.acc = .rw → fget e f i = if f.min ≤ x ∧ x ≤ f.max then x else fget d f i) ∧
    (f.acc = .w1c → ∀ k, (fget e f i).testBit k = ((fget d f i).testBit k && !x.testBit k)) ∧
    (f.acc = .w1s → ∀ k, (fget e f i).testBit k = ((fget d f i).testBit k || x.testBit k)) ∧
    (f.acc ≠ .rw → f.acc ≠ .w1c → f.acc ≠ .w1s → e = d)

/-- Every command header reads back from its words, whatever stands in the rest of the entry. -/
def Obligations.CommandHeaderRoundTrip : Prop :=
  ∀ (h : Header) (rest : Nat), HeaderFits h →
    let e := headerWords h + rest * 2 ^ 256
    headerOf e = h ∧ ∀ k, entryWord e (4 + k) = entryWord rest k

/-- A lane entry packs canonically and unpacks to the same entry. -/
def Obligations.PackedEntryIsCanonical : Prop :=
  ∀ s : SafEntry, EntryFits s →
    let packs := fun (w pos : Int) => ∃ x, packEntry s = some x ∧ x < 2 ^ 128 ∧
      (let p := unpackEntry x
       p.special = s.special ∧ p.spill = false ∧ p.ovf = s.ovf ∧ p.trunc = s.trunc ∧ p.floor = s.floor ∧
       p.anchored = s.anchored ∧ p.anchor = s.anchor ∧ p.guardOk = true ∧ p.pos = pos ∧ p.window = w ∧
       p.entry = { s with v := if s.special = .finite then s.v else 0 })
    (s.special ≠ .finite ∨ s.v = 0 → packs 0 0) ∧
    (∀ (w : Int) (k : Nat), s.special = .finite → s.v = w * 2 ^ k → w % 2 = 1 →
      (-(2 ^ 95) ≤ w → w < 2 ^ 95 → packs w (k + s.unit)) ∧
      (w < -(2 ^ 95) ∨ 2 ^ 95 ≤ w → packEntry s = none))

/-- Contributions to a fixed-mode lane entry add exactly, in whatever order they arrive. -/
def Obligations.AccumulationIsExactInAnyOrder : Prop :=
  ∀ (s : SafEntry) (cs : List (Int × Int)), s.special = .finite → s.anchored = false →
    s.v.natAbs + addBound cs < 2 ^ 767 →
    (addAll s cs).1 = { s with
      v := s.v + (cs.map (fun c => (shiftFloor c.1 (c.2 + 400)).1)).sum,
      floor := s.floor || cs.any (fun c => (shiftFloor c.1 (c.2 + 400)).2) } ∧
    (∀ cs' : List (Int × Int), cs'.Perm cs → addAll s cs' = addAll s cs) ∧
    ((∀ c ∈ cs, -400 ≤ c.2) →
      (addAll s cs).1 = { s with v := s.v + (cs.map (fun c => c.1 * 2 ^ (c.2 + 400).toNat)).sum })

/-- Overflow of a promotion makes an infinity, special entries ignore finite contributions, special states combine as
in Table 4.2. -/
def Obligations.OverflowAndSpecialsOfAnEntry : Prop :=
  ∀ (s : SafEntry) (i e : Int), s.anchored = false →
    let sum := s.v + (shiftFloor i (e + 400)).1
    (s.special = .finite → 2 ^ 767 ≤ sum → (safAddFixed s i e).1.special = .pinf ∧ (safAddFixed s i e).1.ovf = true ∧
      (safAddFixed s i e).2.ovf = 1) ∧
    (s.special = .finite → sum < -(2 ^ 767) → (safAddFixed s i e).1.special = .ninf ∧ (safAddFixed s i e).1.ovf = true ∧
      (safAddFixed s i e).2.ovf = 1) ∧
    (s.special ≠ .finite → safAddFixed s i e = (s, safCountZero)) ∧
    (∀ x, (safAddSpecial s x).special =
      if s.special = .nan ∨ x = .nan ∨ (s.special = .pinf ∧ x = .ninf) ∨ (s.special = .ninf ∧ x = .pinf) then .nan
      else if s.special = .finite then x else s.special) ∧
    (∀ x, { safAddSpecial s x with special := s.special } = s)

/-- Every ring command is taken in count order under the conditions of R313: sq_head advances and the command is in
flight with its entry. -/
def Obligations.SchedulerTakesCommand : Prop :=
  ∀ (s : State) (i : Instr) (r : Nat) (w : Wrr), TakesNext i s.dev r w →
    let d := s.dev
    ringState d r = 1 ∧ fget d kringCountsSqHead r ≠ fget d kringCountsSqTail r ∧ fget d kringStatusInflight r < 256 ∧
    serialDiff (fget d kringCountsSqHead r) (fget d kringCountsCqHead r) < ringDepth d r ∧
    ∃ t, Runs i s (advance t) ∧ fget t kringCountsSqHead r = (fget d kringCountsSqHead r + 1) % 2 ^ 32 ∧
      fget t kringStatusInflight r = fget d kringStatusInflight r + 1 ∧
      fget t kringCountsSqTail r = fget d kringCountsSqTail r ∧ fget t kringCountsCqHead r = fget d kringCountsCqHead r ∧
      fget t kringCountsCqTail r = fget d kringCountsCqTail r ∧ t.mem = d.mem ∧ t.steps = { d.steps with deferred := t.steps.deferred } ∧
      ∃ c, t.eng.taken = d.eng.taken ++ [c] ∧ c.ring = r ∧ c.seq = fget d kringCountsSqHead r ∧ c.entry = nextEntry d r ∧
        c.port = (ringOwner d r).getD 0 ∧
        ((c.phase = .waiting ∧ c.status = 0) ∨ (c.phase = .finished ∧ c.status ≠ 0))

/-- A command that nothing keeps back starts when it is taken and ends with the status and info of its body. -/
def Obligations.CommandAloneRunsItsBody : Prop :=
  ∀ (s : State) (i : Instr) (r : Nat) (w : Wrr) (c : Cmd), TakesNext i s.dev r w → StartsAlone s.dev r w c →
    let b := bodyAlone s.dev r w c
    ∀ st info, b.done = some (st, info) → st ≠ Status.resetWait.code → st ≠ Status.remoteData.code →
      (∀ x, findCmd (afterBody s.dev r w c) r c.seq = some x → x.status = 0) →
      Runs i s (finishCmd (afterBody s.dev r w c) r c.seq st info)

/-- NOP, FENCE, SEM_WAIT without a wait held, SEM_SIGNAL and TIMESTAMP: what their bodies do. -/
def Obligations.LightCommandsFinish : Prop :=
  ∀ (d : Dev) (x : Ctx) (c : Cmd),
    (c.opcode = some .nop ∨ c.opcode = some .fence → runBody d x c = ⟨d, some (0, 0)⟩) ∧
    (c.opcode = some .semWait → runBody d x c = ⟨d, some (0, c.reached)⟩) ∧
    (c.opcode = none → (runBody d x c).done = some (Status.badOpcode.code, 0)) ∧
    (c.opcode = some .semSignal → bit (entryWord c.entry 4) 32 = false →
      let sem := bits (entryWord c.entry 4) 17 0
      let amount := bits (entryWord c.entry 4) 63 48
      (runBody d x c).done = some (0, 0) ∧
      (bits (entryWord c.entry 4) 34 33 = 0 → (runBody d x c).dev = semApply d sem (.add amount)) ∧
      (bits (entryWord c.entry 4) 34 33 = 1 → (runBody d x c).dev = semApply d sem (.set (bits (entryWord c.entry 5) 31 0))) ∧
      (bits (entryWord c.entry 4) 34 33 = 2 → (runBody d x c).dev = semApply d sem (.errSet amount)) ∧
      (bits (entryWord c.entry 4) 34 33 = 3 → (runBody d x c).dev = semApply d sem .errClear)) ∧
    (c.opcode = some .timestamp →
      let a := entryWord c.entry 4
      a % 8 = 0 → a + 8 ≤ 0x9000000000 → rangeNamed d x.port a 8 = true → accessFails d a 8 true = none →
      (runBody d x c).done = some (0, d.time % 2 ^ 64) ∧ memReadNat (runBody d x c).dev a 8 = d.time % 2 ^ 64 ∧
      SameButLogs d (runBody d x c).dev a 8 ∧ (runBody d x c).dev.eng.taken = d.eng.taken ∧
      (runBody d x c).dev.steps = d.steps ∧
      (marksIn d a 8 = [] → (runBody d x c).dev = memWrite d a (leBytes 8 d.time)))

/-- WAIT_RESUME: a blocked command starts when its count is reached, fails when its semaphore is in error, and else
stays blocked. -/
def Obligations.WaitsResumeOrFail : Prop :=
  ∀ (s : State) (r q : Nat) (c : Cmd), findCmd s.dev r q = some c →
    let d := s.dev
    let h := c.header
    let i := Instr.waitResume r q
    let waits := fun b => updCmd d c.ring c.seq (fun x => { x with blocked := b })
    (c.phase = .waiting → c.blocked = true → orderGate d c = true → h.waitEn = true →
      (semErr d h.waitSem = true → Runs i s (advance (finishWith d c .semError))) ∧
      (semErr d h.waitSem = false → serialDiff (semCount d h.waitSem) h.waitTarget < 2 ^ 31 →
        (admitted d c = true → Runs i s (advance (startCmd d c (semCount d h.waitSem)))) ∧
        (admitted d c = false → Runs i s (advance (waits false)))) ∧
      (semErr d h.waitSem = false → 2 ^ 31 ≤ serialDiff (semCount d h.waitSem) h.waitTarget →
        Runs i s (advance (waits true)))) ∧
    (c.phase ≠ .waiting ∨ c.blocked = false ∨ orderGate d c = false → Runs i s d)

/-- COMMAND_COMPLETE: a finished command signals its semaphores, ERR_SET after a failure, and then its record is
written. -/
def Obligations.CompletionSignalsAndRecords : Prop :=
  ∀ (s : State) (r q : Nat) (c : Cmd), findCmd s.dev r q = some c →
    let d := s.dev
    let i := Instr.commandComplete r q
    let act := fun n => if c.status = 0 then SemAct.add n else SemAct.errSet n
    let g := fun (x : Dev) (on : Bool) (sig : Sig) => if on then semApply x sig.sem (act sig.amount) else x
    let d0 := updCmd d r q (fun c => { c with phase := .signalled })
    (c.outstanding = [] → c.phase = .finished → c.opcode ≠ some .fennelPut →
      c.header.sig0.remote = false → c.header.sig1.remote = false →
      Runs i s (advance (recordCmd (g (g d0 c.header.sig0En c.header.sig0) c.header.sig1En c.header.sig1)
        { c with phase := .signalled }))) ∧
    (c.outstanding = [] → c.phase = .signalled → Runs i s (advance (recordCmd d c))) ∧
    (c.outstanding ≠ [] ∨ (c.phase ≠ .finished ∧ c.phase ≠ .signalled) → Runs i s d)

/-- A record of count k goes to slot k mod depth with the phase of its pass, and cq_tail becomes k + 1. -/
def Obligations.CompletionRecordGoesToItsSlot : Prop :=
  ∀ (d : Dev) (r rec0 : Nat), r < 16384 →
    let k := fget d kringCountsCqTail r
    let a := ringCqBase d r + 32 * (k % ringDepth d r)
    let phase := if k / ringDepth d r % 2 = 0 then 1 else 0
    let e := putRecord d r rec0
    a + 32 ≤ 0x6000000000000000 → NoSide d a →
      memReadNat e a 32 = (rec0 + phase * 2 ^ 63) % 2 ^ 256 ∧ SameButLogs d e a 32 ∧
      fget e kringCountsCqTail r = (k + 1) % 2 ^ 32 ∧ fget e kringCountsCqHead r = fget d kringCountsCqHead r ∧
      fget e kringCountsSqHead r = fget d kringCountsSqHead r ∧ fget e kringCountsSqTail r = fget d kringCountsSqTail r

/-- After its record a command is in flight no longer, and a draining ring with nothing in flight is disabled. -/
def Obligations.CompletedCommandLeavesItsRing : Prop :=
  ∀ (d : Dev) (r : Nat), r < 16384 →
    let n := fget d kringStatusInflight r - 1
    let e := ringAfter d r
    fget e kringStatusInflight r = n ∧
    ringState e r = (if n = 0 ∧ ringState d r = 2 then 0 else ringState d r) ∧
    regGet e .kringCounts r = regGet d .kringCounts r ∧ e.mem = d.mem ∧ e.eng.taken = d.eng.taken ∧
    (n ≠ 0 ∨ d.eng.raise.contains r = false → e.out = d.out)

/-- A message in sequence on a link in operation is accepted and delivered or forwarded; one ahead is answered by a
NACK, an old one is dropped. -/
def Obligations.MessagesAreTakenInSequence : Prop :=
  ∀ (s : State) (i : Instr) (n : Nat) (f : Flit) (p : Payload) (body : Dev → Dev) (l : Link),
    delivers i = some (n, f, p, body) → s.dev.pwr.state = .running → linkAt s.dev n = some l →
    let d := s.dev
    (linkUp d n = true →
      (f.seq % 2 ^ 16 = l.rxSeq → ∃ e, OnlyLink d e n ∧
        (linkAt e n).map (fun x => (x.rxSeq, x.nackOut)) = some ((l.rxSeq + flitsOf p) % 2 ^ 16, false) ∧
        d.out ++ [.idle n ((l.rxSeq + flitsOf p + 2 ^ 16 - 1) % 2 ^ 16) (vcOf p) (flitsOf p)] <+: e.out ∧
        (f.dst = ownId d → Runs i s (body e)) ∧ (f.dst ≠ ownId d → Runs i s (forward e ⟨f.dst, f.src, p⟩))) ∧
      (f.seq % 2 ^ 16 ≠ l.rxSeq → seqDiff f.seq l.rxSeq < 2 ^ 15 →
        (l.nackOut = false → ∃ e, Runs i s e ∧ OnlyLink d e n ∧ e.out = d.out ++ [.nack n l.rxSeq] ∧
          linkAt e n = some { l with nackOut := true }) ∧
        (l.nackOut = true → Runs i s d)) ∧
      (f.seq % 2 ^ 16 ≠ l.rxSeq → 2 ^ 15 ≤ seqDiff f.seq l.rxSeq → Runs i s d)) ∧
    (linkUp d n = false → Runs i s d)

/-- Requests of peers: WR lands where a window allows it, RD_REQ answers the bytes, SEM_OP acts, PROBE answers; all
else is denied. -/
def Obligations.PeerRequestsAreServed : Prop :=
  ∀ (d : Dev) (src t : Nat),
    (∀ o (data : List Byte) a, peerOffsetAddr o = some a → o < 2 ^ 40 → 0 < data.length → o + data.length ≤ 2 ^ 40 →
      rmaAllows d a data.length true = true → inSpill d a data.length = false → accessFails d a data.length true = none →
      ∃ e, serveRequest d src (.wr o t data) = sendQuiet e src (.wrAck t) ∧ memRead e a data.length = data ∧
        e.eng.taken = d.eng.taken ∧ e.steps = d.steps ∧ e.shards = d.shards ∧
        (∀ r, r < 16384 → ringState e r = ringState d r ∧ regGet e .kringCounts r = regGet d .kringCounts r) ∧
        (NoSide d a → SameButLogs d e a data.length ∧
          (marksIn d a data.length = [] → e = memWrite d a data))) ∧
    (∀ o len a, peerOffsetAddr o = some a →
      rmaAllows d a len false = true → inSpill d a len = false → accessFails d a len false = none →
      serveRequest d src (.rdReq o t len) =
        sendQuiet (touchAcc (noteRead d a len) none) src (.rdResp t (memRead d a len))) ∧
    (∀ op m n, fget d blRmaSemLo 0 ≤ m ∧ m ≤ fget d blRmaSemHi 0 →
      serveRequest d src (.semOp t op m n) = advance (sendQuiet (semApply d m (semActOf op n n)) src (.semAck t))) ∧
    (serveRequest d src (.probe t) = sendQuiet d src (.probeResp t)) ∧
    (let denied := sendQuiet (fsat d blErrDenied 0 1) src (.errResp t Status.remoteDenied.code);
      (∀ o data, (∀ a, peerOffsetAddr o = some a → rmaAllows d a data.length true = false ∨ inSpill d a data.length = true) →
        serveRequest d src (.wr o t data) = denied) ∧
      (∀ o len, (∀ a, peerOffsetAddr o = some a → rmaAllows d a len false = false ∨ inSpill d a len = true) →
        serveRequest d src (.rdReq o t len) = denied) ∧
      (∀ op m n, (m < fget d blRmaSemLo 0 ∨ fget d blRmaSemHi 0 < m) → serveRequest d src (.semOp t op m n) = denied))

/-- An answer ends the request of its tag and peer, a failure or a timeout fails its command, a late answer is
discarded. -/
def Obligations.AnswersEndRequestsOfCommands : Prop :=
  (∀ (d : Dev) (src t : Nat),
    (∀ r, findReq d src t = some r →
      let got := fun (data : List Byte) => advance (updCmd (dropReq d t) r.ring r.seq (fun c =>
        { c with outstanding := c.outstanding.erase t,
                 fetched := if data = [] then c.fetched else c.fetched ++ [(r.dest, data)] }))
      responseArrives d src (.wrAck t) = got [] ∧ responseArrives d src (.semAck t) = got [] ∧
      (∀ data, responseArrives d src (.rdResp t data) = got data) ∧
      (∀ st c, st < 2 ^ 16 → st ≠ 0 → findCmd d r.ring r.seq = some c → c.phase ≠ .finished → c.status = 0 →
        c.opcode ≠ some .stepClose → c.opcode ≠ some .updBind → c.opcode ≠ some .updUnbind →
        ∃ e info, responseArrives d src (.errResp t st) = advance e ∧
          e = { d with eng := e.eng, fab := { d.fab with reqs := d.fab.reqs.filter (fun x => x.tag != t) }, free := e.free } ∧
          findCmd e r.ring r.seq = some { c with outstanding := c.outstanding.erase t, status := st, info := info } ∧
          (st < 0x2001 ∨ 0x2003 < st → info = 0) ∧
          (0x2001 ≤ st → st ≤ 0x2003 → r.len ≠ 0 → info % 64 = 0 ∧ r.dest < info + 64 ∧ info < r.dest + r.len))) ∧
    (findReq d src t = none →
      responseArrives d src (.wrAck t) = d ∧ responseArrives d src (.semAck t) = d ∧
      (∀ data, responseArrives d src (.rdResp t data) = d) ∧ (∀ st, responseArrives d src (.errResp t st) = d)) ∧
    (∃ e, responseArrives d src (.probeResp t) = e ∧
      e = { d with fab := { d.fab with probeSeen := e.fab.probeSeen, unreachable := e.fab.unreachable } } ∧
      smapGet e.fab.probeSeen src 0 = d.time ∧ src ∉ e.fab.unreachable ∧
      ∀ p, p ≠ src → (p ∈ e.fab.unreachable ↔ p ∈ d.fab.unreachable) ∧
        smapGet e.fab.probeSeen p 0 = smapGet d.fab.probeSeen p 0)) ∧
  (∀ (s : State) (t : Nat), s.dev.pwr.state = .running →
    let d := s.dev
    (d.fab.reqs.find? (fun r => r.tag == t) = none → Runs (.respTimeout t) s d) ∧
    (∀ r c, d.fab.reqs.find? (fun r => r.tag == t) = some r → findCmd d r.ring r.seq = some c → c.phase ≠ .finished →
      c.status = 0 → c.opcode ≠ some .stepClose → c.opcode ≠ some .updBind → c.opcode ≠ some .updUnbind →
      ∃ e, Runs (.respTimeout t) s (advance e) ∧ OnlyRegs { d with eng := e.eng, fab := e.fab } e [(.blErr, 0)] ∧
        fget e blErrRespTo 0 = min (fget d blErrRespTo 0 + 1) 65535 ∧
        e.fab = { d.fab with reqs := d.fab.reqs.filter (fun x => x.tag != t) } ∧
        findCmd e r.ring r.seq = some { c with outstanding := c.outstanding.erase t, status := Status.linkLoss.code, info := 0 }))

/-- IDLE and NACK return acks and credits, a NACK or an ack stall resends what is unacknowledged, a bad flit is
answered by one NACK. -/
def Obligations.LinkAcksCreditsAndReplay : Prop :=
  ∀ (s : State) (n : Nat) (l : Link), s.dev.pwr.state = .running → linkAt s.dev n = some l → linkUp s.dev n = true → n < 36 →
    let d := s.dev
    let retrained := fun (e : Dev) => fget e blLinkStatusState n = 1 ∧ e.out.getLast? = some (.train n) ∧ MemKept d e ∧
      e.eng.taken = d.eng.taken ∧ linkAt e n = linkAt d n
    (∀ a vc k, l.waiting = [] → vc < 4 → l.credits.length = 4 →
      let step := seqDiff a l.txAck
      let cap := [1024, 1024, 2048, 64].getD vc 0
      let x : Link := { l with credits := listUpd l.credits vc (fun c => min (c + k) cap) }
      let y : Link := if step ≠ 0 ∧ step < seqDiff l.txSeq l.txAck then
          { x with txAck := a, ackAt := d.time,
                   replay := l.replay.filter (fun m => decide (step < seqDiff (m.seq + m.flits - 1) l.txAck)) }
        else x
      ∃ e, Runs (.idle n a vc k) s e ∧ OnlyLink d e n ∧ e.out = d.out ∧ linkAt e n = some y ∧
        ∀ q, Runs (.nack n a vc k q) s (resend e n q)) ∧
    (∀ q, let from0 := if seqDiff q (l.txAck + 1) < seqDiff l.txSeq (l.txAck + 1) then q else l.txAck + 1;
      l.replay.all (fun m => decide (seqDiff from0 (l.txAck + 1) ≤ seqDiff (m.seq + m.flits - 1) (l.txAck + 1))) = true →
      (∀ m ∈ l.replay, m.sends + 1 < fget d blLaneCfgReplayMax 0) →
      let e := resend d n q
      e.out = d.out ++ l.replay.map (fun m => .link n m.seq l.ack m.msg) ∧
      fget e blLinkReplayReplays n = (fget d blLinkReplayReplays n + seqDiff l.txSeq from0) % 2 ^ 48 ∧
      e.mem = d.mem ∧ fget e blLinkStatusState n = 2) ∧
    (l.replay = [] → Runs (.ackStallReplay n) s d ∧ Runs (.ackStallRetrain n) s d) ∧
    (l.replay ≠ [] → Runs (.ackStallReplay n) s (resend d n (l.txAck + 1)) ∧
      ∃ e, Runs (.ackStallRetrain n) s e ∧ retrained e) ∧
    (∀ why, why = .crc ∨ why = .ahead →
      (l.nackOut = false → ∃ e, Runs (.corruptFlit n why) s e ∧ OnlyLink d e n ∧ e.out = d.out ++ [.nack n l.rxSeq] ∧
        linkAt e n = some { l with nackOut := true }) ∧
      (l.nackOut = true → Runs (.corruptFlit n why) s d)) ∧
    (∃ e, Runs (.corruptFlit n .codeword) s e ∧ fget e blLinkFecUcw n = min (fget d blLinkFecUcw n + 1) (2 ^ 32 - 1) ∧
      linkAt e n = some { l with ucwWin := l.ucwWin + 1, nackOut := true } ∧ e.mem = d.mem ∧
      e.out = (if l.nackOut then d.out else d.out ++ [.nack n l.rxSeq])) ∧
    (∃ e, Runs (.corruptFlit n .protocol) s e ∧ retrained e ∧ fget e blErrProto 0 = min (fget d blErrProto 0 + 1) 65535)

/-- Training ends in operation on the common lanes or in a further try, three failures in a second take the link down,
a worn lane is retired. -/
def Obligations.LinksTrainFallAndRetire : Prop :=
  ∀ (s : State) (n : Nat) (l : Link), s.dev.pwr.state = .running → linkAt s.dev n = some l → n < 36 →
    let d := s.dev
    (∀ peer port mask, ∃ e, Runs (.linkMgmt n peer port mask) s e ∧
      OnlyRegs { d with fab := { d.fab with links := e.fab.links } } e [(.blLinkStatus, n)] ∧
      fget e blLinkStatusPeerId n = peer % 2 ^ 14 ∧ fget e blLinkStatusPeerPort n = port % 2 ^ 6 ∧
      fget e blLinkStatusState n = fget d blLinkStatusState n ∧ fget e blLinkStatusLanes n = fget d blLinkStatusLanes n ∧
      linkAt e n = some { l with peerMask := mask % 16 } ∧ ∀ k, k ≠ n → linkAt e k = linkAt d k) ∧
    (fget d blLinkStatusState n = 1 →
      (let live := ownLanes d n &&& l.peerMask;
        2 ≤ popcount 4 live → l.waiting = [] → l.replay = [] →
        ∃ e, Runs (.linkTrainDone n true 15) s e ∧ fget e blLinkStatusState n = 2 ∧ fget e blLinkStatusLanes n = live ∧
          linkAt e n = some { l with failed := [], wasDown := false, nackOut := false, ackAt := d.time } ∧
          e.mem = d.mem ∧ e.eng.taken = d.eng.taken ∧ (l.wasDown = false → e.out = d.out)) ∧
      (∀ lanes, let failed := l.failed.filter (fun t => decide (d.time < t + 1000000000)) ++ [d.time];
        (l.wasDown = true → ∃ e, Runs (.linkTrainDone n false lanes) s e ∧ fget e blLinkStatusState n = 0 ∧ e.mem = d.mem ∧
          linkAt e n = some { l with failed := failed }) ∧
        (l.wasDown = false → failed.length < 3 → ownLanes d n &&& lanes &&& l.peerMask ≠ 0 →
          ∃ e, Runs (.linkTrainDone n false lanes) s e ∧ OnlyLink d e n ∧ e.out = d.out ++ [.train n] ∧
            linkAt e n = some { l with failed := failed }) ∧
        (l.wasDown = false → 3 ≤ failed.length → l.waiting = [] → ∃ e, Runs (.linkTrainDone n false lanes) s e ∧
          fget e blLinkStatusState n = 0 ∧ MemKept d e ∧ linkAt e n = some (linkFresh { l with failed := failed }) ∧
          ∀ p, p < 2 → (regGet e .hpEvtStatus p).testBit 8 = true))) ∧
    (fget d blLinkStatusState n ≠ 1 → ∀ ok lanes, Runs (.linkTrainDone n ok lanes) s d) ∧
    (fget d blLinkStatusState n = 0 → ∃ e, Runs (.linkRetryTimer n) s e ∧ fget e blLinkStatusState n = 1 ∧
      e.out = d.out ++ [.train n] ∧ OnlyRegs { d with out := e.out } e [(.blLinkStatus, n)]) ∧
    (fget d blLinkStatusState n ≠ 0 → Runs (.linkRetryTimer n) s d) ∧
    (linkUp d n = true → ∀ a b c f, a < 2 ^ 32 → b < 2 ^ 32 → c < 2 ^ 32 → f < 2 ^ 32 →
      let syms := [a, b, c, f]
      let worn := fun k => fget d blLaneCfgSymThr 0 * 1024 ≤ syms.getD k 0 ∧ (fget d blLinkStatusLanes n).testBit k = true
      ∃ e, Runs (.laneWindowEnd n a b c f) s e ∧
        fget e blLinkLaneSym n = a + 2 ^ 32 * b + 2 ^ 64 * c + 2 ^ 96 * f ∧
        fget e blLinkFecCorrected n = min (fget d blLinkFecCorrected n + (a + b + c + f)) (2 ^ 32 - 1) ∧ MemKept d e ∧
        (∀ k, k < 4 → worn k → n * 4 + k ∈ e.retired.lanes) ∧
        ((∀ k, k < 4 → ¬worn k) → l.ucwWin < fget d blLaneCfgUcwThr 0 →
          OnlyRegs { d with fab := { d.fab with links := e.fab.links } } e [(.blLinkLane, n), (.blLinkFec, n)] ∧
          linkAt e n = some { l with ucwWin := 0 }))

/-- PROBE_TICK probes every watched peer, PEER_UNREACHABLE takes note of one, raises its watch semaphores and cuts the
steps that need it. -/
def Obligations.ProbesFindUnreachablePeers : Prop :=
  ∀ (s : State), s.dev.pwr.state = .running →
    let d := s.dev
    (∃ e, Runs .probeTick s e ∧ OnlyRegs { d with fab := e.fab, out := e.out } e [(.blErr, 0)] ∧
      (d.fab.nextTag < 65536 → e.fab.nextTag = (d.fab.nextTag + (probedPeers d).length) % 65536) ∧
      e.fab.reqs = d.fab.reqs ∧ e.fab.unreachable = d.fab.unreachable ∧ e.fab.comms = d.fab.comms ∧
      (∀ p, p ∈ probedPeers d → smapGet e.fab.probeSeen p 0 =
        if smapHas d.fab.probeSeen p then smapGet d.fab.probeSeen p 0 else d.time) ∧
      (∀ p, p ∉ probedPeers d → smapGet e.fab.probeSeen p 0 = smapGet d.fab.probeSeen p 0)) ∧
    (∀ peer, peer ∈ probedPeers d → peer ∉ d.fab.unreachable →
      ∃ e, Runs (.peerUnreachable peer) s (advance (failRuns (stepsLosePeer e peer) (runHolds e peer) .linkLoss)) ∧
        (∀ p, p ∈ e.fab.unreachable ↔ p = peer ∨ p ∈ d.fab.unreachable) ∧ MemKept d e ∧ e.eng.taken = d.eng.taken ∧
        e.steps = d.steps ∧
        (∀ w, (peer, w) ∈ watchEntries d → w < 262144 → semErr e w = true ∧ semCount e w = semCount d w)) ∧
    (∀ peer, peer ∉ probedPeers d ∨ peer ∈ d.fab.unreachable → Runs (.peerUnreachable peer) s d)

/-- A drained epoch closes with the verdict of its conditions, one that waits too long with LINK_LOSS, a held
STEP_OPEN goes on. -/
def Obligations.EpochsCloseWithTheVerdict : Prop :=
  ∀ (s : State) (g : Nat) (grp : Group), groupAt s.dev g = some grp →
    let d := s.dev
    let lacks := d.shards.any (fun x => x.bind.group == g && lacksGradient x)
    let mask := if lacks then grp.conds ||| 2 ^ 5 else grp.conds
    let writes := ∀ x ∈ d.shards, x.bind.group = g → commitHalted d x = false
    (grp.phase = .closing → drained d g = true → grp.comm = none → grp.clipM = 0 → writes →
      ∃ e y, Runs (.stepCloseReduce g) s (advance e) ∧ groupAt e g = some y ∧
        y.verdict = (if mask.testBit 3 then 3 else if mask.testBit 4 then 4 else if mask.testBit 6 then 6
          else if mask.testBit 5 then 5 else if mask.testBit 1 then 1 else if mask.testBit 2 then 2 else 0) ∧
        y.phase = (if grp.closing = none then .idle else .reducing)) ∧
    (grp.phase ≠ .closing ∨ drained d g = false → Runs (.stepCloseReduce g) s (advance d)) ∧
    (∀ t, grp.phase = .reducing → grp.sentAt ≠ 0 → fget d blE2eCfgCloseTimeout 0 ≠ 0 → grp.comm.bind (findComm d) = some t →
      writes → ∃ e y, Runs (.stepCloseTimeout g) s (advance e) ∧ groupAt e g = some y ∧ y.verdict = 4) ∧
    (grp.phase ≠ .reducing ∨ grp.sentAt = 0 ∨ fget d blE2eCfgCloseTimeout 0 = 0 →
      Runs (.stepCloseTimeout g) s (advance d)) ∧
    (∀ c, d.eng.taken.find? (fun x => isStepCmd g x && x.held) = some c → findCmd d c.ring c.seq = some c →
      let closing := ∃ x ∈ beforeOf d c, x.header.group = g ∧ x.opcode = some .stepClose
      (¬closing → ∃ e, Runs (.stepOpenHeldStart g) s (advance e) ∧ e = { d with eng := { d.eng with taken := e.eng.taken } } ∧
        findCmd e c.ring c.seq = some { c with held := false }) ∧
      (closing → Runs (.stepOpenHeldStart g) s d)) ∧
    ((∀ x ∈ d.eng.taken, isStepCmd g x = true → x.held = false) → Runs (.stepOpenHeldStart g) s d)

/-- The phases of a shard follow one another, the committed plane is not written, and the last unit of work ends in
phase 5. -/
def Obligations.UpdatePhasesFollowOneAnother : Prop :=
  ∀ (s : State) (h : Nat),
    let d := s.dev
    let i := Instr.updPhaseDone h
    (findShard d h = none → Runs i s (advance d)) ∧
    (∀ x, findShard d h = some x →
      (unitHalted d x = true ∨ x.ph = 0 ∨ 5 ≤ x.ph → Runs i s (advance d)) ∧
      (unitHalted d x = false → 1 ≤ x.ph → x.ph ≤ 3 → ∃ e y, Runs i s (advance e) ∧ findShard e h = some y ∧ y.ph = x.ph + 1 ∧
        y.bind = x.bind ∧ y.unitNo = x.unitNo ∧ y.ledger.phase = x.ph + 1 ∧ e.eng.taken = d.eng.taken ∧
        (x.ph = 2 → x.unitNo < x.bind.units →
          (let p := planeBase x true; let q := planeBase x false; let n := x.bind.planeSize; let m := x.bind.mirror;
            p + n ≤ 0x9000000000 → q + n ≤ 0x9000000000 → m + 128 ≤ 0x9000000000 → p + n ≤ q ∨ q + n ≤ p →
            p + n ≤ m ∨ m + 128 ≤ p → ∀ a, p ≤ a → a < p + n → memGet e a = memGet d a))) ∧
      (unitHalted d x = false → x.ph = 4 → x.bind.units ≤ x.unitNo + 1 → ∃ e y, Runs i s (advance e) ∧
        findShard e h = some y ∧ y.ph = 5 ∧ y.unitNo = x.unitNo + 1 ∧ y.ledger.consumed = true ∧ y.ledger.phase = 5))

/-- Fingerprints are sent once per count, a difference is looked for region by region and told, the copy scrub goes on
line by line. -/
def Obligations.UpkeepOfBoundShards : Prop :=
  ∀ (s : State) (h : Nat) (ag : Bool) (rs : List Nat), s.dev.pwr.state = .running →
    let d := s.dev
    (findShard d h = none → Runs (.fingerprintCompare h) s d ∧ Runs (.copyScrub h) s d ∧ Runs (.fingerprintResult h ag rs) s d) ∧
    (∀ x, findShard d h = some x →
      (∃ e y, Runs (.fingerprintCompare h) s e ∧ findShard e h = some y ∧ y.bind = x.bind ∧
        y.fpAsked = (x.fpAsked || (fpDue d x).isSome) ∧
        fget e cfgBgStatusLastDone 8 = d.time % 2 ^ 64 ∧ fget e cfgBgStatusLagMs 8 = 0 ∧ fget e cfgBgStatusInSlice 8 = 0 ∧
        (fpDue d x = none → OnlyRegs d e [(.cfgBgStatus, 8)])) ∧
      (∀ c, c.op = fpOp → c.total = h → c.chunk = 0 →
        leafTakes d c = if c.info = 1 then updShard d h (fun y => { y with fpDiffer := some (c.inst % 2 ^ 32) }) else d) ∧
      (x.fpDiffer = none ∨ x.fpWait ≠ [] → Runs (.fingerprintResult h ag rs) s d) ∧
      (∀ n, x.fpDiffer = some n → x.fpWait = [] →
        (∃ e y, Runs (.fingerprintResult h ag rs) s e ∧ findShard e h = some y ∧ y.bind = x.bind ∧
          ∀ r ∈ y.fpWait, r < cdiv x.bind.planeSize 1048576) ∧
        (findComm d x.bind.rcomm = none → Runs (.fingerprintResult h ag rs) s (updShard d h (fun y =>
          { y with fpWait := List.range (cdiv x.bind.planeSize 1048576), fpBad := [] })))) ∧
      (∀ c r, c.op = fpOp → c.total = h → c.chunk = r + 1 → x.fpWait = [r] →
        Noted { d with shards := (leafTakes d c).shards } (leafTakes d c) ∧
        (∀ p, p < 2 → (regGet (leafTakes d c) .hpEvtStatus p).testBit 1 = true) ∧
        findShard (leafTakes d c) h = 
          some { x with fpDiffer := none, fpWait := [], fpBad := (if c.info = 1 then x.fpBad ++ [r] else x.fpBad) }) ∧
      (∃ e y, Runs (.copyScrub h) s e ∧ findShard e h = some y ∧ e.eng.taken = d.eng.taken ∧ e.steps = d.steps ∧
        y = { x with scrubLine := if 256 * x.bind.tiles ≤ x.scrubLine + 1 then 0 else x.scrubLine + 1 }))

/-- The copy-out and the restore of a plan entry: the bytes move, all others stay, and the entry goes through its
phases. -/
def Obligations.PlanEntriesMoveOutAndBack : Prop :=
  ∀ (s : State) (i : Nat) (p : PlanRun), findPlan s.dev i = some p →
    let d := s.dev
    let others := fun (e : Dev) => ∀ j, j ≠ i → findPlan e j = findPlan d j
    let only := fun (e : Dev) => e = { d with steps := { d.steps with plan := e.steps.plan } }
    let plain := fun (src dst : Nat) => (∀ k, k < p.size → logFree d (localAddr d (src + k)) = true) ∧ NoSide d dst
    let moved := fun (e : Dev) (src dst : Nat) => (∀ k, k < p.size → memGet e (dst + k) = memGet d (src + k)) ∧
      SameButLogs d e dst p.size ∧ others e ∧ e.eng.taken = d.eng.taken ∧ e.shards = d.shards
    let bad := fun (a : Nat) => (accessFails d a p.size false).map (·.info)
    (p.phase = .home → p.placed = 2 ∨ p.placed = 3 →
      ∃ e, Runs (.offloadCopyOut i) s e ∧ only e ∧ others e ∧ findPlan e i = some { p with phase := .copying }) ∧
    (p.phase ≠ .home ∨ (p.placed ≠ 2 ∧ p.placed ≠ 3) → Runs (.offloadCopyOut i) s d) ∧
    (p.phase = .copying → p.areaAt + p.size ≤ 0x6000000000000000 → plain p.home p.areaAt →
      ∃ e, Runs (.offloadCopyDone i) s (advance e) ∧ moved e p.home p.areaAt ∧
        findPlan e i = some { p with phase := .away, bad := bad p.home }) ∧
    (p.phase ≠ .copying → Runs (.offloadCopyDone i) s (advance d)) ∧
    (p.phase = .away → restoreSpace d p = none → Runs (.restoreStart i) s d) ∧
    (∀ a, p.phase = .away → restoreSpace d p = some a → ∃ e, Runs (.restoreStart i) s e ∧ only e ∧
      findPlan e i = some { p with phase := .restoring, restoreAt := a } ∧
      (∀ q ∈ holdersOf d p a, findPlan d q.index = some q →
        findPlan e q.index = some { q with phase := if q.placed = 4 then .discarded else .away }) ∧
      ∀ j, j ≠ i → (∀ q ∈ holdersOf d p a, q.index ≠ j) → findPlan e j = findPlan d j) ∧
    (p.phase ≠ .away → Runs (.restoreStart i) s d) ∧
    (p.phase = .restoring → p.restoreAt + p.size ≤ 0x6000000000000000 → plain p.areaAt p.restoreAt →
      ∃ e, Runs (.restoreComplete i) s (advance e) ∧ moved e p.areaAt p.restoreAt ∧
        findPlan e i = some { p with phase := .restored, bad := if p.bad = none then bad p.areaAt else p.bad }) ∧
    (p.phase ≠ .restoring → Runs (.restoreComplete i) s (advance d))

/-- A discarded entry is recomputed, a freed slot returns its credit, a stall is recorded once per epoch, a Fennel
transfer lands. -/
def Obligations.RecomputeCreditsStallsAndFennel : Prop :=
  ∀ (s : State), let d := s.dev
    (∀ i p, findPlan d i = some p →
      (p.phase ≠ .discarded ∨ p.writer = 0 ∨ restoreSpace d p = none → Runs (.recompute i) s d) ∧
      (∀ a, p.phase = .discarded → p.writer ≠ 0 → restoreSpace d p = some a →
        let cmd : Cmd := ⟨p.ring, p.seq, p.port, p.writer, none, p.stepTag, .started, false, false, true, 0, 0, [],
          p.fetched, 0, d.time, []⟩
        let d1 := takeSpace d p a .restored
        let b := runBody (noteRanges (stageReads d1 cmd) (commandReads d1 p.writer)) { cmd.ctx with recompute := true } cmd
        (∀ x, b.done = some (0, x) → Runs (.recompute i) s (advance (touchAcc (dropStaged b.dev) p.group))) ∧
        findPlan d1 i = some { p with phase := .restored, restoreAt := a })) ∧
    (∀ q, q < 4096 → ∃ e, Runs (.stageCreditReturn q) s (advance e) ∧ OnlyRegs d e [(.semQueue, q)] ∧
      fget e semQueueCredits q = (if fget d semQueueCredits q < fget d semQueueSlots q then fget d semQueueCredits q + 1
        else fget d semQueueCredits q) ∧
      fget e semQueueSlots q = fget d semQueueSlots q ∧ fget e semQueueFwdPair q = fget d semQueueFwdPair q ∧
      fget e semQueueBwdPair q = fget d semQueueBwdPair q) ∧
    (∀ q, (d.eng.taken.find? (stalledOn d q) = none → Runs (.stageStallRecord q) s d) ∧
      (∀ c, d.eng.taken.find? (stalledOn d q) = some c →
        ((⟨q, c.stepTag⟩ : QueueRun) ∈ d.steps.queues → Runs (.stageStallRecord q) s d) ∧
        ((⟨q, c.stepTag⟩ : QueueRun) ∉ d.steps.queues → ∃ e, Runs (.stageStallRecord q) s e ∧
          (⟨q, c.stepTag⟩ : QueueRun) ∈ e.steps.queues ∧
          Noted { d with steps := { d.steps with queues := e.steps.queues } } e))) ∧
    (∀ src, (fennelNext d src = none → Runs (.fennelLand src) s d) ∧
      (∀ x c, fennelNext d src = some x → findCmd d x.source x.seq = some c →
        (inReset d 2 c.port = true → Runs (.fennelLand src) s d) ∧
        (inReset d 2 c.port = false → c.port < 2 → x.dst + x.data.length ≤ 0x6000000000000000 → NoSide d x.dst →
          accessFails { d with fennel := d.fennel.erase x } x.dst x.data.length true = none →
          ∃ e, Runs (.fennelLand src) s (advance (finishCmd (flushWrites e c.ring c.seq) c.ring c.seq 0 0)) ∧
            memRead e x.dst x.data.length = x.data ∧ SameButLogs d e x.dst x.data.length ∧
            e.fennel = d.fennel.erase x ∧ e.eng.taken = d.eng.taken ∧ e.shards = d.shards ∧
            cntGet e fenStatusTransfers c.port = min (cntGet d fenStatusTransfers c.port + 1) (2 ^ 48 - 1) ∧
            ∀ r, r < 16384 → ringState e r = ringState d r ∧ regGet e .kringCounts r = regGet d .kringCounts r)))

/-- A doorbell makes a free channel busy, foreign, overrun and unserved ones are refused, a clear of done frees the
channel, a wake wakes Cumin. -/
def Obligations.MailboxDoorbellsAndDone : Prop :=
  ∀ (s : State) (ident ch n : Nat), MailReaches s.dev ident → ch < 32 →
    let d := s.dev
    let bell := Instr.mbxDoorbell ident ch n
    let free := fget d mbxChStatusBusy ch = 0 ∧ fget d mbxChStatusDone ch = 0 ∧ 16 ≤ n ∧ n ≤ 12288
    (mbxBound d ident ch = false →
      Runs bell s (fsat d mbxErrForeign 0 1) ∧ Runs (.mbxDoneClear ident ch) s (fsat d mbxErrForeign 0 1) ∧
      Runs (.mbxChWake ident ch) s (fsat d mbxErrForeign 0 1)) ∧
    (mbxBound d ident ch = true →
      (fget d mbxChStatusAwake ch = 0 → ∃ e, Runs bell s e ∧ Noted (fsat d mbxErrDown 0 1) e) ∧
      (fget d mbxChStatusAwake ch ≠ 0 →
        (fget d mbxChStatusBusy ch = 1 ∨ fget d mbxChStatusDone ch = 1 → Runs bell s (fsat d mbxErrOverrun 0 1)) ∧
        (free → fwState d = 2 → compState d (servingComp ch) = 1 →
          ∃ e, Runs bell s e ∧ OnlyRegs d e [(.mbxChStatus, ch)] ∧ fget e mbxChStatusBusy ch = 1 ∧ fget e mbxChStatusDone ch = 0) ∧
        (free → fwState d = 2 → compState d (servingComp ch) ≠ 1 → Replies bell s ch 1) ∧
        (free → fwState d < 2 → ¬(ch ≤ 1 ∧ reqService d ch = 1) → Replies bell s ch 2)) ∧
      (∃ e, Runs (.mbxDoneClear ident ch) s e ∧ OnlyRegs { d with mbx := e.mbx } e [(.mbxChStatus, ch)] ∧
        fget e mbxChStatusBusy ch = 0 ∧ fget e mbxChStatusDone ch = 0 ∧ (8 ≤ ch → e.mbx = d.mbx) ∧
        (ch < 8 → ∀ o, o < 0x8000 → mbxGet e ch o = 0)) ∧
      (asleep d = true → ∃ e, Runs (.mbxChWake ident ch) s e ∧ e = { d with regs := e.regs } ∧
        ∀ k, k < 32 → fget e mbxChStatusAwake k = 1 ∧ fget e mbxChStatusBusy k = fget d mbxChStatusBusy k) ∧
      (asleep d = false → Runs (.mbxChWake ident ch) s d))

/-- HELLO, LOAD, FW_RUNNING and STATUS: versions are agreed, one image is loaded by a host with the right, firmware
then serves and every lock is set. -/
def Obligations.FirmwareIsLoadedOnce : Prop :=
  ∀ (s : State) (ch : Nat), ch < 32 →
    let d := s.dev
    let svc := reqService d ch
    let p := fget d mbxMapInitiator ch
    (∀ lo hi, let v := min hi (Config.protocolHighest svc); let i := Instr.hello ch lo hi;
      holds d ch svc = true → (fwState d < 2 ∧ svc = 1) ∨ compServes d (servingComp ch) = true →
        (v < lo ∨ v = 0 → Replies i s ch 3) ∧
        (¬(v < lo ∨ v = 0) → ∃ e, Runs i s e ∧ Answered e ch 0 ∧ smapGet e.fw.opened (ch * 65536 + svc) 0 = v ∧
          e.out.getLast? = some (.reply ch [v]) ∧ e.mem = d.mem)) ∧
    (holds d ch svc = false → ∀ lo hi, Runs (.hello ch lo hi) s d) ∧
    (∀ a n, let i := Instr.load ch a n;
      (holds d ch 1 = false → Runs i s d) ∧
      (holds d ch 1 = true →
        (portState d p ≠ 1 ∨ fget d hpCfgLoadRight p = 0 → Replies i s ch 4) ∧
        (portState d p = 1 → fget d hpCfgLoadRight p ≠ 0 →
          (2 ≤ fwState d → Replies i s ch 11) ∧ (fwState d = 1 → Replies i s ch 1) ∧
          (fwState d = 0 → (∀ r, hostImage d p a n = .error r → Replies i s ch r) ∧
            (∀ bs, hostImage d p a n = .ok bs →
              (verifyImage d bs = none → ∃ e, Runs i s e ∧ Answered e ch 10 ∧ fwState e = 0 ∧ e.fw = d.fw) ∧
              (∀ x, verifyImage d bs = some x → d.fw.banks.length = 2 → ∃ e, Runs i s e ∧ fwState e = 1 ∧ runBank e = 0 ∧
                fwBank e 0 = some x ∧ e.fw.loading = some ch ∧ regGet e .mbxChStatus ch = regGet d .mbxChStatus ch)))))) ∧
    (d.fw.loading = none → Runs .fwRunning s d) ∧
    (d.fw.loading = some ch → ∃ e, Runs .fwRunning s (advance e) ∧ fwState e = 2 ∧ (∀ k, k < 6 → compState e k = 1) ∧
      (∀ f i, (f, i) ∈ lockFields → fget e f i = 1) ∧ fget e capHdrPublished 0 = 1 ∧ fget e cfgBootStatusStep 0 = 7 ∧
      e.fw.loading = none ∧ fget e mbxFwStatusGovernor 0 = 0 ∧ e.fw.running = 0 ∧ e.fw.mpu.length ≤ 16 ∧ Answered e ch 0 ∧
      MemKept d e) ∧
    (holds d ch 1 = true → fwState d < 2 ∨ compServes d 3 = true → ∃ e, Runs (.status ch) s e ∧ Answered e ch 0 ∧
      e.out.getLast? = some (.reply ch [regGet d .mbxFwStatus 0, regGet d .mbxFwVersion 0, regGet d .mbxFwAct 0]) ∧
      e.mem = d.mem ∧ fwState e = fwState d)

/-- STAGE, ACTIVATE, CANCEL and the hand-over: one image is staged, activated when nothing forbids it, and confirmed
or rolled back. -/
def Obligations.LiveUpdateStagesHandsOverAndRollsBack : Prop :=
  ∀ (s : State) (ch : Nat), ch < 32 → s.dev.fw.banks.length = 2 →
    let d := s.dev
    let ready := holds d ch 1 = true ∧ fwState d = 2 ∧ compServes d (servingComp ch) = true
    let old := runBank d
    let act := fun (e : Dev) => fget e mbxFwActState 0
    let res := fun (e : Dev) => fget e mbxFwActResult 0
    let ended := fun (e : Dev) (r : Nat) => e.fw.activating = none ∧ ∀ c, d.fw.activating = some c → c < 32 → Answered e c r
    (ready →
      (∀ a n bs, let i := Instr.stage ch a n;
        hostImage d (fget d mbxMapInitiator ch) a n = .ok bs →
        (∀ x run, verifyImage d bs = some x → fwBank d old = some run →
          (x.schemaMin ≤ run.schemaOut ∧ run.schemaOut ≤ x.schemaMax → d.fw.activating = none →
            ∃ e, Runs i s e ∧ Answered e ch 0 ∧ fwBank e (1 - old) = some x ∧ fwBank e old = some run ∧ act e = 1 ∧ fwState e = 2 ∧
              e.fw.sram = (sramWrite d ((1 - old) * 0x1C0000) (bs.take x.loadSize)).fw.sram) ∧
          (run.schemaOut < x.schemaMin ∨ x.schemaMax < run.schemaOut → ∃ e, Runs i s e ∧ Answered e ch 3 ∧ FirmwareKept d e)) ∧
        (verifyImage d bs = none → ∃ e, Runs i s e ∧ Answered e ch 10 ∧ FirmwareKept d e)) ∧
      (let usable := act d = 1 ∧ ∃ x, fwBank d (1 - old) = some x ∧ x.failed = false;
        (d.fw.activating.isSome = true → Replies (.activate ch) s ch 15) ∧
        (d.fw.activating = none → ¬usable → Replies (.activate ch) s ch 5) ∧
        (d.fw.activating = none → usable → majorClash d = false → ∃ e, Runs (.activate ch) s e ∧ act e = 2 ∧
          OnlyRegs { d with fw := { d.fw with activating := some ch, running := servingComp ch, mpu := e.fw.mpu } } e
            [(.mbxFwAct, 0)]) ∧
        (d.fw.activating = none → usable → majorClash d = true → ∃ e, Runs (.activate ch) s e ∧ Answered e ch 4 ∧ res e = 5 ∧
          FirmwareKept d e)) ∧
      (deferred d = true → d.fw.activating ≠ some ch → ∃ e, Runs (.cancel ch) s e ∧ Answered e ch 0 ∧ act e = 1 ∧ res e = 4 ∧
        e.fw = { d.fw with activating := none, running := servingComp ch, mpu := e.fw.mpu }) ∧
      (deferred d = false → Replies (.cancel ch) s ch 5)) ∧
    (deferred d = true → fwState d = 2 → actConditions d = 0 → majorClash d = false →
      ∃ e, Runs .activationProceed s e ∧ fwState e = 3 ∧ act e = 3 ∧ e.fw = { d.fw with frozenAt := d.time, sram := e.fw.sram } ∧
        e.mem = d.mem ∧ (∀ a, a < 0x380000 ∨ 0x388840 ≤ a → sramGet e a = sramGet d a)) ∧
    (deferred d = true → fwState d = 2 → actConditions d = 0 → majorClash d = true →
      ∃ e, Runs .activationProceed s e ∧ act e = 1 ∧ res e = 5 ∧ ended e 4) ∧
    (deferred d = false ∨ fwState d ≠ 2 ∨ actConditions d ≠ 0 → Runs .activationProceed s d) ∧
    (deferred d = true → ∃ e, Runs .activationExpired s e ∧ act e = 1 ∧ res e = 3 ∧ ended e 12) ∧
    (deferred d = false → Runs .activationExpired s d) ∧
    (fwState d = 3 → ∃ e, Runs .handoverResume s (advance e) ∧ fwState e = 2 ∧ act e = 4 ∧ runBank e = 1 - old ∧
      e.fw.running = 0 ∧ MemKept d e ∧ ∀ k, k < 6 → compState e k = 1) ∧
    (fwState d ≠ 3 → Runs .handoverResume s d) ∧
    (act d = 4 → ∃ e, Runs .handoverConfirm s e ∧ act e = 0 ∧ res e = 1 ∧ fwBank e (1 - old) = none ∧ runBank e = old ∧ ended e 0) ∧
    (act d ≠ 4 → Runs .handoverConfirm s d) ∧
    (handing d = true → let back := if act d = 4 then 1 - old else old;
      ∃ e, Runs .handoverTimeout s e ∧ fwState e = 4 ∧ act e = 0 ∧ res e = 2 ∧ runBank e = back ∧ e.fw.activating = none ∧
        fwBank e back = fwBank d back ∧ fwBank e (1 - back) = (fwBank d (1 - back)).map (fun x => { x with failed := true }) ∧
        ∀ k, k < 6 → compState e k = (if compState d k = 3 then 3 else 2)) ∧
    (handing d = false → Runs .handoverTimeout s d)

/-- A fault of a running compartment is recorded and restarts it, the third within an hour holds it, and a restarted
one serves again. -/
def Obligations.CompartmentsFaultAndRestart : Prop :=
  ∀ (s : State) (k cause : Nat), k < 6 → cause < 256 →
    let d := s.dev
    let faulted := fun (i : Instr) (cause : Nat) => ∃ e, Runs i s e ∧ fget e mbxCompStatusCause k = cause ∧
      fget e mbxCompStatusFaults k = min (fget d mbxCompStatusFaults k + 1) 65535 ∧
      fget e mbxCompStatusLastFault k = d.time / 1000 % 2 ^ 32 ∧
      compState e k = (if 2 ≤ (d.fw.faults.filter (fun f => decide (d.time < f.2 + 3600000000000) && f.1 == k)).length then 3 else 2) ∧
      MemKept d e ∧ e.eng.taken = d.eng.taken ∧ ∀ j, j < 6 → j ≠ k → regGet e .mbxCompStatus j = regGet d .mbxCompStatus j
    (handing d = false → compState d k = 1 →
      faulted (.compartmentFault k cause) cause ∧ faulted (.compartmentWatchdogExpiry k) 5) ∧
    (compState d k ≠ 1 → Runs (.compartmentFault k cause) s d ∧ Runs (.compartmentWatchdogExpiry k) s d) ∧
    (compState d k = 2 → ∃ e, Runs (.compartmentRestarted k) s (advance e) ∧ compState e k = 1 ∧ e.fw.running = k ∧ MemKept d e ∧
      (fwState d = 4 → (∀ j, j < 6 → j ≠ k → compState d j ≠ 2) → fwState e = 2) ∧
      (fwState d ≠ 4 → fwState e = fwState d) ∧ ∀ j, j < 6 → j ≠ k → compState e j = compState d j) ∧
    (compState d k ≠ 2 → Runs (.compartmentRestarted k) s d)

/-- Policy requests: denied by the configuration, refused out of bounds, else taken and answered; a requested profile
waits for the end of the epochs. -/
def Obligations.PolicyRequestsAreCheckedAndTaken : Prop :=
  ∀ (s : State) (ch : Nat), ch < 32 →
    let d := s.dev
    let takesFn := fun (fn : Nat) => holds d ch 0x10 = true ∧ compServes d (servingComp ch) = true ∧ reqFunction d ch = fn
    let done := fun (i : Instr) (e : Dev) => Runs i s e ∧ Answered e ch 0 ∧ MemKept d e ∧ e.eng.taken = d.eng.taken
    let checked := fun (i : Instr) (fn : Nat) (inBounds : Prop) =>
      (takesFn fn → permitted d fn = false → Replies i s ch 4) ∧
      (takesFn fn → permitted d fn = true → ¬inBounds → Replies i s ch 5)
    let ok := fun (fn : Nat) => takesFn fn ∧ permitted d fn = true
    let within := fun (w : Nat) (lo hi : Field) => fget d lo 0 ≤ w ∧ w ≤ fget d hi 0
    (∀ w, checked (.setCap ch w) 0x20 (1200 ≤ w ∧ w ≤ 3000) ∧
      (ok 0x20 → 1200 ≤ w → w ≤ 3000 → ∃ e r, Runs (.setCap ch w) s e ∧ Answered e ch r ∧ (r = 0 ∨ r = 9) ∧
        fget e pwrStatusCapReq 0 = w ∧ MemKept d e ∧
        (protecting d = false → fget d mbxFwStatusGovernor 0 = 0 → r = 0 ∧ fget e pwrStatusCapEff 0 = w))) ∧
    (∀ x, let fine := x = 0 ∨ (x = 1 ∧ fget d pwrCfgOpenAllowed 0 = 1); checked (.setProfile ch x) 0x21 fine ∧
      (ok 0x21 → fine → ∃ e, done (.setProfile ch x) e ∧
        (noEpoch d = true → fget e pwrStatusProfile 0 = x ∧ e.policy.profileReq = none) ∧
        (noEpoch d = false → fget e pwrStatusProfile 0 = fget d pwrStatusProfile 0 ∧ e.policy.profileReq = some x))) ∧
    (∀ c, let fine := c < 6 ∧ fget d pwrCfgPrioOverride 0 = 1; checked (.setPriority ch c) 0x22 fine ∧
      (ok 0x22 → fine → ∃ e, done (.setPriority ch c) e ∧ e.policy = { d.policy with prio := c } ∧
        e.steps.groups = d.steps.groups ∧ (earliestEpoch d = none → prioNow e = c) ∧
        (earliestEpoch d ≠ none → prioNow e = prioNow d))) ∧
    (∀ w0 w1 w2 w3,
      let fine := within w0 semPrioRangeMin0 semPrioRangeMax0 ∧ within w1 semPrioRangeMin1 semPrioRangeMax1 ∧
        within w2 semPrioRangeMin2 semPrioRangeMax2 ∧ within w3 semPrioRangeMin3 semPrioRangeMax3;
      checked (.setClassWeights ch w0 w1 w2 w3) 0x23 fine ∧
      (ok 0x23 → fine → ∃ e, done (.setClassWeights ch w0 w1 w2 w3) e ∧
        classWeights e = [w0, w1, w2, w3] ∧ e.policy = d.policy ∧ e.steps.groups = d.steps.groups)) ∧
    (∀ lo hi, let fine := fget d semSchedCfgDMin 0 ≤ lo ∧ lo ≤ hi ∧ hi ≤ fget d semSchedCfgDMax 0;
      checked (.setDepthRange ch lo hi) 0x24 fine ∧
      (ok 0x24 → fine → ∃ e, done (.setDepthRange ch lo hi) e ∧ e.policy.depth = some (lo, hi) ∧
        e.steps.groups = d.steps.groups)) ∧
    (checked (.getPolicy ch) 0x30 True ∧ (ok 0x30 → ∃ e vs, done (.getPolicy ch) e ∧ e.out.getLast? = some (.reply ch vs) ∧
      e.policy = d.policy ∧ vs.take 2 = [fget d pwrStatusCapReq 0, fget d pwrStatusCapEff 0])) ∧
    (∀ x, d.policy.profileReq = some x → x < 2 → noEpoch d = true →
      ∃ e, Runs .profileSwitch s e ∧ fget e pwrStatusProfile 0 = x ∧ e.policy = { d.policy with profileReq := none } ∧ e.mem = d.mem) ∧
    (d.policy.profileReq = none ∨ noEpoch d = false → Runs .profileSwitch s d)

/-- The secure services: no signature without keys, images and counters only forward, a challenge is used once, pinned
records are cleared up to a number. -/
def Obligations.SecureServicesKeepTheirRules : Prop :=
  ∀ (s : State) (ch : Nat), ch < 32 →
    let d := s.dev
    let p := fget d mbxMapInitiator ch
    let has := fun (svc fn : Nat) => holds d ch svc = true ∧ compServes d (servingComp ch) = true ∧ reqFunction d ch = fn
    let gate := 2 ≤ p ∨ fget d hpDrvVersionMajor p = fget d mbxFwVersionMajor 0
    let counter := fun (e : Dev) (k : Nat) => e.nv.counters.getD k 0
    (has 2 1 → gate → (canSign d = false → Replies (.quote ch) s ch 4) ∧
      (canSign d = true → ∃ e, Runs (.quote ch) s e ∧ Answered e ch 0 ∧ e.nv = d.nv ∧ e.mem = d.mem)) ∧
    (has 2 2 → gate → Replies (.getCert ch) s ch 0) ∧
    (has 3 1 → gate → (canSign d = false → Replies (.sign ch) s ch 4) ∧
      (canSign d = true → reqWord d ch 8 4 ≠ 64 → Replies (.sign ch) s ch 5) ∧
      (canSign d = true → reqWord d ch 8 4 = 64 → Replies (.sign ch) s ch 0)) ∧
    (∀ a n bs, has 3 2 → gate → hostImage d p a n = .ok bs →
      (configImage bs = none → Replies (.configStage ch a n) s ch 10) ∧
      (∀ c, configImage bs = some c →
        (stageable d c = false → Replies (.configStage ch a n) s ch 10) ∧
        (stageable d c = true → d.nv.banks.length = 2 → ∃ e, Runs (.configStage ch a n) s e ∧ Answered e ch 0 ∧
          bankImage e.nv (1 - fget d cfgImageStatusBank 0) = some c ∧
          bankImage e.nv (fget d cfgImageStatusBank 0) = bankImage d.nv (fget d cfgImageStatusBank 0) ∧
          (∀ l, liveConfig d = some l → l.seq < c.seq) ∧ counter d 1 ≤ c.seq ∧ e.nv.counters = d.nv.counters))) ∧
    ((keysOk d && d.nv.flashOk) = false → (has 3 3 → gate → Replies (.floorRaise ch) s ch 4) ∧
      (has 4 1 → Replies (.getChallenge ch) s ch 4)) ∧
    ((keysOk d && d.nv.flashOk) = true → d.nv.counters.length = 4 →
      (has 3 3 → gate → ∃ e, Runs (.floorRaise ch) s e ∧ Answered e ch 0 ∧
        counter e 0 = max (counter d 0) (fget d mbxFwVersionSecVersion 0) ∧ (∀ k, k ≠ 0 → counter e k = counter d k)) ∧
      (has 4 1 → ∃ e x, Runs (.getChallenge ch) s e ∧ Answered e ch 0 ∧ counter e 3 = counter d 3 + 1 ∧
        (∀ k, k ≠ 3 → counter e k = counter d k) ∧ e.fw.challenge = some (x, counter d 3 + 1))) ∧
    (has 4 2 → let level := unlockLevel d (reqBytes d ch 0 0xC0);
      (level = 0 → ∃ e, Runs (.unlock ch) s e ∧ Answered e ch 4 ∧ e.fw = { d.fw with challenge := none, running := servingComp ch, mpu := e.fw.mpu } ∧
        fget e cfgDebugLevel 0 = fget d cfgDebugLevel 0) ∧
      (level ≠ 0 → ∃ e, Runs (.unlock ch) s e ∧ Answered e ch 0 ∧ e.fw.challenge = none ∧ fget e cfgDebugLevel 0 = level ∧
        (level = 2 → e.fw.keysZeroed = true) ∧ (level ≠ 2 → e.fw.keysZeroed = d.fw.keysZeroed))) ∧
    (∀ q, holds d ch 0x11 = true → compServes d (servingComp ch) = true → ∃ e, Runs (.clearPinned ch q) s e ∧ Answered e ch 0 ∧
      (∀ r, r ∈ e.recs.nut ↔ r ∈ d.recs.nut ∧ ¬(r.slot < 4096 ∧ r.seq ≤ q)) ∧
      (∀ r, r ∈ e.nv.mirror ↔ r ∈ d.nv.mirror ∧ ¬(r.slot < 4096 ∧ r.seq ≤ q)))

/-- RESET_DIE, RESET_CORE, RESET_STACK, RESET_LINK and faults: denied beside an active port, refused for a retired or
hot unit, else the reset runs. -/
def Obligations.ResetsBeginUnderTheirRules : Prop :=
  ∀ (s : State),
    let d := s.dev
    let begins := fun (i : Instr) (kind unit : Nat) (ask : List Nat) =>
      (inReset d kind unit = false → ∃ e x, Runs i s (if kind = 3 then advance e else e) ∧ x ∈ e.resets ∧ x.kind = kind ∧
        x.unit = unit ∧ x.t0 = d.time ∧ x.asks = ask ∧
        (d.eng.taken = [] → MemKept d e ∧ { e.nv with seqStore := d.nv.seqStore } = d.nv ∧ e.shards = d.shards) ∧
        (∀ c ∈ ask, regGet e .mbxChStatus c = regGet d .mbxChStatus c) ∧
        (kind = 1 → unit < 64 → ∀ p ∈ bondPorts 1 unit, fget e lyrPortStatusState p =
          if fget d lyrPortStatusState p = 3 then 3 else 1) ∧
        (kind = 3 → fget e memStackStatusState unit = 1)) ∧
      (inReset d kind unit = true → ∃ e, Runs i s e ∧ e = { d with resets := e.resets, fw := e.fw } ∧ FirmwareKept d e ∧
        inReset e kind unit = true ∧ e.resets.length = d.resets.length ∧
        ∀ c ∈ ask, ∃ x ∈ e.resets, x.kind = kind ∧ x.unit = unit ∧ c ∈ x.asks)
    let checked := fun (ch : Nat) (i : Instr) (unitOk refused : Prop) =>
      (otherIdle d ch = false → Replies i s ch 4) ∧ (otherIdle d ch = true → ¬unitOk → Replies i s ch 5) ∧
      (otherIdle d ch = true → unitOk → refused → Replies i s ch 9)
    (∀ ch u, AsksReset d ch 0x41 → checked ch (.resetDie ch u) (u < 2) False ∧
      (otherIdle d ch = true → u < 2 → begins (.resetDie ch u) 2 u [ch])) ∧
    (∀ ch u, AsksReset d ch 0x42 → checked ch (.resetCore ch u) (u < 64) (coreRetired d u = true) ∧
      (otherIdle d ch = true → u < 64 → coreRetired d u = false →
        (inReset d 2 (u / 32) = false → begins (.resetCore ch u) 1 u [ch]) ∧
        (inReset d 2 (u / 32) = true → inReset d 1 u = false → ∃ e r, Runs (.resetCore ch u) s e ∧ Answered e ch r ∧
          e.resets = d.resets))) ∧
    (∀ ch u, let gone := stackTooHot d u = true ∨ u ∈ d.retired.stackSet
      AsksReset d ch 0x43 → checked ch (.resetStack ch u) (u < 8) gone ∧
      (otherIdle d ch = true → u < 8 → ¬gone → begins (.resetStack ch u) 3 u [ch])) ∧
    (∀ ch n, AsksReset d ch 0x44 → checked ch (.resetLink ch n) (n < 36) (n ∈ d.retired.links) ∧
      (otherIdle d ch = true → n < 36 → n ∉ d.retired.links → fget d blLinkStatusState n ≠ 3 →
        ∃ e, Runs (.resetLink ch n) s e ∧ Answered e ch 0 ∧ fget e blLinkStatusState n = 1 ∧ MemKept d e ∧
          e.eng.taken = d.eng.taken)) ∧
    (∀ u, mainPower d = true → u < 8 → begins (.updateUnitFault u) 2 (u / 4) []) ∧
    (∀ u, mainPower d = true → u < 8 →
      (stackTooHot d u = false → u ∉ d.retired.stackSet → begins (.stackBaseFault u) 3 u []) ∧
      (stackTooHot d u = true ∨ u ∈ d.retired.stackSet → Runs (.stackBaseFault u) s d)) ∧
    (∀ kind u rows lost, let i := Instr.quiesceForcedIdle kind u rows lost
      (kind = 1 ∨ kind = 2 → inReset d kind u = true → u < 64 → ∃ e, Runs i s e ∧ (d.eng.taken = [] → e.mem = d.mem) ∧
        inReset e kind u = true ∧
        fget e lyrQuiesceForced (if kind = 1 then u / 32 else u) = 1 ∧
        fget e lyrQuiesceLostRows (if kind = 1 then u / 32 else u) = rows % 65536 ∧
        (kind = 1 → ∀ p ∈ bondPorts 1 u, fget e lyrPortStatusState p = if fget d lyrPortStatusState p = 3 then 3 else 2)) ∧
      (inReset d kind u = false ∨ (kind ≠ 1 ∧ kind ≠ 2) → Runs i s d))

/-- CORE_RESET_RELEASE, DIE_RESET_RELEASE, STACK_BASE_RESET_DONE end a reset and answer for it; RESET_PACKAGE starts
the device again with what it keeps. -/
def Obligations.ResetsEndAndStartAgain : Prop :=
  ∀ (s : State),
    let d := s.dev
    let ends := fun (i : Instr) (kind u : Nat) =>
      (inReset d kind u = false → Runs i s d) ∧
      (∀ x, d.resets.find? (fun r => r.kind == kind && r.unit == u) = some x → x.stopped = [] → d.fab.waitReqs = [] →
        ∃ e, Runs i s (afterReset kind u x.t0 e) ∧ inReset e kind u = false ∧ (∀ c ∈ x.asks, c < 32 → Answered e c 0) ∧
          MemKept d e ∧ { e.nv with seqStore := d.nv.seqStore } = d.nv ∧
          (kind = 1 → (∀ r k, k < 2 ^ 20 → inCore u r k = true → r ≠ .arrStatus → regGet e r k = regReset r k) ∧
            (∀ q, e.sideValid.contains q = (d.sideValid.contains q && decide (q / 1024 ≠ u))) ∧
            ∀ p ∈ bondPorts 1 u, fget e lyrPortStatusState p = if fget d lyrPortStatusState p = 3 then 3 else 0) ∧
          (kind = 2 → (∀ q ∈ e.sideValid, q ∈ d.sideValid ∧ q / 1024 / 32 ≠ u) ∧
            fget e safSpillGenGen u = if fget d safSpillGenGen u + 1 = 2 ^ 32 then 1 else fget d safSpillGenGen u + 1) ∧
          (kind = 3 → fget e memStackStatusState u = 0))
    let limits := fun (dram : Bool) (i : Waiter → Instr) =>
      (∀ r q c, findCmd d r q = some c →
        (∀ a, waitAddr d c = some a → Runs (i (.command r q)) s
          (if isDram (localAddr d a) = dram then advance (finishWith d c .stoppedByReset) else d)) ∧
        (waitAddr d c = none →
          (∀ x, waitXfer d c = some x → Runs (i (.command r q)) s (if isDram (localAddr d x.dst) = dram then
            advance (finishWith { d with fennel := d.fennel.erase x } c .stoppedByReset) else d)) ∧
          (waitXfer d c = none → Runs (i (.command r q)) s d))) ∧
      (∀ r q, findCmd d r q = none → Runs (i (.command r q)) s d) ∧
      (∀ k src p a, let e := { d with fab := { d.fab with waitReqs := d.fab.waitReqs.eraseIdx k } }
        d.fab.waitReqs[k]? = some (src, p) → reqAddr d p = some a → isDram (localAddr d a) = dram →
        ((∀ c, p ≠ .collData c) → Runs (i (.request k)) s (sendQuiet e src (.errResp (tagOf p) Status.stoppedByReset.code))) ∧
        (∀ c r, p = .collData c → leafRun d c = some r →
          Runs (i (.request k)) s (advance (endRun e r Status.stoppedByReset.code 0)))) ∧
      (∀ k, (∀ q ∈ d.fab.waitReqs[k]?, ∀ a ∈ reqAddr d q.2, isDram (localAddr d a) ≠ dram) → Runs (i (.request k)) s d)
    let restarts := fun (i : Instr) (cause : Nat) => ∃ e, Runs i s e ∧ fget e aniResetCauseCause 0 = cause ∧ e.time = d.time ∧
      fget e cfgBootStatusWarm 0 = 1 ∧ fget e cfgBootStatusStep 0 = 6 ∧ fwState e = 0 ∧ e.eng.taken = [] ∧ e.eng.owner = [] ∧
      (∀ g, groupPhase e g = .idle) ∧ e.resets = [] ∧ e.shards = [] ∧ e.pwr.state = .running ∧
      ((∀ x ∈ d.env.defects, x.1 ≠ 1) → e.nv.registry = d.nv.registry ∧ ∀ a, logFree e a = true →
        smapGet e.mem a memUnlisted = if inSpill d a 1 then memUnlisted else smapGet d.mem a memUnlisted)
    (∀ c, c < 64 → ends (.coreResetRelease c) 1 c) ∧
    (∀ die, die < 2 → ends (.dieResetRelease die) 2 die) ∧
    (∀ st, st < 8 → ends (.stackBaseResetDone st) 3 st) ∧
    limits false .lyrHoldLimit ∧ limits true .memHoldLimit ∧
    (mainPower d = true → restarts .pkgResetPin 3 ∧ restarts .bmPackageReset 4 ∧
      ∀ ch, AsksReset d ch 0x40 → otherIdle d ch = true → restarts (.resetPackage ch) 5) ∧
    (mainPower d = false → Runs .pkgResetPin s d ∧ Runs .bmPackageReset s d) ∧
    (∀ ch, AsksReset d ch 0x40 → otherIdle d ch = false → Replies (.resetPackage ch) s ch 4)

/-- POWER_APPLY, INPUT_REMOVED, MAIN_POWER_STABLE, shutdowns and restarts keep the NVM, sleep keeps the DRAM, and each
happens only from its state. -/
def Obligations.PowerComesAndGoes : Prop :=
  ∀ (s : State),
    let d := s.dev
    let starts := fun (i : Instr) (cause : Nat) => ∃ e, Runs i s e ∧ e.pwr.state = .running ∧
      (d.env.defects = [] → e.nv.registry = d.nv.registry ∧ ∀ a, logFree e a = true →
        smapGet e.mem a memUnlisted = smapGet (hostMem d) a memUnlisted) ∧ e.time = d.time ∧ e.eng.taken = [] ∧ e.shards = [] ∧ (∀ g, groupPhase e g = .idle) ∧ fwState e = 0 ∧
      fget e cfgBootStatusStep 0 = 6 ∧ fget e cfgBootStatusWarm 0 = 0 ∧ fget e aniResetCauseCause 0 = cause ∧
      (∀ p, p < 2 → fget e hpPortStateState p = if (portRun d p).perst then 0 else 4)
    let from_ := fun (i : Instr) (cause : Nat) (ok : Prop) => (ok → starts i cause) ∧ (¬ok → Runs i s d)
    let last := fget d thmShutdownCause 0
    let bare := fun (e : Dev) => e.regs = [] ∧ e.mem = hostMem d ∧ e.nv = (saveHours d).nv ∧ e.time = 0 ∧ e.eng.taken = []
    (d.pwr.state = .unpowered → ∃ e, Runs .powerApply s e ∧ bare e ∧ e.pwr.state = .standby) ∧
    (d.pwr.state ≠ .unpowered → Runs .powerApply s d) ∧
    (∃ e, Runs .inputRemoved s e ∧ bare e ∧ e.pwr.state = .unpowered) ∧
    from_ .mainPowerStable 0 (d.pwr.state = .standby ∧ last = 0) ∧
    from_ .inputRestart 2 (d.pwr.state = .standby ∧ (last = 4 ∨ last = 5)) ∧
    from_ .thermalRestart 1 (d.pwr.state = .standby ∧ 1 ≤ last ∧ last ≤ 3 ∧ coolEnough d = true ∧
      (fget d thmShutdownHold 0 = 0 ∨ d.pwr.restartAsked = true)) ∧
    (mainPower d = true → (∃ e, Runs .undervoltageShutdown s e ∧ ShutDown d e 4 0) ∧
      ∃ e, Runs .overvoltageShutdown s e ∧ ShutDown d e 5 0) ∧
    (mainPower d = false → Runs .undervoltageShutdown s d ∧ Runs .overvoltageShutdown s d) ∧
    (mainPower d = true → idle d = true → ∃ e, Runs .sleepEntry s e ∧ e.pwr.state = .asleep ∧ e.nv = d.nv ∧ e.sideValid = [] ∧
      (∀ a, (match regionOf (localAddr d a) with | .scratch _ _ => False | .side _ _ => False | _ => True) → memGet e a = memGet d a) ∧
      (∀ ch, ch < 32 → fget e mbxChStatusAwake ch = 0) ∧
      ∀ n, n < 36 → fget e blLinkStatusState n = if fget d blLinkStatusState n = 3 then 3 else 0) ∧
    (¬(mainPower d = true ∧ idle d = true) → Runs .sleepEntry s d) ∧
    (∀ p, ∃ e, Runs (.linkActivityWake p) s e ∧ e = { d with ports := e.ports } ∧
      ∀ k, e.ports[k]? = if k = p then (d.ports[p]?).map (fun x => { x with l0 := true }) else d.ports[k]?)

/-- Input samples and undervoltage, the two cap loops, steps, stack windows and droops: what each measures, limits and
counts. -/
def Obligations.InputCapsAndDroopsAct : Prop :=
  ∀ (s : State),
    let d := s.dev
    let onlyOn := fun (i : Instr) => mainPower d = false → Runs i s d
    (∀ mv ma loss, onlyOn (.inputSample mv ma loss) ∧ (mainPower d = true → ∃ e r, Runs (.inputSample mv ma loss) s e ∧
      r < 1000 ∧ OnlyRegs { d with pwr := { d.pwr with energyRest := r } } e [(.pwrInput, 0), (.pwrEnergy, 0)] ∧
      fget e pwrInputMv 0 = mv % 2 ^ 16 ∧ fget e pwrInputMa10 0 = ma % 2 ^ 16 ∧ fget e pwrInputLossW 0 = loss % 2 ^ 16 ∧
      fget e pwrInputPowerW 0 = mv * ma / 100000 % 2 ^ 16 ∧
      ∃ k, fget e pwrEnergyUj 0 = (fget d pwrEnergyUj 0 + k) % 2 ^ 64 ∧ k * 1000 + r = d.pwr.energyRest + mv * ma / 100)) ∧
    (onlyOn .inputUndervoltage ∧ onlyOn .undervoltageClear ∧ (mainPower d = true →
      (fget d pwrStatusUv 0 = 1 → Runs .inputUndervoltage s d) ∧
      (fget d pwrStatusUv 0 = 0 → ∃ e, Runs .inputUndervoltage s e ∧ fget e pwrStatusUv 0 = 1 ∧ MemKept d e ∧
        ∀ x, x < 2 → ShowsRate e x ∧ bit (fget e pwrDieSrc x) 2 = true) ∧
      ∃ e, Runs .undervoltageClear s e ∧ fget e pwrStatusUv 0 = 0 ∧ e = { d with regs := e.regs } ∧ ∀ x, x < 2 → ShowsRate e x)) ∧
    (∀ x used model, let i := Instr.hwCapLoop x used model;
      onlyOn i ∧ (2 ≤ x → Runs i s d) ∧ (mainPower d = true → x < 2 → ∀ p, d.pwr.dies[x]? = some p → ∃ e q, Runs i s e ∧
        e = { d with regs := e.regs, pwr := { d.pwr with dies := e.pwr.dies } } ∧
        (∀ k, e.pwr.dies[k]? = if k = x then some q else d.pwr.dies[k]?) ∧ (∀ y, y < 2 → ShowsRate e y) ∧
        let whole := fget d pwrStatusCapEff 0
        let second := fget d pwrInputMv 0 * 70 / 1000
        let amps := second < whole ∧ 0 < second
        let cap := if amps then second else whole
        let power := if amps ∨ fget d pwrStatusProfile 0 = 1 ∨ whole * 105 < used * 100 then used else model
        let m := fget d pwrCfgMarginW 0
        let up := cap < power + m
        let down := (power + m) * 100 + cap * 2 < cap * 100
        (up → p.loopS < 8 → q.loopS = p.loopS + 1 ∧ q.loopD = p.loopD) ∧
        (up → 8 ≤ p.loopS → p.loopD < 4 → q.loopS = 0 ∧ q.loopD = 2 * p.loopD) ∧
        (down → 0 < p.loopS → q.loopS = p.loopS - 1 ∧ q.loopD = p.loopD) ∧
        (down → p.loopS = 0 → 1 < p.loopD → q.loopS = 8 ∧ q.loopD = p.loopD / 2) ∧
        (¬up ∧ ¬down ∨ up ∧ 8 ≤ p.loopS ∧ 4 ≤ p.loopD ∨ down ∧ p.loopS = 0 ∧ p.loopD ≤ 1 →
          q.loopS = p.loopS ∧ q.loopD = p.loopD))) ∧
    (∀ loss other dl dm dc fc n1 n2, let i := Instr.fwCapLoop loss other dl dm dc fc n1 n2;
      (mainPower d = false ∨ compServes d 0 = false → Runs i s d) ∧
      (mainPower d = true → compServes d 0 = true → fc < 2 ^ 16 →
        let fl := 9 * ((List.range 36).filter (fun n => fget d blLinkStatusState n != 3)).length / 2
        let fm := 10 * (8 - d.retired.stackSet.length)
        let taken := fget d pwrCfgMarginW 0 + loss + other
        ∃ e, Runs i s e ∧ MemKept d e ∧ fget e pwrShareOtherW 0 = other % 2 ^ 16 ∧
          (fget e pwrStatusFloors 0 = 1 ↔ fget d pwrStatusCapEff 0 < taken + (fl + fm + fc)) ∧
          fl ≤ fget e pwrShareLinksW 0 ∧ fm ≤ fget e pwrShareMemW 0 ∧ fc ≤ fget e pwrShareComputeW 0 ∧
          (taken + (fl + fm + fc) ≤ fget d pwrStatusCapEff 0 →
            taken + (fget e pwrShareLinksW 0 + fget e pwrShareMemW 0 + fget e pwrShareComputeW 0) = fget d pwrStatusCapEff 0) ∧
          ∀ x, x < 2 → fget e pwrStepStep x ≤ fget d pwrStepStep x)) ∧
    (∀ x, onlyOn (.stepChangeDone x) ∧ (mainPower d = true → x < 2 → ∃ e, Runs (.stepChangeDone x) s e ∧
      OnlyRegs d e ((.pwrStep, x) :: (List.range 16).map (fun r => (.ageRegion, x * 16 + r))) ∧
      fget e pwrStepStep x = (diePower d x).target % 32 ∧
      ∀ r m, r < 16 → d.nv.margins[x * 16 + r]? = some m → fget e ageRegionGen (x * 16 + r) = m.gen % 2 ^ 32 ∧
        fget e ageRegionV15Uv (x * 16 + r) = m.margins.getD 15 (nominalV 15) % 2 ^ 16)) ∧
    (∀ k a r w b, let i := Instr.stackPowerWindow k a r w b;
      onlyOn i ∧ (mainPower d = true → k < 8 → ∃ e, Runs i s e ∧
        OnlyRegs { d with pwr := { d.pwr with windows := e.pwr.windows } } e [(.memStackStatus, k)] ∧
        fget e memStackStatusPowerMw k = min 65535 (stackIdle (fget d memStackStatusTemp k) +
          (a * fget d memPwrCfgEAct 0 + r * fget d memPwrCfgERd 0 + w * fget d memPwrCfgEWr 0) / 1000))) ∧
    (∀ c, onlyOn (.droopDetect c) ∧ (mainPower d = true → c < 64 → ∀ p, d.pwr.dies[c / 32]? = some p →
      let held := (p.droops.filter (fun t => decide (d.time < t + 1000000))).length + 1
      ∃ e, Runs (.droopDetect c) s e ∧ MemKept d e ∧
        fget e pwrDieDroops (c / 32) = min (fget d pwrDieDroops (c / 32) + 1) (2 ^ 32 - 1) ∧
        fget e pwrDieStorm (c / 32) = if fget d pwrDroopCfgStorm 0 < held then 1 else fget d pwrDieStorm (c / 32))) ∧
    (∀ x, x < 2 → ∀ p, d.pwr.dies[x]? = some p →
      let ends := fget d pwrDieStorm x = 1 ∧
        (p.droops.filter (fun t => decide (d.time ≤ t + 1000000 ∧ t < d.time))).length ≤ fget d pwrDroopCfgStorm 0 / 4
      (ends → ∃ e, Runs (.droopStormEnd x) s e ∧ fget e pwrDieStorm x = 0 ∧ e.mem = d.mem) ∧
      (¬ends → Runs (.droopStormEnd x) s d))

/-- A shutdown threshold removes power, a throttle threshold divides the clock, levels clear 5 °C below; layer
estimates and re-plans follow their rules. -/
def Obligations.HeatAndAgeingAct : Prop :=
  ∀ (s : State), mainPower s.dev = true →
    let d := s.dev
    let leveled := fun (x loc : Nat) (i : Instr) (r : Dev) (sensor : Nat) =>
      let v := fwTemp r x loc
      let h := max (hwTemp r x loc) v
      (shutdownAt loc ≤ hwTemp r x loc → ∃ e, Runs i s e ∧ ShutDown d e (loc + 1) sensor) ∧
      (hwTemp r x loc < shutdownAt loc → ∃ e, Runs i s e ∧ MemKept d e ∧
        (∀ y k, y < 2 → k < 3 → (y, k) ≠ (x, loc) → level e y k = level d y k) ∧
        (level e x loc ≠ level d x loc → ∀ y, y < 2 → ShowsRate e y) ∧
        (level d x loc < 2 → throttleAt d loc ≤ h → level e x loc = 2) ∧
        (level d x loc < 2 → h < throttleAt d loc → warnAt d loc ≤ v → level e x loc = 1) ∧
        (level d x loc < 2 → h < throttleAt d loc → v ≤ warnAt d loc - 80 → level e x loc = 0) ∧
        (level d x loc < 2 → h < throttleAt d loc → warnAt d loc - 80 < v → v < warnAt d loc → level e x loc = level d x loc) ∧
        (2 ≤ level d x loc → level e x loc = if level d x loc = 3 ∧ h ≤ throttleAt d loc - 80 then 2 else level d x loc))
    (∀ (v : BitVec 16), (∀ i, i < 160 → leveled (i / 80) 0 (.thermalSample 0 i v) (reading d 0 i v.toNat) i) ∧
      (∀ i, i < 160 → leveled (i / 80) 1 (.thermalSample 1 i v) (reading d 1 i v.toNat) i) ∧
      (∀ i, i < 8 → (inReset d 3 i = false → leveled (i / 4) 2 (.thermalSample 2 i v) (reading d 2 i v.toNat) i) ∧
        (inReset d 3 i = true → Runs (.thermalSample 2 i v) s d))) ∧
    (∀ x p, x < 2 → d.pwr.dies[x]? = some p →
      let rises := warned d x = true ∧ tempOf p.warnRef < max (fwTemp d x 0) (max (fwTemp d x 1) (fwTemp d x 2))
      ∃ e, Runs (.warningStepDown x) s e ∧ e.mem = d.mem ∧
        fget e pwrStepStep x = if rises then fget d pwrStepStep x - 1 else fget d pwrStepStep x) ∧
    (∀ x loc, x < 2 → loc < 3 →
      let h := max (hwTemp d x loc) (fwTemp d x loc)
      (level d x loc = 2 → throttleAt d loc ≤ h → ∃ e, Runs (.throttleEscalate x loc) s e ∧ level e x loc = 3 ∧
        e.mem = d.mem ∧ ∀ y, y < 2 → ShowsRate e y) ∧
      (¬(level d x loc = 2 ∧ throttleAt d loc ≤ h) → Runs (.throttleEscalate x loc) s d) ∧
      (2 ≤ level d x loc → h ≤ throttleAt d loc - 80 → ∃ e, Runs (.throttleRelease x loc) s e ∧ e.mem = d.mem ∧
        level e x loc = (if fwTemp d x loc ≤ warnAt d loc - 80 then 0 else 1) ∧ ∀ y, y < 2 → ShowsRate e y) ∧
      (¬(2 ≤ level d x loc ∧ h ≤ throttleAt d loc - 80) → Runs (.throttleRelease x loc) s d)) ∧
    (∀ x, x < 160 → x % 80 < 64 →
      (fget d lyrThmCanaryFault x = 0 → (∀ n, ∃ e, Runs (.canaryUpdate x n true) s e ∧ fget e lyrThmCanaryFault x = 1 ∧ MemKept d e ∧
          (d.nv.registry.length < 32766 → e.nv.registry.length = d.nv.registry.length + 1)) ∧
        ∀ n, ∃ e, Runs (.canaryUpdate x n false) s e ∧ OnlyRegs d e [(.lyrThm, x)] ∧
          let t := if 512 < n then tempOf (fget d lyrThmCanary x) + 8 else tempOf (fget d lyrThmCanary x) - 8
          tempOf (fget e lyrThmCanary x) = min (max t 1120) 2080 ∧ fget e lyrThmGov x = fget d lyrThmGov x ∧
          (fget e lyrThmCanaryFloor x = 1 ↔ t ≤ 1120)) ∧
      (fget d lyrThmCanaryFault x = 1 → ∀ n b, Runs (.canaryUpdate x n b) s d) ∧
      (∀ n, let above := tempOf (if x % 80 / 16 = 3 then fget d lyrThmDiode (x + 16) else fget d lyrThmGov (x + 16))
        ∃ e, Runs (.layerModelUpdate x n) s e ∧
        OnlyRegs { d with pwr := { d.pwr with layerTemps := e.pwr.layerTemps } } e [(.lyrThm, x)] ∧
        fget e lyrThmGov x = fget d lyrThmGov x ∧
        fget e lyrThmDiode x = fget d lyrThmDiode x ∧ fget e lyrThmCanary x = fget d lyrThmCanary x ∧
        fget e lyrThmModel x = tempCode (modelTemp e x / 2 ^ 16) ∧
        (16 ≤ x % 80 → modelTemp e x = modelTemp d x +
          (steadyTemp (x % 80 / 16) (tempOf (fget d lyrThmGov (x - 16))) above (modelTemp d x) n - modelTemp d x)
            * Config.layerStep (x % 80 / 16) / 2 ^ 32)) ∧
      (let limit : Int := 16 * (fget d lyrCfgDisagree 0 : Int)
       let diode := tempOf (fget d lyrThmDiode x)
       hwTemp d (x / 80) 1 < shutdownAt 1 → ∃ e, Runs (.layerGovernUpdate x) s e ∧ MemKept d e ∧
         ((fget d lyrThmRetired x = 0 ∧ ∀ a ∈ estimates d x, ∀ b ∈ estimates d x, a.2 - b.2 ≤ limit) →
           tempOf (fget e lyrThmGov x) = diode ∧ fget e lyrThmGovSrc x = 0) ∧
         (¬(fget d lyrThmRetired x = 0 ∧ ∀ a ∈ estimates d x, ∀ b ∈ estimates d x, a.2 - b.2 ≤ limit) →
           (fget e lyrThmGovSrc x, tempOf (fget e lyrThmGov x)) ∈ estimates d x ∧
           ∀ a ∈ estimates d x, a.2 ≤ tempOf (fget e lyrThmGov x)))) ∧
    (∀ x, x < 160 →
      let clear := ∀ p, findEpisode d x = some p → p.lastAt + 10000000000 < d.time
      let old := (((findEpisode d x).map (·.flags)).getD []).filter (fun t => decide (d.time < t + day))
      (fget d lyrThmSuspect x = 1 → ∃ e, Runs (.suspectFlagTick x) s e ∧ MemKept d e ∧
        fget e lyrThmFlags x = min (old.length + 1) 255 ∧
        (2 ≤ old.length → fget e lyrThmRetired x = 1) ∧ (old.length < 2 → fget e lyrThmRetired x = fget d lyrThmRetired x)) ∧
      (fget d lyrThmSuspect x = 0 → Runs (.suspectFlagTick x) s d ∧ Runs (.suspectEpisodeClose x) s d) ∧
      (fget d lyrThmSuspect x = 1 → clear → ∃ e, Runs (.suspectEpisodeClose x) s e ∧
        OnlyRegs d e [(.lyrThm, x)] ∧ fget e lyrThmSuspect x = 0) ∧
      (¬clear → Runs (.suspectEpisodeClose x) s d)) ∧
    (∀ x core m, d.nv.margins[x]? = some m → x < 32 →
      let old := fun (k : Nat) => m.margins.getD k (nominalV k)
      ∃ e n, Runs (.marginReplan x core) s e ∧ MemKept d e ∧ e.nv.margins[x]? = some n ∧ n.gen = m.gen + 1 ∧ n.hours = 0 ∧
        n.since = d.time ∧ (∀ k, k < 19 → old k - 50 ≤ n.margins.getD k 0) ∧ fget e ageRegionHours x = 0 ∧
        fget e ageRegionGen x = fget d ageRegionGen x ∧
        (8550 < old 16 → fget e pwrStepMaxOpen (x / 16) ≤ 15) ∧
        (8550 < old 15 → core / 2 = x → core < 64 → coreRetired e core = true))

/-- DRAM_PATROL_SCRUB, LAYER_SCRUB, calibrations, AGEING_PROBE, TELEMETRY_SAMPLE, NUTMEG_MIRROR and REGISTRY_COMPACT
do their work and show it. -/
def Obligations.BackgroundWorkRuns : Prop :=
  ∀ (s : State), s.dev.pwr.state = .running →
    let d := s.dev
    let shows := fun (e : Dev) (a : Nat) =>
      fget e cfgBgStatusLastDone a = d.time % 2 ^ 64 ∧ fget e cfgBgStatusInSlice a = 0 ∧ fget e cfgBgStatusLagMs a = 0
    let event := fun (i : Instr) (a : Nat) (ok : Prop) =>
      (ok → ∃ e, Runs i s e ∧ OnlyRegs d e [(.cfgBgStatus, a)] ∧ shows e a) ∧ (¬ok → Runs i s d)
    let scrubs := fun (i : Instr) (a : Nat) (blocked : Bool) (mine : Nat → Prop) =>
      (blocked = true → Runs i s d) ∧ (blocked = false → ∃ e, Runs i s e ∧ SameButLogs d e 0 0 ∧ shows e a ∧
        (∀ x, mine (localAddr d x) → backed d x = true → correctableAt d x = true → markOf e x = 0) ∧
        ∀ x, logFree d (localAddr d x) = true → uncorrectableAt d x = true → markOf e x = markOf d x)
    scrubs .dramPatrolScrub 0 (d.resets.any (fun r => r.kind == 3)) (fun a => regionOf a = .dram) ∧
    scrubs .layerScrub 1 (d.resets.any (fun r => r.kind == 1 || r.kind == 2)) (fun a => ∃ die k off, regionOf a = .layer die k off) ∧
    (∀ n l, event (.linkPhyRecal n l) 3 (n < 36 ∧ l < 4 ∧ bit (fget d blLinkStatusLanes n) l = true ∧ linkUsable d n = true)) ∧
    (∀ c, event (.memIfCal c) 4 (c < 528 ∧ inReset d 3 (c / 66) = false)) ∧
    (∀ x loc, event (.sensorCal x loc) 5 (x < 2 ∧ loc < 3 ∧ level d x loc = 0)) ∧
    (∀ i index vmin, i < 32 → ∃ e, Runs (.ageingProbe i index vmin) s e ∧
      OnlyRegs d e [(.ageRegion, i), (.cfgBgStatus, 6)] ∧ shows e 6 ∧
      fget e ageRegionIndexPpm i = index % 2 ^ 32 ∧ fget e ageRegionVmin15Uv i = vmin % 2 ^ 16 ∧
      fget e ageRegionGen i = fget d ageRegionGen i) ∧
    (compServes d 4 = false → Runs .telemetrySample s d ∧ Runs .nutmegMirror s d) ∧
    (compServes d 4 = true → (∃ e, Runs .nutmegMirror s e ∧
        e = { d with nv := { d.nv with mirror := d.recs.nut.filter (fun r => decide (r.slot < 4096)) } }) ∧
      ∃ e, Runs .telemetrySample s e ∧ shows e 7 ∧
        OnlyRegs { d with
          recs := { d.recs with tel := e.recs.tel }, mem := e.mem, marks := e.marks } e
          [(.nutTelStatus, 0), (.cfgBgStatus, 7)] ∧ MemKept d e ∧
        fget e nutTelStatusNextSeq 0 = (fget d nutTelStatusNextSeq 0 + 32) % 2 ^ 64 ∧
        (26 ≤ fget d nutTelCfgSizeLog2 0 → 32 ≤ e.recs.tel.length ∧ ∀ x ∈ e.recs.tel.reverse.take 32, x.stamp = d.time)) ∧
    (∀ a, (a < 9 → fget d cfgBgStatusInSlice a = 0 → ∃ e, Runs (.bgDeferralReached a) s e ∧ OnlyRegs d e [(.cfgBgStatus, a)] ∧
        fget e cfgBgStatusInSlice a = 1 ∧ fget e cfgBgStatusForced a = min (fget d cfgBgStatusForced a + 1) (2 ^ 32 - 1) ∧
        fget e cfgBgStatusLastDone a = fget d cfgBgStatusLastDone a) ∧
      (9 ≤ a ∨ fget d cfgBgStatusInSlice a = 1 → Runs (.bgDeferralReached a) s d)) ∧
    (d.nv.registry.length < 28672 → Runs .registryCompact s d) ∧
    (28672 ≤ d.nv.registry.length → ∃ e, Runs .registryCompact s e ∧ OnlyRegs { d with nv := e.nv } e [(.cfgRegistryStatus, 0)] ∧
      e.nv = { d.nv with registry := e.nv.registry, regGen := d.nv.regGen + 1, regBank := 1 - d.nv.regBank } ∧
      e.nv.registry.Sublist d.nv.registry ∧ (∀ x ∈ e.nv.registry, x.torn = false) ∧
      ∀ (i : Nat) (x : RegEntry), d.nv.registry[i]? = some x → x.torn = false →
        (∀ (j : Nat) (y : RegEntry), i < j → d.nv.registry[j]? = some y → mootBy x y = false) → x ∈ e.nv.registry)

/-- Lanes and rows take spares until none is left, pseudo-channels are copied or moved, and a retired unit is shown,
entered and never in use again. -/
def Obligations.RepairsAndRetirementsTakeEffect : Prop :=
  ∀ (s : State), mainPower s.dev = true →
    let d := s.dev
    let portGone := fun (e : Dev) (p : Nat) => fget e lyrPortStatusState p = 3 ∧ MemKept d e ∧
      (p % 192 < 128 → arrayRetired e (p / 192 * 128 + p % 192) = true) ∧
      (128 ≤ p % 192 → coreRetired e (p / 192 * 32 + (p % 192 - 128) / 2) = true)
    let zeroed := fun (e : Dev) (p : Nat → Prop) => ∀ x, logFree d (localAddr d x) = true →
      (regionOf (localAddr d x) = .dram ∧ p (localAddr d x) → memGet e x = 0) ∧
      (¬(regionOf (localAddr d x) = .dram ∧ p (localAddr d x)) → memGet e x = memGet d x)
    let pcBegins := fun (i : Instr) (c cause stamp : Nat) =>
      (∀ x, freeSpare d (c / 66) = some x → ∃ e, Runs i s e ∧
        ((∀ m ∈ d.moves, m.pc / 66 ≠ c / 66) → fget e memStackStatusMoving (c / 66) = 1) ∧
        OnlyRegs { d with moves := d.moves ++ [⟨c, some x, 0, cause, stamp⟩] } e [(.memStackStatus, c / 66)]) ∧
      (freeSpare d (c / 66) = none → ∃ e, let k := min 512 (fget d memCapacityRetired 0 + 1)
        Runs i s e ∧ e.moves = d.moves ++ [⟨c, none, k, cause, stamp⟩] ∧ fget e memCapacityRetired 0 = k ∧
        e.retired = d.retired ∧ zeroed e (fun a => dramBytes e ≤ a))
    let keys := fun (c : Nat) =>
      let reached := fun (key thr : Nat) => thresholdMet d key thr day && (sparedAt d c).all (fun t => decide (t < errStamp d [key]))
      [(errKey 0 (backedPc d c), fget d memPcCfgCorrThr 0), (errKey 1 (backedPc d c), fget d memPcCfgUncThr 0)].filter
        (fun x => reached x.1 x.2)
    let retires := fun (i : Instr) (c : Nat) =>
      (pcLive d c = true → keys c ≠ [] → pcBegins i c 1 (errStamp d ((keys c).map (·.1)))) ∧
      (pcLive d c = false ∨ keys c = [] → Runs i s d)
    (∀ p g b, let i := Instr.bondLaneRepair p g b;
      let ok := p < 384 ∧ g < 64 ∧ b < 72 ∧ fget d lyrPortStatusState p ≠ 3 ∧
        thresholdMet d (errKey 9 (laneId p g b)) (fget d lyrLaneCfgLaneThr 0) (fget d lyrLaneCfgLaneWin 0 * 100000000) = true
      (ok → bit (fget d lyrPortRepairMap p) (8 * g + 7) = true → ∃ e, Runs i s e ∧ portGone e p) ∧
      (ok → bits (fget d lyrPortRepairMap p) (8 * g + 7) (8 * g) = 0 → ∃ e, Runs i s e ∧ MemKept d e ∧ e.retired = d.retired ∧
        bits (fget e lyrPortRepairMap p) (8 * g + 7) (8 * g) = 128 + b ∧ fget e lyrPortStatusState p = fget d lyrPortStatusState p ∧
        fget e lyrPortStatusSparesUsed p = (fget d lyrPortStatusSparesUsed p + 1) % 128 ∧
        (d.nv.registry.length < 32766 → e.nv.registry.length = d.nv.registry.length + 1)) ∧
      (¬ok → Runs i s d)) ∧
    (∀ die k row, let i := Instr.bondRowReplace die k row;
      let off := row * 512
      let a := layerBase die k + off
      let ok := die < 2 ∧ 1 ≤ k ∧ k ≤ 4 ∧ row < 2 ^ 22 ∧ backed d a = true ∧
        thresholdMet d (errKey 6 (layerRow die k off)) (fget d lyrRowCfgRowThr 0) day = true
      let used := fget d (segField k off) (layerCore die k off)
      (ok → used < 64 → ∃ e, Runs i s e ∧ SameButLogs d e 0 0 ∧ e.retired = d.retired ∧
        fget e (segField k off) (layerCore die k off) = used + 1 ∧
        ∀ m ∈ e.marks, m ∈ d.marks ∧ ¬(a ≤ m.1 ∧ m.1 < a + 512 ∧ wordWeight m.2 = 1)) ∧
      (ok → 64 ≤ used → ∃ e, Runs i s e ∧ MemKept d e ∧ (k = 1 → arrayRetired e (layerArray die off) = true) ∧
        (k ≠ 1 → coreRetired e (layerCore die k off) = true)) ∧
      (¬ok → Runs i s d)) ∧
    (∀ c, retires (.pcRetire c) c) ∧
    (∀ c m x, moveOf d c true = some m → m.spare = some x → c < 528 → x < 528 → inReset d 3 (c / 66) = false →
      ∃ e, Runs (.spareCopyDone c) s e ∧ SameButLogs d e 0 0 ∧ e.moves = d.moves.erase m ∧
        smapGet e.retired.spared (backedPc d c) (backedPc d c) = x ∧ fget e memPcEccState x = 0 ∧
        (x ≠ c → fget e memPcEccState c = 1) ∧
        fget e memStackStatusSparesUsed (c / 66) = (fget d memStackStatusSparesUsed (c / 66) + 1) % 4) ∧
    (∀ c, let blocked := moveOf d c true = none ∨ inReset d 3 (c / 66) = true
      blocked → Runs (.spareCopyDone c) s d) ∧
    (∀ c lost, let i := Instr.capacityMoveDone c lost
      let turn := fun (m : PcMove) => (∀ u, u < 8 → inReset d 3 u = false) ∧ ∀ x ∈ d.moves, x.spare = none → m.k ≤ x.k
      (∀ m, moveOf d c false = some m → turn m → ∃ e, Runs i s e ∧ e.moves = d.moves.erase m ∧
        e.retired = { d.retired with capped := [redirectPc d c] :: d.retired.capped } ∧ fget e memPcEccState c = 2 ∧
        zeroed e (fun a => ∃ r ∈ lost, granuleOf d c r = true ∧ r.1 ≤ a ∧ a < r.1 + r.2)) ∧
      (∀ m, moveOf d c false = some m → ¬turn m → Runs i s d) ∧ (moveOf d c false = none → Runs i s d)) ∧
    (∀ u cause, let i := fun (kind : Nat) => Instr.resourceRetire kind u cause;
      (u < 64 → coreRetired d u = false → cause ≠ 1 ∨ coreOver d u = true → ∃ e, Runs (i 2) s e ∧ coreRetired e u = true ∧
        MemKept d e ∧ (∀ k, k < 4 → arrayRetired e (4 * u + k) = true) ∧ (∀ c, c ≠ u → coreRetired e c = coreRetired d c) ∧
        (d.nv.registry.length < 32766 → e.nv.registry.length = d.nv.registry.length + 1)) ∧
      (coreRetired d u = true ∨ cause = 1 ∧ coreOver d u = false → Runs (i 2) s d) ∧
      (u < 256 → arrayRetired d u = false → cause ≠ 1 ∨ arrayOver d u = true → ∃ e, Runs (i 3) s e ∧ arrayRetired e u = true ∧
        MemKept d e ∧
        ((∀ k, k < 4 → u / 4 * 4 + k = u ∨ arrayRetired d (u / 4 * 4 + k) = true) → coreRetired e (u / 4) = true)) ∧
      (arrayRetired d u = true ∨ cause = 1 ∧ arrayOver d u = false → Runs (i 3) s d) ∧
      (u < 384 → fget d lyrPortStatusState u ≠ 3 → ∃ e, Runs (i 4) s e ∧ portGone e u) ∧
      (u < 8 → u ∉ d.retired.stackSet → ∃ e, Runs (i 6) s e ∧ u ∈ e.retired.stackSet ∧ fget e memStackStatusRetired u = 1 ∧
        (∀ n, n < 66 → fget e memPcEccState (u * 66 + n) = 2) ∧ zeroed e (fun a => dramBytes e ≤ a ∨ onStack d u a = true)) ∧
      (u ∈ d.retired.stackSet → Runs (i 6) s d) ∧
      (cause ≠ 1 → pcLive d u = true → pcBegins (i 7) u cause d.time) ∧ (cause = 1 → retires (i 7) u) ∧
      (u < 36 → u ∉ d.retired.links → ∃ e, Runs (i 8) s e ∧ u ∈ e.retired.links ∧ fget e blLinkStatusState u = 3 ∧ MemKept d e) ∧
      (u ∈ d.retired.links → Runs (i 8) s d) ∧
      (u < 144 → u ∉ d.retired.lanes → ∃ e, Runs (i 9) s e ∧ u ∈ e.retired.lanes ∧ MemKept d e ∧
        bit (fget e blLinkStatusLanes (u / 4)) (u % 4) = false) ∧
      (u ∈ d.retired.lanes → Runs (i 9) s d) ∧
      (∀ kind, kind ∉ [2, 3, 4, 6, 7, 8, 9] → Runs (i kind) s d))

/-- ENTDAA, RSTDAA, ENEC, DISEC, GETPID, GETBCR, GETDCR, GETSTATUS, GETMXDS and the register reads and writes of board
management, reach only what they may. -/
def Obligations.BoardManagementReadsAndWrites : Prop :=
  ∀ (s : State),
    let d := s.dev
    let on := d.pwr.state ≠ .unpowered
    let dies := d.pwr.state = .running
    let side := fun (i : Instr) (x : Side) => (on → Runs i s { d with side := x }) ∧ (¬on → Runs i s d)
    let refuses := fun (i : Instr) => Runs i s (emit d (.abort 2))
    let direct := fun (i : Instr) (n : Nat) => (¬on → Runs i s d) ∧
      (on → d.side.address.isSome = true → ∃ v k, v < 2 ^ n ∧ Runs i s { d with free := k, out := d.out ++ [.answer 3 v] }) ∧
      (on → d.side.address.isSome = false → ∃ k, Runs i s { d with free := k, out := d.out ++ [.abort 3] })
    let bound := fun (ch : Nat) => mbxBound d 6 ch = true
    let foreign := emit (fsat d mbxErrForeign 0 1) (.abort 2)
    let window := fun (ch o n : Nat) => ch < 32 ∧ 1 ≤ n ∧ o + n ≤ 0x8000
    (∀ a, side (.entDaa a) (if d.side.address = none then { d.side with address := some (a % 128) } else d.side)) ∧
    side .rstDaa { d.side with address := none } ∧ side .enec { d.side with events := true } ∧
    side .disec { d.side with events := false } ∧
    direct .getPid 48 ∧ direct .getBcr 8 ∧ direct .getDcr 8 ∧ direct .getStatus 16 ∧ direct .getMxds 16 ∧
    (∀ off n, let i := Instr.bmRegisterRead off n;
      let shown := fun (f : Nat → Byte) => Runs i s (emit d (.answer 2 (leNat ((List.range n).map f))))
      (¬on → Runs i s d) ∧ (on → n = 0 ∨ 256 < n → refuses i) ∧
      (on → ¬dies → 1 ≤ n → n ≤ 256 → (0x3F0000 ≤ off → off + n ≤ 0x400000 → shown (fun k => netByte d (off + k))) ∧
        (off < 0x3F0000 ∨ 0x400000 < off + n → refuses i)) ∧
      (dies → 1 ≤ n → n ≤ 256 → (off + n ≤ 0x100000 → shown (fun k => netByte d (off + k))) ∧
        (0x100000 < off + n → off < 0x4000000 ∨ 0x4100000 ≤ off → refuses i))) ∧
    (∀ ch o n, window ch o n → n ≤ 256 → dies → let i := Instr.bmRegisterRead (0x4000000 + ch * 0x8000 + o) n;
      (¬bound ch → Runs i s foreign) ∧ (bound ch → 0x1000 ≤ o → (fget d mbxChStatusAwake ch = 0 → refuses i) ∧
        (fget d mbxChStatusAwake ch ≠ 0 → Runs i s (emit d (.answer 2 (leNat (mbxRead d ch o n))))))) ∧
    (∀ off bs, let i := Instr.bmRegisterWrite off bs;
      (¬on → Runs i s d) ∧ (on → ¬dies → refuses i) ∧ (dies → off < 0x4000000 ∨ 0x4100000 ≤ off → refuses i)) ∧
    (∀ ch o bs, window ch o bs.length → dies → let i := Instr.bmRegisterWrite (0x4000000 + ch * 0x8000 + o) bs;
      (¬bound ch → Runs i s foreign) ∧ (bound ch → 0x1000 ≤ o → fget d mbxChStatusAwake ch ≠ 0 →
        ∃ e, Runs i s e ∧ e = { d with mbx := e.mbx } ∧ mbxRead e ch o bs.length = bs ∧
          ∀ c k, k < 0x8000 → (c ≠ ch ∨ k < o ∨ o + bs.length ≤ k) → mbxGet e c k = mbxGet d c k)) ∧
    (let heldOff := d.pwr.state = .standby ∧ 1 ≤ fget d thmShutdownCause 0 ∧ fget d thmShutdownCause 0 ≤ 3 ∧
       fget d thmShutdownHold 0 = 1
     (¬heldOff → Runs .bmRestart s d) ∧
     (heldOff → coolEnough d = false → Runs .bmRestart s { d with pwr := { d.pwr with restartAsked := true } }) ∧
     (heldOff → coolEnough d = true → ∃ e, Runs .bmRestart s e ∧ e.pwr.state = .running ∧ fget e aniResetCauseCause 0 = 1 ∧
       fget e cfgBootStatusStep 0 = 6 ∧ fget e thmShutdownHold 0 = 0 ∧ e.pwr.restartAsked = false ∧ (d.env.defects = [] →
         ∀ a, logFree e a = true → smapGet e.mem a memUnlisted = smapGet (hostMem d) a memUnlisted)))

/-- BYPASS and IDCODE always act, boundary scan from level 1 and internal scan at level 2; below its level an
instruction is BYPASS. -/
def Obligations.BoundaryScanActsAtItsLevel : Prop :=
  ∀ (s : State),
    let d := s.dev
    let on := d.pwr.state ≠ .unpowered
    let lvl := fget d cfgDebugLevel 0
    let bypass := { d with side := { d.side with tap := TapInst.bypass.ctorIdx } }
    let gate := fun (i : Instr) (need : Nat) => (¬on → Runs i s d) ∧ (on → lvl < need → Runs i s bypass)
    let drives := fun (i : Instr) (t : TapInst) => gate i 1 ∧ (on → 1 ≤ lvl → ∃ e, Runs i s e ∧ MemKept d e ∧
      e.side.tap = t.ctorIdx ∧ e.side.halted = d.side.halted ∧
      (∀ n, n < 36 → fget e blLinkStatusState n = if fget d blLinkStatusState n = 3 then 3 else 0) ∧
      (mainPower d = true → ∀ p, p < 2 → fget e hpPortStateState p = (match fget d hpPortStateState p with
        | 0 => 4 | 1 => 2 | x => x)))
    gate .tapBypass 0 ∧ (on → Runs .tapBypass s bypass) ∧ (¬on → Runs .tapIdcode s d) ∧
    (on → Runs .tapIdcode s { d with side := { d.side with tap := TapInst.idcode.ctorIdx }, out := d.out ++ [.answer 4 0x12A72AC7] }) ∧
    (∀ x, gate (.tapSamplePreload x) 1 ∧ (on → 1 ≤ lvl → ∃ k v, Runs (.tapSamplePreload x) s { d with
      side := { d.side with tap := TapInst.samplePreload.ctorIdx, boundary := x }, free := k, out := d.out ++ [.answer 4 v] })) ∧
    (∀ x, drives (.tapExtest x) .extest ∧ (on → 1 ≤ lvl → ∃ e, Runs (.tapExtest x) s e ∧ e.side.boundary = x)) ∧
    drives .tapClamp .clamp ∧ drives .tapHighz .highz ∧ drives .tapExtestPulse .extestPulse ∧ drives .tapExtestTrain .extestTrain ∧
    (∀ h, gate (.tapInternalScan h) 2 ∧ (on → 2 ≤ lvl → ∃ k v, Runs (.tapInternalScan h) s { d with
      side := { d.side with tap := TapInst.internalScan.ctorIdx, halted := h }, free := k, out := d.out ++ [.answer 4 v] }))

/-- ALERT_N is low exactly while an event bit is set or a thermal warning is active. -/
def Obligations.AlertFollowsEventsAndWarnings : Prop :=
  ∀ (d : Dev), alertLow d = true ↔
    (∃ p k, p < 2 ∧ (regGet d .hpEvtStatus p).testBit k = true) ∨ ∃ x loc, x < 2 ∧ loc < 3 ∧ 1 ≤ level d x loc
end

