-- ==== Sys2Proof/Laws/Memory.lean ====
section
/-! SUPPORT. The memory and its canonical form: sparse maps read what was last written, every write keeps the form, and the
memory operations of `Ops` keep it. -/
namespace Sys2Proof.Machine

/-! ### Sparse maps -/

section
variable {α : Type} [DecidableEq α]

theorem smapWfFrom_mono {f : Nat → α} {lo lo' : Nat} {m : List (Nat × α)} (h : smapWfFrom f lo' m = true) (hl : lo ≤ lo') :
    smapWfFrom f lo m = true := by
  cases m with
  | nil => rfl
  | cons x rest =>
    obtain ⟨j, v⟩ := x
    simp only [smapWfFrom, Bool.and_eq_true, decide_eq_true_eq] at h ⊢
    exact ⟨⟨Nat.le_trans hl h.1.1, h.1.2⟩, h.2⟩

theorem smapErase_wfFrom {f : Nat → α} (m : List (Nat × α)) : ∀ (lo k : Nat), smapWfFrom f lo m = true →
    smapWfFrom f lo (smapErase m k) = true := by
  induction m with
  | nil => intro _ _ h; exact h
  | cons x rest ih =>
    intro lo k h
    obtain ⟨j, v⟩ := x
    simp only [smapWfFrom, Bool.and_eq_true, decide_eq_true_eq] at h
    unfold smapErase
    split
    · exact smapWfFrom_mono (ih _ _ h.2) (by omega)
    · simp only [smapWfFrom, Bool.and_eq_true, decide_eq_true_eq]
      exact ⟨h.1, ih _ _ h.2⟩

theorem smapPut_wfFrom {f : Nat → α} (m : List (Nat × α)) (k : Nat) (v : α) (hv : v ≠ f k) : ∀ lo, lo ≤ k →
    smapWfFrom f lo m = true → smapWfFrom f lo (smapPut m k v) = true := by
  induction m with
  | nil =>
    intro lo hl _
    simp [smapPut, smapWfFrom, hl, hv]
  | cons x rest ih =>
    intro lo hl h
    obtain ⟨j, w⟩ := x
    simp only [smapWfFrom, Bool.and_eq_true, decide_eq_true_eq] at h
    unfold smapPut
    split
    · simp only [smapWfFrom, Bool.and_eq_true, decide_eq_true_eq]
      exact ⟨h.1, ih _ (by omega) h.2⟩
    · split
      · rename_i hk
        subst hk
        simp only [smapWfFrom, Bool.and_eq_true, decide_eq_true_eq]
        exact ⟨⟨hl, hv⟩, h.2⟩
      · simp only [smapWfFrom, Bool.and_eq_true, decide_eq_true_eq]
        exact ⟨⟨hl, hv⟩, ⟨by omega, h.1.2⟩, h.2⟩

/-- A write keeps the canonical form. -/
theorem smapSet_wf {x : α} {m : List (Nat × α)} (k : Nat) (v : α) (h : smapWf (fun _ => x) m = true) :
    smapWf (fun _ => x) (smapSet m k v x) = true := by
  unfold smapSet
  split
  · exact smapErase_wfFrom m 0 k h
  · rename_i hv
    exact smapPut_wfFrom m k v hv 0 (Nat.zero_le _) h

theorem smapFilter_wfFrom {f : Nat → α} (p : Nat × α → Bool) (m : List (Nat × α)) : ∀ lo, smapWfFrom f lo m = true →
    smapWfFrom f lo (m.filter p) = true := by
  induction m with
  | nil => intro _ h; exact h
  | cons x rest ih =>
    intro lo h
    obtain ⟨j, v⟩ := x
    simp only [smapWfFrom, Bool.and_eq_true, decide_eq_true_eq] at h
    rw [List.filter_cons]
    split
    · simp only [smapWfFrom, Bool.and_eq_true, decide_eq_true_eq]
      exact ⟨h.1, ih _ h.2⟩
    · exact smapWfFrom_mono (ih _ h.2) (by omega)

omit [DecidableEq α] in
theorem smapGet_erase_self {d : α} (m : List (Nat × α)) (k : Nat) : smapGet (smapErase m k) k d = d := by
  induction m with
  | nil => rfl
  | cons x rest ih =>
    obtain ⟨j, v⟩ := x
    unfold smapErase
    split
    · exact ih
    · rename_i hk
      unfold smapGet
      rw [if_neg hk]
      exact ih

omit [DecidableEq α] in
theorem smapGet_erase_other {d : α} (m : List (Nat × α)) (k j : Nat) (h : j ≠ k) :
    smapGet (smapErase m k) j d = smapGet m j d := by
  induction m with
  | nil => rfl
  | cons x rest ih =>
    obtain ⟨i, v⟩ := x
    unfold smapErase
    split
    · rename_i hk
      simp only [smapGet, ih]
      rw [if_neg (by omega)]
    · simp only [smapGet, ih]

omit [DecidableEq α] in
theorem smapGet_put_self {d : α} (m : List (Nat × α)) (k : Nat) (v : α) : smapGet (smapPut m k v) k d = v := by
  induction m with
  | nil => simp [smapPut, smapGet]
  | cons x rest ih =>
    obtain ⟨i, w⟩ := x
    unfold smapPut
    split
    · simp only [smapGet]
      rw [if_neg (by omega)]
      exact ih
    · split <;> simp [smapGet]

omit [DecidableEq α] in
theorem smapGet_put_other {d : α} (m : List (Nat × α)) (k j : Nat) (v : α) (h : j ≠ k) :
    smapGet (smapPut m k v) j d = smapGet m j d := by
  induction m with
  | nil => simp only [smapPut, smapGet]; rw [if_neg (by omega)]
  | cons x rest ih =>
    obtain ⟨i, w⟩ := x
    unfold smapPut
    split
    · simp only [smapGet, ih]
    · split
      · rename_i hk
        simp only [smapGet]
        rw [if_neg (by omega), if_neg (by omega)]
      · simp only [smapGet]
        rw [if_neg (by omega)]

/-- A read of another key gives what it gave before a write. -/
theorem smapGet_set_other {d e : α} (m : List (Nat × α)) (k j : Nat) (v : α) (h : j ≠ k) :
    smapGet (smapSet m k v e) j d = smapGet m j d := by
  unfold smapSet
  split
  · exact smapGet_erase_other m k j h
  · exact smapGet_put_other m k j v h

/-- A read after a write of the same key gives the value written. -/
theorem smapGet_set_self {d : α} (m : List (Nat × α)) (k : Nat) (v : α) : smapGet (smapSet m k v d) k d = v := by
  unfold smapSet
  split
  · rename_i hv
    rw [hv]
    exact smapGet_erase_self m k
  · exact smapGet_put_self m k v

end

/-! ### The device memory -/

/-- The memory of a device has its canonical form. -/
def MemOk (d : Dev) : Prop := Memory.wf d.mem = true

theorem reset_memOk : MemOk State.reset.dev := rfl

theorem memSet_ok {d : Dev} {a : Nat} {v : Byte} (h1 : MemOk d) : MemOk (memSet d a v) := smapSet_wf _ _ h1

theorem memWrite_ok {d : Dev} {a : Nat} {bs : List Byte} (h1 : MemOk d) : MemOk (memWrite d a bs) := by
  induction bs generalizing d a with
  | nil => exact h1
  | cons b rest ih => exact ih (memSet_ok h1)

/-- Dropping entries keeps the form. -/
theorem filter_memOk {d : Dev} {p : Host.Cell → Bool} (h1 : MemOk d) : Memory.wf (d.mem.filter p) = true :=
  smapFilter_wfFrom p d.mem 0 h1

theorem hostMem_memOk {d : Dev} (h1 : MemOk d) : Memory.wf (hostMem d) = true := filter_memOk h1

theorem memDrop_memOk {d : Dev} {p : Nat → Bool} (h1 : MemOk d) : Memory.wf (smapDrop p d.mem) = true := filter_memOk h1

/-! ### What Cumin logs -/

theorem smapWfFrom_below {f : Nat → Byte} (m r : List Host.Cell) (a : Nat) (hr : smapWfFrom f a r = true) : ∀ lo, lo ≤ a →
    smapWfFrom f lo m = true → smapWfFrom f lo (m.filter (fun c => decide (c.1 < a)) ++ r) = true := by
  induction m with
  | nil => intro lo hl _; exact smapWfFrom_mono hr hl
  | cons x rest ih =>
    intro lo hl h
    obtain ⟨j, v⟩ := x
    simp only [smapWfFrom, Bool.and_eq_true, decide_eq_true_eq] at h
    by_cases hj : j < a
    · rw [List.filter_cons_of_pos (by simpa using hj), List.cons_append]
      simp only [smapWfFrom, Bool.and_eq_true, decide_eq_true_eq]
      exact ⟨h.1, ih _ hj h.2⟩
    · rw [List.filter_cons_of_neg (by simpa using hj)]
      exact ih lo hl (smapWfFrom_mono h.2 (by omega))

theorem smapWfFrom_above {f : Nat → Byte} (m : List Host.Cell) (b : Nat) : ∀ lo, smapWfFrom f lo m = true →
    smapWfFrom f b (m.filter (fun c => decide (b ≤ c.1))) = true := by
  induction m with
  | nil => intro _ _; rfl
  | cons x rest ih =>
    intro lo h
    obtain ⟨j, v⟩ := x
    simp only [smapWfFrom, Bool.and_eq_true, decide_eq_true_eq] at h
    by_cases hj : b ≤ j
    · rw [List.filter_cons_of_pos (by simpa using hj)]
      simp only [smapWfFrom, Bool.and_eq_true, decide_eq_true_eq]
      exact ⟨⟨hj, h.1.2⟩, smapFilter_wfFrom _ rest _ h.2⟩
    · rw [List.filter_cons_of_neg (by simpa using hj)]
      exact ih _ h.2

theorem cellsOf_wfFrom (r : List Host.Cell) (bs : List Byte) : ∀ a, smapWfFrom (fun _ => memUnlisted) (a + bs.length) r = true →
    smapWfFrom (fun _ => memUnlisted) a (cellsOf a bs ++ r) = true := by
  induction bs with
  | nil => intro a h; exact h
  | cons b rest ih =>
    intro a h
    have h1 := ih (a + 1) (by rw [List.length_cons] at h; rwa [Nat.add_assoc, Nat.add_comm 1])
    unfold cellsOf
    split
    · exact smapWfFrom_mono h1 (Nat.le_succ a)
    · rename_i hb
      simp only [List.cons_append, smapWfFrom, Bool.and_eq_true, decide_eq_true_eq]
      exact ⟨⟨Nat.le_refl a, hb⟩, h1⟩

theorem leBytes_length (n v : Nat) : (leBytes n v).length = n := by
  induction n generalizing v with
  | zero => rfl
  | succ k ih => unfold leBytes; rw [List.length_cons, ih]

theorem logWrite_ok {d : Dev} {a n v : Nat} (h1 : MemOk d) : MemOk (logWrite d a n v) := by
  unfold logWrite
  split
  · have h2 := smapWfFrom_above d.mem (a + n) 0 h1
    have h3 := cellsOf_wfFrom _ (leBytes n v) a (by rw [leBytes_length]; exact h2)
    show smapWfFrom _ 0 _ = true
    rw [List.append_assoc]
    exact smapWfFrom_below d.mem _ a h3 0 (Nat.zero_le _) h1
  · exact h1

/-- A byte outside the logged range keeps its value. -/
theorem smapGet_append_left {m r : List Host.Cell} {k : Nat} {x : Byte} (h : ∀ c ∈ r, c.1 ≠ k) :
    smapGet (m ++ r) k x = smapGet m k x := by
  induction m with
  | nil =>
    induction r with
    | nil => rfl
    | cons c rest ih =>
      obtain ⟨j, v⟩ := c
      have hj : j ≠ k := h (j, v) (List.mem_cons_self ..)
      show (if j = k then v else smapGet rest k x) = x
      rw [if_neg hj]
      exact ih (fun c hc => h c (List.mem_cons_of_mem _ hc))
  | cons c rest ih =>
    obtain ⟨j, v⟩ := c
    show (if j = k then v else smapGet (rest ++ r) k x) = (if j = k then v else smapGet rest k x)
    rw [ih]

theorem smapGet_append_right {m r : List Host.Cell} {k : Nat} {x : Byte} (h : ∀ c ∈ m, c.1 ≠ k) :
    smapGet (m ++ r) k x = smapGet r k x := by
  induction m with
  | nil => rfl
  | cons c rest ih =>
    obtain ⟨j, v⟩ := c
    have hj : j ≠ k := h (j, v) (List.mem_cons_self ..)
    show (if j = k then v else smapGet (rest ++ r) k x) = smapGet r k x
    rw [if_neg hj]
    exact ih (fun c hc => h c (List.mem_cons_of_mem _ hc))

theorem smapGet_filter {α : Type} {m : List (Nat × α)} {p : Nat × α → Bool} {k : Nat} {x : α} (h : ∀ v, p (k, v) = true) :
    smapGet (m.filter p) k x = smapGet m k x := by
  induction m with
  | nil => rfl
  | cons c rest ih =>
    obtain ⟨j, v⟩ := c
    by_cases hj : j = k
    · subst hj
      rw [List.filter_cons_of_pos (h v)]
      show (if j = j then v else _) = (if j = j then v else _)
      rw [if_pos rfl, if_pos rfl]
    · by_cases hp : p (j, v) = true
      · rw [List.filter_cons_of_pos hp]
        show (if j = k then v else smapGet (rest.filter p) k x) = (if j = k then v else smapGet rest k x)
        rw [ih]
      · rw [List.filter_cons_of_neg hp]
        show smapGet (rest.filter p) k x = (if j = k then v else smapGet rest k x)
        rw [if_neg hj]
        exact ih

theorem cellsOf_range {bs : List Byte} : ∀ {a : Nat} {c : Host.Cell}, c ∈ cellsOf a bs → a ≤ c.1 ∧ c.1 < a + bs.length := by
  induction bs with
  | nil => intro a c h; cases h
  | cons b rest ih =>
    intro a c h
    rw [List.length_cons]
    unfold cellsOf at h
    split at h
    · have := ih h; omega
    · rcases List.mem_cons.mp h with h | h
      · subst h; exact ⟨Nat.le_refl a, by show a < a + _; omega⟩
      · have := ih h; omega

/-- What a log entry leaves alone: every byte outside its range, and the errors there. -/
theorem logWrite_other {d : Dev} {a n v k : Nat} (h : k < a ∨ a + n ≤ k) :
    smapGet (logWrite d a n v).mem k memUnlisted = smapGet d.mem k memUnlisted ∧
    smapGet (logWrite d a n v).marks k 0 = smapGet d.marks k 0 := by
  unfold logWrite
  split
  · refine ⟨?_, smapGet_filter (fun v => ?_)⟩
    · have hc : ∀ c ∈ cellsOf a (leBytes n v), c.1 ≠ k := fun c hc => by
        have := cellsOf_range hc
        rw [leBytes_length] at this
        omega
      rcases h with h | h
      · rw [List.append_assoc, smapGet_append_left, smapGet_filter (fun v => by simpa using h)]
        intro c hm
        rcases List.mem_append.mp hm with hm | hm
        · exact hc c hm
        · have := (List.mem_filter.mp hm).2
          simp only [decide_eq_true_eq] at this
          omega
      · rw [smapGet_append_right, smapGet_filter (fun v => by simpa using h)]
        intro c hm
        rcases List.mem_append.mp hm with hm | hm
        · have := (List.mem_filter.mp hm).2
          simp only [decide_eq_true_eq] at this
          omega
        · exact hc c hm
    · have : ¬ (a ≤ k ∧ k < a + n) := by omega
      simp [this]
  · exact ⟨rfl, rfl⟩

end Sys2Proof.Machine
end

