-- ==== Sys2Proof/Laws/KeepOps.lean ====
section
/-! SUPPORT. Every operation keeps the canonical form of the memory: the shared operations, tensors, matrices, rows and transfers. -/
namespace Sys2Proof.Machine

/-! ### How a proof passes through a fold, a choice and a record -/

theorem mk_ok {x1 x2 x3 x4 x5 x6 x7 x8 x9 x10 x11 x12 x13 x14 x15 x16 x17 x18 x19 x20 x21 x22 x23 x24 x25 x26 x27 x28 x29 x30 x31} :
    MemOk ⟨x1, x2, x3, x4, x5, x6, x7, x8, x9, x10, x11, x12, x13, x14, x15, x16, x17, x18, x19, x20, x21, x22, x23, x24,
      x25, x26, x27, x28, x29, x30, x31⟩ = (Memory.wf x4 = true) := rfl
theorem ok_mem {d : Dev} (h : MemOk d) : Memory.wf d.mem = true := h
theorem fst_ok {α : Type} {p : Dev × α} {e : Dev} {a : α} (h : p = (e, a)) (hp : MemOk p.1) : MemOk e := by
  rw [h] at hp; exact hp
theorem snd_ok {α : Type} {p : α × Dev} {e : Dev} {a : α} (h : p = (a, e)) (hp : MemOk p.2) : MemOk e := by
  rw [h] at hp; exact hp
theorem foldl_ok {α : Type} {f : Dev → α → Dev} {xs : List α} {d : Dev} (h : MemOk d)
    (hf : ∀ e x, MemOk e → MemOk (f e x)) : MemOk (xs.foldl f d) := by
  induction xs generalizing d with
  | nil => exact h
  | cons x rest ih => exact ih (hf _ _ h)
theorem foldl_ok1 {α β : Type} {f : Dev × β → α → Dev × β} {xs : List α} {d : Dev × β} (h : MemOk d.1)
    (hf : ∀ e x, MemOk e.1 → MemOk (f e x).1) : MemOk (xs.foldl f d).1 := by
  induction xs generalizing d with
  | nil => exact h
  | cons x rest ih => exact ih (hf _ _ h)
theorem foldl_okU {α : Type} {f : UpdAcc → α → UpdAcc} {xs : List α} {d : UpdAcc} (h : MemOk d.dev)
    (hf : ∀ e x, MemOk e.dev → MemOk (f e x).dev) : MemOk (xs.foldl f d).dev := by
  induction xs generalizing d with
  | nil => exact h
  | cons x rest ih => exact ih (hf _ _ h)

theorem ite_ok {c : Prop} [Decidable c] {a b : Dev} (h : c → MemOk a) (h' : ¬c → MemOk b) : MemOk (if c then a else b) := by
  split
  · exact h ‹_›
  · exact h' ‹_›
theorem ite_ok1 {α : Type} {c : Prop} [Decidable c] {a b : Dev × α} (h : c → MemOk a.1) (h' : ¬c → MemOk b.1) :
    MemOk (if c then a else b).1 := by
  split
  · exact h ‹_›
  · exact h' ‹_›
theorem ite_ok2 {α : Type} {c : Prop} [Decidable c] {a b : α × Dev} (h : c → MemOk a.2) (h' : ¬c → MemOk b.2) :
    MemOk (if c then a else b).2 := by
  split
  · exact h ‹_›
  · exact h' ‹_›
theorem ite_okU {c : Prop} [Decidable c] {a b : UpdAcc} (h : c → MemOk a.dev) (h' : ¬c → MemOk b.dev) :
    MemOk (if c then a else b).dev := by
  split
  · exact h ‹_›
  · exact h' ‹_›
theorem ite_okR {c : Prop} [Decidable c] {a b : Res} (h : c → MemOk a.dev) (h' : ¬c → MemOk b.dev) :
    MemOk (if c then a else b).dev := by
  split
  · exact h ‹_›
  · exact h' ‹_›
theorem ite_okG {c : Prop} [Decidable c] {a b : Going} (h : c → MemOk a.dev) (h' : ¬c → MemOk b.dev) :
    MemOk (if c then a else b).dev := by
  split
  · exact h ‹_›
  · exact h' ‹_›
theorem foldl_okG {α : Type} {f : Going → α → Going} {xs : List α} {d : Going} (h : MemOk d.dev)
    (hf : ∀ e x, MemOk e.dev → MemOk (f e x).dev) : MemOk (xs.foldl f d).dev := by
  induction xs generalizing d with
  | nil => exact h
  | cons x rest ih => exact ih (hf _ _ h)
theorem ite_okP {α : Type} {c : Prop} [Decidable c] {a b : Going × α} (h : c → MemOk a.1.dev) (h' : ¬c → MemOk b.1.dev) :
    MemOk (if c then a else b).1.dev := by
  split
  · exact h ‹_›
  · exact h' ‹_›
theorem foldl_okP {α β : Type} {f : Going × β → α → Going × β} {xs : List α} {d : Going × β} (h : MemOk d.1.dev)
    (hf : ∀ e x, MemOk e.1.dev → MemOk (f e x).1.dev) : MemOk (xs.foldl f d).1.dev := by
  induction xs generalizing d with
  | nil => exact h
  | cons x rest ih => exact ih (hf _ _ h)
theorem ok_of_mem {d e : Dev} (h : MemOk d) (hm : e.mem = d.mem) : MemOk e := by
  unfold MemOk; rw [hm]; exact h
theorem eng_ok {d : Dev} {x} (h : MemOk d) : MemOk { d with eng := x } := h
theorem fw_ok {d : Dev} {x} (h : MemOk d) : MemOk { d with fw := x } := h
theorem nv_ok {d : Dev} {x} (h : MemOk d) : MemOk { d with nv := x } := h
theorem steps_ok {d : Dev} {x} (h : MemOk d) : MemOk { d with steps := x } := h

theorem regSet_ok {d : Dev} {r : Reg} {i v : Nat} (h1 : MemOk d) : MemOk (regSet d r i v) := by
  unfold regSet
  try dsimp only
  repeat' first
    | with_reducible assumption
    | (simp only [mk_ok])
    | with_reducible apply ok_mem

theorem fset_ok {d : Dev} {f : Field} {i v : Nat} (h1 : MemOk d) : MemOk (fset d f i v) := by
  unfold fset
  try dsimp only
  repeat' first
    | (with_reducible first | assumption | apply regSet_ok)

theorem fsat_ok {d : Dev} {f : Field} {i n : Nat} (h1 : MemOk d) : MemOk (fsat d f i n) := by
  unfold fsat
  try dsimp only
  repeat' first
    | (with_reducible first | assumption | apply fset_ok)

theorem fwrap_ok {d : Dev} {f : Field} {i n : Nat} (h1 : MemOk d) : MemOk (fwrap d f i n) := by
  unfold fwrap
  try dsimp only
  repeat' first
    | (with_reducible first | assumption | apply fset_ok)

theorem cntAdd_ok {d : Dev} {f : Field} {i n : Nat} (h1 : MemOk d) : MemOk (cntAdd d f i n) := by
  unfold cntAdd
  try dsimp only
  repeat' first
    | with_reducible assumption
    | (simp only [mk_ok])
    | with_reducible apply ok_mem

theorem cntClear_ok {d : Dev} {f : Field} {i : Nat} (h1 : MemOk d) : MemOk (cntClear d f i) := by
  unfold cntClear
  try dsimp only
  repeat' first
    | with_reducible assumption
    | (simp only [mk_ok])
    | with_reducible apply ok_mem

theorem takeFree_ok {d : Dev} {w : Nat} (h1 : MemOk d) : MemOk (takeFree d w).2 := by
  unfold takeFree
  try dsimp only
  repeat' first
    | with_reducible assumption
    | (simp only [mk_ok])
    | with_reducible apply ok_mem

theorem emit_ok {d : Dev} {o : Out} (h1 : MemOk d) : MemOk (emit d o) := by
  unfold emit
  try dsimp only
  repeat' first
    | with_reducible assumption
    | (simp only [mk_ok])
    | with_reducible apply ok_mem

theorem memWriteNat_ok {d : Dev} {a n v : Nat} (h1 : MemOk d) : MemOk (memWriteNat d a n v) := by
  unfold memWriteNat
  try dsimp only
  repeat' first
    | (with_reducible first | assumption | apply memWrite_ok)

theorem markClear_ok {d : Dev} {a : Nat} (h1 : MemOk d) : MemOk (markClear d a) := by
  unfold markClear
  try dsimp only
  repeat' first
    | with_reducible assumption
    | (simp only [mk_ok])
    | with_reducible apply ok_mem

theorem sideWritten_ok {d : Dev} {a n : Nat} (h1 : MemOk d) : MemOk (sideWritten d a n) := by
  unfold sideWritten
  split
  · extract_lets pages fresh
    exact memDrop_memOk (p := fresh) h1
  · exact h1

theorem sendVector_ok {d : Dev} {p v : Nat} (h1 : MemOk d) : MemOk (sendVector d p v) := by
  unfold sendVector
  try dsimp only
  repeat' first
    | with_reducible assumption
    | (intro _; try dsimp only)
    | (with_reducible first | apply emit_ok | apply ite_ok)
    | (simp only [mk_ok])
    | with_reducible apply ok_mem

theorem evtSetOne_ok {d : Dev} {p k : Nat} (h1 : MemOk d) : MemOk (evtSetOne d p k) := by
  unfold evtSetOne
  try dsimp only
  repeat' first
    | with_reducible assumption
    | (intro _; try dsimp only)
    | (with_reducible first | apply regSet_ok | apply sendVector_ok | apply ite_ok)

theorem evtSet_ok {d : Dev} {k : Nat} (h1 : MemOk d) : MemOk (evtSet d k) := by
  unfold evtSet
  try dsimp only
  repeat' first
    | (with_reducible first | assumption | apply evtSetOne_ok)

theorem nutWrite_ok {d : Dev} {r : NutRec} (h1 : MemOk d) : MemOk (nutWrite d r) := by
  unfold nutWrite
  try dsimp only
  repeat' first
    | (with_reducible first | assumption | apply logWrite_ok)

theorem nutOpen_ok {d : Dev} {e : NutEvent} (h1 : MemOk d) : MemOk (nutOpen d e) := by
  unfold nutOpen
  extract_lets seq pin slot rec0 kept next q1 d1 q2 d1' d2 d3 used d5 d4
  have h2 : MemOk d1 := nutWrite_ok h1
  have h3 : MemOk d1' := ite_ok (fun _ => nv_ok h2) (fun _ => h2)
  have h4 : MemOk d3 := ite_ok (fun _ => fwrap_ok (fset_ok h3)) (fun _ => fset_ok h3)
  have h5 : MemOk d4 := ite_ok (fun _ => ite_ok (fun _ => evtSet_ok (fset_ok (fset_ok h4))) (fun _ => fset_ok h4)) (fun _ => h4)
  exact ite_ok (fun _ => evtSet_ok h5) (fun _ => h5)

theorem nutCount_ok {d : Dev} (h1 : MemOk d) : MemOk (nutCount d) := by
  unfold nutCount
  try dsimp only
  repeat' first
    | with_reducible assumption
    | (intro _; try dsimp only)
    | with_reducible apply ite_ok
    | (simp only [mk_ok])
    | with_reducible apply ok_mem

theorem nutSummarise_ok {d : Dev} (h1 : MemOk d) : MemOk (nutSummarise d) := by
  unfold nutSummarise
  try dsimp only
  repeat' first
    | with_reducible assumption
    | (intro _; try dsimp only)
    | (with_reducible first | apply nutOpen_ok | apply ite_ok)
    | (simp only [mk_ok])
    | with_reducible apply ok_mem

theorem nutLose_ok {d : Dev} (h1 : MemOk d) : MemOk (nutLose d) := by
  unfold nutLose
  try dsimp only
  repeat' first
    | (with_reducible first | assumption | apply fsat_ok)
    | (simp only [mk_ok])
    | with_reducible apply ok_mem

theorem nutRecord_ok {d : Dev} {e : NutEvent} (h1 : MemOk d) : MemOk (nutRecord d e) := by
  unfold nutRecord
  try dsimp only
  repeat' first
    | with_reducible assumption
    | (intro _; try dsimp only)
    | (with_reducible first | apply nutWrite_ok | apply nutOpen_ok | apply nutSummarise_ok | apply nutCount_ok)
    | (with_reducible first | apply nutLose_ok | apply ite_ok)
    | (simp only [mk_ok])
    | with_reducible apply ok_mem
    | (split; all_goals try dsimp only)

theorem nutmeg_ok {d : Dev} {e : NutEvent} (h1 : MemOk d) : MemOk (nutmeg d e) := by
  unfold nutmeg
  try dsimp only
  repeat' first
    | with_reducible assumption
    | (intro _; try dsimp only)
    | (with_reducible first | apply nutRecord_ok | apply nutLose_ok | apply ite_ok)
    | (simp only [mk_ok])
    | with_reducible apply ok_mem

theorem nutFlush_ok {d : Dev} (h1 : MemOk d) : MemOk (nutFlush d) := by
  unfold nutFlush
  try dsimp only
  repeat' first
    | with_reducible assumption
    | (intro _; try dsimp only)
    | (with_reducible first | apply nutRecord_ok | apply nutSummarise_ok | apply nutCount_ok | apply foldl_ok | apply ite_ok)
    | (simp only [mk_ok])
    | with_reducible apply ok_mem

theorem errAdd_ok {d : Dev} {kind unit : Nat} (h1 : MemOk d) : MemOk (errAdd d kind unit) := by
  unfold errAdd
  try dsimp only
  repeat' first
    | with_reducible assumption
    | (simp only [mk_ok])
    | with_reducible apply ok_mem

theorem noteDram_ok {d : Dev} {a : Nat} {unc : Bool} (h1 : MemOk d) : MemOk (noteDram d a unc) := by
  unfold noteDram
  try dsimp only
  repeat' first
    | with_reducible assumption
    | (intro _; try dsimp only)
    | (with_reducible first | apply nutmeg_ok | apply errAdd_ok | apply fsat_ok | apply ite_ok)

theorem noteCore_ok {d : Dev} {c : Nat} {side unc : Bool} (h1 : MemOk d) : MemOk (noteCore d c side unc) := by
  unfold noteCore
  try dsimp only
  repeat' first
    | with_reducible assumption
    | (intro _; try dsimp only)
    | (with_reducible first | apply errAdd_ok | apply fsat_ok | apply ite_ok)

theorem laneHit_ok {d : Dev} {port off row b : Nat} (h1 : MemOk d) : MemOk (laneHit d port off row b) := by
  unfold laneHit
  try dsimp only
  repeat' first
    | with_reducible assumption
    | (intro _; try dsimp only)
    | (with_reducible first | apply errAdd_ok | apply fsat_ok | apply ite_ok)
    | (simp only [mk_ok])
    | with_reducible apply ok_mem

theorem noteLayer_ok {d : Dev} {die k off pattern : Nat} {unc : Bool} (h1 : MemOk d) : MemOk (noteLayer d die k off
    pattern unc) := by
  unfold noteLayer
  try dsimp only
  repeat' first
    | with_reducible assumption
    | (intro _; try dsimp only)
    | (with_reducible first | apply takeFree_ok | apply errAdd_ok | apply fsat_ok | apply laneHit_ok | apply ite_ok)
    | with_reducible apply ite_ok2

theorem noteUnit_ok {d : Dev} {a : Nat} (h1 : MemOk d) : MemOk (noteUnit d a) := by
  unfold noteUnit
  try dsimp only
  repeat' first
    | (with_reducible first | assumption | apply noteDram_ok | apply noteLayer_ok | apply noteCore_ok)
    | (split; all_goals try dsimp only)

theorem noteVotes_ok {d : Dev} {l n : Nat} (h1 : MemOk d) : MemOk (noteVotes d l n) := by
  unfold noteVotes
  try dsimp only
  repeat' first
    | with_reducible assumption
    | (intro _; try dsimp only)
    | (with_reducible first | apply fsat_ok | apply foldl_ok)
    | (simp only [mk_ok])
    | with_reducible apply ok_mem

theorem noteAccess_ok {d : Dev} {a n : Nat} (h1 : MemOk d) : MemOk (noteAccess d a n) := by
  unfold noteAccess
  try dsimp only
  repeat' first
    | (with_reducible first | assumption | apply noteVotes_ok)
    | (simp only [mk_ok])
    | with_reducible apply ok_mem

theorem noteRead_ok {d : Dev} {a n : Nat} (h1 : MemOk d) : MemOk (noteRead d a n) := by
  unfold noteRead
  try dsimp only
  repeat' first
    | with_reducible assumption
    | (intro _; try dsimp only)
    | (with_reducible first | apply noteUnit_ok | apply noteAccess_ok | apply foldl_ok)

theorem noteRanges_ok {d : Dev} {rs : List (Prod Nat Nat)} (h1 : MemOk d) : MemOk (noteRanges d rs) := by
  unfold noteRanges
  try dsimp only
  repeat' first
    | with_reducible assumption
    | (intro _; try dsimp only)
    | (with_reducible first | apply noteRead_ok | apply foldl_ok)

theorem openWrite_ok {d : Dev} {a n : Nat} (h1 : MemOk d) : MemOk (openWrite d a n) := by
  unfold openWrite
  try dsimp only
  repeat' first
    | with_reducible assumption
    | (intro _; try dsimp only)
    | (with_reducible first | apply markClear_ok | apply noteUnit_ok | apply foldl_ok | apply ite_ok)

theorem openRanges_ok {d : Dev} {rs : List (Prod Nat Nat)} (h1 : MemOk d) : MemOk (openRanges d rs) := by
  unfold openRanges
  try dsimp only
  repeat' first
    | with_reducible assumption
    | (intro _; try dsimp only)
    | (with_reducible first | apply noteAccess_ok | apply openWrite_ok | apply foldl_ok)

theorem store_ok {d : Dev} {a : Nat} {bs : List Byte} (h1 : MemOk d) : MemOk (store d a bs) := by
  unfold store
  try dsimp only
  repeat' first
    | with_reducible assumption
    | (intro _; try dsimp only)
    | (with_reducible first | apply memWrite_ok | apply sideWritten_ok | apply openWrite_ok | apply ite_ok)
    | (simp only [mk_ok])
    | with_reducible apply ok_mem

theorem telemetry_ok {d : Dev} {kind unit stepTag : Nat} {values : List Nat} (h1 : MemOk d) : MemOk (telemetry d kind
    unit stepTag values) := by
  unfold telemetry
  try dsimp only
  repeat' first
    | (with_reducible first | assumption | apply fset_ok | apply logWrite_ok)
    | (simp only [mk_ok])
    | with_reducible apply ok_mem

theorem decision_ok {d : Dev} {which unit stepTag : Nat} {values : List Nat} (h1 : MemOk d) : MemOk (decision d which
    unit stepTag values) := by
  unfold decision
  try dsimp only
  repeat' first
    | (with_reducible first | assumption | apply telemetry_ok)

theorem semApply_ok {d : Dev} {s : Nat} {a : SemAct} (h1 : MemOk d) : MemOk (semApply d s a) := by
  unfold semApply
  try dsimp only
  repeat' first
    | (with_reducible first | assumption | apply fset_ok)
    | (split; all_goals try dsimp only)

theorem writePacked_ok {d : Dev} {a pos w v : Nat} (h1 : MemOk d) : MemOk (writePacked d a pos w v) := by
  unfold writePacked
  try dsimp only
  repeat' first
    | (with_reducible first | assumption | apply store_ok)

theorem setElemCode_ok {d : Dev} {t : Tensor} {i v : Nat} (h1 : MemOk d) : MemOk (setElemCode d t i v) := by
  unfold setElemCode
  try dsimp only
  repeat' first
    | with_reducible assumption
    | (intro _; try dsimp only)
    | (with_reducible first | apply writePacked_ok | apply ite_ok)
    | (simp only [mk_ok])
    | with_reducible apply ok_mem

theorem censusFor_ok {d : Dev} {ep : EpochOf} {slot : Nat} {c : Census} (h1 : MemOk d) : MemOk (censusFor d ep slot c)
    := by
  unfold censusFor
  try dsimp only
  repeat' first
    | with_reducible assumption
    | (simp only [mk_ok])
    | with_reducible apply ok_mem
    | (split; all_goals try dsimp only)

theorem condRaise_ok {d : Dev} {g k : Nat} (h1 : MemOk d) : MemOk (condRaise d g k) := by
  unfold condRaise
  try dsimp only
  repeat' first
    | with_reducible assumption
    | (simp only [mk_ok])
    | with_reducible apply ok_mem

theorem condFor_ok {d : Dev} {ep : EpochOf} {k : Nat} (h1 : MemOk d) : MemOk (condFor d ep k) := by
  unfold condFor
  try dsimp only
  repeat' first
    | (with_reducible first | assumption | apply condRaise_ok)
    | (split; all_goals try dsimp only)

theorem bookConv_ok {d : Dev} {ep : EpochOf} {t : Tensor} {s : ConvSum} (h1 : MemOk d) : MemOk (bookConv d ep t s) := by
  unfold bookConv
  try dsimp only
  repeat' first
    | with_reducible assumption
    | (intro _; try dsimp only)
    | (with_reducible first | apply censusFor_ok | apply condFor_ok | apply ite_ok)

theorem writeElem_ok {mode : RMode} {stepTag seed : Nat} {t : Tensor} {blk : Option Nat} {acc : Prod Dev ConvSum} {i :
    Nat} {v : Val} (h1 : MemOk acc.1) : MemOk (writeElem mode stepTag seed t blk acc i v).1 := by
  unfold writeElem
  try dsimp only
  repeat' first
    | (with_reducible first | assumption | apply setElemCode_ok)

theorem writeBlock_ok {mode : RMode} {stepTag seed : Nat} {t : Tensor} {acc : Prod Dev ConvSum} {xs : List (Prod Nat
    Val)} (h1 : MemOk acc.1) : MemOk (writeBlock mode stepTag seed t acc xs).1 := by
  unfold writeBlock
  try dsimp only
  repeat' first
    | with_reducible assumption
    | (intro _; try dsimp only)
    | (with_reducible first | apply writeElem_ok | apply store_ok | apply foldl_ok1)
    | (split; all_goals try dsimp only)

theorem writeVals_ok {d : Dev} {mode : RMode} {stepTag seed : Nat} {t : Tensor} {xs : List (Prod Nat Val)} (h1 : MemOk
    d) : MemOk (writeVals d mode stepTag seed t xs).1 := by
  unfold writeVals
  try dsimp only
  repeat' first
    | with_reducible assumption
    | (intro _; try dsimp only)
    | (with_reducible first | apply writeBlock_ok | apply writeElem_ok | apply foldl_ok1 | apply ite_ok1)

theorem setElemEntry_ok {d : Dev} {t : Tensor} {i : Nat} {s : SafEntry} {e : Dev} {e2 : _} (h0 : setElemEntry d t i s = some (e, e2))
    (h1 : MemOk d) : MemOk e := by
  unfold setElemEntry at h0
  dsimp only at h0
  split at h0
  · cases h0
    exact setElemCode_ok h1
  · rw [Option.map_eq_some_iff] at h0
    obtain ⟨k, -, h0⟩ := h0
    cases h0
    exact setElemCode_ok (store_ok h1)

theorem convertEntry_ok {d : Dev} {t : Tensor} {i : Nat} {s : SafEntry} {e : Dev} {e2 : _}
    (h0 : convertEntry d t i s = some (e, e2)) (h1 : MemOk d) : MemOk e := by
  unfold convertEntry at h0
  rw [Option.map_eq_some_iff] at h0
  obtain ⟨p, hp, h0⟩ := h0
  cases h0
  exact setElemEntry_ok hp h1

theorem resOk_ok {d : Dev} {info : Nat} (h1 : MemOk d) : MemOk (resOk d info).dev := by
  unfold resOk
  try dsimp only
  repeat' first
    | with_reducible assumption

theorem resWait_ok {d : Dev} (h1 : MemOk d) : MemOk (resWait d).dev := by
  unfold resWait
  try dsimp only
  repeat' first
    | with_reducible assumption

theorem resFail_ok {d : Dev} {f : Fail} (h1 : MemOk d) : MemOk (resFail d f).dev := by
  unfold resFail
  try dsimp only
  repeat' first
    | with_reducible assumption

theorem resStatus_ok {d : Dev} {s : Status} (h1 : MemOk d) : MemOk (resStatus d s).dev := by
  unfold resStatus
  try dsimp only
  repeat' first
    | (with_reducible first | assumption | apply resFail_ok)

theorem noteTensor_ok {d : Dev} {t : Tensor} (h1 : MemOk d) : MemOk (noteTensor d t) := by
  unfold noteTensor
  try dsimp only
  repeat' first
    | (with_reducible first | assumption | apply noteRanges_ok)

theorem openTensor_ok {d : Dev} {t : Tensor} (h1 : MemOk d) : MemOk (openTensor d t) := by
  unfold openTensor
  try dsimp only
  repeat' first
    | (with_reducible first | assumption | apply openRanges_ok)

theorem bookFor_ok {d : Dev} {c : Ctx} {t : Tensor} {s : ConvSum} (h1 : MemOk d) : MemOk (bookFor d c t s) := by
  unfold bookFor
  try dsimp only
  repeat' first
    | with_reducible assumption
    | (intro _; try dsimp only)
    | (with_reducible first | apply bookConv_ok | apply ite_ok)

theorem countSaffron_ok {d : Dev} {arr : Nat} {k : SafCount} (h1 : MemOk d) : MemOk (countSaffron d arr k) := by
  unfold countSaffron
  try dsimp only
  repeat' first
    | with_reducible assumption
    | (intro _; try dsimp only)
    | (with_reducible first | apply cntAdd_ok | apply ite_ok)

theorem countVectors_ok {d : Dev} {arr n : Nat} (h1 : MemOk d) : MemOk (countVectors d arr n) := by
  unfold countVectors
  try dsimp only
  repeat' first
    | with_reducible assumption
    | (intro _; try dsimp only)
    | (with_reducible first | apply takeFree_ok | apply cntAdd_ok | apply ite_ok)

theorem spillFreeSet_ok {d : Dev} {e : Nat} (h1 : MemOk d) : MemOk (spillFreeSet d e) := by
  unfold spillFreeSet
  try dsimp only
  repeat' first
    | (with_reducible first | assumption | apply fset_ok)

theorem spillAlloc_ok {d : Dev} {k owner : Nat} {e : Dev} {e2 : _} (h0 : spillAlloc d k owner = some (e2, e))
    (h1 : MemOk d) : MemOk e := by
  unfold spillAlloc at h0
  dsimp only at h0
  split at h0
  · cases h0
  · rw [Option.map_eq_some_iff] at h0
    obtain ⟨j, -, h0⟩ := h0
    cases h0
    exact spillFreeSet_ok (takeFree_ok (w := 32) h1)

theorem spillRelease_ok {d : Dev} {e i : Nat} (h1 : MemOk d) : MemOk (spillRelease d e i) := by
  unfold spillRelease
  try dsimp only
  repeat' first
    | (with_reducible first | assumption | apply spillFreeSet_ok)
    | (simp only [mk_ok])
    | with_reducible apply ok_mem

theorem spillReleaseOwner_ok {d : Dev} {owner : Nat} (h1 : MemOk d) : MemOk (spillReleaseOwner d owner) := by
  unfold spillReleaseOwner
  try dsimp only
  repeat' first
    | (with_reducible first | assumption | apply spillFreeSet_ok)
    | (simp only [mk_ok])
    | with_reducible apply ok_mem

theorem spillFail_ok {d : Dev} {e : Nat} (h1 : MemOk d) : MemOk (spillFail d e) := by
  unfold spillFail
  try dsimp only
  repeat' first
    | (with_reducible first | assumption | apply fsat_ok)

theorem parkRelease_ok {d : Dev} {p : Park} {t v c : Nat} (h1 : MemOk d) : MemOk (parkRelease d p t v c) := by
  unfold parkRelease
  try dsimp only
  repeat' first
    | with_reducible assumption
    | (intro _; try dsimp only)
    | (with_reducible first | apply spillRelease_ok | apply ite_ok)

theorem parkStore_ok {d : Dev} {p : Park} {arr t v c : Nat} {x : SafEntry} {e : Dev} {e2 : _}
    (h0 : parkStore d p arr t v c x = .ok (e, e2)) (h1 : MemOk d) : MemOk e := by
  unfold parkStore at h0
  dsimp only at h0
  split at h0
  · cases h0
    exact store_ok h1
  · split at h0
    · cases h0
    · rename_i hs
      cases h0
      exact store_ok (store_ok (spillAlloc_ok hs h1))

theorem readOutEntry_ok {t : Tensor} {arr : Nat} {acc : Going × ConvSum} {o : LaneOut} (h1 : MemOk acc.1.dev) :
    MemOk (readOutEntry t arr acc o).1.dev := by
  unfold readOutEntry
  dsimp only
  split
  · exact h1
  · split
    · exact spillFail_ok h1
    · exact countSaffron_ok (convertEntry_ok (by assumption) h1)

theorem readOutPacked_ok {c : Ctx} {t : Tensor} {g : Going} {tiles : List TileOut} (h1 : MemOk g.dev) : MemOk
    (readOutPacked c t g tiles).dev := by
  unfold readOutPacked
  try dsimp only
  repeat' first
    | with_reducible assumption
    | (intro _; try dsimp only)
    | (with_reducible first | apply readOutEntry_ok | apply openTensor_ok | apply bookFor_ok | apply foldl_okP)

theorem readOutConvert_ok {mode : RMode} {seed : Nat} {c : Ctx} {t : Tensor} {g : Going} {tiles : List TileOut} (h1 :
    MemOk g.dev) : MemOk (readOutConvert mode seed c t g tiles).dev := by
  unfold readOutConvert
  try dsimp only
  repeat' first
    | (with_reducible first | assumption | apply writeVals_ok | apply openTensor_ok | apply bookFor_ok)

theorem countTiles_ok {vectors : TileOut → Nat} {g : Going} {tiles : List TileOut} (h1 : MemOk g.dev) : MemOk
    (countTiles vectors g tiles).dev := by
  unfold countTiles
  try dsimp only
  repeat' first
    | with_reducible assumption
    | (intro _; try dsimp only)
    | (with_reducible first | apply countVectors_ok | apply countSaffron_ok | apply foldl_okG)

theorem parityMet_ok {d : Dev} {arr : Nat} (h1 : MemOk d) : MemOk (parityMet d arr).1 := by
  unfold parityMet
  try dsimp only
  repeat' first
    | with_reducible assumption
    | (intro _; try dsimp only)
    | (with_reducible first | apply errAdd_ok | apply fsat_ok | apply foldl_ok | apply ite_ok)
    | (simp only [mk_ok])
    | with_reducible apply ok_mem

theorem parityTiles_ok {d : Dev} {tiles : List TileOut} (h1 : MemOk d) : MemOk (parityTiles d tiles).1 := by
  unfold parityTiles
  try dsimp only
  repeat' first
    | with_reducible assumption
    | (intro _; try dsimp only)
    | (with_reducible first | apply parityMet_ok | apply foldl_ok1)

theorem Going.res_ok {g : Going} (h1 : MemOk g.dev) : MemOk (Going.res g).dev := by
  unfold Going.res
  try dsimp only
  repeat' first
    | (with_reducible first | assumption | apply resFail_ok | apply resOk_ok)
    | (split; all_goals try dsimp only)

theorem releaseBanks_ok {d : Dev} {p : Park} {s : MatShape} (h1 : MemOk d) : MemOk (releaseBanks d p s) := by
  unfold releaseBanks
  try dsimp only
  repeat' first
    | with_reducible assumption
    | (intro _; try dsimp only)
    | (with_reducible first | apply parkRelease_ok | apply foldl_ok)

theorem parkTiles_ok {p : Park} {s : MatShape} {g : Going} {tiles : List TileOut} (h1 : MemOk g.dev) : MemOk (parkTiles
    p s g tiles).dev := by
  unfold parkTiles
  try dsimp only
  repeat' first
    | with_reducible assumption
    | (intro _; try dsimp only)
    | (with_reducible first | refine parkStore_ok (by assumption) ?_ | apply spillFail_ok | apply countSaffron_ok)
    | (with_reducible first | apply spillReleaseOwner_ok | apply foldl_okG | apply ite_ok)
    | (split; all_goals try dsimp only)

theorem matFinish_ok {d : Dev} {c : Ctx} {b : MatBody} {s : MatShape} {p : Option Park} {a bt : Tensor} {ct : Option
    Tensor} {lostA lostB : List Nat} {tiles : List TileOut} (h1 : MemOk d) : MemOk (matFinish d c b s p a bt ct lostA
    lostB tiles).dev := by
  unfold matFinish
  try dsimp only
  repeat' first
    | with_reducible assumption
    | (intro _; try dsimp only)
    | (with_reducible first | apply bookFor_ok | apply parityTiles_ok | apply resFail_ok | apply countTiles_ok)
    | (with_reducible first | apply Going.res_ok | apply readOutPacked_ok | apply readOutConvert_ok)
    | (with_reducible first | apply parkTiles_ok | apply ite_okR)
    | (split; all_goals try dsimp only)

theorem arraysLost_ok {d : Dev} {c : Ctx} {st : Status} {p : Option Park} {ct : Option Tensor} (h1 : MemOk d) : MemOk
    (arraysLost d c st p ct).dev := by
  unfold arraysLost
  try dsimp only
  repeat' first
    | with_reducible assumption
    | (intro _; try dsimp only)
    | (with_reducible first | apply resFail_ok | apply resStatus_ok | apply ite_okR)

theorem runMatrix_ok {slice : Bool} {d : Dev} {c : Ctx} {e : Nat} (h1 : MemOk d) : MemOk (runMatrix slice d c e).dev :=
    by
  unfold runMatrix
  try dsimp only
  repeat' first
    | with_reducible assumption
    | (intro _; try dsimp only)
    | (with_reducible first | apply resStatus_ok | apply resFail_ok | apply arraysLost_ok | apply noteTensor_ok)
    | (with_reducible first | apply matFinish_ok | apply releaseBanks_ok | apply ite_okR)
    | (split; all_goals try dsimp only)

theorem runConv_ok {d : Dev} {c : Ctx} {e : Nat} (h1 : MemOk d) : MemOk (runConv d c e).dev := by
  unfold runConv
  try dsimp only
  repeat' first
    | with_reducible assumption
    | (intro _; try dsimp only)
    | (with_reducible first | apply resFail_ok | apply resStatus_ok | apply arraysLost_ok | apply noteTensor_ok)
    | (with_reducible first | apply matFinish_ok | apply ite_okR)
    | (split; all_goals try dsimp only)

theorem accumulateOne_ok {c : Ctx} {core : Nat} {t : Tensor} {acc : OutGoing} {i : Nat} {start : Except Fail SafEntry}
    {v : Val} (h1 : MemOk acc.1.dev) : MemOk (accumulateOne c core t acc i start v).1.dev := by
  unfold accumulateOne
  try dsimp only
  repeat' first
    | with_reducible assumption
    | (intro _; try dsimp only)
    | (with_reducible first | refine setElemEntry_ok (by assumption) ?_ | apply spillFail_ok | apply countSaffron_ok)
    | with_reducible apply ite_okP
    | (split; all_goals try dsimp only)

theorem accumulate_ok {c : Ctx} {core : Nat} {t : Tensor} {acc : OutGoing} {xs : List Val} (h1 : MemOk acc.1.dev) :
    MemOk (accumulate c core t acc xs).1.dev := by
  unfold accumulate
  try dsimp only
  repeat' first
    | with_reducible assumption
    | (intro _; try dsimp only)
    | (with_reducible first | apply accumulateOne_ok | apply foldl_okP)

theorem writeOut_ok {d : Dev} {c : Ctx} {core : Nat} {mode : RMode} {seed : Nat} {t : Tensor} {xs : List (Prod Nat Val)}
    (h1 : MemOk d) : MemOk (writeOut d c core mode seed t xs).1.dev := by
  unfold writeOut
  try dsimp only
  repeat' first
    | with_reducible assumption
    | (intro _; try dsimp only)
    | (with_reducible first | apply accumulateOne_ok | apply writeVals_ok | apply foldl_okP | apply ite_okP)

theorem OutGoing.book_ok {acc : OutGoing} {c : Ctx} {t : Tensor} (h1 : MemOk acc.1.dev) : MemOk (OutGoing.book acc c
    t).dev := by
  unfold OutGoing.book
  try dsimp only
  repeat' first
    | (with_reducible first | assumption | apply bookFor_ok)

theorem clearTensor_ok {d : Dev} {t : Tensor} (h1 : MemOk d) : MemOk (clearTensor d t) := by
  unfold clearTensor
  try dsimp only
  repeat' first
    | with_reducible assumption
    | (intro _; try dsimp only)
    | (with_reducible first | apply setElemCode_ok | apply foldl_ok)

theorem runRow_ok {d : Dev} {c : Ctx} {e : Nat} (h1 : MemOk d) : MemOk (runRow d c e).dev := by
  unfold runRow
  try dsimp only
  repeat' first
    | with_reducible assumption
    | (intro _; try dsimp only)
    | (with_reducible first | apply resStatus_ok | apply resFail_ok | apply noteTensor_ok | apply noteRead_ok)
    | (with_reducible first | apply openTensor_ok | apply OutGoing.book_ok | apply writeOut_ok | apply store_ok)
    | (with_reducible first | apply openRanges_ok | apply clearTensor_ok | apply cntAdd_ok | apply accumulate_ok)
    | (with_reducible first | apply Going.res_ok | apply foldl_ok | apply foldl_okP | apply ite_ok | apply ite_okR)
    | with_reducible apply ite_okG
    | (simp only [mk_ok])
    | (split; all_goals try dsimp only)

theorem runVec_ok {d : Dev} {c : Ctx} {e : Nat} (h1 : MemOk d) : MemOk (runVec d c e).dev := by
  unfold runVec
  try dsimp only
  repeat' first
    | with_reducible assumption
    | (intro _; try dsimp only)
    | (with_reducible first | apply resStatus_ok | apply resFail_ok | apply noteTensor_ok | apply noteRead_ok)
    | (with_reducible first | apply OutGoing.book_ok | apply writeOut_ok | apply openTensor_ok | apply Going.res_ok)
    | (with_reducible first | apply store_ok | apply openRanges_ok | apply foldl_ok | apply ite_ok | apply ite_okR)
    | (split; all_goals try dsimp only)

theorem engineBytes_ok {d : Dev} {e n : Nat} (h1 : MemOk d) : MemOk (engineBytes d e n) := by
  unfold engineBytes
  try dsimp only
  repeat' first
    | (with_reducible first | assumption | apply cntAdd_ok)

theorem engineFailed_ok {d : Dev} {e : Nat} (h1 : MemOk d) : MemOk (engineFailed d e) := by
  unfold engineFailed
  try dsimp only
  repeat' first
    | (with_reducible first | assumption | apply cntAdd_ok)

theorem copyPieces_ok {d : Dev} {src dst : Nat} {ps : List (Prod Piece Nat)} (h1 : MemOk d) : MemOk (copyPieces d src
    dst ps).1 := by
  unfold copyPieces
  try dsimp only
  repeat' first
    | with_reducible assumption
    | (intro _; try dsimp only)
    | (with_reducible first | apply engineFailed_ok | apply takeFree_ok | apply engineBytes_ok | apply store_ok)
    | (with_reducible first | apply noteAccess_ok | apply foldl_ok | apply ite_ok)
    | (split; all_goals try dsimp only)

theorem runCopyRaw_ok {d : Dev} {c : Ctx} {b : CopyBody} (h1 : MemOk d) : MemOk (runCopyRaw d c b).dev := by
  unfold runCopyRaw
  try dsimp only
  repeat' first
    | with_reducible assumption
    | (intro _; try dsimp only)
    | (with_reducible first | apply resStatus_ok | apply noteRead_ok | apply copyPieces_ok | apply resFail_ok)
    | (with_reducible first | apply resOk_ok | apply ite_okR | apply fst_ok (by assumption))
    | (split; all_goals try dsimp only)

theorem writeBi8Block_ok {d : Dev} {t : Tensor} {n b : Nat} {xs : List Val} (h1 : MemOk d) : MemOk (writeBi8Block d t n
    b xs) := by
  unfold writeBi8Block
  try dsimp only
  repeat' first
    | (with_reducible first | assumption | apply store_ok)

theorem writeBi8_ok {d : Dev} {t : Tensor} {n : Nat} {keep : Nat → Bool} {vals : List Val} (h1 : MemOk d) : MemOk
    (writeBi8 d t n keep vals).1 := by
  unfold writeBi8
  try dsimp only
  repeat' first
    | with_reducible assumption
    | (intro _; try dsimp only)
    | (with_reducible first | apply writeBi8Block_ok | apply foldl_ok1 | apply ite_ok1)

theorem survivors_ok {d : Dev} {ns nt : Nat} {s t : Tensor} {idx : List Nat} (h1 : MemOk d) : MemOk (survivors d ns nt s
    t idx).1 := by
  unfold survivors
  try dsimp only
  repeat' first
    | with_reducible assumption
    | (intro _; try dsimp only)
    | (with_reducible first | apply takeFree_ok | apply foldl_ok1 | apply ite_ok1)

theorem runCopyDesc_ok {d : Dev} {c : Ctx} {b : CopyBody} (h1 : MemOk d) : MemOk (runCopyDesc d c b).dev := by
  unfold runCopyDesc
  try dsimp only
  repeat' first
    | with_reducible assumption
    | (intro _; try dsimp only)
    | (with_reducible first | apply resStatus_ok | apply resFail_ok | apply noteTensor_ok | apply writeBi8_ok)
    | (with_reducible first | apply writeVals_ok | apply survivors_ok | apply openRanges_ok | apply engineBytes_ok)
    | (with_reducible first | apply engineFailed_ok | apply bookFor_ok | apply resOk_ok | apply foldl_ok)
    | (with_reducible first | apply ite_ok | apply ite_ok1 | apply ite_okR)
    | (split; all_goals try dsimp only)

theorem runCopy_ok {d : Dev} {c : Ctx} {e : Nat} (h1 : MemOk d) : MemOk (runCopy d c e).dev := by
  unfold runCopy
  try dsimp only
  repeat' first
    | with_reducible assumption
    | (intro _; try dsimp only)
    | (with_reducible first | apply resStatus_ok | apply runCopyRaw_ok | apply runCopyDesc_ok | apply ite_okR)

theorem runMcast_ok {d : Dev} {c : Ctx} {e : Nat} (h1 : MemOk d) : MemOk (runMcast d c e).dev := by
  unfold runMcast
  try dsimp only
  repeat' first
    | with_reducible assumption
    | (intro _; try dsimp only)
    | (with_reducible first | apply resStatus_ok | apply noteRead_ok | apply resFail_ok | apply store_ok)
    | (with_reducible first | apply noteAccess_ok | apply resOk_ok | apply foldl_ok | apply ite_okR)
    | (split; all_goals try dsimp only)

theorem fennelDone_ok {d : Dev} {die n : Nat} (h1 : MemOk d) : MemOk (fennelDone d die n) := by
  unfold fennelDone
  try dsimp only
  repeat' first
    | (with_reducible first | assumption | apply cntAdd_ok)

theorem fennelSome_ok {d : Dev} {die : Nat} (h1 : MemOk d) : MemOk (fennelSome d die) := by
  unfold fennelSome
  try dsimp only
  repeat' first
    | (with_reducible first | assumption | apply takeFree_ok | apply fennelDone_ok)

theorem runFennel_ok {d : Dev} {c : Ctx} {e : Nat} (h1 : MemOk d) : MemOk (runFennel d c e).dev := by
  unfold runFennel
  try dsimp only
  repeat' first
    | with_reducible assumption
    | (intro _; try dsimp only)
    | (with_reducible first | apply resStatus_ok | apply resWait_ok | apply noteRead_ok | apply resFail_ok)
    | with_reducible apply ite_okR
    | (simp only [mk_ok])
    | with_reducible apply ok_mem
    | (split; all_goals try dsimp only)

theorem fennelLand_ok {d : Dev} {port : Nat} {x : FennelXfer} (h1 : MemOk d) : MemOk (fennelLand d port x).dev := by
  unfold fennelLand
  try dsimp only
  repeat' first
    | (with_reducible first | assumption | apply resFail_ok | apply resOk_ok | apply fennelDone_ok | apply store_ok)
    | with_reducible apply noteAccess_ok
    | (simp only [mk_ok])
    | with_reducible apply ok_mem
    | (split; all_goals try dsimp only)

end Sys2Proof.Machine
end

