-- ==== Sys2Proof/Laws/KeepUpdate.lean ====
section
/-! SUPPORT. Every operation keeps the canonical form of the memory: the commands in flight and the update unit. -/
namespace Sys2Proof.Machine

theorem updCmd_ok {d : Dev} {ring seq : Nat} {f : Cmd → Cmd} (h1 : MemOk d) : MemOk (updCmd d ring seq f) := by
  unfold updCmd
  try dsimp only
  repeat' first
    | with_reducible assumption
    | (simp only [mk_ok])
    | with_reducible apply ok_mem

theorem dropCmd_ok {d : Dev} {ring seq : Nat} (h1 : MemOk d) : MemOk (dropCmd d ring seq) := by
  unfold dropCmd
  try dsimp only
  repeat' first
    | with_reducible assumption
    | (simp only [mk_ok])
    | with_reducible apply ok_mem

theorem finishCmd_ok {d : Dev} {ring seq status info : Nat} (h1 : MemOk d) : MemOk (finishCmd d ring seq status info) :=
    by
  unfold finishCmd
  try dsimp only
  repeat' first
    | (with_reducible first | assumption | apply updCmd_ok | apply condRaise_ok)
    | (split; all_goals try dsimp only)

theorem finishWith_ok {d : Dev} {c : Cmd} {s : Status} (h1 : MemOk d) : MemOk (finishWith d c s) := by
  unfold finishWith
  try dsimp only
  repeat' first
    | (with_reducible first | assumption | apply finishCmd_ok)

theorem abortTaken_ok {d : Dev} {p : Cmd → Bool} (h1 : MemOk d) : MemOk (abortTaken d p) := h1

theorem updGroup_ok {d : Dev} {g : Nat} {f : Group → Group} (h1 : MemOk d) : MemOk (updGroup d g f) := by
  unfold updGroup
  try dsimp only
  repeat' first
    | with_reducible assumption
    | (simp only [mk_ok])
    | with_reducible apply ok_mem

theorem touchAcc_ok {d : Dev} {g : Option Nat} (h1 : MemOk d) : MemOk (touchAcc d g) := by
  unfold touchAcc
  try dsimp only
  repeat' first
    | (with_reducible first | assumption | apply updGroup_ok)
    | (simp only [mk_ok])
    | with_reducible apply ok_mem
    | (split; all_goals try dsimp only)

theorem bodyRan_ok {d0 d1 : Dev} {c : Cmd} (h1 : MemOk d0) (h2 : MemOk d1) : MemOk (bodyRan d0 d1 c) := by
  unfold bodyRan
  try dsimp only
  repeat' first
    | (with_reducible first | assumption | apply touchAcc_ok | apply updCmd_ok)

theorem updLink_ok {d : Dev} {n : Nat} {f : Link → Link} (h1 : MemOk d) : MemOk (updLink d n f) := by
  unfold updLink
  try dsimp only
  repeat' first
    | with_reducible assumption
    | (simp only [mk_ok])
    | with_reducible apply ok_mem

theorem transmit_ok {d : Dev} {n : Nat} {m : Message} (h1 : MemOk d) : MemOk (transmit d n m) := by
  unfold transmit
  try dsimp only
  repeat' first
    | (with_reducible first | assumption | apply updLink_ok | apply emit_ok)

theorem onLink_ok {d : Dev} {n : Nat} {m : Message} (h1 : MemOk d) : MemOk (onLink d n m) := by
  unfold onLink
  try dsimp only
  repeat' first
    | with_reducible assumption
    | (intro _; try dsimp only)
    | (with_reducible first | apply transmit_ok | apply updLink_ok | apply ite_ok)

theorem drainLink_ok {d : Dev} {n : Nat} (h1 : MemOk d) : MemOk (drainLink d n) := by
  unfold drainLink
  split
  · exact h1
  · exact foldl_ok (updLink_ok h1) (fun _ _ h => onLink_ok h)

theorem sendMsg_ok {d : Dev} {dst : Nat} {p : Payload} (h1 : MemOk d) : MemOk (sendMsg d dst p).1 := by
  unfold sendMsg
  try dsimp only
  repeat' first
    | (with_reducible first | assumption | apply onLink_ok | apply fsat_ok)
    | (split; all_goals try dsimp only)

theorem sendQuiet_ok {d : Dev} {dst : Nat} {p : Payload} (h1 : MemOk d) : MemOk (sendQuiet d dst p) := by
  unfold sendQuiet
  try dsimp only
  repeat' first
    | (with_reducible first | assumption | apply sendMsg_ok)

theorem failedBlock_ok {d : Dev} {status a n : Nat} (h1 : MemOk d) : MemOk (failedBlock d status a n).2 := by
  unfold failedBlock
  split <;> assumption

theorem failCmd_ok {d : Dev} {ring seq tag status a n : Nat} (h1 : MemOk d) : MemOk (failCmd d ring seq tag status a n) :=
  updCmd_ok (failedBlock_ok h1)

theorem issueReq_ok {d : Dev} {ring seq peer dest len : Nat} {mk : Nat → Payload} (h1 : MemOk d) : MemOk (issueReq d
    ring seq peer dest len mk) := by
  unfold issueReq
  try dsimp only
  repeat' first
    | (with_reducible first | assumption | apply updCmd_ok | apply sendMsg_ok | apply failCmd_ok)
    | (simp only [mk_ok])
    | (with_reducible first | apply ok_mem | apply fst_ok (by assumption))
    | (split; all_goals try dsimp only)

theorem requestReads_ok {d : Dev} {ring seq a n : Nat} (h1 : MemOk d) : MemOk (requestReads d ring seq a n) := by
  unfold requestReads
  try dsimp only
  repeat' first
    | with_reducible assumption
    | (intro _; try dsimp only)
    | (with_reducible first | apply issueReq_ok | apply foldl_ok)

theorem dropStaged_ok {d : Dev} (h1 : MemOk d) : MemOk (dropStaged d) :=
  memDrop_memOk (p := fun a => decide (0x6000000000000000 ≤ a)) h1

theorem flushWrites_ok {d : Dev} {ring seq : Nat} (h1 : MemOk d) : MemOk (flushWrites d ring seq) := by
  unfold flushWrites
  try dsimp only
  repeat' first
    | with_reducible assumption
    | (intro _; try dsimp only)
    | (with_reducible first | apply issueReq_ok | apply dropStaged_ok | apply foldl_ok)

theorem stageReads_ok {d : Dev} {c : Cmd} (h1 : MemOk d) : MemOk (stageReads d c) := by
  unfold stageReads
  try dsimp only
  repeat' first
    | with_reducible assumption
    | (intro _; try dsimp only)
    | (with_reducible first | apply memWrite_ok | apply foldl_ok)
    | (simp only [mk_ok])
    | with_reducible apply ok_mem

theorem applySignal_ok {d : Dev} {ring seq : Nat} {s : Sig} {err : Bool} (h1 : MemOk d) : MemOk (applySignal d ring seq
    s err) := by
  unfold applySignal
  try dsimp only
  repeat' first
    | with_reducible assumption
    | (intro _; try dsimp only)
    | (with_reducible first | apply issueReq_ok | apply semApply_ok | apply ite_ok)

theorem updShard_ok {d : Dev} {h : Nat} {f : Shard → Shard} (h1 : MemOk d) : MemOk (updShard d h f) := by
  unfold updShard
  try dsimp only
  repeat' first
    | with_reducible assumption
    | (simp only [mk_ok])
    | with_reducible apply ok_mem

theorem putLedger_ok {d : Dev} {h : Nat} {f : Ledger → Ledger} (h1 : MemOk d) : MemOk (putLedger d h f) := by
  unfold putLedger
  try dsimp only
  repeat' first
    | (with_reducible first | assumption | apply updShard_ok | apply store_ok)
    | (split; all_goals try dsimp only)

theorem arrSet_ok {d : Dev} {base n i v : Nat} (h1 : MemOk d) : MemOk (arrSet d base n i v) := by
  unfold arrSet
  try dsimp only
  repeat' first
    | (with_reducible first | assumption | apply store_ok)

theorem UpdAcc.consume_ok {a : UpdAcc} {s : Shard} {x : Nat} {g : Val} {cl : Bool} (h1 : MemOk a.dev) : MemOk
    (UpdAcc.consume a s x g cl).dev := by
  unfold UpdAcc.consume
  try dsimp only
  repeat' first
    | with_reducible assumption

theorem UpdAcc.keep_ok {a : UpdAcc} {field x code : Nat} (h1 : MemOk a.dev) : MemOk (UpdAcc.keep a field x code).dev :=
    by
  unfold UpdAcc.keep
  try dsimp only
  repeat' first
    | with_reducible assumption

theorem momentElem_ok {s : Shard} {p q : Nat} {a : UpdAcc} {x : Nat} (h1 : MemOk a.dev) :
    MemOk (momentElem s p q a x).dev := by
  unfold momentElem
  extract_lets b d1
  have hd : MemOk d1 := arrSet_ok h1
  split
  · show MemOk (if b.hasV then _ else d1)
    split
    · exact arrSet_ok hd
    · exact hd
  · generalize gradPair a.dev s p x = g
    obtain ⟨g1, cl, g⟩ := g
    dsimp only
    have h2 : MemOk (arrSet a.dev (q + b.offM) b.momBytes x
      (momConvert s x (updM b (fieldM (a.consume s x g1 cl).dev b p x) g)).code) := arrSet_ok h1
    split
    · exact arrSet_ok h2
    · exact h2

theorem statTile_ok {s : Shard} {p q : Nat} {a : UpdAcc} {t : Nat} (h1 : MemOk a.dev) :
    MemOk (statTile s p q a t).dev := by
  unfold statTile
  extract_lets b sq sum put rows cols
  exact foldl_okU h1 (fun e x h => arrSet_ok h)

theorem putCopyBlock_ok {s : Shard} {trans : Bool} {q : Nat} {a : UpdAcc} {k : Nat} (h1 : MemOk a.dev) : MemOk
    (putCopyBlock s trans q a k).dev := by
  unfold putCopyBlock
  try dsimp only
  repeat' first
    | with_reducible assumption
    | (intro _; try dsimp only)
    | (with_reducible first | apply arrSet_ok | apply foldl_ok | apply ite_ok)

theorem putCopies_ok {s : Shard} {q : Nat} {a : UpdAcc} {blocks : List Nat} {byLine : Bool} (h1 : MemOk a.dev) : MemOk
    (putCopies s q a blocks byLine).dev := by
  unfold putCopies
  try dsimp only
  repeat' first
    | with_reducible assumption
    | (intro _; try dsimp only)
    | (with_reducible first | apply putCopyBlock_ok | apply foldl_okU | apply ite_okU)

theorem unitStatus_ok {d : Dev} {u : Nat} (h1 : MemOk d) : MemOk (unitStatus d u) := by
  unfold unitStatus
  try dsimp only
  repeat' first
    | (with_reducible first | assumption | apply fset_ok)

theorem bookUpd_ok {a : UpdAcc} {s : Shard} (h1 : MemOk a.dev) : MemOk (bookUpd a s) := by
  unfold bookUpd
  try dsimp only
  repeat' first
    | with_reducible assumption
    | (intro _; try dsimp only)
    | (with_reducible first | apply fsat_ok | apply condRaise_ok | apply updShard_ok | apply ite_ok)

theorem unitRead_ok {d : Dev} {s : Shard} {rs : List (Prod Nat Nat)} (h1 : MemOk d) : MemOk (unitRead d s rs) := by
  unfold unitRead
  try dsimp only
  repeat' first
    | (with_reducible first | assumption | apply noteRanges_ok)
    | (simp only [mk_ok])
    | with_reducible apply ok_mem

theorem shardUnable_ok {d : Dev} {s : Shard} (h1 : MemOk d) : MemOk (shardUnable d s) := by
  unfold shardUnable
  try dsimp only
  repeat' first
    | (with_reducible first | assumption | apply condRaise_ok | apply unitStatus_ok | apply updShard_ok)

theorem issuePhase_ok {d : Dev} {s : Shard} {ph : Nat} {again : Bool} (h1 : MemOk d) : MemOk (issuePhase d s ph again)
    := by
  unfold issuePhase
  try dsimp only
  repeat' first
    | with_reducible assumption
    | (intro _; try dsimp only)
    | (with_reducible first | apply statTile_ok | apply momentElem_ok | apply UpdAcc.consume_ok | apply arrSet_ok)
    | (with_reducible first | apply putCopies_ok | apply bookUpd_ok | apply fwrap_ok | apply updShard_ok)
    | (with_reducible first | apply unitStatus_ok | apply putLedger_ok | apply foldl_okU | apply ite_ok)
    | with_reducible apply ite_okU
    | (split; all_goals try dsimp only)

theorem copyLine_ok {s : Shard} {p q : Nat} {d : Dev} {l : Nat} (h1 : MemOk d) : MemOk (copyLine s p q d l) := by
  unfold copyLine
  try dsimp only
  repeat' first
    | (with_reducible first | assumption | apply store_ok)

theorem finishSgd_ok {d : Dev} {s : Shard} (h1 : MemOk d) : MemOk (finishSgd d s) := by
  unfold finishSgd
  try dsimp only
  repeat' first
    | with_reducible assumption
    | (intro _; try dsimp only)
    | (with_reducible first | apply copyLine_ok | apply putCopies_ok | apply fwrap_ok | apply bookUpd_ok)
    | (with_reducible first | apply updShard_ok | apply putLedger_ok | apply foldl_ok)

theorem startUnit_ok {d : Dev} {h : Nat} (h1 : MemOk d) : MemOk (startUnit d h) := by
  unfold startUnit
  try dsimp only
  repeat' first
    | with_reducible assumption
    | (intro _; try dsimp only)
    | (with_reducible first | apply unitStatus_ok | apply finishSgd_ok | apply shardUnable_ok | apply unitRead_ok)
    | (with_reducible first | apply updShard_ok | apply issuePhase_ok | apply ite_ok)
    | (split; all_goals try dsimp only)

theorem wakeUnit_ok {d : Dev} {u : Nat} (h1 : MemOk d) : MemOk (wakeUnit d u) := by
  unfold wakeUnit
  try dsimp only
  repeat' first
    | with_reducible assumption
    | (intro _; try dsimp only)
    | (with_reducible first | apply startUnit_ok | apply foldl_ok)

theorem finishUnit_ok {d : Dev} {s : Shard} (h1 : MemOk d) : MemOk (finishUnit d s) := by
  unfold finishUnit
  try dsimp only
  repeat' first
    | with_reducible assumption
    | (intro _; try dsimp only)
    | (with_reducible first | apply putLedger_ok | apply updShard_ok | apply fsat_ok | apply wakeUnit_ok)
    | (with_reducible first | apply unitStatus_ok | apply ite_ok)

theorem phaseDone_ok {d : Dev} {h : Nat} (h1 : MemOk d) : MemOk (phaseDone d h) := by
  unfold phaseDone
  try dsimp only
  repeat' first
    | with_reducible assumption
    | (intro _; try dsimp only)
    | (with_reducible first | apply putLedger_ok | apply wakeUnit_ok | apply issuePhase_ok | apply finishUnit_ok)
    | with_reducible apply ite_ok
    | (split; all_goals try dsimp only)

theorem deliverGrad_ok {d : Dev} {h x code : Nat} (h1 : MemOk d) : MemOk (deliverGrad d h x code) := by
  unfold deliverGrad
  try dsimp only
  repeat' first
    | with_reducible assumption
    | (intro _; try dsimp only)
    | (with_reducible first | apply updShard_ok | apply ite_ok)
    | (split; all_goals try dsimp only)

theorem deliveryFailed_ok {d : Dev} {h : Nat} (h1 : MemOk d) : MemOk (deliveryFailed d h) := by
  unfold deliveryFailed
  try dsimp only
  repeat' first
    | (with_reducible first | assumption | apply updShard_ok)

theorem openShard_ok {tag c : Nat} {d : Dev} {h : Nat} (h1 : MemOk d) : MemOk (openShard tag c d h) := by
  unfold openShard
  try dsimp only
  repeat' first
    | (with_reducible first | assumption | apply putLedger_ok | apply updShard_ok)
    | (split; all_goals try dsimp only)

theorem interruptShard_ok {d : Dev} {s : Shard} (h1 : MemOk d) : MemOk (interruptShard d s) := by
  unfold interruptShard
  try dsimp only
  repeat' first
    | (with_reducible first | assumption | apply condRaise_ok | apply updShard_ok | apply unitStatus_ok)
    | with_reducible apply fsat_ok

theorem resumeShard_ok {t0 : Nat} {d : Dev} {h : Nat} (h1 : MemOk d) : MemOk (resumeShard t0 d h) := by
  unfold resumeShard
  try dsimp only
  repeat' first
    | with_reducible assumption
    | (intro _; try dsimp only)
    | (with_reducible first | apply updShard_ok | apply interruptShard_ok | apply issuePhase_ok | apply ite_ok)
    | (split; all_goals try dsimp only)

theorem wakeUnits_ok {d : Dev} (h1 : MemOk d) : MemOk (wakeUnits d) := by
  unfold wakeUnits
  try dsimp only
  repeat' first
    | with_reducible assumption
    | (intro _; try dsimp only)
    | (with_reducible first | apply wakeUnit_ok | apply foldl_ok)

theorem writeCommit_ok {d : Dev} {b : Bind} {r : CommitRec} (h1 : MemOk d) : MemOk (writeCommit d b r).1 := by
  unfold writeCommit
  try dsimp only
  repeat' first
    | with_reducible assumption
    | (intro _; try dsimp only)
    | (with_reducible first | apply store_ok | apply ite_ok1)

theorem commitShard_ok {tag mask verdict : Nat} {d : Dev} {h : Nat} (h1 : MemOk d) : MemOk (commitShard tag mask verdict
    d h).1 := by
  unfold commitShard
  try dsimp only
  repeat' first
    | with_reducible assumption
    | (intro _; try dsimp only)
    | (with_reducible first | apply putLedger_ok | apply writeCommit_ok | apply updShard_ok | apply ite_ok1)
    | (split; all_goals try dsimp only)

theorem scrubCopy_ok {s : Shard} {p l : Nat} {trans : Bool} {d : Dev} (h1 : MemOk d) : MemOk (scrubCopy s p l trans d)
    := by
  unfold scrubCopy
  try dsimp only
  repeat' first
    | with_reducible assumption
    | (intro _; try dsimp only)
    | (with_reducible first | apply putCopyBlock_ok | apply nutmeg_ok | apply fsat_ok | apply foldl_okU)
    | with_reducible apply ite_ok

theorem scrubShard_ok {d : Dev} {h : Nat} (h1 : MemOk d) : MemOk (scrubShard d h) := by
  unfold scrubShard
  try dsimp only
  repeat' first
    | with_reducible assumption
    | (intro _; try dsimp only)
    | (with_reducible first | apply scrubCopy_ok | apply fwrap_ok | apply updShard_ok | apply ite_ok)
    | (split; all_goals try dsimp only)

theorem zeroEdges_ok {d : Dev} {b : Bind} {p : Nat} (h1 : MemOk d) : MemOk (zeroEdges d b p) := by
  unfold zeroEdges
  try dsimp only
  repeat' first
    | with_reducible assumption
    | (intro _; try dsimp only)
    | (with_reducible first | apply arrSet_ok | apply foldl_ok | apply ite_ok)

theorem raiseRef_ok {d : Dev} {g tag : Nat} (h1 : MemOk d) : MemOk (raiseRef d g tag) := by
  unfold raiseRef
  try dsimp only
  repeat' first
    | (with_reducible first | assumption | apply updGroup_ok)

theorem twinPlanes_ok {d : Dev} {b : Bind} {p : Nat} (h1 : MemOk d) : MemOk (twinPlanes d b p) := by
  unfold twinPlanes
  try dsimp only
  repeat' first
    | with_reducible assumption
    | (intro _; try dsimp only)
    | (with_reducible first | apply store_ok | apply ite_ok)

theorem bindInit_ok {d : Dev} {b : Bind} {e : Dev} {e2 : _} (h0 : bindInit d b = .ok (e, e2)) (h1 : MemOk d) : MemOk e := by
  unfold bindInit at h0
  split at h0
  · cases h0
  · dsimp only at h0
    split at h0
    · rename_i hw
      injection h0 with h0
      injection h0 with h0 _
      rw [← h0]
      exact fst_ok hw (writeCommit_ok (twinPlanes_ok (putCopies_ok (zeroEdges_ok (noteRead_ok h1)))))
    · cases h0

theorem bindResume_ok {d : Dev} {b : Bind} {e : Dev} {e2 : _} (h0 : bindResume d b = .ok (e, e2)) (h1 : MemOk d) : MemOk e := by
  unfold bindResume at h0
  split at h0
  · cases h0
  · split at h0
    · cases h0
    · split at h0
      · cases h0
        exact twinPlanes_ok (noteRead_ok (noteRead_ok (noteRead_ok h1)))
      · cases h0

theorem bindPlanes_ok {d : Dev} {b : Bind} {e : Dev} {e2 : _} (h0 : bindPlanes d b = .ok (e, e2)) (h1 : MemOk d) : MemOk e := by
  unfold bindPlanes at h0
  split at h0
  · exact bindResume_ok h0 h1
  · exact bindInit_ok h0 h1

theorem runBind_ok {d : Dev} {c : Ctx} {e : Nat} (h1 : MemOk d) : MemOk (runBind d c e).dev := by
  unfold runBind
  try dsimp only
  repeat' first
    | with_reducible assumption
    | (intro _; try dsimp only)
    | (with_reducible first | apply resStatus_ok | apply resFail_ok | refine bindPlanes_ok (by assumption) ?_)
    | (with_reducible first | apply unitStatus_ok | apply raiseRef_ok | apply resOk_ok | apply ite_ok)
    | with_reducible apply ite_okR
    | (simp only [mk_ok])
    | with_reducible apply ok_mem
    | (split; all_goals try dsimp only)

theorem runUnbind_ok {d : Dev} {c : Ctx} {e : Nat} (h1 : MemOk d) : MemOk (runUnbind d c e).dev := by
  unfold runUnbind
  try dsimp only
  repeat' first
    | with_reducible assumption
    | (intro _; try dsimp only)
    | (with_reducible first | apply resOk_ok | apply unitStatus_ok | apply ite_okR)
    | (simp only [mk_ok])
    | with_reducible apply ok_mem
    | (split; all_goals try dsimp only)

end Sys2Proof.Machine
end

