-- ==== Sys2Proof/Laws/KeepFabric.lean ====
section
/-! SUPPORT. Every operation keeps the canonical form of the memory: trees, collectives, links and plans. -/
namespace Sys2Proof.Machine

theorem runTreeLoad_ok {d : Dev} {c : Ctx} {e : Nat} (h1 : MemOk d) : MemOk (runTreeLoad d c e).dev := by
  unfold runTreeLoad
  try dsimp only
  repeat' first
    | with_reducible assumption
    | (intro _; try dsimp only)
    | (with_reducible first | apply resFail_ok | apply resStatus_ok | apply fset_ok | apply resOk_ok | apply ite_okR)
    | (simp only [mk_ok])
    | with_reducible apply ok_mem
    | (split; all_goals try dsimp only)

theorem runRouteLoad_ok {d : Dev} {c : Ctx} {e : Nat} (h1 : MemOk d) : MemOk (runRouteLoad d c e).dev := by
  unfold runRouteLoad
  try dsimp only
  repeat' first
    | with_reducible assumption
    | (intro _; try dsimp only)
    | (with_reducible first | apply resFail_ok | apply resStatus_ok | apply resOk_ok | apply regSet_ok)
    | (with_reducible first | apply foldl_ok | apply ite_okR)
    | (split; all_goals try dsimp only)

theorem packHeld_ok {d : Dev} {k i : Nat} {s : SafEntry} {e : Dev} {e2 : _} (h0 : packHeld d k i s = some (e2, e))
    (h1 : MemOk d) : MemOk e := by
  unfold packHeld at h0
  split at h0
  · cases h0
    exact h1
  · rw [Option.map_eq_some_iff] at h0
    obtain ⟨r, hr, h0⟩ := h0
    injection h0 with _ h0
    rw [← h0]
    exact store_ok (spillAlloc_ok (e2 := r.1) hr h1)

theorem releaseParts_ok {d : Dev} {mode : Nat} {xs : List Nat} (h1 : MemOk d) : MemOk (releaseParts d mode xs) := by
  unfold releaseParts
  try dsimp only
  repeat' first
    | with_reducible assumption
    | (intro _; try dsimp only)
    | (with_reducible first | apply spillRelease_ok | apply foldl_ok | apply ite_ok)

theorem packParts_ok {k : Nat} {ss : List SafEntry} : ∀ {i : Nat} {acc : Dev × List Nat} {e : Dev} {e2 : _},
    packParts k i acc ss = some (e, e2) → MemOk acc.1 → MemOk e := by
  induction ss with
  | nil => intro i acc e e2 h0 h1; cases h0; exact h1
  | cons s rest ih =>
    intro i acc e e2 h0 h1
    unfold packParts at h0
    split at h0
    · cases h0
    · exact ih h0 (packHeld_ok (by assumption) h1)

theorem putCode_ok {d : Dev} {t : Tensor} {i : Nat} {code : Nat} {e : Dev} (h0 : putCode d t i code = .ok e)
    (h1 : MemOk d) : MemOk e := by
  unfold putCode at h0
  dsimp only at h0
  split at h0
  · split at h0
    · rename_i hs
      cases h0
      exact setElemEntry_ok hs h1
    · cases h0
  · split at h0
    · split at h0
      · cases h0
        exact store_ok (setElemCode_ok h1)
      · cases h0
        exact setElemCode_ok h1
    · cases h0
      exact setElemCode_ok h1

theorem putCodes_ok {t : Tensor} {xs : List (Nat × Nat)} : ∀ {d e : Dev}, putCodes d t xs = .ok e → MemOk d → MemOk e := by
  induction xs with
  | nil => intro d e h0 h1; cases h0; exact h1
  | cons x rest ih =>
    intro d e h0 h1
    unfold putCodes at h0
    split at h0
    · exact ih h0 (putCode_ok (by assumption) h1)
    · cases h0

theorem deliverLines_ok {d : Dev} {t : Tensor} {xs : List (Prod Nat Nat)} (h1 : MemOk d) : MemOk (deliverLines d t xs)
    := by
  unfold deliverLines
  try dsimp only
  repeat' first
    | with_reducible assumption
    | (intro _; try dsimp only)
    | (with_reducible first | apply deliverGrad_ok | apply startUnit_ok | apply foldl_ok)
    | (split; all_goals try dsimp only)

theorem endRun_ok {d : Dev} {r : CollRun} {status info : Nat} (h1 : MemOk d) : MemOk (endRun d r status info) := by
  unfold endRun
  try dsimp only
  repeat' first
    | with_reducible assumption
    | (intro _; try dsimp only)
    | (with_reducible first | apply deliveryFailed_ok | apply finishCmd_ok | apply flushWrites_ok | apply foldl_ok)
    | (simp only [mk_ok])
    | with_reducible apply ok_mem

theorem failRuns_ok {d : Dev} {p : CollRun → Bool} {s : Status} (h1 : MemOk d) : MemOk (failRuns d p s) := by
  unfold failRuns
  try dsimp only
  repeat' first
    | with_reducible assumption
    | (intro _; try dsimp only)
    | (with_reducible first | apply endRun_ok | apply foldl_ok)

theorem runGot_ok {d : Dev} {r : CollRun} {j info : Nat} (h1 : MemOk d) : MemOk (runGot d r j info) := by
  unfold runGot
  try dsimp only
  repeat' first
    | with_reducible assumption
    | (intro _; try dsimp only)
    | (with_reducible first | apply endRun_ok | apply ite_ok)
    | (simp only [mk_ok])
    | with_reducible apply ok_mem

theorem markDigest_ok {d : Dev} {comm digest : Nat} (h1 : MemOk d) : MemOk (markDigest d comm digest) := by
  unfold markDigest
  try dsimp only
  repeat' first
    | with_reducible assumption
    | (intro _; try dsimp only)
    | (with_reducible first | apply nutmeg_ok | apply failRuns_ok | apply fset_ok | apply ite_ok)

theorem chunkWaits_ok {d : Dev} {c : CollChunk} (h1 : MemOk d) : MemOk (chunkWaits d c) := by
  unfold chunkWaits
  try dsimp only
  repeat' first
    | with_reducible assumption
    | (simp only [mk_ok])
    | with_reducible apply ok_mem

theorem chunkFails_ok {d : Dev} {r : CollRun} {c : CollChunk} {f : Fail} (h1 : MemOk d) : MemOk (chunkFails d r c f) :=
    by
  unfold chunkFails
  try dsimp only
  repeat' first
    | with_reducible assumption
    | (intro _; try dsimp only)
    | (with_reducible first | apply chunkWaits_ok | apply endRun_ok | apply ite_ok)

theorem chunkPuts_ok {d : Dev} {cmd : Cmd} {t : Tensor} {r : CollRun} {c : CollChunk} {info : Nat} {xs : List (Prod Nat
    Nat)} (h1 : MemOk d) : MemOk (chunkPuts d cmd t r c info xs) := by
  unfold chunkPuts
  try dsimp only
  repeat' first
    | (with_reducible first | assumption | refine putCodes_ok (by assumption) ?_ | apply openRanges_ok)
    | (with_reducible first | apply endRun_ok | apply spillFail_ok | apply runGot_ok | apply touchAcc_ok)
    | (split; all_goals try dsimp only)

theorem leafGets_ok {d : Dev} {c : CollChunk} (h1 : MemOk d) : MemOk (leafGets d c) := by
  unfold leafGets
  try dsimp only
  repeat' first
    | with_reducible assumption
    | (intro _; try dsimp only)
    | (with_reducible first | apply endRun_ok | apply runGot_ok | apply chunkFails_ok | apply bookFor_ok)
    | (with_reducible first | apply deliverLines_ok | apply chunkPuts_ok | apply ite_ok)
    | (split; all_goals try dsimp only)

theorem putParts_ok {d : Dev} {c : CollChunk} {f : NodeParts → NodeParts} (h1 : MemOk d) : MemOk (putParts d c f) := by
  unfold putParts
  try dsimp only
  repeat' first
    | with_reducible assumption
    | (intro _; try dsimp only)
    | with_reducible apply ite_ok
    | (simp only [mk_ok])
    | with_reducible apply ok_mem

theorem formPart_ok {d : Dev} {c : CollChunk} {ss : List SafEntry} (h1 : MemOk d) : MemOk (formPart d c ss).1 := by
  unfold formPart
  try dsimp only
  repeat' first
    | with_reducible assumption
    | (intro _; try dsimp only)
    | (with_reducible first | apply takeFree_ok | apply spillFail_ok | apply fsat_ok)
    | (with_reducible first | refine packParts_ok (by assumption) ?_ | apply ite_ok1 | apply ite_ok2)
    | (split; all_goals try dsimp only)

theorem holdPart_ok {d : Dev} {c : CollChunk} (h1 : MemOk d) : MemOk (holdPart d c).1 := by
  unfold holdPart
  try dsimp only
  repeat' first
    | with_reducible assumption
    | (intro _; try dsimp only)
    | (with_reducible first | apply takeFree_ok | refine packParts_ok (by assumption) ?_ | apply spillFail_ok)
    | with_reducible apply ite_ok1
    | (split; all_goals try dsimp only)

theorem exactResult_ok {d : Dev} {gather : Bool} {r : CollChunk} {cs : List CollChunk} (h1 : MemOk d) : MemOk
    (exactResult d gather r cs).1 := by
  unfold exactResult
  try dsimp only
  repeat' first
    | with_reducible assumption
    | (intro _; try dsimp only)
    | (with_reducible first | apply releaseParts_ok | apply formPart_ok | apply foldl_ok)
    | (split; all_goals try dsimp only)

theorem nodeResult_ok {d : Dev} {own : Nat} {n : TreeNode} {c : CollChunk} {p : NodeParts} (h1 : MemOk d) : MemOk
    (nodeResult d own n c p).1 := by
  unfold nodeResult
  try dsimp only
  repeat' first
    | with_reducible assumption
    | (intro _; try dsimp only)
    | (with_reducible first | apply releaseParts_ok | apply exactResult_ok | apply foldl_ok | apply ite_ok1)
    | (split; all_goals try dsimp only)

theorem sendPart_ok {d : Dev} {dst : Nat} {c : CollChunk} (h1 : MemOk d) : MemOk (sendPart d dst c) := by
  unfold sendPart
  try dsimp only
  repeat' first
    | with_reducible assumption
    | (intro _; try dsimp only)
    | (with_reducible first | apply releaseParts_ok | apply sendQuiet_ok | apply fsat_ok | apply foldl_ok)

theorem rootDown_ok {d0 : Dev} {run : CollRun} {c : CollChunk} (h1 : MemOk d0) : MemOk (rootDown d0 run c).1 := by
  unfold rootDown
  try dsimp only
  repeat' first
    | with_reducible assumption
    | (intro _; try dsimp only)
    | (with_reducible first | apply releaseParts_ok | apply bookFor_ok | apply ite_ok1)
    | (split; all_goals try dsimp only)

theorem fpGets_ok {d : Dev} {c : CollChunk} (h1 : MemOk d) : MemOk (fpGets d c) := by
  unfold fpGets
  try dsimp only
  repeat' first
    | with_reducible assumption
    | (intro _; try dsimp only)
    | (with_reducible first | apply updShard_ok | apply evtSet_ok | apply nutmeg_ok | apply ite_ok)
    | (split; all_goals try dsimp only)

theorem leafTakes_ok {d : Dev} {c : CollChunk} (h1 : MemOk d) : MemOk (leafTakes d c) := by
  unfold leafTakes
  try dsimp only
  repeat' first
    | with_reducible assumption
    | (intro _; try dsimp only)
    | (with_reducible first | apply fpGets_ok | apply leafGets_ok | apply ite_ok)

theorem nodePart_ok {d : Dev} {n : TreeNode} {c : CollChunk} {p : NodeParts} (h1 : MemOk d) : MemOk (nodePart d n c p).1
    := by
  unfold nodePart
  try dsimp only
  repeat' first
    | with_reducible assumption
    | (intro _; try dsimp only)
    | (with_reducible first | apply nodeResult_ok | apply ite_ok1)

theorem rootPart_ok {d : Dev} {t : Comm} {r : CollChunk} {e : Dev} {e2 : _} (h0 : rootPart d t r = some (e, e2))
    (h1 : MemOk d) : MemOk e := by
  unfold rootPart at h0
  split at h0
  · cases h0
    exact h1
  · rw [Option.map_eq_some_iff] at h0
    obtain ⟨run, -, h0⟩ := h0
    exact fst_ok h0 (rootDown_ok h1)

theorem markFirst_ok {d : Dev} {c : CollChunk} (h1 : MemOk d) : MemOk (markFirst d c) := by
  unfold markFirst
  try dsimp only
  repeat' first
    | with_reducible assumption
    | (intro _; try dsimp only)
    | (with_reducible first | apply markDigest_ok | apply ite_ok)

/-- What `tryNode` keeps, given that the pushes below it keep it. -/
theorem tryNode_ok {f : Nat} {d : Dev} {t : Comm} {n : TreeNode} {c : CollChunk}
    (hp : ∀ g e src c, g < f → MemOk e → MemOk (pushChunk g e src c)) (h1 : MemOk d) : MemOk (pushChunk.tryNode f d t n c) := by
  unfold pushChunk.tryNode
  split
  · exact h1
  · split
    · exact h1
    · rename_i p _ _
      have h3 := nodePart_ok (d := d) (n := n) (c := c) (p := p) h1
      generalize nodePart d n c p = q at h3
      obtain ⟨d1, r⟩ := q
      dsimp only at h3 ⊢
      split
      · split
        · exact putParts_ok h3
        · rename_i d3 m hr
          have h4 := rootPart_ok hr (putParts_ok h3)
          split
          · exact h4
          · exact hp _ _ _ _ (Nat.lt_succ_self _) h4
      · split
        · exact putParts_ok h3
        · split
          · split
            · exact putParts_ok h3
            · exact hp _ _ _ _ (Nat.lt_succ_self _) (putParts_ok h3)
          · exact sendPart_ok (putParts_ok h3)

theorem pushChunk_ok {fuel : Nat} : ∀ {d : Dev} {src : Nat} {c : CollChunk}, MemOk d → MemOk (pushChunk fuel d src c) := by
  induction fuel using Nat.strongRecOn with
  | ind fuel ih =>
    intro d src c h1
    unfold pushChunk
    split
    · exact h1
    rename_i f
    try dsimp only
    repeat' first
      | with_reducible assumption
      | (intro _; try dsimp only)
      | (with_reducible apply leafTakes_ok)
      | (with_reducible apply markFirst_ok)
      | (with_reducible apply holdPart_ok)
      | (with_reducible refine tryNode_ok (fun g e src c hg h => ih g (Nat.lt_succ_of_lt hg) h) ?_)
      | (with_reducible apply putParts_ok)
      | (with_reducible apply sendQuiet_ok)
      | (with_reducible apply ih f (Nat.lt_succ_self f))
      | (with_reducible apply foldl_ok)
      | (with_reducible apply ite_ok)
      | (simp only [mk_ok])
      | (with_reducible apply ok_mem)
      | (split; all_goals try dsimp only)

theorem pushChunk.tryNode_ok {f : Nat} {d : Dev} {t : Comm} {n : TreeNode} {c : CollChunk} (h1 : MemOk d) :
    MemOk (pushChunk.tryNode f d t n c) := Machine.tryNode_ok (fun _ _ _ _ _ h => pushChunk_ok h) h1

theorem chunkArrives_ok {d : Dev} {src : Nat} {c : CollChunk} (h1 : MemOk d) : MemOk (chunkArrives d src c) := by
  unfold chunkArrives
  try dsimp only
  repeat' first
    | (with_reducible first | assumption | apply pushChunk_ok)
    | (split; all_goals try dsimp only)

theorem spillArrives_ok {d : Dev} {s : CollSpill} (h1 : MemOk d) : MemOk (spillArrives d s) := by
  unfold spillArrives
  try dsimp only
  repeat' first
    | with_reducible assumption
    | (intro _; try dsimp only)
    | (with_reducible first | apply chunkArrives_ok | apply ite_ok)
    | (split; all_goals try dsimp only)

theorem addLocalNorm_ok {d : Dev} {c : Ctx} {t : Tensor} {is : List Nat} (h1 : MemOk d) : MemOk (addLocalNorm d c t is)
    := by
  unfold addLocalNorm
  try dsimp only
  repeat' first
    | (with_reducible first | assumption | apply updGroup_ok)
    | (split; all_goals try dsimp only)

theorem contribute_ok {d : Dev} {b : CollBody} {t : Comm} {inst digest total : Nat} {xs : List (Prod Nat Nat)} {chunks :
    Nat} (h1 : MemOk d) : MemOk (contribute d b t inst digest total xs chunks) := by
  unfold contribute
  try dsimp only
  repeat' first
    | with_reducible assumption
    | (intro _; try dsimp only)
    | (with_reducible first | apply formPart_ok | apply pushChunk_ok | apply sendPart_ok | apply foldl_ok)
    | (with_reducible first | apply ite_ok | apply ite_ok1)
    | (split; all_goals try dsimp only)

theorem retryNodes_ok {d : Dev} {t : Comm} {inst : Nat} (h1 : MemOk d) : MemOk (retryNodes d t inst) := by
  unfold retryNodes
  try dsimp only
  repeat' first
    | with_reducible assumption
    | (intro _; try dsimp only)
    | (with_reducible first | apply pushChunk_ok | apply foldl_ok)
    | (split; all_goals try dsimp only)

theorem openRun_ok {d : Dev} {c : Ctx} {b : CollBody} {t : Comm} {inst chunks : Nat} {dst : Option Tensor} (h1 : MemOk
    d) : MemOk (openRun d c b t inst chunks dst) := by
  unfold openRun
  try dsimp only
  repeat' first
    | with_reducible assumption
    | (intro _; try dsimp only)
    | (with_reducible first | apply updShard_ok | apply foldl_ok | apply ite_ok)
    | (simp only [mk_ok])
    | with_reducible apply ok_mem
    | (split; all_goals try dsimp only)

theorem startColl_ok {d : Dev} {c : Ctx} {b : CollBody} {t : Comm} {src dst : Option Tensor} (h1 : MemOk d) : MemOk
    (startColl d c b t src dst).dev := by
  unfold startColl
  try dsimp only
  repeat' first
    | with_reducible assumption
    | (intro _; try dsimp only)
    | (with_reducible first | apply resFail_ok | apply openRun_ok | apply addLocalNorm_ok | apply retryNodes_ok)
    | (with_reducible first | apply resOk_ok | apply resWait_ok | apply contribute_ok | apply ite_ok | apply ite_okR)
    | (simp only [mk_ok])
    | with_reducible apply ok_mem
    | (split; all_goals try dsimp only)

theorem runCollData_ok {d : Dev} {c : Ctx} {e : Nat} (h1 : MemOk d) : MemOk (runCollData d c e).dev := by
  unfold runCollData
  try dsimp only
  repeat' first
    | with_reducible assumption
    | (intro _; try dsimp only)
    | (with_reducible first | apply resStatus_ok | apply resFail_ok | apply noteTensor_ok | apply startColl_ok)
    | (with_reducible first | apply openTensor_ok | apply ite_okR)
    | (split; all_goals try dsimp only)

theorem sumacStatus_ok {d : Dev} (h1 : MemOk d) : MemOk (sumacStatus d) := by
  unfold sumacStatus
  try dsimp only
  repeat' first
    | (with_reducible first | assumption | apply fset_ok)

theorem computeScale_ok {d : Dev} {s : Nat} (h1 : MemOk d) : MemOk (computeScale d s) := by
  unfold computeScale
  try dsimp only
  repeat' first
    | (with_reducible first | assumption | apply fset_ok)
    | (split; all_goals try dsimp only)

theorem pushHistory_ok {d : Dev} {s amax : Nat} (h1 : MemOk d) : MemOk (pushHistory d s amax) := by
  unfold pushHistory
  try dsimp only
  repeat' first
    | (with_reducible first | assumption | apply fset_ok)

theorem closeSlot_ok {d : Dev} {tag verdict s : Nat} {c : Census} (h1 : MemOk d) : MemOk (closeSlot d tag verdict s c)
    := by
  unfold closeSlot
  try dsimp only
  repeat' first
    | with_reducible assumption
    | (intro _; try dsimp only)
    | (with_reducible first | apply pushHistory_ok | apply fset_ok | apply decision_ok | apply ite_ok)

theorem sumacClose_ok {d : Dev} {g tag verdict : Nat} {reduced : Option (List (Prod Nat Census))} {comm : Bool} (h1 :
    MemOk d) : MemOk (sumacClose d g tag verdict reduced comm) := by
  unfold sumacClose
  try dsimp only
  repeat' first
    | with_reducible assumption
    | (intro _; try dsimp only)
    | (with_reducible first | apply updGroup_ok | apply sumacStatus_ok | apply closeSlot_ok | apply foldl_ok)
    | (split; all_goals try dsimp only)

theorem applyScaleSet_ok {d : Dev} {w : Nat} (h1 : MemOk d) : MemOk (applyScaleSet d w) := by
  unfold applyScaleSet
  try dsimp only
  repeat' first
    | with_reducible assumption
    | (intro _; try dsimp only)
    | (with_reducible first | apply sumacStatus_ok | apply fset_ok | apply foldl_ok | apply ite_ok)

theorem runScaleSet_ok {d : Dev} {c : Ctx} {e : Nat} (h1 : MemOk d) : MemOk (runScaleSet d c e).dev := by
  unfold runScaleSet
  try dsimp only
  repeat' first
    | with_reducible assumption
    | (intro _; try dsimp only)
    | (with_reducible first | apply resStatus_ok | apply resOk_ok | apply applyScaleSet_ok | apply ite_okR)
    | (simp only [mk_ok])
    | with_reducible apply ok_mem
    | (split; all_goals try dsimp only)

theorem updDeferred_ok {d : Dev} {f : Deferred → Deferred} (h1 : MemOk d) : MemOk (updDeferred d f) := by
  unfold updDeferred
  try dsimp only
  repeat' first
    | with_reducible assumption
    | (simp only [mk_ok])
    | with_reducible apply ok_mem

theorem markDeferred_ok {d : Dev} {g ring seq : Nat} (h1 : MemOk d) : MemOk (markDeferred d g ring seq) := by
  unfold markDeferred
  try dsimp only
  repeat' first
    | (with_reducible first | assumption | apply updDeferred_ok)

theorem unmarkDeferred_ok {d : Dev} {ring seq : Nat} (h1 : MemOk d) : MemOk (unmarkDeferred d ring seq) := by
  unfold unmarkDeferred
  try dsimp only
  repeat' first
    | (with_reducible first | assumption | apply updDeferred_ok)

theorem postDeferred_ok {d : Dev} {ring seq : Nat} (h1 : MemOk d) : MemOk (postDeferred d ring seq) := by
  unfold postDeferred
  try dsimp only
  repeat' first
    | (with_reducible first | assumption | apply updDeferred_ok)

theorem applyDeferred_ok {d : Dev} {ring seq : Nat} (h1 : MemOk d) : MemOk (applyDeferred d ring seq) := by
  unfold applyDeferred
  try dsimp only
  repeat' first
    | with_reducible assumption
    | (intro _; try dsimp only)
    | (with_reducible first | apply applyScaleSet_ok | apply foldl_ok)
    | (simp only [mk_ok])
    | with_reducible apply ok_mem

theorem openSlot_ok {g tag : Nat} {fresh : Bool} {recs : List (Prod Nat ClosedCensus)} {d : Dev} {s : Nat} (h1 : MemOk
    d) : MemOk (openSlot g tag fresh recs d s) := by
  unfold openSlot
  try dsimp only
  repeat' first
    | with_reducible assumption
    | (intro _; try dsimp only)
    | (with_reducible first | apply fset_ok | apply decision_ok | apply computeScale_ok | apply foldl_ok)
    | with_reducible apply ite_ok
    | (split; all_goals try dsimp only)

theorem sumacOpen_ok {d : Dev} {g tag ring seq : Nat} (h1 : MemOk d) : MemOk (sumacOpen d g tag ring seq) := by
  unfold sumacOpen
  try dsimp only
  repeat' first
    | with_reducible assumption
    | (intro _; try dsimp only)
    | (with_reducible first | apply openSlot_ok | apply applyDeferred_ok | apply sumacStatus_ok | apply updGroup_ok)
    | with_reducible apply foldl_ok
    | (split; all_goals try dsimp only)

theorem runCensusRead_ok {d : Dev} {c : Ctx} {e : Nat} (h1 : MemOk d) : MemOk (runCensusRead d c e).dev := by
  unfold runCensusRead
  try dsimp only
  repeat' first
    | with_reducible assumption
    | (intro _; try dsimp only)
    | (with_reducible first | apply resStatus_ok | apply resFail_ok | apply store_ok | apply resOk_ok)
    | (with_reducible first | apply foldl_ok | apply ite_ok | apply ite_okR)
    | (simp only [mk_ok])
    | with_reducible apply ok_mem
    | (split; all_goals try dsimp only)

theorem updPlan_ok {d : Dev} {i : Nat} {f : PlanRun → PlanRun} (h1 : MemOk d) : MemOk (updPlan d i f) := by
  unfold updPlan
  try dsimp only
  repeat' first
    | with_reducible assumption
    | (simp only [mk_ok])
    | with_reducible apply ok_mem

theorem planStart_ok {d : Dev} {c : Ctx} {e : Nat} (h1 : MemOk d) : MemOk (planStart d c e) := by
  unfold planStart
  try dsimp only
  repeat' first
    | with_reducible assumption
    | (intro _; try dsimp only)
    | (with_reducible first | apply updPlan_ok | apply foldl_ok | apply ite_ok)

theorem planCommit_ok {d : Dev} {cmd : Cmd} (h1 : MemOk d) : MemOk (planCommit d cmd) := by
  unfold planCommit
  try dsimp only
  repeat' first
    | with_reducible assumption
    | (intro _; try dsimp only)
    | (with_reducible first | apply updPlan_ok | apply foldl_ok | apply ite_ok)

theorem takePlan_ok {d : Dev} {g tag : Nat} {pl : Placing} (h1 : MemOk d) : MemOk (takePlan d g tag pl) := by
  unfold takePlan
  try dsimp only
  repeat' first
    | with_reducible assumption
    | (intro _; try dsimp only)
    | (with_reducible first | apply fset_ok | apply decision_ok | apply foldl_ok | apply ite_ok)
    | (simp only [mk_ok])
    | with_reducible apply ok_mem

theorem measurePlan_ok {d : Dev} {g : Nat} (h1 : MemOk d) : MemOk (measurePlan d g) := by
  unfold measurePlan
  try dsimp only
  repeat' first
    | with_reducible assumption
    | (intro _; try dsimp only)
    | (with_reducible first | apply fset_ok | apply foldl_ok | apply ite_ok)
    | (split; all_goals try dsimp only)

theorem planCopy_ok {d : Dev} {src dst n : Nat} (h1 : MemOk d) : MemOk (planCopy d src dst n) := by
  unfold planCopy
  try dsimp only
  repeat' first
    | (with_reducible first | assumption | apply store_ok)

theorem takeSpace_ok {d : Dev} {p : PlanRun} {at_ : Nat} {ph : PlanPhase} (h1 : MemOk d) : MemOk (takeSpace d p at_ ph)
    := by
  unfold takeSpace
  try dsimp only
  repeat' first
    | with_reducible assumption
    | (intro _; try dsimp only)
    | (with_reducible first | apply updPlan_ok | apply foldl_ok)

theorem offloadStart_ok {d : Dev} {i : Nat} (h1 : MemOk d) : MemOk (offloadStart d i) := by
  unfold offloadStart
  try dsimp only
  repeat' first
    | with_reducible assumption
    | (intro _; try dsimp only)
    | (with_reducible first | apply updPlan_ok | apply ite_ok)
    | (split; all_goals try dsimp only)

theorem offloadDone_ok {d : Dev} {i : Nat} (h1 : MemOk d) : MemOk (offloadDone d i) := by
  unfold offloadDone
  try dsimp only
  repeat' first
    | with_reducible assumption
    | (intro _; try dsimp only)
    | (with_reducible first | apply updPlan_ok | apply planCopy_ok | apply touchAcc_ok | apply noteRead_ok)
    | with_reducible apply ite_ok
    | (split; all_goals try dsimp only)

theorem restoreStart_ok {d : Dev} {i : Nat} (h1 : MemOk d) : MemOk (restoreStart d i) := by
  unfold restoreStart
  try dsimp only
  repeat' first
    | with_reducible assumption
    | (intro _; try dsimp only)
    | (with_reducible first | apply takeSpace_ok | apply ite_ok)
    | (split; all_goals try dsimp only)

theorem restoreDone_ok {d : Dev} {i : Nat} (h1 : MemOk d) : MemOk (restoreDone d i) := by
  unfold restoreDone
  try dsimp only
  repeat' first
    | with_reducible assumption
    | (intro _; try dsimp only)
    | (with_reducible first | apply updPlan_ok | apply planCopy_ok | apply touchAcc_ok | apply noteRead_ok)
    | with_reducible apply ite_ok
    | (split; all_goals try dsimp only)

theorem putStage_ok {d : Dev} {r : StageRun} (h1 : MemOk d) : MemOk (putStage d r) := by
  unfold putStage
  try dsimp only
  repeat' first
    | with_reducible assumption
    | (simp only [mk_ok])
    | with_reducible apply ok_mem

theorem queueTake_ok {d : Dev} {c : Cmd} (h1 : MemOk d) : MemOk (queueTake d c) := by
  unfold queueTake
  try dsimp only
  repeat' first
    | (with_reducible first | assumption | apply fset_ok)
    | (split; all_goals try dsimp only)

theorem queueReturn_ok {d : Dev} {q : Nat} (h1 : MemOk d) : MemOk (queueReturn d q) := by
  unfold queueReturn
  try dsimp only
  repeat' first
    | with_reducible assumption
    | (intro _; try dsimp only)
    | (with_reducible first | apply fset_ok | apply ite_ok)

theorem stageStart_ok {d : Dev} {c : Cmd} (h1 : MemOk d) : MemOk (stageStart d c) := by
  unfold stageStart
  try dsimp only
  repeat' first
    | with_reducible assumption
    | (intro _; try dsimp only)
    | (with_reducible first | apply putStage_ok | apply ite_ok)

theorem stageEnd_ok {d : Dev} {c : Cmd} (h1 : MemOk d) : MemOk (stageEnd d c) := by
  unfold stageEnd
  try dsimp only
  repeat' first
    | with_reducible assumption
    | (intro _; try dsimp only)
    | (with_reducible first | apply putStage_ok | apply ite_ok)

theorem stagesClose_ok {d : Dev} {openedAt tag : Nat} (h1 : MemOk d) : MemOk (stagesClose d openedAt tag) := by
  unfold stagesClose
  extract_lets n busy total most imb len d1 d2
  refine ite_ok (fun _ => h1) (fun _ => ?_)
  have h2 : MemOk d2 := decision_ok (foldl_ok h1 (fun e x h => fset_ok (fset_ok (fset_ok h))))
  exact steps_ok h2

theorem policyOpen_ok {d : Dev} {g : Nat} (h1 : MemOk d) : MemOk (policyOpen d g) := by
  unfold policyOpen
  try dsimp only
  repeat' first
    | (with_reducible first | assumption | apply updGroup_ok)

theorem stagesOpen_ok {d : Dev} (h1 : MemOk d) : MemOk (stagesOpen d) := by
  unfold stagesOpen
  try dsimp only
  repeat' first
    | with_reducible assumption
    | (intro _; try dsimp only)
    | (with_reducible first | apply fset_ok | apply foldl_ok)

end Sys2Proof.Machine
end

