-- ==== Sys2Proof/Laws/KeepRings.lean ====
section
/-! SUPPORT. Every operation keeps the canonical form of the memory: epochs, rings and host ports. -/
namespace Sys2Proof.Machine

theorem openEpoch_ok {d : Dev} {c : Ctx} {g : Nat} {grp : Group} {b : OpenBody} {pl : Placing} (h1 : MemOk d) : MemOk
    (openEpoch d c g grp b pl) := by
  unfold openEpoch
  try dsimp only
  repeat' first
    | with_reducible assumption
    | (intro _; try dsimp only)
    | (with_reducible first | apply takePlan_ok | apply stagesOpen_ok | apply policyOpen_ok | apply sumacOpen_ok)
    | (with_reducible first | apply fset_ok | apply openShard_ok | apply updGroup_ok | apply foldl_ok | apply ite_ok)

theorem runStepOpen_ok {d : Dev} {c : Ctx} {e : Nat} (h1 : MemOk d) : MemOk (runStepOpen d c e).dev := by
  unfold runStepOpen
  try dsimp only
  repeat' first
    | with_reducible assumption
    | (intro _; try dsimp only)
    | (with_reducible first | apply resStatus_ok | apply resFail_ok | apply resOk_ok | apply openEpoch_ok)
    | with_reducible apply ite_okR
    | (split; all_goals try dsimp only)

theorem abortEpoch_ok {d : Dev} {g : Nat} (h1 : MemOk d) : MemOk (abortEpoch d g) := abortTaken_ok h1

theorem runStepClose_ok {d : Dev} {c : Ctx} {e : Nat} (h1 : MemOk d) : MemOk (runStepClose d c e).dev := by
  unfold runStepClose
  try dsimp only
  repeat' first
    | with_reducible assumption
    | (intro _; try dsimp only)
    | (with_reducible first | apply resStatus_ok | apply updGroup_ok | apply resWait_ok | apply abortEpoch_ok)
    | (with_reducible first | apply condRaise_ok | apply ite_ok | apply ite_okR)
    | (split; all_goals try dsimp only)

theorem clipAfter_ok {d : Dev} {g : Nat} {grp : Group} {verdict : Nat} {raised mis : Bool} (h1 : MemOk d) : MemOk
    (clipAfter d g grp verdict raised mis) := by
  unfold clipAfter
  try dsimp only
  repeat' first
    | with_reducible assumption
    | (intro _; try dsimp only)
    | (with_reducible first | apply updGroup_ok | apply fset_ok | apply ite_ok)

theorem noiseAfter_ok {d : Dev} {g : Nat} {grp : Group} {verdict : Nat} {n2 l2 : Val} (h1 : MemOk d) : MemOk (noiseAfter
    d g grp verdict n2 l2) := by
  unfold noiseAfter
  try dsimp only
  repeat' first
    | with_reducible assumption
    | (intro _; try dsimp only)
    | (with_reducible first | apply updGroup_ok | apply fset_ok | apply decision_ok | apply ite_ok)

theorem commitAll_ok {d : Dev} {g tag mask verdict : Nat} (h1 : MemOk d) : MemOk (commitAll d g tag mask verdict).1 :=
    by
  unfold commitAll
  try dsimp only
  repeat' first
    | with_reducible assumption
    | (intro _; try dsimp only)
    | (with_reducible first | apply commitShard_ok | apply foldl_ok1)

theorem endClose_ok {d : Dev} {g mask verdict : Nat} {lost : Bool} {bad : Option Nat} (h1 : MemOk d) : MemOk (endClose d
    g mask verdict lost bad) := by
  unfold endClose
  try dsimp only
  repeat' first
    | (with_reducible first | assumption | apply stagesClose_ok | apply measurePlan_ok | apply finishCmd_ok)
    | with_reducible apply updGroup_ok
    | (simp only [mk_ok])
    | with_reducible apply ok_mem
    | (split; all_goals try dsimp only)

theorem commitWhenReady_ok {d : Dev} {g : Nat} (h1 : MemOk d) : MemOk (commitWhenReady d g) := by
  unfold commitWhenReady
  try dsimp only
  repeat' first
    | with_reducible assumption
    | (intro _; try dsimp only)
    | (with_reducible first | apply updGroup_ok | apply commitAll_ok | apply endClose_ok | apply ite_ok)
    | (split; all_goals try dsimp only)

theorem commitGroups_ok {d : Dev} (h1 : MemOk d) : MemOk (commitGroups d) := by
  unfold commitGroups
  try dsimp only
  repeat' first
    | with_reducible assumption
    | (intro _; try dsimp only)
    | (with_reducible first | apply commitWhenReady_ok | apply foldl_ok)

theorem verdictTaken_ok {d : Dev} {g mask verdict : Nat} {lost : Bool} (h1 : MemOk d) : MemOk (verdictTaken d g mask
    verdict lost) := by
  unfold verdictTaken
  try dsimp only
  repeat' first
    | (with_reducible first | assumption | apply commitWhenReady_ok | apply updGroup_ok)

theorem decideClose_ok {d : Dev} {g : Nat} {part : Option StepPart} (h1 : MemOk d) : MemOk (decideClose d g part) := by
  unfold decideClose
  try dsimp only
  repeat' first
    | with_reducible assumption
    | (intro _; try dsimp only)
    | (with_reducible first | apply sumacClose_ok | apply clipAfter_ok | apply verdictTaken_ok | apply fsat_ok)
    | (with_reducible first | apply updGroup_ok | apply fset_ok | apply noiseAfter_ok | apply ite_ok)
    | (split; all_goals try dsimp only)

theorem stepUp_ok {fuel : Nat} {d : Dev} {t : Comm} {g tag src node child : Nat} {p : StepPart} (h1 : MemOk d) :
    MemOk (stepUp fuel d t g tag src node child p).1 := by
  induction fuel generalizing d src node child p with
  | zero => exact h1
  | succ f ih =>
    unfold stepUp
    split
    · exact h1
    · extract_lets u rest s0 d1 mine parts sum
      have h2 : MemOk d1 := h1
      split
      · exact h2
      · split
        · exact h2
        · split
          · exact h2
          · split
            · exact ih h2
            · exact sendQuiet_ok h2

theorem stepDown_ok {fuel : Nat} {d : Dev} {t : Comm} {g tag node : Nat} {p : StepPart} (h1 : MemOk d) :
    MemOk (stepDown fuel d t g tag node p).1 := by
  induction fuel generalizing d node p with
  | zero => exact h1
  | succ f ih =>
    unfold stepDown
    split
    · exact h1
    · extract_lets mine
      refine foldl_ok1 (d := (d, false)) h1 (fun e k h => ?_)
      dsimp only
      split
      · split
        · exact h
        · exact sendQuiet_ok h
      · split
        · split
          · exact ih h
          · exact sendQuiet_ok h
        · exact h

theorem verdictIn_ok {d : Dev} {g tag : Nat} {p : StepPart} (h1 : MemOk d) : MemOk (verdictIn d g tag p) := by
  unfold verdictIn
  try dsimp only
  repeat' first
    | with_reducible assumption
    | (intro _; try dsimp only)
    | (with_reducible first | apply decideClose_ok | apply updGroup_ok | apply ite_ok)
    | (split; all_goals try dsimp only)

theorem sendDown_ok {d : Dev} {t : Comm} {g tag node : Nat} {p : StepPart} (h1 : MemOk d) : MemOk (sendDown d t g tag
    node p) := by
  unfold sendDown
  try dsimp only
  repeat' first
    | with_reducible assumption
    | (intro _; try dsimp only)
    | (with_reducible first | apply stepDown_ok | apply verdictIn_ok | apply ite_ok)

theorem partArrives_ok {d : Dev} {t : Comm} {g tag src node child : Nat} {p : StepPart} (h1 : MemOk d) : MemOk
    (partArrives d t g tag src node child p) := by
  unfold partArrives
  try dsimp only
  repeat' first
    | (with_reducible first | assumption | apply stepUp_ok | apply sendDown_ok | apply fst_ok (by assumption))
    | (split; all_goals try dsimp only)

theorem nodeLost_ok {d : Dev} {t : Comm} {g tag node : Nat} (h1 : MemOk d) : MemOk (nodeLost d t g tag node) := by
  unfold nodeLost
  try dsimp only
  repeat' first
    | with_reducible assumption
    | (intro _; try dsimp only)
    | (with_reducible first | apply sendDown_ok | apply partArrives_ok | apply sendQuiet_ok | apply ite_ok)
    | (split; all_goals try dsimp only)

theorem cutNodes_ok {d : Dev} {t : Comm} {g tag : Nat} {among : List Nat} (h1 : MemOk d) : MemOk (cutNodes d t g tag
    among) := by
  unfold cutNodes
  try dsimp only
  repeat' first
    | with_reducible assumption
    | (intro _; try dsimp only)
    | (with_reducible first | apply nodeLost_ok | apply foldl_ok)

theorem stepArrives_ok {d : Dev} {src : Nat} {m : StepMsg} (h1 : MemOk d) : MemOk (stepArrives d src m) := by
  unfold stepArrives
  try dsimp only
  repeat' first
    | with_reducible assumption
    | (intro _; try dsimp only)
    | (with_reducible first | apply cutNodes_ok | apply partArrives_ok | apply verdictIn_ok | apply sendDown_ok)
    | with_reducible apply ite_ok
    | (split; all_goals try dsimp only)

theorem lastConditions_ok {d : Dev} {g : Nat} (h1 : MemOk d) : MemOk (lastConditions d g) := by
  unfold lastConditions
  try dsimp only
  repeat' first
    | with_reducible assumption
    | (intro _; try dsimp only)
    | (with_reducible first | apply condRaise_ok | apply ite_ok)

theorem closeReduce_ok {d0 : Dev} {g : Nat} (h1 : MemOk d0) : MemOk (closeReduce d0 g) := by
  unfold closeReduce
  try dsimp only
  repeat' first
    | with_reducible assumption
    | (intro _; try dsimp only)
    | (with_reducible first | apply lastConditions_ok | apply decideClose_ok | apply updGroup_ok)
    | (with_reducible first | apply partArrives_ok | apply sendQuiet_ok | apply cutNodes_ok | apply foldl_ok)
    | with_reducible apply ite_ok
    | (split; all_goals try dsimp only)

theorem closeTimeout_ok {d : Dev} {g : Nat} (h1 : MemOk d) : MemOk (closeTimeout d g) := by
  unfold closeTimeout
  try dsimp only
  repeat' first
    | with_reducible assumption
    | (intro _; try dsimp only)
    | (with_reducible first | apply nodeLost_ok | apply verdictIn_ok | apply foldl_ok | apply ite_ok)
    | (split; all_goals try dsimp only)

theorem stepsLosePeer_ok {d : Dev} {peer : Nat} (h1 : MemOk d) : MemOk (stepsLosePeer d peer) := by
  unfold stepsLosePeer
  try dsimp only
  repeat' first
    | with_reducible assumption
    | (intro _; try dsimp only)
    | (with_reducible first | apply condRaise_ok | apply nodeLost_ok | apply foldl_ok | apply ite_ok)
    | (split; all_goals try dsimp only)

theorem selfClose_ok {d : Dev} {g : Nat} (h1 : MemOk d) : MemOk (selfClose d g) := by
  unfold selfClose
  try dsimp only
  repeat' first
    | with_reducible assumption
    | (intro _; try dsimp only)
    | (with_reducible first | apply abortEpoch_ok | apply condRaise_ok | apply updGroup_ok | apply ite_ok)

theorem fpContribute_ok {d : Dev} {s : Shard} {count chunk v : Nat} (h1 : MemOk d) : MemOk (fpContribute d s count chunk
    v) := by
  unfold fpContribute
  try dsimp only
  repeat' first
    | with_reducible assumption
    | (intro _; try dsimp only)
    | (with_reducible first | apply pushChunk_ok | apply sendPart_ok | apply foldl_ok | apply ite_ok)
    | (split; all_goals try dsimp only)

theorem fpSend_ok {d : Dev} {h : Nat} (h1 : MemOk d) : MemOk (fpSend d h) := by
  unfold fpSend
  try dsimp only
  repeat' first
    | (with_reducible first | assumption | apply fpContribute_ok | apply updShard_ok)
    | (split; all_goals try dsimp only)

theorem fpResult_ok {d : Dev} {h : Nat} (h1 : MemOk d) : MemOk (fpResult d h) := by
  unfold fpResult
  try dsimp only
  repeat' first
    | with_reducible assumption
    | (intro _; try dsimp only)
    | (with_reducible first | apply fpContribute_ok | apply updShard_ok | apply foldl_ok | apply ite_ok)
    | (split; all_goals try dsimp only)

theorem countTaken_ok {d : Dev} {r : Nat} (h1 : MemOk d) : MemOk (countTaken d r) := by
  unfold countTaken
  try dsimp only
  repeat' first
    | (with_reducible first | assumption | apply fset_ok)

theorem addTaken_ok {d : Dev} {c : Cmd} {w : Wrr} (h1 : MemOk d) : MemOk (addTaken d c w) := by
  unfold addTaken
  try dsimp only
  repeat' first
    | with_reducible assumption
    | (simp only [mk_ok])
    | with_reducible apply ok_mem

theorem openTaken_ok {d : Dev} {c : Cmd} (h1 : MemOk d) : MemOk (openTaken d c) := by
  unfold openTaken
  try dsimp only
  repeat' first
    | with_reducible assumption
    | (intro _; try dsimp only)
    | (with_reducible first | apply markDeferred_ok | apply ite_ok)

theorem takeCommand_ok {d : Dev} {r : Nat} {w : Wrr} (h1 : MemOk d) : MemOk (takeCommand d r w) := by
  unfold takeCommand
  try dsimp only
  repeat' first
    | (with_reducible first | assumption | apply addTaken_ok | apply countTaken_ok | apply openTaken_ok)

theorem runSemSignal_ok {d : Dev} {c : Ctx} {e : Nat} (h1 : MemOk d) : MemOk (runSemSignal d c e).dev := by
  unfold runSemSignal
  try dsimp only
  repeat' first
    | with_reducible assumption
    | (intro _; try dsimp only)
    | (with_reducible first | apply resOk_ok | apply issueReq_ok | apply semApply_ok | apply ite_okR)

theorem runTimestamp_ok {d : Dev} {c : Ctx} {e : Nat} (h1 : MemOk d) : MemOk (runTimestamp d c e).dev := by
  unfold runTimestamp
  try dsimp only
  repeat' first
    | with_reducible assumption
    | (intro _; try dsimp only)
    | (with_reducible first | apply resStatus_ok | apply resFail_ok | apply resOk_ok | apply store_ok)
    | with_reducible apply ite_okR
    | (split; all_goals try dsimp only)

theorem runDigest_ok {d : Dev} {c : Ctx} {e : Nat} (h1 : MemOk d) : MemOk (runDigest d c e).dev := by
  unfold runDigest
  try dsimp only
  repeat' first
    | with_reducible assumption
    | (intro _; try dsimp only)
    | (with_reducible first | apply resStatus_ok | apply resFail_ok | apply noteRanges_ok | apply resOk_ok)
    | (with_reducible first | apply store_ok | apply ite_okR)
    | (split; all_goals try dsimp only)

theorem runBody_ok {d : Dev} {c : Ctx} {cmd : Cmd} (h1 : MemOk d) : MemOk (runBody d c cmd).dev := by
  unfold runBody
  try dsimp only
  repeat' first
    | (with_reducible first | assumption | apply runMatrix_ok | apply runConv_ok | apply runRow_ok | apply runVec_ok)
    | (with_reducible first | apply runCopy_ok | apply runMcast_ok | apply runFennel_ok | apply resOk_ok)
    | (with_reducible first | apply runSemSignal_ok | apply runTreeLoad_ok | apply runRouteLoad_ok)
    | (with_reducible first | apply runCollData_ok | apply runBind_ok | apply runUnbind_ok | apply runStepOpen_ok)
    | (with_reducible first | apply runStepClose_ok | apply runScaleSet_ok | apply runCensusRead_ok)
    | (with_reducible first | apply runDigest_ok | apply runTimestamp_ok | apply resStatus_ok)
    | (split; all_goals try dsimp only)

theorem startCmd_ok {d : Dev} {c : Cmd} {reached : Nat} (h1 : MemOk d) : MemOk (startCmd d c reached) := by
  unfold startCmd
  try dsimp only
  repeat' first
    | (with_reducible first | assumption | apply updCmd_ok | apply planStart_ok | apply stageStart_ok)
    | with_reducible apply queueTake_ok

theorem waitThenStart_ok {d : Dev} {c : Cmd} (h1 : MemOk d) : MemOk (waitThenStart d c) := by
  unfold waitThenStart
  try dsimp only
  repeat' first
    | with_reducible assumption
    | (intro _; try dsimp only)
    | (with_reducible first | apply updCmd_ok | apply finishWith_ok | apply startCmd_ok | apply ite_ok)

theorem runCmd_ok {d : Dev} {c : Cmd} (h1 : MemOk d) : MemOk (runCmd d c) := by
  unfold runCmd
  try dsimp only
  repeat' first
    | with_reducible assumption
    | (intro _; try dsimp only)
    | (with_reducible first | apply finishCmd_ok | apply updCmd_ok | apply stageReads_ok | apply runBody_ok)
    | (with_reducible first | apply noteRanges_ok | apply flushWrites_ok | apply bodyRan_ok | apply requestReads_ok)
    | with_reducible apply ite_ok
    | (split; all_goals try dsimp only)

theorem tryCmd_ok {d : Dev} {ring seq : Nat} (h1 : MemOk d) : MemOk (tryCmd d ring seq) := by
  unfold tryCmd
  try dsimp only
  repeat' first
    | with_reducible assumption
    | (intro _; try dsimp only)
    | (with_reducible first | apply waitThenStart_ok | apply runCmd_ok | apply ite_ok)
    | (split; all_goals try dsimp only)

theorem advance_ok {d : Dev} (h1 : MemOk d) : MemOk (advance d) := by
  unfold advance
  try dsimp only
  repeat' first
    | with_reducible assumption
    | (intro _; try dsimp only)
    | (with_reducible first | apply tryCmd_ok | apply foldl_ok)

theorem takeRow_ok {d : Dev} {r : Nat} {p : Nat → Bool} (h1 : MemOk d) : MemOk (takeRow d r p) := by
  unfold takeRow
  try dsimp only
  repeat' first
    | with_reducible assumption
    | (intro _; try dsimp only)
    | (with_reducible first | apply advance_ok | apply takeCommand_ok | apply ite_ok)
    | (split; all_goals try dsimp only)

theorem irqSend_ok {d : Dev} {r : Nat} {due : Bool} (h1 : MemOk d) : MemOk (irqSend d r due) := by
  unfold irqSend
  try dsimp only
  repeat' first
    | with_reducible assumption
    | (intro _; try dsimp only)
    | (with_reducible first | apply sendVector_ok | apply ite_ok)
    | (simp only [mk_ok])
    | with_reducible apply ok_mem

theorem countIrq_ok {d : Dev} {r : Nat} (h1 : MemOk d) : MemOk (countIrq d r) := by
  unfold countIrq
  try dsimp only
  repeat' first
    | with_reducible assumption
    | (intro _; try dsimp only)
    | (with_reducible first | apply irqSend_ok | apply ite_ok)
    | (simp only [mk_ok])
    | with_reducible apply ok_mem

theorem putRecord_ok {d : Dev} {r rec0 : Nat} (h1 : MemOk d) : MemOk (putRecord d r rec0) := by
  unfold putRecord
  try dsimp only
  repeat' first
    | (with_reducible first | assumption | apply store_ok | apply countIrq_ok | apply fset_ok)

theorem holdRecord_ok {d : Dev} {r rec0 : Nat} (h1 : MemOk d) : MemOk (holdRecord d r rec0) := by
  unfold holdRecord
  try dsimp only
  repeat' first
    | (with_reducible first | assumption | apply store_ok)
    | (simp only [mk_ok])
    | with_reducible apply ok_mem

theorem releaseHeld_ok {d : Dev} {r : Nat} (h1 : MemOk d) : MemOk (releaseHeld d r) := by
  unfold releaseHeld
  try dsimp only
  repeat' first
    | with_reducible assumption
    | (intro _; try dsimp only)
    | (with_reducible first | apply holdRecord_ok | apply putRecord_ok | apply foldl_ok | apply ite_ok)
    | (simp only [mk_ok])
    | with_reducible apply ok_mem

theorem announceFetchError_ok {d : Dev} {r : Nat} (h1 : MemOk d) : MemOk (announceFetchError d r) := by
  unfold announceFetchError
  try dsimp only
  repeat' first
    | with_reducible assumption
    | (intro _; try dsimp only)
    | (with_reducible first | apply evtSetOne_ok | apply sendVector_ok | apply ite_ok)
    | (simp only [mk_ok])
    | with_reducible apply ok_mem

theorem ringAfter_ok {d : Dev} {r : Nat} (h1 : MemOk d) : MemOk (ringAfter d r) := by
  unfold ringAfter
  try dsimp only
  repeat' first
    | with_reducible assumption
    | (intro _; try dsimp only)
    | (with_reducible first | apply fset_ok | apply announceFetchError_ok | apply ite_ok)

theorem resolveOpeners_ok {d : Dev} {c : Cmd} (h1 : MemOk d) : MemOk (resolveOpeners d c) := by
  unfold resolveOpeners
  try dsimp only
  repeat' first
    | with_reducible assumption
    | (intro _; try dsimp only)
    | (with_reducible first | apply updCmd_ok | apply finishWith_ok | apply foldl_ok | apply ite_ok)

theorem completeStep_ok {d : Dev} {c : Cmd} (h1 : MemOk d) : MemOk (completeStep d c) := by
  unfold completeStep
  try dsimp only
  repeat' first
    | with_reducible assumption
    | (intro _; try dsimp only)
    | (with_reducible first | apply resolveOpeners_ok | apply unmarkDeferred_ok | apply updGroup_ok | apply ite_ok)
    | (split; all_goals try dsimp only)

theorem recordCmd_ok {d : Dev} {c : Cmd} (h1 : MemOk d) : MemOk (recordCmd d c) := by
  unfold recordCmd
  try dsimp only
  repeat' first
    | with_reducible assumption
    | (intro _; try dsimp only)
    | (with_reducible first | apply stageEnd_ok | apply planCommit_ok | apply holdRecord_ok | apply putRecord_ok)
    | (with_reducible first | apply ringAfter_ok | apply completeStep_ok | apply postDeferred_ok | apply dropCmd_ok)
    | with_reducible apply ite_ok

theorem signalCmd_ok {d : Dev} {c : Cmd} (h1 : MemOk d) : MemOk (signalCmd d c) := by
  unfold signalCmd
  try dsimp only
  repeat' first
    | with_reducible assumption
    | (intro _; try dsimp only)
    | (with_reducible first | apply updCmd_ok | apply applySignal_ok | apply ite_ok)

theorem completeCmd_ok {d : Dev} {ring seq : Nat} (h1 : MemOk d) : MemOk (completeCmd d ring seq) := by
  unfold completeCmd
  split
  · exact h1
  · split
    · exact h1
    · split
      · extract_lets d1
        have h2 : MemOk d1 := signalCmd_ok h1
        split
        · split
          · exact advance_ok (recordCmd_ok h2)
          · exact h2
        · exact h2
      · exact advance_ok (recordCmd_ok h1)
      · exact h1

theorem waitResume_ok {d : Dev} {ring seq : Nat} (h1 : MemOk d) : MemOk (waitResume d ring seq) := by
  unfold waitResume
  try dsimp only
  repeat' first
    | with_reducible assumption
    | (intro _; try dsimp only)
    | (with_reducible first | apply advance_ok | apply waitThenStart_ok | apply ite_ok)
    | (split; all_goals try dsimp only)

theorem heldStart_ok {d : Dev} {g : Nat} (h1 : MemOk d) : MemOk (heldStart d g) := by
  unfold heldStart
  try dsimp only
  repeat' first
    | with_reducible assumption
    | (intro _; try dsimp only)
    | (with_reducible first | apply advance_ok | apply updCmd_ok | apply ite_ok)
    | (split; all_goals try dsimp only)

theorem creditReturn_ok {d : Dev} {q : Nat} (h1 : MemOk d) : MemOk (creditReturn d q) := by
  unfold creditReturn
  try dsimp only
  repeat' first
    | with_reducible assumption
    | (intro _; try dsimp only)
    | (with_reducible first | apply advance_ok | apply queueReturn_ok | apply ite_ok)

theorem stallRecord_ok {d : Dev} {q : Nat} (h1 : MemOk d) : MemOk (stallRecord d q) := by
  unfold stallRecord
  try dsimp only
  repeat' first
    | with_reducible assumption
    | (intro _; try dsimp only)
    | (with_reducible first | apply nutmeg_ok | apply ite_ok)
    | (simp only [mk_ok])
    | with_reducible apply ok_mem
    | (split; all_goals try dsimp only)

theorem recompute_ok {d : Dev} {i : Nat} (h1 : MemOk d) : MemOk (recompute d i) := by
  unfold recompute
  try dsimp only
  repeat' first
    | with_reducible assumption
    | (intro _; try dsimp only)
    | (with_reducible first | apply takeSpace_ok | apply runBody_ok | apply noteRanges_ok | apply stageReads_ok)
    | (with_reducible first | apply touchAcc_ok | apply dropStaged_ok | apply advance_ok | apply condRaise_ok)
    | (with_reducible first | apply updPlan_ok | apply ite_ok)
    | (split; all_goals try dsimp only)

theorem updPort_ok {d : Dev} {p : Nat} {f : PortRun → PortRun} (h1 : MemOk d) : MemOk (updPort d p f) := by
  unfold updPort
  try dsimp only
  repeat' first
    | with_reducible assumption
    | (simp only [mk_ok])
    | with_reducible apply ok_mem

theorem hostAct_ok {d : Dev} {p : Nat} {f : Dev → Dev} (h1 : MemOk d) (h2 : ∀ e, MemOk e → MemOk (f e)) : MemOk (hostAct
    d p f) := by
  unfold hostAct
  try dsimp only
  repeat' first
    | with_reducible assumption
    | (intro _; try dsimp only)
    | (with_reducible first | apply h2 | apply ite_ok)

theorem setPortState_ok {d : Dev} {p s : Nat} (h1 : MemOk d) : MemOk (setPortState d p s) := by
  unfold setPortState
  try dsimp only
  repeat' first
    | with_reducible assumption
    | (intro _; try dsimp only)
    | (with_reducible first | apply evtSet_ok | apply fset_ok | apply ite_ok)

theorem ringAct_ok {d : Dev} {p r : Nat} {f : Dev → Dev} (h1 : MemOk d) (h2 : ∀ e, MemOk e → MemOk (f e)) : MemOk
    (ringAct d p r f) := by
  unfold ringAct
  try dsimp only
  repeat' first
    | with_reducible assumption
    | (intro _; try dsimp only)
    | (with_reducible first | apply h2 | apply fsat_ok | apply ite_ok)

theorem enableCounts_ok {d : Dev} {r : Nat} (h1 : MemOk d) : MemOk (enableCounts d r) := by
  unfold enableCounts
  try dsimp only
  repeat' first
    | (with_reducible first | assumption | apply fset_ok)

theorem ringEnable_ok {d : Dev} {p r : Nat} (h1 : MemOk d) : MemOk (ringEnable d p r) := by
  unfold ringEnable
  try dsimp only
  repeat' first
    | with_reducible assumption
    | (intro _; try dsimp only)
    | (with_reducible first | apply ringAct_ok | apply fset_ok | apply enableCounts_ok | apply advance_ok)
    | (with_reducible first | apply releaseHeld_ok | apply ite_ok)
    | (simp only [mk_ok])
    | with_reducible apply ok_mem

theorem drainRing_ok {d : Dev} {r : Nat} (h1 : MemOk d) : MemOk (drainRing d r) := by
  unfold drainRing
  try dsimp only
  repeat' first
    | with_reducible assumption
    | (intro _; try dsimp only)
    | (with_reducible first | apply fset_ok | apply ite_ok)

theorem ringDisable_ok {d : Dev} {p r : Nat} (h1 : MemOk d) : MemOk (ringDisable d p r) := by
  unfold ringDisable
  try dsimp only
  repeat' first
    | with_reducible assumption
    | (intro _; try dsimp only)
    | (with_reducible first | apply ringAct_ok | apply drainRing_ok)

theorem abortRing_ok {d : Dev} {r : Nat} (h1 : MemOk d) : MemOk (abortRing d r) := abortTaken_ok h1

theorem ringAbort_ok {d : Dev} {p r : Nat} (h1 : MemOk d) : MemOk (ringAbort d p r) := by
  unfold ringAbort
  try dsimp only
  repeat' first
    | with_reducible assumption
    | (intro _; try dsimp only)
    | (with_reducible first | apply ringAct_ok | apply advance_ok | apply abortRing_ok)

theorem ringClearErr_ok {d : Dev} {p r : Nat} (h1 : MemOk d) : MemOk (ringClearErr d p r) := by
  unfold ringClearErr
  try dsimp only
  repeat' first
    | with_reducible assumption
    | (intro _; try dsimp only)
    | (with_reducible first | apply ringAct_ok | apply fset_ok | apply ite_ok)
    | (simp only [mk_ok])
    | with_reducible apply ok_mem

theorem ringError_ok {d : Dev} {r err : Nat} (h1 : MemOk d) : MemOk (ringError d r err) := by
  unfold ringError
  extract_lets d1
  have h2 : MemOk d1 := nutmeg_ok (fset_ok (fset_ok h1))
  with_reducible refine announceFetchError_ok ?_
  with_reducible exact eng_ok h2

theorem ringFetchError_ok {d : Dev} {r : Nat} (h1 : MemOk d) : MemOk (ringFetchError d r) := by
  unfold ringFetchError
  try dsimp only
  repeat' first
    | with_reducible assumption
    | (intro _; try dsimp only)
    | (with_reducible first | apply ringError_ok | apply fsat_ok | apply ite_ok)

theorem doorbellBad_ok {d : Dev} {p : Nat} (h1 : MemOk d) : MemOk (doorbellBad d p) := by
  unfold doorbellBad
  try dsimp only
  repeat' first
    | (with_reducible first | assumption | apply fsat_ok)

theorem doorbellAct_ok {d : Dev} {p r : Nat} {f : Dev → Dev} (h1 : MemOk d) (h2 : ∀ e, MemOk e → MemOk (f e)) : MemOk
    (doorbellAct d p r f) := by
  unfold doorbellAct
  try dsimp only
  repeat' first
    | with_reducible assumption
    | (intro _; try dsimp only)
    | (with_reducible first | apply h2 | apply doorbellBad_ok | apply fsat_ok | apply ite_ok)
    | (split; all_goals try dsimp only)

theorem doorbellSq_ok {d : Dev} {p r v : Nat} (h1 : MemOk d) : MemOk (doorbellSq d p r v) := by
  unfold doorbellSq
  try dsimp only
  repeat' first
    | with_reducible assumption
    | (intro _; try dsimp only)
    | (with_reducible first | apply doorbellAct_ok | apply doorbellBad_ok | apply fset_ok | apply ringError_ok)
    | with_reducible apply ite_ok

theorem doorbellCq_ok {d : Dev} {p r v : Nat} (h1 : MemOk d) : MemOk (doorbellCq d p r v) := by
  unfold doorbellCq
  try dsimp only
  repeat' first
    | with_reducible assumption
    | (intro _; try dsimp only)
    | (with_reducible first | apply doorbellAct_ok | apply doorbellBad_ok | apply fset_ok | apply ite_ok)

theorem msixUnmask_ok {d : Dev} {p v : Nat} (h1 : MemOk d) : MemOk (msixUnmask d p v) := by
  unfold msixUnmask
  try dsimp only
  repeat' first
    | with_reducible assumption
    | (intro _; try dsimp only)
    | (with_reducible first | apply emit_ok | apply ite_ok)
    | (simp only [mk_ok])
    | with_reducible apply ok_mem

theorem irqTimeout_ok {d : Dev} {r : Nat} (h1 : MemOk d) : MemOk (irqTimeout d r) := by
  unfold irqTimeout
  try dsimp only
  repeat' first
    | (with_reducible first | assumption | apply irqSend_ok)

theorem beat_ok {d : Dev} {p : Nat} (h1 : MemOk d) : MemOk (beat d p) := by
  unfold beat
  try dsimp only
  repeat' first
    | (with_reducible first | assumption | apply fset_ok)

theorem heartbeatWrite_ok {d : Dev} {p v : Nat} (h1 : MemOk d) : MemOk (heartbeatWrite d p v) := by
  unfold heartbeatWrite
  try dsimp only
  repeat' first
    | with_reducible assumption
    | (intro _; try dsimp only)
    | (with_reducible first | apply fset_ok | apply beat_ok | apply ite_ok)

theorem orphanPort_ok {d : Dev} {p : Nat} (h1 : MemOk d) : MemOk (orphanPort d p) := by
  unfold orphanPort
  try dsimp only
  repeat' first
    | (with_reducible first | assumption | apply nutmeg_ok | apply setPortState_ok | apply updPort_ok)

theorem heartbeatTimeout_ok {d : Dev} {p : Nat} (h1 : MemOk d) : MemOk (heartbeatTimeout d p) := by
  unfold heartbeatTimeout
  try dsimp only
  repeat' first
    | with_reducible assumption
    | (intro _; try dsimp only)
    | (with_reducible first | apply orphanPort_ok | apply ite_ok)

theorem orphanHold_ok {d : Dev} {p : Nat} (h1 : MemOk d) : MemOk (orphanHold d p) := by
  unfold orphanHold
  try dsimp only
  repeat' first
    | with_reducible assumption
    | (intro _; try dsimp only)
    | (with_reducible first | apply advance_ok | apply fset_ok | apply foldl_ok | apply ite_ok)

theorem closePort_ok {d : Dev} {p : Nat} (h1 : MemOk d) : MemOk (closePort d p) := by
  unfold closePort
  try dsimp only
  repeat' first
    | with_reducible assumption
    | (intro _; try dsimp only)
    | (with_reducible first | apply selfClose_ok | apply foldl_ok)

theorem orphanClose_ok {d : Dev} {p : Nat} (h1 : MemOk d) : MemOk (orphanClose d p) := by
  unfold orphanClose
  try dsimp only
  repeat' first
    | with_reducible assumption
    | (intro _; try dsimp only)
    | (with_reducible first | apply advance_ok | apply closePort_ok | apply ite_ok)

theorem attachResult_ok {d : Dev} {p : Nat} {ok : Bool} (h1 : MemOk d) : MemOk (attachResult d p ok) := by
  unfold attachResult
  try dsimp only
  repeat' first
    | (with_reducible first | assumption | apply fset_ok)

theorem portAttach_ok {d : Dev} {p : Nat} (h1 : MemOk d) : MemOk (portAttach d p) := by
  unfold portAttach
  try dsimp only
  repeat' first
    | with_reducible assumption
    | (intro _; try dsimp only)
    | (with_reducible first | apply attachResult_ok | apply updPort_ok | apply fset_ok | apply beat_ok)
    | (with_reducible first | apply setPortState_ok | apply irqSend_ok | apply foldl_ok | apply ite_ok)

theorem portResume_ok {d : Dev} {p : Nat} (h1 : MemOk d) : MemOk (portResume d p) := by
  unfold portResume
  try dsimp only
  repeat' first
    | with_reducible assumption
    | (intro _; try dsimp only)
    | (with_reducible first | apply attachResult_ok | apply beat_ok | apply updPort_ok | apply releaseHeld_ok)
    | (with_reducible first | apply fset_ok | apply advance_ok | apply foldl_ok | apply ite_ok)

theorem portResetRings_ok {d : Dev} {p : Nat} (h1 : MemOk d) : MemOk (portResetRings d p) := by
  unfold portResetRings
  try dsimp only
  repeat' first
    | with_reducible assumption
    | (intro _; try dsimp only)
    | (with_reducible first | apply attachResult_ok | apply beat_ok | apply updPort_ok | apply drainRing_ok)
    | (with_reducible first | apply abortRing_ok | apply advance_ok | apply closePort_ok | apply foldl_ok)
    | with_reducible apply ite_ok
    | (simp only [mk_ok])
    | with_reducible apply ok_mem

theorem portDetach_ok {d : Dev} {p : Nat} (h1 : MemOk d) : MemOk (portDetach d p) := by
  unfold portDetach
  try dsimp only
  repeat' first
    | with_reducible assumption
    | (intro _; try dsimp only)
    | (with_reducible first | apply attachResult_ok | apply setPortState_ok | apply updPort_ok | apply ite_ok)

theorem adoptRing_ok {q p : Nat} {d : Dev} {r : Nat} (h1 : MemOk d) : MemOk (adoptRing q p d r) := by
  unfold adoptRing
  try dsimp only
  repeat' first
    | with_reducible assumption
    | (intro _; try dsimp only)
    | (with_reducible first | apply fset_ok | apply ite_ok)
    | (simp only [mk_ok])
    | with_reducible apply ok_mem

theorem portAdopt_ok {d : Dev} {p : Nat} (h1 : MemOk d) : MemOk (portAdopt d p) := by
  unfold portAdopt
  try dsimp only
  repeat' first
    | with_reducible assumption
    | (intro _; try dsimp only)
    | (with_reducible first | apply adoptRing_ok | apply updGroup_ok | apply advance_ok | apply fset_ok)
    | (with_reducible first | apply setPortState_ok | apply foldl_ok | apply ite_ok)

theorem resetPortDomain_ok {d : Dev} {p : Nat} (h1 : MemOk d) : MemOk (resetPortDomain d p) := by
  unfold resetPortDomain
  try dsimp only
  repeat' first
    | with_reducible assumption
    | (intro _; try dsimp only)
    | (with_reducible first | apply regSet_ok | apply foldl_ok)

theorem portReset_ok {d : Dev} {p : Nat} (h1 : MemOk d) : MemOk (portReset d p) := by
  unfold portReset
  try dsimp only
  repeat' first
    | with_reducible assumption
    | (intro _; try dsimp only)
    | (with_reducible first | apply resetPortDomain_ok | apply orphanPort_ok | apply setPortState_ok | apply ite_ok)

theorem perstRelease_ok {d : Dev} {p : Nat} (h1 : MemOk d) : MemOk (perstRelease d p) := by
  unfold perstRelease
  try dsimp only
  repeat' first
    | (with_reducible first | assumption | apply updPort_ok)

theorem hostTrained_ok {d : Dev} {p : Nat} (h1 : MemOk d) : MemOk (hostTrained d p) := by
  unfold hostTrained
  try dsimp only
  repeat' first
    | with_reducible assumption
    | (intro _; try dsimp only)
    | (with_reducible first | apply setPortState_ok | apply ite_ok)

theorem d3Entry_ok {d : Dev} {p : Nat} (h1 : MemOk d) : MemOk (d3Entry d p) := by
  unfold d3Entry
  try dsimp only
  repeat' first
    | with_reducible assumption
    | (intro _; try dsimp only)
    | (with_reducible first | apply updPort_ok | apply resetPortDomain_ok | apply orphanPort_ok | apply ite_ok)

theorem d0Return_ok {d : Dev} {p : Nat} (h1 : MemOk d) : MemOk (d0Return d p) := by
  unfold d0Return
  try dsimp only
  repeat' first
    | (with_reducible first | assumption | apply updPort_ok)

theorem atsInvalidate_ok {d : Dev} {p tag : Nat} (h1 : MemOk d) : MemOk (atsInvalidate d p tag) := by
  unfold atsInvalidate
  try dsimp only
  repeat' first
    | (with_reducible first | assumption | apply emit_ok)

theorem bankAct_ok {d : Dev} {p q : Nat} {f : Dev → Dev} (h1 : MemOk d) (h2 : ∀ e, MemOk e → MemOk (f e)) : MemOk
    (bankAct d p q f) := by
  unfold bankAct
  try dsimp only
  repeat' first
    | with_reducible assumption
    | (intro _; try dsimp only)
    | (with_reducible first | apply h2 | apply fsat_ok | apply ite_ok)

theorem bankVector_ok {d : Dev} {p : Nat} (h1 : MemOk d) : MemOk (bankVector d p) := by
  unfold bankVector
  try dsimp only
  repeat' first
    | with_reducible assumption
    | (intro _; try dsimp only)
    | (with_reducible first | apply sendVector_ok | apply ite_ok)

theorem evtClear_ok {d : Dev} {p q v : Nat} (h1 : MemOk d) : MemOk (evtClear d p q v) := by
  unfold evtClear
  try dsimp only
  repeat' first
    | with_reducible assumption
    | (intro _; try dsimp only)
    | (with_reducible first | apply bankAct_ok | apply bankVector_ok | apply regSet_ok)

theorem evtEnWrite_ok {d : Dev} {p q v : Nat} (h1 : MemOk d) : MemOk (evtEnWrite d p q v) := by
  unfold evtEnWrite
  try dsimp only
  repeat' first
    | with_reducible assumption
    | (intro _; try dsimp only)
    | (with_reducible first | apply bankAct_ok | apply bankVector_ok | apply fset_ok)

end Sys2Proof.Machine
end

