-- ==== Sys2Proof/Laws/KeepPower.lean ====
section
/-! SUPPORT. Every operation keeps the canonical form of the memory: retirement, links, power, mailbox and resets. -/
namespace Sys2Proof.Machine

theorem capFill_ok {d : Dev} (h1 : MemOk d) : MemOk (capFill d) := by
  unfold capFill
  try dsimp only
  repeat' first
    | with_reducible assumption
    | (intro _; try dsimp only)
    | (with_reducible first | apply fset_ok | apply foldl_ok)

theorem capChange_ok {d : Dev} (h1 : MemOk d) : MemOk (capChange d) := by
  unfold capChange
  try dsimp only
  repeat' first
    | with_reducible assumption
    | (intro _; try dsimp only)
    | (with_reducible first | apply evtSet_ok | apply fset_ok | apply capFill_ok | apply ite_ok)

theorem registryShow_ok {d : Dev} (h1 : MemOk d) : MemOk (registryShow d) := by
  unfold registryShow
  try dsimp only
  repeat' first
    | (with_reducible first | assumption | apply fset_ok)

theorem registryTurn_ok {d : Dev} (h1 : MemOk d) : MemOk (registryTurn d) := by
  unfold registryTurn
  try dsimp only
  repeat' first
    | (with_reducible first | assumption | apply registryShow_ok)
    | (simp only [mk_ok])
    | with_reducible apply ok_mem

theorem registryCompact_ok {d : Dev} (h1 : MemOk d) : MemOk (registryCompact d) := by
  unfold registryCompact
  try dsimp only
  repeat' first
    | with_reducible assumption
    | (intro _; try dsimp only)
    | (with_reducible first | apply registryTurn_ok | apply ite_ok)

theorem registryAdd_ok {d : Dev} {kind cause unit detail stamp : Nat} (h1 : MemOk d) : MemOk (registryAdd d kind cause
    unit detail stamp) := by
  unfold registryAdd
  try dsimp only
  repeat' first
    | with_reducible assumption
    | (intro _; try dsimp only)
    | (with_reducible first | apply registryTurn_ok | apply registryShow_ok | apply nutmeg_ok | apply fsat_ok)
    | with_reducible apply ite_ok
    | (simp only [mk_ok])
    | with_reducible apply ok_mem

theorem lossOpenBy_ok {d : Dev} {lost : List (Prod Nat Nat)} {meets : Prod Nat Nat → Bool} (h1 : MemOk d) : MemOk
    (lossOpenBy d lost meets) := by
  unfold lossOpenBy
  try dsimp only
  repeat' first
    | with_reducible assumption
    | (intro _; try dsimp only)
    | (with_reducible first | apply updGroup_ok | apply condRaise_ok | apply foldl_ok | apply ite_ok)

theorem lossOpen_ok {d : Dev} {lost : List (Prod Nat Nat)} (h1 : MemOk d) : MemOk (lossOpen d lost) := by
  unfold lossOpen
  try dsimp only
  repeat' first
    | (with_reducible first | assumption | apply lossOpenBy_ok)

theorem nutmegAt_ok {d : Dev} {t : Nat} {e : NutEvent} (h1 : MemOk d) : MemOk (nutmegAt d t e) := by
  unfold nutmegAt
  try dsimp only
  repeat' first
    | (with_reducible first | assumption | apply nutmeg_ok)
    | (simp only [mk_ok])
    | with_reducible apply ok_mem

theorem retireRecord_ok {d : Dev} {kind cause unit detail sev stamp : Nat} (h1 : MemOk d) : MemOk (retireRecord d kind
    cause unit detail sev stamp) := by
  unfold retireRecord
  try dsimp only
  repeat' first
    | (with_reducible first | assumption | apply registryAdd_ok | apply nutmegAt_ok | apply capChange_ok)
    | with_reducible apply decision_ok

theorem showArrays_ok {d : Dev} {is : List Nat} (h1 : MemOk d) : MemOk (showArrays d is) := by
  unfold showArrays
  try dsimp only
  repeat' first
    | with_reducible assumption
    | (intro _; try dsimp only)
    | (with_reducible first | apply fset_ok | apply foldl_ok)

theorem retireCore_ok {d : Dev} {c cause : Nat} (h1 : MemOk d) : MemOk (retireCore d c cause) := by
  unfold retireCore
  try dsimp only
  repeat' first
    | with_reducible assumption
    | (intro _; try dsimp only)
    | (with_reducible first | apply retireRecord_ok | apply lossOpen_ok | apply showArrays_ok | apply ite_ok)
    | (simp only [mk_ok])
    | with_reducible apply ok_mem

theorem retireArray_ok {d : Dev} {i cause : Nat} (h1 : MemOk d) : MemOk (retireArray d i cause) := by
  unfold retireArray
  try dsimp only
  repeat' first
    | with_reducible assumption
    | (intro _; try dsimp only)
    | (with_reducible first | apply retireRecord_ok | apply lossOpen_ok | apply showArrays_ok | apply retireCore_ok)
    | with_reducible apply ite_ok
    | (simp only [mk_ok])
    | with_reducible apply ok_mem

theorem forward_ok {d : Dev} {m : Message} (h1 : MemOk d) : MemOk (forward d m) := by
  unfold forward
  try dsimp only
  repeat' first
    | with_reducible assumption
    | (intro _; try dsimp only)
    | (with_reducible first | apply onLink_ok | apply fsat_ok | apply sendQuiet_ok | apply ite_ok)
    | (split; all_goals try dsimp only)

theorem retrain_ok {d : Dev} {n : Nat} (h1 : MemOk d) : MemOk (retrain d n) := by
  unfold retrain
  try dsimp only
  repeat' first
    | with_reducible assumption
    | (intro _; try dsimp only)
    | (with_reducible first | apply nutmeg_ok | apply fset_ok | apply emit_ok | apply ite_ok)

theorem linkDown_ok {d : Dev} {n st : Nat} (h1 : MemOk d) : MemOk (linkDown d n st) := by
  unfold linkDown
  try dsimp only
  repeat' first
    | with_reducible assumption
    | (intro _; try dsimp only)
    | (with_reducible first | apply updLink_ok | apply fset_ok | apply evtSet_ok | apply nutmeg_ok)
    | (with_reducible first | apply forward_ok | apply foldl_ok)

theorem retireLink_ok {d : Dev} {n cause : Nat} (h1 : MemOk d) : MemOk (retireLink d n cause) := by
  unfold retireLink
  try dsimp only
  repeat' first
    | with_reducible assumption
    | (intro _; try dsimp only)
    | (with_reducible first | apply retireRecord_ok | apply linkDown_ok | apply ite_ok)
    | (simp only [mk_ok])
    | with_reducible apply ok_mem

theorem retireLane_ok {d : Dev} {n l cause : Nat} (h1 : MemOk d) : MemOk (retireLane d n l cause) := by
  unfold retireLane
  try dsimp only
  repeat' first
    | with_reducible assumption
    | (intro _; try dsimp only)
    | (with_reducible first | apply retireRecord_ok | apply fset_ok | apply retireLink_ok | apply ite_ok)
    | (simp only [mk_ok])
    | with_reducible apply ok_mem

theorem takeAck_ok {d : Dev} {n a : Nat} (h1 : MemOk d) : MemOk (takeAck d n a) := by
  unfold takeAck
  try dsimp only
  repeat' first
    | (with_reducible first | assumption | apply updLink_ok)

theorem takeCredit_ok {d : Dev} {n vc k : Nat} (h1 : MemOk d) : MemOk (takeCredit d n vc k) := by
  unfold takeCredit
  try dsimp only
  repeat' first
    | (with_reducible first | assumption | apply updLink_ok)

theorem takeHeader_ok {d : Dev} {n ack vc k : Nat} (h1 : MemOk d) : MemOk (takeHeader d n ack vc k) := by
  unfold takeHeader
  try dsimp only
  repeat' first
    | (with_reducible first | assumption | apply drainLink_ok | apply takeCredit_ok | apply takeAck_ok)

theorem resend_ok {d : Dev} {n q : Nat} (h1 : MemOk d) : MemOk (resend d n q) := by
  unfold resend
  try dsimp only
  repeat' first
    | with_reducible assumption
    | (intro _; try dsimp only)
    | (with_reducible first | apply fwrap_ok | apply updLink_ok | apply emit_ok | apply retrain_ok | apply foldl_ok)
    | with_reducible apply ite_ok
    | (split; all_goals try dsimp only)

theorem nackArrives_ok {d : Dev} {n ack vc k seq : Nat} (h1 : MemOk d) : MemOk (nackArrives d n ack vc k seq) := by
  unfold nackArrives
  try dsimp only
  repeat' first
    | with_reducible assumption
    | (intro _; try dsimp only)
    | (with_reducible first | apply resend_ok | apply takeHeader_ok | apply ite_ok)

theorem idleArrives_ok {d : Dev} {n ack vc k : Nat} (h1 : MemOk d) : MemOk (idleArrives d n ack vc k) := by
  unfold idleArrives
  try dsimp only
  repeat' first
    | with_reducible assumption
    | (intro _; try dsimp only)
    | (with_reducible first | apply takeHeader_ok | apply ite_ok)

theorem sendNack_ok {d : Dev} {n : Nat} (h1 : MemOk d) : MemOk (sendNack d n) := by
  unfold sendNack
  try dsimp only
  repeat' first
    | with_reducible assumption
    | (intro _; try dsimp only)
    | (with_reducible first | apply emit_ok | apply updLink_ok | apply ite_ok)
    | (split; all_goals try dsimp only)

theorem corruptFlit_ok {d : Dev} {n : Nat} {f : FlitFault} (h1 : MemOk d) : MemOk (corruptFlit d n f) := by
  unfold corruptFlit
  try dsimp only
  repeat' first
    | with_reducible assumption
    | (intro _; try dsimp only)
    | (with_reducible first | apply retrain_ok | apply fsat_ok | apply sendNack_ok | apply updLink_ok | apply ite_ok)
    | (split; all_goals try dsimp only)

theorem ackStall_ok {d : Dev} {n : Nat} {long : Bool} (h1 : MemOk d) : MemOk (ackStall d n long) := by
  unfold ackStall
  try dsimp only
  repeat' first
    | with_reducible assumption
    | (intro _; try dsimp only)
    | (with_reducible first | apply retrain_ok | apply resend_ok | apply ite_ok)
    | (split; all_goals try dsimp only)

theorem linkMgmt_ok {d : Dev} {n peer port mask : Nat} (h1 : MemOk d) : MemOk (linkMgmt d n peer port mask) := by
  unfold linkMgmt
  try dsimp only
  repeat' first
    | (with_reducible first | assumption | apply fset_ok | apply updLink_ok)

theorem trainOk_ok {d : Dev} {n : Nat} (h1 : MemOk d) : MemOk (trainOk d n) := by
  unfold trainOk
  try dsimp only
  repeat' first
    | with_reducible assumption
    | (intro _; try dsimp only)
    | (with_reducible first | apply retireLink_ok | apply fset_ok | apply updLink_ok | apply evtSet_ok)
    | (with_reducible first | apply drainLink_ok | apply resend_ok | apply ite_ok)
    | (split; all_goals try dsimp only)

theorem trainFail_ok {d : Dev} {n lanes : Nat} (h1 : MemOk d) : MemOk (trainFail d n lanes) := by
  unfold trainFail
  try dsimp only
  repeat' first
    | with_reducible assumption
    | (intro _; try dsimp only)
    | (with_reducible first | apply updLink_ok | apply fset_ok | apply linkDown_ok | apply emit_ok | apply ite_ok)
    | (split; all_goals try dsimp only)

theorem trainDone_ok {d : Dev} {n : Nat} {ok : Bool} {lanes : Nat} (h1 : MemOk d) : MemOk (trainDone d n ok lanes) := by
  unfold trainDone
  try dsimp only
  repeat' first
    | with_reducible assumption
    | (intro _; try dsimp only)
    | (with_reducible first | apply trainFail_ok | apply retireLane_ok | apply trainOk_ok | apply foldl_ok)
    | with_reducible apply ite_ok

theorem linkRetry_ok {d : Dev} {n : Nat} (h1 : MemOk d) : MemOk (linkRetry d n) := by
  unfold linkRetry
  try dsimp only
  repeat' first
    | with_reducible assumption
    | (intro _; try dsimp only)
    | (with_reducible first | apply emit_ok | apply fset_ok | apply ite_ok)

theorem laneWindow_ok {d : Dev} {n : Nat} {syms : List Nat} (h1 : MemOk d) : MemOk (laneWindow d n syms) := by
  unfold laneWindow
  try dsimp only
  repeat' first
    | with_reducible assumption
    | (intro _; try dsimp only)
    | (with_reducible first | apply fsat_ok | apply fset_ok | apply updLink_ok | apply retireLane_ok)
    | (with_reducible first | apply retrain_ok | apply foldl_ok | apply ite_ok)

theorem acceptFlit_ok {d : Dev} {n : Nat} {f : Flit} {p : Payload} {deliver : Dev → Dev} (h1 : MemOk d) (h2 : ∀ e, MemOk
    e → MemOk (deliver e)) : MemOk (acceptFlit d n f p deliver) := by
  unfold acceptFlit
  try dsimp only
  repeat' first
    | with_reducible assumption
    | (intro _; try dsimp only)
    | (with_reducible first | apply h2 | apply updLink_ok | apply emit_ok | apply takeHeader_ok | apply forward_ok)
    | (with_reducible first | apply sendNack_ok | apply ite_ok)
    | (split; all_goals try dsimp only)

theorem refuse_ok {d : Dev} {src tag : Nat} (h1 : MemOk d) : MemOk (refuse d src tag) := by
  unfold refuse
  try dsimp only
  repeat' first
    | (with_reducible first | assumption | apply sendQuiet_ok | apply fsat_ok)

theorem requestFails_ok {d : Dev} {src : Nat} {p : Payload} {f : Fail} (h1 : MemOk d) : MemOk (requestFails d src p f)
    := by
  unfold requestFails
  try dsimp only
  repeat' first
    | with_reducible assumption
    | (intro _; try dsimp only)
    | (with_reducible first | apply sendQuiet_ok | apply ite_ok)
    | (simp only [mk_ok])
    | with_reducible apply ok_mem

theorem serveRequest_ok {d : Dev} {src : Nat} {p : Payload} (h1 : MemOk d) : MemOk (serveRequest d src p) := by
  unfold serveRequest
  try dsimp only
  repeat' first
    | with_reducible assumption
    | (intro _; try dsimp only)
    | (with_reducible first | apply refuse_ok | apply requestFails_ok | apply sendQuiet_ok | apply store_ok)
    | (with_reducible first | apply touchAcc_ok | apply noteRead_ok | apply advance_ok | apply semApply_ok)
    | (with_reducible first | apply leafTakes_ok | apply ite_ok)
    | (split; all_goals try dsimp only)

theorem dropReq_ok {d : Dev} {tag : Nat} (h1 : MemOk d) : MemOk (dropReq d tag) := by
  unfold dropReq
  try dsimp only
  repeat' first
    | with_reducible assumption
    | (simp only [mk_ok])
    | with_reducible apply ok_mem

theorem reqDone_ok {d : Dev} {r : PeerReq} {data : List Byte} (h1 : MemOk d) : MemOk (reqDone d r data) := by
  unfold reqDone
  try dsimp only
  repeat' first
    | (with_reducible first | assumption | apply advance_ok | apply updCmd_ok | apply dropReq_ok)

theorem reqFailed_ok {d : Dev} {r : PeerReq} {status : Nat} (h1 : MemOk d) : MemOk (reqFailed d r status) := by
  unfold reqFailed
  try dsimp only
  repeat' first
    | with_reducible assumption
    | (intro _; try dsimp only)
    | (with_reducible first | apply failCmd_ok | apply dropReq_ok | apply condRaise_ok | apply advance_ok)
    | with_reducible apply ite_ok
    | (split; all_goals try dsimp only)

theorem responseArrives_ok {d : Dev} {src : Nat} {p : Payload} (h1 : MemOk d) : MemOk (responseArrives d src p) := by
  unfold responseArrives
  try dsimp only
  repeat' first
    | (with_reducible first | assumption | apply reqFailed_ok | apply reqDone_ok)
    | (simp only [mk_ok])
    | with_reducible apply ok_mem
    | (split; all_goals try dsimp only)

theorem respTimeout_ok {d : Dev} {tag : Nat} (h1 : MemOk d) : MemOk (respTimeout d tag) := by
  unfold respTimeout
  try dsimp only
  repeat' first
    | (with_reducible first | assumption | apply reqFailed_ok | apply fsat_ok)
    | (split; all_goals try dsimp only)

theorem probeTick_ok {d : Dev} (h1 : MemOk d) : MemOk (probeTick d) := by
  unfold probeTick
  try dsimp only
  repeat' first
    | with_reducible assumption
    | (intro _; try dsimp only)
    | (with_reducible first | apply sendQuiet_ok | apply foldl_ok)
    | (simp only [mk_ok])
    | with_reducible apply ok_mem

theorem peerUnreachable_ok {d : Dev} {peer : Nat} (h1 : MemOk d) : MemOk (peerUnreachable d peer) := by
  unfold peerUnreachable
  try dsimp only
  repeat' first
    | with_reducible assumption
    | (intro _; try dsimp only)
    | (with_reducible first | apply nutmeg_ok | apply semApply_ok | apply advance_ok | apply failRuns_ok)
    | (with_reducible first | apply stepsLosePeer_ok | apply foldl_ok | apply ite_ok)
    | (simp only [mk_ok])
    | with_reducible apply ok_mem

theorem dropRegs_ok {d : Dev} {p : Reg → Nat → Bool} (h1 : MemOk d) : MemOk (dropRegs d p) := by
  unfold dropRegs
  try dsimp only
  repeat' first
    | with_reducible assumption
    | (simp only [mk_ok])
    | with_reducible apply ok_mem

theorem showRetired_ok {d : Dev} (h1 : MemOk d) : MemOk (showRetired d) := by
  unfold showRetired
  try dsimp only
  repeat' first
    | with_reducible assumption
    | (intro _; try dsimp only)
    | (with_reducible first | apply showArrays_ok | apply fset_ok | apply foldl_ok)

theorem saveHours_ok {d : Dev} (h1 : MemOk d) : MemOk (saveHours d) := by
  unfold saveHours
  try dsimp only
  repeat' first
    | with_reducible assumption
    | (intro _; try dsimp only)
    | with_reducible apply ite_ok
    | (simp only [mk_ok])
    | with_reducible apply ok_mem

theorem startHours_ok {d : Dev} (h1 : MemOk d) : MemOk (startHours d) := by
  unfold startHours
  try dsimp only
  repeat' first
    | with_reducible assumption
    | (simp only [mk_ok])
    | with_reducible apply ok_mem

theorem powerOff_ok {d0 : Dev} (h1 : MemOk d0) : MemOk (powerOff d0) := by
  unfold powerOff
  try dsimp only
  repeat' first
    | (with_reducible first | assumption | apply saveHours_ok | apply setPortState_ok | apply hostMem_memOk)
    | (simp only [mk_ok])

theorem updDie_ok {d : Dev} {e : Nat} {f : DiePower → DiePower} (h1 : MemOk d) : MemOk (updDie d e f) := by
  unfold updDie
  try dsimp only
  repeat' first
    | with_reducible assumption
    | (simp only [mk_ok])
    | with_reducible apply ok_mem

theorem powered_ok {d : Dev} {f : Dev → Dev} (h1 : MemOk d) (h2 : ∀ e, MemOk e → MemOk (f e)) : MemOk (powered d f) :=
    by
  unfold powered
  try dsimp only
  repeat' first
    | with_reducible assumption
    | (intro _; try dsimp only)
    | (with_reducible first | apply h2 | apply ite_ok)

theorem protectiveAct_ok {d : Dev} {code unit sev : Nat} (h1 : MemOk d) : MemOk (protectiveAct d code unit sev) := by
  unfold protectiveAct
  try dsimp only
  repeat' first
    | (with_reducible first | assumption | apply evtSet_ok | apply decision_ok | apply nutmeg_ok)

theorem rateShow_ok {d : Dev} {e : Nat} (h1 : MemOk d) : MemOk (rateShow d e) := by
  unfold rateShow
  try dsimp only
  repeat' first
    | (with_reducible first | assumption | apply fset_ok)

theorem condShow_ok {d : Dev} (h1 : MemOk d) : MemOk (condShow d) := by
  unfold condShow
  try dsimp only
  repeat' first
    | with_reducible assumption
    | (intro _; try dsimp only)
    | (with_reducible first | apply fset_ok | apply ite_ok)

theorem capApply_ok {d : Dev} (h1 : MemOk d) : MemOk (capApply d) := by
  unfold capApply
  try dsimp only
  repeat' first
    | with_reducible assumption
    | (intro _; try dsimp only)
    | (with_reducible first | apply fset_ok | apply ite_ok)

theorem limitsShow_ok {d : Dev} (h1 : MemOk d) : MemOk (limitsShow d) := by
  unfold limitsShow
  try dsimp only
  repeat' first
    | (with_reducible first | assumption | apply capApply_ok | apply condShow_ok | apply rateShow_ok)

theorem shutdown_ok {d : Dev} {cause sensor : Nat} (h1 : MemOk d) : MemOk (shutdown d cause sensor) := by
  unfold shutdown
  try dsimp only
  repeat' first
    | with_reducible assumption
    | (intro _; try dsimp only)
    | (with_reducible first | apply fset_ok | apply fsat_ok | apply powerOff_ok | apply ite_ok)
    | (simp only [mk_ok])
    | with_reducible apply ok_mem

theorem setLevel_ok {d : Dev} {e loc lvl : Nat} (h1 : MemOk d) : MemOk (setLevel d e loc lvl) := by
  unfold setLevel
  try dsimp only
  repeat' first
    | with_reducible assumption
    | (intro _; try dsimp only)
    | (with_reducible first | apply fset_ok | apply evtSet_ok | apply nutmeg_ok | apply decision_ok)
    | (with_reducible first | apply limitsShow_ok | apply ite_ok)

theorem compareTemp_ok {d : Dev} {e loc sensor : Nat} (h1 : MemOk d) : MemOk (compareTemp d e loc sensor) := by
  unfold compareTemp
  try dsimp only
  repeat' first
    | with_reducible assumption
    | (intro _; try dsimp only)
    | (with_reducible first | apply shutdown_ok | apply setLevel_ok | apply ite_ok)

theorem tempShow_ok {d : Dev} {e : Nat} (h1 : MemOk d) : MemOk (tempShow d e) := by
  unfold tempShow
  try dsimp only
  repeat' first
    | (with_reducible first | assumption | apply fset_ok)

theorem refreshShow_ok {d : Dev} {s : Nat} (h1 : MemOk d) : MemOk (refreshShow d s) := by
  unfold refreshShow
  try dsimp only
  repeat' first
    | with_reducible assumption
    | (intro _; try dsimp only)
    | (with_reducible first | apply fset_ok | apply ite_ok)

theorem thermalSample_ok {d : Dev} {kind i v : Nat} (h1 : MemOk d) : MemOk (thermalSample d kind i v) := by
  unfold thermalSample
  try dsimp only
  repeat' first
    | with_reducible assumption
    | (intro _; try dsimp only)
    | (with_reducible first | apply compareTemp_ok | apply tempShow_ok | apply fset_ok | apply refreshShow_ok)
    | with_reducible apply ite_ok
    | (simp only [mk_ok])
    | with_reducible apply ok_mem
    | (split; all_goals try dsimp only)

theorem throttleEscalate_ok {d : Dev} {e loc : Nat} (h1 : MemOk d) : MemOk (throttleEscalate d e loc) := by
  unfold throttleEscalate
  try dsimp only
  repeat' first
    | with_reducible assumption
    | (intro _; try dsimp only)
    | (with_reducible first | apply setLevel_ok | apply ite_ok)

theorem throttleRelease_ok {d : Dev} {e loc : Nat} (h1 : MemOk d) : MemOk (throttleRelease d e loc) := by
  unfold throttleRelease
  try dsimp only
  repeat' first
    | with_reducible assumption
    | (intro _; try dsimp only)
    | (with_reducible first | apply setLevel_ok | apply ite_ok)

theorem stepTo_ok {d : Dev} {e k : Nat} (h1 : MemOk d) : MemOk (stepTo d e k) := by
  unfold stepTo
  try dsimp only
  repeat' first
    | (with_reducible first | assumption | apply updDie_ok | apply fset_ok)

theorem marginsShow_ok {d : Dev} {e : Nat} (h1 : MemOk d) : MemOk (marginsShow d e) := by
  unfold marginsShow
  try dsimp only
  repeat' first
    | with_reducible assumption
    | (intro _; try dsimp only)
    | (with_reducible first | apply fset_ok | apply foldl_ok)
    | (split; all_goals try dsimp only)

theorem stepChangeDone_ok {d : Dev} {e : Nat} (h1 : MemOk d) : MemOk (stepChangeDone d e) := by
  unfold stepChangeDone
  try dsimp only
  repeat' first
    | with_reducible assumption
    | (intro _; try dsimp only)
    | (with_reducible first | apply powered_ok | apply marginsShow_ok | apply fset_ok | apply ite_ok)

theorem warningStepDown_ok {d : Dev} {e : Nat} (h1 : MemOk d) : MemOk (warningStepDown d e) := by
  unfold warningStepDown
  try dsimp only
  repeat' first
    | with_reducible assumption
    | (intro _; try dsimp only)
    | (with_reducible first | apply updDie_ok | apply stepTo_ok | apply ite_ok)

theorem droopDetect_ok {d : Dev} {core : Nat} (h1 : MemOk d) : MemOk (droopDetect d core) := by
  unfold droopDetect
  try dsimp only
  repeat' first
    | with_reducible assumption
    | (intro _; try dsimp only)
    | (with_reducible first | apply powered_ok | apply fsat_ok | apply updDie_ok | apply condShow_ok)
    | (with_reducible first | apply nutmeg_ok | apply fset_ok | apply ite_ok)

theorem droopStormEnd_ok {d : Dev} {e : Nat} (h1 : MemOk d) : MemOk (droopStormEnd d e) := by
  unfold droopStormEnd
  try dsimp only
  repeat' first
    | with_reducible assumption
    | (intro _; try dsimp only)
    | (with_reducible first | apply condShow_ok | apply fset_ok | apply ite_ok)

theorem inputSample_ok {d : Dev} {mv ma10 loss : Nat} (h1 : MemOk d) : MemOk (inputSample d mv ma10 loss) := by
  unfold inputSample
  try dsimp only
  repeat' first
    | with_reducible assumption
    | (intro _; try dsimp only)
    | (with_reducible first | apply powered_ok | apply fset_ok | apply fwrap_ok)
    | (simp only [mk_ok])
    | with_reducible apply ok_mem

theorem undervoltage_ok {d : Dev} (h1 : MemOk d) : MemOk (undervoltage d) := by
  unfold undervoltage
  try dsimp only
  repeat' first
    | with_reducible assumption
    | (intro _; try dsimp only)
    | (with_reducible first | apply powered_ok | apply limitsShow_ok | apply protectiveAct_ok | apply fset_ok)
    | with_reducible apply ite_ok

theorem undervoltageClear_ok {d : Dev} (h1 : MemOk d) : MemOk (undervoltageClear d) := by
  unfold undervoltageClear
  try dsimp only
  repeat' first
    | with_reducible assumption
    | (intro _; try dsimp only)
    | (with_reducible first | apply powered_ok | apply limitsShow_ok | apply fset_ok)

theorem inputShutdown_ok {d : Dev} {cause : Nat} (h1 : MemOk d) : MemOk (inputShutdown d cause) := by
  unfold inputShutdown
  try dsimp only
  repeat' first
    | with_reducible assumption
    | (intro _; try dsimp only)
    | (with_reducible first | apply powered_ok | apply shutdown_ok)

theorem hwCapLoop_ok {d : Dev} {e measured modelled : Nat} (h1 : MemOk d) : MemOk (hwCapLoop d e measured modelled) :=
    by
  unfold hwCapLoop
  try dsimp only
  repeat' first
    | with_reducible assumption
    | (intro _; try dsimp only)
    | (with_reducible first | apply powered_ok | apply limitsShow_ok | apply updDie_ok)

theorem chooseStep_ok {d : Dev} {e fits : Nat} (h1 : MemOk d) : MemOk (chooseStep d e fits) := by
  unfold chooseStep
  try dsimp only
  repeat' first
    | with_reducible assumption
    | (intro _; try dsimp only)
    | (with_reducible first | apply stepTo_ok | apply ite_ok)

theorem fwCapLoop_ok {d : Dev} {x : LoopInput} (h1 : MemOk d) : MemOk (fwCapLoop d x) := by
  unfold fwCapLoop
  try dsimp only
  repeat' first
    | with_reducible assumption
    | (intro _; try dsimp only)
    | (with_reducible first | apply fset_ok | apply protectiveAct_ok | apply decision_ok | apply limitsShow_ok)
    | (with_reducible first | apply chooseStep_ok | apply ite_ok)
    | (simp only [mk_ok])
    | with_reducible apply ok_mem

theorem stackWindow_ok {d : Dev} {s acts rds wrs : Nat} (h1 : MemOk d) : MemOk (stackWindow d s acts rds wrs) := by
  unfold stackWindow
  try dsimp only
  repeat' first
    | with_reducible assumption
    | (intro _; try dsimp only)
    | (with_reducible first | apply powered_ok | apply fset_ok | apply ite_ok)
    | (simp only [mk_ok])
    | with_reducible apply ok_mem

theorem canaryUpdate_ok {d : Dev} {s n : Nat} {dead : Bool} (h1 : MemOk d) : MemOk (canaryUpdate d s n dead) := by
  unfold canaryUpdate
  try dsimp only
  repeat' first
    | with_reducible assumption
    | (intro _; try dsimp only)
    | (with_reducible first | apply powered_ok | apply registryAdd_ok | apply fset_ok | apply nutmeg_ok)
    | with_reducible apply ite_ok

theorem layerModelUpdate_ok {d : Dev} {s rows : Nat} (h1 : MemOk d) : MemOk (layerModelUpdate d s rows) := by
  unfold layerModelUpdate
  try dsimp only
  repeat' first
    | with_reducible assumption
    | (intro _; try dsimp only)
    | (with_reducible first | apply powered_ok | apply fset_ok | apply ite_ok)
    | (simp only [mk_ok])
    | with_reducible apply ok_mem

theorem flagShow_ok {d : Dev} {s : Nat} (h1 : MemOk d) : MemOk (flagShow d s) := by
  unfold flagShow
  try dsimp only
  repeat' first
    | (with_reducible first | assumption | apply fset_ok)

theorem retireDiode_ok {d : Dev} {s : Nat} (h1 : MemOk d) : MemOk (retireDiode d s) := by
  unfold retireDiode
  try dsimp only
  repeat' first
    | with_reducible assumption
    | (intro _; try dsimp only)
    | (with_reducible first | apply registryAdd_ok | apply fset_ok | apply decision_ok | apply nutmeg_ok)
    | with_reducible apply ite_ok

theorem suspectNow_ok {d : Dev} {s : Nat} (h1 : MemOk d) : MemOk (suspectNow d s) := by
  unfold suspectNow
  try dsimp only
  repeat' first
    | with_reducible assumption
    | (simp only [mk_ok])
    | with_reducible apply ok_mem

theorem addFlag_ok {d : Dev} {s : Nat} (h1 : MemOk d) : MemOk (addFlag d s) := by
  unfold addFlag
  try dsimp only
  repeat' first
    | with_reducible assumption
    | (intro _; try dsimp only)
    | (with_reducible first | apply flagShow_ok | apply retireDiode_ok | apply ite_ok)
    | (simp only [mk_ok])
    | with_reducible apply ok_mem

theorem layerGovern_ok {d : Dev} {s : Nat} (h1 : MemOk d) : MemOk (layerGovern d s) := by
  unfold layerGovern
  try dsimp only
  repeat' first
    | with_reducible assumption
    | (intro _; try dsimp only)
    | (with_reducible first | apply powered_ok | apply fset_ok | apply nutmeg_ok | apply suspectNow_ok)
    | (with_reducible first | apply addFlag_ok | apply compareTemp_ok | apply tempShow_ok | apply ite_ok)

theorem suspectTick_ok {d : Dev} {s : Nat} (h1 : MemOk d) : MemOk (suspectTick d s) := by
  unfold suspectTick
  try dsimp only
  repeat' first
    | with_reducible assumption
    | (intro _; try dsimp only)
    | (with_reducible first | apply addFlag_ok | apply ite_ok)

theorem suspectClose_ok {d : Dev} {s : Nat} (h1 : MemOk d) : MemOk (suspectClose d s) := by
  unfold suspectClose
  try dsimp only
  repeat' first
    | with_reducible assumption
    | (intro _; try dsimp only)
    | (with_reducible first | apply flagShow_ok | apply fset_ok | apply ite_ok)

theorem ageingProbe_ok {d : Dev} {i index vmin : Nat} (h1 : MemOk d) : MemOk (ageingProbe d i index vmin) := by
  unfold ageingProbe
  try dsimp only
  repeat' first
    | with_reducible assumption
    | (intro _; try dsimp only)
    | (with_reducible first | apply powered_ok | apply fset_ok | apply ite_ok)

theorem marginReplan_ok {d : Dev} {i core : Nat} (h1 : MemOk d) : MemOk (marginReplan d i core) := by
  unfold marginReplan
  try dsimp only
  repeat' first
    | with_reducible assumption
    | (intro _; try dsimp only)
    | (with_reducible first | apply powered_ok | apply fset_ok | apply decision_ok | apply nutmeg_ok)
    | (with_reducible first | apply retireRecord_ok | apply retireCore_ok | apply ite_ok)
    | (simp only [mk_ok])
    | with_reducible apply ok_mem
    | (split; all_goals try dsimp only)

theorem sramWrite_ok {d : Dev} {a : Nat} {bs : List Byte} (h1 : MemOk d) : MemOk (sramWrite d a bs) := by
  induction bs generalizing d a with
  | nil => exact h1
  | cons b rest ih => exact ih (fw_ok h1)

theorem enterComp_ok {d : Dev} {k : Nat} (h1 : MemOk d) : MemOk (enterComp d k) := by
  unfold enterComp
  try dsimp only
  repeat' first
    | with_reducible assumption
    | (simp only [mk_ok])
    | with_reducible apply ok_mem

theorem mbxSet_ok {d : Dev} {ch off : Nat} {v : Byte} (h1 : MemOk d) : MemOk (mbxSet d ch off v) := by
  unfold mbxSet
  try dsimp only
  repeat' first
    | with_reducible assumption
    | (simp only [mk_ok])
    | with_reducible apply ok_mem

theorem mbxWrite_ok {d : Dev} {ch off : Nat} {bs : List Byte} (h1 : MemOk d) : MemOk (mbxWrite d ch off bs) := by
  induction bs generalizing d off with
  | nil => exact h1
  | cons b rest ih => exact ih (mbxSet_ok h1)

theorem mbxZero_ok {d : Dev} {ch : Nat} (h1 : MemOk d) : MemOk (mbxZero d ch) := by
  unfold mbxZero
  try dsimp only
  repeat' first
    | with_reducible assumption
    | (simp only [mk_ok])
    | with_reducible apply ok_mem

theorem respond_ok {d : Dev} {ch result : Nat} {payload : List Byte} (h1 : MemOk d) : MemOk (respond d ch result
    payload) := by
  unfold respond
  try dsimp only
  repeat' first
    | with_reducible assumption
    | (intro _; try dsimp only)
    | (with_reducible first | apply mbxWrite_ok | apply fset_ok | apply sendVector_ok | apply ite_ok)

theorem answer_ok {d : Dev} {ch result : Nat} (h1 : MemOk d) : MemOk (answer d ch result) := by
  unfold answer
  try dsimp only
  repeat' first
    | (with_reducible first | assumption | apply respond_ok)

theorem respondFree_ok {d : Dev} {ch : Nat} {values : List Nat} (h1 : MemOk d) : MemOk (respondFree d ch values) := by
  unfold respondFree
  try dsimp only
  repeat' first
    | (with_reducible first | assumption | apply takeFree_ok | apply emit_ok | apply respond_ok)

theorem mbxDown_ok {d : Dev} {ch : Nat} (h1 : MemOk d) : MemOk (mbxDown d ch) := by
  unfold mbxDown
  try dsimp only
  repeat' first
    | with_reducible assumption
    | (intro _; try dsimp only)
    | (with_reducible first | apply fsat_ok | apply nutmeg_ok | apply ite_ok)

theorem mbxDoorbell_ok {d : Dev} {ident ch len : Nat} (h1 : MemOk d) : MemOk (mbxDoorbell d ident ch len) := by
  unfold mbxDoorbell
  try dsimp only
  repeat' first
    | with_reducible assumption
    | (intro _; try dsimp only)
    | (with_reducible first | apply fsat_ok | apply mbxDown_ok | apply fset_ok | apply answer_ok | apply ite_ok)

theorem mbxDoneClear_ok {d : Dev} {ident ch : Nat} (h1 : MemOk d) : MemOk (mbxDoneClear d ident ch) := by
  unfold mbxDoneClear
  try dsimp only
  repeat' first
    | with_reducible assumption
    | (intro _; try dsimp only)
    | (with_reducible first | apply fsat_ok | apply fset_ok | apply mbxZero_ok | apply ite_ok)

theorem served_ok {d : Dev} {ch svc : Nat} {f : Dev → Dev} (h1 : MemOk d) (h2 : ∀ e, MemOk e → MemOk (f e)) : MemOk
    (served d ch svc f) := by
  unfold served
  try dsimp only
  repeat' first
    | with_reducible assumption
    | (intro _; try dsimp only)
    | (with_reducible first | apply h2 | apply enterComp_ok | apply ite_ok)

theorem servedFn_ok {d : Dev} {ch svc fn : Nat} {f : Dev → Dev} (h1 : MemOk d) (h2 : ∀ e, MemOk e → MemOk (f e)) : MemOk
    (servedFn d ch svc fn f) := by
  unfold servedFn
  try dsimp only
  repeat' first
    | with_reducible assumption
    | (intro _; try dsimp only)
    | (with_reducible first | apply h2 | apply served_ok | apply ite_ok)

theorem driverGate_ok {d : Dev} {ch : Nat} {f : Dev → Dev} (h1 : MemOk d) (h2 : ∀ e, MemOk e → MemOk (f e)) : MemOk
    (driverGate d ch f) := by
  unfold driverGate
  try dsimp only
  repeat' first
    | with_reducible assumption
    | (intro _; try dsimp only)
    | (with_reducible first | apply h2 | apply answer_ok | apply ite_ok)

theorem hello_ok {d : Dev} {ch lo hi : Nat} (h1 : MemOk d) : MemOk (hello d ch lo hi) := by
  unfold hello
  try dsimp only
  repeat' first
    | with_reducible assumption
    | (intro _; try dsimp only)
    | (with_reducible first | apply answer_ok | apply respondFree_ok | apply ite_ok)
    | (simp only [mk_ok])
    | with_reducible apply ok_mem

theorem stageImage_ok {d : Dev} {bs : List Byte} (h1 : MemOk d) : MemOk (stageImage d bs) := by
  unfold stageImage
  try dsimp only
  repeat' first
    | (with_reducible first | assumption | apply takeFree_ok | apply store_ok)

theorem putBank_ok {d : Dev} {b : Nat} {x : Option FwImage} (h1 : MemOk d) : MemOk (putBank d b x) := by
  unfold putBank
  try dsimp only
  repeat' first
    | with_reducible assumption
    | (simp only [mk_ok])
    | with_reducible apply ok_mem

theorem fillBank_ok {d : Dev} {b : Nat} {x : FwImage} {bs : List Byte} (h1 : MemOk d) : MemOk (fillBank d b x bs) := by
  unfold fillBank
  try dsimp only
  repeat' first
    | (with_reducible first | assumption | apply putBank_ok | apply sramWrite_ok)

theorem fwLoad_ok {d : Dev} {ch addr len : Nat} (h1 : MemOk d) : MemOk (fwLoad d ch addr len) := by
  unfold fwLoad
  try dsimp only
  repeat' first
    | with_reducible assumption
    | (intro _; try dsimp only)
    | (with_reducible first | apply answer_ok | apply stageImage_ok | apply fillBank_ok | apply fset_ok)
    | with_reducible apply ite_ok
    | (simp only [mk_ok])
    | with_reducible apply ok_mem
    | (split; all_goals try dsimp only)

theorem showVersion_ok {d : Dev} {b : Nat} (h1 : MemOk d) : MemOk (showVersion d b) := by
  unfold showVersion
  try dsimp only
  repeat' first
    | (with_reducible first | assumption | apply fset_ok)
    | (split; all_goals try dsimp only)

theorem lockAll_ok {d : Dev} (h1 : MemOk d) : MemOk (lockAll d) := by
  unfold lockAll
  try dsimp only
  repeat' first
    | with_reducible assumption
    | (intro _; try dsimp only)
    | (with_reducible first | apply fset_ok | apply foldl_ok)

theorem capPublish_ok {d : Dev} (h1 : MemOk d) : MemOk (capPublish d) := by
  unfold capPublish
  try dsimp only
  repeat' first
    | (with_reducible first | assumption | apply capChange_ok | apply fset_ok)

theorem compsRun_ok {d : Dev} (h1 : MemOk d) : MemOk (compsRun d) := by
  unfold compsRun
  try dsimp only
  repeat' first
    | with_reducible assumption
    | (intro _; try dsimp only)
    | (with_reducible first | apply fset_ok | apply foldl_ok)

theorem governorOff_ok {d : Dev} (h1 : MemOk d) : MemOk (governorOff d) := by
  unfold governorOff
  try dsimp only
  repeat' first
    | (with_reducible first | assumption | apply limitsShow_ok | apply fset_ok)

theorem governorOn_ok {d : Dev} (h1 : MemOk d) : MemOk (governorOn d) := by
  unfold governorOn
  try dsimp only
  repeat' first
    | (with_reducible first | assumption | apply limitsShow_ok | apply fset_ok)

theorem fwServes_ok {d : Dev} (h1 : MemOk d) : MemOk (fwServes d) := by
  unfold fwServes
  try dsimp only
  repeat' first
    | (with_reducible first | assumption | apply advance_ok | apply nutFlush_ok)

theorem fwRunning_ok {d : Dev} (h1 : MemOk d) : MemOk (fwRunning d) := by
  unfold fwRunning
  split
  · exact h1
  · extract_lets d1 d2 s0 d3
    have h2 : MemOk d1 := showVersion_ok (compsRun_ok (fset_ok h1))
    have h3 : MemOk d2 := fset_ok (capPublish_ok (lockAll_ok h2))
    have h4 : MemOk d3 := by
      with_reducible refine answer_ok ?_
      with_reducible exact fw_ok h3
    exact fwServes_ok (governorOff_ok h4)

theorem fwStage_ok {d : Dev} {ch addr len : Nat} (h1 : MemOk d) : MemOk (fwStage d ch addr len) := by
  unfold fwStage
  try dsimp only
  repeat' first
    | with_reducible assumption
    | (intro _; try dsimp only)
    | (with_reducible first | apply answer_ok | apply served_ok | apply stageImage_ok | apply fillBank_ok)
    | (with_reducible first | apply fset_ok | apply ite_ok)
    | (split; all_goals try dsimp only)

theorem actResult_ok {d : Dev} {r : Nat} (h1 : MemOk d) : MemOk (actResult d r) := by
  unfold actResult
  try dsimp only
  repeat' first
    | with_reducible assumption
    | (intro _; try dsimp only)
    | (with_reducible first | apply evtSet_ok | apply fset_ok | apply ite_ok)

theorem actEnd_ok {d : Dev} {mbxResult : Nat} (h1 : MemOk d) : MemOk (actEnd d mbxResult) := by
  unfold actEnd
  try dsimp only
  repeat' first
    | (with_reducible first | assumption | apply answer_ok)
    | (simp only [mk_ok])
    | with_reducible apply ok_mem
    | (split; all_goals try dsimp only)

theorem fwActivate_ok {d : Dev} {ch : Nat} (h1 : MemOk d) : MemOk (fwActivate d ch) := by
  unfold fwActivate
  try dsimp only
  repeat' first
    | with_reducible assumption
    | (intro _; try dsimp only)
    | (with_reducible first | apply answer_ok | apply served_ok | apply actResult_ok | apply fset_ok | apply ite_ok)
    | (simp only [mk_ok])
    | with_reducible apply ok_mem

theorem deferEnd_ok {d : Dev} {result mbxResult : Nat} (h1 : MemOk d) : MemOk (deferEnd d result mbxResult) := by
  unfold deferEnd
  try dsimp only
  repeat' first
    | (with_reducible first | assumption | apply actEnd_ok | apply actResult_ok | apply fset_ok)

theorem fwCancel_ok {d : Dev} {ch : Nat} (h1 : MemOk d) : MemOk (fwCancel d ch) := by
  unfold fwCancel
  try dsimp only
  repeat' first
    | with_reducible assumption
    | (intro _; try dsimp only)
    | (with_reducible first | apply answer_ok | apply served_ok | apply deferEnd_ok | apply ite_ok)

theorem fwStatus_ok {d : Dev} {ch : Nat} (h1 : MemOk d) : MemOk (fwStatus d ch) := by
  unfold fwStatus
  try dsimp only
  repeat' first
    | with_reducible assumption
    | (intro _; try dsimp only)
    | (with_reducible first | apply respondFree_ok | apply ite_ok)

theorem handWrite_ok {d : Dev} (h1 : MemOk d) : MemOk (handWrite d) := by
  unfold handWrite
  try dsimp only
  repeat' first
    | (with_reducible first | assumption | apply takeFree_ok | apply sramWrite_ok)

theorem actProceed_ok {d : Dev} (h1 : MemOk d) : MemOk (actProceed d) := by
  unfold actProceed
  try dsimp only
  repeat' first
    | with_reducible assumption
    | (intro _; try dsimp only)
    | (with_reducible first | apply deferEnd_ok | apply fset_ok | apply handWrite_ok | apply governorOn_ok)
    | with_reducible apply ite_ok
    | (simp only [mk_ok])
    | with_reducible apply ok_mem

theorem actExpired_ok {d : Dev} (h1 : MemOk d) : MemOk (actExpired d) := by
  unfold actExpired
  try dsimp only
  repeat' first
    | with_reducible assumption
    | (intro _; try dsimp only)
    | (with_reducible first | apply deferEnd_ok | apply ite_ok)

theorem pauseShow_ok {d : Dev} (h1 : MemOk d) : MemOk (pauseShow d) := by
  unfold pauseShow
  try dsimp only
  repeat' first
    | (with_reducible first | assumption | apply fset_ok)

theorem handResume_ok {d : Dev} (h1 : MemOk d) : MemOk (handResume d) := by
  unfold handResume
  try dsimp only
  repeat' first
    | with_reducible assumption
    | (intro _; try dsimp only)
    | (with_reducible first | apply fset_ok | apply fwServes_ok | apply governorOff_ok | apply compsRun_ok)
    | (with_reducible first | apply pauseShow_ok | apply enterComp_ok | apply ite_ok)

theorem handConfirm_ok {d : Dev} (h1 : MemOk d) : MemOk (handConfirm d) := by
  unfold handConfirm
  try dsimp only
  repeat' first
    | with_reducible assumption
    | (intro _; try dsimp only)
    | (with_reducible first | apply actEnd_ok | apply actResult_ok | apply showVersion_ok | apply putBank_ok)
    | (with_reducible first | apply fset_ok | apply ite_ok)

theorem answerTaken_ok {d : Dev} {chs : List Nat} {result : Nat} (h1 : MemOk d) : MemOk (answerTaken d chs result) := by
  unfold answerTaken
  try dsimp only
  repeat' first
    | with_reducible assumption
    | (intro _; try dsimp only)
    | (with_reducible first | apply answer_ok | apply fset_ok | apply foldl_ok | apply ite_ok)
    | (simp only [mk_ok])
    | with_reducible apply ok_mem
    | (split; all_goals try dsimp only)

theorem rollBack_ok {d : Dev} (h1 : MemOk d) : MemOk (rollBack d) := by
  unfold rollBack
  try dsimp only
  repeat' first
    | with_reducible assumption
    | (intro _; try dsimp only)
    | (with_reducible first | apply fset_ok | apply putBank_ok | apply answerTaken_ok | apply actEnd_ok)
    | (with_reducible first | apply actResult_ok | apply governorOn_ok | apply nutmeg_ok | apply foldl_ok)
    | with_reducible apply ite_ok
    | (simp only [mk_ok])
    | with_reducible apply ok_mem

theorem handTimeout_ok {d : Dev} (h1 : MemOk d) : MemOk (handTimeout d) := by
  unfold handTimeout
  try dsimp only
  repeat' first
    | with_reducible assumption
    | (intro _; try dsimp only)
    | (with_reducible first | apply rollBack_ok | apply ite_ok)

theorem faultShow_ok {d : Dev} {k cause : Nat} (h1 : MemOk d) : MemOk (faultShow d k cause) := by
  unfold faultShow
  try dsimp only
  repeat' first
    | with_reducible assumption
    | (intro _; try dsimp only)
    | (with_reducible first | apply fset_ok | apply fsat_ok | apply nutmeg_ok | apply ite_ok)
    | (simp only [mk_ok])
    | with_reducible apply ok_mem

theorem compFault_ok {d : Dev} {k cause : Nat} (h1 : MemOk d) : MemOk (compFault d k cause) := by
  unfold compFault
  try dsimp only
  repeat' first
    | with_reducible assumption
    | (intro _; try dsimp only)
    | (with_reducible first | apply faultShow_ok | apply fset_ok | apply nutmeg_ok | apply evtSet_ok)
    | (with_reducible first | apply rollBack_ok | apply answerTaken_ok | apply governorOn_ok | apply ite_ok)

theorem compRestarted_ok {d : Dev} {k : Nat} (h1 : MemOk d) : MemOk (compRestarted d k) := by
  unfold compRestarted
  try dsimp only
  repeat' first
    | with_reducible assumption
    | (intro _; try dsimp only)
    | (with_reducible first | apply enterComp_ok | apply fset_ok | apply pauseShow_ok | apply fwServes_ok)
    | (with_reducible first | apply governorOff_ok | apply ite_ok)

theorem policyRow_ok {d : Dev} {ch fn : Nat} {inBounds : Bool} {values : List Nat} {f : Dev → Dev × Nat} (h1 : MemOk d)
    (h2 : ∀ e, MemOk e → MemOk (f e).1) : MemOk (policyRow d ch fn inBounds values f) := by
  unfold policyRow
  refine servedFn_ok h1 (fun e h => ?_)
  split
  · exact answer_ok h
  · split
    · exact answer_ok h
    · rcases hw : f e with ⟨d1, r⟩
      have h3 : MemOk d1 := fst_ok hw (h2 e h)
      dsimp only
      split
      · exact answer_ok (decision_ok h3)
      · exact answer_ok h3

theorem setCap_ok {d : Dev} {ch w : Nat} (h1 : MemOk d) : MemOk (setCap d ch w) := by
  unfold setCap
  try dsimp only
  repeat' first
    | with_reducible assumption
    | (intro _; try dsimp only)
    | (with_reducible first | apply policyRow_ok | apply capApply_ok | apply fset_ok)

theorem profileSwitch_ok {d : Dev} (h1 : MemOk d) : MemOk (profileSwitch d) := by
  unfold profileSwitch
  try dsimp only
  repeat' first
    | with_reducible assumption
    | (intro _; try dsimp only)
    | (with_reducible first | apply fset_ok | apply stepTo_ok | apply ite_ok)
    | (simp only [mk_ok])
    | with_reducible apply ok_mem
    | (split; all_goals try dsimp only)

theorem setProfile_ok {d : Dev} {ch x : Nat} (h1 : MemOk d) : MemOk (setProfile d ch x) := by
  unfold setProfile
  try dsimp only
  repeat' first
    | with_reducible assumption
    | (intro _; try dsimp only)
    | (with_reducible first | apply policyRow_ok | apply profileSwitch_ok)
    | (simp only [mk_ok])
    | with_reducible apply ok_mem

theorem setPriority_ok {d : Dev} {ch code : Nat} (h1 : MemOk d) : MemOk (setPriority d ch code) := by
  unfold setPriority
  try dsimp only
  repeat' first
    | with_reducible assumption
    | (intro _; try dsimp only)
    | with_reducible apply policyRow_ok
    | (simp only [mk_ok])
    | with_reducible apply ok_mem

theorem setWeights_ok {d : Dev} {ch w0 w1 w2 w3 : Nat} (h1 : MemOk d) : MemOk (setWeights d ch w0 w1 w2 w3) := by
  unfold setWeights
  try dsimp only
  repeat' first
    | with_reducible assumption
    | (intro _; try dsimp only)
    | (with_reducible first | apply policyRow_ok | apply fset_ok | apply foldl_ok)

theorem setDepth_ok {d : Dev} {ch lo hi : Nat} (h1 : MemOk d) : MemOk (setDepth d ch lo hi) := by
  unfold setDepth
  try dsimp only
  repeat' first
    | with_reducible assumption
    | (intro _; try dsimp only)
    | with_reducible apply policyRow_ok
    | (simp only [mk_ok])
    | with_reducible apply ok_mem

theorem getPolicy_ok {d : Dev} {ch : Nat} (h1 : MemOk d) : MemOk (getPolicy d ch) := by
  unfold getPolicy
  try dsimp only
  repeat' first
    | with_reducible assumption
    | (intro _; try dsimp only)
    | (with_reducible first | apply servedFn_ok | apply answer_ok | apply respondFree_ok | apply ite_ok)

theorem fennelLandRow_ok {d : Dev} {source : Nat} (h1 : MemOk d) : MemOk (fennelLandRow d source) := by
  unfold fennelLandRow
  try dsimp only
  repeat' first
    | with_reducible assumption
    | (intro _; try dsimp only)
    | (with_reducible first | apply fennelLand_ok | apply advance_ok | apply finishCmd_ok | apply flushWrites_ok | apply touchAcc_ok)
    | with_reducible apply ite_ok
    | (simp only [mk_ok])
    | with_reducible apply ok_mem
    | (split; all_goals try dsimp only)

theorem chooseStopped_ok {d : Dev} {kind : Nat} {cs : List Cmd} (h1 : MemOk d) : MemOk (chooseStopped d kind cs).2 := by
  induction cs generalizing d with
  | nil => exact h1
  | cons c rest ih =>
    unfold chooseStopped
    split
    · exact ih (takeFree_ok (w := 1) h1)
    · exact ih h1

theorem unwrite_ok {x : Prod Nat (Prod Nat Nat)} {d : Dev} (h1 : MemOk d) : MemOk (unwrite x d) := by
  unfold unwrite
  try dsimp only
  repeat' first
    | with_reducible assumption
    | (intro _; try dsimp only)
    | (with_reducible first | apply memSet_ok | apply ite_ok)

theorem undoWrites_ok {d : Dev} {us : List (Nat × Nat × Nat)} (h1 : MemOk d) : MemOk (undoWrites d us) := by
  have back : ∀ (xs : List (Nat × Nat × Nat)) (e : Dev), MemOk e → MemOk (xs.foldr unwrite e) := by
    intro xs e h
    induction xs with
    | nil => exact h
    | cons x rest ih => exact unwrite_ok ih
  unfold undoWrites
  refine foldl_ok h1 (fun e x h => ?_)
  exact ite_ok (fun _ => takeFree_ok (w := 1) h) (fun _ => back _ _ (takeFree_ok (w := 1) h))

theorem cutColl_ok {d : Dev} {c : Cmd} (h1 : MemOk d) : MemOk (cutColl d c) := by
  unfold cutColl
  try dsimp only
  repeat' first
    | with_reducible assumption
    | (intro _; try dsimp only)
    | (with_reducible first | apply deliveryFailed_ok | apply foldl_ok | apply ite_ok)
    | (simp only [mk_ok])
    | with_reducible apply ok_mem

theorem stopCmd_ok {d : Dev} {k : Prod Nat (Prod Nat Bool)} (h1 : MemOk d) : MemOk (stopCmd d k) := by
  unfold stopCmd
  try dsimp only
  repeat' first
    | (with_reducible first | assumption | apply cutColl_ok | apply undoWrites_ok | apply updCmd_ok)
    | (simp only [mk_ok])
    | with_reducible apply ok_mem
    | (split; all_goals try dsimp only)

theorem endStopped_ok {d : Dev} {ks : List (Prod Nat (Prod Nat Bool))} (h1 : MemOk d) : MemOk (endStopped d ks) := by
  unfold endStopped
  try dsimp only
  repeat' first
    | with_reducible assumption
    | (intro _; try dsimp only)
    | (with_reducible first | apply finishWith_ok | apply signalCmd_ok | apply foldl_ok)
    | (split; all_goals try dsimp only)

theorem portsSet_ok {d : Dev} {kind unit st : Nat} (h1 : MemOk d) : MemOk (portsSet d kind unit st) := by
  unfold portsSet
  try dsimp only
  repeat' first
    | with_reducible assumption
    | (intro _; try dsimp only)
    | (with_reducible first | apply fset_ok | apply foldl_ok | apply ite_ok)

theorem quiesceShow_ok {d : Dev} {die kind : Nat} (h1 : MemOk d) : MemOk (quiesceShow d die kind) := by
  unfold quiesceShow
  try dsimp only
  repeat' first
    | (with_reducible first | assumption | apply takeFree_ok | apply fset_ok)

theorem dieLinksDown_ok {d : Dev} {die : Nat} (h1 : MemOk d) : MemOk (dieLinksDown d die) := by
  unfold dieLinksDown
  try dsimp only
  repeat' first
    | with_reducible assumption
    | (intro _; try dsimp only)
    | (with_reducible first | apply linkDown_ok | apply foldl_ok | apply ite_ok)

theorem resetBegin_ok {d : Dev} {kind unit : Nat} {ask : Option Nat} (h1 : MemOk d) : MemOk (resetBegin d kind unit ask)
    := by
  unfold resetBegin
  try dsimp only
  repeat' first
    | with_reducible assumption
    | (intro _; try dsimp only)
    | (with_reducible first | apply takeFree_ok | apply answer_ok | apply chooseStopped_ok | apply stopCmd_ok)
    | (with_reducible first | apply fset_ok | apply quiesceShow_ok | apply portsSet_ok | apply dieLinksDown_ok)
    | (with_reducible first | apply fsat_ok | apply advance_ok | apply endStopped_ok | apply foldl_ok | apply ite_ok)
    | (simp only [mk_ok])
    | with_reducible apply ok_mem
    | (split; all_goals try dsimp only)

theorem forcedIdle_ok {d : Dev} {kind unit rows : Nat} {lost : List (Prod Nat Nat)} (h1 : MemOk d) : MemOk (forcedIdle d
    kind unit rows lost) := by
  unfold forcedIdle
  try dsimp only
  repeat' first
    | with_reducible assumption
    | (intro _; try dsimp only)
    | (with_reducible first | apply stopCmd_ok | apply fset_ok | apply portsSet_ok | apply fsat_ok | apply foldl_ok)
    | with_reducible apply ite_ok
    | (simp only [mk_ok])
    | with_reducible apply ok_mem

theorem serveWaiting_ok {d : Dev} (h1 : MemOk d) : MemOk (serveWaiting d) := by
  unfold serveWaiting
  try dsimp only
  repeat' first
    | with_reducible assumption
    | (intro _; try dsimp only)
    | (with_reducible first | apply serveRequest_ok | apply foldl_ok)
    | (simp only [mk_ok])
    | with_reducible apply ok_mem

theorem sideClear_ok {d : Dev} {c : Nat} (h1 : MemOk d) : MemOk (sideClear d c) := by
  unfold sideClear
  try dsimp only
  repeat' first
    | with_reducible assumption
    | (simp only [mk_ok])
    | with_reducible apply ok_mem

theorem resetEnd_ok {d : Dev} {kind unit : Nat} {back : Dev → Dev} (h1 : MemOk d) (h2 : ∀ e, MemOk e → MemOk (back e)) :
    MemOk (resetEnd d kind unit back) := by
  unfold resetEnd
  try dsimp only
  repeat' first
    | with_reducible assumption
    | (intro _; try dsimp only)
    | (with_reducible first | apply h2 | apply endStopped_ok | apply advance_ok | apply serveWaiting_ok)
    | (with_reducible first | apply answer_ok | apply foldl_ok)
    | (simp only [mk_ok])
    | with_reducible apply ok_mem
    | (split; all_goals try dsimp only)

theorem coreRelease_ok {d : Dev} {c : Nat} (h1 : MemOk d) : MemOk (coreRelease d c) := by
  unfold coreRelease
  try dsimp only
  repeat' first
    | with_reducible assumption
    | (intro _; try dsimp only)
    | (with_reducible first | apply resetEnd_ok | apply portsSet_ok | apply sideClear_ok | apply showRetired_ok)
    | with_reducible apply dropRegs_ok

theorem dieLinksTrain_ok {d : Dev} {die : Nat} (h1 : MemOk d) : MemOk (dieLinksTrain d die) := by
  unfold dieLinksTrain
  try dsimp only
  repeat' first
    | with_reducible assumption
    | (intro _; try dsimp only)
    | (with_reducible first | apply linkRetry_ok | apply foldl_ok)

theorem spillReset_ok {d : Dev} {die : Nat} (h1 : MemOk d) : MemOk (spillReset d die) := by
  unfold spillReset
  try dsimp only
  repeat' first
    | (with_reducible first | assumption | apply fset_ok | apply spillFreeSet_ok)
    | (simp only [mk_ok])
    | with_reducible apply ok_mem

theorem modelRestart_ok {d : Dev} {die : Nat} (h1 : MemOk d) : MemOk (modelRestart d die) := by
  unfold modelRestart
  try dsimp only
  repeat' first
    | with_reducible assumption
    | (intro _; try dsimp only)
    | (with_reducible first | apply fset_ok | apply foldl_ok)
    | (simp only [mk_ok])
    | with_reducible apply ok_mem

theorem stackRegs_ok {d : Dev} {s : Nat} (h1 : MemOk d) : MemOk (stackRegs d s) := by
  unfold stackRegs
  try dsimp only
  repeat' first
    | (with_reducible first | assumption | apply fset_ok | apply showRetired_ok | apply dropRegs_ok)
    | with_reducible apply refreshShow_ok

theorem dieBack_ok {die : Nat} {d : Dev} (h1 : MemOk d) : MemOk (dieBack die d) := by
  unfold dieBack
  try dsimp only
  repeat' first
    | with_reducible assumption
    | (intro _; try dsimp only)
    | (with_reducible first | apply dropRegs_ok | apply stackRegs_ok | apply unitStatus_ok | apply spillReset_ok)
    | (with_reducible first | apply showRetired_ok | apply sideClear_ok | apply limitsShow_ok)
    | (with_reducible first | apply modelRestart_ok | apply dieLinksTrain_ok | apply portsSet_ok | apply foldl_ok)

theorem dieRelease_ok {d : Dev} {die : Nat} (h1 : MemOk d) : MemOk (dieRelease d die) := by
  unfold dieRelease
  try dsimp only
  repeat' first
    | with_reducible assumption
    | (intro _; try dsimp only)
    | (with_reducible first | apply resetEnd_ok | apply dieBack_ok | apply advance_ok | apply commitGroups_ok)
    | (with_reducible first | apply wakeUnits_ok | apply resumeShard_ok | apply foldl_ok | apply ite_ok)

theorem stackBack_ok {s : Nat} {d : Dev} (h1 : MemOk d) : MemOk (stackBack s d) := by
  unfold stackBack
  try dsimp only
  repeat' first
    | (with_reducible first | assumption | apply fset_ok | apply stackRegs_ok)

theorem stackDone_ok {d : Dev} {s : Nat} (h1 : MemOk d) : MemOk (stackDone d s) := by
  unfold stackDone
  try dsimp only
  repeat' first
    | with_reducible assumption
    | (intro _; try dsimp only)
    | (with_reducible first | apply resetEnd_ok | apply stackBack_ok | apply advance_ok | apply commitGroups_ok)
    | (with_reducible first | apply wakeUnits_ok | apply resumeShard_ok | apply foldl_ok | apply ite_ok)

theorem updateFault_ok {d : Dev} {u : Nat} (h1 : MemOk d) : MemOk (updateFault d u) := by
  unfold updateFault
  try dsimp only
  repeat' first
    | with_reducible assumption
    | (intro _; try dsimp only)
    | (with_reducible first | apply powered_ok | apply resetBegin_ok | apply ite_ok)

theorem stackFault_ok {d : Dev} {s : Nat} (h1 : MemOk d) : MemOk (stackFault d s) := by
  unfold stackFault
  try dsimp only
  repeat' first
    | with_reducible assumption
    | (intro _; try dsimp only)
    | (with_reducible first | apply powered_ok | apply resetBegin_ok | apply ite_ok)

theorem resetRow_ok {d : Dev} {ch fn : Nat} {unitOk : Bool} {f : Dev → Dev} (h1 : MemOk d) (h2 : ∀ e, MemOk e → MemOk (f
    e)) : MemOk (resetRow d ch fn unitOk f) := by
  unfold resetRow
  try dsimp only
  repeat' first
    | with_reducible assumption
    | (intro _; try dsimp only)
    | (with_reducible first | apply h2 | apply servedFn_ok | apply answer_ok | apply ite_ok)

theorem resetDie_ok {d : Dev} {ch die : Nat} (h1 : MemOk d) : MemOk (resetDie d ch die) := by
  unfold resetDie
  try dsimp only
  repeat' first
    | with_reducible assumption
    | (intro _; try dsimp only)
    | (with_reducible first | apply resetRow_ok | apply resetBegin_ok)

theorem resetCore_ok {d : Dev} {ch c : Nat} (h1 : MemOk d) : MemOk (resetCore d ch c) := by
  unfold resetCore
  try dsimp only
  repeat' first
    | with_reducible assumption
    | (intro _; try dsimp only)
    | (with_reducible first | apply resetRow_ok | apply answer_ok | apply resetBegin_ok | apply ite_ok)

theorem resetStack_ok {d : Dev} {ch s : Nat} (h1 : MemOk d) : MemOk (resetStack d ch s) := by
  unfold resetStack
  try dsimp only
  repeat' first
    | with_reducible assumption
    | (intro _; try dsimp only)
    | (with_reducible first | apply resetRow_ok | apply answer_ok | apply resetBegin_ok | apply ite_ok)

theorem linkReset_ok {d : Dev} {n : Nat} (h1 : MemOk d) : MemOk (linkReset d n) := by
  unfold linkReset
  try dsimp only
  repeat' first
    | with_reducible assumption
    | (intro _; try dsimp only)
    | (with_reducible first | apply dropRegs_ok | apply fset_ok | apply linkRetry_ok | apply retrain_ok)
    | with_reducible apply ite_ok

theorem resetLink_ok {d : Dev} {ch n : Nat} (h1 : MemOk d) : MemOk (resetLink d ch n) := by
  unfold resetLink
  try dsimp only
  repeat' first
    | with_reducible assumption
    | (intro _; try dsimp only)
    | (with_reducible first | apply resetRow_ok | apply answer_ok | apply linkReset_ok | apply ite_ok)

theorem holdLimit_ok {d : Dev} {dram : Bool} {w : Waiter} (h1 : MemOk d) : MemOk (holdLimit d dram w) := by
  unfold holdLimit
  try dsimp only
  repeat' first
    | with_reducible assumption
    | (intro _; try dsimp only)
    | (with_reducible first | apply advance_ok | apply finishWith_ok | apply endRun_ok | apply sendQuiet_ok)
    | with_reducible apply ite_ok
    | (simp only [mk_ok])
    | with_reducible apply ok_mem
    | (split; all_goals try dsimp only)

theorem retirePort_ok {d : Dev} {p cause : Nat} (h1 : MemOk d) : MemOk (retirePort d p cause) := by
  unfold retirePort
  try dsimp only
  repeat' first
    | with_reducible assumption
    | (intro _; try dsimp only)
    | (with_reducible first | apply retireArray_ok | apply retireCore_ok | apply ite_ok)

theorem laneFail_ok {d : Dev} {p g b cause stamp : Nat} (h1 : MemOk d) : MemOk (laneFail d p g b cause stamp) := by
  unfold laneFail
  try dsimp only
  repeat' first
    | with_reducible assumption
    | (intro _; try dsimp only)
    | (with_reducible first | apply registryAdd_ok | apply fset_ok | apply retirePort_ok | apply nutmegAt_ok)
    | (with_reducible first | apply quiesceShow_ok | apply capChange_ok | apply ite_ok)
    | (simp only [mk_ok])
    | with_reducible apply ok_mem

theorem laneRepair_ok {d : Dev} {p g b : Nat} (h1 : MemOk d) : MemOk (laneRepair d p g b) := by
  unfold laneRepair
  try dsimp only
  repeat' first
    | with_reducible assumption
    | (intro _; try dsimp only)
    | (with_reducible first | apply powered_ok | apply laneFail_ok | apply ite_ok)

theorem rowFail_ok {d : Dev} {die k row cause stamp : Nat} (h1 : MemOk d) : MemOk (rowFail d die k row cause stamp) :=
    by
  unfold rowFail
  try dsimp only
  repeat' first
    | with_reducible assumption
    | (intro _; try dsimp only)
    | (with_reducible first | apply retireArray_ok | apply retireCore_ok | apply registryAdd_ok | apply nutmegAt_ok)
    | (with_reducible first | apply fset_ok | apply ite_ok)
    | (simp only [mk_ok])
    | with_reducible apply ok_mem

theorem rowReplace_ok {d : Dev} {die k row : Nat} (h1 : MemOk d) : MemOk (rowReplace d die k row) := by
  unfold rowReplace
  try dsimp only
  repeat' first
    | with_reducible assumption
    | (intro _; try dsimp only)
    | (with_reducible first | apply powered_ok | apply rowFail_ok | apply ite_ok)

theorem dropDram_ok {d : Dev} {p : Nat → Bool} (h1 : MemOk d) : MemOk (dropDram d p) := by
  unfold dropDram
  extract_lets gone
  exact memDrop_memOk (p := gone) h1

theorem dataLost_ok {d : Dev} {unit : Nat} {lost : List (Prod Nat Nat)} {meets : Prod Nat Nat → Bool} (h1 : MemOk d) :
    MemOk (dataLost d unit lost meets) := by
  unfold dataLost
  try dsimp only
  repeat' first
    | (with_reducible first | assumption | apply lossOpenBy_ok | apply evtSet_ok | apply nutmeg_ok)

theorem freeTop_ok {d : Dev} {n unit : Nat} (h1 : MemOk d) : MemOk (freeTop d n unit) := by
  unfold freeTop
  try dsimp only
  repeat' first
    | (with_reducible first | assumption | apply fset_ok | apply capChange_ok | apply dropDram_ok)
    | with_reducible apply dataLost_ok

theorem movingShow_ok {d : Dev} {s : Nat} (h1 : MemOk d) : MemOk (movingShow d s) := by
  unfold movingShow
  try dsimp only
  repeat' first
    | (with_reducible first | assumption | apply fset_ok)

theorem pcRetireBegin_ok {d : Dev} {c cause stamp : Nat} (h1 : MemOk d) : MemOk (pcRetireBegin d c cause stamp) := by
  unfold pcRetireBegin
  try dsimp only
  repeat' first
    | (with_reducible first | assumption | apply movingShow_ok | apply freeTop_ok)
    | (simp only [mk_ok])
    | with_reducible apply ok_mem
    | (split; all_goals try dsimp only)

theorem pcRetire_ok {d : Dev} {c : Nat} (h1 : MemOk d) : MemOk (pcRetire d c) := by
  unfold pcRetire
  try dsimp only
  repeat' first
    | with_reducible assumption
    | (intro _; try dsimp only)
    | (with_reducible first | apply powered_ok | apply pcRetireBegin_ok | apply ite_ok)

theorem correctPc_ok {d : Dev} {c : Nat} (h1 : MemOk d) : MemOk (correctPc d c) := by
  unfold correctPc
  try dsimp only
  repeat' first
    | with_reducible assumption
    | (simp only [mk_ok])
    | with_reducible apply ok_mem

theorem moveEnd_ok {d : Dev} {m : PcMove} (h1 : MemOk d) : MemOk (moveEnd d m) := by
  unfold moveEnd
  try dsimp only
  repeat' first
    | (with_reducible first | assumption | apply movingShow_ok)
    | (simp only [mk_ok])
    | with_reducible apply ok_mem

theorem spareTakes_ok {d : Dev} {c x cause stamp : Nat} (h1 : MemOk d) : MemOk (spareTakes d c x cause stamp) := by
  unfold spareTakes
  try dsimp only
  repeat' first
    | (with_reducible first | assumption | apply fset_ok | apply retireRecord_ok)
    | (simp only [mk_ok])
    | with_reducible apply ok_mem

theorem capacityTakes_ok {d : Dev} {c k cause stamp : Nat} (h1 : MemOk d) : MemOk (capacityTakes d c k cause stamp) :=
    by
  unfold capacityTakes
  try dsimp only
  repeat' first
    | (with_reducible first | assumption | apply retireRecord_ok | apply fset_ok)
    | (simp only [mk_ok])
    | with_reducible apply ok_mem

theorem spareDone_ok {d : Dev} {c : Nat} (h1 : MemOk d) : MemOk (spareDone d c) := by
  unfold spareDone
  try dsimp only
  repeat' first
    | with_reducible assumption
    | (intro _; try dsimp only)
    | (with_reducible first | apply spareTakes_ok | apply moveEnd_ok | apply correctPc_ok | apply ite_ok)
    | (split; all_goals try dsimp only)

theorem capacityDone_ok {d : Dev} {c : Nat} {lost : List (Prod Nat Nat)} (h1 : MemOk d) : MemOk (capacityDone d c lost)
    := by
  unfold capacityDone
  try dsimp only
  repeat' first
    | with_reducible assumption
    | (intro _; try dsimp only)
    | (with_reducible first | apply capacityTakes_ok | apply moveEnd_ok | apply correctPc_ok | apply dataLost_ok)
    | (with_reducible first | apply store_ok | apply foldl_ok | apply ite_ok)
    | (split; all_goals try dsimp only)

theorem stackOut_ok {d : Dev} {s : Nat} (h1 : MemOk d) : MemOk (stackOut d s) := by
  unfold stackOut
  try dsimp only
  repeat' first
    | with_reducible assumption
    | (intro _; try dsimp only)
    | (with_reducible first | apply fset_ok | apply foldl_ok)
    | (simp only [mk_ok])
    | with_reducible apply ok_mem

theorem retireStack_ok {d : Dev} {s cause : Nat} (h1 : MemOk d) : MemOk (retireStack d s cause) := by
  unfold retireStack
  try dsimp only
  repeat' first
    | with_reducible assumption
    | (intro _; try dsimp only)
    | (with_reducible first | apply dropDram_ok | apply dataLost_ok | apply freeTop_ok | apply retireRecord_ok)
    | (with_reducible first | apply movingShow_ok | apply stackOut_ok | apply ite_ok)
    | (simp only [mk_ok])
    | with_reducible apply ok_mem

theorem capFalls_ok {d : Dev} {n : Nat} (h1 : MemOk d) : MemOk (capFalls d n) := by
  unfold capFalls
  try dsimp only
  repeat' first
    | (with_reducible first | assumption | apply fset_ok)

theorem startDefect_ok {d : Dev} {x : Prod Nat (Prod Nat Nat)} (h1 : MemOk d) : MemOk (startDefect d x) := by
  unfold startDefect
  try dsimp only
  repeat' first
    | with_reducible assumption
    | (intro _; try dsimp only)
    | (with_reducible first | apply laneFail_ok | apply rowFail_ok | apply spareTakes_ok | apply capFalls_ok)
    | (with_reducible first | apply capacityTakes_ok | apply retireRecord_ok | apply stackOut_ok)
    | (with_reducible first | apply retireArray_ok | apply retireCore_ok | apply ite_ok)
    | (split; all_goals try dsimp only)

theorem selfTest_ok {d : Dev} {cold : Bool} (h1 : MemOk d) : MemOk (selfTest d cold) := by
  unfold selfTest
  try dsimp only
  repeat' first
    | with_reducible assumption
    | (intro _; try dsimp only)
    | (with_reducible first | apply startDefect_ok | apply foldl_ok)
    | (simp only [mk_ok])
    | with_reducible apply ok_mem

theorem resourceRetire_ok {d : Dev} {type i cause : Nat} (h1 : MemOk d) : MemOk (resourceRetire d type i cause) := by
  unfold resourceRetire
  try dsimp only
  repeat' first
    | with_reducible assumption
    | (intro _; try dsimp only)
    | (with_reducible first | apply powered_ok | apply retireCore_ok | apply retireArray_ok | apply retirePort_ok)
    | (with_reducible first | apply registryAdd_ok | apply fset_ok | apply retireStack_ok | apply pcRetireBegin_ok)
    | (with_reducible first | apply pcRetire_ok | apply retireLink_ok | apply retireLane_ok | apply ite_ok)
    | (split; all_goals try dsimp only)

end Sys2Proof.Machine
end

