-- ==== Sys2Proof/Laws/KeepRest.lean ====
section
/-! SUPPORT. Every operation keeps the canonical form of the memory: register access, security, start, upkeep and sideband. -/
namespace Sys2Proof.Machine

theorem writeField_ok {d : Dev} {f : Field} {i lo n v : Nat} (h1 : MemOk d) : MemOk (writeField d f i lo n v) := by
  unfold writeField
  try dsimp only
  repeat' first
    | with_reducible assumption
    | (intro _; try dsimp only)
    | (with_reducible first | apply fset_ok | apply ite_ok)
    | (split; all_goals try dsimp only)

theorem writePart_ok {d : Dev} {r : Reg} {i lo n v : Nat} (h1 : MemOk d) : MemOk (writePart d r i lo n v) := by
  unfold writePart
  try dsimp only
  repeat' first
    | with_reducible assumption
    | (intro _; try dsimp only)
    | (with_reducible first | apply writeField_ok | apply foldl_ok)

theorem loadConfigValue_ok {d : Dev} {e : Prod Nat Nat} (h1 : MemOk d) : MemOk (loadConfigValue d e) := by
  unfold loadConfigValue
  try dsimp only
  repeat' first
    | with_reducible assumption
    | (intro _; try dsimp only)
    | (with_reducible first | apply fset_ok | apply foldl_ok)
    | (split; all_goals try dsimp only)

theorem floorsShow_ok {d : Dev} (h1 : MemOk d) : MemOk (floorsShow d) := by
  unfold floorsShow
  try dsimp only
  repeat' first
    | (with_reducible first | assumption | apply fset_ok)

theorem raiseCounter_ok {d : Dev} {k v : Nat} (h1 : MemOk d) : MemOk (raiseCounter d k v) := by
  unfold raiseCounter
  try dsimp only
  repeat' first
    | with_reducible assumption
    | (simp only [mk_ok])
    | with_reducible apply ok_mem

theorem quoteBody_ok {d : Dev} {ch : Nat} (h1 : MemOk d) : MemOk (quoteBody d ch).2 := by
  unfold quoteBody
  try dsimp only
  repeat' first
    | (with_reducible first | assumption | apply takeFree_ok)
    | (split; all_goals try dsimp only)

theorem secQuote_ok {d : Dev} {ch : Nat} (h1 : MemOk d) : MemOk (secQuote d ch) := by
  unfold secQuote
  try dsimp only
  repeat' first
    | with_reducible assumption
    | (intro _; try dsimp only)
    | (with_reducible first | apply servedFn_ok | apply driverGate_ok | apply answer_ok | apply quoteBody_ok)
    | (with_reducible first | apply respond_ok | apply ite_ok)

theorem secCert_ok {d : Dev} {ch : Nat} (h1 : MemOk d) : MemOk (secCert d ch) := by
  unfold secCert
  try dsimp only
  repeat' first
    | with_reducible assumption
    | (intro _; try dsimp only)
    | (with_reducible first | apply servedFn_ok | apply driverGate_ok | apply respond_ok)

theorem secSign_ok {d : Dev} {ch : Nat} (h1 : MemOk d) : MemOk (secSign d ch) := by
  unfold secSign
  try dsimp only
  repeat' first
    | with_reducible assumption
    | (intro _; try dsimp only)
    | (with_reducible first | apply servedFn_ok | apply driverGate_ok | apply answer_ok | apply respond_ok)
    | with_reducible apply ite_ok

theorem secStage_ok {d : Dev} {ch addr len : Nat} (h1 : MemOk d) : MemOk (secStage d ch addr len) := by
  unfold secStage
  try dsimp only
  repeat' first
    | with_reducible assumption
    | (intro _; try dsimp only)
    | (with_reducible first | apply servedFn_ok | apply driverGate_ok | apply answer_ok | apply ite_ok)
    | (simp only [mk_ok])
    | with_reducible apply ok_mem
    | (split; all_goals try dsimp only)

theorem secFloor_ok {d : Dev} {ch : Nat} (h1 : MemOk d) : MemOk (secFloor d ch) := by
  unfold secFloor
  try dsimp only
  repeat' first
    | with_reducible assumption
    | (intro _; try dsimp only)
    | (with_reducible first | apply servedFn_ok | apply driverGate_ok | apply answer_ok | apply floorsShow_ok)
    | (with_reducible first | apply raiseCounter_ok | apply respond_ok | apply ite_ok)

theorem secChallenge_ok {d : Dev} {ch : Nat} (h1 : MemOk d) : MemOk (secChallenge d ch) := by
  unfold secChallenge
  try dsimp only
  repeat' first
    | with_reducible assumption
    | (intro _; try dsimp only)
    | (with_reducible first | apply servedFn_ok | apply answer_ok | apply raiseCounter_ok | apply respond_ok)
    | with_reducible apply ite_ok
    | (simp only [mk_ok])
    | with_reducible apply ok_mem

theorem secUnlock_ok {d : Dev} {ch : Nat} (h1 : MemOk d) : MemOk (secUnlock d ch) := by
  unfold secUnlock
  try dsimp only
  repeat' first
    | with_reducible assumption
    | (intro _; try dsimp only)
    | (with_reducible first | apply servedFn_ok | apply answer_ok | apply fset_ok | apply nutmeg_ok)
    | (with_reducible first | apply respond_ok | apply ite_ok)
    | (simp only [mk_ok])
    | with_reducible apply ok_mem

theorem clearPinned_ok {d : Dev} {ch seq : Nat} (h1 : MemOk d) : MemOk (clearPinned d ch seq) := by
  unfold clearPinned
  try dsimp only
  repeat' first
    | with_reducible assumption
    | (intro _; try dsimp only)
    | (with_reducible first | apply served_ok | apply answer_ok | apply fset_ok)
    | (simp only [mk_ok])
    | with_reducible apply ok_mem

theorem applyEntry_ok {d : Dev} {x : Prod RegEntry Nat} (h1 : MemOk d) : MemOk (applyEntry d x) := by
  unfold applyEntry
  try dsimp only
  repeat' first
    | with_reducible assumption
    | (intro _; try dsimp only)
    | (with_reducible first | apply nutmeg_ok | apply fset_ok | apply capFalls_ok | apply stackOut_ok | apply ite_ok)
    | (simp only [mk_ok])
    | with_reducible apply ok_mem
    | (split; all_goals try dsimp only)

theorem applyRegistry_ok {d : Dev} (h1 : MemOk d) : MemOk (applyRegistry d) := by
  unfold applyRegistry
  try dsimp only
  repeat' first
    | with_reducible assumption
    | (intro _; try dsimp only)
    | (with_reducible first | apply showRetired_ok | apply registryShow_ok | apply applyEntry_ok | apply foldl_ok)
    | (simp only [mk_ok])
    | with_reducible apply ok_mem

theorem applyMargins_ok {d : Dev} (h1 : MemOk d) : MemOk (applyMargins d) := by
  unfold applyMargins
  try dsimp only
  repeat' first
    | with_reducible assumption
    | (intro _; try dsimp only)
    | (with_reducible first | apply fset_ok | apply marginsShow_ok | apply foldl_ok)

theorem loadMap_ok {d : Dev} {x : Prod Nat Nat} (h1 : MemOk d) : MemOk (loadMap d x) := by
  unfold loadMap
  try dsimp only
  repeat' first
    | with_reducible assumption
    | (intro _; try dsimp only)
    | (with_reducible first | apply fset_ok | apply nutmeg_ok | apply ite_ok)

theorem loadConfig_ok {d : Dev} {conf : Option ConfigImage} (h1 : MemOk d) : MemOk (loadConfig d conf) := by
  unfold loadConfig
  try dsimp only
  repeat' first
    | with_reducible assumption
    | (intro _; try dsimp only)
    | (with_reducible first | apply fset_ok | apply loadMap_ok | apply loadConfigValue_ok | apply foldl_ok)
    | (split; all_goals try dsimp only)

theorem configShow_ok {d : Dev} (h1 : MemOk d) : MemOk (configShow d) := by
  unfold configShow
  try dsimp only
  repeat' first
    | with_reducible assumption
    | (intro _; try dsimp only)
    | (with_reducible first | apply fset_ok | apply foldl_ok)
    | (simp only [mk_ok])
    | with_reducible apply ok_mem

theorem readIdentity_ok {d : Dev} {cold : Bool} (h1 : MemOk d) : MemOk (readIdentity d cold) := by
  unfold readIdentity
  try dsimp only
  repeat' first
    | with_reducible assumption
    | (intro _; try dsimp only)
    | (with_reducible first | apply fset_ok | apply raiseCounter_ok | apply floorsShow_ok | apply ite_ok)
    | (simp only [mk_ok])
    | with_reducible apply ok_mem
    | (split; all_goals try dsimp only)

theorem restoreRecords_ok {d : Dev} (h1 : MemOk d) : MemOk (restoreRecords d) := by
  unfold restoreRecords
  try dsimp only
  repeat' first
    | with_reducible assumption
    | (intro _; try dsimp only)
    | (with_reducible first | apply nutWrite_ok | apply fset_ok | apply foldl_ok | apply filter_memOk)
    | (simp only [mk_ok])

theorem trainLinks_ok {d : Dev} (h1 : MemOk d) : MemOk (trainLinks d) := by
  unfold trainLinks
  try dsimp only
  repeat' first
    | with_reducible assumption
    | (intro _; try dsimp only)
    | (with_reducible first | apply emit_ok | apply fset_ok | apply foldl_ok | apply ite_ok)

theorem sensorsShow_ok {d : Dev} (h1 : MemOk d) : MemOk (sensorsShow d) := by
  unfold sensorsShow
  try dsimp only
  repeat' first
    | with_reducible assumption
    | (intro _; try dsimp only)
    | (with_reducible first | apply fset_ok | apply refreshShow_ok | apply foldl_ok | apply ite_ok)

theorem canaryCheck_ok {d : Dev} (h1 : MemOk d) : MemOk (canaryCheck d) := by
  unfold canaryCheck
  try dsimp only
  repeat' first
    | with_reducible assumption
    | (intro _; try dsimp only)
    | (with_reducible first | apply nutmeg_ok | apply foldl_ok | apply ite_ok)

theorem boot_ok {d : Dev} {cold : Bool} (h1 : MemOk d) : MemOk (boot d cold) := by
  unfold boot
  try dsimp only
  repeat' first
    | with_reducible assumption
    | (intro _; try dsimp only)
    | (with_reducible first | apply fset_ok | apply restoreRecords_ok | apply applyMargins_ok)
    | (with_reducible first | apply applyRegistry_ok | apply loadConfig_ok | apply trainLinks_ok)
    | (with_reducible first | apply canaryCheck_ok | apply selfTest_ok | apply sensorsShow_ok | apply configShow_ok)
    | (with_reducible first | apply readIdentity_ok | apply takeFree_ok | apply rateShow_ok | apply nutmeg_ok)
    | with_reducible apply foldl_ok
    | (simp only [mk_ok])
    | with_reducible apply ok_mem

theorem coldStart_ok {d : Dev} {cause : Nat} (h1 : MemOk d) : MemOk (coldStart d cause) := by
  unfold coldStart
  try dsimp only
  repeat' first
    | with_reducible assumption
    | (intro _; try dsimp only)
    | (with_reducible first | apply fset_ok | apply powerOff_ok | apply boot_ok | apply startHours_ok)
    | (with_reducible first | apply nutmeg_ok | apply ite_ok)
    | (simp only [mk_ok])
    | with_reducible apply ok_mem

theorem unpower_ok {d0 : Dev} (h1 : MemOk d0) : MemOk (unpower d0) := by
  unfold unpower
  try dsimp only
  repeat' first
    | (with_reducible first | assumption | apply saveHours_ok | apply hostMem_memOk)
    | (simp only [mk_ok])

theorem powerApply_ok {d : Dev} (h1 : MemOk d) : MemOk (powerApply d) := by
  unfold powerApply
  try dsimp only
  repeat' first
    | with_reducible assumption
    | (intro _; try dsimp only)
    | (with_reducible first | apply unpower_ok | apply ite_ok)
    | (simp only [mk_ok])
    | with_reducible apply ok_mem

theorem inputRemoved_ok {d : Dev} (h1 : MemOk d) : MemOk (inputRemoved d) := by
  unfold inputRemoved
  try dsimp only
  repeat' first
    | (with_reducible first | assumption | apply unpower_ok)

theorem mainStable_ok {d : Dev} (h1 : MemOk d) : MemOk (mainStable d) := by
  unfold mainStable
  try dsimp only
  repeat' first
    | with_reducible assumption
    | (intro _; try dsimp only)
    | (with_reducible first | apply coldStart_ok | apply ite_ok)

theorem inputRestart_ok {d : Dev} (h1 : MemOk d) : MemOk (inputRestart d) := by
  unfold inputRestart
  try dsimp only
  repeat' first
    | with_reducible assumption
    | (intro _; try dsimp only)
    | (with_reducible first | apply coldStart_ok | apply ite_ok)

theorem thermalRestart_ok {d : Dev} (h1 : MemOk d) : MemOk (thermalRestart d) := by
  unfold thermalRestart
  try dsimp only
  repeat' first
    | with_reducible assumption
    | (intro _; try dsimp only)
    | (with_reducible first | apply coldStart_ok | apply ite_ok)

theorem askRestart_ok {d : Dev} (h1 : MemOk d) : MemOk (askRestart d) := by
  unfold askRestart
  try dsimp only
  repeat' first
    | with_reducible assumption
    | (intro _; try dsimp only)
    | (with_reducible first | apply thermalRestart_ok | apply ite_ok)
    | (simp only [mk_ok])
    | with_reducible apply ok_mem

theorem perstRow_ok {d : Dev} {p : Nat} (h1 : MemOk d) : MemOk (perstRow d p) := by
  unfold perstRow
  try dsimp only
  repeat' first
    | with_reducible assumption
    | (intro _; try dsimp only)
    | (with_reducible first | apply askRestart_ok | apply perstRelease_ok | apply ite_ok)

theorem warmReset_ok {d : Dev} {cause : Nat} (h1 : MemOk d) : MemOk (warmReset d cause) := by
  unfold warmReset
  try dsimp only
  repeat' first
    | with_reducible assumption
    | (intro _; try dsimp only)
    | (with_reducible first | apply fset_ok | apply boot_ok | apply fsat_ok | apply foldl_ok | apply filter_memOk)
    | with_reducible apply ite_ok
    | (simp only [mk_ok])

theorem resetPackage_ok {d : Dev} {ch : Nat} (h1 : MemOk d) : MemOk (resetPackage d ch) := by
  unfold resetPackage
  try dsimp only
  repeat' first
    | with_reducible assumption
    | (intro _; try dsimp only)
    | (with_reducible first | apply resetRow_ok | apply warmReset_ok)

theorem sleepEntry_ok {d : Dev} (h1 : MemOk d) : MemOk (sleepEntry d) := by
  unfold sleepEntry
  try dsimp only
  repeat' first
    | with_reducible assumption
    | (intro _; try dsimp only)
    | (with_reducible first | apply fset_ok | apply updLink_ok | apply foldl_ok | apply filter_memOk | apply ite_ok)
    | (simp only [mk_ok])

theorem wakeCumin_ok {d : Dev} (h1 : MemOk d) : MemOk (wakeCumin d) := by
  unfold wakeCumin
  try dsimp only
  repeat' first
    | with_reducible assumption
    | (intro _; try dsimp only)
    | (with_reducible first | apply fset_ok | apply foldl_ok)

theorem chWake_ok {d : Dev} {ch : Nat} (h1 : MemOk d) : MemOk (chWake d ch) := by
  unfold chWake
  try dsimp only
  repeat' first
    | with_reducible assumption
    | (intro _; try dsimp only)
    | (with_reducible first | apply wakeCumin_ok | apply ite_ok)

theorem wakeDies_ok {d : Dev} (h1 : MemOk d) : MemOk (wakeDies d) := by
  unfold wakeDies
  try dsimp only
  repeat' first
    | with_reducible assumption
    | (intro _; try dsimp only)
    | (with_reducible first | apply trainLinks_ok | apply wakeCumin_ok | apply ite_ok)
    | (simp only [mk_ok])
    | with_reducible apply ok_mem

theorem linkWake_ok {d : Dev} {p : Nat} (h1 : MemOk d) : MemOk (linkWake d p) := by
  unfold linkWake
  try dsimp only
  repeat' first
    | (with_reducible first | assumption | apply updPort_ok)

theorem waking_ok {p r : Nat} {f : Dev → Dev} {d : Dev} (h1 : ∀ e, MemOk e → MemOk (f e)) (h2 : MemOk d) : MemOk (waking
    p r f d) := by
  unfold waking
  try dsimp only
  repeat' first
    | with_reducible assumption
    | (intro _; try dsimp only)
    | (with_reducible first | apply h1 | apply wakeDies_ok | apply ite_ok)

theorem dbSq_ok {d : Dev} {p r v : Nat} (h1 : MemOk d) : MemOk (dbSq d p r v) := by
  unfold dbSq
  try dsimp only
  repeat' first
    | with_reducible assumption
    | (intro _; try dsimp only)
    | (with_reducible first | apply waking_ok | apply advance_ok | apply doorbellSq_ok | apply ite_ok)

theorem dbCq_ok {d : Dev} {p r v : Nat} (h1 : MemOk d) : MemOk (dbCq d p r v) := by
  unfold dbCq
  try dsimp only
  repeat' first
    | with_reducible assumption
    | (intro _; try dsimp only)
    | (with_reducible first | apply waking_ok | apply advance_ok | apply doorbellCq_ok | apply ite_ok)

theorem enableRing_ok {d : Dev} {p r : Nat} (h1 : MemOk d) : MemOk (enableRing d p r) := by
  unfold enableRing
  try dsimp only
  repeat' first
    | with_reducible assumption
    | (intro _; try dsimp only)
    | (with_reducible first | apply waking_ok | apply ringEnable_ok | apply ite_ok)

theorem writeKringCfg_ok {d : Dev} {p r : Nat} {x : Part} (h1 : MemOk d) : MemOk (writeKringCfg d p r x) := by
  unfold writeKringCfg
  try dsimp only
  repeat' first
    | with_reducible assumption
    | (intro _; try dsimp only)
    | (with_reducible first | apply writeField_ok | apply enableRing_ok | apply drainRing_ok | apply foldl_ok)
    | with_reducible apply ite_ok

theorem writeKring_ok {d : Dev} {p : Nat} {reg : Reg} {r : Nat} {x : Part} (h1 : MemOk d) : MemOk (writeKring d p reg r
    x) := by
  unfold writeKring
  try dsimp only
  repeat' first
    | with_reducible assumption
    | (intro _; try dsimp only)
    | (with_reducible first | apply ringAct_ok | apply writeKringCfg_ok | apply ringAbort_ok | apply advance_ok)
    | (with_reducible first | apply ringClearErr_ok | apply writePart_ok | apply ite_ok)
    | (split; all_goals try dsimp only)

theorem writeSem_ok {d : Dev} {s : Nat} {x : Part} (h1 : MemOk d) : MemOk (writeSem d s x) := by
  unfold writeSem
  try dsimp only
  repeat' first
    | with_reducible assumption
    | (intro _; try dsimp only)
    | (with_reducible first | apply semApply_ok | apply ite_ok)

theorem writeQueue_ok {d : Dev} {q : Nat} {x : Part} (h1 : MemOk d) : MemOk (writeQueue d q x) := by
  unfold writeQueue
  try dsimp only
  repeat' first
    | with_reducible assumption
    | (intro _; try dsimp only)
    | (with_reducible first | apply writeField_ok | apply fset_ok | apply foldl_ok | apply ite_ok)

theorem writeAttach_ok {d : Dev} {p : Nat} {x : Part} (h1 : MemOk d) : MemOk (writeAttach d p x) := by
  unfold writeAttach
  try dsimp only
  repeat' first
    | (with_reducible first | assumption | apply portAttach_ok | apply portResume_ok | apply portResetRings_ok)
    | with_reducible apply portDetach_ok
    | (split; all_goals try dsimp only)

theorem clearArr_ok {d : Dev} {i : Nat} (h1 : MemOk d) : MemOk (clearArr d i) := by
  unfold clearArr
  try dsimp only
  repeat' first
    | with_reducible assumption
    | (intro _; try dsimp only)
    | (with_reducible first | apply cntClear_ok | apply fset_ok | apply foldl_ok)

theorem clearSaf_ok {d : Dev} {i : Nat} (h1 : MemOk d) : MemOk (clearSaf d i) := by
  unfold clearSaf
  try dsimp only
  repeat' first
    | with_reducible assumption
    | (intro _; try dsimp only)
    | (with_reducible first | apply cntClear_ok | apply foldl_ok)

theorem clearCard_ok {d : Dev} {c : Nat} (h1 : MemOk d) : MemOk (clearCard d c) := by
  unfold clearCard
  try dsimp only
  repeat' first
    | with_reducible assumption
    | (intro _; try dsimp only)
    | (with_reducible first | apply fset_ok | apply cntClear_ok | apply foldl_ok)

theorem sideInvalidate_ok {d : Dev} {c : Nat} (h1 : MemOk d) : MemOk (sideInvalidate d c) := by
  unfold sideInvalidate
  try dsimp only
  repeat' first
    | with_reducible assumption
    | (simp only [mk_ok])
    | with_reducible apply ok_mem

theorem writeReg_ok {d : Dev} {p : Nat} {r : Reg} {i : Nat} {x : Part} (h1 : MemOk d) : MemOk (writeReg d p r i x) := by
  unfold writeReg
  try dsimp only
  repeat' first
    | with_reducible assumption
    | (intro _; try dsimp only)
    | (with_reducible first | apply writePart_ok | apply writeAttach_ok | apply portAdopt_ok)
    | (with_reducible first | apply heartbeatWrite_ok | apply evtClear_ok | apply evtEnWrite_ok | apply bankAct_ok)
    | (with_reducible first | apply writeKring_ok | apply writeSem_ok | apply writeQueue_ok | apply clearArr_ok)
    | (with_reducible first | apply clearSaf_ok | apply clearCard_ok | apply sideInvalidate_ok)
    | (rw [id_eq])
    | with_reducible apply ite_ok
    | (split; all_goals try dsimp only)

theorem mbxBuffer_ok {d : Dev} {ident ch off : Nat} {bs : List Byte} (h1 : MemOk d) : MemOk (mbxBuffer d ident ch off
    bs) := by
  unfold mbxBuffer
  try dsimp only
  repeat' first
    | with_reducible assumption
    | (intro _; try dsimp only)
    | (with_reducible first | apply fsat_ok | apply mbxDown_ok | apply mbxWrite_ok | apply ite_ok)

theorem mbxWake_ok {d : Dev} {ident ch : Nat} (h1 : MemOk d) : MemOk (mbxWake d ident ch) := by
  unfold mbxWake
  try dsimp only
  repeat' first
    | with_reducible assumption
    | (intro _; try dsimp only)
    | (with_reducible first | apply chWake_ok | apply fsat_ok | apply ite_ok)

theorem mbxWindow_ok {d : Dev} {ident ch off : Nat} {bs : List Byte} (h1 : MemOk d) : MemOk (mbxWindow d ident ch off
    bs) := by
  unfold mbxWindow
  try dsimp only
  repeat' first
    | with_reducible assumption
    | (intro _; try dsimp only)
    | (with_reducible first | apply mbxBuffer_ok | apply mbxDoneClear_ok | apply mbxDoorbell_ok | apply mbxWake_ok)
    | (with_reducible first | apply writePart_ok | apply ite_ok)

theorem writeAt_ok {d : Dev} {p bar off bytes v : Nat} (h1 : MemOk d) : MemOk (writeAt d p bar off bytes v) := by
  unfold writeAt
  try dsimp only
  repeat' first
    | (with_reducible first | assumption | apply writeReg_ok)
    | (split; all_goals try dsimp only)

theorem writeParts_ok {d : Dev} {p bar off size v : Nat} (h1 : MemOk d) : MemOk (writeParts d p bar off size v) := by
  unfold writeParts
  try dsimp only
  repeat' first
    | with_reducible assumption
    | (intro _; try dsimp only)
    | (with_reducible first | apply writeAt_ok | apply ite_ok)

theorem writeMsix_ok {d : Dev} {p off v : Nat} (h1 : MemOk d) : MemOk (writeMsix d p off v) := by
  unfold writeMsix
  try dsimp only
  repeat' first
    | with_reducible assumption
    | (intro _; try dsimp only)
    | (with_reducible first | apply msixUnmask_ok | apply ite_ok)
    | (simp only [mk_ok])
    | with_reducible apply ok_mem

theorem hostWrite_ok {d : Dev} {p bar off size v : Nat} (h1 : MemOk d) : MemOk (hostWrite d p bar off size v) := by
  unfold hostWrite
  try dsimp only
  repeat' first
    | with_reducible assumption
    | (intro _; try dsimp only)
    | (with_reducible first | apply fsat_ok | apply mbxWindow_ok | apply dbSq_ok | apply dbCq_ok)
    | (with_reducible first | apply writeMsix_ok | apply writeParts_ok | apply ite_ok)

theorem registerWrite_ok {d : Dev} {p bar off size v : Nat} (h1 : MemOk d) : MemOk (registerWrite d p bar off size v) :=
    by
  unfold registerWrite
  try dsimp only
  repeat' first
    | with_reducible assumption
    | (intro _; try dsimp only)
    | (with_reducible first | apply hostAct_ok | apply hostWrite_ok)

theorem spillHwmRead_ok {d : Dev} {p e : Nat} (h1 : MemOk d) : MemOk (spillHwmRead d p e) := by
  unfold spillHwmRead
  try dsimp only
  repeat' first
    | with_reducible assumption
    | (intro _; try dsimp only)
    | (with_reducible first | apply hostAct_ok | apply emit_ok | apply fset_ok | apply ite_ok)

theorem lockSet_ok {d : Dev} {p k : Nat} (h1 : MemOk d) : MemOk (lockSet d p k) := by
  unfold lockSet
  try dsimp only
  repeat' first
    | with_reducible assumption
    | (intro _; try dsimp only)
    | (with_reducible first | apply hostAct_ok | apply fset_ok | apply ite_ok)
    | (split; all_goals try dsimp only)

theorem portLevelReset_ok {d : Dev} {p : Nat} {kind : PortReset} (h1 : MemOk d) : MemOk (portLevelReset d p kind) := by
  unfold portLevelReset
  try dsimp only
  repeat' first
    | with_reducible assumption
    | (intro _; try dsimp only)
    | (with_reducible first | apply powered_ok | apply portReset_ok | apply updPort_ok | apply ite_ok)

theorem bgDone_ok {d : Dev} {a : Nat} (h1 : MemOk d) : MemOk (bgDone d a) := by
  unfold bgDone
  try dsimp only
  repeat' first
    | (with_reducible first | assumption | apply fset_ok)

theorem awake_ok {d : Dev} {f : Dev → Dev} (h1 : MemOk d) (h2 : ∀ e, MemOk e → MemOk (f e)) : MemOk (awake d f) := by
  unfold awake
  try dsimp only
  repeat' first
    | with_reducible assumption
    | (intro _; try dsimp only)
    | (with_reducible first | apply h2 | apply ite_ok)

theorem scrubUnit_ok {d : Dev} {a : Nat} (h1 : MemOk d) : MemOk (scrubUnit d a) := by
  unfold scrubUnit
  try dsimp only
  repeat' first
    | with_reducible assumption
    | (intro _; try dsimp only)
    | (with_reducible first | apply noteUnit_ok | apply markClear_ok | apply ite_ok)

theorem dramScrub_ok {d : Dev} (h1 : MemOk d) : MemOk (dramScrub d) := by
  unfold dramScrub
  try dsimp only
  repeat' first
    | with_reducible assumption
    | (intro _; try dsimp only)
    | (with_reducible first | apply awake_ok | apply bgDone_ok | apply scrubUnit_ok | apply foldl_ok | apply ite_ok)

theorem layerFound_ok {d : Dev} {a : Nat} (h1 : MemOk d) : MemOk (layerFound d a) := by
  unfold layerFound
  try dsimp only
  repeat' first
    | with_reducible assumption
    | (intro _; try dsimp only)
    | (with_reducible first | apply nutmeg_ok | apply scrubUnit_ok | apply ite_ok)

theorem layerScrub_ok {d : Dev} (h1 : MemOk d) : MemOk (layerScrub d) := by
  unfold layerScrub
  try dsimp only
  repeat' first
    | with_reducible assumption
    | (intro _; try dsimp only)
    | (with_reducible first | apply awake_ok | apply bgDone_ok | apply layerFound_ok | apply foldl_ok | apply ite_ok)

theorem copyScrub_ok {d : Dev} {h : Nat} (h1 : MemOk d) : MemOk (copyScrub d h) := by
  unfold copyScrub
  try dsimp only
  repeat' first
    | with_reducible assumption
    | (intro _; try dsimp only)
    | (with_reducible first | apply awake_ok | apply scrubShard_ok | apply bgDone_ok | apply ite_ok)

theorem phyRecal_ok {d : Dev} {n l : Nat} (h1 : MemOk d) : MemOk (phyRecal d n l) := by
  unfold phyRecal
  try dsimp only
  repeat' first
    | with_reducible assumption
    | (intro _; try dsimp only)
    | (with_reducible first | apply awake_ok | apply bgDone_ok | apply ite_ok)

theorem memCal_ok {d : Dev} {c : Nat} (h1 : MemOk d) : MemOk (memCal d c) := by
  unfold memCal
  try dsimp only
  repeat' first
    | with_reducible assumption
    | (intro _; try dsimp only)
    | (with_reducible first | apply awake_ok | apply bgDone_ok | apply ite_ok)

theorem sensorCal_ok {d : Dev} {e loc : Nat} (h1 : MemOk d) : MemOk (sensorCal d e loc) := by
  unfold sensorCal
  try dsimp only
  repeat' first
    | with_reducible assumption
    | (intro _; try dsimp only)
    | (with_reducible first | apply awake_ok | apply bgDone_ok | apply ite_ok)

theorem probeRegion_ok {d : Dev} {i index vmin : Nat} (h1 : MemOk d) : MemOk (probeRegion d i index vmin) := by
  unfold probeRegion
  try dsimp only
  repeat' first
    | with_reducible assumption
    | (intro _; try dsimp only)
    | (with_reducible first | apply awake_ok | apply bgDone_ok | apply ageingProbe_ok | apply ite_ok)

theorem telemetrySample_ok {d : Dev} (h1 : MemOk d) : MemOk (telemetrySample d) := by
  unfold telemetrySample
  try dsimp only
  repeat' first
    | with_reducible assumption
    | (intro _; try dsimp only)
    | (with_reducible first | apply awake_ok | apply bgDone_ok | apply telemetry_ok | apply foldl_ok | apply ite_ok)

theorem bgDeferral_ok {d : Dev} {a : Nat} (h1 : MemOk d) : MemOk (bgDeferral d a) := by
  unfold bgDeferral
  try dsimp only
  repeat' first
    | with_reducible assumption
    | (intro _; try dsimp only)
    | (with_reducible first | apply awake_ok | apply fset_ok | apply fsat_ok | apply ite_ok)

theorem nutmegMirror_ok {d : Dev} (h1 : MemOk d) : MemOk (nutmegMirror d) := by
  unfold nutmegMirror
  try dsimp only
  repeat' first
    | with_reducible assumption
    | (intro _; try dsimp only)
    | with_reducible apply ite_ok
    | (simp only [mk_ok])
    | with_reducible apply ok_mem

theorem bmBroadcast_ok {d : Dev} {f : Side → Side} (h1 : MemOk d) : MemOk (bmBroadcast d f) := by
  unfold bmBroadcast
  try dsimp only
  repeat' first
    | with_reducible assumption
    | (intro _; try dsimp only)
    | with_reducible apply ite_ok
    | (simp only [mk_ok])
    | with_reducible apply ok_mem

theorem entDaa_ok {d : Dev} {addr : Nat} (h1 : MemOk d) : MemOk (entDaa d addr) := by
  unfold entDaa
  try dsimp only
  repeat' first
    | (with_reducible first | assumption | apply bmBroadcast_ok)

theorem rstDaa_ok {d : Dev} (h1 : MemOk d) : MemOk (rstDaa d) := by
  unfold rstDaa
  try dsimp only
  repeat' first
    | (with_reducible first | assumption | apply bmBroadcast_ok)

theorem enEc_ok {d : Dev} (h1 : MemOk d) : MemOk (enEc d) := by
  unfold enEc
  try dsimp only
  repeat' first
    | (with_reducible first | assumption | apply bmBroadcast_ok)

theorem disEc_ok {d : Dev} (h1 : MemOk d) : MemOk (disEc d) := by
  unfold disEc
  try dsimp only
  repeat' first
    | (with_reducible first | assumption | apply bmBroadcast_ok)

theorem bmDirect_ok {d : Dev} {w : Nat} {v : BitVec w} (h1 : MemOk d) : MemOk (bmDirect d w v) := by
  unfold bmDirect
  try dsimp only
  repeat' first
    | with_reducible assumption
    | (intro _; try dsimp only)
    | (with_reducible first | apply emit_ok | apply ite_ok)

theorem getStatus_ok {d : Dev} (h1 : MemOk d) : MemOk (getStatus d) := by
  unfold getStatus
  try dsimp only
  repeat' first
    | with_reducible assumption
    | (intro _; try dsimp only)
    | (with_reducible first | apply takeFree_ok | apply bmDirect_ok | apply ite_ok)

theorem bmRefuse_ok {d : Dev} (h1 : MemOk d) : MemOk (bmRefuse d) := by
  unfold bmRefuse
  try dsimp only
  repeat' first
    | (with_reducible first | assumption | apply emit_ok)

theorem bmReadOn_ok {d : Dev} {off len : Nat} (h1 : MemOk d) : MemOk (bmReadOn d off len) := by
  unfold bmReadOn
  try dsimp only
  repeat' first
    | with_reducible assumption
    | (intro _; try dsimp only)
    | (with_reducible first | apply emit_ok | apply bmRefuse_ok | apply fsat_ok | apply ite_ok)
    | (split; all_goals try dsimp only)

theorem bmRead_ok {d : Dev} {off len : Nat} (h1 : MemOk d) : MemOk (bmRead d off len) := by
  unfold bmRead
  try dsimp only
  repeat' first
    | with_reducible assumption
    | (intro _; try dsimp only)
    | (with_reducible first | apply bmRefuse_ok | apply bmReadOn_ok | apply emit_ok | apply ite_ok)

theorem bmWrite_ok {d : Dev} {off : Nat} {bs : List Byte} (h1 : MemOk d) : MemOk (bmWrite d off bs) := by
  unfold bmWrite
  try dsimp only
  repeat' first
    | with_reducible assumption
    | (intro _; try dsimp only)
    | (with_reducible first | apply bmRefuse_ok | apply mbxWindow_ok | apply fsat_ok | apply ite_ok)
    | (split; all_goals try dsimp only)

theorem bmRestart_ok {d : Dev} (h1 : MemOk d) : MemOk (bmRestart d) := by
  unfold bmRestart
  try dsimp only
  repeat' first
    | (with_reducible first | assumption | apply askRestart_ok)

theorem bmPackageReset_ok {d : Dev} (h1 : MemOk d) : MemOk (bmPackageReset d) := by
  unfold bmPackageReset
  try dsimp only
  repeat' first
    | (with_reducible first | assumption | apply warmReset_ok)

theorem pinsDriven_ok {d : Dev} (h1 : MemOk d) : MemOk (pinsDriven d) := by
  unfold pinsDriven
  try dsimp only
  repeat' first
    | with_reducible assumption
    | (intro _; try dsimp only)
    | (with_reducible first | apply portLevelReset_ok | apply linkDown_ok | apply foldl_ok | apply ite_ok)

theorem tapRun_ok {d : Dev} {t : TapInst} {pattern : Nat} (h1 : MemOk d) : MemOk (tapRun d t pattern) := by
  unfold tapRun
  try dsimp only
  repeat' first
    | with_reducible assumption
    | (intro _; try dsimp only)
    | (with_reducible first | apply emit_ok | apply takeFree_ok | apply pinsDriven_ok | apply ite_ok)
    | (simp only [mk_ok])
    | with_reducible apply ok_mem
    | (split; all_goals try dsimp only)

theorem hostRing_ok {d : Dev} {p r : Nat} {f : Dev → Dev} (h1 : MemOk d) (h2 : ∀ e, MemOk e → MemOk (f e)) : MemOk
    (hostRing d p r f) := by
  unfold hostRing
  try dsimp only
  repeat' first
    | with_reducible assumption
    | (intro _; try dsimp only)
    | (with_reducible first | apply h2 | apply hostAct_ok | apply ite_ok)

theorem hostAwake_ok {d : Dev} {p : Nat} {f : Dev → Dev} (h1 : MemOk d) (h2 : ∀ e, MemOk e → MemOk (f e)) : MemOk
    (hostAwake d p f) := by
  unfold hostAwake
  try dsimp only
  repeat' first
    | with_reducible assumption
    | (intro _; try dsimp only)
    | (with_reducible first | apply h2 | apply hostAct_ok | apply ite_ok)

theorem portEvent_ok {d : Dev} {p : Nat} {f : Dev → Dev} (h1 : MemOk d) (h2 : ∀ e, MemOk e → MemOk (f e)) : MemOk
    (portEvent d p f) := by
  unfold portEvent
  try dsimp only
  repeat' first
    | with_reducible assumption
    | (intro _; try dsimp only)
    | (with_reducible first | apply powered_ok | apply ite_ok)

theorem identAct_ok {d : Dev} {ident : Nat} {f : Dev → Dev} (h1 : MemOk d) (h2 : ∀ e, MemOk e → MemOk (f e)) : MemOk
    (identAct d ident f) := by
  unfold identAct
  try dsimp only
  repeat' first
    | with_reducible assumption
    | (intro _; try dsimp only)
    | (with_reducible first | apply hostAct_ok | apply awake_ok | apply ite_ok)

theorem linkOn_ok {d : Dev} {f : Dev → Dev} (h1 : MemOk d) (h2 : ∀ e, MemOk e → MemOk (f e)) : MemOk (linkOn d f) := by
  unfold linkOn
  try dsimp only
  repeat' first
    | (with_reducible first | assumption | apply awake_ok)

end Sys2Proof.Machine
end

