-- ==== Sys2Proof/Laws/State.lean ====
section
/-! SUPPORT. The updates of the device that every meaning is written with: what each leaves alone, what a register field
reads after one, and how a command's answer and its device stand together. -/
namespace Sys2Proof.Machine

/-! ### What an update leaves alone -/

@[simp] theorem regSet_time (d : Dev) (r : Reg) (i v : Nat) : (regSet d r i v).time = d.time := rfl
@[simp] theorem regSet_cnts (d : Dev) (r : Reg) (i v : Nat) : (regSet d r i v).cnts = d.cnts := rfl
@[simp] theorem regSet_mem (d : Dev) (r : Reg) (i v : Nat) : (regSet d r i v).mem = d.mem := rfl
@[simp] theorem regSet_grads (d : Dev) (r : Reg) (i v : Nat) : (regSet d r i v).grads = d.grads := rfl
@[simp] theorem regSet_spills (d : Dev) (r : Reg) (i v : Nat) : (regSet d r i v).spills = d.spills := rfl
@[simp] theorem regSet_sideValid (d : Dev) (r : Reg) (i v : Nat) : (regSet d r i v).sideValid = d.sideValid := rfl
@[simp] theorem regSet_fennel (d : Dev) (r : Reg) (i v : Nat) : (regSet d r i v).fennel = d.fennel := rfl
@[simp] theorem regSet_rdOk (d : Dev) (r : Reg) (i v : Nat) : (regSet d r i v).rdOk = d.rdOk := rfl
@[simp] theorem regSet_wrOut (d : Dev) (r : Reg) (i v : Nat) : (regSet d r i v).wrOut = d.wrOut := rfl
@[simp] theorem regSet_acc (d : Dev) (r : Reg) (i v : Nat) : (regSet d r i v).acc = d.acc := rfl
@[simp] theorem regSet_marks (d : Dev) (r : Reg) (i v : Nat) : (regSet d r i v).marks = d.marks := rfl
@[simp] theorem regSet_hostRefused (d : Dev) (r : Reg) (i v : Nat) : (regSet d r i v).hostRefused = d.hostRefused := rfl
@[simp] theorem regSet_env (d : Dev) (r : Reg) (i v : Nat) : (regSet d r i v).env = d.env := rfl
@[simp] theorem regSet_retired (d : Dev) (r : Reg) (i v : Nat) : (regSet d r i v).retired = d.retired := rfl
@[simp] theorem regSet_resets (d : Dev) (r : Reg) (i v : Nat) : (regSet d r i v).resets = d.resets := rfl
@[simp] theorem regSet_moves (d : Dev) (r : Reg) (i v : Nat) : (regSet d r i v).moves = d.moves := rfl
@[simp] theorem regSet_nv (d : Dev) (r : Reg) (i v : Nat) : (regSet d r i v).nv = d.nv := rfl
@[simp] theorem regSet_mbx (d : Dev) (r : Reg) (i v : Nat) : (regSet d r i v).mbx = d.mbx := rfl
@[simp] theorem regSet_fw (d : Dev) (r : Reg) (i v : Nat) : (regSet d r i v).fw = d.fw := rfl
@[simp] theorem regSet_policy (d : Dev) (r : Reg) (i v : Nat) : (regSet d r i v).policy = d.policy := rfl
@[simp] theorem regSet_pwr (d : Dev) (r : Reg) (i v : Nat) : (regSet d r i v).pwr = d.pwr := rfl
@[simp] theorem regSet_ports (d : Dev) (r : Reg) (i v : Nat) : (regSet d r i v).ports = d.ports := rfl
@[simp] theorem regSet_side (d : Dev) (r : Reg) (i v : Nat) : (regSet d r i v).side = d.side := rfl
@[simp] theorem regSet_eng (d : Dev) (r : Reg) (i v : Nat) : (regSet d r i v).eng = d.eng := rfl
@[simp] theorem regSet_steps (d : Dev) (r : Reg) (i v : Nat) : (regSet d r i v).steps = d.steps := rfl
@[simp] theorem regSet_shards (d : Dev) (r : Reg) (i v : Nat) : (regSet d r i v).shards = d.shards := rfl
@[simp] theorem regSet_fab (d : Dev) (r : Reg) (i v : Nat) : (regSet d r i v).fab = d.fab := rfl
@[simp] theorem regSet_recs (d : Dev) (r : Reg) (i v : Nat) : (regSet d r i v).recs = d.recs := rfl
@[simp] theorem regSet_free (d : Dev) (r : Reg) (i v : Nat) : (regSet d r i v).free = d.free := rfl
@[simp] theorem regSet_out (d : Dev) (r : Reg) (i v : Nat) : (regSet d r i v).out = d.out := rfl

@[simp] theorem fset_time (d : Dev) (f : Field) (i v : Nat) : (fset d f i v).time = d.time := rfl
@[simp] theorem fset_cnts (d : Dev) (f : Field) (i v : Nat) : (fset d f i v).cnts = d.cnts := rfl
@[simp] theorem fset_mem (d : Dev) (f : Field) (i v : Nat) : (fset d f i v).mem = d.mem := rfl
@[simp] theorem fset_grads (d : Dev) (f : Field) (i v : Nat) : (fset d f i v).grads = d.grads := rfl
@[simp] theorem fset_spills (d : Dev) (f : Field) (i v : Nat) : (fset d f i v).spills = d.spills := rfl
@[simp] theorem fset_sideValid (d : Dev) (f : Field) (i v : Nat) : (fset d f i v).sideValid = d.sideValid := rfl
@[simp] theorem fset_fennel (d : Dev) (f : Field) (i v : Nat) : (fset d f i v).fennel = d.fennel := rfl
@[simp] theorem fset_rdOk (d : Dev) (f : Field) (i v : Nat) : (fset d f i v).rdOk = d.rdOk := rfl
@[simp] theorem fset_wrOut (d : Dev) (f : Field) (i v : Nat) : (fset d f i v).wrOut = d.wrOut := rfl
@[simp] theorem fset_acc (d : Dev) (f : Field) (i v : Nat) : (fset d f i v).acc = d.acc := rfl
@[simp] theorem fset_marks (d : Dev) (f : Field) (i v : Nat) : (fset d f i v).marks = d.marks := rfl
@[simp] theorem fset_hostRefused (d : Dev) (f : Field) (i v : Nat) : (fset d f i v).hostRefused = d.hostRefused := rfl
@[simp] theorem fset_env (d : Dev) (f : Field) (i v : Nat) : (fset d f i v).env = d.env := rfl
@[simp] theorem fset_retired (d : Dev) (f : Field) (i v : Nat) : (fset d f i v).retired = d.retired := rfl
@[simp] theorem fset_resets (d : Dev) (f : Field) (i v : Nat) : (fset d f i v).resets = d.resets := rfl
@[simp] theorem fset_moves (d : Dev) (f : Field) (i v : Nat) : (fset d f i v).moves = d.moves := rfl
@[simp] theorem fset_nv (d : Dev) (f : Field) (i v : Nat) : (fset d f i v).nv = d.nv := rfl
@[simp] theorem fset_mbx (d : Dev) (f : Field) (i v : Nat) : (fset d f i v).mbx = d.mbx := rfl
@[simp] theorem fset_fw (d : Dev) (f : Field) (i v : Nat) : (fset d f i v).fw = d.fw := rfl
@[simp] theorem fset_policy (d : Dev) (f : Field) (i v : Nat) : (fset d f i v).policy = d.policy := rfl
@[simp] theorem fset_pwr (d : Dev) (f : Field) (i v : Nat) : (fset d f i v).pwr = d.pwr := rfl
@[simp] theorem fset_ports (d : Dev) (f : Field) (i v : Nat) : (fset d f i v).ports = d.ports := rfl
@[simp] theorem fset_side (d : Dev) (f : Field) (i v : Nat) : (fset d f i v).side = d.side := rfl
@[simp] theorem fset_eng (d : Dev) (f : Field) (i v : Nat) : (fset d f i v).eng = d.eng := rfl
@[simp] theorem fset_steps (d : Dev) (f : Field) (i v : Nat) : (fset d f i v).steps = d.steps := rfl
@[simp] theorem fset_shards (d : Dev) (f : Field) (i v : Nat) : (fset d f i v).shards = d.shards := rfl
@[simp] theorem fset_fab (d : Dev) (f : Field) (i v : Nat) : (fset d f i v).fab = d.fab := rfl
@[simp] theorem fset_recs (d : Dev) (f : Field) (i v : Nat) : (fset d f i v).recs = d.recs := rfl
@[simp] theorem fset_free (d : Dev) (f : Field) (i v : Nat) : (fset d f i v).free = d.free := rfl
@[simp] theorem fset_out (d : Dev) (f : Field) (i v : Nat) : (fset d f i v).out = d.out := rfl

@[simp] theorem fsat_time (d : Dev) (f : Field) (i n : Nat) : (fsat d f i n).time = d.time := rfl
@[simp] theorem fsat_cnts (d : Dev) (f : Field) (i n : Nat) : (fsat d f i n).cnts = d.cnts := rfl
@[simp] theorem fsat_mem (d : Dev) (f : Field) (i n : Nat) : (fsat d f i n).mem = d.mem := rfl
@[simp] theorem fsat_grads (d : Dev) (f : Field) (i n : Nat) : (fsat d f i n).grads = d.grads := rfl
@[simp] theorem fsat_spills (d : Dev) (f : Field) (i n : Nat) : (fsat d f i n).spills = d.spills := rfl
@[simp] theorem fsat_sideValid (d : Dev) (f : Field) (i n : Nat) : (fsat d f i n).sideValid = d.sideValid := rfl
@[simp] theorem fsat_fennel (d : Dev) (f : Field) (i n : Nat) : (fsat d f i n).fennel = d.fennel := rfl
@[simp] theorem fsat_rdOk (d : Dev) (f : Field) (i n : Nat) : (fsat d f i n).rdOk = d.rdOk := rfl
@[simp] theorem fsat_wrOut (d : Dev) (f : Field) (i n : Nat) : (fsat d f i n).wrOut = d.wrOut := rfl
@[simp] theorem fsat_acc (d : Dev) (f : Field) (i n : Nat) : (fsat d f i n).acc = d.acc := rfl
@[simp] theorem fsat_marks (d : Dev) (f : Field) (i n : Nat) : (fsat d f i n).marks = d.marks := rfl
@[simp] theorem fsat_hostRefused (d : Dev) (f : Field) (i n : Nat) : (fsat d f i n).hostRefused = d.hostRefused := rfl
@[simp] theorem fsat_env (d : Dev) (f : Field) (i n : Nat) : (fsat d f i n).env = d.env := rfl
@[simp] theorem fsat_retired (d : Dev) (f : Field) (i n : Nat) : (fsat d f i n).retired = d.retired := rfl
@[simp] theorem fsat_resets (d : Dev) (f : Field) (i n : Nat) : (fsat d f i n).resets = d.resets := rfl
@[simp] theorem fsat_moves (d : Dev) (f : Field) (i n : Nat) : (fsat d f i n).moves = d.moves := rfl
@[simp] theorem fsat_nv (d : Dev) (f : Field) (i n : Nat) : (fsat d f i n).nv = d.nv := rfl
@[simp] theorem fsat_mbx (d : Dev) (f : Field) (i n : Nat) : (fsat d f i n).mbx = d.mbx := rfl
@[simp] theorem fsat_fw (d : Dev) (f : Field) (i n : Nat) : (fsat d f i n).fw = d.fw := rfl
@[simp] theorem fsat_policy (d : Dev) (f : Field) (i n : Nat) : (fsat d f i n).policy = d.policy := rfl
@[simp] theorem fsat_pwr (d : Dev) (f : Field) (i n : Nat) : (fsat d f i n).pwr = d.pwr := rfl
@[simp] theorem fsat_ports (d : Dev) (f : Field) (i n : Nat) : (fsat d f i n).ports = d.ports := rfl
@[simp] theorem fsat_side (d : Dev) (f : Field) (i n : Nat) : (fsat d f i n).side = d.side := rfl
@[simp] theorem fsat_eng (d : Dev) (f : Field) (i n : Nat) : (fsat d f i n).eng = d.eng := rfl
@[simp] theorem fsat_steps (d : Dev) (f : Field) (i n : Nat) : (fsat d f i n).steps = d.steps := rfl
@[simp] theorem fsat_shards (d : Dev) (f : Field) (i n : Nat) : (fsat d f i n).shards = d.shards := rfl
@[simp] theorem fsat_fab (d : Dev) (f : Field) (i n : Nat) : (fsat d f i n).fab = d.fab := rfl
@[simp] theorem fsat_recs (d : Dev) (f : Field) (i n : Nat) : (fsat d f i n).recs = d.recs := rfl
@[simp] theorem fsat_free (d : Dev) (f : Field) (i n : Nat) : (fsat d f i n).free = d.free := rfl
@[simp] theorem fsat_out (d : Dev) (f : Field) (i n : Nat) : (fsat d f i n).out = d.out := rfl

@[simp] theorem fwrap_time (d : Dev) (f : Field) (i n : Nat) : (fwrap d f i n).time = d.time := rfl
@[simp] theorem fwrap_cnts (d : Dev) (f : Field) (i n : Nat) : (fwrap d f i n).cnts = d.cnts := rfl
@[simp] theorem fwrap_mem (d : Dev) (f : Field) (i n : Nat) : (fwrap d f i n).mem = d.mem := rfl
@[simp] theorem fwrap_grads (d : Dev) (f : Field) (i n : Nat) : (fwrap d f i n).grads = d.grads := rfl
@[simp] theorem fwrap_spills (d : Dev) (f : Field) (i n : Nat) : (fwrap d f i n).spills = d.spills := rfl
@[simp] theorem fwrap_sideValid (d : Dev) (f : Field) (i n : Nat) : (fwrap d f i n).sideValid = d.sideValid := rfl
@[simp] theorem fwrap_fennel (d : Dev) (f : Field) (i n : Nat) : (fwrap d f i n).fennel = d.fennel := rfl
@[simp] theorem fwrap_rdOk (d : Dev) (f : Field) (i n : Nat) : (fwrap d f i n).rdOk = d.rdOk := rfl
@[simp] theorem fwrap_wrOut (d : Dev) (f : Field) (i n : Nat) : (fwrap d f i n).wrOut = d.wrOut := rfl
@[simp] theorem fwrap_acc (d : Dev) (f : Field) (i n : Nat) : (fwrap d f i n).acc = d.acc := rfl
@[simp] theorem fwrap_marks (d : Dev) (f : Field) (i n : Nat) : (fwrap d f i n).marks = d.marks := rfl
@[simp] theorem fwrap_hostRefused (d : Dev) (f : Field) (i n : Nat) : (fwrap d f i n).hostRefused = d.hostRefused := rfl
@[simp] theorem fwrap_env (d : Dev) (f : Field) (i n : Nat) : (fwrap d f i n).env = d.env := rfl
@[simp] theorem fwrap_retired (d : Dev) (f : Field) (i n : Nat) : (fwrap d f i n).retired = d.retired := rfl
@[simp] theorem fwrap_resets (d : Dev) (f : Field) (i n : Nat) : (fwrap d f i n).resets = d.resets := rfl
@[simp] theorem fwrap_moves (d : Dev) (f : Field) (i n : Nat) : (fwrap d f i n).moves = d.moves := rfl
@[simp] theorem fwrap_nv (d : Dev) (f : Field) (i n : Nat) : (fwrap d f i n).nv = d.nv := rfl
@[simp] theorem fwrap_mbx (d : Dev) (f : Field) (i n : Nat) : (fwrap d f i n).mbx = d.mbx := rfl
@[simp] theorem fwrap_fw (d : Dev) (f : Field) (i n : Nat) : (fwrap d f i n).fw = d.fw := rfl
@[simp] theorem fwrap_policy (d : Dev) (f : Field) (i n : Nat) : (fwrap d f i n).policy = d.policy := rfl
@[simp] theorem fwrap_pwr (d : Dev) (f : Field) (i n : Nat) : (fwrap d f i n).pwr = d.pwr := rfl
@[simp] theorem fwrap_ports (d : Dev) (f : Field) (i n : Nat) : (fwrap d f i n).ports = d.ports := rfl
@[simp] theorem fwrap_side (d : Dev) (f : Field) (i n : Nat) : (fwrap d f i n).side = d.side := rfl
@[simp] theorem fwrap_eng (d : Dev) (f : Field) (i n : Nat) : (fwrap d f i n).eng = d.eng := rfl
@[simp] theorem fwrap_steps (d : Dev) (f : Field) (i n : Nat) : (fwrap d f i n).steps = d.steps := rfl
@[simp] theorem fwrap_shards (d : Dev) (f : Field) (i n : Nat) : (fwrap d f i n).shards = d.shards := rfl
@[simp] theorem fwrap_fab (d : Dev) (f : Field) (i n : Nat) : (fwrap d f i n).fab = d.fab := rfl
@[simp] theorem fwrap_recs (d : Dev) (f : Field) (i n : Nat) : (fwrap d f i n).recs = d.recs := rfl
@[simp] theorem fwrap_free (d : Dev) (f : Field) (i n : Nat) : (fwrap d f i n).free = d.free := rfl
@[simp] theorem fwrap_out (d : Dev) (f : Field) (i n : Nat) : (fwrap d f i n).out = d.out := rfl

@[simp] theorem cntAdd_time (d : Dev) (f : Field) (i n : Nat) : (cntAdd d f i n).time = d.time := rfl
@[simp] theorem cntAdd_regs (d : Dev) (f : Field) (i n : Nat) : (cntAdd d f i n).regs = d.regs := rfl
@[simp] theorem cntAdd_mem (d : Dev) (f : Field) (i n : Nat) : (cntAdd d f i n).mem = d.mem := rfl
@[simp] theorem cntAdd_grads (d : Dev) (f : Field) (i n : Nat) : (cntAdd d f i n).grads = d.grads := rfl
@[simp] theorem cntAdd_spills (d : Dev) (f : Field) (i n : Nat) : (cntAdd d f i n).spills = d.spills := rfl
@[simp] theorem cntAdd_sideValid (d : Dev) (f : Field) (i n : Nat) : (cntAdd d f i n).sideValid = d.sideValid := rfl
@[simp] theorem cntAdd_fennel (d : Dev) (f : Field) (i n : Nat) : (cntAdd d f i n).fennel = d.fennel := rfl
@[simp] theorem cntAdd_rdOk (d : Dev) (f : Field) (i n : Nat) : (cntAdd d f i n).rdOk = d.rdOk := rfl
@[simp] theorem cntAdd_wrOut (d : Dev) (f : Field) (i n : Nat) : (cntAdd d f i n).wrOut = d.wrOut := rfl
@[simp] theorem cntAdd_acc (d : Dev) (f : Field) (i n : Nat) : (cntAdd d f i n).acc = d.acc := rfl
@[simp] theorem cntAdd_marks (d : Dev) (f : Field) (i n : Nat) : (cntAdd d f i n).marks = d.marks := rfl
@[simp] theorem cntAdd_hostRefused (d : Dev) (f : Field) (i n : Nat) : (cntAdd d f i n).hostRefused = d.hostRefused := rfl
@[simp] theorem cntAdd_env (d : Dev) (f : Field) (i n : Nat) : (cntAdd d f i n).env = d.env := rfl
@[simp] theorem cntAdd_retired (d : Dev) (f : Field) (i n : Nat) : (cntAdd d f i n).retired = d.retired := rfl
@[simp] theorem cntAdd_resets (d : Dev) (f : Field) (i n : Nat) : (cntAdd d f i n).resets = d.resets := rfl
@[simp] theorem cntAdd_moves (d : Dev) (f : Field) (i n : Nat) : (cntAdd d f i n).moves = d.moves := rfl
@[simp] theorem cntAdd_nv (d : Dev) (f : Field) (i n : Nat) : (cntAdd d f i n).nv = d.nv := rfl
@[simp] theorem cntAdd_mbx (d : Dev) (f : Field) (i n : Nat) : (cntAdd d f i n).mbx = d.mbx := rfl
@[simp] theorem cntAdd_fw (d : Dev) (f : Field) (i n : Nat) : (cntAdd d f i n).fw = d.fw := rfl
@[simp] theorem cntAdd_policy (d : Dev) (f : Field) (i n : Nat) : (cntAdd d f i n).policy = d.policy := rfl
@[simp] theorem cntAdd_pwr (d : Dev) (f : Field) (i n : Nat) : (cntAdd d f i n).pwr = d.pwr := rfl
@[simp] theorem cntAdd_ports (d : Dev) (f : Field) (i n : Nat) : (cntAdd d f i n).ports = d.ports := rfl
@[simp] theorem cntAdd_side (d : Dev) (f : Field) (i n : Nat) : (cntAdd d f i n).side = d.side := rfl
@[simp] theorem cntAdd_eng (d : Dev) (f : Field) (i n : Nat) : (cntAdd d f i n).eng = d.eng := rfl
@[simp] theorem cntAdd_steps (d : Dev) (f : Field) (i n : Nat) : (cntAdd d f i n).steps = d.steps := rfl
@[simp] theorem cntAdd_shards (d : Dev) (f : Field) (i n : Nat) : (cntAdd d f i n).shards = d.shards := rfl
@[simp] theorem cntAdd_fab (d : Dev) (f : Field) (i n : Nat) : (cntAdd d f i n).fab = d.fab := rfl
@[simp] theorem cntAdd_recs (d : Dev) (f : Field) (i n : Nat) : (cntAdd d f i n).recs = d.recs := rfl
@[simp] theorem cntAdd_free (d : Dev) (f : Field) (i n : Nat) : (cntAdd d f i n).free = d.free := rfl
@[simp] theorem cntAdd_out (d : Dev) (f : Field) (i n : Nat) : (cntAdd d f i n).out = d.out := rfl

@[simp] theorem cntClear_time (d : Dev) (f : Field) (i : Nat) : (cntClear d f i).time = d.time := rfl
@[simp] theorem cntClear_regs (d : Dev) (f : Field) (i : Nat) : (cntClear d f i).regs = d.regs := rfl
@[simp] theorem cntClear_mem (d : Dev) (f : Field) (i : Nat) : (cntClear d f i).mem = d.mem := rfl
@[simp] theorem cntClear_grads (d : Dev) (f : Field) (i : Nat) : (cntClear d f i).grads = d.grads := rfl
@[simp] theorem cntClear_spills (d : Dev) (f : Field) (i : Nat) : (cntClear d f i).spills = d.spills := rfl
@[simp] theorem cntClear_sideValid (d : Dev) (f : Field) (i : Nat) : (cntClear d f i).sideValid = d.sideValid := rfl
@[simp] theorem cntClear_fennel (d : Dev) (f : Field) (i : Nat) : (cntClear d f i).fennel = d.fennel := rfl
@[simp] theorem cntClear_rdOk (d : Dev) (f : Field) (i : Nat) : (cntClear d f i).rdOk = d.rdOk := rfl
@[simp] theorem cntClear_wrOut (d : Dev) (f : Field) (i : Nat) : (cntClear d f i).wrOut = d.wrOut := rfl
@[simp] theorem cntClear_acc (d : Dev) (f : Field) (i : Nat) : (cntClear d f i).acc = d.acc := rfl
@[simp] theorem cntClear_marks (d : Dev) (f : Field) (i : Nat) : (cntClear d f i).marks = d.marks := rfl
@[simp] theorem cntClear_hostRefused (d : Dev) (f : Field) (i : Nat) : (cntClear d f i).hostRefused = d.hostRefused := rfl
@[simp] theorem cntClear_env (d : Dev) (f : Field) (i : Nat) : (cntClear d f i).env = d.env := rfl
@[simp] theorem cntClear_retired (d : Dev) (f : Field) (i : Nat) : (cntClear d f i).retired = d.retired := rfl
@[simp] theorem cntClear_resets (d : Dev) (f : Field) (i : Nat) : (cntClear d f i).resets = d.resets := rfl
@[simp] theorem cntClear_moves (d : Dev) (f : Field) (i : Nat) : (cntClear d f i).moves = d.moves := rfl
@[simp] theorem cntClear_nv (d : Dev) (f : Field) (i : Nat) : (cntClear d f i).nv = d.nv := rfl
@[simp] theorem cntClear_mbx (d : Dev) (f : Field) (i : Nat) : (cntClear d f i).mbx = d.mbx := rfl
@[simp] theorem cntClear_fw (d : Dev) (f : Field) (i : Nat) : (cntClear d f i).fw = d.fw := rfl
@[simp] theorem cntClear_policy (d : Dev) (f : Field) (i : Nat) : (cntClear d f i).policy = d.policy := rfl
@[simp] theorem cntClear_pwr (d : Dev) (f : Field) (i : Nat) : (cntClear d f i).pwr = d.pwr := rfl
@[simp] theorem cntClear_ports (d : Dev) (f : Field) (i : Nat) : (cntClear d f i).ports = d.ports := rfl
@[simp] theorem cntClear_side (d : Dev) (f : Field) (i : Nat) : (cntClear d f i).side = d.side := rfl
@[simp] theorem cntClear_eng (d : Dev) (f : Field) (i : Nat) : (cntClear d f i).eng = d.eng := rfl
@[simp] theorem cntClear_steps (d : Dev) (f : Field) (i : Nat) : (cntClear d f i).steps = d.steps := rfl
@[simp] theorem cntClear_shards (d : Dev) (f : Field) (i : Nat) : (cntClear d f i).shards = d.shards := rfl
@[simp] theorem cntClear_fab (d : Dev) (f : Field) (i : Nat) : (cntClear d f i).fab = d.fab := rfl
@[simp] theorem cntClear_recs (d : Dev) (f : Field) (i : Nat) : (cntClear d f i).recs = d.recs := rfl
@[simp] theorem cntClear_free (d : Dev) (f : Field) (i : Nat) : (cntClear d f i).free = d.free := rfl
@[simp] theorem cntClear_out (d : Dev) (f : Field) (i : Nat) : (cntClear d f i).out = d.out := rfl

@[simp] theorem emit_time (d : Dev) (o : Out) : (emit d o).time = d.time := rfl
@[simp] theorem emit_regs (d : Dev) (o : Out) : (emit d o).regs = d.regs := rfl
@[simp] theorem emit_cnts (d : Dev) (o : Out) : (emit d o).cnts = d.cnts := rfl
@[simp] theorem emit_mem (d : Dev) (o : Out) : (emit d o).mem = d.mem := rfl
@[simp] theorem emit_grads (d : Dev) (o : Out) : (emit d o).grads = d.grads := rfl
@[simp] theorem emit_spills (d : Dev) (o : Out) : (emit d o).spills = d.spills := rfl
@[simp] theorem emit_sideValid (d : Dev) (o : Out) : (emit d o).sideValid = d.sideValid := rfl
@[simp] theorem emit_fennel (d : Dev) (o : Out) : (emit d o).fennel = d.fennel := rfl
@[simp] theorem emit_rdOk (d : Dev) (o : Out) : (emit d o).rdOk = d.rdOk := rfl
@[simp] theorem emit_wrOut (d : Dev) (o : Out) : (emit d o).wrOut = d.wrOut := rfl
@[simp] theorem emit_acc (d : Dev) (o : Out) : (emit d o).acc = d.acc := rfl
@[simp] theorem emit_marks (d : Dev) (o : Out) : (emit d o).marks = d.marks := rfl
@[simp] theorem emit_hostRefused (d : Dev) (o : Out) : (emit d o).hostRefused = d.hostRefused := rfl
@[simp] theorem emit_env (d : Dev) (o : Out) : (emit d o).env = d.env := rfl
@[simp] theorem emit_retired (d : Dev) (o : Out) : (emit d o).retired = d.retired := rfl
@[simp] theorem emit_resets (d : Dev) (o : Out) : (emit d o).resets = d.resets := rfl
@[simp] theorem emit_moves (d : Dev) (o : Out) : (emit d o).moves = d.moves := rfl
@[simp] theorem emit_nv (d : Dev) (o : Out) : (emit d o).nv = d.nv := rfl
@[simp] theorem emit_mbx (d : Dev) (o : Out) : (emit d o).mbx = d.mbx := rfl
@[simp] theorem emit_fw (d : Dev) (o : Out) : (emit d o).fw = d.fw := rfl
@[simp] theorem emit_policy (d : Dev) (o : Out) : (emit d o).policy = d.policy := rfl
@[simp] theorem emit_pwr (d : Dev) (o : Out) : (emit d o).pwr = d.pwr := rfl
@[simp] theorem emit_ports (d : Dev) (o : Out) : (emit d o).ports = d.ports := rfl
@[simp] theorem emit_side (d : Dev) (o : Out) : (emit d o).side = d.side := rfl
@[simp] theorem emit_eng (d : Dev) (o : Out) : (emit d o).eng = d.eng := rfl
@[simp] theorem emit_steps (d : Dev) (o : Out) : (emit d o).steps = d.steps := rfl
@[simp] theorem emit_shards (d : Dev) (o : Out) : (emit d o).shards = d.shards := rfl
@[simp] theorem emit_fab (d : Dev) (o : Out) : (emit d o).fab = d.fab := rfl
@[simp] theorem emit_recs (d : Dev) (o : Out) : (emit d o).recs = d.recs := rfl
@[simp] theorem emit_free (d : Dev) (o : Out) : (emit d o).free = d.free := rfl

@[simp] theorem memSet_time (d : Dev) (a : Nat) (v : Byte) : (memSet d a v).time = d.time := rfl
@[simp] theorem memSet_regs (d : Dev) (a : Nat) (v : Byte) : (memSet d a v).regs = d.regs := rfl
@[simp] theorem memSet_cnts (d : Dev) (a : Nat) (v : Byte) : (memSet d a v).cnts = d.cnts := rfl
@[simp] theorem memSet_grads (d : Dev) (a : Nat) (v : Byte) : (memSet d a v).grads = d.grads := rfl
@[simp] theorem memSet_spills (d : Dev) (a : Nat) (v : Byte) : (memSet d a v).spills = d.spills := rfl
@[simp] theorem memSet_sideValid (d : Dev) (a : Nat) (v : Byte) : (memSet d a v).sideValid = d.sideValid := rfl
@[simp] theorem memSet_fennel (d : Dev) (a : Nat) (v : Byte) : (memSet d a v).fennel = d.fennel := rfl
@[simp] theorem memSet_rdOk (d : Dev) (a : Nat) (v : Byte) : (memSet d a v).rdOk = d.rdOk := rfl
@[simp] theorem memSet_wrOut (d : Dev) (a : Nat) (v : Byte) : (memSet d a v).wrOut = d.wrOut := rfl
@[simp] theorem memSet_acc (d : Dev) (a : Nat) (v : Byte) : (memSet d a v).acc = d.acc := rfl
@[simp] theorem memSet_marks (d : Dev) (a : Nat) (v : Byte) : (memSet d a v).marks = d.marks := rfl
@[simp] theorem memSet_hostRefused (d : Dev) (a : Nat) (v : Byte) : (memSet d a v).hostRefused = d.hostRefused := rfl
@[simp] theorem memSet_env (d : Dev) (a : Nat) (v : Byte) : (memSet d a v).env = d.env := rfl
@[simp] theorem memSet_retired (d : Dev) (a : Nat) (v : Byte) : (memSet d a v).retired = d.retired := rfl
@[simp] theorem memSet_resets (d : Dev) (a : Nat) (v : Byte) : (memSet d a v).resets = d.resets := rfl
@[simp] theorem memSet_moves (d : Dev) (a : Nat) (v : Byte) : (memSet d a v).moves = d.moves := rfl
@[simp] theorem memSet_nv (d : Dev) (a : Nat) (v : Byte) : (memSet d a v).nv = d.nv := rfl
@[simp] theorem memSet_mbx (d : Dev) (a : Nat) (v : Byte) : (memSet d a v).mbx = d.mbx := rfl
@[simp] theorem memSet_fw (d : Dev) (a : Nat) (v : Byte) : (memSet d a v).fw = d.fw := rfl
@[simp] theorem memSet_policy (d : Dev) (a : Nat) (v : Byte) : (memSet d a v).policy = d.policy := rfl
@[simp] theorem memSet_pwr (d : Dev) (a : Nat) (v : Byte) : (memSet d a v).pwr = d.pwr := rfl
@[simp] theorem memSet_ports (d : Dev) (a : Nat) (v : Byte) : (memSet d a v).ports = d.ports := rfl
@[simp] theorem memSet_side (d : Dev) (a : Nat) (v : Byte) : (memSet d a v).side = d.side := rfl
@[simp] theorem memSet_eng (d : Dev) (a : Nat) (v : Byte) : (memSet d a v).eng = d.eng := rfl
@[simp] theorem memSet_steps (d : Dev) (a : Nat) (v : Byte) : (memSet d a v).steps = d.steps := rfl
@[simp] theorem memSet_shards (d : Dev) (a : Nat) (v : Byte) : (memSet d a v).shards = d.shards := rfl
@[simp] theorem memSet_fab (d : Dev) (a : Nat) (v : Byte) : (memSet d a v).fab = d.fab := rfl
@[simp] theorem memSet_recs (d : Dev) (a : Nat) (v : Byte) : (memSet d a v).recs = d.recs := rfl
@[simp] theorem memSet_free (d : Dev) (a : Nat) (v : Byte) : (memSet d a v).free = d.free := rfl
@[simp] theorem memSet_out (d : Dev) (a : Nat) (v : Byte) : (memSet d a v).out = d.out := rfl

@[simp] theorem updPort_time (d : Dev) (p : Nat) (f : PortRun → PortRun) : (updPort d p f).time = d.time := rfl
@[simp] theorem updPort_regs (d : Dev) (p : Nat) (f : PortRun → PortRun) : (updPort d p f).regs = d.regs := rfl
@[simp] theorem updPort_cnts (d : Dev) (p : Nat) (f : PortRun → PortRun) : (updPort d p f).cnts = d.cnts := rfl
@[simp] theorem updPort_mem (d : Dev) (p : Nat) (f : PortRun → PortRun) : (updPort d p f).mem = d.mem := rfl
@[simp] theorem updPort_grads (d : Dev) (p : Nat) (f : PortRun → PortRun) : (updPort d p f).grads = d.grads := rfl
@[simp] theorem updPort_spills (d : Dev) (p : Nat) (f : PortRun → PortRun) : (updPort d p f).spills = d.spills := rfl
@[simp] theorem updPort_sideValid (d : Dev) (p : Nat) (f : PortRun → PortRun) : (updPort d p f).sideValid = d.sideValid := rfl
@[simp] theorem updPort_fennel (d : Dev) (p : Nat) (f : PortRun → PortRun) : (updPort d p f).fennel = d.fennel := rfl
@[simp] theorem updPort_rdOk (d : Dev) (p : Nat) (f : PortRun → PortRun) : (updPort d p f).rdOk = d.rdOk := rfl
@[simp] theorem updPort_wrOut (d : Dev) (p : Nat) (f : PortRun → PortRun) : (updPort d p f).wrOut = d.wrOut := rfl
@[simp] theorem updPort_acc (d : Dev) (p : Nat) (f : PortRun → PortRun) : (updPort d p f).acc = d.acc := rfl
@[simp] theorem updPort_marks (d : Dev) (p : Nat) (f : PortRun → PortRun) : (updPort d p f).marks = d.marks := rfl
@[simp] theorem updPort_hostRefused (d : Dev) (p : Nat) (f : PortRun → PortRun) : (updPort d p f).hostRefused = d.hostRefused := rfl
@[simp] theorem updPort_env (d : Dev) (p : Nat) (f : PortRun → PortRun) : (updPort d p f).env = d.env := rfl
@[simp] theorem updPort_retired (d : Dev) (p : Nat) (f : PortRun → PortRun) : (updPort d p f).retired = d.retired := rfl
@[simp] theorem updPort_resets (d : Dev) (p : Nat) (f : PortRun → PortRun) : (updPort d p f).resets = d.resets := rfl
@[simp] theorem updPort_moves (d : Dev) (p : Nat) (f : PortRun → PortRun) : (updPort d p f).moves = d.moves := rfl
@[simp] theorem updPort_nv (d : Dev) (p : Nat) (f : PortRun → PortRun) : (updPort d p f).nv = d.nv := rfl
@[simp] theorem updPort_mbx (d : Dev) (p : Nat) (f : PortRun → PortRun) : (updPort d p f).mbx = d.mbx := rfl
@[simp] theorem updPort_fw (d : Dev) (p : Nat) (f : PortRun → PortRun) : (updPort d p f).fw = d.fw := rfl
@[simp] theorem updPort_policy (d : Dev) (p : Nat) (f : PortRun → PortRun) : (updPort d p f).policy = d.policy := rfl
@[simp] theorem updPort_pwr (d : Dev) (p : Nat) (f : PortRun → PortRun) : (updPort d p f).pwr = d.pwr := rfl
@[simp] theorem updPort_side (d : Dev) (p : Nat) (f : PortRun → PortRun) : (updPort d p f).side = d.side := rfl
@[simp] theorem updPort_eng (d : Dev) (p : Nat) (f : PortRun → PortRun) : (updPort d p f).eng = d.eng := rfl
@[simp] theorem updPort_steps (d : Dev) (p : Nat) (f : PortRun → PortRun) : (updPort d p f).steps = d.steps := rfl
@[simp] theorem updPort_shards (d : Dev) (p : Nat) (f : PortRun → PortRun) : (updPort d p f).shards = d.shards := rfl
@[simp] theorem updPort_fab (d : Dev) (p : Nat) (f : PortRun → PortRun) : (updPort d p f).fab = d.fab := rfl
@[simp] theorem updPort_recs (d : Dev) (p : Nat) (f : PortRun → PortRun) : (updPort d p f).recs = d.recs := rfl
@[simp] theorem updPort_free (d : Dev) (p : Nat) (f : PortRun → PortRun) : (updPort d p f).free = d.free := rfl
@[simp] theorem updPort_out (d : Dev) (p : Nat) (f : PortRun → PortRun) : (updPort d p f).out = d.out := rfl

@[simp] theorem updCmd_time (d : Dev) (ring seq : Nat) (f : Cmd → Cmd) : (updCmd d ring seq f).time = d.time := rfl
@[simp] theorem updCmd_regs (d : Dev) (ring seq : Nat) (f : Cmd → Cmd) : (updCmd d ring seq f).regs = d.regs := rfl
@[simp] theorem updCmd_cnts (d : Dev) (ring seq : Nat) (f : Cmd → Cmd) : (updCmd d ring seq f).cnts = d.cnts := rfl
@[simp] theorem updCmd_mem (d : Dev) (ring seq : Nat) (f : Cmd → Cmd) : (updCmd d ring seq f).mem = d.mem := rfl
@[simp] theorem updCmd_grads (d : Dev) (ring seq : Nat) (f : Cmd → Cmd) : (updCmd d ring seq f).grads = d.grads := rfl
@[simp] theorem updCmd_spills (d : Dev) (ring seq : Nat) (f : Cmd → Cmd) : (updCmd d ring seq f).spills = d.spills := rfl
@[simp] theorem updCmd_sideValid (d : Dev) (ring seq : Nat) (f : Cmd → Cmd) : (updCmd d ring seq f).sideValid = d.sideValid := rfl
@[simp] theorem updCmd_fennel (d : Dev) (ring seq : Nat) (f : Cmd → Cmd) : (updCmd d ring seq f).fennel = d.fennel := rfl
@[simp] theorem updCmd_rdOk (d : Dev) (ring seq : Nat) (f : Cmd → Cmd) : (updCmd d ring seq f).rdOk = d.rdOk := rfl
@[simp] theorem updCmd_wrOut (d : Dev) (ring seq : Nat) (f : Cmd → Cmd) : (updCmd d ring seq f).wrOut = d.wrOut := rfl
@[simp] theorem updCmd_acc (d : Dev) (ring seq : Nat) (f : Cmd → Cmd) : (updCmd d ring seq f).acc = d.acc := rfl
@[simp] theorem updCmd_marks (d : Dev) (ring seq : Nat) (f : Cmd → Cmd) : (updCmd d ring seq f).marks = d.marks := rfl
@[simp] theorem updCmd_hostRefused (d : Dev) (ring seq : Nat) (f : Cmd → Cmd) : (updCmd d ring seq f).hostRefused = d.hostRefused := rfl
@[simp] theorem updCmd_env (d : Dev) (ring seq : Nat) (f : Cmd → Cmd) : (updCmd d ring seq f).env = d.env := rfl
@[simp] theorem updCmd_retired (d : Dev) (ring seq : Nat) (f : Cmd → Cmd) : (updCmd d ring seq f).retired = d.retired := rfl
@[simp] theorem updCmd_resets (d : Dev) (ring seq : Nat) (f : Cmd → Cmd) : (updCmd d ring seq f).resets = d.resets := rfl
@[simp] theorem updCmd_moves (d : Dev) (ring seq : Nat) (f : Cmd → Cmd) : (updCmd d ring seq f).moves = d.moves := rfl
@[simp] theorem updCmd_nv (d : Dev) (ring seq : Nat) (f : Cmd → Cmd) : (updCmd d ring seq f).nv = d.nv := rfl
@[simp] theorem updCmd_mbx (d : Dev) (ring seq : Nat) (f : Cmd → Cmd) : (updCmd d ring seq f).mbx = d.mbx := rfl
@[simp] theorem updCmd_fw (d : Dev) (ring seq : Nat) (f : Cmd → Cmd) : (updCmd d ring seq f).fw = d.fw := rfl
@[simp] theorem updCmd_policy (d : Dev) (ring seq : Nat) (f : Cmd → Cmd) : (updCmd d ring seq f).policy = d.policy := rfl
@[simp] theorem updCmd_pwr (d : Dev) (ring seq : Nat) (f : Cmd → Cmd) : (updCmd d ring seq f).pwr = d.pwr := rfl
@[simp] theorem updCmd_ports (d : Dev) (ring seq : Nat) (f : Cmd → Cmd) : (updCmd d ring seq f).ports = d.ports := rfl
@[simp] theorem updCmd_side (d : Dev) (ring seq : Nat) (f : Cmd → Cmd) : (updCmd d ring seq f).side = d.side := rfl
@[simp] theorem updCmd_steps (d : Dev) (ring seq : Nat) (f : Cmd → Cmd) : (updCmd d ring seq f).steps = d.steps := rfl
@[simp] theorem updCmd_shards (d : Dev) (ring seq : Nat) (f : Cmd → Cmd) : (updCmd d ring seq f).shards = d.shards := rfl
@[simp] theorem updCmd_fab (d : Dev) (ring seq : Nat) (f : Cmd → Cmd) : (updCmd d ring seq f).fab = d.fab := rfl
@[simp] theorem updCmd_recs (d : Dev) (ring seq : Nat) (f : Cmd → Cmd) : (updCmd d ring seq f).recs = d.recs := rfl
@[simp] theorem updCmd_free (d : Dev) (ring seq : Nat) (f : Cmd → Cmd) : (updCmd d ring seq f).free = d.free := rfl
@[simp] theorem updCmd_out (d : Dev) (ring seq : Nat) (f : Cmd → Cmd) : (updCmd d ring seq f).out = d.out := rfl

@[simp] theorem logWrite_time (d : Dev) (a n v : Nat) : (logWrite d a n v).time = d.time := by unfold logWrite; split <;> rfl
@[simp] theorem logWrite_regs (d : Dev) (a n v : Nat) : (logWrite d a n v).regs = d.regs := by unfold logWrite; split <;> rfl
@[simp] theorem logWrite_cnts (d : Dev) (a n v : Nat) : (logWrite d a n v).cnts = d.cnts := by unfold logWrite; split <;> rfl
@[simp] theorem logWrite_grads (d : Dev) (a n v : Nat) : (logWrite d a n v).grads = d.grads := by unfold logWrite; split <;> rfl
@[simp] theorem logWrite_spills (d : Dev) (a n v : Nat) : (logWrite d a n v).spills = d.spills := by unfold logWrite; split <;> rfl
@[simp] theorem logWrite_sideValid (d : Dev) (a n v : Nat) : (logWrite d a n v).sideValid = d.sideValid := by unfold logWrite; split <;> rfl
@[simp] theorem logWrite_fennel (d : Dev) (a n v : Nat) : (logWrite d a n v).fennel = d.fennel := by unfold logWrite; split <;> rfl
@[simp] theorem logWrite_rdOk (d : Dev) (a n v : Nat) : (logWrite d a n v).rdOk = d.rdOk := by unfold logWrite; split <;> rfl
@[simp] theorem logWrite_wrOut (d : Dev) (a n v : Nat) : (logWrite d a n v).wrOut = d.wrOut := by unfold logWrite; split <;> rfl
@[simp] theorem logWrite_acc (d : Dev) (a n v : Nat) : (logWrite d a n v).acc = d.acc := by unfold logWrite; split <;> rfl
@[simp] theorem logWrite_hostRefused (d : Dev) (a n v : Nat) : (logWrite d a n v).hostRefused = d.hostRefused := by unfold logWrite; split <;> rfl
@[simp] theorem logWrite_env (d : Dev) (a n v : Nat) : (logWrite d a n v).env = d.env := by unfold logWrite; split <;> rfl
@[simp] theorem logWrite_retired (d : Dev) (a n v : Nat) : (logWrite d a n v).retired = d.retired := by unfold logWrite; split <;> rfl
@[simp] theorem logWrite_resets (d : Dev) (a n v : Nat) : (logWrite d a n v).resets = d.resets := by unfold logWrite; split <;> rfl
@[simp] theorem logWrite_moves (d : Dev) (a n v : Nat) : (logWrite d a n v).moves = d.moves := by unfold logWrite; split <;> rfl
@[simp] theorem logWrite_nv (d : Dev) (a n v : Nat) : (logWrite d a n v).nv = d.nv := by unfold logWrite; split <;> rfl
@[simp] theorem logWrite_mbx (d : Dev) (a n v : Nat) : (logWrite d a n v).mbx = d.mbx := by unfold logWrite; split <;> rfl
@[simp] theorem logWrite_fw (d : Dev) (a n v : Nat) : (logWrite d a n v).fw = d.fw := by unfold logWrite; split <;> rfl
@[simp] theorem logWrite_policy (d : Dev) (a n v : Nat) : (logWrite d a n v).policy = d.policy := by unfold logWrite; split <;> rfl
@[simp] theorem logWrite_pwr (d : Dev) (a n v : Nat) : (logWrite d a n v).pwr = d.pwr := by unfold logWrite; split <;> rfl
@[simp] theorem logWrite_ports (d : Dev) (a n v : Nat) : (logWrite d a n v).ports = d.ports := by unfold logWrite; split <;> rfl
@[simp] theorem logWrite_side (d : Dev) (a n v : Nat) : (logWrite d a n v).side = d.side := by unfold logWrite; split <;> rfl
@[simp] theorem logWrite_eng (d : Dev) (a n v : Nat) : (logWrite d a n v).eng = d.eng := by unfold logWrite; split <;> rfl
@[simp] theorem logWrite_steps (d : Dev) (a n v : Nat) : (logWrite d a n v).steps = d.steps := by unfold logWrite; split <;> rfl
@[simp] theorem logWrite_shards (d : Dev) (a n v : Nat) : (logWrite d a n v).shards = d.shards := by unfold logWrite; split <;> rfl
@[simp] theorem logWrite_fab (d : Dev) (a n v : Nat) : (logWrite d a n v).fab = d.fab := by unfold logWrite; split <;> rfl
@[simp] theorem logWrite_recs (d : Dev) (a n v : Nat) : (logWrite d a n v).recs = d.recs := by unfold logWrite; split <;> rfl
@[simp] theorem logWrite_free (d : Dev) (a n v : Nat) : (logWrite d a n v).free = d.free := by unfold logWrite; split <;> rfl
@[simp] theorem logWrite_out (d : Dev) (a n v : Nat) : (logWrite d a n v).out = d.out := by unfold logWrite; split <;> rfl

/-! ### Bit fields -/

theorem testBit_bits (x hi lo j : Nat) : (bits x hi lo).testBit j = (decide (j < hi + 1 - lo) && x.testBit (lo + j)) := by
  rw [bits, Nat.testBit_mod_two_pow, Nat.testBit_div_two_pow, Nat.add_comm j lo]

theorem setBits_eq (x hi lo v : Nat) : setBits x hi lo v =
    2 ^ lo * (2 ^ (hi + 1 - lo) * (x / 2 ^ lo / 2 ^ (hi + 1 - lo)) + v % 2 ^ (hi + 1 - lo)) + x % 2 ^ lo := by
  unfold setBits bits
  generalize hi + 1 - lo = w
  have h1 := Nat.div_add_mod x (2 ^ lo)
  have h2 := Nat.div_add_mod (x / 2 ^ lo) (2 ^ w)
  generalize x / 2 ^ lo = q at *
  generalize x % 2 ^ lo = r at *
  generalize q / 2 ^ w = s at *
  generalize q % 2 ^ w = t at *
  subst h2
  rw [← h1, Nat.mul_add, Nat.mul_add, Nat.mul_comm t, Nat.mul_comm (v % 2 ^ w)]
  omega

theorem testBit_setBits (x hi lo v j : Nat) : (setBits x hi lo v).testBit j =
    if lo ≤ j ∧ j < hi + 1 then v.testBit (j - lo) else x.testBit j := by
  rw [setBits_eq, Nat.testBit_two_pow_mul_add _ (Nat.mod_lt _ (Nat.two_pow_pos lo)),
    Nat.testBit_two_pow_mul_add _ (Nat.mod_lt _ (Nat.two_pow_pos _))]
  by_cases h1 : j < lo
  · rw [if_pos h1, if_neg (by omega), Nat.testBit_mod_two_pow]
    simp [h1]
  · rw [if_neg h1]
    by_cases h2 : j < hi + 1
    · rw [if_pos (by omega), if_pos (by omega), Nat.testBit_mod_two_pow]
      have : j - lo < hi + 1 - lo := by omega
      simp [this]
    · rw [if_neg (by omega), if_neg (by omega), Nat.testBit_div_two_pow, Nat.testBit_div_two_pow]
      congr 1
      omega

/-- A field reads what was written to it, cut to its width. -/
theorem bits_setBits_self (x hi lo v : Nat) : bits (setBits x hi lo v) hi lo = v % 2 ^ (hi + 1 - lo) := by
  refine Nat.eq_of_testBit_eq fun j => ?_
  rw [testBit_bits, testBit_setBits, Nat.testBit_mod_two_pow]
  by_cases h : j < hi + 1 - lo
  · rw [if_pos (by omega)]
    simp [h]
  · simp [h]

/-- A field that shares no bit with the one written keeps its value. -/
theorem bits_setBits_other (x hi lo v hi' lo' : Nat) (h : hi' < lo ∨ hi < lo') :
    bits (setBits x hi lo v) hi' lo' = bits x hi' lo' := by
  refine Nat.eq_of_testBit_eq fun j => ?_
  rw [testBit_bits, testBit_bits, testBit_setBits]
  by_cases hj : j < hi' + 1 - lo'
  · rw [if_neg (by omega)]
  · simp [hj]

theorem bits_lt (x hi lo : Nat) : bits x hi lo < 2 ^ (hi + 1 - lo) := Nat.mod_lt _ (Nat.two_pow_pos _)

/-! ### Registers -/

theorem regKey_eq {r r' : Reg} {i j : Nat} (hi : i < 2 ^ 20) (hj : j < 2 ^ 20) (h : regKey r i = regKey r' j) :
    r.ctorIdx = r'.ctorIdx ∧ i = j := by
  unfold regKey at h
  omega

@[simp] theorem regGet_regSet_self (d : Dev) (r : Reg) (i v : Nat) : regGet (regSet d r i v) r i = v :=
  smapGet_set_self _ _ _

/-- A register of another name or instance keeps its value. -/
theorem regGet_regSet_other (d : Dev) (r r' : Reg) (i j v : Nat) (hi : i < 2 ^ 20) (hj : j < 2 ^ 20)
    (h : r'.ctorIdx ≠ r.ctorIdx ∨ j ≠ i) : regGet (regSet d r i v) r' j = regGet d r' j := by
  have hk : regKey r' j ≠ regKey r i := fun e => by
    have := regKey_eq hj hi e
    omega
  exact smapGet_set_other d.regs _ _ v hk

/-- A read of a field after a write of it. -/
@[simp] theorem fget_fset_self (d : Dev) (f : Field) (i v : Nat) : fget (fset d f i v) f i = v % 2 ^ (f.hi + 1 - f.lo) := by
  rw [fget, fset, regGet_regSet_self, bits_setBits_self]

/-- A read of another field of the same register and instance. -/
theorem fget_fset_field (d : Dev) (f g : Field) (i v : Nat) (hr : g.reg = f.reg) (h : g.hi < f.lo ∨ f.hi < g.lo) :
    fget (fset d f i v) g i = fget d g i := by
  unfold fget fset
  rw [hr, regGet_regSet_self, bits_setBits_other _ _ _ _ _ _ h]

/-- A read of a field of another register or instance. -/
theorem fget_fset_other (d : Dev) (f g : Field) (i j v : Nat) (hi : i < 2 ^ 20) (hj : j < 2 ^ 20)
    (h : g.reg.ctorIdx ≠ f.reg.ctorIdx ∨ j ≠ i) : fget (fset d f i v) g j = fget d g j := by
  unfold fget fset
  rw [regGet_regSet_other d _ _ i j _ hi hj h]

theorem fget_lt (d : Dev) (f : Field) (i : Nat) : fget d f i < 2 ^ (f.hi + 1 - f.lo) := bits_lt _ _ _

theorem reg_ctorIdx_inj {r r' : Reg} (h : r.ctorIdx = r'.ctorIdx) : r = r' := by
  have e := congrArg Reg.ofNat h
  rwa [Reg.ofNat_ctorIdx, Reg.ofNat_ctorIdx] at e

theorem onlyRegs_refl (d : Dev) (keys : List (Reg × Nat)) : OnlyRegs d d keys := ⟨rfl, fun _ _ _ _ => rfl⟩

/-- A write of a register that may change keeps the rest. -/
theorem onlyRegs_regSet {d e : Dev} {keys : List (Reg × Nat)} {r : Reg} {i v : Nat} (h : OnlyRegs d e keys) (hi : i < 2 ^ 20)
    (hm : (r, i) ∈ keys) : OnlyRegs d (regSet e r i v) keys := by
  refine ⟨?_, fun r' j hj hn => ?_⟩
  · unfold regSet
    rw [h.1]
  · rw [regGet_regSet_other e r r' i j v hi hj, h.2 r' j hj hn]
    by_cases hr : r'.ctorIdx = r.ctorIdx
    · right
      intro hij
      exact hn (by rw [reg_ctorIdx_inj hr, hij]; exact hm)
    · exact .inl hr

theorem onlyRegs_fset {d e : Dev} {keys : List (Reg × Nat)} {f : Field} {i v : Nat} (h : OnlyRegs d e keys) (hi : i < 2 ^ 20)
    (hm : (f.reg, i) ∈ keys) : OnlyRegs d (fset e f i v) keys := onlyRegs_regSet h hi hm

theorem onlyRegs_fsat {d e : Dev} {keys : List (Reg × Nat)} {f : Field} {i n : Nat} (h : OnlyRegs d e keys) (hi : i < 2 ^ 20)
    (hm : (f.reg, i) ∈ keys) : OnlyRegs d (fsat e f i n) keys := onlyRegs_fset h hi hm

/-- What does not change the register file changes no field. -/
theorem fget_congr {d e : Dev} (h : e.regs = d.regs) (f : Field) (i : Nat) : fget e f i = fget d f i := by
  unfold fget regGet
  rw [h]

theorem regGet_congr {d e : Dev} (h : e.regs = d.regs) (r : Reg) (i : Nat) : regGet e r i = regGet d r i := by
  unfold regGet
  rw [h]

/-! ### Counters whose unit the placement chooses -/

@[simp] theorem cntGet_cntAdd_self (d : Dev) (f : Field) (i n : Nat) :
    cntGet (cntAdd d f i n) f i = satAdd f.width (cntGet d f i) n := smapGet_set_self _ _ _

@[simp] theorem cntGet_cntClear_self (d : Dev) (f : Field) (i : Nat) : cntGet (cntClear d f i) f i = 0 := by
  unfold cntGet cntClear
  exact smapGet_set_self (d := 0) d.cnts (regKey f.reg i * 2 ^ 8 + f.lo) 0

/-! ### Memory -/

theorem memGet_memSet_self (d : Dev) (a : Nat) (v : Byte) : memGet (memSet d a v) a = v := smapGet_set_self _ _ _

theorem memGet_memSet_other (d : Dev) (a b : Nat) (v : Byte) (h : localAddr d b ≠ localAddr d a) :
    memGet (memSet d a v) b = memGet d b := smapGet_set_other _ _ _ _ h

/-- A byte reads as before when neither the memory nor the register file has changed. -/
theorem memGet_congr {d e : Dev} (hm : e.mem = d.mem) (hr : e.regs = d.regs) (a : Nat) : memGet e a = memGet d a := by
  have h : localAddr e a = localAddr d a := by
    unfold localAddr ownId
    rw [fget_congr hr]
  unfold memGet
  rw [hm, h]

/-! ### Commands in flight -/

/-- With nothing in flight there is nothing to go on with. -/
theorem advance_nothing {d : Dev} (h : d.eng.taken = []) : advance d = d := by
  unfold advance
  rw [h]
  rfl

/-! ### Answers -/

theorem act_runs (i : Instr) (s : State) (f : Dev → Dev) (h : exec i s = act s f) : Runs i s (f s.dev) := h

theorem act_next {s t : State} {f : Dev → Dev} (h : act s f = .next t) : t = { s with dev := f s.dev } := by
  cases h
  rfl

theorem hostAct_answers {d : Dev} {p : Nat} {f : Dev → Dev} (h : portAnswers d p = true) : hostAct d p f = f d := if_pos h

theorem hostAct_silent {d : Dev} {p : Nat} {f : Dev → Dev} (h : portAnswers d p = false) : hostAct d p f = d := by
  unfold hostAct
  rw [h]
  rfl

/-- A host command through a port that answers. -/
theorem host_runs {i : Instr} {s : State} {p : Nat} {f : Dev → Dev} (h : exec i s = act s (fun d => hostAct d p f))
    (hp : portAnswers s.dev p = true) : Runs i s (f s.dev) := by
  rw [← hostAct_answers (f := f) hp]
  exact h

/-- A host command through a port that does not answer changes nothing. -/
theorem host_silent {i : Instr} {s : State} {p : Nat} {f : Dev → Dev} (h : exec i s = act s (fun d => hostAct d p f))
    (hp : portAnswers s.dev p = false) : Runs i s s.dev := by
  have e := hostAct_silent (f := f) hp
  rw [Runs, h, act, e]

theorem ringAct_owner {d : Dev} {p r : Nat} {f : Dev → Dev} (h : ringOwner d r = some p) : ringAct d p r f = f d := by
  unfold ringAct mayWriteRing
  rw [h]
  simp

theorem doorbellAct_owner {d : Dev} {p r : Nat} {f : Dev → Dev} (h : ringOwner d r = some p) :
    doorbellAct d p r f = f d := by
  unfold doorbellAct
  rw [h]
  exact if_pos rfl

/-- A run leaves the queue alone. -/
theorem runs_pending {i : Instr} {s t : State} {d : Dev} (h : Runs i s d) (ht : exec i s = .next t) :
    t.pending = s.pending := by
  unfold Runs at h
  rw [h] at ht
  cases ht
  rfl

/-! ### Taking a command -/

@[simp] theorem addTaken_regs (d : Dev) (c : Cmd) (w : Wrr) : (addTaken d c w).regs = d.regs := rfl
@[simp] theorem addTaken_mem (d : Dev) (c : Cmd) (w : Wrr) : (addTaken d c w).mem = d.mem := rfl
@[simp] theorem addTaken_steps (d : Dev) (c : Cmd) (w : Wrr) : (addTaken d c w).steps = d.steps := rfl
@[simp] theorem addTaken_taken (d : Dev) (c : Cmd) (w : Wrr) : (addTaken d c w).eng.taken = d.eng.taken ++ [c] := rfl
@[simp] theorem countTaken_mem (d : Dev) (r : Nat) : (countTaken d r).mem = d.mem := by
  unfold countTaken
  rw [fset_mem, fset_mem]
@[simp] theorem countTaken_steps (d : Dev) (r : Nat) : (countTaken d r).steps = d.steps := by
  unfold countTaken
  rw [fset_steps, fset_steps]
@[simp] theorem countTaken_eng (d : Dev) (r : Nat) : (countTaken d r).eng = d.eng := by
  unfold countTaken
  rw [fset_eng, fset_eng]

end Sys2Proof.Machine
end

