-- ==== Sys2Proof/Laws/Noted.lean ====
section
/-! SUPPORT. What the operations that note and tell leave alone: interrupts, event bits, Nutmeg records and telemetry. -/
namespace Sys2Proof.Machine

theorem memKept_refl (d : Dev) : MemKept d d := fun _ _ => ⟨rfl, rfl⟩

/-- What leaves memory and its marks alone. -/
theorem memKept_same {d e : Dev} (h : e.mem = d.mem) (k : e.marks = d.marks) : MemKept d e := fun _ _ => by rw [h, k]; exact ⟨rfl, rfl⟩

theorem logFree_congr {d e : Dev} (h1 : regGet e .nutCfg 0 = regGet d .nutCfg 0)
    (h2 : regGet e .nutTelCfg 0 = regGet d .nutTelCfg 0) (a : Nat) : logFree e a = logFree d a := by
  have b1 : fget e nutCfgBase 0 = fget d nutCfgBase 0 := congrArg (fun x => bits x _ _) h1
  have b2 : fget e nutTelCfgBase 0 = fget d nutTelCfgBase 0 := congrArg (fun x => bits x _ _) h2
  have b3 : fget e nutTelCfgSizeLog2 0 = fget d nutTelCfgSizeLog2 0 := congrArg (fun x => bits x _ _) h2
  unfold logFree telSlots
  rw [b1, b2, b3]

theorem memKept_trans {a b c : Dev} (h1 : regGet b .nutCfg 0 = regGet a .nutCfg 0)
    (h2 : regGet b .nutTelCfg 0 = regGet a .nutTelCfg 0) (h : MemKept a b) (k : MemKept b c) : MemKept a c := fun x hx =>
  have k' := k x (by rw [logFree_congr h1 h2]; exact hx)
  have h' := h x hx
  ⟨k'.1.trans h'.1, k'.2.trans h'.2⟩

theorem noted_refl (d : Dev) : Noted d d := ⟨rfl, memKept_refl d, fun _ _ _ _ _ _ => rfl⟩

theorem noted_trans {a b c : Dev} (h : Noted a b) (k : Noted b c) : Noted a c := by
  refine ⟨?_, memKept_trans (h.2.2 _ _ (by decide) nofun nofun nofun) (h.2.2 _ _ (by decide) nofun nofun nofun) h.2.1 k.2.1,
    fun r i hi h1 h2 h3 => (k.2.2 r i hi h1 h2 h3).trans (h.2.2 r i hi h1 h2 h3)⟩
  have e := k.1
  rw [h.1] at e
  exact e

/-- A write of a register that is noted. -/
theorem noted_regSet {a d : Dev} {r : Reg} {i v : Nat} (h : Noted a d) (hi : i < 2 ^ 20)
    (hr : r = .nutStatus ∨ r = .nutTelStatus ∨ r = .hpEvtStatus) : Noted a (regSet d r i v) := by
  refine noted_trans h ⟨rfl, memKept_refl d, fun q j hj h1 h2 h3 => regGet_regSet_other d r q i j v hi hj (.inl fun e => ?_)⟩
  have := reg_ctorIdx_inj e
  subst this
  rcases hr with hr | hr | hr
  · exact h1 hr
  · exact h2 hr
  · exact h3 hr

theorem noted_fset {a d : Dev} {f : Field} {i v : Nat} (h : Noted a d) (hi : i < 2 ^ 20)
    (hr : f.reg = .nutStatus ∨ f.reg = .nutTelStatus ∨ f.reg = .hpEvtStatus) : Noted a (fset d f i v) :=
  noted_regSet h hi hr

theorem noted_recs {a d : Dev} {x : Records} (h : Noted a d) : Noted a { d with recs := x } :=
  noted_trans h ⟨rfl, memKept_refl d, fun _ _ _ _ _ _ => rfl⟩

theorem noted_seq {a d : Dev} {n : Nat} (h : Noted a d) : Noted a { d with nv := { d.nv with seqStore := n } } :=
  noted_trans h ⟨rfl, memKept_refl d, fun _ _ _ _ _ _ => rfl⟩

theorem noted_msix {a d : Dev} {x : List Nat} (h : Noted a d) : Noted a { d with eng := { d.eng with msixPending := x } } :=
  noted_trans h ⟨rfl, memKept_refl d, fun _ _ _ _ _ _ => rfl⟩

theorem noted_emit {a d : Dev} {o : Out} (h : Noted a d) : Noted a (emit d o) :=
  noted_trans h ⟨rfl, memKept_refl d, fun _ _ _ _ _ _ => rfl⟩

/-- A log entry inside one of the areas. -/
theorem logWrite_noted {a d : Dev} {x n v : Nat} (h : Noted a d) (hx : ∀ k, logFree d k = true → k < x ∨ x + n ≤ k) :
    Noted a (logWrite d x n v) := by
  refine noted_trans h ⟨?_, fun k hk => logWrite_other (hx k hk), fun r i _ _ _ _ => ?_⟩
  · unfold logWrite
    split <;> rfl
  · exact regGet_congr (logWrite_regs d x n v) r i

theorem nutWrite_noted {a d : Dev} {r : NutRec} (h : Noted a d) : Noted a (nutWrite d r) := by
  refine logWrite_noted h (fun k hk => ?_)
  unfold logFree at hk
  simp only [Bool.and_eq_true, decide_eq_true_eq] at hk
  unfold nutAddr
  have := Nat.mod_lt r.slot (Nat.two_pow_pos 18)
  omega

theorem telAddr_congr {d e : Dev} (h : regGet e .nutTelCfg 0 = regGet d .nutTelCfg 0) (s : Nat) :
    telAddr d s = telAddr e s := by
  have b2 : fget e nutTelCfgBase 0 = fget d nutTelCfgBase 0 := congrArg (fun x => bits x _ _) h
  have b3 : fget e nutTelCfgSizeLog2 0 = fget d nutTelCfgSizeLog2 0 := congrArg (fun x => bits x _ _) h
  unfold telAddr telSlots
  rw [b2, b3]

theorem telWrite_noted {a d : Dev} {s v : Nat} (h : Noted a d) : Noted a (logWrite d (telAddr d s) 64 v) := by
  refine logWrite_noted h (fun k hk => ?_)
  unfold logFree at hk
  simp only [Bool.and_eq_true, decide_eq_true_eq] at hk
  unfold telAddr
  have h0 : 0 < telSlots d := Nat.lt_of_lt_of_le Nat.one_pos (Nat.le_max_left _ _)
  have := Nat.mod_lt s h0
  omega

theorem sendVector_noted {a d : Dev} {p v : Nat} (h : Noted a d) : Noted a (sendVector d p v) := by
  unfold sendVector
  split
  · exact h
  · split
    · exact noted_msix h
    · exact noted_emit h

theorem evtSetOne_noted {a d : Dev} {p k : Nat} (h : Noted a d) (hp : p < 2 ^ 20) : Noted a (evtSetOne d p k) := by
  unfold evtSetOne
  extract_lets s d1
  have h1 : Noted a d1 := noted_regSet h hp (.inr (.inr rfl))
  split
  · exact sendVector_noted h1
  · exact h1

theorem evtSet_noted {a d : Dev} {k : Nat} (h : Noted a d) : Noted a (evtSet d k) :=
  evtSetOne_noted (evtSetOne_noted h (by decide)) (by decide)

theorem nutOpen_noted {a d : Dev} {e : NutEvent} (h : Noted a d) : Noted a (nutOpen d e) := by
  have one : ∀ {x : Dev} {f : Field} {v : Nat}, Noted a x → f.reg = .nutStatus → Noted a (fset x f 0 v) :=
    fun hx hf => noted_fset hx (by decide) (.inl hf)
  unfold nutOpen
  extract_lets seq pin slot rec0 kept next q1 d1 q2 d1' d2 d3 used d5 d4
  have h1 : Noted a d1 := nutWrite_noted (noted_recs h)
  clear_value d1
  have h1' : Noted a d1' := by
    dsimp only [d1']
    split
    · exact noted_seq h1
    · exact h1
  have h2 : Noted a d2 := one h1' rfl
  have h3 : Noted a d3 := by
    dsimp only [d3]
    split
    · exact one h2 rfl
    · exact h2
  have h5 : Noted a d5 := one h3 rfl
  have h4 : Noted a d4 := by
    dsimp only [d4]
    split
    · split
      · exact evtSet_noted (one h5 rfl)
      · exact h5
    · exact h3
  split
  · exact evtSet_noted h4
  · exact h4

theorem nutCount_noted {a d : Dev} (h : Noted a d) : Noted a (nutCount d) := by
  unfold nutCount
  split
  · exact noted_recs h
  · exact noted_recs h

theorem nutSummarise_noted {a d : Dev} (h : Noted a d) : Noted a (nutSummarise d) := by
  unfold nutSummarise
  split
  · exact h
  · exact nutOpen_noted (noted_recs h)

theorem nutLose_noted {a d : Dev} (h : Noted a d) : Noted a (nutLose d) :=
  noted_fset (f := nutStatusLost) (noted_recs h) (by decide) (.inl rfl)

theorem nutRecord_noted {a d : Dev} {e : NutEvent} (h : Noted a d) : Noted a (nutRecord d e) := by
  unfold nutRecord
  split
  · exact nutWrite_noted (noted_recs h)
  · split
    · exact nutOpen_noted (nutSummarise_noted (nutCount_noted h))
    · exact nutLose_noted h

theorem nutmeg_noted {a d : Dev} {e : NutEvent} (h : Noted a d) : Noted a (nutmeg d e) := by
  unfold nutmeg
  split
  · exact nutRecord_noted h
  · split
    · exact noted_recs h
    · exact nutLose_noted h

theorem telemetry_noted {a d : Dev} {k u t : Nat} {vs : List Nat} (h : Noted a d) : Noted a (telemetry d k u t vs) := by
  unfold telemetry
  extract_lets seq entry log x d1
  have h1 : Noted d d1 := noted_fset (f := nutTelStatusNextSeq) (noted_recs (noted_refl d)) (by decide) (.inr (.inl rfl))
  rw [telAddr_congr (h1.2.2 _ _ (by decide) nofun nofun nofun) seq]
  exact telWrite_noted (noted_trans h h1)

theorem decision_noted {a d : Dev} {w u t : Nat} {vs : List Nat} (h : Noted a d) : Noted a (decision d w u t vs) :=
  telemetry_noted h

/-- A field of a register that no note touches. -/
theorem noted_fget {a d : Dev} (h : Noted a d) (f : Field) (i : Nat) (hi : i < 2 ^ 20) (h1 : f.reg ≠ .nutStatus)
    (h2 : f.reg ≠ .nutTelStatus) (h3 : f.reg ≠ .hpEvtStatus) : fget d f i = fget a f i := by
  unfold fget
  rw [h.2.2 f.reg i hi h1 h2 h3]

theorem noted_mem {a d : Dev} (h : Noted a d) : MemKept a d := h.2.1

theorem noted_taken {a d : Dev} (h : Noted a d) : d.eng.taken = a.eng.taken := by
  rw [h.1]

theorem noted_owner {a d : Dev} (h : Noted a d) : d.eng.owner = a.eng.owner := by
  rw [h.1]

theorem noted_steps {a d : Dev} (h : Noted a d) : d.steps = a.steps := by
  rw [h.1]

theorem noted_ports {a d : Dev} (h : Noted a d) : d.ports = a.ports := by
  rw [h.1]

theorem noted_time {a d : Dev} (h : Noted a d) : d.time = a.time := by
  rw [h.1]

end Sys2Proof.Machine
end

