-- ==== Sys2Proof/Tests/Slice0.lean ====
section
/-! SUPPORT. Tests of the model and witnesses of its statements: ill-formed commands, small steps with the values the manual gives,
and for every statement with hypotheses a state and operands that meet them, clause by clause. -/
namespace Sys2Proof.Machine
open Sys2Proof

set_option Elab.async false

def tSet (d : Dev) (xs : List (Field × Nat × Nat)) : Dev := xs.foldl (fun d x => fset d x.1 x.2.1 x.2.2) d

/-- A device with main power and serving firmware; port 0 attached, port 1 detached. -/
def tUp : Dev :=
  tSet { State.reset.dev with
      pwr := { powerBlank with state := .running }, ports := List.replicate 2 ⟨false, false, false, true⟩ }
    ([(hpPortStateState, 0, 1), (mbxFwStatusState, 0, 2)]
      ++ (List.range 6).map (fun k => (mbxCompStatusState, k, 1)) ++ (List.range 32).map (fun k => (mbxChStatusAwake, k, 1)))

/-- Ring 0 of port 0 in scratch of core 0 and DRAM: depth 64, running. -/
def tRing : Dev := tSet { tUp with eng := { tUp.eng with owner := [(0, 0)] } }
  [(kringCfgLog2Depth, 0, 6), (kringStatusState, 0, 1), (kringCfgEnable, 0, 1), (kringBaseHiBaseHi, 0, 0x20000), (kringCqbaseHiBaseHi, 0, 0x20000), (kringCqbaseLoBaseLo, 0, 1)]
/-! ### Witnesses: rings and host ports -/

theorem witness_SubmissionDoorbellMovesTail :
    (portAnswers tRing 0 = true ∧ asleep tRing = false ∧ ringOwner tRing 0 = some 0 ∧ ringState tRing 0 = 1) ∧
    -- a count that is not ahead: 0 and 2^31 from the tail
    (serialDiff 0 (fget tRing kringCountsSqTail 0) = 0 ∧ serialDiff (2 ^ 31) (fget tRing kringCountsSqTail 0) = 2 ^ 31) ∧
    -- the last count within the depth, and the first beyond it
    (serialDiff 64 (fget tRing kringCountsSqHead 0) = ringDepth tRing 0 ∧ ringDepth tRing 0 < serialDiff 65 (fget tRing kringCountsSqHead 0)) ∧
    -- rings in error and draining, and a ring of the other port
    (ringState (tSet tRing [(kringStatusState, 0, 3)]) 0 = 3 ∧ ringState (tSet tRing [(kringStatusState, 0, 2)]) 0 = 2) ∧
    ringOwner { tRing with eng := { tRing.eng with owner := [(0, 1)] } } 0 = some 1 := by decide +kernel

/-- Three commands taken, two records written, one slot returned. -/
def tSlots : Dev := tSet tRing [(kringCountsSqHead, 0, 3), (kringCountsSqTail, 0, 5), (kringCountsCqTail, 0, 2), (kringCountsCqHead, 0, 1)]

theorem witness_CompletionDoorbellReturnsSlots :
    (portAnswers tSlots 0 = true ∧ asleep tSlots = false ∧ ringOwner tSlots 0 = some 0 ∧ ringState tSlots 0 = 1) ∧
    -- the count 2 fits, 1 does not move, 3 lies after the tail
    (serialDiff 2 (fget tSlots kringCountsCqHead 0) = 1 ∧ serialDiff (fget tSlots kringCountsCqTail 0) 2 < 2 ^ 31) ∧
    serialDiff 1 (fget tSlots kringCountsCqHead 0) = 0 ∧ ¬ serialDiff (fget tSlots kringCountsCqTail 0) 3 < 2 ^ 31 ∧
    ringOwner { tSlots with eng := { tSlots.eng with owner := [(0, 1)] } } 0 = some 1 := by decide +kernel

/-- Ring 0 before its enable. -/
def tOff : Dev := { tSet tRing [(kringStatusState, 0, 0), (kringCfgEnable, 0, 0), (kringStartStart, 0, 7)] with
  eng := { tRing.eng with owner := [] } }

theorem witness_RingEnableChecksAndStarts :
    (portAnswers tOff 0 = true ∧ asleep tOff = false ∧ mayWriteRing tOff 0 0 = true ∧ ringOpen tOff 0 = true) ∧
    -- everything in order, with a ring that leaves the rebase state or not
    (2 ≤ fget tOff mbxFwStatusState 0 ∧ inPortRange tOff 0 0 = true ∧ bit (fget tOff hpCfgClassAllow 0) (fget tOff kringCfgClass 0) = true ∧
      fget tOff hpDrvVersionMajor 0 = fget tOff mbxFwVersionMajor 0 ∧ ringDepthOk tOff 0 = true ∧
      ringPlaced tOff 0 (ringBase tOff 0) (64 * ringDepth tOff 0) = true ∧ ringPlaced tOff 0 (ringCqBase tOff 0) (32 * ringDepth tOff 0) = true ∧
      tOff.eng.leaving.contains 0 = false) ∧
    (let d := { tSet tOff [(kringCountsSqHead, 0, 7)] with eng := { tOff.eng with leaving := [0] } };
      d.eng.leaving.contains 0 = true ∧ fget d kringStartStart 0 = fget d kringCountsSqHead 0) ∧
    -- each cause of a refusal
    fget (tSet tOff [(mbxFwStatusState, 0, 1)]) mbxFwStatusState 0 = 1 ∧
    inPortRange (tSet tOff [(hpCfgRingLo, 0, 1)]) 0 0 = false ∧
    bit (fget (tSet tOff [(hpCfgClassAllow, 0, 14)]) hpCfgClassAllow 0) (fget tOff kringCfgClass 0) = false ∧
    fget (tSet tOff [(hpDrvVersionMajor, 0, 1)]) hpDrvVersionMajor 0 ≠ fget tOff mbxFwVersionMajor 0 ∧
    ringDepthOk (tSet tOff [(kringCfgLog2Depth, 0, 17)]) 0 = false ∧
    (let d := { tOff with eng := { tOff.eng with leaving := [0] } };
      d.eng.leaving.contains 0 = true ∧ fget d kringStartStart 0 ≠ fget d kringCountsSqHead 0) := by decide +kernel

theorem witness_RingControlsDrainAbortAndClear :
    (portAnswers tRing 0 = true ∧ mayWriteRing tRing 0 0 = true ∧ ringState tRing 0 ≠ 3) ∧
    ringState (tSet tRing [(kringStatusState, 0, 3)]) 0 = 3 ∧
    mayWriteRing { tRing with eng := { tRing.eng with owner := [(0, 1)] } } 0 0 = false := by decide +kernel

/-- A ring whose next entry lies where nothing is. -/
def tBadFetch : Dev := tSet tRing [(kringBaseHiBaseHi, 0, 0x30000), (kringCountsSqTail, 0, 1)]

theorem witness_FetchFailureStopsTheRing :
    ringOwner tBadFetch 0 = some 0 ∧ ringReady tBadFetch 0 = true ∧ fetchFails tBadFetch 0 = true := by decide +kernel

theorem witness_InterruptsWaitForUnmaskAndTimeout :
    (portAnswers tRing 0 = true ∧ portSilent tRing 0 = false) ∧
    { tRing with eng := { tRing.eng with msixPending := [3] } }.eng.msixPending.contains (0 * 2048 + 3) = true ∧
    tRing.eng.msixPending.contains 3 = false ∧ ringOwner tRing 0 = some 0 ∧
    (smapGet { tRing with eng := { tRing.eng with irq := [(0, ⟨1, 0⟩)] } }.eng.irq 0 ⟨0, 0⟩).pending ≠ 0 ∧
    (smapGet tRing.eng.irq 0 ⟨0, 0⟩).pending = 0 ∧ vectorMasked tRing 0 0 = true ∧
    vectorMasked { tRing with eng := { tRing.eng with msixTable := [(3, 0)] } } 0 0 = false := by decide +kernel

theorem witness_HeartbeatAndOrphanHold :
    (portAnswers tUp 0 = true ∧ portState tUp 0 = 1 ∧ mainPower tUp = true ∧ (portRun tUp 0).waiting = false) ∧
    (portAnswers (tSet tUp [(hpPortStateState, 0, 2)]) 0 = true ∧ portState (tSet tUp [(hpPortStateState, 0, 2)]) 0 = 2 ∧
      portHeld (tSet tUp [(hpPortStateState, 0, 2)]) 0 = true) ∧
    (portAnswers tUp 1 = true ∧ portState tUp 1 = 0) ∧
    (portRun (updPort tUp 0 (fun x => { x with waiting := true })) 0).waiting = true ∧
    fget (tSet tUp [(hpCfgOrphanClose, 0, 5)]) hpCfgOrphanClose 0 ≠ 0 ∧
    fget (tSet tUp [(hpCfgOrphanClose, 0, 0)]) hpCfgOrphanClose 0 = 0 := by decide +kernel

theorem witness_AttachResumeResetDetach :
    (portAnswers tUp 0 = true ∧ portState tUp 0 = 1 ∧ 0 < tUp.ports.length) ∧ (portAnswers tUp 1 = true ∧ portState tUp 1 = 0) ∧
    (portAnswers (tSet tUp [(hpPortStateState, 0, 2)]) 0 = true ∧ portState (tSet tUp [(hpPortStateState, 0, 2)]) 0 = 2) := by
  decide +kernel

theorem witness_AdoptionTakesOverRings :
    (let d := { tSet tUp [(hpPortStateState, 1, 2), (hpCfgAdoptive, 1, 1)] with eng := { tUp.eng with owner := [(8192, 1)] } };
      portAnswers d 0 = true ∧ portState d 0 = 1 ∧ portState d 1 = 2 ∧ fget d hpCfgAdoptive 1 = 1 ∧ ringOwner d 8192 = some 1) ∧
    portState tUp 1 ≠ 2 := by decide +kernel

theorem witness_PortResetsTouchOnePort :
    (mainPower tUp = true ∧ portAnswers tUp 0 = true ∧ 0 < tUp.ports.length ∧ portState tUp 0 = 1 ∧ portState tUp 1 = 0) ∧
    (let d := tSet tUp [(hpPortStateState, 1, 4)]; portState d 1 = 4 ∧ (portRun d 1).perst = false) := by decide +kernel

theorem witness_EventBanksClearAndEnable :
    portAnswers tUp 0 = true ∧ (let d := tSet tUp [(hpEvtStatusLinkState, 0, 1), (hpEvtEnEn, 0, 256)];
      regGet d .hpEvtStatus 0 &&& regGet d .hpEvtEn 0 ≠ 0) := by decide +kernel

theorem witness_SemValueWriteSetsAndClears : portAnswers tUp 0 = true ∧ asleep tUp = false ∧ (262143 : Nat) < 262144 := by decide +kernel

theorem witness_SideMemoryAndCounterClears :
    portAnswers tUp 0 = true ∧ asleep tUp = false ∧ coreWritable tUp .cardCtl 63 = true ∧ coreWritable tUp .arrCtl 255 = true ∧
    coreWritable tUp .safCtl 255 = true := by decide +kernel

theorem witness_LocksAndReadClears :
    portAnswers tUp 0 = true ∧ asleep tUp = false ∧ (lockFields[0]?).isSome = true ∧ inReset tUp 2 1 = false ∧
    inReset { tUp with resets := [⟨2, 1, 0, [], []⟩] } 2 1 = true := by decide +kernel

theorem witness_RegisterWriteReachesOneRegister :
    (portAnswers tUp 0 = true ∧ asleep tUp = false) ∧ ¬((4 = 4 ∨ 4 = 8) ∧ 6 % 4 = 0) ∧ ¬((2 = 4 ∨ 2 = 8) ∧ 6 % 2 = 0) ∧
    regAt 0 0x10C000 = none ∧ regAt 0 0x300000 = some (.arrStatus, 0, 0) := by decide +kernel

theorem witness_FieldsObeyTheirAccessType :
    kringCfgVector.acc = .rw ∧ kringCfgVector.lo ≤ kringCfgVector.hi ∧ kringCfgVector.hi < 64 ∧
    hpEvtStatusDataLoss.acc = .w1c ∧ pwrCfgLock.acc = .w1s ∧ pwrCfgLock.hi < 64 ∧ pwrInputMv.acc = .ro := by decide +kernel
/-! ### Witnesses: entries, accumulators, commands -/

/-- A header with an opcode, and every other field 0. -/
def tHeader (op : Nat) : Header := ⟨0, false, 0, 0, false, false, false, false, op, 0, 0, 0, 0, ⟨0, false, 0, 0⟩, ⟨0, false, 0, 0⟩⟩

/-- Ring 0 with one entry: an opcode, and a body that begins with `w`. -/
def tEntry (op w : Nat) : Dev :=
  let d := tSet tRing [(kringCountsSqTail, 0, 1)]
  memWriteNat d (entryAddr d 0) 64 (headerWords (tHeader op) + w * 2 ^ 256)

theorem witness_CommandHeaderRoundTrip :
    HeaderFits ⟨511, true, 63, 15, true, true, true, true, 255, 2 ^ 32 - 1, 2 ^ 32 - 1, 2 ^ 14 - 1, 2 ^ 18 - 1,
      ⟨65535, true, 2 ^ 14 - 1, 2 ^ 18 - 1⟩, ⟨65535, false, 2 ^ 14 - 1, 2 ^ 18 - 1⟩⟩ := by
  unfold HeaderFits; decide +kernel

theorem witness_PackedEntryIsCanonical :
    EntryFits safFixed ∧ EntryFits { safFixed with special := .nan } ∧
    EntryFits { safFixed with v := (2 ^ 95 - 1) * 2 ^ 671 } ∧ (2 ^ 95 - 1 : Int) % 2 = 1 ∧
    EntryFits { safFixed with v := (2 ^ 95 + 1) * 2 ^ 3 } ∧ (2 ^ 95 + 1 : Int) % 2 = 1 ∧
    EntryFits { safFixed with v := -(2 ^ 95 + 1) * 2 ^ 3 } ∧ (-(2 ^ 95 + 1) : Int) % 2 = 1 := by
  unfold EntryFits; decide +kernel

theorem witness_AccumulationIsExactInAnyOrder :
    safFixed.special = .finite ∧ safFixed.anchored = false ∧
    safFixed.v.natAbs + addBound [(1, 300), (-3, -400), (5, -403)] < 2 ^ 767 ∧
    [(5, -403), (1, 300), (-3, -400)].Perm [(1, 300), (-3, -400), ((5 : Int), (-403 : Int))] ∧
    (∀ c ∈ [((1 : Int), (300 : Int)), (-3, -400)], -400 ≤ c.2) := by decide +kernel

theorem witness_OverflowAndSpecialsOfAnEntry :
    ({ safFixed with v := 2 ^ 767 - 1 }.special = .finite ∧ { safFixed with v := 2 ^ 767 - 1 }.anchored = false ∧
      2 ^ 767 ≤ { safFixed with v := 2 ^ 767 - 1 }.v + (shiftFloor 1 (-400 + 400)).1) ∧
    { safFixed with v := -(2 ^ 767) }.v + (shiftFloor (-1) (-400 + 400)).1 < -(2 ^ 767) ∧
    { safFixed with special := .pinf }.special ≠ .finite := by decide +kernel

/-- The rows that the ring scheduler takes, with an opcode and the first body word of an entry that each is about. -/
def tTaken : List (Instr × Nat × Nat) :=
  [(.mm 0, 1, 0), (.conv 0, 2, 0), (.sliceMm 0, 3, 0), (.row 0, 8, 0), (.vec 0, 9, 0), (.copy 0, 0x10, 0), (.mcast 0, 0x11, 0),
   (.fennelPut 0, 0x12, 0), (.semWait 0, 0x18, 0), (.semSignal 0, 0x19, 0), (.allreduce 0, 0x20, 0), (.reduce 0, 0x20, 1),
   (.broadcast 0, 0x20, 2), (.allgather 0, 0x20, 3), (.treeLoad 0, 0x20, 8), (.routeLoad 0, 0x20, 9), (.updBind 0, 0x28, 0),
   (.updUnbind 0, 0x29, 0), (.stepOpen 0, 0x30, 0), (.stepClose 0, 0x31, 0), (.scaleSet 0, 0x38, 0), (.censusRead 0, 0x39, 0),
   (.digest 0, 0x3C, 0), (.fence 0, 0x40, 0), (.timestamp 0, 0x41, 0), (.nop 0, 0x7F, 0), (.badOpcode 0, 0x7E, 0)]

theorem witness_SchedulerTakesCommand : tTaken.all (fun x =>
    let d := tEntry x.2.1 x.2.2
    (takes x.1).any (fun y => y.1 == 0 && y.2 (nextEntry d 0)) && (nextRing d).any (fun n => n.1 == 0) && !fetchFails d 0) = true := by
  decide +kernel

/-- What `StartsAlone` asks of the next command of ring 0. -/
def tAlone (d : Dev) : Bool :=
  let t := takeCommand d 0 (((nextRing d).map (·.2)).getD ⟨0, 0, []⟩)
  let c := nextCmd d 0
  d.eng.taken.isEmpty && c.phase == .waiting && c.status == 0 && c.opener.isNone && !c.held && (!c.header.waitEn || (!semErr t c.header.waitSem && waitReached t c.header.waitSem c.header.waitTarget))
    && unbindGate t c && placementServed t c && admitted t c && (planBlocks (startCmd t c (waitCount t c)) c.ctx c.entry).isNone

/-- As `tEntry` on a ring of class `k`; a SEM_WAIT entry waits for the count 0 of semaphore 0. -/
def tClassed (k op w : Nat) : Dev :=
  let d := tSet tRing [(kringCountsSqTail, 0, 1), (kringCfgClass, 0, k)]
  memWriteNat d (entryAddr d 0) 64 (headerWords { tHeader op with waitEn := op == 0x18 } + w * 2 ^ 256)

/-- Rows whose entry starts alone, with the class of the ring, the opcode and the first body word. -/
def tStarting : List (Instr × Nat × Nat × Nat) :=
  [(.mm 0, 0, 1, 0), (.conv 0, 0, 2, 0), (.sliceMm 0, 0, 3, 0), (.row 0, 0, 8, 0), (.vec 0, 0, 9, 0), (.copy 0, 1, 0x10, 0),
   (.mcast 0, 1, 0x11, 0), (.fennelPut 0, 1, 0x12, 0), (.semWait 0, 0, 0x18, 0), (.semSignal 0, 0, 0x19, 2 ^ 48),
   (.allreduce 0, 2, 0x20, 0), (.reduce 0, 2, 0x20, 1), (.broadcast 0, 2, 0x20, 2), (.allgather 0, 2, 0x20, 3),
   (.treeLoad 0, 2, 0x20, 8), (.routeLoad 0, 2, 0x20, 9), (.updBind 0, 3, 0x28, 0), (.updUnbind 0, 3, 0x29, 0),
   (.stepOpen 0, 3, 0x30, 1), (.scaleSet 0, 3, 0x38, 0), (.censusRead 0, 3, 0x39, 0), (.digest 0, 3, 0x3C, 0),
   (.fence 0, 0, 0x40, 0), (.timestamp 0, 0, 0x41, 0x100000), (.nop 0, 0, 0x7F, 0)]

/-- The body of the next command of ring 0 ends, with no bytes of a peer and no unit under reset in its way. -/
def tEnds (d : Dev) : Bool :=
  let w := ((nextRing d).map (·.2)).getD ⟨0, 0, []⟩
  let c := nextCmd d 0
  (bodyAlone d 0 w c).done.any (fun x => x.1 != Status.resetWait.code && x.1 != Status.remoteData.code)
    && (findCmd (afterBody d 0 w c) 0 c.seq).all (fun x => x.status == 0)

/-- Every row of the list starts alone and, FENNEL_PUT apart, ends at once; so does the STEP_CLOSE of an open epoch. -/
theorem witness_CommandAloneRunsItsBody :
    (tStarting.all (fun x => let d := tClassed x.2.1 x.2.2.1 x.2.2.2; tAlone d && (x.2.2.1 == 0x12 || tEnds d)) = true) ∧
    (let d := updGroup (tClassed 3 0x31 1) 0 (fun g => { g with phase := .opened, tag := 1, port := 0 }); tAlone d = true) := by
  decide +kernel

/-- A command in flight: a NOP that waits for semaphore 3 to reach 2. -/
def tWaiting (ph : CmdPhase) (blocked : Bool) : Cmd :=
  ⟨0, 5, 0, headerWords { tHeader 0x7F with waitEn := true, waitSem := 3, waitTarget := 2 }, none, 0, ph, blocked, false, false, 0, 0,
    [], [], 0, 0, []⟩

def tFlight (c : Cmd) : Dev := { tRing with eng := { tRing.eng with taken := [c] } }

theorem witness_WaitsResumeOrFail :
    (let c := tWaiting .waiting true; let d := tFlight c
     findCmd d 0 5 = some c ∧ c.phase = .waiting ∧ c.blocked = true ∧ orderGate d c = true ∧ admitted d c = true ∧ c.header.waitEn = true ∧
      c.header.waitSem = 3 ∧ c.header.waitTarget = 2 ∧
      -- in error; reached at 2 and just before it
      semErr (tSet d [(semValueErr, 3, 1)]) 3 = true ∧ semErr d 3 = false ∧
      serialDiff (semCount (tSet d [(semValueCount, 3, 2)]) 3) 2 = 0 ∧
      2 ^ 31 ≤ serialDiff (semCount (tSet d [(semValueCount, 3, 1)]) 3) 2) ∧
    -- its queue has no credit for it
    (let c := { tWaiting .waiting true with entry := headerWords { tHeader 0x7F with
       waitEn := true, waitSem := 3, waitTarget := 2, sig0En := true, sig0 := ⟨1, false, 0, 14⟩ } }
     let d := tSet (tFlight c) [(semValueCount, 3, 2), (semQueueFwdPair, 6, 7), (semQueueSlots, 6, 2), (semQueueCredits, 6, 1)]
     findCmd d 0 5 = some c ∧ orderGate d c = true ∧ admitted d c = false) ∧
    (tWaiting .started false).phase ≠ .waiting ∧ (tWaiting .waiting false).blocked = false ∧
    orderGate tRing { tWaiting .waiting true with held := true } = false := by decide +kernel

theorem witness_CompletionSignalsAndRecords :
    (let c := tWaiting .finished false
     findCmd (tFlight c) 0 5 = some c ∧ c.outstanding = [] ∧ c.phase = .finished ∧ c.opcode ≠ some .fennelPut ∧
      c.header.sig0.remote = false ∧ c.header.sig1.remote = false ∧ c.status = 0) ∧
    (let c := tWaiting .signalled false; findCmd (tFlight c) 0 5 = some c ∧ c.phase = .signalled) ∧
    (let c := { tWaiting .finished false with outstanding := [9] }; findCmd (tFlight c) 0 5 = some c ∧ c.outstanding ≠ []) ∧
    (let c := tWaiting .started false; findCmd (tFlight c) 0 5 = some c ∧ c.phase ≠ .finished ∧ c.phase ≠ .signalled) := by
  decide +kernel

theorem witness_LightCommandsFinish :
    (tWaiting .started false).opcode = some .nop ∧
    (let c := { tWaiting .started false with entry := headerWords (tHeader 0x19) + (3 + 65535 * 2 ^ 48) * 2 ^ 256 };
      c.opcode = some .semSignal ∧ bit (entryWord c.entry 4) 32 = false ∧ bits (entryWord c.entry 4) 34 33 = 0) ∧
    (let c := { tWaiting .started false with entry := headerWords (tHeader 0x41) + 0x8FFFFFFFF8 * 2 ^ 256 };
      c.opcode = some .timestamp ∧ entryWord c.entry 4 % 8 = 0 ∧ entryWord c.entry 4 + 8 ≤ 0x9000000000) ∧
    rangeNamed tRing 0 0x100000 8 = true ∧ accessFails tRing 0x100000 8 true = none ∧ marksIn tRing 0x100000 8 = [] ∧
    { tWaiting .started false with entry := 0 }.opcode = none ∧
    { tWaiting .started false with entry := headerWords (tHeader 0x18) }.opcode = some .semWait := by decide +kernel

theorem witness_CompletionRecordGoesToItsSlot :
    ringCqBase tRing 0 + 32 * (63 % ringDepth tRing 0) + 32 ≤ 0x6000000000000000 ∧
    (∃ off, regionOf (localAddr tRing (ringCqBase tRing 0 + 32 * (63 % ringDepth tRing 0))) = .scratch 0 off) ∧
    64 / ringDepth tRing 0 % 2 = 1 ∧ 63 / ringDepth tRing 0 % 2 = 0 := by
  refine ⟨by decide +kernel, ⟨6112, by decide +kernel⟩, by decide +kernel⟩

theorem witness_CompletedCommandLeavesItsRing :
    fget (tSet tRing [(kringStatusInflight, 0, 1), (kringStatusState, 0, 2)]) kringStatusInflight 0 - 1 = 0 ∧
    ringState (tSet tRing [(kringStatusInflight, 0, 1), (kringStatusState, 0, 2)]) 0 = 2 ∧
    fget (tSet tRing [(kringStatusInflight, 0, 2)]) kringStatusInflight 0 - 1 ≠ 0 ∧ tRing.eng.raise.contains 0 = false := by
  decide +kernel
/-! ### Witnesses: links and peers -/

/-- Link 3 is in operation; the module is number 5. -/
def tLink : Dev := tSet tUp [(blLinkStatusState, 3, 2), (blCfgDevId, 0, 5)]

def tLinkAs (l : Link) : Dev := { tLink with fab := { tLink.fab with links := listSet tLink.fab.links 3 l } }

/-- A message on its way and not acknowledged. -/
def tSent : Sent := ⟨0, 1, 0, ⟨7, 5, .probe 1⟩⟩

def tPart : StepPart := ⟨0, [], ⟨0, 0⟩, ⟨0, 0⟩, false⟩

/-- The message rows, each in sequence on link 3. -/
def tArriving : List Instr :=
  let f : Flit := ⟨0, 0, 0, 0, 5, 7⟩
  [.stepMsg 3 f (.up 0 0 1 0 0 tPart), .collData 3 f ⟨0, 0, 0, 0, true, 0, 0, 0, 1, 0, false, 0, 0, [0], [0], []⟩,
   .collSpill 3 f ⟨0, 0, 0, 0, 0, 0, 0⟩, .wr 3 f 0 1 [1], .rdReq 3 f 0 1 8, .semOp 3 f 1 0 0 1, .probe 3 f 1, .rdResp 3 f 1 [1],
   .wrAck 3 f 1, .semAck 3 f 1, .probeResp 3 f 1, .errResp 3 f 1 0x1010]

theorem witness_MessagesAreTakenInSequence :
    (tArriving.all (fun i => (delivers i).any (fun x => x.1 == 3 && x.2.1.seq == 0 && x.2.1.dst == ownId tLink)) = true) ∧
    (tLink.pwr.state = .running ∧ linkUp tLink 3 = true ∧ (linkAt tLink 3).map (fun l => (l.rxSeq, l.nackOut)) = some (0, false)) ∧
    -- ahead: 1 and 2^15 - 1; behind: 2^15
    (seqDiff 1 0 < 2 ^ 15 ∧ seqDiff (2 ^ 15 - 1) 0 < 2 ^ 15 ∧ 2 ^ 15 ≤ seqDiff (2 ^ 15) 0) ∧
    (linkAt (tLinkAs { linkBlank with nackOut := true }) 3).map (·.nackOut) = some true ∧ ownId tLink ≠ 7 ∧
    linkUp tLink 4 = false := by decide +kernel

/-- Window 0 allows reads and writes of 4 KiB at 1 MiB, and semaphores 8 to 9. -/
def tWindow : Dev := tSet tLink [(blRmaWinBase, 0, 0x100), (blRmaWinSize, 0, 1), (blRmaWinWr, 0, 1), (blRmaWinRd, 0, 1),
  (blRmaSemLo, 0, 8), (blRmaSemHi, 0, 9)]

theorem witness_PeerRequestsAreServed :
    (peerOffsetAddr 0x100FFF = some 0x100FFF ∧ rmaAllows tWindow 0x100FFF 1 true = true ∧ rmaAllows tWindow 0x100FFF 1 false = true ∧
      inSpill tWindow 0x100FFF 1 = false ∧ accessFails tWindow 0x100FFF 1 true = none ∧ accessFails tWindow 0x100FFF 1 false = none ∧
      regionOf (localAddr tWindow 0x100FFF) = .dram ∧ marksIn tWindow 0x100FFF 1 = []) ∧
    rmaAllows tWindow 0x100FFF 2 true = false ∧ rmaAllows tWindow 0x100FFF 2 false = false ∧
    (fget tWindow blRmaSemLo 0 ≤ 8 ∧ 9 ≤ fget tWindow blRmaSemHi 0 ∧ 7 < fget tWindow blRmaSemLo 0 ∧ fget tWindow blRmaSemHi 0 < 10) := by
  decide +kernel

/-- A command that waits for the answer of request 9 to peer 7. -/
def tAsking : Cmd := ⟨0, 5, 0, headerWords ⟨0, false, 0, 0, false, false, false, false, 0x10, 0, 0, 0, 0, ⟨0, false, 0, 0⟩, ⟨0, false, 0, 0⟩⟩,
  none, 0, .started, false, false, true, 0, 0, [9], [], 0, 0, []⟩

def tRequest : Dev := { tLink with
  eng := { tLink.eng with taken := [tAsking] }, fab := { tLink.fab with reqs := [⟨9, 7, 0, 0, 5, 0x100000, 8⟩] } }

theorem witness_AnswersEndRequestsOfCommands :
    findReq tRequest 7 9 = some ⟨9, 7, 0, 0, 5, 0x100000, 8⟩ ∧ findCmd tRequest 0 5 = some tAsking ∧ tAsking.phase ≠ .finished ∧
    tAsking.status = 0 ∧ tAsking.opcode ≠ some .stepClose ∧ tAsking.opcode ≠ some .updBind ∧ tAsking.opcode ≠ some .updUnbind ∧
    findReq tRequest 8 9 = none ∧ tRequest.pwr.state = .running ∧
    tRequest.fab.reqs.find? (fun r => r.tag == 10) = none ∧ (tRequest.fab.reqs.find? (fun r => r.tag == 9)).isSome = true := by
  decide +kernel

theorem witness_LinkAcksCreditsAndReplay :
    (tLink.pwr.state = .running ∧ linkAt tLink 3 = some linkBlank ∧ linkUp tLink 3 = true) ∧
    (linkBlank.waiting = [] ∧ linkBlank.credits.length = 4 ∧ linkBlank.replay = [] ∧ linkBlank.nackOut = false) ∧
    -- one message out: acknowledged by 0, not by 65535
    (let l := { linkBlank with txSeq := 2, replay := [tSent] }
     linkAt (tLinkAs l) 3 = some l ∧ l.replay ≠ [] ∧ (seqDiff 0 l.txAck ≠ 0 ∧ seqDiff 0 l.txAck < seqDiff l.txSeq l.txAck) ∧
      seqDiff 65535 l.txAck = 0 ∧
      -- a NACK of its first flit resends it
      seqDiff 0 (l.txAck + 1) < seqDiff l.txSeq (l.txAck + 1) ∧
      l.replay.all (fun m => decide (seqDiff 0 (l.txAck + 1) ≤ seqDiff (m.seq + m.flits - 1) (l.txAck + 1))) = true ∧
      (∀ m ∈ l.replay, m.sends + 1 < fget (tLinkAs l) blLaneCfgReplayMax 0)) ∧
    (linkAt (tLinkAs { linkBlank with nackOut := true }) 3).map (·.nackOut) = some true := by decide +kernel

/-- Link 3 trains. -/
def tTrain (l : Link) : Dev := tSet (tLinkAs l) [(blLinkStatusState, 3, 1)]

theorem witness_LinksTrainFallAndRetire :
    (tLink.pwr.state = .running ∧ linkAt (tTrain linkBlank) 3 = some linkBlank ∧ fget (tTrain linkBlank) blLinkStatusState 3 = 1) ∧
    (2 ≤ popcount 4 (ownLanes tLink 3 &&& 3) ∧ linkBlank.wasDown = false ∧ ownLanes tLink 3 &&& 1 &&& linkBlank.peerMask ≠ 0) ∧
    (linkAt (tTrain { linkBlank with wasDown := true }) 3).map (·.wasDown) = some true ∧
    -- the third failure within a second, and the second
    ([0, 0].filter (fun t => decide (tLink.time < t + 1000000000)) ++ [tLink.time]).length = 3 ∧
    ([0].filter (fun t => decide (tLink.time < t + 1000000000)) ++ [tLink.time]).length < 3 ∧
    (fget tLink blLinkStatusState 3 ≠ 1 ∧ fget (tSet tLink [(blLinkStatusState, 4, 0)]) blLinkStatusState 4 = 0 ∧ fget tLink blLinkStatusState 3 ≠ 0) ∧
    -- a worn lane, and none
    (fget tLink blLaneCfgSymThr 0 * 1024 ≤ 2 ^ 32 - 1 ∧ (fget (tSet tLink [(blLinkStatusLanes, 3, 15)]) blLinkStatusLanes 3).testBit 3 = true ∧
      ¬ fget tLink blLaneCfgSymThr 0 * 1024 ≤ 0 ∧ linkBlank.ucwWin < fget tLink blLaneCfgUcwThr 0) := by decide +kernel

/-- A peer, number 7, watched by semaphore 12. -/
def tWatch : Dev := tSet tLink [(blSemWatchValid, 0, 1), (blSemWatchPeer, 0, 7), (blSemWatchSem, 0, 12)]

theorem witness_ProbesFindUnreachablePeers :
    tWatch.pwr.state = .running ∧ 7 ∈ probedPeers tWatch ∧ 7 ∉ tWatch.fab.unreachable ∧ (7, 12) ∈ watchEntries tWatch ∧
    tWatch.fab.nextTag < 65536 ∧ 8 ∉ probedPeers tWatch := by decide +kernel

/-! ### Witnesses: steps, shards, plans -/

def tGroup (g : Group) : Dev := { tUp with steps := { tUp.steps with groups := listSet tUp.steps.groups 2 g } }

/-- A shard with handle 9 in group 2: one tile, its planes and its mirror apart. -/
def tBind : Bind := ⟨9, 1, 9, 0, 256, 256, 0x10000, 0x400000, 0x800000, 0x800040, 0x800080, 0x10, 0, false, false, false, false, false, false,
  false, false, false, 1, 2, 0, true, 0, 0, 0, 0, 0, 0, 0, 0, 0, 0, 0, 0, 0, 0, 0, 0⟩

def tShard (ph : Nat) : Shard :=
  ⟨tBind, ⟨0, 0, ph, false, false, 0, 1, 0, 0, 0, 0, 0, 0, 0, 0, safAnchored⟩, true, [], 0, ph, false, false, false, 0, [], 0, false,
    none, [], []⟩

/-- A STEP_OPEN of group 2 that is held. -/
def tHeld : Cmd := ⟨0, 5, 0, headerWords { tHeader 0x30 with group := 2 }, none, 0, .waiting, false, true, false, 0, 0, [], [], 0, 0, []⟩

/-- A STEP_CLOSE of group 2 before it. -/
def tCloser : Cmd := { tHeld with seq := 4, entry := headerWords { tHeader 0x31 with group := 2 }, held := false, phase := .started }

def tComm : Comm := ⟨3, 2, [], []⟩

theorem witness_EpochsCloseWithTheVerdict :
    -- drained, with conditions 1 and 4; and with a shard that lacks its gradient
    (let g := { groupBlank with phase := .closing, conds := 0x12 }
     groupAt (tGroup g) 2 = some g ∧ drained (tGroup g) 2 = true ∧ g.comm = none ∧ g.clipM = 0 ∧
      (let x := { tShard 0 with delivered := false }
       drained { tGroup g with shards := [x] } 2 = true ∧ (x.bind.group == 2 && lacksGradient x) = true ∧
        commitHalted { tGroup g with shards := [x] } x = false)) ∧
    -- not drained, and not closing
    (drained { tGroup { groupBlank with phase := .closing } with shards := [tShard 1] } 2 = false ∧
      groupPhase (tGroup groupBlank) 2 ≠ .closing) ∧
    -- waiting for the verdict over a communicator
    (let g := { groupBlank with phase := .reducing, sentAt := 1, comm := some 3 }
     let d := { tGroup g with fab := { tUp.fab with comms := [tComm] } }
     groupAt d 2 = some g ∧ g.sentAt ≠ 0 ∧ fget d blE2eCfgCloseTimeout 0 ≠ 0 ∧ g.comm.bind (findComm d) = some tComm) ∧
    -- a held STEP_OPEN of an idle group
    (let d := { tGroup groupBlank with eng := { tUp.eng with taken := [tHeld] } }
     d.eng.taken.find? (fun x => isStepCmd 2 x && x.held) = some tHeld ∧ findCmd d 0 5 = some tHeld ∧
      beforeOf d tHeld = [] ∧
      -- and one that a STEP_CLOSE before it keeps back
      (let e := { d with eng := { d.eng with taken := [tCloser, tHeld] } }
       e.eng.taken.find? (fun x => isStepCmd 2 x && x.held) = some tHeld ∧ beforeOf e tHeld = [tCloser] ∧
        tCloser.header.group = 2 ∧ tCloser.opcode = some .stepClose)) := by decide +kernel

def tBound (x : Shard) : Dev := { tUp with shards := [x] }

theorem witness_UpdatePhasesFollowOneAnother :
    (findShard (tBound (tShard 1)) 9 = some (tShard 1) ∧ findShard (tBound (tShard 1)) 8 = none ∧ unitHalted (tBound (tShard 1)) (tShard 1) = false ∧
      unitHalted (tBound (tShard 4)) (tShard 4) = false) ∧
    -- the planes, the mirror and the last unit of work
    (let x := tShard 2
     x.unitNo < x.bind.units ∧ planeBase x true + x.bind.planeSize ≤ 0x9000000000 ∧ planeBase x false + x.bind.planeSize ≤ 0x9000000000 ∧
      x.bind.mirror + 128 ≤ 0x9000000000 ∧ planeBase x true + x.bind.planeSize ≤ planeBase x false ∧
      planeBase x true + x.bind.planeSize ≤ x.bind.mirror ∧ 0 < x.bind.planeSize ∧ x.bind.units ≤ x.unitNo + 1) ∧
    -- halted by a reset of die 0
    unitHalted { tBound (tShard 1) with resets := [⟨2, 0, 0, [], []⟩] } (tShard 1) = true := by decide +kernel

theorem witness_UpkeepOfBoundShards :
    (tBound (tShard 0)).pwr.state = .running ∧ findShard (tBound (tShard 0)) 9 = some (tShard 0) ∧ (tShard 0).fpAsked = false ∧
    findShard (tBound { tShard 0 with fpAsked := true }) 9 = some { tShard 0 with fpAsked := true } ∧ findShard tUp 9 = none ∧
    (tShard 0).fpDiffer = none ∧ { tShard 0 with fpDiffer := some 1 }.fpDiffer = some 1 ∧ (tShard 0).fpWait = [] ∧
    findComm tUp (tShard 0).bind.rcomm = none ∧ { tShard 0 with fpDiffer := some 1, fpWait := [0] }.fpWait = [0] ∧
    fpDue (tBound (tShard 0)) (tShard 0) = none ∧ ¬ 256 * (tShard 0).bind.tiles ≤ (tShard 0).scrubLine + 1 ∧
    256 * tBind.tiles ≤ ({ tShard 0 with scrubLine := 255 } : Shard).scrubLine + 1 := by decide +kernel

/-- Plan entry 4 of group 2, 128 bytes, written by a NOP. -/
def tPlan (placed : Nat) (ph : PlanPhase) : PlanRun :=
  ⟨4, 2, 0x100000000, 128, placed, 0x100200000, ph, 0, 5, 0, 7, headerWords (tHeader 0x7F), 0, 0, none, 0x300000, 0x380000, none, []⟩

def tPlanned (p : PlanRun) : Dev := { tUp with steps := { tUp.steps with plan := [p] } }

theorem witness_PlanEntriesMoveOutAndBack :
    ([(tPlan 2 .home), (tPlan 3 .home), (tPlan 1 .home), (tPlan 2 .copying), (tPlan 2 .away), (tPlan 2 .restoring)].all (fun p =>
      decide (findPlan (tPlanned p) 4 = some p ∧ p.areaAt + p.size ≤ 0x6000000000000000 ∧ p.restoreAt + p.size ≤ 0x6000000000000000))) = true ∧
    -- both moves lie in DRAM, outside the logs
    (let d := tPlanned (tPlan 2 .away)
     (List.range 128).all (fun k => logFree d (localAddr d (0x100000000 + k)) && logFree d (localAddr d (0x100200000 + k))) = true ∧
      regionOf (localAddr d 0x100200000) = .dram ∧ regionOf (localAddr d 0x380000) = .dram) ∧
    -- the restore space: a place is free, or holds entry 5, or both places are in use
    (let r := fun (i a : Nat) (fr : Option Nat) => ({ tPlan 2 .restored with index := i, restoreAt := a, firstRead := fr } : PlanRun)
     let d := fun (qs : List PlanRun) => ({ tUp with steps := { tUp.steps with plan := tPlan 2 .away :: qs } } : Dev)
     restoreSpace (d []) (tPlan 2 .away) = some 0x300000 ∧
      restoreSpace (d [r 5 0x300000 (some 1), r 6 0x300080 none]) (tPlan 2 .away) = some 0x300000 ∧
      holdersOf (d [r 5 0x300000 (some 1), r 6 0x300080 none]) (tPlan 2 .away) 0x300000 = [r 5 0x300000 (some 1)] ∧
      restoreSpace (d [r 5 0x300000 none, r 6 0x300080 none]) (tPlan 2 .away) = none) := by
  decide +kernel

/-- A command that waits on a full queue 6: its signal is that of the queue's forward pair. -/
def tStall : Cmd :=
  ⟨0, 5, 0, headerWords { tHeader 0x7F with sig0En := true, sig0 := ⟨1, false, 0, 14⟩ }, none, 7, .waiting, false, false, false, 0, 0, [], [], 0, 0, []⟩

def tStalled : Dev :=
  let d := tSet tUp [(semQueueFwdPair, 6, 7), (semQueueSlots, 6, 2), (semQueueCredits, 6, 1)]
  { d with eng := { d.eng with taken := [tStall] } }

def tFennel : FennelXfer := ⟨0, 5, 0x100000, [1, 2, 3]⟩

def tLanding : Dev := { tUp with fennel := [tFennel], eng := { tUp.eng with taken := [{ tHeld with held := false, phase := .started }] } }

theorem witness_RecomputeCreditsStallsAndFennel :
    -- a discarded entry with a writer that ends with status 0
    (let p := tPlan 4 .discarded
     let d := tPlanned p
     findPlan d 4 = some p ∧ p.phase = .discarded ∧ p.writer ≠ 0 ∧
      restoreSpace d p = some 0x300000 ∧
      (let cmd : Cmd := ⟨p.ring, p.seq, p.port, p.writer, none, p.stepTag, .started, false, false, true, 0, 0, [], p.fetched, 0, d.time, []⟩
       let d1 := takeSpace d p 0x300000 .restored
       ((runBody (noteRanges (stageReads d1 cmd) (commandReads d1 p.writer)) { cmd.ctx with recompute := true } cmd).done.map (·.1)) = some 0)) ∧
    (fget tStalled semQueueCredits 6 < fget tStalled semQueueSlots 6 ∧ ¬ fget tUp semQueueCredits 6 < fget tUp semQueueSlots 6) ∧
    (tStalled.eng.taken.find? (stalledOn tStalled 6) = some tStall ∧ (⟨6, tStall.stepTag⟩ : QueueRun) ∉ tStalled.steps.queues ∧
      tUp.eng.taken.find? (stalledOn tUp 6) = none) ∧
    (fennelNext tLanding 0 = some tFennel ∧ (findCmd tLanding 0 5).isSome = true ∧ inReset tLanding 2 0 = false ∧
      tFennel.dst + tFennel.data.length ≤ 0x6000000000000000 ∧ tFennel.data ≠ [] ∧ regionOf (localAddr tLanding tFennel.dst) = .dram ∧
      accessFails { tLanding with fennel := tLanding.fennel.erase tFennel } tFennel.dst tFennel.data.length true = none ∧
      fennelNext tUp 0 = none) := by decide +kernel

/-! ### Witnesses: mailboxes and firmware -/

/-- Channel `ch` holds a request of a service with a function code. -/
def tAskOn (d : Dev) (ch svc fn : Nat) : Dev :=
  tSet (mbxWrite d ch 0x1000 (leBytes 1 fn ++ leBytes 1 1 ++ leBytes 2 svc)) [(mbxChStatusBusy, ch, 1), (mbxChStatusDone, ch, 0)]

theorem witness_MailboxDoorbellsAndDone :
    (portAnswers tUp 0 = true ∧ tUp.pwr.state = .running ∧ mbxBound tUp 0 8 = true ∧ mbxBound tUp 1 8 = false) ∧
    fget (tSet tUp [(mbxChStatusAwake, 8, 0)]) mbxChStatusAwake 8 = 0 ∧
    (fget tUp mbxChStatusAwake 8 ≠ 0 ∧ fget tUp mbxChStatusBusy 8 = 0 ∧ fget tUp mbxChStatusDone 8 = 0 ∧ fwState tUp = 2 ∧
      compState tUp (servingComp 8) = 1) ∧
    fget (tAskOn tUp 8 0x10 0) mbxChStatusBusy 8 = 1 ∧
    compState (tSet tUp [(mbxCompStatusState, 5, 2)]) (servingComp 8) ≠ 1 ∧
    (fwState (tSet tUp [(mbxFwStatusState, 0, 0)]) < 2 ∧ ¬ ((8 : Nat) ≤ 1)) ∧
    (let d := { tUp with pwr := { tUp.pwr with state := .asleep } }
     asleep d = true ∧ portAnswers d 0 = true ∧ asleep tUp = false) := by decide +kernel

/-- Firmware has not been loaded; port 0 may load; an image stands in its memory at `tHostAt`. -/
def tHostAt : Nat := 0x4000000000001000

def tCold (bs : List Byte) : Dev := tSet (tAskOn (memWrite tUp tHostAt bs) 0 1 0) [(mbxFwStatusState, 0, 0), (hpCfgLoadRight, 0, 1)]

/-- A firmware image of 64 bytes, version 1.2.3, schemas 1 to 2, with its signature block. -/
def tImage : List Byte :=
  leBytes 4 0x4E444F53 ++ leBytes 4 0x01020003 ++ leBytes 4 0 ++ leBytes 4 0x00020001 ++ leBytes 4 1 ++ leBytes 4 64 ++ leBytes 40 0
    ++ leBytes 4 0x53494746 ++ leBytes 252 0

/-- What the image stands for once it has been verified. -/
def tVerified : FwImage := ⟨1, 2, 3, 0, 1, 2, 1, 64, false, leNat (shake256 (tImage.take 64) 64), false⟩

/-- The image passes when the signature over its digest does: the check itself is the model's free function. -/
theorem witness_image_passes (d : Dev) (hk : (liveConfig d).bind (·.counterKey) = none) (hf : d.nv.counters.getD 0 0 = 0)
    (hs : Config.ed448Verify (Config.trustedKey 0) (leNat (shake256 (tImage.take 64) 64)) 0 0 = true) :
    verifyImage d tImage = some tVerified := by
  unfold verifyImage
  have e1 : ¬(byteWord tImage 0 4 ≠ 0x4E444F53 ∨ byteWord tImage 0x14 4 < 64 ∨ 1835008 < byteWord tImage 0x14 4 ∨
    tImage.length < byteWord tImage 0x14 4 + 256) := by decide +kernel
  have e2 : byteWord tImage 0x14 4 = 64 := by decide +kernel
  have e3 : byteWord ((tImage.drop 64).take 256) 0x08 114 = 0 := by decide +kernel
  have e4 : byteWord ((tImage.drop 64).take 256) 0 4 = 0x53494746 := by decide +kernel
  have e5 : byteWord tImage 8 4 = 0 ∧ byteWord tImage 4 4 = 0x01020003 ∧ byteWord tImage 0x0C 4 = 0x00020001 ∧
    byteWord tImage 0x10 2 = 1 ∧ byteWord ((tImage.drop 64).take 256) 4 4 = 0 := by decide +kernel
  obtain ⟨a, b, c, f, g⟩ := e5
  have e6 : bits 0x01020003 31 24 = 1 ∧ bits 0x01020003 23 16 = 2 ∧ bits 0x01020003 15 0 = 3 ∧ bits 0x00020001 15 0 = 1 ∧
    bits 0x00020001 31 16 = 2 := by decide +kernel
  obtain ⟨i, j, k, l, m⟩ := e6
  rw [if_neg e1]
  unfold tVerified
  simp only [e2, e3, e4, a, b, c, f, g, i, j, k, l, m, hk, hf]
  generalize leNat (shake256 (tImage.take 64) 64) = x at hs ⊢
  rw [hs]
  rfl

theorem witness_FirmwareIsLoadedOnce :
    (holds tUp 0 1 = false ∧ holds (tCold []) 0 1 = true ∧ fwState (tCold []) = 0 ∧ reqService (tCold []) 0 = 1) ∧
    -- LOAD: without the right, not attached, serving, loading, and with an image
    (fget (tSet (tCold []) [(hpCfgLoadRight, 0, 0)]) hpCfgLoadRight 0 = 0 ∧ portState (tCold []) 1 ≠ 1 ∧ portState (tCold []) 0 = 1 ∧
      fget (tCold []) hpCfgLoadRight 0 ≠ 0 ∧ fget (tCold []) mbxMapInitiator 0 = 0 ∧ 2 ≤ fwState (tAskOn tUp 0 1 0) ∧
      fwState (tSet (tCold []) [(mbxFwStatusState, 0, 1)]) = 1 ∧
      (match hostImage (tCold []) 0 0x1000 64 with | .error r => r == 5 | .ok _ => false) = true ∧
      (match hostImage (tCold [1]) 0 tHostAt 1 with | .ok bs => bs == [1] && (verifyImage (tCold [1]) bs).isNone | .error _ => false) = true ∧
      (match hostImage (tCold tImage) 0 tHostAt 320 with | .ok bs => bs == tImage | .error _ => false) = true ∧
      (liveConfig (tCold tImage)).bind (·.counterKey) = none ∧ (tCold tImage).nv.counters.getD 0 0 = 0 ∧ (tCold tImage).fw.banks.length = 2) ∧
    -- FW_RUNNING with and without a load; STATUS
    ({ tUp with fw := { tUp.fw with loading := some 0 } }.fw.loading = some 0 ∧ tUp.fw.loading = none ∧
      compServes (tAskOn tUp 0 1 0) 3 = true) := by decide +kernel

/-- Bank A runs an image with schema out 1, bank B holds a staged one; channel 0 asks. -/
def tStaged (act : Nat) (ask : Option Nat) : Dev :=
  tSet (tAskOn { tUp with fw := { tUp.fw with banks := [some tVerified, some tVerified], activating := ask } } 0 1 0) [(mbxFwActState, 0, act)]

theorem witness_LiveUpdateStagesHandsOverAndRollsBack :
    (let d := memWrite (tStaged 0 none) tHostAt tImage
     d.fw.banks.length = 2 ∧ holds d 0 1 = true ∧ fwState d = 2 ∧ compServes d (servingComp 0) = true ∧ fget d mbxMapInitiator 0 = 0 ∧
      (match hostImage d 0 tHostAt 320 with | .ok bs => bs == tImage | .error _ => false) = true ∧ fwBank d (runBank d) = some tVerified ∧
      (tVerified.schemaMin ≤ tVerified.schemaOut ∧ tVerified.schemaOut ≤ tVerified.schemaMax) ∧
      ({ tVerified with schemaOut := 9 }.schemaOut = 9 ∧ tVerified.schemaMax < 9) ∧ verifyImage d [] = none ∧
      d.fw.activating = none ∧ fget d mbxFwActState 0 ≠ 1) ∧
    (let d := tStaged 1 none
     holds d 0 1 = true ∧ d.fw.activating = none ∧ fget d mbxFwActState 0 = 1 ∧ fwBank d (1 - runBank d) = some tVerified ∧
      tVerified.failed = false ∧ majorClash d = false ∧ deferred d = false) ∧
    (let d := tStaged 2 (some 1)
     holds d 0 1 = true ∧ deferred d = true ∧ d.fw.activating ≠ some 0 ∧ fwState d = 2 ∧ actConditions d = 0 ∧ majorClash d = false ∧
      fwState d ≠ 3 ∧ fget d mbxFwActState 0 ≠ 4 ∧ handing d = false) ∧
    fwState (tSet (tStaged 3 (some 0)) [(mbxFwStatusState, 0, 3)]) = 3 ∧ handing (tSet (tStaged 3 (some 0)) [(mbxFwStatusState, 0, 3)]) = true ∧
    (fget (tStaged 4 (some 0)) mbxFwActState 0 = 4 ∧ handing (tStaged 4 (some 0)) = true) ∧
    actConditions (tSet (tStaged 2 (some 0)) [(pwrStatusUv, 0, 1)]) ≠ 0 ∧
    -- another major version with a ring enabled
    (let d := { tStaged 1 none with
       fw := { (tStaged 1 none).fw with banks := [some tVerified, some { tVerified with major := 2 }] },
       eng := { tUp.eng with owner := [(0, 0)] } }
     majorClash (tSet d [(kringCfgEnable, 0, 1)]) = true ∧ holds d 0 1 = true ∧
      deferred { tStaged 2 none with fw := { d.fw with activating := some 1 } } = true) := by decide +kernel

theorem witness_CompartmentsFaultAndRestart :
    (handing tUp = false ∧ compState tUp 4 = 1 ∧
      ¬ 2 ≤ (tUp.fw.faults.filter (fun f => decide (tUp.time < f.2 + 3600000000000) && f.1 == 4)).length ∧
      2 ≤ ([((4 : Nat), (0 : Nat)), (4, 0)].filter (fun f => decide (tUp.time < f.2 + 3600000000000) && f.1 == 4)).length) ∧
    (let d := tSet tUp [(mbxCompStatusState, 4, 2)]
     compState d 4 = 2 ∧ fwState d ≠ 4 ∧ (∀ j, j < 6 → j ≠ 4 → compState d j ≠ 2)) ∧
    fwState (tSet tUp [(mbxCompStatusState, 4, 2), (mbxFwStatusState, 0, 4)]) = 4 := by decide +kernel

/-- Channel 8 holds a policy request; an epoch of group 2 is open when `busy`. -/
def tPolicy (fn : Nat) (busy : Bool) : Dev :=
  let d := tAskOn tUp 8 0x10 fn
  if busy then { d with steps := { d.steps with groups := listSet d.steps.groups 2 { groupBlank with phase := .opened } } } else d

/-- As `tPolicy`, with a configuration that permits no policy request. -/
def tForbid (fn : Nat) : Dev :=
  let d := tPolicy fn false
  { d with nv := { d.nv with banks := [some ⟨1, false, 0, [], 0, [], none, [], some []⟩, none] } }

theorem witness_PolicyRequestsAreCheckedAndTaken :
    [0x20, 0x21, 0x22, 0x23, 0x24, 0x30].all (fun fn =>
      [tPolicy fn false, tPolicy fn true, tForbid fn].all (fun d =>
        holds d 8 0x10 && compServes d (servingComp 8) && reqFunction d 8 == fn)
      && permitted (tPolicy fn false) fn && permitted (tPolicy fn true) fn && !permitted (tForbid fn) fn
      && noEpoch (tPolicy fn false) && !noEpoch (tPolicy fn true)
      && (earliestEpoch (tPolicy fn false)).isNone && (earliestEpoch (tPolicy fn true)).isSome) = true ∧
    (let d := tSet (tPolicy 0x20 false) [(mbxFwStatusGovernor, 0, 0)]
     protecting d = false ∧ fget d mbxFwStatusGovernor 0 = 0 ∧ holds d 8 0x10 = true) ∧
    fget (tSet (tPolicy 0x21 false) [(pwrCfgOpenAllowed, 0, 1)]) pwrCfgOpenAllowed 0 = 1 ∧
    fget (tSet (tPolicy 0x22 false) [(pwrCfgPrioOverride, 0, 1)]) pwrCfgPrioOverride 0 = 1 ∧
    (let d := tPolicy 0x23 false
     [(semPrioRangeMin0, semPrioRangeMax0), (semPrioRangeMin1, semPrioRangeMax1), (semPrioRangeMin2, semPrioRangeMax2),
      (semPrioRangeMin3, semPrioRangeMax3)].all (fun r => decide (fget d r.1 0 ≤ fget d r.2 0)) = true ∧
     fget d semSchedCfgDMin 0 ≤ fget d semSchedCfgDMax 0) ∧
    (let d := { tUp with policy := { tUp.policy with profileReq := some 1 } }
     d.policy.profileReq = some 1 ∧ noEpoch d = true ∧ tUp.policy.profileReq = none) := by decide +kernel

/-- A configuration image of one empty section, unsigned, with sequence number 7. -/
def tConfigHead : List Byte :=
  leBytes 4 0x47464354 ++ leBytes 2 1 ++ leBytes 2 0 ++ leBytes 4 7 ++ leBytes 4 0x90 ++ leBytes 2 1 ++ leBytes 46 0
    ++ leBytes 4 1 ++ leBytes 12 0

def tConfigBytes : List Byte := tConfigHead ++ shake256 tConfigHead 64

/-- Keys are at hand; channel `ch` asks service `svc` for `fn`; the driver has the firmware's major version. -/
def tSecure (ch svc fn : Nat) (keys : Bool) : Dev :=
  tAskOn (memWrite { tUp with fw := { tUp.fw with keysReady := keys, challenge := some (1, 0) } } tHostAt tConfigBytes) ch svc fn

theorem witness_SecureServicesKeepTheirRules :
    ([(2, 2, 1), (2, 2, 2), (4, 3, 1), (4, 3, 2), (4, 3, 3), (5, 4, 1), (5, 4, 2), (10, 0x11, 0)].all (fun x =>
      let d := tSecure x.1 x.2.1 x.2.2 true
      holds d x.1 x.2.1 && compServes d (servingComp x.1) && reqFunction d x.1 == x.2.2 && canSign d && d.nv.flashOk
        && d.nv.counters.length == 4
        && (decide (2 ≤ fget d mbxMapInitiator x.1) || fget d hpDrvVersionMajor (fget d mbxMapInitiator x.1) == fget d mbxFwVersionMajor 0)) = true) ∧
    (canSign (tSecure 2 2 1 false) = false ∧ (keysOk (tSecure 5 4 1 false) && (tSecure 5 4 1 false).nv.flashOk) = false) ∧
    (reqWord (tSecure 4 3 1 true) 4 8 4 ≠ 64 ∧ reqWord (mbxWrite (tSecure 4 3 1 true) 4 0x1008 (leBytes 4 64)) 4 8 4 = 64) ∧
    (let d := tSecure 4 3 2 true
     (match hostImage d 0 tHostAt 0x90 with | .ok bs => bs == tConfigBytes | .error _ => false) = true ∧
      (configImage tConfigBytes).map (·.seq) = some 7 ∧ (configImage tConfigBytes).all (stageable d) = true ∧ configImage [] = none ∧
      stageable (tSet { d with nv := { d.nv with counters := [0, 8, 0, 0] } } []) ⟨7, false, 0, [], 0, [], none, [], none⟩ = false ∧
      d.nv.banks.length = 2) ∧
    unlockLevel (tSecure 5 4 2 true) (reqBytes (tSecure 5 4 2 true) 5 0 0xC0) = 0 := by decide +kernel

/-! ### Witnesses: resets, power, heat, upkeep, sideband -/

/-- Channel 8 asks the management service for a reset; port 1 is detached. -/
def tReset (fn : Nat) : Dev := tAskOn (tSet tUp [(hpPortStateState, 1, 2)]) 8 0x10 fn

theorem witness_ResetsBeginUnderTheirRules :
    ([0x40, 0x41, 0x42, 0x43, 0x44].all (fun fn =>
      let d := tReset fn
      holds d 8 0x10 && compServes d (servingComp 8) && reqFunction d 8 == fn && otherIdle d 8
        && !otherIdle (tSet d [(hpPortStateState, 1, 1)]) 8) = true) ∧
    (let d := tReset 0x43
     stackTooHot d 7 = false ∧ stackTooHot (tSet d [(memStackStatusTemp, 7, 16 * 85)]) 7 = true ∧ inReset d 3 7 = false ∧
      inReset { d with resets := [⟨3, 7, 0, [], []⟩] } 3 7 = true ∧ 7 ∉ d.retired.stackSet ∧
      (let e := { d with retired := ⟨[63], [], [7], [35], [], [], []⟩ }
       coreRetired d 63 = false ∧ coreRetired e 63 = true ∧ 7 ∈ e.retired.stackSet ∧ 35 ∈ e.retired.links ∧ 35 ∉ d.retired.links)) ∧
    -- a core of a die that is under reset
    (let d := { tReset 0x42 with resets := [⟨2, 1, 0, [], []⟩] }
     inReset d 2 (63 / 32) = true ∧ inReset d 1 63 = false ∧ coreRetired d 63 = false ∧ otherIdle d 8 = true) ∧
    (fget (tReset 0x44) blLinkStatusState 35 ≠ 3 ∧ mainPower tUp = true ∧ inReset tUp 2 1 = false) ∧
    ([(1, 63), (2, 1)].all (fun x => inReset { tUp with resets := [⟨x.1, x.2, 0, [], []⟩] } x.1 x.2) = true ∧ inReset tUp 1 63 = false) := by
  decide +kernel

/-- A TIMESTAMP of ring 0 to an address, started, while a unit is under reset. -/
def tHeldUp (kind unit dst : Nat) : Dev :=
  let c : Cmd := ⟨0, 5, 0, headerWords (tHeader 0x41) + dst * 2 ^ 256, none, 0, .started, false, false, false, 0, 0, [], [], 0, 0, []⟩
  { tUp with resets := [⟨kind, unit, 0, [], [8]⟩], eng := { tUp.eng with taken := [c] } }

theorem witness_ResetsEndAndStartAgain :
    (let d : Dev := { tUp with resets := [⟨1, 63, 0, [], [8]⟩] }
     d.resets.find? (fun r => r.kind == 1 && r.unit == 63) = some ⟨1, 63, 0, [], [8]⟩ ∧ d.fab.waitReqs = [] ∧ inReset d 1 0 = false) ∧
    ([2, 3].all (fun k => ({ tUp with resets := [⟨k, 1, 0, [], [8]⟩] } : Dev).resets.find? (fun r => r.kind == k && r.unit == 1)
      == some ⟨k, 1, 0, [], [8]⟩) = true) ∧
    (let m : Payload := .wr 0x100000 1 [1]
     reqAddr tUp m = some 0x100000 ∧ isDram 0x100000 = true ∧ reqAddr tUp (.rdReq 0xC000000000 1 8) = some 0x0001000000000000 ∧
      isDram 0x0001000000000000 = false) ∧
    -- a chunk of a COLL whose target descriptor lies in stack 0 waits for it
    (let c : Cmd := ⟨0, 5, 0, headerWords (tHeader 0x20) + 0x100000 * 2 ^ 384, none, 0, .started, false, false, true, 0, 0, [], [], 0, 0, []⟩
     let x : CollChunk := ⟨3, 1, 0, 0, false, 0, 0, 0, 1, 0, false, 0, 0, [0], [0], []⟩
     let d : Dev := { tUp with
       resets := [⟨3, 0, 0, [], []⟩], eng := { tUp.eng with taken := [c] },
       fab := { tUp.fab with colls := [⟨0, 5, 3, 1, 0, [0], 0, []⟩], waitReqs := [(7, .collData x)] } }
     (leafRun d x).isSome = true ∧ (reqAddr d (.collData x)).any (fun a => isDram (localAddr d a)) = true) ∧
    (mainPower tUp = true ∧ mainPower State.reset.dev = false ∧ tUp.env.defects = []) ∧
    -- a command that waits for core 0, one that waits for stack 0, one that waits for nothing, and none
    ((findCmd (tHeldUp 1 0 0x0001000000000000) 0 5).any (fun c =>
        waitAddr (tHeldUp 1 0 0x0001000000000000) c == some 0x0001000000000000) = true ∧
      (findCmd (tHeldUp 3 0 0x100000) 0 5).any (fun c => (waitAddr (tHeldUp 3 0 0x100000) c).any isDram) = true ∧
      (findCmd (tHeldUp 1 0 0x100000) 0 5).any (fun c => (waitAddr (tHeldUp 1 0 0x100000) c).isNone && (waitXfer (tHeldUp 1 0 0x100000) c).isNone) = true ∧
      findCmd tUp 0 5 = none ∧
      -- and one whose Fennel transfer waits for stack 0
      (let d : Dev := { tHeldUp 3 0 0 with fennel := [⟨0, 5, 0x100000, [1]⟩], eng := { tUp.eng with taken := [{ tWaiting .started false with issued := true }] } }
       (findCmd d 0 5).any (fun c => (waitAddr d c).isNone && (waitXfer d c).any (fun x => isDram (localAddr d x.dst))) = true)) := by
  decide +kernel

def tRails (p : PowerState) (cause : Nat) : Dev := tSet { tUp with pwr := { tUp.pwr with state := p } } [(thmShutdownCause, 0, cause)]

theorem witness_PowerComesAndGoes :
    ((tRails .unpowered 0).pwr.state = .unpowered ∧ (tRails .standby 0).pwr.state = .standby ∧ fget (tRails .standby 0) thmShutdownCause 0 = 0) ∧
    (fget (tRails .standby 5) thmShutdownCause 0 = 5 ∧ fget (tRails .standby 3) thmShutdownCause 0 = 3 ∧
      coolEnough (tRails .standby 3) = true ∧ fget (tRails .standby 3) thmShutdownHold 0 = 0) ∧
    (coolEnough { tRails .standby 3 with pwr := { tUp.pwr with diodes := [(0, 16 * 80)] } } = false) ∧
    (let d := tSet tUp [(pwrSleepCfgEnable, 0, 1)]
     mainPower d = true ∧ idle d = true ∧ idle tRing = false) := by decide +kernel

/-- A die's power state: divisor and skip of its loop. -/
def tLoop (div skip : Nat) : DiePower := ⟨div, skip, false, 0, [], 0⟩

theorem witness_InputCapsAndDroopsAct :
    (mainPower tUp = true ∧ compServes tUp 0 = true ∧ fget tUp pwrStatusUv 0 = 0 ∧ fget (tSet tUp [(pwrStatusUv, 0, 1)]) pwrStatusUv 0 = 1 ∧
      tUp.pwr.dies[1]? = some (tLoop 1 0)) ∧
    -- above the cap less the margin; more than 2% below it; between
    (let whole := fget tUp pwrStatusCapEff 0
     let m := fget tUp pwrCfgMarginW 0
     whole < whole + m ∧ (0 + m) * 100 + whole * 2 < whole * 100 ∧
      ¬(whole < whole - m + m) ∧ ¬((whole - m + m) * 100 + whole * 2 < whole * 100)) ∧
    ((tLoop 1 7).loopS < 8 ∧ 8 ≤ (tLoop 2 8).loopS ∧ (tLoop 2 8).loopD < 4 ∧ 4 ≤ (tLoop 4 8).loopD ∧ 1 < (tLoop 2 0).loopD) ∧
    -- FW_CAP_LOOP: what the floors take, and less than that
    (let fl := 9 * ((List.range 36).filter (fun n => fget tUp blLinkStatusState n != 3)).length / 2
     let fm := 10 * (8 - tUp.retired.stackSet.length)
     fget tUp pwrCfgMarginW 0 + 100 + 100 + (fl + fm + 500) ≤ fget tUp pwrStatusCapEff 0 ∧
      fget tUp pwrStatusCapEff 0 < fget tUp pwrCfgMarginW 0 + 100 + 100 + (fl + fm + 5000)) ∧
    -- a storm that can end
    (fget (tSet tUp [(pwrDieStorm, 1, 1)]) pwrDieStorm 1 = 1 ∧ 0 ≤ fget tUp pwrDroopCfgStorm 0 / 4) := by decide +kernel

/-- The factory calibration has been found good. -/
def tCal : Dev := tSet tUp [(cfgImageStatusCalOk, 0, 1)]

theorem witness_HeatAndAgeingAct :
    (mainPower tCal = true ∧ level tCal 0 0 = 0 ∧ level tCal 1 2 = 0) ∧
    -- diode 3 of die 0 at 120, 105, 90 and 84 °C
    (shutdownAt 0 ≤ hwTemp (reading tCal 0 3 (16 * 120)) 0 0 ∧
      (hwTemp (reading tCal 0 3 (16 * 105)) 0 0 < shutdownAt 0 ∧ throttleAt tCal 0 ≤ hwTemp (reading tCal 0 3 (16 * 105)) 0 0) ∧
      (hwTemp (reading tCal 0 3 (16 * 95)) 0 0 < throttleAt tCal 0 ∧ warnAt tCal 0 ≤ fwTemp (reading tCal 0 3 (16 * 95)) 0 0) ∧
      fwTemp (reading tCal 0 3 (16 * 74)) 0 0 ≤ warnAt tCal 0 - 80 ∧ warnAt tCal 0 - 80 < fwTemp (reading tCal 0 3 (16 * 91)) 0 0) ∧
    (level (tSet tUp [(thmStatusDieLvl, 0, 2)]) 0 0 = 2 ∧ level (tSet tUp [(thmStatusDieLvl, 0, 3)]) 0 0 = 3 ∧
      level (tSet tUp [(thmStatusDieLvl, 0, 1)]) 0 0 = 1 ∧ warned (tSet tUp [(thmStatusDieLvl, 0, 1)]) 0 = true) ∧
    (inReset tCal 3 7 = false ∧ inReset { tCal with resets := [⟨3, 7, 0, [], []⟩] } 3 7 = true) ∧
    (fget tUp lyrThmCanaryFault 143 = 0 ∧ fget (tSet tUp [(lyrThmCanaryFault, 143, 1)]) lyrThmCanaryFault 143 = 1 ∧ 143 % 80 < 64 ∧
      tUp.nv.registry.length < 32766 ∧ hwTemp tUp (143 / 80) 1 < shutdownAt 1) ∧
    (fget (tSet tUp [(lyrThmSuspect, 159, 1)]) lyrThmSuspect 159 = 1 ∧ fget tUp lyrThmSuspect 159 = 0 ∧
      2 ≤ ([0, 0].filter (fun t => decide (tUp.time < t + day))).length ∧ (findEpisode tUp 159).isNone = true ∧
      (findEpisode { tUp with pwr := { tUp.pwr with episodes := [⟨159, [0], 0⟩] } } 159).any (fun p => decide (¬ p.lastAt + 10000000000 < tUp.time)) = true) ∧
    (tUp.nv.margins[31]?.isSome = true) := by decide +kernel

theorem witness_BackgroundWorkRuns :
    (tUp.pwr.state = .running ∧ compServes tUp 4 = true ∧ compServes (tSet tUp [(mbxCompStatusState, 4, 2)]) 4 = false ∧
      tUp.resets.any (fun r => r.kind == 3) = false) ∧
    (bit (fget (tSet tUp [(blLinkStatusLanes, 35, 15)]) blLinkStatusLanes 35) 3 = true ∧
      linkUsable (tSet tUp [(blLinkStatusLanes, 35, 15), (blLinkStatusState, 35, 2)]) 35 = true) ∧
    (inReset tUp 3 (527 / 66) = false ∧ level tUp 1 2 = 0 ∧ fget tUp cfgBgStatusInSlice 8 = 0 ∧
      fget (tSet tUp [(cfgBgStatusInSlice, 8, 1)]) cfgBgStatusInSlice 8 = 1) ∧
    -- a block of DRAM with one wrong symbol can be corrected, one with more cannot
    (correctableAt { tUp with marks := [(0x100000, 1)] } 0x100000 = true ∧ uncorrectableAt { tUp with marks := [(0x100000, 0x01010101)] } 0x100000 = true ∧
      logFree tUp 0x100000000 = true ∧ uncorrectableAt { tUp with marks := [(0x100000000, 0x01010101)] } 0x100000000 = true ∧
      backed tUp 0x100000 = true) ∧
    (tUp.nv.registry.length < 28672 ∧
      28672 ≤ ({ tUp with nv := { tUp.nv with registry := List.replicate 28672 ⟨2, 1, 3, 0, 0, 0, false⟩ } } : Dev).nv.registry.length) := by
  decide +kernel

theorem witness_RepairsAndRetirementsTakeEffect :
    mainPower tUp = true ∧
    (let d := { tUp with recs := { tUp.recs with errs := List.replicate 16 (errKey 9 (laneId 383 7 71), 0) } }
     thresholdMet d (errKey 9 (laneId 383 7 71)) (fget d lyrLaneCfgLaneThr 0) (fget d lyrLaneCfgLaneWin 0 * 100000000) = true) ∧
    (fget tUp lyrPortStatusState 383 ≠ 3 ∧ bits (fget tUp lyrPortRepairMap 383) (8 * 7 + 7) (8 * 7) = 0 ∧
      bit (fget (tSet tUp [(lyrPortRepairMap, 383, 0x80)]) lyrPortRepairMap 383) (8 * 0 + 7) = true) ∧
    (let d := { tUp with recs := { tUp.recs with errs := List.replicate 64 (errKey 6 (layerRow 1 4 (7 * 512)), 0) } }
     backed d (layerBase 1 4 + 7 * 512) = true ∧ thresholdMet d (errKey 6 (layerRow 1 4 (7 * 512))) (fget d lyrRowCfgRowThr 0) day = true ∧
      fget d (segField 4 (7 * 512)) (layerCore 1 4 (7 * 512)) < 64) ∧
    (let d := { tUp with recs := { tUp.recs with errs := List.replicate 64 (errKey 1 5, 0) } }
     pcLive d 5 = true ∧ backedPc d 5 = 5 ∧ thresholdMet d (errKey 1 5) (fget d memPcCfgUncThr 0) day = true ∧ sparedAt d 5 = none ∧
      pcLive d 6 = true ∧ thresholdMet d (errKey 1 6) (fget d memPcCfgUncThr 0) day = false ∧ freeSpare d 0 = some 64 ∧
      freeSpare (tSet d [(memPcEccState, 64, 0), (memPcEccState, 65, 0)]) 0 = none) ∧
    (let d := { tUp with moves := [⟨5, some 64, 0, 1, 0⟩, ⟨6, none, 1, 1, 0⟩] }
     moveOf d 5 true = some ⟨5, some 64, 0, 1, 0⟩ ∧ moveOf d 6 false = some ⟨6, none, 1, 1, 0⟩ ∧
      [0, 1, 2, 3, 4, 5, 6, 7].all (fun u => !inReset d 3 u) = true ∧ d.moves.any (fun x => x.spare.isNone && decide (x.k < 1)) = false ∧
      granuleOf d (physPc d 0x100000000) (0x100000FC0, 64) = true ∧
      moveOf d 5 false = none) ∧
    (coreRetired tUp 63 = false ∧ arrayRetired tUp 255 = false ∧ 7 ∉ tUp.retired.stackSet ∧ 35 ∉ tUp.retired.links ∧
      143 ∉ tUp.retired.lanes ∧ coreRetired { tUp with retired := ⟨[63], [255], [], [], [], [], []⟩ } 63 = true ∧
      coreOver { tUp with recs := { tUp.recs with errs := List.replicate 64 (errKey 3 63, 0) } } 63 = true ∧ coreOver tUp 63 = false ∧
      arrayOver { tUp with recs := { tUp.recs with errs := List.replicate 64 (errKey 8 255, 0) } } 255 = true ∧ arrayOver tUp 255 = false) := by
  decide +kernel

theorem witness_BoardManagementReadsAndWrites :
    (tUp.pwr.state = .running ∧ tUp.side.address = none ∧ ({ tUp with side := ⟨some 8, true, 1, 0, false⟩ } : Dev).side.address.isSome = true) ∧
    (List.range 32).any (fun ch => mbxBound tUp 6 ch && fget tUp mbxChStatusAwake ch == 1) = true ∧ mbxBound tUp 6 31 = false ∧
    (let d := tSet (tRails .standby 3) [(thmShutdownHold, 0, 1)]
     d.pwr.state ≠ .running ∧ fget d thmShutdownCause 0 = 3 ∧ fget d thmShutdownHold 0 = 1 ∧ coolEnough d = true ∧ d.env.defects = []) := by decide +kernel

theorem witness_BoundaryScanActsAtItsLevel :
    tUp.pwr.state ≠ .unpowered ∧ fget tUp cfgDebugLevel 0 < 1 ∧ fget (tSet tUp [(cfgDebugLevel, 0, 1)]) cfgDebugLevel 0 = 1 ∧
    fget (tSet tUp [(cfgDebugLevel, 0, 2)]) cfgDebugLevel 0 = 2 ∧ mainPower tUp = true := by decide +kernel

/-! ### Well-formedness: one term for each check, which the check refuses -/

def tFlit : Flit := ⟨0, 0, 0, 0, 0, 0⟩

theorem test_ill_formed_flit : [{ tFlit with seq := 2 ^ 16 }, { tFlit with ack := 2 ^ 16 }, { tFlit with credVc := 4 },
    { tFlit with cred := 256 }, { tFlit with dst := 16384 }, { tFlit with src := 16384 }].any Flit.wf = false := by decide +kernel

def tChunk : CollChunk := ⟨0, 0, 0, 0, true, 0, 0, 0, 1, 0, false, 0, 0, [0], [0], []⟩

theorem test_ill_formed_first : ([
    .mm 16384, .conv 16384, .sliceMm 16384, .row 16384, .vec 16384, .copy 16384, .mcast 16384, .fennelPut 16384,
     .semWait 16384, .semSignal 16384, .allreduce 16384, .reduce 16384, .broadcast 16384, .allgather 16384, .treeLoad 16384,
     .routeLoad 16384, .updBind 16384, .updUnbind 16384, .stepOpen 16384, .stepOpenHeldStart 16, .stepClose 16384,
     .stepCloseReduce 16, .scaleSet 16384, .censusRead 16384, .digest 16384, .fence 16384, .timestamp 16384, .nop 16384,
     .badOpcode 16384, .waitResume 16384 0, .waitResume 0 (2 ^ 32), .commandComplete 16384 0, .commandComplete 0 (2 ^ 32),
     .irqCoalesceTimeout 16384, .stepMsg 36 tFlit (.up 0 0 0 0 0 tPart),
     .stepMsg 0 { tFlit with dst := 16384 } (.up 0 0 0 0 0 tPart), .stepMsg 0 tFlit (.up 1024 0 0 0 0 tPart),
     .stepMsg 0 tFlit (.down 0 16 0 0 tPart), .stepCloseTimeout 16, .updPhaseDone (2 ^ 32), .fingerprintCompare (2 ^ 32),
     .fingerprintResult (2 ^ 32) true [], .copyScrub (2 ^ 32), .collData 36 tFlit tChunk,
     .collData 0 { tFlit with dst := 16384 } tChunk, .collData 0 tFlit { tChunk with comm := 1024 },
     .collData 0 tFlit { tChunk with pos := [] }, .collData 0 tFlit { tChunk with mode := 5 },
     .collData 0 tFlit { tChunk with op := 4 },
     .collData 0 tFlit { tChunk with op := 16 }, .collSpill 36 tFlit ⟨0, 0, 0, 0, 0, 0, 0⟩,
     .collSpill 0 { tFlit with dst := 16384 } ⟨0, 0, 0, 0, 0, 0, 0⟩, .collSpill 0 tFlit ⟨1024, 0, 0, 0, 0, 0, 0⟩,
     .wr 36 tFlit 0 0 [0], .wr 0 tFlit (2 ^ 40) 0 [0], .wr 0 tFlit 0 (2 ^ 16) [0], .wr 0 { tFlit with dst := 16384 } 0 0 [0],
     .wr 0 tFlit 0 0 [], .wr 0 tFlit 0 0 (List.replicate 4097 0), .rdReq 36 tFlit 0 0 1, .rdReq 0 tFlit (2 ^ 40) 0 1] : List Instr).any wellFormed = false := by decide +kernel

theorem test_ill_formed_second : ([
    .rdReq 0 tFlit 0 (2 ^ 16) 1, .rdReq 0 tFlit 0 0 4097, .rdReq 0 tFlit 0 0 0, .rdReq 0 { tFlit with dst := 16384 } 0 0 1,
     .semOp 36 tFlit 0 0 0 0, .semOp 0 tFlit (2 ^ 16) 0 0 0, .semOp 0 tFlit 0 4 0 0, .semOp 0 tFlit 0 0 262144 0,
     .semOp 0 tFlit 0 0 0 (2 ^ 32), .semOp 0 { tFlit with dst := 16384 } 0 0 0 0, .probe 36 tFlit 0, .probe 0 tFlit (2 ^ 16),
     .probe 0 { tFlit with dst := 16384 } 0, .rdResp 36 tFlit 0 [0], .rdResp 0 tFlit (2 ^ 16) [0],
     .rdResp 0 { tFlit with dst := 16384 } 0 [0], .rdResp 0 tFlit 0 [], .rdResp 0 tFlit 0 (List.replicate 4097 0),
     .wrAck 36 tFlit 0, .wrAck 0 tFlit (2 ^ 16), .wrAck 0 { tFlit with dst := 16384 } 0, .semAck 36 tFlit 0,
     .semAck 0 tFlit (2 ^ 16), .semAck 0 { tFlit with dst := 16384 } 0, .probeResp 36 tFlit 0, .probeResp 0 tFlit (2 ^ 16),
     .probeResp 0 { tFlit with dst := 16384 } 0, .errResp 36 tFlit 0 0, .errResp 0 tFlit (2 ^ 16) 0,
     .errResp 0 tFlit 0 (2 ^ 32), .errResp 0 { tFlit with dst := 16384 } 0 0, .linkMgmt 36 0 0 0, .linkMgmt 0 16384 0 0,
     .linkMgmt 0 0 36 0, .linkMgmt 0 0 0 16, .nack 36 0 0 0 0, .nack 0 (2 ^ 16) 0 0 0, .nack 0 0 4 0 0, .nack 0 0 0 256 0,
     .nack 0 0 0 0 (2 ^ 16), .idle 36 0 0 0, .idle 0 (2 ^ 16) 0 0, .idle 0 0 4 0, .idle 0 0 0 256, .corruptFlit 36 .crc,
     .ackStallReplay 36, .ackStallRetrain 36, .linkTrainDone 36 false 0, .linkTrainDone 0 false 16, .linkRetryTimer 36,
     .laneWindowEnd 36 0 0 0 0, .respTimeout (2 ^ 16), .peerUnreachable 16384, .kringDbSq 2 0 0, .kringDbSq 0 16384 0,
     .kringDbCq 2 0 0, .kringDbCq 0 16384 0, .ringEnable 2 0, .ringEnable 0 16384, .ringDisable 2 0] : List Instr).any wellFormed = false := by decide +kernel

theorem test_ill_formed_third : ([
    .ringDisable 0 16384, .ringAbort 2 0, .ringAbort 0 16384, .ringClearErr 2 0, .ringClearErr 0 16384,
     .ringFetchError 16384, .msixUnmask 2 0, .msixUnmask 0 2048, .heartbeatWrite 2 0, .heartbeatTimeout 2,
     .orphanReadAbandon 2, .orphanCloseTimeout 2, .attach 2, .resume 2, .resetRings 2, .detach 2, .adopt 2,
     .portLevelReset 2 .flr, .perstRelease 2, .d3hotEntry 2, .d0Return 2, .atsInvalidation 2 0, .atsInvalidation 0 32,
     .evtStatusClear 2 0 0, .evtStatusClear 0 2 0, .evtEnWrite 2 0 0, .evtEnWrite 0 2 0, .semValueWrite 2 0 0 0,
     .semValueWrite 0 262144 0 0, .semValueWrite 0 0 3 0, .sideInval 2 0, .sideInval 0 64, .arrCntClear 2 0,
     .arrCntClear 0 256, .safCntClear 2 0, .safCntClear 0 256, .cardCntClear 2 0, .cardCntClear 0 64, .lockSet 2 0,
     .lockSet 0 19, .spillHwmRead 2 0, .spillHwmRead 0 2, .registerWrite 2 0 0 4 0, .registerWrite 0 6 0 4 0,
     .registerWrite 0 0 (2 ^ 26) 4 0, .registerWrite 0 0 0 3 0, .mbxDoorbell 7 0 0, .mbxDoorbell 0 32 0,
     .mbxDoorbell 0 0 (2 ^ 14), .mbxDoneClear 7 0, .mbxDoneClear 0 32, .mbxChWake 7 0, .mbxChWake 0 32, .hello 32 0 0,
     .load 32 0 0, .load 0 (2 ^ 64) 0, .load 0 0 (2 ^ 32), .stage 32 0 0, .stage 0 (2 ^ 64) 0, .stage 0 0 (2 ^ 32)] : List Instr).any wellFormed = false := by decide +kernel

theorem test_ill_formed_fourth : ([
    .activate 32, .cancel 32, .status 32, .compartmentFault 6 0, .compartmentFault 0 6, .compartmentWatchdogExpiry 6,
     .compartmentRestarted 6, .setCap 32 0, .setProfile 32 0, .setPriority 32 0, .setClassWeights 32 0 0 0 0,
     .setDepthRange 32 0 0, .getPolicy 32, .quote 32, .getCert 32, .sign 32, .configStage 32 0 0, .configStage 0 (2 ^ 64) 0,
     .configStage 0 0 (2 ^ 32), .floorRaise 32, .getChallenge 32, .unlock 32, .resetPackage 32, .resetDie 32 0,
     .resetDie 0 2, .resetCore 32 0, .resetCore 0 64, .resetStack 32 0, .resetStack 0 8, .resetLink 32 0, .resetLink 0 36,
     .clearPinned 32 0, .clearPinned 0 (2 ^ 64), .quiesceForcedIdle 3 0 0 [], .quiesceForcedIdle 0 64 0 [],
     .dieResetRelease 2, .coreResetRelease 64, .stackBaseResetDone 8, .hwCapLoop 2 0 0, .fwCapLoop 0 0 0 0 0 0 19 0,
     .fwCapLoop 0 0 0 0 0 0 0 19, .stepChangeDone 2, .stackPowerWindow 8 0 0 0 0, .droopDetect 64, .droopStormEnd 2,
     .thermalSample 3 0 0, .thermalSample 0 160 0, .warningStepDown 2, .throttleEscalate 2 0, .throttleEscalate 0 3,
     .throttleRelease 2 0, .throttleRelease 0 3, .canaryUpdate 160 0 false, .canaryUpdate 0 1025 false,
     .layerModelUpdate 160 0, .layerGovernUpdate 160, .suspectFlagTick 160, .suspectEpisodeClose 160,
     .bondLaneRepair 384 0 0, .bondLaneRepair 0 64 0] : List Instr).any wellFormed = false := by decide +kernel

theorem test_ill_formed_fifth : ([
    .bondLaneRepair 0 0 72, .bondRowReplace 2 0 0, .bondRowReplace 0 5 0, .bondRowReplace 0 0 (2 ^ 22), .pcRetire 528,
     .spareCopyDone 528, .capacityMoveDone 528 [], .resourceRetire 16 0 0, .resourceRetire 0 (2 ^ 24) 0,
     .resourceRetire 0 0 6, .linkPhyRecal 36 0, .linkPhyRecal 0 4, .memIfCal 528, .sensorCal 2 0, .sensorCal 0 3,
     .ageingProbe 32 0 0, .ageingProbe 0 (2 ^ 32) 0, .ageingProbe 0 0 (2 ^ 16), .bgDeferralReached 9, .marginReplan 32 0,
     .marginReplan 0 64, .fennelLand 16384, .offloadCopyOut 16384, .restoreStart 16384, .recompute 16384,
     .stageCreditReturn 4096, .stageStallRecord 4096, .linkActivityWake 2, .bmRegisterRead (2 ^ 32) 0,
     .bmRegisterRead 0 (2 ^ 32), .bmRegisterWrite (2 ^ 32) [0], .bmRegisterWrite 0 (List.replicate 12289 0), .entDaa 128,
     .restoreComplete 16384, .offloadCopyDone 16384, .updateUnitFault 8, .stackBaseFault 8, .hostLinkTrained 2] : List Instr).any wellFormed = false := by decide +kernel


/-! ### Small tests, with the values the manual gives -/

/-- The device after a command. -/
def tDo (i : Instr) (d : Dev) : Dev := match exec i ⟨d, []⟩ with | .next t => t.dev | _ => d

/-- The record in slot 0 of ring 0 of `tRing` (Table 11.5): number, dword at 0x04, tag. -/
def tRecord (d : Dev) : Nat × Nat × Nat :=
  let a := 0x0002000000001000
  (memReadNat d a 4, memReadNat d (a + 4) 4, memReadNat d (a + 8) 4)

/-- R70, Table 3.2: the largest value of FP8_E4M3 is 448, that of FP8_E5M2 57,344, and the least of FP16 2^-24. -/
theorem test_formats_decode :
    encode32 (Fmt.fp8E4M3.decode 0x7E) = 0x43E00000 ∧ encode32 (Fmt.fp8E5M2.decode 0x7B) = 0x47600000 ∧
    encode32 (Fmt.fp16.decode 0x0001) = 0x33800000 ∧ Fmt.fp8E4M3.decode 0x7F = .nan := by decide +kernel

/-- R74: the canonical NaN. -/
theorem test_canonical_nan :
    Fmt.fp8E4M3.nanCode = 0x7F ∧ Fmt.fp8E5M2.nanCode = 0x7F ∧ Fmt.bf16.nanCode = 0x7FC0 ∧ Fmt.fp16.nanCode = 0x7E00 ∧
    Fmt.fp32.nanCode = 0x7FC00000 := by decide +kernel

/-- FIPS 202: SHAKE256 of the empty message begins with 46 B9 DD 2B. -/
theorem test_shake256_empty : shake256 [] 4 = [0x46, 0xB9, 0xDD, 0x2B] := by decide +kernel

/-- The lowest byte of a number lies at the lowest address. -/
theorem test_memory_byte_order : memRead (memWriteNat tUp 0x1000 4 0x11223344) 0x1000 4 = [0x44, 0x33, 0x22, 0x11] := by decide +kernel

/-- NOP: record 0 with phase 1, opcode 0x7F and status 0. -/
theorem test_nop_record : tRecord (tDo (.commandComplete 0 0) (tDo (.nop 0) (tEntry 0x7F 0))) = (0, 0x807F0000, 0) := by decide +kernel

/-- An opcode outside Table 12.2 completes with BAD_OPCODE, 0x1002. -/
theorem test_bad_opcode_record : tRecord (tDo (.commandComplete 0 0) (tDo (.badOpcode 0) (tEntry 0x7E 0))) = (0, 0x807E1002, 0) := by decide +kernel

/-- TIMESTAMP writes the timebase. -/
theorem test_timestamp : memReadNat (tDo (.timestamp 0) { tEntry 0x41 0x200000 with time := 77 }) 0x200000 8 = 77 := by decide +kernel

theorem test_doorbell_moves_tail : fget (tDo (.kringDbSq 0 0 1) tRing) kringCountsSqTail 0 = 1 := by decide +kernel

/-- A doorbell 65 ahead of the head of a ring of depth 64 puts the ring in error. -/
theorem test_doorbell_overrun : ringState (tDo (.kringDbSq 0 0 65) tRing) 0 = 3 := by decide +kernel

/-- R471: the identification code. -/
theorem test_idcode : (tDo .tapIdcode State.reset.dev).out = [.answer 4 0x12A72AC7] := by decide +kernel

theorem test_droop_counts : fget (tDo (.droopDetect 33) tUp) pwrDieDroops 1 = 1 ∧ fget (tDo (.droopDetect 33) tUp) pwrDieDroops 0 = 0 := by
  decide +kernel

/-- R393: above the cap, one more cycle in 16 is skipped. -/
theorem test_cap_loop : fget (tDo (.hwCapLoop 0 5000 5000) tUp) pwrDieSkip 0 = 1 := by decide +kernel

/-- A logic-die diode at 120 °C removes power (Table 14.3). -/
theorem test_shutdown : (tDo (.thermalSample 0 3 (16 * 120)) tUp).pwr.state = .standby ∧
    fget (tDo (.thermalSample 0 3 (16 * 120)) tUp) thmShutdownCause 0 = 1 := by decide +kernel

/-- A PROBE of a peer that the routing table reaches over link 3 is answered there. -/
theorem test_probe_answered :
    (tDo (.probe 3 ⟨0, 0, 0, 0, 5, 7⟩ 9) (tSet tLink [(blRouteValid, 7, 1), (blRoutePort, 7, 3)])).out.any
      (fun o => match o with | .link 3 _ _ m => m.payload == .probeResp 9 && m.dst == 7 | _ => false) = true := by decide +kernel

/-- Software writes the count of a semaphore. -/
theorem test_semaphore_write : semCount (tDo (.semValueWrite 0 5 0 9) tUp) 5 = 9 := by decide +kernel

theorem test_core_retired : arrayRetired (tDo (.resourceRetire 2 5 2) tUp) 23 = true ∧ arrayRetired (tDo (.resourceRetire 2 5 2) tUp) 24 = false := by
  decide +kernel

theorem test_reset_queue : State.reset.pending = [] := rfl

end Sys2Proof.Machine
end

