-- ==== Sys2Proof/Proofs/Scope.lean ====
section
/-! PROOF. The scope statements: the state of reset, and what a write does to a field by its access type (R8, R10). -/
namespace Sys2Proof.Machine

/-! ### The state of reset -/

theorem regGet_of_regs_nil {d : Dev} (h : d.regs = []) (r : Reg) (i : Nat) : regGet d r i = regReset r i := by
  rw [regGet, h, smapGet]

/-- Groups 0 to 15 are blank, and a number above reads as idle. -/
theorem groupPhase_devBlank (g : Nat) : groupPhase devBlank g = .idle := by
  have h : groupAt devBlank g = if g < 16 then some groupBlank else none := List.getElem?_replicate
  rw [groupPhase, h]
  split <;> rfl

theorem portRun_devBlank {p : Nat} (h : p < 2) : portRun devBlank p = ⟨false, false, true, true⟩ := by
  have hp : devBlank.ports[p]? = some ⟨false, false, true, true⟩ := by
    rw [devBlank, List.getElem?_replicate, if_pos h]
  rw [portRun, hp, Option.getD_some]

/-- Settles O5: the blank device lists no register and no byte, and its 16 groups and two ports are blank. -/
theorem resetMemoryIsCanonical : Obligations.ResetMemoryIsCanonical :=
  ⟨rfl, reset_memOk, rfl, regGet_of_regs_nil rfl, rfl, groupPhase_devBlank, rfl, rfl, rfl,
    fun _ hp => congrArg PortRun.perst (portRun_devBlank hp)⟩

/-! ### Bits -/

/-- A field replaced whole is what was written to it. -/
theorem setBits_whole {x hi v : Nat} (hx : x < 2 ^ (hi + 1)) (hv : v < 2 ^ (hi + 1)) : setBits x hi 0 v = v := by
  have hall : bits x hi 0 = x := by
    rw [bits, Nat.pow_zero, Nat.div_one, Nat.sub_zero, Nat.mod_eq_of_lt hx]
  rw [setBits, hall, Nat.sub_zero, Nat.mod_eq_of_lt hv]
  omega

/-- Taking the common bits of `a` and `b` away from `a` borrows nothing: it clears those bits. -/
theorem testBit_sub_and (a b k : Nat) : (a - (a &&& b)).testBit k = (a.testBit k && !b.testBit k) := by
  induction k generalizing a b with
  | zero =>
    have hle : a &&& b ≤ a := Nat.and_le_left
    have hand : (a &&& b).testBit 0 = (a.testBit 0 && b.testBit 0) := Nat.testBit_and a b 0
    rw [Bool.eq_iff_iff] at hand ⊢
    simp only [Nat.testBit_zero, Bool.and_eq_true, Bool.not_eq_true', decide_eq_true_eq,
      decide_eq_false_iff_not] at hand ⊢
    omega
  | succ k ih =>
    have hdiv : (a &&& b) / 2 = a / 2 &&& b / 2 := Nat.and_div_two
    have hmod : (a &&& b) % 2 ≤ a % 2 := by
      rw [← Nat.pow_one 2, Nat.and_mod_two_pow]
      exact Nat.and_le_left
    have hle : a &&& b ≤ a := Nat.and_le_left
    have hhalf : (a - (a &&& b)) / 2 = a / 2 - (a / 2 &&& b / 2) := by omega
    rw [Nat.testBit_succ, hhalf, ih, ← Nat.testBit_succ, ← Nat.testBit_succ]

/-! ### Writes of whole registers -/

section
variable {d : Dev} {f : Field} {i v : Nat}

/-- A write of the whole register brings a field its own bits of the value. -/
theorem fieldPart_whole (hlo : f.lo ≤ f.hi) (hhi : f.hi < 64) : fieldPart d f i 0 64 v = bits v f.hi f.lo := by
  have hw : f.hi - f.lo + 1 = f.hi + 1 - f.lo := by omega
  have hpart : fieldPart d f i 0 64 v = setBits (fget d f i) (f.hi - f.lo) 0 (bits v f.hi f.lo) := by
    have ha : max f.lo 0 = f.lo := Nat.max_zero f.lo
    have hb : min (f.hi + 1) (0 + 64) = f.hi + 1 := by omega
    simp only [fieldPart, ha, hb, Nat.sub_self, Nat.sub_zero, Nat.add_sub_cancel]
  rw [hpart, setBits_whole] <;> rw [hw]
  · exact fget_lt d f i
  · exact bits_lt v f.hi f.lo

theorem writeField_rw (ha : f.acc = .rw) (hlo : f.lo ≤ f.hi) (hhi : f.hi < 64) : writeField d f i 0 64 v =
    if f.min ≤ bits v f.hi f.lo ∧ bits v f.hi f.lo ≤ f.max then fset d f i (bits v f.hi f.lo) else d := by
  simp only [writeField, ha, fieldPart_whole hlo hhi]

theorem writeField_w1c (ha : f.acc = .w1c) (hlo : f.lo ≤ f.hi) (hhi : f.hi < 64) : writeField d f i 0 64 v =
    fset d f i (fget d f i - (fget d f i &&& bits v f.hi f.lo)) := by
  simp only [writeField, ha, fieldPart_whole hlo hhi]

theorem writeField_w1s (ha : f.acc = .w1s) (hlo : f.lo ≤ f.hi) (hhi : f.hi < 64) : writeField d f i 0 64 v =
    fset d f i (fget d f i ||| bits v f.hi f.lo) := by
  simp only [writeField, ha, fieldPart_whole hlo hhi]

/-- Fields that are not RW, W1C or W1S are not software's to write (R10, R444). -/
theorem writeField_other {lo n : Nat} (hrw : f.acc ≠ .rw) (hc : f.acc ≠ .w1c) (hs : f.acc ≠ .w1s) :
    writeField d f i lo n v = d := by
  unfold writeField
  split
  · exact absurd ‹_› hrw
  · exact absurd ‹_› hc
  · exact absurd ‹_› hs
  · rfl

/-- Whatever the access type, a write to a field leaves the device or sets that field. -/
theorem writeField_cases (d : Dev) (f : Field) (i lo n v : Nat) :
    writeField d f i lo n v = d ∨ ∃ x, writeField d f i lo n v = fset d f i x := by
  unfold writeField
  split
  · dsimp only
    split
    · exact .inr ⟨_, rfl⟩
    · exact .inl rfl
  · exact .inr ⟨_, rfl⟩
  · exact .inr ⟨_, rfl⟩
  · exact .inl rfl

theorem onlyRegs_writeField (d : Dev) (f : Field) {i : Nat} (lo n v : Nat) (hi : i < 2 ^ 20) :
    OnlyRegs d (writeField d f i lo n v) [(f.reg, i)] := by
  obtain h | ⟨x, h⟩ := writeField_cases d f i lo n v <;> rw [h]
  · exact onlyRegs_refl d _
  · exact onlyRegs_fset (onlyRegs_refl d _) hi (List.mem_singleton_self _)

/-- A value that fits the field reads back as written. -/
theorem fget_fset_of_lt {x : Nat} (hx : x < 2 ^ (f.hi + 1 - f.lo)) : fget (fset d f i x) f i = x := by
  rw [fget_fset_self, Nat.mod_eq_of_lt hx]

theorem fget_writeField_rw (ha : f.acc = .rw) (hlo : f.lo ≤ f.hi) (hhi : f.hi < 64) :
    fget (writeField d f i 0 64 v) f i =
      if f.min ≤ bits v f.hi f.lo ∧ bits v f.hi f.lo ≤ f.max then bits v f.hi f.lo else fget d f i := by
  rw [writeField_rw ha hlo hhi, apply_ite (fget · f i), fget_fset_of_lt (bits_lt v f.hi f.lo)]

theorem testBit_writeField_w1c (ha : f.acc = .w1c) (hlo : f.lo ≤ f.hi) (hhi : f.hi < 64) (k : Nat) :
    (fget (writeField d f i 0 64 v) f i).testBit k = ((fget d f i).testBit k && !(bits v f.hi f.lo).testBit k) := by
  rw [writeField_w1c ha hlo hhi, fget_fset_of_lt (Nat.lt_of_le_of_lt (Nat.sub_le _ _) (fget_lt d f i)), testBit_sub_and]

theorem testBit_writeField_w1s (ha : f.acc = .w1s) (hlo : f.lo ≤ f.hi) (hhi : f.hi < 64) (k : Nat) :
    (fget (writeField d f i 0 64 v) f i).testBit k = ((fget d f i).testBit k || (bits v f.hi f.lo).testBit k) := by
  rw [writeField_w1s ha hlo hhi, fget_fset_of_lt (Nat.or_lt_two_pow (fget_lt d f i) (bits_lt v f.hi f.lo)), Nat.testBit_or]

end

/-- Settles O22, one access type after the other. That an RW field keeps its value when the written one is out of its
range is the model's reading of R8 (DEDUCED 25). -/
theorem fieldsObeyTheirAccessType : Obligations.FieldsObeyTheirAccessType := by
  intro d f i v hi hlo hhi x e
  refine ⟨onlyRegs_writeField d f 0 64 v hi, fun ha => ?_, fun ha => ?_, fun ha => ?_, fun hrw hc hs => ?_⟩
  · exact fget_writeField_rw ha hlo hhi
  · exact testBit_writeField_w1c ha hlo hhi
  · exact testBit_writeField_w1s ha hlo hhi
  · exact writeField_other hrw hc hs

end Sys2Proof.Machine
end

