-- ==== Sys2Proof/Proofs/Accumulation.lean ====
section
/-! PROOF. Contributions to fixed-mode lane entries: exact addition in any order, overflow and special states (R103 to
R106). -/
namespace Sys2Proof.Machine

/-! ### One contribution -/

section
variable {s : SafEntry} {i e : Int}

theorem safAddFixed_of_special (h : s.special ≠ .finite) : safAddFixed s i e = (s, safCountZero) := by
  rw [safAddFixed, if_pos h]

theorem safAddFixed_of_fits (hs : s.special = .finite) (hlo : -(2 ^ 767) ≤ s.v + (shiftFloor i (e + 400)).1)
    (hhi : s.v + (shiftFloor i (e + 400)).1 < 2 ^ 767) : safAddFixed s i e =
      ({ s with v := s.v + (shiftFloor i (e + 400)).1, floor := s.floor || (shiftFloor i (e + 400)).2 },
        ⟨0, if (shiftFloor i (e + 400)).2 then 1 else 0, 0, 0⟩) := by
  rw [safAddFixed, if_neg (Decidable.not_not.mpr hs)]
  dsimp only
  rw [if_neg (Int.not_le.mpr hhi), if_neg (Int.not_lt.mpr hlo)]

/-- R104: a sum at or above the top of the register leaves +Inf, with ovf set and one overflow counted. -/
theorem safAddFixed_overflow_pos (hs : s.special = .finite) (h : 2 ^ 767 ≤ s.v + (shiftFloor i (e + 400)).1) :
    safAddFixed s i e =
      ({ s with special := .pinf, ovf := true, floor := s.floor || (shiftFloor i (e + 400)).2, v := 0 },
        ⟨0, if (shiftFloor i (e + 400)).2 then 1 else 0, 1, 0⟩) := by
  rw [safAddFixed, if_neg (Decidable.not_not.mpr hs)]
  dsimp only
  rw [if_pos h]

/-- R104: a sum below the bottom of the register leaves -Inf, with ovf set and one overflow counted. -/
theorem safAddFixed_overflow_neg (hs : s.special = .finite) (h : s.v + (shiftFloor i (e + 400)).1 < -(2 ^ 767)) :
    safAddFixed s i e =
      ({ s with special := .ninf, ovf := true, floor := s.floor || (shiftFloor i (e + 400)).2, v := 0 },
        ⟨0, if (shiftFloor i (e + 400)).2 then 1 else 0, 1, 0⟩) := by
  rw [safAddFixed, if_neg (Decidable.not_not.mpr hs)]
  dsimp only
  rw [if_neg (by omega), if_pos h]

end

/-- Table 4.2, read by rows: NaN prevails, opposite infinities make NaN, a finite state takes the incoming one, and an
infinity stays. -/
theorem specialCombine_eq (a b : Special) : specialCombine a b =
    if a = .nan ∨ b = .nan ∨ (a = .pinf ∧ b = .ninf) ∨ (a = .ninf ∧ b = .pinf) then .nan
    else if a = .finite then b else a := by
  cases a <;> cases b <;> rfl

/-- Settles O26, clause by clause from what one promotion does. -/
theorem overflowAndSpecialsOfAnEntry : Obligations.OverflowAndSpecialsOfAnEntry := by
  intro s i e _ sum
  refine ⟨fun hs h => ?_, fun hs h => ?_, safAddFixed_of_special, fun x => specialCombine_eq s.special x, fun _ => rfl⟩
  · rw [safAddFixed_overflow_pos hs h]
    exact ⟨rfl, rfl, rfl⟩
  · rw [safAddFixed_overflow_neg hs h]
    exact ⟨rfl, rfl, rfl⟩

/-! ### Many contributions -/

/-- The entry after all contributions, when none overflows. -/
def sumEntry (s : SafEntry) (cs : List (Int × Int)) : SafEntry :=
  { s with
    v := s.v + (cs.map (fun c => (shiftFloor c.1 (c.2 + 400)).1)).sum,
    floor := s.floor || cs.any (fun c => (shiftFloor c.1 (c.2 + 400)).2) }

/-- One count of SAF_FLOOR_CNT for each contribution that loses bits (R104). -/
def sumCount (cs : List (Int × Int)) : SafCount := ⟨0, cs.countP (fun c => (shiftFloor c.1 (c.2 + 400)).2), 0, 0⟩

theorem sumCount_cons (c : Int × Int) (cs : List (Int × Int)) :
    sumCount (c :: cs) = (⟨0, if (shiftFloor c.1 (c.2 + 400)).2 then 1 else 0, 0, 0⟩ : SafCount).add (sumCount cs) := by
  simp only [sumCount, SafCount.add, List.countP_cons, Nat.add_comm]

theorem sumEntry_cons (s : SafEntry) (c : Int × Int) (cs : List (Int × Int)) : sumEntry s (c :: cs) =
    sumEntry { s with
      v := s.v + (shiftFloor c.1 (c.2 + 400)).1,
      floor := s.floor || (shiftFloor c.1 (c.2 + 400)).2 } cs := by
  simp only [sumEntry, List.map_cons, List.sum_cons, List.any_cons, Int.add_assoc, Bool.or_assoc]

theorem SafCount.add_assoc (a b c : SafCount) : (a.add b).add c = a.add (b.add c) := by
  simp only [SafCount.add, Nat.add_assoc]

theorem addBound_cons (c : Int × Int) (cs : List (Int × Int)) :
    addBound (c :: cs) = (shiftFloor c.1 (c.2 + 400)).1.natAbs + addBound cs := by
  simp only [addBound, List.map_cons, List.sum_cons]

/-- The bound on the magnitudes keeps every partial sum inside the register, so no promotion overflows. `k` is what has
been counted before. -/
theorem foldl_safAddFixed (cs : List (Int × Int)) : ∀ (s : SafEntry) (k : SafCount), s.special = .finite →
    s.v.natAbs + addBound cs < 2 ^ 767 →
    cs.foldl (fun a c => ((safAddFixed a.1 c.1 c.2).1, a.2.add (safAddFixed a.1 c.1 c.2).2)) (s, k) =
      (sumEntry s cs, k.add (sumCount cs)) := by
  induction cs with
  | nil =>
    intro s k _ _
    simp only [List.foldl_nil, sumEntry, sumCount, SafCount.add, List.map_nil, List.sum_nil, List.any_nil,
      List.countP_nil, Int.add_zero, Nat.add_zero, Bool.or_false]
  | cons c cs ih =>
    intro s k hs hb
    rw [addBound_cons] at hb
    have hadd := safAddFixed_of_fits (i := c.1) (e := c.2) hs (by omega) (by omega)
    rw [List.foldl_cons, hadd, sumEntry_cons, sumCount_cons, ← SafCount.add_assoc]
    exact ih _ _ hs (by dsimp only; omega)

theorem addAll_eq {s : SafEntry} {cs : List (Int × Int)} (hs : s.special = .finite)
    (hb : s.v.natAbs + addBound cs < 2 ^ 767) : addAll s cs = (sumEntry s cs, sumCount cs) := by
  rw [addAll, foldl_safAddFixed cs s safCountZero hs hb]
  simp only [safCountZero, sumCount, SafCount.add, Nat.zero_add]

/-- A sum of integers does not depend on the order of its terms. -/
theorem intSum_perm {xs ys : List Int} (h : xs.Perm ys) : xs.sum = ys.sum := by
  induction h with
  | nil => rfl
  | cons x _ ih => rw [List.sum_cons, List.sum_cons, ih]
  | swap x y l =>
    simp only [List.sum_cons]
    omega
  | trans _ _ ih₁ ih₂ => exact ih₁.trans ih₂

section
variable {cs cs' : List (Int × Int)} (h : cs'.Perm cs)
include h

theorem addBound_perm : addBound cs' = addBound cs := (h.map _).sum_nat

theorem sumEntry_perm (s : SafEntry) : sumEntry s cs' = sumEntry s cs := by
  rw [sumEntry, sumEntry, intSum_perm (h.map _), h.any_eq]

theorem sumCount_perm : sumCount cs' = sumCount cs := by
  rw [sumCount, sumCount, h.countP_eq]

end

/-- R103: a contribution that weighs at least 2^-400 enters whole. -/
theorem shiftFloor_of_le {c : Int × Int} (h : -400 ≤ c.2) :
    shiftFloor c.1 (c.2 + 400) = (c.1 * 2 ^ (c.2 + 400).toNat, false) :=
  if_pos (by omega)

theorem sumEntry_of_le {cs : List (Int × Int)} (h : ∀ c ∈ cs, -400 ≤ c.2) (s : SafEntry) :
    sumEntry s cs = { s with v := s.v + (cs.map (fun c => c.1 * 2 ^ (c.2 + 400).toNat)).sum } := by
  have hsum : cs.map (fun c => (shiftFloor c.1 (c.2 + 400)).1) = cs.map (fun c => c.1 * 2 ^ (c.2 + 400).toNat) :=
    List.map_congr_left fun c hc => congrArg Prod.fst (shiftFloor_of_le (h c hc))
  have hfloor : cs.any (fun c => (shiftFloor c.1 (c.2 + 400)).2) = false :=
    List.any_eq_false.mpr fun c hc => by rw [shiftFloor_of_le (h c hc)]; exact Bool.false_ne_true
  rw [sumEntry, hsum, hfloor, Bool.or_false]

/-- Settles O25: sum, flag and count of all contributions do not depend on their order. -/
theorem accumulationIsExactInAnyOrder : Obligations.AccumulationIsExactInAnyOrder := by
  intro s cs hs _ hb
  have hall := addAll_eq hs hb
  refine ⟨congrArg Prod.fst hall, fun cs' hp => ?_, fun hle => ?_⟩
  · rw [hall, addAll_eq hs (by rw [addBound_perm hp]; exact hb), sumEntry_perm hp, sumCount_perm hp]
  · rw [hall, sumEntry_of_le hle]

end Sys2Proof.Machine
end

