-- ==== Sys2Proof/Proofs/PackedEntry.lean ====
section
/-! PROOF. The packed form of a lane entry is canonical and unpacks to the entry (R107, R108, Table 4.3). -/
namespace Sys2Proof.Machine

/-! ### Two's complement codes -/

theorem codeOfInt_lt (w : Nat) (i : Int) : codeOfInt w i < 2 ^ w := by
  have h := Int.emod_lt_of_pos i (Int.natCast_pos.mpr (Nat.two_pow_pos w))
  rw [codeOfInt]
  omega

theorem signedOf_mod (w x : Nat) : signedOf w (x % 2 ^ w) = signedOf w x := by
  rw [signedOf, Nat.mod_mod, signedOf]

/-- An integer that `w + 1` bits can hold reads back from its code. -/
theorem signedOf_codeOfInt {w : Nat} {i : Int} (hlo : -((2 ^ w : Nat) : Int) ≤ i) (hhi : i < ((2 ^ w : Nat) : Int)) :
    signedOf (w + 1) (codeOfInt (w + 1) i) = i := by
  have hp : 2 ^ (w + 1) = 2 * 2 ^ w := Nat.pow_succ'
  rw [signedOf, Nat.mod_eq_of_lt (codeOfInt_lt _ _), codeOfInt, Nat.add_sub_cancel, hp]
  obtain hi | hi := Int.lt_or_le i 0
  · have hm : i % ((2 * 2 ^ w : Nat) : Int) = i + ((2 * 2 ^ w : Nat) : Int) := by
      rw [← Int.add_emod_right, Int.emod_eq_of_lt] <;> omega
    rw [hm, if_pos] <;> omega
  · rw [Int.emod_eq_of_lt hi (by omega), if_neg] <;> omega

theorem specialOfCode_code (x : Special) : specialOfCode x.code = x := by cases x <;> rfl

theorem Special.code_lt (x : Special) : x.code < 4 := by cases x <;> decide

/-! ### The guard bit -/

theorem parityOf_succ (w x : Nat) : parityOf (w + 1) x = (parityOf w x != x.testBit w) := by
  simp only [parityOf, List.range_succ, List.foldl_append, List.foldl_cons, List.foldl_nil]

/-- Adding a clear bit carries nothing. -/
theorem testBit_add_two_pow {x g : Nat} (hx : x.testBit g = false) (j : Nat) :
    (x + 2 ^ g).testBit j = (x.testBit j != decide (g = j)) := by
  rw [Nat.add_comm]
  obtain h | rfl | h := Nat.lt_trichotomy j g
  · rw [Nat.testBit_two_pow_add_gt h, decide_eq_false (by omega), Bool.bne_false]
  · rw [Nat.testBit_two_pow_add_eq, decide_eq_true rfl, Bool.bne_true]
  · obtain ⟨k, rfl⟩ := Nat.exists_eq_add_of_lt h
    have heven : x / 2 ^ g % 2 ≠ 1 := by
      rwa [Nat.testBit_eq_decide_div_mod_eq, decide_eq_false_iff_not] at hx
    have hdiv : (2 ^ g + x) / 2 ^ (g + 1) = x / 2 ^ (g + 1) := by
      rw [Nat.pow_succ, ← Nat.div_div_eq_div_mul, ← Nat.div_div_eq_div_mul, Nat.add_div_left _ (Nat.two_pow_pos g)]
      omega
    have hk : g + k + 1 = k + (g + 1) := by omega
    rw [decide_eq_false (by omega), Bool.bne_false, hk, ← Nat.testBit_div_two_pow, hdiv, Nat.testBit_div_two_pow]

theorem parityOf_add_two_pow {x g : Nat} (hx : x.testBit g = false) (w : Nat) :
    parityOf w (x + 2 ^ g) = (parityOf w x != decide (g < w)) := by
  induction w with
  | zero => rfl
  | succ w ih =>
    have hlt : decide (g < w + 1) = (decide (g < w) != decide (g = w)) := by
      rw [Bool.eq_iff_iff, bne_iff_ne, ne_eq, decide_eq_true_eq, decide_eq_decide]
      omega
    have hcomm : ∀ p a t b : Bool, ((p != a) != (t != b)) = ((p != t) != (a != b)) := by decide
    rw [parityOf_succ, parityOf_succ, ih, testBit_add_two_pow hx, hlt, hcomm]

/-- Table 4.3: with the guard bit in place the parity of the entry is even. -/
theorem parityOf_withGuard {x : Nat} (hx : x.testBit 112 = false) : parityOf 128 (withGuard x) = false := by
  rw [withGuard]
  split
  · rw [parityOf_add_two_pow hx, ‹parityOf 128 x = true›]; rfl
  · exact Bool.eq_false_iff.mpr ‹_›

/-! ### The fields of a packed entry -/

/-- The anchor field of Table 4.3, zero in fixed mode. -/
def anchorField (s : SafEntry) : Nat := if s.anchored then codeOfInt 8 s.anchorOut else 0

theorem anchorField_lt (s : SafEntry) : anchorField s < 256 := by
  rw [anchorField]
  split
  · exact codeOfInt_lt 8 s.anchorOut
  · decide

theorem ite_eq_toNat_mul (b : Bool) (n : Nat) : (if b then n else 0) = b.toNat * n := by
  cases b
  · exact (Nat.zero_mul n).symm
  · exact (Nat.one_mul n).symm

theorem packedFlags_eq (s : SafEntry) (spill : Bool) : packedFlags s spill =
    s.special.code * 2 ^ 126 + spill.toNat * 2 ^ 125 + s.ovf.toNat * 2 ^ 124 + s.trunc.toNat * 2 ^ 123
      + s.floor.toNat * 2 ^ 122 + s.anchored.toNat * 2 ^ 121 + anchorField s * 2 ^ 113 := by
  have hanchor : (if s.anchored then 2 ^ 121 + codeOfInt 8 s.anchorOut * 2 ^ 113 else 0) =
      s.anchored.toNat * 2 ^ 121 + anchorField s * 2 ^ 113 := by
    rw [anchorField]
    cases s.anchored <;> simp only [if_true, Bool.false_eq_true, if_false, Bool.toNat_true, Bool.toNat_false,
      Nat.one_mul, Nat.zero_mul, Nat.add_zero]
  rw [packedFlags, hanchor]
  simp only [ite_eq_toNat_mul, Nat.add_assoc]

theorem testBit_of_div_mod {x k : Nat} {b : Bool} (h : x / 2 ^ k % 2 = b.toNat) : x.testBit k = b := by
  rw [Nat.testBit_eq_decide_div_mod_eq, h]
  cases b <;> rfl

/-- The number with the fields of Table 4.3: flags, anchor, guard bit, pos and window. -/
def packedNumber (s : SafEntry) (spill guard : Bool) (pos w : Nat) : Nat :=
  packedFlags s spill + pos * 2 ^ 96 + w + guard.toNat * 2 ^ 112

theorem packedNumber_eq (s : SafEntry) (spill guard : Bool) (pos w : Nat) : packedNumber s spill guard pos w =
    s.special.code * 2 ^ 126 + spill.toNat * 2 ^ 125 + s.ovf.toNat * 2 ^ 124 + s.trunc.toNat * 2 ^ 123
      + s.floor.toNat * 2 ^ 122 + s.anchored.toNat * 2 ^ 121 + anchorField s * 2 ^ 113 + pos * 2 ^ 96 + w
      + guard.toNat * 2 ^ 112 := by
  rw [packedNumber, packedFlags_eq]

/-- The fields of Table 4.3 fill 128 bits and lie apart: each is read as it was put there. -/
theorem unpackEntry_packedNumber (s : SafEntry) (spill guard : Bool) {pos w : Nat} (hp : pos < 2 ^ 16) (hw : w < 2 ^ 96) :
    packedNumber s spill guard pos w < 2 ^ 128 ∧ unpackEntry (packedNumber s spill guard pos w) =
      ⟨s.special, spill, s.ovf, s.trunc, s.floor, s.anchored, signedOf 8 (anchorField s),
        !parityOf 128 (packedNumber s spill guard pos w), signedOf 16 pos, signedOf 96 w, w.testBit 65,
        w / 2 ^ 64 % 2, w / 2 ^ 32 % 2 ^ 32, w % 2 ^ 32⟩ := by
  have hspecial := s.special.code_lt
  have hspill := spill.toNat_lt
  have hovf := s.ovf.toNat_lt
  have htrunc := s.trunc.toNat_lt
  have hfloor := s.floor.toNat_lt
  have hanchored := s.anchored.toNat_lt
  have hguard := guard.toNat_lt
  have hanchor := anchorField_lt s
  have hx := packedNumber_eq s spill guard pos w
  generalize packedNumber s spill guard pos w = x at hx ⊢
  have hcode : x / 2 ^ 126 = s.special.code := by omega
  have halpha : x / 2 ^ 113 % 2 ^ 8 = anchorField s := by omega
  have hpos : x / 2 ^ 96 % 2 ^ 16 = pos := by omega
  have hwin : x % 2 ^ 96 = w := by omega
  have hbit : x.testBit 65 = w.testBit 65 := by
    rw [← hwin, Nat.testBit_mod_two_pow, decide_eq_true (by decide), Bool.true_and]
  refine ⟨by omega, ?_⟩
  simp only [unpackEntry, Packed.mk.injEq]
  refine ⟨?_, ?_, ?_, ?_, ?_, ?_, ?_, trivial, ?_, ?_, hbit, ?_, ?_, ?_⟩
  · rw [hcode, specialOfCode_code]
  · exact testBit_of_div_mod (by omega)
  · exact testBit_of_div_mod (by omega)
  · exact testBit_of_div_mod (by omega)
  · exact testBit_of_div_mod (by omega)
  · exact testBit_of_div_mod (by omega)
  · rw [← signedOf_mod, halpha]
  · rw [← signedOf_mod, hpos]
  · rw [← signedOf_mod, hwin]
  · omega
  · omega
  · omega

/-- The guard bit is clear before it is set, so with it the parity is even. -/
theorem withGuard_eq_packedNumber (s : SafEntry) (spill : Bool) {pos w : Nat} (hp : pos < 2 ^ 16) (hw : w < 2 ^ 96) :
    ∃ g, withGuard (packedFlags s spill + pos * 2 ^ 96 + w) = packedNumber s spill g pos w ∧
      parityOf 128 (packedNumber s spill g pos w) = false := by
  have hclear : (packedFlags s spill + pos * 2 ^ 96 + w).testBit 112 = false := by
    refine testBit_of_div_mod ?_
    rw [packedFlags_eq, Bool.toNat_false]
    omega
  have hbit : withGuard (packedFlags s spill + pos * 2 ^ 96 + w) =
      packedNumber s spill (parityOf 128 (packedFlags s spill + pos * 2 ^ 96 + w)) pos w := by
    rw [withGuard, packedNumber, ← ite_eq_toNat_mul]
    split
    · rfl
    · rw [Nat.add_zero]
  refine ⟨_, hbit, ?_⟩
  rw [← hbit]
  exact parityOf_withGuard hclear

/-! ### The lowest set bit -/

/-- Taking one from an odd multiple of `2^k` clears bit `k` and sets the bits below it. -/
theorem lowestBit_odd_mul (m k : Nat) : lowestBit ((2 * m + 1) * 2 ^ k) = k := by
  have hpred : (2 * m + 1) * 2 ^ k - 1 = 2 ^ k * (2 * m) + (2 ^ k - 1) := by
    have := Nat.two_pow_pos k
    have hn : (2 * m + 1) * 2 ^ k = 2 ^ k * (2 * m) + 2 ^ k := by
      rw [Nat.add_mul, Nat.one_mul, Nat.mul_comm]
    omega
  have hlow : (2 * m + 1) * 2 ^ k - ((2 * m + 1) * 2 ^ k &&& ((2 * m + 1) * 2 ^ k - 1)) = 2 ^ k := by
    refine Nat.eq_of_testBit_eq fun j => ?_
    rw [testBit_sub_and, hpred, Nat.testBit_mul_two_pow,
      Nat.testBit_two_pow_mul_add _ (Nat.sub_lt (Nat.two_pow_pos k) Nat.one_pos), Nat.testBit_two_pow,
      Nat.testBit_two_pow_sub_one]
    obtain h | rfl | h := Nat.lt_trichotomy j k
    · simp only [decide_eq_false (show ¬k ≤ j by omega), decide_eq_false (show ¬k = j by omega), Bool.false_and]
    · rw [decide_eq_true (Nat.le_refl j), if_neg (Nat.lt_irrefl j), Nat.sub_self, Nat.testBit_zero, Nat.testBit_zero,
        decide_eq_true (show (2 * m + 1) % 2 = 1 by omega), decide_eq_false (show ¬2 * m % 2 = 1 by omega),
        decide_eq_true rfl]
      rfl
    · obtain ⟨i, rfl⟩ := Nat.exists_eq_add_of_lt h
      have hi : k + i + 1 - k = i + 1 := by omega
      rw [if_neg (by omega), hi, Nat.testBit_succ, Nat.testBit_succ, decide_eq_false (show ¬k = k + i + 1 by omega)]
      have h1 : (2 * m + 1) / 2 = m := by omega
      have h2 : 2 * m / 2 = m := by omega
      rw [h1, h2, Bool.and_assoc, Bool.and_not_self, Bool.and_false]
  rw [lowestBit, hlow, Nat.log2_two_pow]

theorem lowestBit_natAbs_mul {w : Int} (hw : w % 2 = 1) (k : Nat) : lowestBit (w * 2 ^ k).natAbs = k := by
  have hodd : w.natAbs = 2 * (w.natAbs / 2) + 1 := by omega
  have habs : (w * 2 ^ k).natAbs = w.natAbs * 2 ^ k := by rw [Int.natAbs_mul, Int.natAbs_pow]; rfl
  rw [habs, hodd, lowestBit_odd_mul]

/-! ### The canonical form -/

theorem packWindow_of_zero {s : SafEntry} (h : s.special ≠ .finite ∨ s.v = 0) : packWindow s = some (0, 0) := by
  rw [packWindow, if_pos]
  rwa [Bool.or_eq_true, decide_eq_true_eq, decide_eq_true_eq]

/-- R108: the window of a finite value is its odd part, when that fits 96 bits. -/
theorem packWindow_odd_mul {s : SafEntry} {w : Int} {k : Nat} (hs : s.special = .finite) (hv : s.v = w * 2 ^ k)
    (hw : w % 2 = 1) : packWindow s =
      if -(2 ^ 95) ≤ w ∧ w < 2 ^ 95 then some (codeOfInt 96 w, codeOfInt 16 ((k : Int) + s.unit)) else none := by
  have hk : (2 : Int) ^ k ≠ 0 := Int.pow_ne_zero (by decide)
  have hne : s.v ≠ 0 := by
    rw [hv]
    exact Int.mul_ne_zero (by omega) hk
  have hdiv : s.v / ((2 ^ k : Nat) : Int) = w := by
    have hcast : ((2 ^ k : Nat) : Int) = 2 ^ k := Int.natCast_pow 2 k
    rw [hv, hcast, Int.mul_ediv_cancel _ hk]
  have hcond : ¬(decide (s.special ≠ .finite) || decide (s.v = 0)) = true := by
    rw [Bool.or_eq_true, decide_eq_true_eq, decide_eq_true_eq]
    exact fun h => h.elim (absurd hs) hne
  rw [packWindow, if_neg hcond]
  dsimp only
  rw [hv, lowestBit_natAbs_mul hw, ← hv, hdiv]

section
variable {s : SafEntry} (h : EntryFits s)
include h

theorem signedOf_anchorField : signedOf 8 (anchorField s) = s.anchor := by
  obtain ⟨_, _, hstart, hlo, hhi, hfixed⟩ := h
  rw [anchorField]
  cases ha : s.anchored with
  | true =>
    rw [if_pos rfl, SafEntry.anchorOut, hstart, ha, if_pos rfl]
    exact signedOf_codeOfInt (w := 7) (by omega) (by omega)
  | false =>
    rw [hfixed ha]
    rfl

/-- An entry of the device never has the anchor -128, so its packed form says rightly whether it has started. -/
theorem started_eq : (s.anchored && s.anchor != -128) = s.started := by
  obtain ⟨_, _, hstart, hlo, _, _⟩ := h
  rw [bne_iff_ne.mpr (by omega), Bool.and_true, hstart]

theorem unit_bounds : -8192 < s.unit ∧ s.unit < 8192 := by
  obtain ⟨_, _, _, hlo, hhi, _⟩ := h
  rw [SafEntry.unit]
  split <;> omega

/-- A register of 768 bits has its lowest set bit among them. -/
theorem exponent_lt {w : Int} {k : Nat} (hv : s.v = w * 2 ^ k) (hw : w % 2 = 1) : k < 768 := by
  obtain ⟨hlo, hhi, _⟩ := h
  refine Decidable.byContradiction fun hk => ?_
  have habs : s.v.natAbs = w.natAbs * 2 ^ k := by rw [hv, Int.natAbs_mul, Int.natAbs_pow]; rfl
  have hle : 2 ^ k ≤ s.v.natAbs := by
    rw [habs]
    exact Nat.le_mul_of_pos_left _ (by omega)
  have hpow := Nat.pow_lt_pow_right (a := 2) (m := 767) (n := k) (by decide) (by omega)
  omega

end

/-- The entry packs with this window and pos, and its packed form has its flags, no spill, even parity, and unpacks to
it: the conclusion of `Obligations.PackedEntryIsCanonical`. -/
def PacksAs (s : SafEntry) (w pos : Int) : Prop :=
  ∃ x, packEntry s = some x ∧ x < 2 ^ 128 ∧
    (let p := unpackEntry x
     p.special = s.special ∧ p.spill = false ∧ p.ovf = s.ovf ∧ p.trunc = s.trunc ∧ p.floor = s.floor ∧
     p.anchored = s.anchored ∧ p.anchor = s.anchor ∧ p.guardOk = true ∧ p.pos = pos ∧ p.window = w ∧
     p.entry = { s with v := if s.special = .finite then s.v else 0 })

/-- A window and a pos that fit their fields and give the register back make a packed form of the entry. -/
theorem packsAs_of_packWindow {s : SafEntry} {w pos : Int} (h : EntryFits s)
    (hwin : packWindow s = some (codeOfInt 96 w, codeOfInt 16 pos))
    (hw : -(2 ^ 95) ≤ w ∧ w < 2 ^ 95) (hpos : -(2 ^ 15) ≤ pos ∧ pos < 2 ^ 15)
    (hv : s.special = .finite → (shiftFloor w (pos - s.unit)).1 = s.v) : PacksAs s w pos := by
  have hp := codeOfInt_lt 16 pos
  have hc := codeOfInt_lt 96 w
  obtain ⟨g, hnum, heven⟩ := withGuard_eq_packedNumber s false hp hc
  have hpack : packEntry s = some (packedNumber s false g (codeOfInt 16 pos) (codeOfInt 96 w)) := by
    rw [packEntry, hwin, Option.map_some, hnum]
  obtain ⟨hlt, hun⟩ := unpackEntry_packedNumber s false g hp hc
  have hpos16 : signedOf 16 (codeOfInt 16 pos) = pos := signedOf_codeOfInt (w := 15) (by omega) (by omega)
  have hwin96 : signedOf 96 (codeOfInt 96 w) = w := signedOf_codeOfInt (w := 95) (by omega) (by omega)
  rw [signedOf_anchorField h, hpos16, hwin96, heven, Bool.not_false] at hun
  generalize packedNumber s false g (codeOfInt 16 pos) (codeOfInt 96 w) = x at hpack hlt hun
  refine ⟨x, hpack, hlt, ?_⟩
  rw [hun]
  refine ⟨rfl, rfl, rfl, rfl, rfl, rfl, rfl, rfl, rfl, rfl, ?_⟩
  simp only [Packed.entry, Packed.hasAnchor, started_eq h]
  by_cases hs : s.special = .finite
  · have hreg := hv hs
    rw [SafEntry.unit] at hreg
    rw [if_pos hs, if_pos hs, hreg]
  · rw [if_neg hs, if_neg hs]

theorem packsAs_zero {s : SafEntry} (h : EntryFits s) (h0 : s.special ≠ .finite ∨ s.v = 0) : PacksAs s 0 0 := by
  refine packsAs_of_packWindow h (packWindow_of_zero h0) (by omega) (by omega) fun hs => ?_
  have hv : s.v = 0 := h0.resolve_left (Decidable.not_not.mpr hs)
  rw [hv, shiftFloor]
  split
  · exact Int.zero_mul _
  · exact Int.zero_ediv _

theorem packsAs_odd_mul {s : SafEntry} {w : Int} {k : Nat} (h : EntryFits s) (hs : s.special = .finite)
    (hv : s.v = w * 2 ^ k) (hw : w % 2 = 1) (hfit : -(2 ^ 95) ≤ w ∧ w < 2 ^ 95) : PacksAs s w (k + s.unit) := by
  have hk := exponent_lt h hv hw
  obtain ⟨hulo, huhi⟩ := unit_bounds h
  refine packsAs_of_packWindow h (by rw [packWindow_odd_mul hs hv hw, if_pos hfit]) hfit (by omega) fun _ => ?_
  have hsub : (k : Int) + s.unit - s.unit = k := by omega
  rw [hsub, shiftFloor, if_pos (by omega), Int.toNat_natCast, hv]

/-- Settles O24: zero and special entries, then finite values by whether their odd part fits the window. -/
theorem packedEntryIsCanonical : Obligations.PackedEntryIsCanonical := by
  intro s h
  refine ⟨packsAs_zero h, fun w k hs hv hw => ⟨fun hlo hhi => packsAs_odd_mul h hs hv hw ⟨hlo, hhi⟩, fun hout => ?_⟩⟩
  rw [packEntry, packWindow_odd_mul hs hv hw, if_neg (by omega), Option.map_none]

end Sys2Proof.Machine
end

