-- ==== Sys2Proof/Proofs/CounterClears.lean ====
section
/-! PROOF. The clearing bits of a core's and an array's control registers: valid bits of side memory (R149) and counters
(R10). -/
namespace Sys2Proof.Machine

/-! ### A host command of an awake device -/

theorem hostAwake_runs {i : Instr} {s : State} {p : Nat} {f : Dev → Dev} (h : exec i s = act s (fun d => hostAwake d p f))
    (hp : portAnswers s.dev p = true) (ha : asleep s.dev = false) : Runs i s (f s.dev) := by
  have hrun := host_runs h hp
  rwa [ha, if_neg Bool.false_ne_true] at hrun

/-- A host command to a unit of a core, when the unit exists and can be written (R455). -/
theorem hostAwake_runs_of_writable {i : Instr} {s : State} {p n bound : Nat} {r : Reg} {f : Dev → Dev}
    (h : exec i s = act s (fun d =>
      hostAwake d p (fun d => if n < bound ∧ coreWritable d r n = true then f d else d)))
    (hp : portAnswers s.dev p = true) (ha : asleep s.dev = false) (hn : n < bound) (hw : coreWritable s.dev r n = true) :
    Runs i s (f s.dev) := by
  have hrun := hostAwake_runs h hp ha
  rwa [if_pos ⟨hn, hw⟩] at hrun

section
variable {s : State} {p n : Nat} (hp : portAnswers s.dev p = true) (ha : asleep s.dev = false)
include hp ha

theorem sideInval_runs (hn : n < 64) (hw : coreWritable s.dev .cardCtl n = true) :
    Runs (.sideInval p n) s (sideInvalidate s.dev n) :=
  hostAwake_runs_of_writable (f := (sideInvalidate · n)) rfl hp ha hn hw

theorem cardCntClear_runs (hn : n < 64) (hw : coreWritable s.dev .cardCtl n = true) :
    Runs (.cardCntClear p n) s (clearCard s.dev n) :=
  hostAwake_runs_of_writable (f := (clearCard · n)) rfl hp ha hn hw

theorem arrCntClear_runs (hn : n < 256) (hw : coreWritable s.dev .arrCtl n = true) :
    Runs (.arrCntClear p n) s (clearArr s.dev n) :=
  hostAwake_runs_of_writable (f := (clearArr · n)) rfl hp ha hn hw

theorem safCntClear_runs (hn : n < 256) (hw : coreWritable s.dev .safCtl n = true) :
    Runs (.safCntClear p n) s (clearSaf s.dev n) :=
  hostAwake_runs_of_writable (f := (clearSaf · n)) rfl hp ha hn hw

end

/-! ### Valid bits of side memory -/

theorem contains_sideInvalidate (d : Dev) (c q : Nat) :
    (sideInvalidate d c).sideValid.contains q = (d.sideValid.contains q && decide (q / 1024 ≠ c)) := by
  rw [Bool.eq_iff_iff, Bool.and_eq_true, List.contains_iff_mem, List.contains_iff_mem, decide_eq_true_eq, sideInvalidate,
    List.mem_filter, bne_iff_ne]

/-! ### Cleared counters -/

theorem cntGet_cntClear_other (d : Dev) (f g : Field) {i j : Nat}
    (h : regKey g.reg j * 2 ^ 8 + g.lo ≠ regKey f.reg i * 2 ^ 8 + f.lo) : cntGet (cntClear d f i) g j = cntGet d g j :=
  smapGet_set_other (d := 0) (e := 0) d.cnts _ _ 0 h

theorem cntGet_cntClear_of_zero {d : Dev} {g : Field} {j : Nat} (h : cntGet d g j = 0) (f : Field) (i : Nat) :
    cntGet (cntClear d f i) g j = 0 := by
  by_cases hk : regKey g.reg j * 2 ^ 8 + g.lo = regKey f.reg i * 2 ^ 8 + f.lo
  · rw [cntGet, hk]
    exact cntGet_cntClear_self d f i
  · rw [cntGet_cntClear_other d f g hk, h]

/-- The counters of another unit keep their values, whatever their register. -/
theorem cntGet_cntClear_other_unit (d : Dev) {f g : Field} {i j : Nat} (hf : f.lo < 2 ^ 8) (hg : g.lo < 2 ^ 8)
    (hi : i < 2 ^ 20) (hj : j < 2 ^ 20) (h : j ≠ i) : cntGet (cntClear d f i) g j = cntGet d g j := by
  refine cntGet_cntClear_other d f g fun hk => ?_
  have hkey : regKey g.reg j = regKey f.reg i := by omega
  exact h (regKey_eq hj hi hkey).2

/-- A counter at zero stays there, whatever counters are cleared. -/
theorem cntGet_clears_of_zero {d : Dev} {g : Field} {j : Nat} (h : cntGet d g j = 0) (fs : List Field) (i : Nat) :
    cntGet (fs.foldl (fun d f => cntClear d f i) d) g j = 0 := by
  induction fs generalizing d with
  | nil => exact h
  | cons f fs ih => exact ih (cntGet_cntClear_of_zero h f i)

theorem cntGet_clears_mem (d : Dev) {fs : List Field} {g : Field} (h : g ∈ fs) (i : Nat) :
    cntGet (fs.foldl (fun d f => cntClear d f i) d) g i = 0 := by
  induction h generalizing d with
  | head fs => exact cntGet_clears_of_zero (cntGet_cntClear_self d g i) fs i
  | tail f _ ih => exact ih (cntClear d f i)

theorem cntGet_clears_other_unit (d : Dev) {fs : List Field} {g : Field} {i j : Nat} (hfs : ∀ f ∈ fs, f.lo < 2 ^ 8)
    (hg : g.lo < 2 ^ 8) (hi : i < 2 ^ 20) (hj : j < 2 ^ 20) (h : j ≠ i) :
    cntGet (fs.foldl (fun d f => cntClear d f i) d) g j = cntGet d g j := by
  induction fs generalizing d with
  | nil => rfl
  | cons f fs ih =>
    obtain ⟨hf, hrest⟩ := List.forall_mem_cons.mp hfs
    rw [List.foldl_cons, ih _ hrest, cntGet_cntClear_other_unit d hf hg hi hj h]

theorem fget_fset_zero (d : Dev) (f : Field) (i : Nat) : fget (fset d f i 0) f i = 0 := by
  rw [fget_fset_self, Nat.zero_mod]

/-- A register of another unit keeps its value when a field is written. -/
theorem regGet_fset_other_unit (d : Dev) (f : Field) (r : Reg) {i j v : Nat} (hi : i < 2 ^ 20) (hj : j < 2 ^ 20)
    (h : j ≠ i) : regGet (fset d f i v) r j = regGet d r j :=
  regGet_regSet_other d f.reg r i j _ hi hj (.inr h)

/-! ### Everything but registers and counters -/

/-- `e` differs from `d` in registers and counters alone. -/
def CountersOnly (d e : Dev) : Prop := e = { d with regs := e.regs, cnts := e.cnts }

theorem countersOnly_kept {d e : Dev} (h : CountersOnly d e) :
    e.mem = d.mem ∧ e.eng = d.eng ∧ e.steps = d.steps ∧ e.sideValid = d.sideValid := by
  rw [h]
  exact ⟨rfl, rfl, rfl, rfl⟩

theorem countersOnly_refl (d : Dev) : CountersOnly d d := rfl

theorem countersOnly_cntClear {d e : Dev} (h : CountersOnly d e) (f : Field) (i : Nat) : CountersOnly d (cntClear e f i) := by
  rw [h]
  rfl

theorem countersOnly_fset {d e : Dev} (h : CountersOnly d e) (f : Field) (i v : Nat) : CountersOnly d (fset e f i v) := by
  rw [h]
  rfl

theorem countersOnly_clears {d e : Dev} (h : CountersOnly d e) (fs : List Field) (i : Nat) :
    CountersOnly d (fs.foldl (fun d f => cntClear d f i) e) := by
  induction fs generalizing e with
  | nil => exact h
  | cons f fs ih => exact ih (countersOnly_cntClear h f i)

/-! ### The three cleared blocks -/

section
variable (d : Dev)

theorem clearArr_countersOnly (a : Nat) : CountersOnly d (clearArr d a) :=
  countersOnly_fset (countersOnly_clears (countersOnly_refl d) _ a) arrParityCntParityErr a 0

theorem clearSaf_countersOnly (a : Nat) : CountersOnly d (clearSaf d a) := countersOnly_clears (countersOnly_refl d) _ a

theorem clearCard_countersOnly (c : Nat) : CountersOnly d (clearCard d c) :=
  countersOnly_fset (countersOnly_fset (countersOnly_cntClear (countersOnly_refl d) cardRowsRows c)
    cardSideEccUncorrectable c 0) cardSideEccCorrected c 0

theorem clearSaf_regs (a : Nat) : (clearSaf d a).regs = d.regs := rfl

theorem cntGet_clearArr {g : Field} (a : Nat)
    (h : g ∈ [arrVectorsVectors, arrBusyCyclesBusy, arrFrontBubbleBubble, arrFeedStallStall]) :
    cntGet (clearArr d a) g a = 0 := cntGet_clears_mem d h a

theorem cntGet_clearSaf {g : Field} (a : Nat)
    (h : g ∈ [safTruncCntTrunc, safFloorCntFloor, safSpillCntSpill, safOvfCntOvf]) : cntGet (clearSaf d a) g a = 0 :=
  cntGet_clears_mem d h a

theorem cntGet_clearCard (c : Nat) : cntGet (clearCard d c) cardRowsRows c = 0 := cntGet_cntClear_self d cardRowsRows c

theorem fget_clearArr_parity (a : Nat) : fget (clearArr d a) arrParityCntParityErr a = 0 :=
  fget_fset_zero _ arrParityCntParityErr a

/-- The two fields of CARD_SIDE_ECC share no bit: the later write leaves the earlier one at zero. -/
theorem fget_clearCard_ecc (c : Nat) :
    fget (clearCard d c) cardSideEccUncorrectable c = 0 ∧ fget (clearCard d c) cardSideEccCorrected c = 0 := by
  refine ⟨?_, fget_fset_zero _ cardSideEccCorrected c⟩
  exact (fget_fset_field _ cardSideEccCorrected cardSideEccUncorrectable c 0 rfl (.inr (by decide))).trans
    (fget_fset_zero _ cardSideEccUncorrectable c)

variable {i j : Nat} (hi : i < 2 ^ 20) (hj : j < 2 ^ 20) (h : j ≠ i)
include hi hj h

theorem cntGet_clearArr_other_unit {g : Field} (hg : g.lo < 2 ^ 8) : cntGet (clearArr d i) g j = cntGet d g j :=
  cntGet_clears_other_unit d (by decide) hg hi hj h

theorem regGet_clearArr_other_unit (r : Reg) : regGet (clearArr d i) r j = regGet d r j :=
  regGet_fset_other_unit _ arrParityCntParityErr r hi hj h

theorem cntGet_clearSaf_other_unit {g : Field} (hg : g.lo < 2 ^ 8) : cntGet (clearSaf d i) g j = cntGet d g j :=
  cntGet_clears_other_unit d (by decide) hg hi hj h

theorem cntGet_clearCard_other_unit {g : Field} (hg : g.lo < 2 ^ 8) : cntGet (clearCard d i) g j = cntGet d g j :=
  cntGet_cntClear_other_unit d (by decide) hg hi hj h

theorem regGet_clearCard_other_unit (r : Reg) : regGet (clearCard d i) r j = regGet d r j :=
  (regGet_fset_other_unit _ cardSideEccCorrected r hi hj h).trans
    (regGet_fset_other_unit _ cardSideEccUncorrectable r hi hj h)

end

/-- Settles O19: each command runs its clear, and what the clear does is read off its own lemmas. -/
theorem sideMemoryAndCounterClears : Obligations.SideMemoryAndCounterClears := by
  intro s p hp ha d kept
  have instance_lt : ∀ {n : Nat}, n < 256 → n < 2 ^ 20 := fun h => Nat.lt_trans h (by decide)
  have core_lt : ∀ {n : Nat}, n < 64 → n < 2 ^ 20 := fun h => Nat.lt_trans h (by decide)
  refine ⟨fun core hcore hw => ⟨?_, ?_⟩, fun a hlt hw => ?_, fun a hlt hw => ?_⟩
  · exact ⟨sideInvalidate d core, sideInval_runs hp ha hcore hw, rfl, contains_sideInvalidate d core⟩
  · obtain ⟨hunc, hcor⟩ := fget_clearCard_ecc d core
    refine ⟨clearCard d core, cardCntClear_runs hp ha hcore hw, countersOnly_kept (clearCard_countersOnly d core),
      cntGet_clearCard d core, hunc, hcor, fun c hc hne => ⟨?_, ?_⟩⟩
    · exact cntGet_clearCard_other_unit d (core_lt hcore) (core_lt hc) hne (by decide)
    · exact regGet_clearCard_other_unit d (core_lt hcore) (core_lt hc) hne _
  · refine ⟨clearArr d a, arrCntClear_runs hp ha hlt hw, countersOnly_kept (clearArr_countersOnly d a),
      cntGet_clearArr d a (by simp), cntGet_clearArr d a (by simp), cntGet_clearArr d a (by simp),
      cntGet_clearArr d a (by simp), fget_clearArr_parity d a, fun b hb hne => ⟨?_, ?_⟩⟩
    · exact cntGet_clearArr_other_unit d (instance_lt hlt) (instance_lt hb) hne (by decide)
    · exact regGet_clearArr_other_unit d (instance_lt hlt) (instance_lt hb) hne _
  · refine ⟨clearSaf d a, safCntClear_runs hp ha hlt hw, countersOnly_kept (clearSaf_countersOnly d a), clearSaf_regs d a,
      cntGet_clearSaf d a (by simp), cntGet_clearSaf d a (by simp), cntGet_clearSaf d a (by simp),
      cntGet_clearSaf d a (by simp), fun b hb hne => ⟨?_, ?_⟩⟩
    · exact cntGet_clearSaf_other_unit d (instance_lt hlt) (instance_lt hb) hne (by decide)
    · exact cntGet_clearSaf_other_unit d (instance_lt hlt) (instance_lt hb) hne (by decide)

end Sys2Proof.Machine
end

