-- ==== Sys2Proof/Proofs/Semaphores.lean ====
section
/-! PROOF. Semaphores: their four operations (R255), writes of SEM_VALUE, and the commands that wait for a count (R256,
R259, R260). -/
namespace Sys2Proof.Machine

/-! ### The four operations -/

/-- An operation of a semaphore whose register may change keeps the rest. -/
theorem onlyRegs_semApply {d e : Dev} {m : Nat} (h : OnlyRegs d e [(.semValue, m)]) (hm : m < 2 ^ 20) (a : SemAct) :
    OnlyRegs d (semApply e m a) [(.semValue, m)] := by
  have hkey : (Reg.semValue, m) ∈ [(Reg.semValue, m)] := List.mem_singleton_self _
  cases a with
  | add n => exact onlyRegs_fset h hm hkey
  | set v => exact onlyRegs_fset h hm hkey
  | errSet n => exact onlyRegs_fset (onlyRegs_fset h hm hkey) hm hkey
  | errClear => exact onlyRegs_fset h hm hkey

section
variable (d : Dev) (m : Nat)

/-- The count and the error bit of SEM_VALUE share no bit. -/
theorem semErr_fset_count (v : Nat) : semErr (fset d semValueCount m v) m = semErr d m :=
  congrArg (· == 1) (fget_fset_field d semValueCount semValueErr m v rfl (.inr (by decide)))

theorem semCount_fset_err (v : Nat) : semCount (fset d semValueErr m v) m = semCount d m :=
  fget_fset_field d semValueErr semValueCount m v rfl (.inl (by decide))

theorem semCount_fset_count (v : Nat) : semCount (fset d semValueCount m v) m = v % 2 ^ 32 :=
  fget_fset_self d semValueCount m v

theorem semErr_fset_err (v : Nat) : semErr (fset d semValueErr m v) m = (v % 2 == 1) :=
  congrArg (· == 1) (fget_fset_self d semValueErr m v)

theorem semCount_semApply_add (n : Nat) : semCount (semApply d m (.add n)) m = (semCount d m + n) % 2 ^ 32 :=
  semCount_fset_count d m _

theorem semErr_semApply_add (n : Nat) : semErr (semApply d m (.add n)) m = semErr d m := semErr_fset_count d m _

theorem semCount_semApply_set (v : Nat) : semCount (semApply d m (.set v)) m = v % 2 ^ 32 := semCount_fset_count d m v

theorem semErr_semApply_set (v : Nat) : semErr (semApply d m (.set v)) m = semErr d m := semErr_fset_count d m v

theorem semCount_semApply_errSet (n : Nat) : semCount (semApply d m (.errSet n)) m = (semCount d m + n) % 2 ^ 32 :=
  semCount_fset_count _ m _

theorem semErr_semApply_errSet (n : Nat) : semErr (semApply d m (.errSet n)) m = true :=
  (semErr_fset_count _ m _).trans (semErr_fset_err d m 1)

theorem semCount_semApply_errClear : semCount (semApply d m .errClear) m = semCount d m := semCount_fset_err d m 0

theorem semErr_semApply_errClear : semErr (semApply d m .errClear) m = false := semErr_fset_err d m 0

end

/-- Settles O17, operation by operation. -/
theorem semaphoreOperations : Obligations.SemaphoreOperations := by
  intro d m n v hm _ hv
  have hset : semCount (semApply d m (.set v)) m = v := (semCount_semApply_set d m v).trans (Nat.mod_eq_of_lt hv)
  exact ⟨onlyRegs_semApply (onlyRegs_refl d _) (by omega), semCount_semApply_add d m n, semErr_semApply_add d m n, hset,
    semErr_semApply_set d m v, semCount_semApply_errSet d m n, semErr_semApply_errSet d m n,
    semCount_semApply_errClear d m, semErr_semApply_errClear d m⟩

/-! ### Writes of SEM_VALUE -/

section
variable (d : Dev) (m v : Nat)

/-- The error bit as a write sets it. -/
def errAct (on : Bool) : SemAct := if on then .errSet 0 else .errClear

theorem semErr_errAct (on : Bool) : semErr (semApply d m (errAct on)) m = on := by
  cases on with
  | true => exact semErr_semApply_errSet d m 0
  | false => exact semErr_semApply_errClear d m

/-- ERR_SET 0 adds nothing, and a count fits its field. -/
theorem semCount_errAct (on : Bool) : semCount (semApply d m (errAct on)) m = semCount d m := by
  cases on with
  | true => exact (semCount_semApply_errSet d m 0).trans (Nat.mod_eq_of_lt (fget_lt d semValueCount m))
  | false => exact semCount_semApply_errClear d m

theorem bits_low_word : bits v 31 0 = v % 2 ^ 32 := by
  rw [bits, Nat.pow_zero, Nat.div_one]

/-- A bit of a word, as a write of a one-bit field reads it. -/
theorem bits_single (i : Nat) : (bits v i i % 2 == 1) = v.testBit i := by
  have h := testBit_bits v i i 0
  have hlt : 0 < i + 1 - i := by omega
  rw [Nat.testBit_zero, decide_eq_true hlt, Bool.true_and, Nat.add_zero] at h
  exact h

theorem writeSem_low : writeSem d m (semPart 0 v) = semApply d m (.set (v % 2 ^ 32)) := by
  have h : writeSem d m (semPart 0 v) = semApply d m (.set (bits (bits v 31 0) 31 0)) := rfl
  rw [h, bits_low_word, bits_low_word, Nat.mod_mod]

theorem writeSem_high : writeSem d m (semPart 1 v) = semApply d m (errAct (v.testBit 0)) := by
  have h : writeSem d m (semPart 1 v) = semApply d m (errAct (bits (bits v 31 0) 0 0 % 2 == 1)) := rfl
  have hbit : (bits v 31 0).testBit 0 = v.testBit 0 := testBit_bits v 31 0 0
  rw [h, bits_single, hbit]

theorem writeSem_whole :
    writeSem d m (semPart 2 v) = semApply (semApply d m (.set (v % 2 ^ 32))) m (errAct (v.testBit 32)) := by
  have h : writeSem d m (semPart 2 v) = semApply (semApply d m (.set (bits v 31 0))) m (errAct (bits v 32 32 % 2 == 1)) := rfl
  rw [h, bits_low_word, bits_single]

end

theorem semValueWrite_runs {s : State} {p m : Nat} (part : Nat) (v : BitVec 64) (hp : portAnswers s.dev p = true)
    (ha : asleep s.dev = false) (hm : m < 262144) :
    Runs (.semValueWrite p m part v) s (writeSem s.dev m (semPart part v.toNat)) := by
  have hrun : Runs (.semValueWrite p m part v) s
      (if m < 262144 then writeSem s.dev m (semPart part v.toNat) else s.dev) :=
    hostAwake_runs (f := fun d => if m < 262144 then writeSem d m (semPart part v.toNat) else d) rfl hp ha
  rwa [if_pos hm] at hrun

/-- Settles O18: each part of the register is one operation, or SET and then one on the error bit. -/
theorem semValueWriteSetsAndClears : Obligations.SemValueWriteSetsAndClears := by
  intro s p m v hp ha hm d
  have hm' : m < 2 ^ 20 := by omega
  have hrun := fun part => semValueWrite_runs part v hp ha hm
  have hregs := onlyRegs_semApply (onlyRegs_refl d [(.semValue, m)]) hm'
  have hset : semCount (semApply d m (.set (v.toNat % 2 ^ 32))) m = v.toNat % 2 ^ 32 := by
    rw [semCount_semApply_set, Nat.mod_mod]
  refine ⟨⟨_, hrun 0, ?_⟩, ⟨_, hrun 1, ?_⟩, ⟨_, hrun 2, ?_⟩⟩
  · rw [writeSem_low]
    exact ⟨hregs _, hset, semErr_semApply_set d m _⟩
  · rw [writeSem_high]
    exact ⟨hregs _, semCount_errAct d m _, semErr_errAct d m _⟩
  · rw [writeSem_whole]
    exact ⟨onlyRegs_semApply (hregs _) hm' _, (semCount_errAct _ m _).trans hset, semErr_errAct _ m _⟩

/-! ### Commands that wait for a count -/

section
variable {s : State} {r q : Nat} {c : Cmd} (hc : findCmd s.dev r q = some c)
include hc

/-- A blocked command whose turn has come is tried, and the commands in flight go on. -/
theorem waitResume_runs (hp : c.phase = .waiting) (hb : c.blocked = true) (ho : orderGate s.dev c = true) :
    Runs (.waitResume r q) s (advance (waitThenStart s.dev c)) := by
  have h : waitResume s.dev r q = advance (waitThenStart s.dev c) := by
    simp [waitResume, hc, hp, hb, ho]
  exact h ▸ act_runs _ s (waitResume · r q) rfl

/-- A command that is not waiting, not blocked or behind others is left alone. -/
theorem waitResume_idle (h : c.phase ≠ .waiting ∨ c.blocked = false ∨ orderGate s.dev c = false) :
    Runs (.waitResume r q) s s.dev := by
  have hgate : (decide (c.phase = .waiting) && c.blocked && orderGate s.dev c) = false := by
    obtain h | h | h := h <;> simp [h]
  have hidle : waitResume s.dev r q = s.dev := by
    simp only [waitResume, hc, hgate, Bool.false_eq_true, if_false]
  have hrun := act_runs (.waitResume r q) s (waitResume · r q) rfl
  rwa [hidle] at hrun

end

section
variable {d : Dev} {c : Cmd} (hw : c.header.waitEn = true)
include hw

theorem waitThenStart_error (he : semErr d c.header.waitSem = true) : waitThenStart d c = finishWith d c .semError := by
  simp [waitThenStart, hw, he]

theorem waitMet_of_waitEn : waitMet d c = waitReached d c.header.waitSem c.header.waitTarget := by
  simp [waitMet, hw]

variable (he : semErr d c.header.waitSem = false)
include he

theorem waitThenStart_short (h : 2 ^ 31 ≤ serialDiff (semCount d c.header.waitSem) c.header.waitTarget) :
    waitThenStart d c = updCmd d c.ring c.seq (fun x => { x with blocked := true }) := by
  have hmet : waitMet d c = false := (waitMet_of_waitEn hw).trans (decide_eq_false (Nat.not_lt.mpr h))
  simp [waitThenStart, he, hmet]

theorem waitThenStart_reached (h : serialDiff (semCount d c.header.waitSem) c.header.waitTarget < 2 ^ 31) :
    waitThenStart d c = if admitted d c = true then startCmd d c (semCount d c.header.waitSem)
      else updCmd d c.ring c.seq (fun x => { x with blocked := false }) := by
  have hmet : waitMet d c = true := (waitMet_of_waitEn hw).trans (decide_eq_true h)
  cases ha : admitted d c <;> simp [waitThenStart, hw, he, hmet, ha]

end

/-- Settles O30: the tried command takes the branch of its semaphore, its count and its stage. -/
theorem waitsResumeOrFail : Obligations.WaitsResumeOrFail := by
  intro s r q c hc d h i waits
  refine ⟨fun hp hb ho hw => ?_, waitResume_idle hc⟩
  have hrun := waitResume_runs hc hp hb ho
  refine ⟨fun he => ?_, fun he hlt => ⟨fun ha => ?_, fun ha => ?_⟩, fun he hge => ?_⟩
  · rwa [waitThenStart_error hw he] at hrun
  · rwa [waitThenStart_reached hw he hlt, if_pos ha] at hrun
  · rwa [waitThenStart_reached hw he hlt, if_neg (Bool.eq_false_iff.mp ha)] at hrun
  · rwa [waitThenStart_short hw he hge] at hrun

end Sys2Proof.Machine
end

