-- ==== Sys2Proof/Proofs/AccessFrame.lean ====
section
/-! PROOF. What an access to memory leaves alone: the errors it meets are counted and recorded (R230, R420), a store puts
its bytes in place, and the identity of the module, the memory plan, the commands in flight, the shards and every other byte
outside the record area stay. -/
namespace Sys2Proof.Machine

/-! ### A field beside the one written -/

theorem bits_smapGet_congr {a b hi lo : Nat} (m : List (Nat × Nat)) (k : Nat) (h : bits a hi lo = bits b hi lo) :
    bits (smapGet m k a) hi lo = bits (smapGet m k b) hi lo := by
  induction m with
  | nil => exact h
  | cons x rest ih =>
    obtain ⟨j, v⟩ := x
    by_cases hj : j = k
    · simp only [smapGet, if_pos hj]
    · simp only [smapGet, if_neg hj, ih]

/-- The entry of a key reads as written also by another unlisted value, in bits in which the two agree. -/
theorem bits_smapGet_smapSet {a b hi lo : Nat} (m : List (Nat × Nat)) (k v : Nat) (h : bits a hi lo = bits b hi lo) :
    bits (smapGet (smapSet m k v a) k b) hi lo = bits v hi lo := by
  rw [← bits_smapGet_congr _ k h, smapGet_set_self]

/-- The unit at which a register shares its key with unit 0 of another register. -/
theorem unit_of_regKey {r q : Reg} {i : Nat} (h : regKey r i = regKey q 0) : i = (q.ctorIdx - r.ctorIdx) * 2 ^ 20 := by
  unfold regKey at h
  omega

/-- A write of bits that a field does not have leaves it, whatever register its key belongs to: a unit beyond the last shares
its key with another register, where the two must agree on the field's reset value. -/
theorem fget_fset_disjoint (d : Dev) {f g : Field} {i j : Nat} (v : Nat) (hbits : g.hi < f.lo ∨ f.hi < g.lo)
    (hreset : regKey f.reg i = regKey g.reg j → bits (regReset f.reg i) g.hi g.lo = bits (regReset g.reg j) g.hi g.lo) :
    fget (fset d f i v) g j = fget d g j := by
  by_cases hk : regKey g.reg j = regKey f.reg i
  · have hr := hreset hk.symm
    simp only [fget, fset, regSet, regGet, hk]
    rw [bits_smapGet_smapSet _ _ _ hr, bits_setBits_other _ _ _ _ _ _ hbits, bits_smapGet_congr _ _ hr]
  · exact congrArg (bits · g.hi g.lo) (smapGet_set_other d.regs _ _ _ hk)

/-! ### What an access leaves alone -/

/-- A local address outside the area of Nutmeg records (R420). -/
def OutsideRecords (d : Dev) (a : Nat) : Prop :=
  a < fget d nutCfgBase 0 * 2 ^ 26 ∨ fget d nutCfgBase 0 * 2 ^ 26 + 2 ^ 26 ≤ a

theorem outsideRecords_of_logFree {d : Dev} {a : Nat} (h : logFree d a = true) : OutsideRecords d a := by
  simp only [logFree, Bool.and_eq_true, decide_eq_true_eq] at h
  exact h.1

/-- From `d` to `e` no more than counts, notes and records: the module's identity and record area, every byte outside that
area, the plan, the commands in flight and the shards are as before. -/
structure Quiet (d e : Dev) : Prop where
  own : ownId e = ownId d
  area : fget e nutCfgBase 0 = fget d nutCfgBase 0
  mem : ∀ a, OutsideRecords d a → smapGet e.mem a memUnlisted = smapGet d.mem a memUnlisted
  plan : e.steps.plan = d.steps.plan
  taken : e.eng.taken = d.eng.taken
  shards : e.shards = d.shards

namespace Quiet

theorem refl (d : Dev) : Quiet d d := ⟨rfl, rfl, fun _ _ => rfl, rfl, rfl, rfl⟩

theorem outsideRecords {d e : Dev} (h : Quiet d e) {a : Nat} (ha : OutsideRecords d a) : OutsideRecords e a := by
  rwa [OutsideRecords, h.area]

theorem trans {a b c : Dev} (h : Quiet a b) (k : Quiet b c) : Quiet a c where
  own := k.own.trans h.own
  area := k.area.trans h.area
  mem x hx := (k.mem x (h.outsideRecords hx)).trans (h.mem x hx)
  plan := k.plan.trans h.plan
  taken := k.taken.trans h.taken
  shards := k.shards.trans h.shards

/-- Addresses decode as before. -/
theorem localAddr {d e : Dev} (h : Quiet d e) (a : Nat) : localAddr e a = Machine.localAddr d a := by
  rw [Machine.localAddr, Machine.localAddr, h.own]

theorem noSide {d e : Dev} (h : Quiet d e) {a : Nat} (hs : NoSide d a) : NoSide e a := fun c k => by
  rw [h.localAddr]
  exact hs c k

/-- What changes neither registers, memory, plan, commands nor shards. -/
theorem of_eq {d e : Dev} (hr : e.regs = d.regs) (hm : e.mem = d.mem) (hp : e.steps.plan = d.steps.plan)
    (ht : e.eng.taken = d.eng.taken) (hs : e.shards = d.shards) : Quiet d e :=
  ⟨fget_congr hr _ _, fget_congr hr _ _, fun _ _ => by rw [hm], hp, ht, hs⟩

/-- What notes and tells, and writes no byte. -/
theorem of_noted {d e : Dev} (h : Noted d e) (hm : e.mem = d.mem) : Quiet d e where
  own := noted_fget h blCfgDevId 0 (by decide) nofun nofun nofun
  area := noted_fget h nutCfgBase 0 (by decide) nofun nofun nofun
  mem _ _ := by rw [hm]
  plan := congrArg Steps.plan (noted_steps h)
  taken := noted_taken h
  shards := by rw [h.1]

theorem fset {d : Dev} {f : Field} {i v : Nat} (hown : fget (Machine.fset d f i v) blCfgDevId 0 = fget d blCfgDevId 0)
    (harea : fget (Machine.fset d f i v) nutCfgBase 0 = fget d nutCfgBase 0) : Quiet d (Machine.fset d f i v) :=
  ⟨hown, harea, fun _ _ => rfl, rfl, rfl, rfl⟩

/-- A count of a unit that its register has. -/
theorem fsat {f : Field} {i : Nat} (d : Dev) (n : Nat) (hi : i < 2 ^ 20) (hb : f.reg ≠ .blCfg) (hn : f.reg ≠ .nutCfg) :
    Quiet d (Machine.fsat d f i n) :=
  Quiet.fset (fget_fset_other d f blCfgDevId i 0 _ hi (by decide) (.inl fun h => hb (reg_ctorIdx_inj h).symm))
    (fget_fset_other d f nutCfgBase i 0 _ hi (by decide) (.inl fun h => hn (reg_ctorIdx_inj h).symm))

/-- A count of MEM_PC_ECC, also of a pseudo-channel beyond the last: the counts lie above the bits of the module's identity
and of the record area, and those reset to 0. -/
theorem fsat_memPcEcc {f : Field} (d : Dev) (c n : Nat) (hf : f.reg = .memPcEcc) (hlo : 14 ≤ f.lo) :
    Quiet d (Machine.fsat d f c n) := by
  refine Quiet.fset (fget_fset_disjoint d _ (.inl hlo) fun hk => ?_) (fget_fset_disjoint d _ (.inl hlo) fun hk => ?_)
  · rw [hf] at hk ⊢
    rw [unit_of_regKey hk]
    decide
  · rw [hf] at hk ⊢
    rw [unit_of_regKey hk]
    decide

end Quiet

/-! ### Nutmeg records -/

theorem sendVector_mem (d : Dev) (p v : Nat) : (sendVector d p v).mem = d.mem := by
  unfold sendVector
  split
  · rfl
  · split <;> rfl

theorem evtSetOne_mem (d : Dev) (p k : Nat) : (evtSetOne d p k).mem = d.mem := by
  unfold evtSetOne
  extract_lets s d1
  split
  · exact sendVector_mem d1 p 0
  · rfl

theorem evtSet_quiet (d : Dev) (k : Nat) : Quiet d (evtSet d k) :=
  Quiet.of_noted (evtSet_noted (noted_refl d)) ((evtSetOne_mem _ 1 k).trans (evtSetOne_mem d 0 k))

theorem nutStatus_quiet {f : Field} (d : Dev) (v : Nat) (hf : f.reg = .nutStatus) : Quiet d (fset d f 0 v) :=
  Quiet.of_noted (noted_fset (noted_refl d) (by decide) (.inl hf)) rfl

/-- A record lies in the record area. -/
theorem nutWrite_quiet (d : Dev) (r : NutRec) : Quiet d (nutWrite d r) := by
  have hregs : (nutWrite d r).regs = d.regs := logWrite_regs d _ 256 _
  refine ⟨fget_congr hregs _ _, fget_congr hregs _ _, fun a ha => ?_, ?_, ?_, ?_⟩
  · refine (logWrite_other ?_).1
    have hslot := Nat.mod_lt r.slot (Nat.two_pow_pos 18)
    unfold nutAddr
    obtain ha | ha := ha
    · omega
    · omega
  · exact congrArg Steps.plan (logWrite_steps d _ 256 _)
  · exact congrArg Engine.taken (logWrite_eng d _ 256 _)
  · exact logWrite_shards d _ 256 _

/-- What the records are kept in beside the area: no register, no memory. -/
theorem recs_quiet (d : Dev) (x : Records) : Quiet d { d with recs := x } := Quiet.of_eq rfl rfl rfl rfl rfl

theorem seqStore_quiet (d : Dev) (n : Nat) : Quiet d { d with nv := { d.nv with seqStore := n } } :=
  Quiet.of_eq rfl rfl rfl rfl rfl

theorem nutOpen_quiet (d : Dev) (e : NutEvent) : Quiet d (nutOpen d e) := by
  unfold nutOpen
  extract_lets seq pin slot rec0 kept next q1 d1 q2 d1' d2 d3 used d5 d4
  have h1 : Quiet d d1 := (recs_quiet d _).trans (nutWrite_quiet _ rec0)
  clear_value d1
  have h1' : Quiet d d1' := by
    dsimp only [d1']
    split
    · exact h1.trans (seqStore_quiet d1 _)
    · exact h1
  have h2 : Quiet d d2 := h1'.trans (nutStatus_quiet d1' _ rfl)
  have h3 : Quiet d d3 := by
    dsimp only [d3]
    split
    · exact h2.trans (nutStatus_quiet d2 _ rfl)
    · exact h2
  have h5 : Quiet d d5 := h3.trans (nutStatus_quiet d3 _ rfl)
  have h4 : Quiet d d4 := by
    dsimp only [d4]
    split
    · split
      · exact (h5.trans (nutStatus_quiet d5 _ rfl)).trans (evtSet_quiet _ 10)
      · exact h5
    · exact h3
  split
  · exact h4.trans (evtSet_quiet d4 9)
  · exact h4

theorem nutCount_quiet (d : Dev) : Quiet d (nutCount d) := by
  unfold nutCount
  split <;> exact recs_quiet d _

theorem nutSummarise_quiet (d : Dev) : Quiet d (nutSummarise d) := by
  unfold nutSummarise
  split
  · exact Quiet.refl d
  · exact (recs_quiet d _).trans (nutOpen_quiet _ _)

theorem nutLose_quiet (d : Dev) : Quiet d (nutLose d) := (recs_quiet d _).trans (nutStatus_quiet _ _ rfl)

theorem nutRecord_quiet (d : Dev) (e : NutEvent) : Quiet d (nutRecord d e) := by
  unfold nutRecord
  split
  · exact (recs_quiet d _).trans (nutWrite_quiet _ _)
  · split
    · exact ((nutCount_quiet d).trans (nutSummarise_quiet _)).trans (nutOpen_quiet _ e)
    · exact nutLose_quiet d

theorem nutmeg_quiet (d : Dev) (e : NutEvent) : Quiet d (nutmeg d e) := by
  unfold nutmeg
  split
  · exact nutRecord_quiet d e
  · split
    · exact recs_quiet d _
    · exact nutLose_quiet d

/-! ### Errors that an access meets -/

/-- What the place of address `a` keeps to: two dies, layers of 2^31 bytes, 64 cores, and peers from their windows on. -/
def Region.Fits (a : Nat) (r : Region) : Prop :=
  match r with
  | .layer die _ off => die < 2 ∧ off < 2 ^ 31
  | .scratch c _ => c < 64
  | .side c _ => c < 64
  | .peer _ _ => 0x6000000000000000 ≤ a
  | _ => True

theorem fits_ite {a : Nat} {r q : Region} {c : Prop} [Decidable c] (hr : c → r.Fits a) (hq : ¬ c → q.Fits a) :
    (if c then r else q).Fits a := by
  by_cases h : c
  · rw [if_pos h]
    exact hr h
  · rw [if_neg h]
    exact hq h

theorem layerOf_fits (a o : Nat) : (layerOf o).Fits a := ⟨Nat.mod_lt _ (by decide), Nat.mod_lt _ (by decide)⟩

/-- In the order in which an address is decoded: DRAM, layers, the two areas of a core, hosts and peers. -/
theorem regionOf_fits (a : Nat) : (regionOf a).Fits a := by
  have hcore : a < 0x0002000040000000 → (a - 0x0002000000000000) / 2 ^ 24 < 64 := by omega
  simp only [regionOf]
  generalize (a - 0x0002000000000000) / 2 ^ 24 = c at hcore ⊢
  generalize (a - 0x0002000000000000) % 2 ^ 24 = o
  refine fits_ite (fun _ => trivial) fun _ => ?_
  refine fits_ite (fun _ => layerOf_fits a _) fun _ => ?_
  refine fits_ite (fun h => ?_) fun _ => ?_
  · exact fits_ite (fun _ => hcore h.2) fun _ => fits_ite (fun _ => hcore h.2) fun _ => trivial
  · exact fits_ite (fun _ => trivial) fun _ => fits_ite (fun _ => trivial) fun _ => fits_ite (fun h => h.1) fun _ => trivial

theorem fits_of_regionOf {a : Nat} {r : Region} (h : regionOf a = r) : r.Fits a := h ▸ regionOf_fits a

theorem portOf_lt {die k off h : Nat} (hdie : die < 2) (hoff : off < 2 ^ 31) (hh : h < 2) : portOf die k off h < 2 ^ 20 := by
  unfold portOf layerArray layerCore
  split <;> omega

theorem errAdd_quiet (d : Dev) (kind unit : Nat) : Quiet d (errAdd d kind unit) := recs_quiet d _

theorem noteDram_quiet (d : Dev) (a : Nat) (unc : Bool) : Quiet d (noteDram d a unc) := by
  cases unc with
  | true =>
    have hcount := Quiet.fsat_memPcEcc (f := memPcEccUncorrectable) d (physPc d a) 1 rfl (by decide)
    exact (hcount.trans (errAdd_quiet _ _ _)).trans (nutmeg_quiet _ _)
  | false =>
    have hcount := Quiet.fsat_memPcEcc (f := memPcEccCorrected) d (physPc d a) 1 rfl (by decide)
    exact hcount.trans (errAdd_quiet _ _ _)

theorem noteCore_quiet (d : Dev) {c : Nat} (side unc : Bool) (hc : c < 64) : Quiet d (noteCore d c side unc) := by
  have hc' : c < 2 ^ 20 := by omega
  have hadd := errAdd_quiet d (if unc then 3 else 2) c
  refine hadd.trans ?_
  unfold noteCore
  generalize errAdd d (if unc then 3 else 2) c = e
  dsimp only
  split
  · exact Quiet.refl e
  · split
    · exact Quiet.fsat (f := cardSideEccUncorrectable) e 1 hc' nofun nofun
    · exact Quiet.fsat (f := cardSideEccCorrected) e 1 hc' nofun nofun

theorem laneHits_quiet (d : Dev) (xs : List (Nat × Nat × Nat)) :
    Quiet d { d with recs := { d.recs with laneHits := xs } } := recs_quiet d _

theorem laneHit_quiet (d : Dev) {port : Nat} (off row b : Nat) (hp : port < 2 ^ 20) : Quiet d (laneHit d port off row b) := by
  refine (laneHits_quiet d (d.recs.laneHits ++ [(laneId port (off / 8 % 64) b, row, d.time)])).trans ?_
  simp only [laneHit]
  split
  · exact (Quiet.fsat (f := lyrPortEccLaneAttr) _ 1 hp nofun nofun).trans (errAdd_quiet _ 9 _)
  · exact Quiet.refl _

/-- The half-port that serves a read is one of two. -/
theorem takeFree_one_lt (d : Dev) : (takeFree d 1).1 < 2 := (Config.free 1 d.free).isLt

theorem takeFree_quiet (d : Dev) (w : Nat) : Quiet d (takeFree d w).2 := Quiet.of_eq rfl rfl rfl rfl rfl

/-- A read of a layer word through one of its ports. -/
theorem notePort_quiet (d : Dev) {die k off h : Nat} (pattern : Nat) (unc : Bool) (hp : portOf die k off h < 2 ^ 20) :
    Quiet d (if unc then errAdd (fsat d lyrPortEccUncorrectable (portOf die k off h) 1) 5 (portOf die k off h)
      else laneHit (errAdd (errAdd (fsat d lyrPortEccCorrected (portOf die k off h) 1) 4 (portOf die k off h)) 6
        (layerRow die k off)) (portOf die k off h) off (layerRow die k off) (wordBit pattern)) := by
  split
  · exact (Quiet.fsat (f := lyrPortEccUncorrectable) d 1 hp nofun nofun).trans (errAdd_quiet _ _ _)
  · have hcount := Quiet.fsat (f := lyrPortEccCorrected) d 1 hp nofun nofun
    exact ((hcount.trans (errAdd_quiet _ _ _)).trans (errAdd_quiet _ _ _)).trans (laneHit_quiet _ _ _ _ hp)

theorem noteLayer_quiet (d : Dev) {die off : Nat} (k pattern : Nat) (unc : Bool) (hdie : die < 2) (hoff : off < 2 ^ 31) :
    Quiet d (noteLayer d die k off pattern unc) := by
  by_cases hk : k = 1
  · simp only [noteLayer, if_pos hk]
    exact notePort_quiet d pattern unc (portOf_lt hdie hoff (by decide))
  · simp only [noteLayer, if_neg hk]
    exact (takeFree_quiet d 1).trans (notePort_quiet _ pattern unc (portOf_lt hdie hoff (takeFree_one_lt d)))

theorem noteUnit_quiet (d : Dev) (a : Nat) : Quiet d (noteUnit d a) := by
  unfold noteUnit
  split
  · exact noteDram_quiet d a _
  next h =>
    obtain ⟨hdie, hoff⟩ := fits_of_regionOf h
    exact noteLayer_quiet d _ _ _ hdie hoff
  next h => exact noteCore_quiet d _ _ (fits_of_regionOf h)
  next h => exact noteCore_quiet d _ _ (fits_of_regionOf h)
  · exact Quiet.refl d

theorem ite_quiet {d a b : Dev} {c : Prop} [Decidable c] (ha : Quiet d a) (hb : Quiet d b) : Quiet d (if c then a else b) := by
  split
  · exact ha
  · exact hb

/-- A step that is quiet from every device stays so over a list. -/
theorem foldl_quiet {α : Type} {f : Dev → α → Dev} (d : Dev) (xs : List α) (h : ∀ e, ∀ x ∈ xs, Quiet e (f e x)) :
    Quiet d (xs.foldl f d) :=
  List.foldlRecOn xs f (Quiet.refl d) fun e he x hx => he.trans (h e x hx)

theorem portServes_lt {l n p : Nat} (h : portServes l n p = true) : p < 2 ^ 20 := by
  unfold portServes at h
  obtain ⟨i, -, hi⟩ := List.any_eq_true.mp h
  split at hi
  next hr =>
    obtain ⟨hdie, hoff⟩ := fits_of_regionOf hr
    rw [Bool.or_eq_true, beq_iff_eq, beq_iff_eq] at hi
    obtain rfl | rfl := hi <;> exact portOf_lt hdie hoff (by decide)
  · cases hi

theorem env_quiet (d : Dev) (x : Env) : Quiet d { d with env := x } := Quiet.of_eq rfl rfl rfl rfl rfl

theorem acc_quiet (d : Dev) (x : List (Nat × Nat)) : Quiet d { d with acc := x } := Quiet.of_eq rfl rfl rfl rfl rfl

theorem noteVotes_quiet (d : Dev) (l n : Nat) : Quiet d (noteVotes d l n) := by
  refine (env_quiet d _).trans (foldl_quiet _ _ fun e p hp => ?_)
  exact Quiet.fsat (f := lyrPortEccCorrected) e 1 (portServes_lt (List.mem_filter.mp hp).2) nofun nofun

theorem noteAccess_quiet (d : Dev) (a n : Nat) : Quiet d (noteAccess d a n) :=
  (acc_quiet d _).trans (noteVotes_quiet _ (localAddr d a) n)

theorem noteRead_quiet (d : Dev) (a n : Nat) : Quiet d (noteRead d a n) :=
  (noteAccess_quiet d a n).trans (foldl_quiet _ _ fun e m _ => noteUnit_quiet e m)

theorem markClear_quiet (d : Dev) (a : Nat) : Quiet d (markClear d a) := Quiet.of_eq rfl rfl rfl rfl rfl

theorem openWrite_quiet (d : Dev) (a n : Nat) : Quiet d (openWrite d a n) := by
  refine foldl_quiet _ _ fun e m _ => Quiet.trans ?_ (markClear_quiet _ m)
  exact ite_quiet (Quiet.refl e) (noteUnit_quiet e m)

theorem touchAcc_quiet (d : Dev) (g : Option Nat) : Quiet d (touchAcc d g) := by
  cases g with
  | some g => exact Quiet.of_eq rfl rfl rfl rfl rfl
  | none => exact Quiet.of_eq rfl rfl rfl rfl rfl

/-! ### Stores -/

/-- Below the windows of peers an address is its own local address. -/
theorem localAddr_low (d : Dev) {a : Nat} (h : a < 0x6000000000000000) : localAddr d a = a := by
  unfold localAddr
  split
  next hr => exact absurd (fits_of_regionOf hr) (Nat.not_le.mpr h)
  · rfl

theorem memWrite_keeps (d : Dev) (a : Nat) (bs : List Byte) : memWrite d a bs = { d with mem := (memWrite d a bs).mem } := by
  induction bs generalizing d a with
  | nil => rfl
  | cons b rest ih => exact ih (memSet d a b) (a + 1)

section
variable {d : Dev} {a : Nat} {bs : List Byte} (hlow : a + bs.length ≤ 0x6000000000000000)
include hlow

theorem smapGet_memWrite_outside {l : Nat} (hl : l < a ∨ a + bs.length ≤ l) :
    smapGet (memWrite d a bs).mem l memUnlisted = smapGet d.mem l memUnlisted := by
  induction bs generalizing d a with
  | nil => rfl
  | cons b rest ih =>
    rw [List.length_cons] at hlow hl
    have hne : l ≠ localAddr d a := by
      rw [localAddr_low d (by omega)]
      omega
    exact (ih (d := memSet d a b) (by omega) (by omega)).trans (smapGet_set_other d.mem _ _ b hne)

theorem smapGet_memWrite_inside {k : Nat} (hk : k < bs.length) :
    smapGet (memWrite d a bs).mem (a + k) memUnlisted = bs[k] := by
  induction bs generalizing d a k with
  | nil => cases hk
  | cons b rest ih =>
    rw [List.length_cons] at hlow hk
    cases k with
    | zero =>
      have hrest := smapGet_memWrite_outside (d := memSet d a b) (a := a + 1) (bs := rest) (l := a) (by omega) (by omega)
      have hset : smapGet (memSet d a b).mem (localAddr d a) memUnlisted = b := smapGet_set_self d.mem _ b
      rw [localAddr_low d (by omega)] at hset
      exact hrest.trans hset
    | succ k =>
      have hrest := ih (d := memSet d a b) (a := a + 1) (k := k) (by omega) (by omega)
      rw [Nat.add_assoc, Nat.add_comm 1] at hrest
      exact hrest

end

theorem sideWritten_noSide {d : Dev} {a n : Nat} (h : NoSide d a) : sideWritten d a n = d := by
  unfold sideWritten
  split
  next c off hr => exact absurd hr (h c off)
  · rfl

/-- Outside side memory a store is the write of its bytes after the errors met are counted; a store to a peer is noted. -/
theorem store_noSide {d : Dev} {a : Nat} {bs : List Byte} (h : NoSide d a) :
    ∃ w, store d a bs = { openWrite d a bs.length with mem := (memWrite (openWrite d a bs.length) a bs).mem, wrOut := w } := by
  have hs : NoSide (openWrite d a bs.length) a := (openWrite_quiet d a bs.length).noSide h
  unfold store
  rw [sideWritten_noSide hs, memWrite_keeps]
  dsimp only
  split
  · exact ⟨_, rfl⟩
  · exact ⟨_, rfl⟩

/-- `e` is `d` with the bytes `bs` at `a`, and no more noted than what an access notes. -/
structure Wrote (d e : Dev) (a : Nat) (bs : List Byte) : Prop where
  own : ownId e = ownId d
  bytes : ∀ k (h : k < bs.length), smapGet e.mem (a + k) memUnlisted = bs[k]
  others : ∀ l, OutsideRecords d l → l < a ∨ a + bs.length ≤ l → smapGet e.mem l memUnlisted = smapGet d.mem l memUnlisted
  plan : e.steps.plan = d.steps.plan
  taken : e.eng.taken = d.eng.taken
  shards : e.shards = d.shards

theorem store_wrote {d : Dev} {a : Nat} {bs : List Byte} (hlow : a + bs.length ≤ 0x6000000000000000) (hs : NoSide d a) :
    Wrote d (store d a bs) a bs := by
  obtain ⟨w, hw⟩ := store_noSide (bs := bs) hs
  have hq := openWrite_quiet d a bs.length
  rw [hw]
  exact ⟨hq.own, fun k hk => smapGet_memWrite_inside hlow hk,
    fun l hl hout => (smapGet_memWrite_outside hlow hout).trans (hq.mem l hl), hq.plan, hq.taken, hq.shards⟩

/-- What is noted before a store may as well count to it. -/
theorem Wrote.of_quiet {d d1 e : Dev} {a : Nat} {bs : List Byte} (hq : Quiet d d1) (h : Wrote d1 e a bs) : Wrote d e a bs where
  own := h.own.trans hq.own
  bytes := h.bytes
  others l hl hout := (h.others l (hq.outsideRecords hl) hout).trans (hq.mem l hl)
  plan := h.plan.trans hq.plan
  taken := h.taken.trans hq.taken
  shards := h.shards.trans hq.shards

section
variable {d e : Dev} {a : Nat} {bs : List Byte} (h : Wrote d e a bs)
include h

theorem Wrote.localAddr (x : Nat) : localAddr e x = Machine.localAddr d x := by
  rw [Machine.localAddr, Machine.localAddr, h.own]

theorem Wrote.sameButLogs : SameButLogs d e a bs.length := fun x hfree hout => by
  rw [memGet, h.localAddr]
  exact h.others _ (outsideRecords_of_logFree hfree) hout

theorem Wrote.memGet {k : Nat} (hlow : a + bs.length ≤ 0x6000000000000000) (hk : k < bs.length) : memGet e (a + k) = bs[k] := by
  rw [Machine.memGet, localAddr_low e (by omega)]
  exact h.bytes k hk

end

end Sys2Proof.Machine
end

