-- ==== Sys2Proof/Proofs/PlanEntries.lean ====
section
/-! PROOF. The entries of the memory plan: what a change of one entry leaves of the others, the copy of an entry's bytes, and
the rows of copy-out and restore (R267, R230). -/
namespace Sys2Proof.Machine

/-! ### Entries by index -/

section
variable {α : Type} {p q : α → Bool} {f : α → α}

theorem find?_listUpdWhere_self (hp : ∀ x, p (f x) = p x) (xs : List α) : (listUpdWhere xs p f).find? p = (xs.find? p).map f := by
  induction xs with
  | nil => rfl
  | cons x rest ih => cases h : p x <;> simp [listUpdWhere, h, hp, ih]

theorem find?_listUpdWhere_other (hq : ∀ x, q (f x) = q x) (hpq : ∀ x, p x = true → q x = false) (xs : List α) :
    (listUpdWhere xs p f).find? q = xs.find? q := by
  induction xs with
  | nil => rfl
  | cons x rest ih =>
    cases h : p x with
    | true => simp [listUpdWhere, h, hq, hpq x h]
    | false => simp [listUpdWhere, h, List.find?_cons, ih]

end

/-- A change of a plan entry that leaves its index. -/
def KeepsIndex (f : PlanRun → PlanRun) : Prop := ∀ q, (f q).index = q.index

theorem findPlan_updPlan_self (d : Dev) (i : Nat) {f : PlanRun → PlanRun} (hf : KeepsIndex f) :
    findPlan (updPlan d i f) i = (findPlan d i).map f :=
  find?_listUpdWhere_self (fun q => congrArg (· == i) (hf q)) d.steps.plan

theorem findPlan_updPlan_other (d : Dev) {i j : Nat} {f : PlanRun → PlanRun} (hf : KeepsIndex f) (h : j ≠ i) :
    findPlan (updPlan d i f) j = findPlan d j := by
  refine find?_listUpdWhere_other (fun q => congrArg (· == j) (hf q)) (fun q hq => ?_) d.steps.plan
  rw [beq_iff_eq] at hq
  rw [hq]
  exact beq_false_of_ne h.symm

/-- The entry that a change finds is the changed one. -/
theorem findPlan_updPlan_of_some {d : Dev} {i : Nat} {p : PlanRun} (h : findPlan d i = some p) {f : PlanRun → PlanRun}
    (hf : KeepsIndex f) : findPlan (updPlan d i f) i = some (f p) := by
  rw [findPlan_updPlan_self d i hf, h, Option.map_some]

theorem findPlan_congr {d e : Dev} (h : e.steps.plan = d.steps.plan) (i : Nat) : findPlan e i = findPlan d i := by
  rw [findPlan, findPlan, h]

theorem index_of_findPlan {d : Dev} {i : Nat} {p : PlanRun} (h : findPlan d i = some p) : p.index = i :=
  by
  have hi := List.find?_some (p := fun p : PlanRun => p.index == i) h
  rwa [beq_iff_eq] at hi

/-! ### A place of the restore space -/

/-- What becomes of an entry whose place another takes: off-loaded as before its restore, or discarded. -/
def PlanRun.leave (q : PlanRun) : PlanRun := { q with phase := if q.placed = 4 then .discarded else .away }

theorem leave_keepsIndex : KeepsIndex PlanRun.leave := fun _ => rfl

theorem leave_leave (q : PlanRun) : q.leave.leave = q.leave := rfl

/-- An entry takes the place at `a` of the restore space in phase `ph`. -/
def PlanRun.arrive (a : Nat) (ph : PlanPhase) (q : PlanRun) : PlanRun := { q with phase := ph, restoreAt := a }

theorem arrive_keepsIndex (a : Nat) (ph : PlanPhase) : KeepsIndex (PlanRun.arrive a ph) := fun _ => rfl

/-- `e` differs from `d` in the plan alone. -/
def OnlyPlan (d e : Dev) : Prop := e = { d with steps := { d.steps with plan := e.steps.plan } }

theorem onlyPlan_refl (d : Dev) : OnlyPlan d d := rfl

theorem onlyPlan_updPlan {d e : Dev} (h : OnlyPlan d e) (i : Nat) (f : PlanRun → PlanRun) : OnlyPlan d (updPlan e i f) := by
  rw [h]
  rfl

/-- The entries of a list leave their places. -/
def leaveAll (d : Dev) (qs : List PlanRun) : Dev := qs.foldl (fun d q => updPlan d q.index PlanRun.leave) d

theorem onlyPlan_leaveAll {d e : Dev} (h : OnlyPlan d e) (qs : List PlanRun) : OnlyPlan d (leaveAll e qs) := by
  induction qs generalizing e with
  | nil => exact h
  | cons q qs ih => exact ih (onlyPlan_updPlan h q.index PlanRun.leave)

theorem findPlan_leaveAll_other (d : Dev) {qs : List PlanRun} {j : Nat} (h : ∀ q ∈ qs, q.index ≠ j) :
    findPlan (leaveAll d qs) j = findPlan d j := by
  induction qs generalizing d with
  | nil => rfl
  | cons q qs ih =>
    obtain ⟨hq, hqs⟩ := List.forall_mem_cons.mp h
    exact (ih (updPlan d q.index PlanRun.leave) hqs).trans (findPlan_updPlan_other d leave_keepsIndex hq.symm)

/-- To leave a second time changes nothing more, so that an entry listed twice does no harm. -/
theorem findPlan_leaveAll_of_left {d : Dev} {j : Nat} {q : PlanRun} (h : findPlan d j = some q.leave) (qs : List PlanRun) :
    findPlan (leaveAll d qs) j = some q.leave := by
  induction qs generalizing d with
  | nil => exact h
  | cons x qs ih =>
    refine ih ?_
    by_cases hx : j = x.index
    · rw [hx] at h ⊢
      exact (findPlan_updPlan_of_some h leave_keepsIndex).trans (congrArg some (leave_leave q))
    · exact (findPlan_updPlan_other d leave_keepsIndex hx).trans h

theorem findPlan_leaveAll_mem {d : Dev} {qs : List PlanRun} {q : PlanRun} (hq : q ∈ qs) (h : findPlan d q.index = some q) :
    findPlan (leaveAll d qs) q.index = some q.leave := by
  induction qs generalizing d with
  | nil => cases hq
  | cons x qs ih =>
    by_cases hx : q.index = x.index
    · refine findPlan_leaveAll_of_left ?_ qs
      rw [hx] at h ⊢
      exact findPlan_updPlan_of_some h leave_keepsIndex
    · have hmem : q ∈ qs := (List.mem_cons.mp hq).resolve_left fun e => hx (congrArg PlanRun.index e)
      exact ih hmem ((findPlan_updPlan_other d leave_keepsIndex hx).trans h)

section
variable {d : Dev} {i : Nat} {p : PlanRun} (hp : findPlan d i = some p) (a : Nat) (ph : PlanPhase)
include hp

theorem holdersOf_index_ne {q : PlanRun} (hq : q ∈ holdersOf d p a) : q.index ≠ i := by
  have hne := (List.mem_filter.mp hq).2
  simp only [Bool.and_eq_true, bne_iff_ne] at hne
  obtain ⟨⟨⟨-, hne⟩, -⟩, -⟩ := hne
  rwa [index_of_findPlan hp] at hne

theorem takeSpace_eq : takeSpace d p a ph = updPlan (leaveAll d (holdersOf d p a)) i (PlanRun.arrive a ph) := by
  rw [← index_of_findPlan hp]
  rfl

theorem onlyPlan_takeSpace : OnlyPlan d (takeSpace d p a ph) := by
  rw [takeSpace_eq hp]
  exact onlyPlan_updPlan (onlyPlan_leaveAll (onlyPlan_refl d) _) i _

theorem findPlan_takeSpace_self : findPlan (takeSpace d p a ph) i = some (p.arrive a ph) := by
  rw [takeSpace_eq hp]
  have hstays := findPlan_leaveAll_other d fun q hq => holdersOf_index_ne hp a hq
  exact findPlan_updPlan_of_some (hstays.trans hp) (arrive_keepsIndex a ph)

theorem findPlan_takeSpace_holder {q : PlanRun} (hq : q ∈ holdersOf d p a) (h : findPlan d q.index = some q) :
    findPlan (takeSpace d p a ph) q.index = some q.leave := by
  rw [takeSpace_eq hp]
  exact (findPlan_updPlan_other _ (arrive_keepsIndex a ph) (holdersOf_index_ne hp a hq)).trans (findPlan_leaveAll_mem hq h)

theorem findPlan_takeSpace_other {j : Nat} (hj : j ≠ i) (h : ∀ q ∈ holdersOf d p a, q.index ≠ j) :
    findPlan (takeSpace d p a ph) j = findPlan d j := by
  rw [takeSpace_eq hp]
  exact (findPlan_updPlan_other _ (arrive_keepsIndex a ph) hj).trans (findPlan_leaveAll_other d h)

end

/-! ### The copy of an entry's bytes -/

/-- The copy of `n` bytes for entry `i`: they arrive, every byte outside the target and the logs stays, and so do the other
entries, the commands in flight and the shards. -/
def Moved (d e : Dev) (i src dst n : Nat) : Prop :=
  (∀ k, k < n → memGet e (dst + k) = memGet d (src + k)) ∧ SameButLogs d e dst n ∧
  (∀ j, j ≠ i → findPlan e j = findPlan d j) ∧ e.eng.taken = d.eng.taken ∧ e.shards = d.shards

/-- What a copy does to the device: its read is noted and counts to the epoch of group `g`, and the bytes are stored. -/
def copied (d : Dev) (g src dst n : Nat) : Dev := planCopy (touchAcc (noteRead d src n) (some g)) src dst n

section
variable {d : Dev} {src dst n : Nat} (g : Nat)

theorem copied_quiet (d : Dev) (g src n : Nat) : Quiet d (touchAcc (noteRead d src n) (some g)) :=
  (noteRead_quiet d src n).trans (touchAcc_quiet _ _)

variable (hlow : dst + n ≤ 0x6000000000000000) (hs : NoSide d dst)
include hlow hs

theorem copied_wrote : Wrote d (copied d g src dst n) dst (memRead (touchAcc (noteRead d src n) (some g)) src n) := by
  have hq := copied_quiet d g src n
  refine (store_wrote ?_ (hq.noSide hs)).of_quiet hq
  rwa [memRead, List.length_map, List.length_range]

theorem findPlan_copied (j : Nat) : findPlan (copied d g src dst n) j = findPlan d j :=
  findPlan_congr (copied_wrote g hlow hs).plan j

/-- The bytes of a source outside the logs are those that stood there before its read was noted. -/
theorem memGet_copied (hfree : ∀ k, k < n → logFree d (localAddr d (src + k)) = true) {k : Nat} (hk : k < n) :
    memGet (copied d g src dst n) (dst + k) = memGet d (src + k) := by
  have hq := copied_quiet d g src n
  have hlen : (memRead (touchAcc (noteRead d src n) (some g)) src n).length = n := by
    rw [memRead, List.length_map, List.length_range]
  have hread := (copied_wrote (src := src) g hlow hs).memGet (by rwa [hlen]) (by rwa [hlen])
  rw [hread]
  simp only [memRead, List.getElem_map, List.getElem_range]
  rw [memGet, hq.localAddr]
  exact hq.mem _ (outsideRecords_of_logFree (hfree k hk))

theorem moved_copied (hfree : ∀ k, k < n → logFree d (localAddr d (src + k)) = true) {f : PlanRun → PlanRun}
    (hf : KeepsIndex f) (i : Nat) : Moved d (updPlan (copied d g src dst n) i f) i src dst n := by
  have hw := copied_wrote (src := src) g hlow hs
  have hsame := hw.sameButLogs
  rw [memRead, List.length_map, List.length_range] at hsame
  exact ⟨fun k hk => memGet_copied g hlow hs hfree hk, hsame,
    fun j hj => (findPlan_updPlan_other _ hf hj).trans (findPlan_copied g hlow hs j), hw.taken, hw.shards⟩

end

/-! ### The rows -/

section
variable {d : Dev} {i : Nat} {p : PlanRun} (hp : findPlan d i = some p)
include hp

theorem offloadStart_eq : offloadStart d i =
    if p.phase = .home ∧ (p.placed = 2 ∨ p.placed = 3) then updPlan d i (fun p => { p with phase := .copying }) else d := by
  simp only [offloadStart, hp]

theorem offloadDone_eq : offloadDone d i =
    if p.phase = .copying then updPlan (copied d p.group p.home p.areaAt p.size) i
      (fun q => { q with phase := .away, bad := (accessFails d p.home p.size false).map (·.info) }) else d := by
  simp only [offloadDone, hp, copied]

theorem restoreStart_eq : restoreStart d i =
    if p.phase = .away then (restoreSpace d p).elim d (takeSpace d p · .restoring) else d := by
  simp only [restoreStart, hp]
  cases restoreSpace d p <;> rfl

theorem restoreDone_eq : restoreDone d i =
    if p.phase = .restoring then updPlan (copied d p.group p.areaAt p.restoreAt p.size) i
      (fun q => { q with phase := .restored, bad := p.bad <|> (accessFails d p.areaAt p.size false).map (·.info) }) else d := by
  simp only [restoreDone, hp, copied]

end

/-- Of two places where a block may have failed the first that did. -/
theorem orElse_eq_ite {α : Type} [DecidableEq α] (x y : Option α) : (x <|> y) = if x = none then y else x := by
  cases x <;> rfl

/-- Settles O43, row by row: each does its work in its phase and nothing in any other. Where restored data is put and which
read entries give way is the model's reading of R267 (DEDUCED 38). -/
theorem planEntriesMoveOutAndBack : Obligations.PlanEntriesMoveOutAndBack := by
  intro s i p hp d others only plain moved bad
  have hout : Runs (.offloadCopyOut i) s (offloadStart d i) := act_runs _ s (offloadStart · i) rfl
  have hdone : Runs (.offloadCopyDone i) s (advance (offloadDone d i)) :=
    act_runs _ s (fun d => advance (offloadDone d i)) rfl
  have hback : Runs (.restoreStart i) s (restoreStart d i) := act_runs _ s (restoreStart · i) rfl
  have hend : Runs (.restoreComplete i) s (advance (restoreDone d i)) :=
    act_runs _ s (fun d => advance (restoreDone d i)) rfl
  rw [offloadStart_eq hp] at hout
  rw [offloadDone_eq hp] at hdone
  rw [restoreStart_eq hp] at hback
  rw [restoreDone_eq hp, orElse_eq_ite] at hend
  refine ⟨fun hph hpl => ?_, fun h => ?_, fun hph hlow hpl => ?_, fun hph => ?_, fun hph hsp => ?_, fun a hph hsp => ?_,
    fun hph => ?_, fun hph hlow hpl => ?_, fun hph => ?_⟩
  · rw [if_pos ⟨hph, hpl⟩] at hout
    have hf : KeepsIndex (fun p : PlanRun => { p with phase := .copying }) := fun _ => rfl
    exact ⟨_, hout, rfl, fun j hj => findPlan_updPlan_other d hf hj, findPlan_updPlan_of_some hp hf⟩
  · rwa [if_neg fun hn => h.elim (· hn.1) fun hne => hn.2.elim hne.1 hne.2] at hout
  · obtain ⟨hfree, hs⟩ := hpl
    rw [if_pos hph] at hdone
    have hf : KeepsIndex (fun q : PlanRun => { q with phase := .away, bad := bad p.home }) := fun _ => rfl
    have hstays := (findPlan_copied (src := p.home) p.group hlow hs i).trans hp
    exact ⟨_, hdone, moved_copied p.group hlow hs hfree hf i, findPlan_updPlan_of_some hstays hf⟩
  · rwa [if_neg hph] at hdone
  · rwa [if_pos hph, hsp] at hback
  · rw [if_pos hph, hsp] at hback
    exact ⟨_, hback, onlyPlan_takeSpace hp a _, findPlan_takeSpace_self hp a _,
      fun q hq h => findPlan_takeSpace_holder hp a _ hq h, fun j hj h => findPlan_takeSpace_other hp a _ hj h⟩
  · rwa [if_neg hph] at hback
  · obtain ⟨hfree, hs⟩ := hpl
    rw [if_pos hph] at hend
    have hf : KeepsIndex (fun q : PlanRun =>
      { q with phase := .restored, bad := if p.bad = none then bad p.areaAt else p.bad }) := fun _ => rfl
    have hstays := (findPlan_copied (src := p.areaAt) p.group hlow hs i).trans hp
    exact ⟨_, hend, moved_copied p.group hlow hs hfree hf i, findPlan_updPlan_of_some hstays hf⟩
  · rwa [if_neg hph] at hend

end Sys2Proof.Machine
end

