-- ==== Sys2Proof/Proofs/FennelLanding.lean ====
section
/-! PROOF. The landing of a Fennel transfer (R253) and the counts of rings: what the end of its command leaves of them, and a
device whose sparing table names a pseudo-channel beyond the last, where counting a corrected error moves the counts of a
ring. -/
namespace Sys2Proof.Machine

/-! ### Requests to peers -/

/-- The commands in flight, by ring and number. -/
def takenKeys (d : Dev) : List (Nat × Nat) := d.eng.taken.map (fun c => (c.ring, c.seq))

/-- From `d` to `e` the counts of every ring and the commands in flight stay, whatever the commands hold. -/
structure KeepsRings (d e : Dev) : Prop where
  counts : ∀ r, r < 16384 → regGet e .kringCounts r = regGet d .kringCounts r
  keys : takenKeys e = takenKeys d

namespace KeepsRings

theorem refl (d : Dev) : KeepsRings d d := ⟨fun _ _ => rfl, rfl⟩

theorem trans {a b c : Dev} (h : KeepsRings a b) (k : KeepsRings b c) : KeepsRings a c :=
  ⟨fun r hr => (k.counts r hr).trans (h.counts r hr), k.keys.trans h.keys⟩

theorem of_eq {d e : Dev} (hr : e.regs = d.regs) (he : e.eng.taken = d.eng.taken) : KeepsRings d e :=
  ⟨fun r _ => regGet_congr hr .kringCounts r, by rw [takenKeys, takenKeys, he]⟩

theorem ite {d a b : Dev} {c : Prop} [Decidable c] (ha : KeepsRings d a) (hb : KeepsRings d b) :
    KeepsRings d (if c then a else b) := by
  split
  · exact ha
  · exact hb

end KeepsRings

theorem map_listUpdWhere {α β : Type} {g : α → β} {f : α → α} (h : ∀ x, g (f x) = g x) (p : α → Bool) (xs : List α) :
    (listUpdWhere xs p f).map g = xs.map g := by
  induction xs with
  | nil => rfl
  | cons x rest ih => cases hp : p x <;> simp [listUpdWhere, hp, h, ih]

theorem updCmd_keepsRings (d : Dev) (r q : Nat) {f : Cmd → Cmd} (hf : ∀ c, ((f c).ring, (f c).seq) = (c.ring, c.seq)) :
    KeepsRings d (updCmd d r q f) := ⟨fun _ _ => rfl, map_listUpdWhere hf _ d.eng.taken⟩

theorem fab_keepsRings (d : Dev) (x : Fabric) : KeepsRings d { d with fab := x } := KeepsRings.of_eq rfl rfl

theorem transmit_keepsRings (d : Dev) (n : Nat) (m : Message) : KeepsRings d (transmit d n m) :=
  (fab_keepsRings d _).trans (KeepsRings.of_eq (emit_regs _ _) (congrArg Engine.taken (emit_eng _ _)))

theorem onLink_keepsRings (d : Dev) (n : Nat) (m : Message) : KeepsRings d (onLink d n m) := by
  unfold onLink
  exact KeepsRings.ite (transmit_keepsRings d n m) (fab_keepsRings d _)

theorem sendMsg_keepsRings (d : Dev) (dst : Nat) (p : Payload) : KeepsRings d (sendMsg d dst p).1 := by
  unfold sendMsg
  split
  · exact onLink_keepsRings d _ _
  · have herr : OnlyRegs d (fsat d blErrUnroutable 0 1) [(.blErr, 0)] :=
      onlyRegs_fsat (onlyRegs_refl d _) (by decide) (List.mem_singleton_self _)
    have heng : (fsat d blErrUnroutable 0 1).eng = d.eng := fsat_eng d blErrUnroutable 0 1
    exact ⟨fun r hr => herr.2 .kringCounts r (by omega) (by simp), by rw [takenKeys, takenKeys, heng]⟩

theorem failCmd_keepsRings (d : Dev) (r q tag status a n : Nat) : KeepsRings d (failCmd d r q tag status a n) := by
  have hblock : KeepsRings d (failedBlock d status a n).2 := by
    unfold failedBlock
    split
    · exact KeepsRings.refl d
    · exact KeepsRings.of_eq rfl rfl
  exact hblock.trans (updCmd_keepsRings _ r q fun _ => rfl)

theorem issueReq_keepsRings (d : Dev) (r q peer dest len : Nat) (mk : Nat → Payload) :
    KeepsRings d (issueReq d r q peer dest len mk) := by
  unfold issueReq
  extract_lets t f d1 d2
  have h1 : KeepsRings d d1 := KeepsRings.of_eq rfl rfl
  have h2 : KeepsRings d d2 := h1.trans (updCmd_keepsRings d1 r q fun _ => rfl)
  have h3 := h2.trans (sendMsg_keepsRings d2 peer (mk t))
  split
  next heq =>
    rw [heq] at h3
    exact h3
  next heq =>
    rw [heq] at h3
    exact (h3.trans (fab_keepsRings _ _)).trans (failCmd_keepsRings _ r q t _ dest len)

theorem flushWrites_keepsRings (d : Dev) (r q : Nat) : KeepsRings d (flushWrites d r q) := by
  have hpiece : ∀ (e : Dev) (ps : List (Nat × Nat)) (mk : Dev → Nat × Nat → Nat → Payload),
      KeepsRings e (ps.foldl (fun e p => issueReq e r q (peerPlace p.1).1 p.1 p.2 (mk e p)) e) := fun e ps mk =>
    List.foldlRecOn ps _ (KeepsRings.refl e) fun b hb p _ => hb.trans (issueReq_keepsRings b r q _ _ _ _)
  unfold flushWrites
  dsimp only
  refine KeepsRings.trans (List.foldlRecOn (mergeRanges d.wrOut) _ (KeepsRings.refl d) fun b hb x _ => hb.trans ?_)
    (KeepsRings.of_eq rfl rfl)
  exact hpiece b (msgPieces x.1 x.2) _

/-! ### The end of the only command in flight -/

/-- Commands that are over have nothing to go on with. -/
theorem advance_of_finished {d : Dev} (h : ∀ c ∈ d.eng.taken, c.phase = .finished) : advance d = d := by
  have htry : ∀ r q, tryCmd d r q = d := fun r q => by
    unfold tryCmd
    split
    · rfl
    next c hc =>
      have hp := h c (List.mem_of_find?_eq_some hc)
      simp [hp, hc]
  refine List.foldlRecOn (motive := fun e => e = d) _ _ rfl fun e he k _ => ?_
  rw [he]
  exact htry k.1 k.2

section
variable {d : Dev} {r q : Nat} (st info : Nat) (h : takenKeys d = [(r, q)])
include h

theorem taken_of_takenKeys : ∃ c, d.eng.taken = [c] ∧ isCmd r q c = true := by
  obtain ⟨c, hc, hkey⟩ := List.map_eq_singleton_iff.mp h
  rw [Prod.mk.injEq] at hkey
  exact ⟨c, hc, by simp [isCmd, hkey]⟩

/-- The only command in flight finishes: nothing is left to go on with, and the registers are as before. -/
theorem finishCmd_only : (finishCmd d r q st info).regs = d.regs ∧
    ∀ c ∈ (finishCmd d r q st info).eng.taken, c.phase = .finished := by
  obtain ⟨c, hc, hkey⟩ := taken_of_takenKeys h
  have hfind : findCmd d r q = some c := by rw [findCmd, hc, List.find?_cons_of_pos hkey]
  have hover : ∀ f : Cmd → Cmd, (f c).phase = .finished → ∀ x ∈ (updCmd d r q f).eng.taken, x.phase = .finished := by
    intro f hf x hx
    rw [updCmd, hc, listUpdWhere, if_pos hkey, List.mem_singleton] at hx
    rwa [hx]
  unfold finishCmd
  rw [hfind]
  dsimp only
  split
  · exact ⟨rfl, hover _ rfl⟩
  · exact ⟨rfl, hover _ rfl⟩

end

/-- The end of the only command in flight leaves the counts of rings. -/
theorem regGet_land_kringCounts {e : Dev} {r q k : Nat} (st info : Nat) (h : takenKeys e = [(r, q)]) (hk : k < 16384) :
    regGet (advance (finishCmd (flushWrites e r q) r q st info)) .kringCounts k = regGet e .kringCounts k := by
  have hflush := flushWrites_keepsRings e r q
  obtain ⟨hregs, hover⟩ := finishCmd_only st info (hflush.keys.trans h)
  rw [advance_of_finished hover, regGet_congr hregs, hflush.counts k hk]

/-! ### A sparing table beyond the last pseudo-channel -/

/-- The unit of MEM_PC_ECC, far beyond the last pseudo-channel, that shares its key with KRING_COUNTS of ring 0. -/
def straySpare : Nat := (Reg.kringCounts.ctorIdx - Reg.memPcEcc.ctorIdx) * 2 ^ 20

/-- A FENNEL_PUT in flight, and its transfer of one byte to address 0. -/
def strayCmd : Cmd := ⟨0, 0, 0, 0, none, 0, .started, false, false, true, 0, 0, [], [], 0, 0, []⟩
def strayXfer : FennelXfer := ⟨0, 0, 0, [0]⟩

/-- A device whose DRAM block 0 has a correctable error and whose sparing table puts pseudo-channel 0 at `straySpare`. -/
def strayDev : Dev :=
  { devBlank with
    marks := [(0, 1)], fennel := [strayXfer], retired := { devBlank.retired with spared := [(0, straySpare)] },
    eng := { devBlank.eng with taken := [strayCmd] } }

/-- The landing meets the error in the block that it covers in part, and counts it over the counts of ring 0. -/
theorem stray_counts : regGet (fennelLandRow strayDev 0) .kringCounts 0 = 2 ^ 32 := by decide +kernel

/-- Refutes O44, in its last clause: the statement asks nothing of the sparing table, and in `strayDev` a transfer that
lands changes KRING_COUNTS of ring 0. -/
theorem not_recomputeCreditsStallsAndFennel : ¬ Obligations.RecomputeCreditsStallsAndFennel := by
  intro h
  obtain ⟨-, -, -, hfennel⟩ := h ⟨strayDev, []⟩
  obtain ⟨-, hland⟩ := hfennel 0
  obtain ⟨-, hland⟩ := hland strayXfer strayCmd rfl rfl
  have hside : NoSide strayDev strayXfer.dst := fun _ _ => nofun
  have hok : accessFails { strayDev with fennel := strayDev.fennel.erase strayXfer } strayXfer.dst strayXfer.data.length true
      = none := by decide +kernel
  obtain ⟨e, hrun, -, -, -, htaken, -, -, hring⟩ := hland rfl (by decide) (by decide) hside hok
  have hdev : fennelLandRow strayDev 0 = advance (finishCmd (flushWrites e 0 0) 0 0 0 0) :=
    congrArg State.dev (Host.Outcome.next.inj hrun)
  have hcounts := regGet_land_kringCounts (e := e) (r := 0) (q := 0) 0 0 (congrArg (List.map _) htaken) (k := 0) (by decide)
  obtain ⟨-, hkept⟩ := hring 0 (by decide)
  have hbefore : regGet strayDev .kringCounts 0 = 0 := by decide +kernel
  rw [← hdev, stray_counts, hkept, hbefore] at hcounts
  exact absurd hcounts (by decide)

end Sys2Proof.Machine
end

