-- ==== Sys2Proof/Proofs/CommandHeaders.lean ====
section
/-! PROOF. The four words of a command header spell it, and the words after them are those of the body (Table 12.1, R335). -/
namespace Sys2Proof.Machine

/-! ### Words of an entry -/

/-- An entry cut at its first word. -/
theorem entryWord_zero {w : Nat} (hw : w < 2 ^ 64) (e : Nat) : entryWord (w + e * 2 ^ 64) 0 = w := by
  rw [entryWord, Nat.mul_zero, Nat.pow_zero, Nat.div_one, Nat.add_mul_mod_self_right, Nat.mod_eq_of_lt hw]

theorem entryWord_succ {w : Nat} (hw : w < 2 ^ 64) (e k : Nat) : entryWord (w + e * 2 ^ 64) (k + 1) = entryWord e k := by
  have hdrop : (w + e * 2 ^ 64) / 2 ^ 64 = e := by
    rw [Nat.add_mul_div_right _ _ (Nat.two_pow_pos 64), Nat.div_eq_of_lt hw, Nat.zero_add]
  have hbits : 64 * (k + 1) = 64 + 64 * k := by omega
  have hshift : 2 ^ (64 * (k + 1)) = 2 ^ 64 * 2 ^ (64 * k) := by rw [hbits, Nat.pow_add]
  rw [entryWord, hshift, ← Nat.div_div_eq_div_mul, hdrop, entryWord]

theorem b2n_lt (b : Bool) : b2n b < 2 := by cases b <;> decide

/-- A flag reads from the bit that it is put in. -/
theorem bit_eq_of_mod {x i : Nat} {b : Bool} (h : x / 2 ^ i % 2 = b2n b) : bit x i = b := by
  rw [bit, Nat.testBit_eq_decide_div_mod_eq, h]
  cases b <;> rfl

/-! ### Completion signals -/

/-- Every field of a signal lies within its bits. -/
def SigFits (s : Sig) : Prop := s.sem < 2 ^ 18 ∧ s.peer < 2 ^ 14 ∧ s.amount < 2 ^ 16

theorem sigWord_lt {s : Sig} (h : SigFits s) : sigWord s < 2 ^ 64 := by
  obtain ⟨hsem, hpeer, hamount⟩ := h
  have hremote := b2n_lt s.remote
  unfold sigWord
  omega

theorem sigOf_sigWord {s : Sig} (h : SigFits s) : sigOf (sigWord s) = s := by
  obtain ⟨hsem, hpeer, hamount⟩ := h
  have hremote := b2n_lt s.remote
  have h1 : bits (sigWord s) 63 48 = s.amount := by
    unfold bits sigWord
    omega
  have h2 : bit (sigWord s) 32 = s.remote := bit_eq_of_mod (by
    unfold sigWord
    omega)
  have h3 : bits (sigWord s) 31 18 = s.peer := by
    unfold bits sigWord
    omega
  have h4 : bits (sigWord s) 17 0 = s.sem := by
    unfold bits sigWord
    omega
  rw [sigOf, h1, h2, h3, h4]

/-! ### The first two words -/

/-- The word of flags and numbers, and the word of the wait. -/
def flagWord (h : Header) : Nat :=
  h.opcode + b2n h.waitEn * 2 ^ 8 + b2n h.sig0En * 2 ^ 9 + b2n h.sig1En * 2 ^ 10 + b2n h.inEpoch * 2 ^ 11
    + h.group * 2 ^ 12 + h.stage * 2 ^ 16 + b2n h.stageEn * 2 ^ 22 + h.opx * 2 ^ 23 + h.tag * 2 ^ 32
def waitWord (h : Header) : Nat := h.waitTarget + h.waitSem * 2 ^ 32 + h.mbatch * 2 ^ 50

/-- The header's words are the first four digits of the entry to base 2^64. -/
theorem headerWords_add (h : Header) (rest : Nat) : headerWords h + rest * 2 ^ 256 =
    flagWord h + (waitWord h + (sigWord h.sig0 + (sigWord h.sig1 + rest * 2 ^ 64) * 2 ^ 64) * 2 ^ 64) * 2 ^ 64 := by
  simp only [headerWords, flagWord, waitWord, Nat.add_mul, Nat.mul_assoc, Nat.add_assoc, ← Nat.pow_add]

theorem flags_lt (h : Header) :
    b2n h.waitEn < 2 ∧ b2n h.sig0En < 2 ∧ b2n h.sig1En < 2 ∧ b2n h.inEpoch < 2 ∧ b2n h.stageEn < 2 :=
  ⟨b2n_lt _, b2n_lt _, b2n_lt _, b2n_lt _, b2n_lt _⟩

section
variable {h : Header} (hfit : HeaderFits h)
include hfit

theorem flagWord_lt : flagWord h < 2 ^ 64 := by
  obtain ⟨hop, hgroup, hstage, hopx, htag, -⟩ := hfit
  have hflags := flags_lt h
  unfold flagWord
  omega

theorem waitWord_lt : waitWord h < 2 ^ 64 := by
  obtain ⟨-, -, -, -, -, htarget, hsem, hbatch, -⟩ := hfit
  unfold waitWord
  omega

theorem bits_flagWord : bits (flagWord h) 31 23 = h.opx ∧ bits (flagWord h) 21 16 = h.stage ∧
    bits (flagWord h) 15 12 = h.group ∧ bits (flagWord h) 7 0 = h.opcode ∧ bits (flagWord h) 63 32 = h.tag := by
  obtain ⟨hop, hgroup, hstage, hopx, htag, -⟩ := hfit
  have hflags := flags_lt h
  unfold bits flagWord
  omega

theorem bit_flagWord : bit (flagWord h) 22 = h.stageEn ∧ bit (flagWord h) 11 = h.inEpoch ∧
    bit (flagWord h) 10 = h.sig1En ∧ bit (flagWord h) 9 = h.sig0En ∧ bit (flagWord h) 8 = h.waitEn := by
  obtain ⟨hop, hgroup, hstage, hopx, htag, -⟩ := hfit
  have hflags := flags_lt h
  refine ⟨bit_eq_of_mod ?_, bit_eq_of_mod ?_, bit_eq_of_mod ?_, bit_eq_of_mod ?_, bit_eq_of_mod ?_⟩ <;>
    (unfold flagWord; omega)

theorem bits_waitWord : bits (waitWord h) 31 0 = h.waitTarget ∧ bits (waitWord h) 63 50 = h.mbatch ∧
    bits (waitWord h) 49 32 = h.waitSem := by
  obtain ⟨-, -, -, -, -, htarget, hsem, hbatch, -⟩ := hfit
  unfold bits waitWord
  omega

theorem sigFits_of_headerFits : SigFits h.sig0 ∧ SigFits h.sig1 := by
  obtain ⟨-, -, -, -, -, -, -, -, hsem0, hpeer0, hamount0, hsem1, hpeer1, hamount1⟩ := hfit
  exact ⟨⟨hsem0, hpeer0, hamount0⟩, ⟨hsem1, hpeer1, hamount1⟩⟩

/-- The words of the entry, one by one. -/
theorem entryWord_headerWords (rest : Nat) :
    let e := headerWords h + rest * 2 ^ 256
    entryWord e 0 = flagWord h ∧ entryWord e 1 = waitWord h ∧ entryWord e 2 = sigWord h.sig0 ∧
      entryWord e 3 = sigWord h.sig1 ∧ ∀ k, entryWord e (k + 4) = entryWord rest k := by
  have h0 := flagWord_lt hfit
  have h1 := waitWord_lt hfit
  obtain ⟨hfit0, hfit1⟩ := sigFits_of_headerFits hfit
  have h2 := sigWord_lt hfit0
  have h3 := sigWord_lt hfit1
  simp only [headerWords_add, entryWord_succ h0, entryWord_succ h1, entryWord_succ h2, entryWord_succ h3,
    entryWord_zero h0, entryWord_zero h1, entryWord_zero h2, entryWord_zero h3, implies_true, and_self]

end

/-- Settles O23, word by word. -/
theorem commandHeaderRoundTrip : Obligations.CommandHeaderRoundTrip := by
  intro h rest hfit e
  obtain ⟨hw0, hw1, hw2, hw3, hbody⟩ := entryWord_headerWords hfit rest
  obtain ⟨hopx, hstage, hgroup, hop, htag⟩ := bits_flagWord hfit
  obtain ⟨hen, hepoch, hsig1, hsig0, hwait⟩ := bit_flagWord hfit
  obtain ⟨htarget, hbatch, hsem⟩ := bits_waitWord hfit
  obtain ⟨hfit0, hfit1⟩ := sigFits_of_headerFits hfit
  refine ⟨?_, fun k => ?_⟩
  · simp only [e, headerOf, hw0, hw1, hw2, hw3, hopx, hstage, hgroup, hop, htag, hen, hepoch, hsig1, hsig0, hwait,
      htarget, hbatch, hsem, sigOf_sigWord hfit0, sigOf_sigWord hfit1]
  · rw [Nat.add_comm 4 k]
    exact hbody k

end Sys2Proof.Machine
end

