-- ==== Sys2Proof/Proofs/LightBodies.lean ====
section
/-! PROOF. The bodies of NOP, FENCE, SEM_WAIT, SEM_SIGNAL, TIMESTAMP and of an entry with an unknown opcode (R348, R255,
R335), and what a store to DRAM leaves alone. -/
namespace Sys2Proof.Machine

/-! ### Numbers in memory -/

theorem leNat_leBytes (n x : Nat) : leNat (leBytes n x) = x % 256 ^ n := by
  induction n generalizing x with
  | zero => rw [Nat.pow_zero, Nat.mod_one, leBytes, leNat]
  | succ n ih =>
    have hmod : x % 256 ^ (n + 1) = x % 256 + 256 * (x / 256 % 256 ^ n) := by rw [Nat.pow_succ', Nat.mod_mul]
    rw [leBytes, leNat, ih, BitVec.toNat_ofNat, hmod]

/-- The number at `a` is the one that the bytes there spell. -/
theorem memReadNat_of_bytes {d : Dev} {a : Nat} {bs : List Byte} (h : ∀ k (hk : k < bs.length), memGet d (a + k) = bs[k]) :
    memReadNat d a bs.length = leNat bs := by
  induction bs generalizing a with
  | nil => rfl
  | cons b rest ih =>
    have hfirst : memGet d a = b := h 0 (Nat.succ_pos _)
    have hrest : memReadNat d (a + 1) rest.length = leNat rest := ih fun k hk => by
      rw [Nat.add_assoc, Nat.add_comm 1]
      exact h (k + 1) (Nat.succ_lt_succ hk)
    rw [List.length_cons, memReadNat, leNat, hfirst, hrest]

/-! ### Stores to DRAM -/

theorem regionOf_dram {a : Nat} (h : a < 0x9000000000) : regionOf a = .dram := if_pos h

theorem regionOf_localAddr_dram (d : Dev) {a : Nat} (h : a < 0x9000000000) : regionOf (localAddr d a) = .dram := by
  rw [localAddr_low d (by omega), regionOf_dram h]

theorem noSide_dram (d : Dev) {a : Nat} (h : a < 0x9000000000) : NoSide d a := fun c k => by
  rw [regionOf_localAddr_dram d h]
  nofun

theorem isRemote_dram (d : Dev) {a : Nat} (h : a < 0x9000000000) : isRemote d a = false := by
  simp only [isRemote, regionOf_localAddr_dram d h]

/-- The units with errors that a range of DRAM meets are blocks of DRAM. -/
theorem regionOf_of_mem_marksIn {d : Dev} {l n m : Nat} (h : l + n ≤ 0x9000000000) (hm : m ∈ marksIn d l n) :
    regionOf m = .dram := by
  have hmeets := (List.mem_filter.mp hm).2
  rw [Bool.and_eq_true, decide_eq_true_eq, decide_eq_true_eq] at hmeets
  exact regionOf_dram (Nat.lt_of_lt_of_le hmeets.2 h)

theorem errAdd_steps (d : Dev) (kind unit : Nat) : (errAdd d kind unit).steps = d.steps := rfl

theorem noteDram_steps (d : Dev) (a : Nat) (unc : Bool) : (noteDram d a unc).steps = d.steps := by
  cases unc with
  | true => rw [noteDram, if_pos rfl, noted_steps (nutmeg_noted (noted_refl _)), errAdd_steps, fsat_steps]
  | false => rw [noteDram, if_neg nofun, errAdd_steps, fsat_steps]

theorem openWrite_steps {a n : Nat} (d : Dev) (h : a + n ≤ 0x9000000000) (hn : 0 < n) : (openWrite d a n).steps = d.steps := by
  have hl : localAddr d a = a := localAddr_low d (by omega)
  refine List.foldlRecOn (motive := fun e : Dev => e.steps = d.steps) (marksIn d (localAddr d a) n) _ rfl fun e he m hm => ?_
  rw [hl] at hm
  have hunit : (noteUnit e m).steps = e.steps := by
    simp only [noteUnit, regionOf_of_mem_marksIn h hm]
    exact noteDram_steps e m _
  simp only [markClear, regionOf_of_mem_marksIn h hm, Bool.or_false]
  split
  · exact he
  · exact hunit.trans he

section
variable {d : Dev} {a : Nat} {bs : List Byte}

theorem store_steps_dram (h : a + bs.length ≤ 0x9000000000) (hbs : 0 < bs.length) : (store d a bs).steps = d.steps := by
  obtain ⟨w, hw⟩ := store_noSide (bs := bs) (noSide_dram d (show a < 0x9000000000 by omega))
  rw [hw]
  exact openWrite_steps d h hbs

/-- A store to blocks of DRAM without errors writes its bytes and no more. -/
theorem store_dram_clean (h : a < 0x9000000000) (hmarks : marksIn d a bs.length = []) : store d a bs = memWrite d a bs := by
  have hopen : openWrite d a bs.length = d := by
    rw [openWrite, localAddr_low d (by omega), hmarks, List.foldl_nil]
  have hremote : isRemote (memWrite d a bs) a = false := isRemote_dram _ h
  simp only [store, hopen, sideWritten_noSide (noSide_dram d h), hremote, Bool.false_eq_true, if_false]

end

/-! ### The bodies -/

section
variable (d : Dev) (x : Ctx) {c : Cmd}

theorem runBody_nop_or_fence (h : c.opcode = some .nop ∨ c.opcode = some .fence) : runBody d x c = resOk d 0 := by
  obtain h | h := h <;> simp only [runBody, h]

theorem runBody_semWait (h : c.opcode = some .semWait) : runBody d x c = resOk d c.reached := by
  simp only [runBody, h]

theorem runBody_badOpcode (h : c.opcode = none) : runBody d x c = resStatus d .badOpcode := by
  simp only [runBody, h]

/-- A SEM_SIGNAL that is not remote applies the operation of its entry here. -/
theorem runBody_semSignal (h : c.opcode = some .semSignal) (hremote : bit (entryWord c.entry 4) 32 = false) :
    runBody d x c = resOk (semApply d (bits (entryWord c.entry 4) 17 0)
      (semActOf (bits (entryWord c.entry 4) 34 33) (bits (entryWord c.entry 4) 63 48) (bits (entryWord c.entry 5) 31 0))) 0 := by
  simp only [runBody, h, runSemSignal, hremote, Bool.false_and, Bool.false_eq_true, if_false]

/-- TIMESTAMP to an aligned range that its port may name and the device can write. -/
theorem runBody_timestamp (h : c.opcode = some .timestamp) (halign : entryWord c.entry 4 % 8 = 0)
    (hnamed : rangeNamed d x.port (entryWord c.entry 4) 8 = true) (hok : accessFails d (entryWord c.entry 4) 8 true = none) :
    runBody d x c = resOk (store d (entryWord c.entry 4) (leBytes 8 d.time)) (d.time % 2 ^ 64) := by
  simp [runBody, h, runTimestamp, halign, hnamed, hok]

end

/-- The timebase stored at an address of DRAM reads back there. -/
theorem memReadNat_store_time {d : Dev} {a : Nat} (h : a + 8 ≤ 0x9000000000) :
    memReadNat (store d a (leBytes 8 d.time)) a 8 = d.time % 2 ^ 64 := by
  have hlen : (leBytes 8 d.time).length = 8 := leBytes_length 8 d.time
  have hwrote := store_wrote (bs := leBytes 8 d.time) (by omega) (noSide_dram d (show a < 0x9000000000 by omega))
  have hread := memReadNat_of_bytes fun k hk => hwrote.memGet (by omega) hk
  rwa [hlen, leNat_leBytes] at hread

/-- Settles O29, opcode by opcode. -/
theorem lightCommandsFinish : Obligations.LightCommandsFinish := by
  intro d x c
  refine ⟨runBody_nop_or_fence d x, runBody_semWait d x, fun hop => ?_, ?_, ?_⟩
  · rw [runBody_badOpcode d x hop]
    rfl
  · intro hop hlocal sem amount
    rw [runBody_semSignal d x hop hlocal]
    refine ⟨rfl, fun hcode => ?_, fun hcode => ?_, fun hcode => ?_, fun hcode => ?_⟩ <;> rw [hcode] <;> rfl
  · intro hop a halign hlow hnamed hok
    have hlen : (leBytes 8 d.time).length = 8 := leBytes_length 8 d.time
    have hwrote := store_wrote (bs := leBytes 8 d.time) (by omega) (noSide_dram d (show a < 0x9000000000 by omega))
    have hsame := hwrote.sameButLogs
    rw [hlen] at hsame
    rw [runBody_timestamp d x hop halign hnamed hok]
    refine ⟨rfl, memReadNat_store_time hlow, hsame, hwrote.taken, store_steps_dram ?_ ?_, fun hclean => store_dram_clean ?_ ?_⟩
    · omega
    · omega
    · omega
    · rwa [hlen]

end Sys2Proof.Machine
end

