-- ==== Sys2Proof/Proofs/Completions.lean ====
section
/-! PROOF. The commands in flight after a change of one of them, and COMMAND_COMPLETE (R336, R316). -/
namespace Sys2Proof.Machine

/-! ### A command in flight and its key -/

/-- A command goes by the ring and number by which it is found. -/
theorem key_of_findCmd {d : Dev} {r q : Nat} {c : Cmd} (h : findCmd d r q = some c) : c.ring = r ∧ c.seq = q := by
  have hkey : isCmd r q c = true := List.find?_some h
  rwa [isCmd, Bool.and_eq_true, beq_iff_eq, beq_iff_eq] at hkey

/-- The command that a change finds is the changed one. -/
theorem findCmd_updCmd_of_some {d : Dev} {r q : Nat} {c : Cmd} (h : findCmd d r q = some c) {f : Cmd → Cmd}
    (hf : ∀ x, isCmd r q (f x) = isCmd r q x) : findCmd (updCmd d r q f) r q = some (f c) :=
  (find?_listUpdWhere_self hf d.eng.taken).trans (congrArg (Option.map f) h)

theorem findCmd_of_eng {d e : Dev} (h : e.eng = d.eng) (r q : Nat) : findCmd e r q = findCmd d r q := by
  rw [findCmd, findCmd, h]

theorem semApply_eng (d : Dev) (m : Nat) (a : SemAct) : (semApply d m a).eng = d.eng := by
  cases a with
  | add n => exact fset_eng d semValueCount m _
  | set v => exact fset_eng d semValueCount m v
  | errSet n => exact (fset_eng _ semValueCount m _).trans (fset_eng d semValueErr m 1)
  | errClear => exact fset_eng d semValueErr m 0

/-! ### Completion signals -/

/-- What a completion signal of amount `n` does to its semaphore, by the status of its command (R336, R260). -/
def signalAct (status n : Nat) : SemAct := if status = 0 then .add n else .errSet n

/-- A local signal that is enabled. -/
def localSignal (status : Nat) (d : Dev) (on : Bool) (sig : Sig) : Dev :=
  if on then semApply d sig.sem (signalAct status sig.amount) else d

theorem localSignal_eng (status : Nat) (d : Dev) (on : Bool) (sig : Sig) : (localSignal status d on sig).eng = d.eng := by
  cases on with
  | true => exact semApply_eng d _ _
  | false => rfl

theorem applySignal_local {sig : Sig} (h : sig.remote = false) (d : Dev) (r q status : Nat) :
    applySignal d r q sig (status != 0) = semApply d sig.sem (signalAct status sig.amount) := by
  by_cases hs : status = 0 <;> simp [applySignal, h, signalAct, hs]

section
variable {d : Dev} {r q : Nat} {c : Cmd} (hc : findCmd d r q = some c)
include hc

theorem signalCmd_local (hop : c.opcode ≠ some .fennelPut) (h0 : c.header.sig0.remote = false)
    (h1 : c.header.sig1.remote = false) : signalCmd d c =
      localSignal c.status (localSignal c.status (updCmd d r q (fun x => { x with phase := .signalled }))
        c.header.sig0En c.header.sig0) c.header.sig1En c.header.sig1 := by
  obtain ⟨rfl, rfl⟩ := key_of_findCmd hc
  simp only [signalCmd, applySignal_local h0, applySignal_local h1, bne_iff_ne.mpr hop, Bool.and_true, localSignal]

theorem completeCmd_finished (hout : c.outstanding = []) (hph : c.phase = .finished) (hop : c.opcode ≠ some .fennelPut)
    (h0 : c.header.sig0.remote = false) (h1 : c.header.sig1.remote = false) : completeCmd d r q =
      advance (recordCmd (localSignal c.status (localSignal c.status (updCmd d r q (fun x => { x with phase := .signalled }))
        c.header.sig0En c.header.sig0) c.header.sig1En c.header.sig1) { c with phase := .signalled }) := by
  have hfind : findCmd (signalCmd d c) r q = some { c with phase := .signalled } := by
    rw [signalCmd_local hc hop h0 h1]
    have heng := fun d1 => (localSignal_eng c.status (localSignal c.status d1 c.header.sig0En c.header.sig0)
      c.header.sig1En c.header.sig1).trans (localSignal_eng c.status d1 c.header.sig0En c.header.sig0)
    rw [findCmd_of_eng (heng _)]
    exact findCmd_updCmd_of_some hc fun _ => rfl
  rw [← signalCmd_local hc hop h0 h1]
  simp [completeCmd, hc, hout, hph, hfind]

theorem completeCmd_signalled (hout : c.outstanding = []) (hph : c.phase = .signalled) :
    completeCmd d r q = advance (recordCmd d c) := by
  simp [completeCmd, hc, hout, hph]

theorem completeCmd_idle (h : c.outstanding ≠ [] ∨ (c.phase ≠ .finished ∧ c.phase ≠ .signalled)) : completeCmd d r q = d := by
  by_cases hout : c.outstanding = []
  · obtain ⟨hfin, hsig⟩ := h.resolve_left (absurd hout)
    cases hph : c.phase with
    | finished => exact absurd hph hfin
    | signalled => exact absurd hph hsig
    | waiting => simp [completeCmd, hc, hph]
    | started => simp [completeCmd, hc, hph]
  · simp [completeCmd, hc, hout]

end

/-- Settles O31: by the phase of the command. -/
theorem completionSignalsAndRecords : Obligations.CompletionSignalsAndRecords := by
  intro s r q c hc d i act g d0
  have hrun : Runs i s (completeCmd d r q) := act_runs i s (completeCmd · r q) rfl
  refine ⟨fun hout hph hop h0 h1 => ?_, fun hout hph => ?_, fun h => ?_⟩
  · rwa [completeCmd_finished hc hout hph hop h0 h1] at hrun
  · rwa [completeCmd_signalled hc hout hph] at hrun
  · rwa [completeCmd_idle hc h] at hrun

end Sys2Proof.Machine
end

