-- ==== Sys2Proof/Proofs/AloneCommands.lean ====
section
/-! PROOF. A command that is alone in flight: nothing is before it, it starts at once, and its body runs to its end (R313,
R336, R354). -/
namespace Sys2Proof.Machine

/-! ### Taking the next command -/

/-- Every row of a ring command is the row of its ring and its entries. -/
theorem takeRow_runs {i : Instr} {r : Nat} {p : Nat → Bool} (h : takes i = some (r, p)) (s : State) :
    Runs i s (takeRow s.dev r p) := by
  unfold takes at h
  split at h <;> cases h <;> exact act_runs _ s (fun d => takeRow d _ _) rfl

theorem takesNext_runs {s : State} {i : Instr} {r : Nat} {w : Wrr} (h : TakesNext i s.dev r w) :
    Runs i s (advance (takeCommand s.dev r w)) := by
  obtain ⟨p, hp, hnext, hfetch, hentry⟩ := h
  have hrow : takeRow s.dev r p = advance (takeCommand s.dev r w) := by
    unfold nextEntry at hentry
    simp [takeRow, hnext, hfetch, hentry]
  exact hrow ▸ takeRow_runs hp s

theorem eng_openTaken (d : Dev) (c : Cmd) : (openTaken d c).eng = d.eng := by
  unfold openTaken
  split <;> rfl

theorem taken_takeCommand (d : Dev) (r : Nat) (w : Wrr) : (takeCommand d r w).eng.taken = d.eng.taken ++ [nextCmd d r] := by
  rw [takeCommand, addTaken_taken, countTaken_eng, eng_openTaken]

/-! ### A command alone in flight -/

theorem isCmd_self (c : Cmd) : isCmd c.ring c.seq c = true := by
  rw [isCmd, beq_self_eq_true, beq_self_eq_true, Bool.and_self]

section
variable {t : Dev} {c : Cmd} (h : t.eng.taken = [c])
include h

theorem findCmd_alone : findCmd t c.ring c.seq = some c := by
  rw [findCmd, h, List.find?_cons_of_pos (isCmd_self c)]

theorem updCmd_alone (f : Cmd → Cmd) : (updCmd t c.ring c.seq f).eng.taken = [f c] := by
  have hupd : (updCmd t c.ring c.seq f).eng.taken = listUpdWhere [c] (isCmd c.ring c.seq) f := by rw [updCmd, h]
  rw [hupd, listUpdWhere, if_pos (isCmd_self c)]

theorem beforeOf_alone : beforeOf t c = [] := by
  simp [beforeOf, h, isCmd_self]

theorem earlierOf_alone : earlierOf t c = [] := by
  simp [earlierOf, h, isCmd_self]

theorem collGate_alone : collGate t c = true := by
  unfold collGate
  rw [beforeOf_alone h]
  split <;> rfl

theorem orderGate_alone (hopener : c.opener = none) (hheld : c.held = false) (hbind : unbindGate t c = true)
    (hplace : placementServed t c = true) : orderGate t c = true := by
  simp [orderGate, earlierOf_alone h, collGate_alone h, hopener, hheld, hbind, hplace]

/-- Bodies that wait for earlier commands find none. -/
theorem bodyGate_alone : bodyGate t c = true := by
  unfold bodyGate
  rw [earlierOf_alone h, beforeOf_alone h]
  split
  · exact Bool.or_true _
  · exact Bool.or_true _
  · exact Bool.or_true _
  · rfl

theorem advance_alone : advance t = tryCmd t c.ring c.seq := by
  rw [advance, h, List.map_singleton, List.foldl_cons, List.foldl_nil]

end

/-! ### Its start -/

theorem queueTake_eng (d : Dev) (c : Cmd) : (queueTake d c).eng = d.eng := by
  unfold queueTake
  split
  · rfl
  · exact fset_eng d semQueueCredits _ _

theorem stageStart_eng (d : Dev) (c : Cmd) : (stageStart d c).eng = d.eng := by
  unfold stageStart
  split <;> rfl

theorem planStart_eng (d : Dev) (c : Ctx) (e : Nat) : (planStart d c e).eng = d.eng := by
  have hupd : ∀ (f : Dev → Nat → PlanRun → PlanRun) (d : Dev) (is : List Nat),
      (is.foldl (fun d i => updPlan d i (f d i)) d).eng = d.eng := fun f d is =>
    List.foldlRecOn (motive := fun e : Dev => e.eng = d.eng) is _ rfl fun _ he _ _ => he
  unfold planStart
  split
  · rfl
  · exact (hupd _ _ _).trans (hupd (fun d _ p => _) d _)

theorem startCmd_eng (d : Dev) (c : Cmd) (n : Nat) : (startCmd d c n).eng = (updCmd d c.ring c.seq
    (fun c => { c with phase := .started, blocked := false, reached := n, startedAt := d.time })).eng := by
  rw [startCmd, planStart_eng, stageStart_eng, queueTake_eng]

/-- The command is alone in flight as before, and started. -/
theorem startCmd_alone {t : Dev} {c : Cmd} (h : t.eng.taken = [c]) :
    (startCmd t c (waitCount t c)).eng.taken = [started t c] := by
  rw [startCmd_eng]
  exact updCmd_alone h _

theorem waitThenStart_met {t : Dev} {c : Cmd} (hadm : admitted t c = true)
    (hwait : c.header.waitEn = true → semErr t c.header.waitSem = false ∧
      waitReached t c.header.waitSem c.header.waitTarget = true) : waitThenStart t c = startCmd t c (waitCount t c) := by
  cases hen : c.header.waitEn with
  | true =>
    obtain ⟨herr, hmet⟩ := hwait hen
    simp [waitThenStart, waitMet, waitCount, hen, herr, hmet, hadm]
  | false => simp [waitThenStart, waitMet, waitCount, hen, hadm]

/-- Whatever a command alone in flight asks for is met: it starts, and its body runs. -/
theorem tryCmd_alone {t : Dev} {c : Cmd} (h : t.eng.taken = [c]) (hphase : c.phase = .waiting) (hblocked : c.blocked = false)
    (hissued : c.issued = false) (hout : c.outstanding = []) (horder : orderGate t c = true)
    (hstart : waitThenStart t c = startCmd t c (waitCount t c)) :
    tryCmd t c.ring c.seq = runCmd (startCmd t c (waitCount t c)) (started t c) := by
  have hfind := findCmd_alone h
  have hnext : findCmd (startCmd t c (waitCount t c)) c.ring c.seq = some (started t c) := findCmd_alone (startCmd_alone h)
  have hgate : bodyGate (startCmd t c (waitCount t c)) (started t c) = true := bodyGate_alone (startCmd_alone h)
  have hready : (decide ((started t c).phase = .started) && !(started t c).issued && (started t c).outstanding.isEmpty) = true := by
    simp [started, hissued, hout]
  have hturn : (decide (c.phase = .waiting) && !c.blocked && orderGate t c) = true := by
    simp [hphase, hblocked, horder]
  simp only [tryCmd, hfind, hturn, hstart, hnext, hready, hgate, Bool.and_self, if_true]

/-! ### Its body -/

/-- The body of a command that no plan entry holds back, whose writes to peers have not failed when it ends. -/
theorem runCmd_ends {d : Dev} {c : Cmd} {st info : Nat} (hstatus : c.status = 0) (hplan : planBlocks d c.ctx c.entry = none)
    (hreset : st ≠ Status.resetWait.code) (hremote : st ≠ Status.remoteData.code) :
    let d0 := updCmd (stageReads d c) c.ring c.seq (fun c => { c with issued := true })
    let b := runBody (noteRanges d0 (commandReads d0 c.entry)) c.ctx c
    let d1 := flushWrites (bodyRan d0 b.dev c) c.ring c.seq
    b.done = some (st, info) → (∀ x, findCmd d1 c.ring c.seq = some x → x.status = 0) →
      runCmd d c = finishCmd d1 c.ring c.seq st info := by
  intro d0 b d1 hdone hpeers
  have hnone : (findCmd d1 c.ring c.seq).filter (fun x => x.status != 0 && st == 0) = none := by
    rw [Option.filter_eq_none_iff]
    intro x hx
    simp [hpeers x hx]
  rw [runCmd, if_neg (not_not_intro hstatus), hplan]
  change (match b.done with
    | none => d1
    | some (s, info) => _) = _
  rw [hdone]
  dsimp only
  rw [if_neg hreset, if_neg hremote, hnone]

/-- Settles O28: the command taken is alone in flight, so it starts at once and its body runs to its end. -/
theorem commandAloneRunsItsBody : Obligations.CommandAloneRunsItsBody := by
  intro s i r w c htakes hstarts b st info hdone hreset hremote hpeers
  obtain ⟨hnothing, hc, hphase, hstatus, hopener, hheld, hwait, hbind, hplace, hadm, hplan⟩ := hstarts
  obtain ⟨hring, hblocked, hissued, hout⟩ : c.ring = r ∧ c.blocked = false ∧ c.issued = false ∧ c.outstanding = [] := by
    rw [hc]
    exact ⟨rfl, rfl, rfl, rfl⟩
  have halone : (takeCommand s.dev r w).eng.taken = [c] := by rw [taken_takeCommand, hnothing, hc, List.nil_append]
  have horder := orderGate_alone halone hopener hheld hbind hplace
  have hrun := takesNext_runs htakes
  rw [advance_alone halone, tryCmd_alone halone hphase hblocked hissued hout horder (waitThenStart_met hadm hwait)] at hrun
  subst hring
  have hends := runCmd_ends (c := started (takeCommand s.dev c.ring w) c) hstatus hplan hreset hremote hdone hpeers
  exact hends ▸ hrun

end Sys2Proof.Machine
end

