-- ==== Sys2Proof/Proofs/StartCause.lean ====
section
/-! PROOF. Once start-up has applied what the NVM holds, it leaves the cause that ANI_RESET_CAUSE shows (Table 16.6). A
registry entry that names a unit beyond the last of its register reaches that cause (R417). -/
namespace Sys2Proof.Machine

/-! ### What leaves the cause of the last start -/

/-- From `d` to `e` the cause of the last start and what the hardware meets are as before. -/
structure KeepsCause (d e : Dev) : Prop where
  cause : fget e aniResetCauseCause 0 = fget d aniResetCauseCause 0
  env : e.env = d.env

namespace KeepsCause

theorem refl (d : Dev) : KeepsCause d d := ⟨rfl, rfl⟩

variable {d e : Dev}

theorem then_regs {x : Dev} (h : KeepsCause d e) (hr : x.regs = e.regs) (he : x.env = e.env) : KeepsCause d x :=
  ⟨(fget_congr hr _ _).trans h.cause, he.trans h.env⟩

theorem then_emit {o : Out} (h : KeepsCause d e) : KeepsCause d (emit e o) := h.then_regs rfl rfl

theorem then_fset {f : Field} {i v : Nat} (h : KeepsCause d e) (hi : i < 2 ^ 20 := by decide)
    (hf : f.reg ≠ .aniResetCause := by decide) :
    KeepsCause d (fset e f i v) :=
  ⟨(fget_fset_other e f _ i 0 v hi (by decide) (.inl fun k => hf (reg_ctorIdx_inj k).symm)).trans h.cause, h.env⟩

theorem then_nutmeg {x : NutEvent} (h : KeepsCause d e) : KeepsCause d (nutmeg e x) := by
  have hn : Noted e (nutmeg e x) := nutmeg_noted (noted_refl e)
  exact ⟨(noted_fget hn aniResetCauseCause 0 (by decide) nofun nofun nofun).trans h.cause, by rw [hn.1, h.env]⟩

theorem then_ite {c : Prop} [Decidable c] {a b : Dev} (ha : KeepsCause d a) (hb : KeepsCause d b) :
    KeepsCause d (if c then a else b) := by
  split
  · exact ha
  · exact hb

theorem then_foldl {α : Type} {g : Dev → α → Dev} {xs : List α} (h : KeepsCause d e)
    (hstep : ∀ b, KeepsCause d b → ∀ x ∈ xs, KeepsCause d (g b x)) : KeepsCause d (xs.foldl g e) :=
  List.foldlRecOn xs g h hstep

/-- A step for each of the first `n` units, which lie within the key space of one register. -/
theorem then_units {g : Dev → Nat → Dev} {n : Nat} (h : KeepsCause d e) (hn : n ≤ 2 ^ 20)
    (hstep : ∀ b, KeepsCause d b → ∀ i, i < 2 ^ 20 → KeepsCause d (g b i)) : KeepsCause d ((List.range n).foldl g e) :=
  h.then_foldl fun b hb i hi => hstep b hb i (Nat.lt_of_lt_of_le (List.mem_range.mp hi) hn)

/-! ### Steps 4 to 6 of start-up -/

theorem then_restoreRecords (h : KeepsCause d e) : KeepsCause d (restoreRecords e) := by
  unfold restoreRecords
  extract_lets next used area mem nv recs d0 d1
  have h1 : KeepsCause d d1 := (h.then_regs (x := d0) rfl rfl).then_foldl fun b hb r _ =>
    hb.then_regs (logWrite_regs ..) (logWrite_env ..)
  exact h1.then_fset.then_fset.then_fset

theorem then_readIdentity {cold : Bool} (h : KeepsCause d e) : KeepsCause d (readIdentity e cold) := by
  unfold readIdentity
  extract_lets fw d1 d2 counters d3 chosen flr d4 d5
  have h1 : KeepsCause d d1 := then_ite (h.then_regs rfl rfl) h
  have h2 : KeepsCause d d2 := h1.then_fset
  have h3 : KeepsCause d d3 := then_ite (h2.then_regs rfl rfl) h2
  have h4 : KeepsCause d d4 := by
    dsimp only [d4]
    clear_value chosen
    split
    · exact then_ite (h3.then_regs rfl rfl) h3
    · exact h3
  have h5 : KeepsCause d d5 := then_ite h4.then_fset.then_fset h4
  exact h5.then_fset.then_fset

theorem then_configShow (h : KeepsCause d e) : KeepsCause d (configShow e) := by
  unfold configShow
  extract_lets cap d1 policy d2
  have h1 : KeepsCause d d1 := h.then_fset.then_fset
  have h2 : KeepsCause d d2 := h1.then_regs rfl rfl
  exact h2.then_units (n := 2) (by decide) fun b hb i hi => (hb.then_fset hi).then_fset hi

theorem then_refreshShow {s : Nat} (h : KeepsCause d e) (hs : s < 2 ^ 20) : KeepsCause d (refreshShow e s) :=
  then_ite (h.then_fset hs) (then_ite (h.then_fset hs) h)

theorem then_sensorsShow (h : KeepsCause d e) : KeepsCause d (sensorsShow e) := by
  unfold sensorsShow
  extract_lets d1
  have h1 : KeepsCause d d1 := h.then_units (by decide) fun b hb i hi => then_ite (hb.then_fset hi) hb
  exact h1.then_units (by decide) fun b hb i hi => then_ite ((hb.then_fset hi).then_refreshShow hi) hb

/-- Self-tests that find nothing. -/
theorem then_selfTest {cold : Bool} (h : KeepsCause d e) (hgood : d.env.defects = []) : KeepsCause d (selfTest e cold) := by
  have hnone : e.env.defects = [] := by rw [h.env, hgood]
  have hsame : selfTest e cold = e := by
    rw [selfTest, hnone]
    exact congrArg (fun x => { e with env := { e.env with defects := x } }) hnone.symm
  rwa [hsame]

theorem then_canaryCheck (h : KeepsCause d e) : KeepsCause d (canaryCheck e) :=
  h.then_foldl fun _ hb _ _ => then_ite hb.then_nutmeg hb

theorem then_trainLinks (h : KeepsCause d e) : KeepsCause d (trainLinks e) :=
  h.then_units (by decide) fun _ hb _ hi => then_ite hb (hb.then_fset hi).then_emit

theorem then_rateShow {x : Nat} (h : KeepsCause d e) (hx : x < 2 ^ 20) : KeepsCause d (rateShow e x) :=
  ((h.then_fset hx).then_fset hx).then_fset hx

end KeepsCause

/-- The configuration image that a start makes live; none in recovery. -/
def startImage (d : Dev) : Option ConfigImage :=
  if recoveryCause d = 0 then (chooseBank d.nv).bind (bankImage d.nv) else none

/-- The device once start-up has applied configuration, registry and margin tables (Table 16.6, steps 2 and 3). -/
def nvmApplied (d : Dev) : Dev :=
  applyMargins (applyRegistry (loadConfig
    ((List.range 32).foldl (fun d ch => fset d mbxChStatusAwake ch 1) { d with pwr := { d.pwr with state := .running } })
    (startImage d)))

/-- With self-tests that find nothing, start-up shows the cause that the tables of the NVM have left. -/
theorem boot_keepsCause {d : Dev} {cold : Bool} (hgood : (nvmApplied d).env.defects = []) :
    KeepsCause (nvmApplied d) (boot d cold) := by
  unfold boot
  extract_lets cause bank live other pwr d1 d2 d3 d4
  have h2 : KeepsCause (nvmApplied d) d2 := (KeepsCause.refl _).then_restoreRecords
  have h3 : KeepsCause (nvmApplied d) d3 := h2.then_fset.then_fset.then_fset.then_fset.then_fset
  have h4 : KeepsCause (nvmApplied d) d4 :=
    (h3.then_readIdentity.then_configShow.then_sensorsShow.then_selfTest hgood).then_canaryCheck.then_trainLinks
  clear_value d4
  split
  next ms d5 hfree =>
    have h5 : KeepsCause (nvmApplied d) d5 :=
      h4.then_regs (congrArg (·.2.regs) hfree.symm) (congrArg (·.2.env) hfree.symm)
    extract_lets d6 d7 d8 d9
    have h6 : KeepsCause (nvmApplied d) d6 := h5.then_fset.then_fset
    have h7 : KeepsCause (nvmApplied d) d7 := h6.then_fset.then_fset.then_fset
    have h8 : KeepsCause (nvmApplied d) d8 := h7.then_units (n := 2) (by decide) fun _ hb _ hi => hb.then_fset hi
    exact ((h8.then_rateShow (by decide)).then_rateShow (by decide)).then_nutmeg

/-- The device as a restart hands it to start-up, with the cause of the restart. -/
def restarted (d : Dev) (cause : Nat) : Dev :=
  let d1 := fset (fset (powerOff d) aniResetCauseCause 0 cause) aniResetCauseStamp 0 d.time
  startHours { d1 with pwr := { d1.pwr with restartAsked := false } }

theorem coldStart_restarted {d : Dev} {cause : Nat} (h : cause ≠ 0) : coldStart d cause =
    nutmeg (fset (boot (restarted d cause) true) thmShutdownHold 0 0) ⟨0x01, 2, 3, 0, 0, 0, fget d thmShutdownCause 0⟩ := by
  simp only [coldStart, restarted, if_neg h]

theorem coldStart_keepsCause {d : Dev} {cause : Nat} (h : cause ≠ 0)
    (hgood : (nvmApplied (restarted d cause)).env.defects = []) :
    KeepsCause (nvmApplied (restarted d cause)) (coldStart d cause) := by
  rw [coldStart_restarted h]
  exact (boot_keepsCause hgood).then_fset.then_nutmeg

theorem inputRestart_standby {d : Dev} (h : standbyAfter d (fun c => c == 4 || c == 5) = true) :
    inputRestart d = coldStart d 2 := if_pos h

theorem eq_of_runs_inputRestart {s : State} {e : Dev} (h : Runs .inputRestart s e) : e = inputRestart s.dev :=
  (congrArg State.dev (Host.Outcome.next.inj h)).symm

/-! ### A registry entry beyond the last pseudo-channel -/

/-- The unit of MEM_PC_ECC, far beyond the last pseudo-channel, that shares its key with ANI_RESET_CAUSE. The 64-bit detail of
a registry entry can hold it (Table 15.3). -/
def strayCauseUnit : Nat := (Reg.aniResetCause.ctorIdx - Reg.memPcEcc.ctorIdx) * 2 ^ 20

/-- A device that stands by after an undervoltage shutdown, and whose registry names `strayCauseUnit` as the spare of
pseudo-channel 0. -/
def strayRegistryDev : Dev :=
  { fset devBlank thmShutdownCause 0 4 with
    nv := { nonVolBlank with registry := [⟨0x06, 1, unitId 0x07 0, 0, strayCauseUnit, 0, false⟩] } }

/-- The entry puts the unit that it names into service, and clears the cause with that. -/
theorem nvmApplied_strayRegistryDev : fget (nvmApplied (restarted strayRegistryDev 2)) aniResetCauseCause 0 = 0 ∧
    (nvmApplied (restarted strayRegistryDev 2)).env.defects = [] := by
  decide +kernel

theorem coldStart_strayRegistryDev : fget (coldStart strayRegistryDev 2) aniResetCauseCause 0 = 0 := by
  obtain ⟨hcause, hgood⟩ := nvmApplied_strayRegistryDev
  exact (coldStart_keepsCause (by decide) hgood).cause.trans hcause

/-- Refutes O53, in its clause on INPUT_RESTART: the statement asks nothing of the registry, and `strayRegistryDev`, whose
registry names a spare beyond the last pseudo-channel, restarts with cause 0 in place of 2. -/
theorem not_powerComesAndGoes : ¬ Obligations.PowerComesAndGoes := by
  intro h
  obtain ⟨-, -, -, -, ⟨hrestart, -⟩, -⟩ := h ⟨strayRegistryDev, []⟩
  have hstandby : strayRegistryDev.pwr.state = .standby ∧
      (fget strayRegistryDev thmShutdownCause 0 = 4 ∨ fget strayRegistryDev thmShutdownCause 0 = 5) := by decide +kernel
  obtain ⟨e, hrun, -, -, -, -, -, -, -, -, -, hcause, -⟩ := hrestart hstandby
  rw [eq_of_runs_inputRestart hrun, inputRestart_standby (by decide +kernel), coldStart_strayRegistryDev] at hcause
  exact absurd hcause (by decide)

end Sys2Proof.Machine
end

