-- ==== Sys2Proof/Proofs/StepsAndQueue.lean ====
section
/-! PROOF. Steps and the queue: what a command is as a step, and what all commands have in common. -/
namespace Sys2Proof.Machine

/-! ### What all commands have in common -/

/-- A row of the opcode table is one function of the device, whatever waits in the queue, and this function keeps the canonical
form of the memory. -/
def KeepsMemory (row : State → Answer) : Prop :=
  ∃ f : Dev → Dev, (∀ s, row s = act s f) ∧ ∀ d, MemOk d → MemOk (f d)

theorem KeepsMemory.act {f : Dev → Dev} (hkeep : ∀ d, MemOk d → MemOk (f d)) : KeepsMemory (fun s => act s f) :=
  ⟨f, fun _ => rfl, hkeep⟩

/-- Row by row of the opcode table: each keeps the form by the laws of the operations that it is made of. -/
theorem exec_keepsMemory (i : Instr) : KeepsMemory (exec i) := by
  cases i with
  | mm => exact (.act fun _ => takeRow_ok : KeepsMemory (execMm _))
  | conv => exact (.act fun _ => takeRow_ok : KeepsMemory (execConv _))
  | sliceMm => exact (.act fun _ => takeRow_ok : KeepsMemory (execSliceMm _))
  | row => exact (.act fun _ => takeRow_ok : KeepsMemory (execRow _))
  | vec => exact (.act fun _ => takeRow_ok : KeepsMemory (execVec _))
  | copy => exact (.act fun _ => takeRow_ok : KeepsMemory (execCopy _))
  | mcast => exact (.act fun _ => takeRow_ok : KeepsMemory (execMcast _))
  | fennelPut => exact (.act fun _ => takeRow_ok : KeepsMemory (execFennelPut _))
  | semWait => exact (.act fun _ => takeRow_ok : KeepsMemory (execSemWait _))
  | semSignal => exact (.act fun _ => takeRow_ok : KeepsMemory (execSemSignal _))
  | allreduce => exact (.act fun _ => takeRow_ok : KeepsMemory (execAllreduce _))
  | reduce => exact (.act fun _ => takeRow_ok : KeepsMemory (execReduce _))
  | broadcast => exact (.act fun _ => takeRow_ok : KeepsMemory (execBroadcast _))
  | allgather => exact (.act fun _ => takeRow_ok : KeepsMemory (execAllgather _))
  | treeLoad => exact (.act fun _ => takeRow_ok : KeepsMemory (execTreeLoad _))
  | routeLoad => exact (.act fun _ => takeRow_ok : KeepsMemory (execRouteLoad _))
  | updBind => exact (.act fun _ => takeRow_ok : KeepsMemory (execUpdBind _))
  | updUnbind => exact (.act fun _ => takeRow_ok : KeepsMemory (execUpdUnbind _))
  | stepOpen => exact (.act fun _ => takeRow_ok : KeepsMemory (execStepOpen _))
  | stepOpenHeldStart => exact (.act fun _ => heldStart_ok : KeepsMemory (execStepOpenHeldStart _))
  | stepClose => exact (.act fun _ => takeRow_ok : KeepsMemory (execStepClose _))
  | stepCloseReduce => exact (.act fun _ h => advance_ok (closeReduce_ok h) : KeepsMemory (execStepCloseReduce _))
  | scaleSet => exact (.act fun _ => takeRow_ok : KeepsMemory (execScaleSet _))
  | censusRead => exact (.act fun _ => takeRow_ok : KeepsMemory (execCensusRead _))
  | digest => exact (.act fun _ => takeRow_ok : KeepsMemory (execDigest _))
  | fence => exact (.act fun _ => takeRow_ok : KeepsMemory (execFence _))
  | timestamp => exact (.act fun _ => takeRow_ok : KeepsMemory (execTimestamp _))
  | nop => exact (.act fun _ => takeRow_ok : KeepsMemory (execNop _))
  | badOpcode => exact (.act fun _ => takeRow_ok : KeepsMemory (execBadOpcode _))
  | waitResume => exact (.act fun _ => waitResume_ok : KeepsMemory (execWaitResume _ _))
  | commandComplete => exact (.act fun _ => completeCmd_ok : KeepsMemory (execCommandComplete _ _))
  | irqCoalesceTimeout => exact (.act fun _ => irqTimeout_ok : KeepsMemory (execIrqCoalesceTimeout _))
  | stepMsg => exact (.act fun _ h => linkOn_ok h fun _ h => acceptFlit_ok h fun _ h => advance_ok (stepArrives_ok h)
      : KeepsMemory (execStepMsg _ _ _))
  | stepCloseTimeout => exact (.act fun _ h => advance_ok (closeTimeout_ok h) : KeepsMemory (execStepCloseTimeout _))
  | updPhaseDone => exact (.act fun _ h => advance_ok (phaseDone_ok h) : KeepsMemory (execUpdPhaseDone _))
  | fingerprintCompare => exact (.act fun _ h => awake_ok h fun _ h => ite_ok (fun _ => bgDone_ok (fpSend_ok h)) fun _ => h
      : KeepsMemory (execFingerprintCompare _))
  | fingerprintResult => exact (.act fun _ => fpResult_ok : KeepsMemory (execFingerprintResult _ _ _))
  | copyScrub => exact (.act fun _ => copyScrub_ok : KeepsMemory (execCopyScrub _))
  | collData => exact (.act fun _ h => linkOn_ok h fun _ h => acceptFlit_ok h fun _ h => advance_ok (chunkArrives_ok h)
      : KeepsMemory (execCollData _ _ _))
  | collSpill => exact (.act fun _ h => linkOn_ok h fun _ h => acceptFlit_ok h fun _ h => advance_ok (spillArrives_ok h)
      : KeepsMemory (execCollSpill _ _ _))
  | wr => exact (.act fun _ h => linkOn_ok h fun _ h => acceptFlit_ok h fun _ => serveRequest_ok
      : KeepsMemory (execWr _ _ _ _ _))
  | rdReq => exact (.act fun _ h => linkOn_ok h fun _ h => acceptFlit_ok h fun _ => serveRequest_ok
      : KeepsMemory (execRdReq _ _ _ _ _))
  | semOp => exact (.act fun _ h => linkOn_ok h fun _ h => acceptFlit_ok h fun _ => serveRequest_ok
      : KeepsMemory (execSemOp _ _ _ _ _ _))
  | probe => exact (.act fun _ h => linkOn_ok h fun _ h => acceptFlit_ok h fun _ => serveRequest_ok
      : KeepsMemory (execProbe _ _ _))
  | rdResp => exact (.act fun _ h => linkOn_ok h fun _ h => acceptFlit_ok h fun _ => responseArrives_ok
      : KeepsMemory (execRdResp _ _ _ _))
  | wrAck => exact (.act fun _ h => linkOn_ok h fun _ h => acceptFlit_ok h fun _ => responseArrives_ok
      : KeepsMemory (execWrAck _ _ _))
  | semAck => exact (.act fun _ h => linkOn_ok h fun _ h => acceptFlit_ok h fun _ => responseArrives_ok
      : KeepsMemory (execSemAck _ _ _))
  | probeResp => exact (.act fun _ h => linkOn_ok h fun _ h => acceptFlit_ok h fun _ => responseArrives_ok
      : KeepsMemory (execProbeResp _ _ _))
  | errResp => exact (.act fun _ h => linkOn_ok h fun _ h => acceptFlit_ok h fun _ => responseArrives_ok
      : KeepsMemory (execErrResp _ _ _ _))
  | linkMgmt => exact (.act fun _ h => linkOn_ok h fun _ h => ite_ok (fun _ => linkMgmt_ok h) fun _ => h
      : KeepsMemory (execLinkMgmt _ _ _ _))
  | nack => exact (.act fun _ h => linkOn_ok h fun _ => nackArrives_ok : KeepsMemory (execNack _ _ _ _ _))
  | idle => exact (.act fun _ h => linkOn_ok h fun _ => idleArrives_ok : KeepsMemory (execIdle _ _ _ _))
  | corruptFlit => exact (.act fun _ h => linkOn_ok h fun _ => corruptFlit_ok : KeepsMemory (execCorruptFlit _ _))
  | ackStallReplay => exact (.act fun _ h => linkOn_ok h fun _ => ackStall_ok : KeepsMemory (execAckStallReplay _))
  | ackStallRetrain => exact (.act fun _ h => linkOn_ok h fun _ => ackStall_ok : KeepsMemory (execAckStallRetrain _))
  | linkTrainDone => exact (.act fun _ h => linkOn_ok h fun _ => trainDone_ok : KeepsMemory (execLinkTrainDone _ _ _))
  | linkRetryTimer => exact (.act fun _ h => linkOn_ok h fun _ => linkRetry_ok : KeepsMemory (execLinkRetryTimer _))
  | laneWindowEnd => exact (.act fun _ h => linkOn_ok h fun _ h => ite_ok (fun _ => laneWindow_ok h) fun _ => h
      : KeepsMemory (execLaneWindowEnd _ _ _ _ _))
  | respTimeout => exact (.act fun _ h => linkOn_ok h fun _ => respTimeout_ok : KeepsMemory (execRespTimeout _))
  | probeTick => exact (.act fun _ h => linkOn_ok h fun _ => probeTick_ok : KeepsMemory execProbeTick)
  | peerUnreachable => exact (.act fun _ h => linkOn_ok h fun _ => peerUnreachable_ok : KeepsMemory (execPeerUnreachable _))
  | kringDbSq => exact (.act fun _ h => hostAct_ok h fun _ => dbSq_ok : KeepsMemory (execKringDbSq _ _ _))
  | kringDbCq => exact (.act fun _ h => hostAct_ok h fun _ => dbCq_ok : KeepsMemory (execKringDbCq _ _ _))
  | ringEnable => exact (.act fun _ h => hostAct_ok h fun _ => enableRing_ok : KeepsMemory (execRingEnable _ _))
  | ringDisable => exact (.act fun _ h => hostRing_ok h fun _ => ringDisable_ok : KeepsMemory (execRingDisable _ _))
  | ringAbort => exact (.act fun _ h => hostRing_ok h fun _ => ringAbort_ok : KeepsMemory (execRingAbort _ _))
  | ringClearErr => exact (.act fun _ h => hostRing_ok h fun _ => ringClearErr_ok : KeepsMemory (execRingClearErr _ _))
  | ringFetchError => exact (.act fun _ => ringFetchError_ok : KeepsMemory (execRingFetchError _))
  | msixUnmask => exact (.act fun _ h => hostAct_ok h fun _ h => ite_ok (fun _ => msixUnmask_ok h) fun _ => h
      : KeepsMemory (execMsixUnmask _ _))
  | heartbeatWrite => exact (.act fun _ h => hostAct_ok h fun _ => heartbeatWrite_ok : KeepsMemory (execHeartbeatWrite _ _))
  | heartbeatTimeout => exact (.act fun _ h => portEvent_ok h fun _ => heartbeatTimeout_ok
      : KeepsMemory (execHeartbeatTimeout _))
  | orphanReadAbandon => exact (.act fun _ h => portEvent_ok h fun _ => orphanHold_ok
      : KeepsMemory (execOrphanReadAbandon _))
  | orphanCloseTimeout => exact (.act fun _ h => portEvent_ok h fun _ => orphanClose_ok
      : KeepsMemory (execOrphanCloseTimeout _))
  | attach => exact (.act fun _ h => hostAct_ok h fun _ => portAttach_ok : KeepsMemory (execAttach _))
  | resume => exact (.act fun _ h => hostAct_ok h fun _ => portResume_ok : KeepsMemory (execResume _))
  | resetRings => exact (.act fun _ h => hostAct_ok h fun _ => portResetRings_ok : KeepsMemory (execResetRings _))
  | detach => exact (.act fun _ h => hostAct_ok h fun _ => portDetach_ok : KeepsMemory (execDetach _))
  | adopt => exact (.act fun _ h => hostAct_ok h fun _ => portAdopt_ok : KeepsMemory (execAdopt _))
  | portLevelReset => exact (.act fun _ => portLevelReset_ok : KeepsMemory (execPortLevelReset _ _))
  | perstRelease => exact (.act fun _ => perstRow_ok : KeepsMemory (execPerstRelease _))
  | d3hotEntry => exact (.act fun _ h => hostAct_ok h fun _ => d3Entry_ok : KeepsMemory (execD3hotEntry _))
  | d0Return => exact (.act fun _ h => portEvent_ok h fun _ => d0Return_ok : KeepsMemory (execD0Return _))
  | atsInvalidation => exact (.act fun _ h => hostAct_ok h fun _ => atsInvalidate_ok : KeepsMemory (execAtsInvalidation _ _))
  | evtStatusClear => exact (.act fun _ h => hostAct_ok h fun _ h => ite_ok (fun _ => evtClear_ok h) fun _ => h
      : KeepsMemory (execEvtStatusClear _ _ _))
  | evtEnWrite => exact (.act fun _ h => hostAct_ok h fun _ h => ite_ok (fun _ => evtEnWrite_ok h) fun _ => h
      : KeepsMemory (execEvtEnWrite _ _ _))
  | semValueWrite => exact (.act fun _ h => hostAwake_ok h fun _ h => ite_ok (fun _ => writeSem_ok h) fun _ => h
      : KeepsMemory (execSemValueWrite _ _ _ _))
  | sideInval => exact (.act fun _ h => hostAwake_ok h fun _ h => ite_ok (fun _ => sideInvalidate_ok h) fun _ => h
      : KeepsMemory (execSideInval _ _))
  | arrCntClear => exact (.act fun _ h => hostAwake_ok h fun _ h => ite_ok (fun _ => clearArr_ok h) fun _ => h
      : KeepsMemory (execArrCntClear _ _))
  | safCntClear => exact (.act fun _ h => hostAwake_ok h fun _ h => ite_ok (fun _ => clearSaf_ok h) fun _ => h
      : KeepsMemory (execSafCntClear _ _))
  | cardCntClear => exact (.act fun _ h => hostAwake_ok h fun _ h => ite_ok (fun _ => clearCard_ok h) fun _ => h
      : KeepsMemory (execCardCntClear _ _))
  | lockSet => exact (.act fun _ => lockSet_ok : KeepsMemory (execLockSet _ _))
  | spillHwmRead => exact (.act fun _ => spillHwmRead_ok : KeepsMemory (execSpillHwmRead _ _))
  | registerWrite => exact (.act fun _ => registerWrite_ok : KeepsMemory (execRegisterWrite _ _ _ _ _))
  | mbxDoorbell => exact (.act fun _ h => identAct_ok h fun _ => mbxDoorbell_ok : KeepsMemory (execMbxDoorbell _ _ _))
  | mbxDoneClear => exact (.act fun _ h => identAct_ok h fun _ => mbxDoneClear_ok : KeepsMemory (execMbxDoneClear _ _))
  | mbxChWake => exact (.act fun _ h => identAct_ok h fun _ => mbxWake_ok : KeepsMemory (execMbxChWake _ _))
  | hello => exact (.act fun _ => hello_ok : KeepsMemory (execHello _ _ _))
  | load => exact (.act fun _ => fwLoad_ok : KeepsMemory (execLoad _ _ _))
  | fwRunning => exact (.act fun _ => fwRunning_ok : KeepsMemory execFwRunning)
  | stage => exact (.act fun _ => fwStage_ok : KeepsMemory (execStage _ _ _))
  | activate => exact (.act fun _ => fwActivate_ok : KeepsMemory (execActivate _))
  | cancel => exact (.act fun _ => fwCancel_ok : KeepsMemory (execCancel _))
  | status => exact (.act fun _ => fwStatus_ok : KeepsMemory (execStatus _))
  | activationProceed => exact (.act fun _ => actProceed_ok : KeepsMemory execActivationProceed)
  | activationExpired => exact (.act fun _ => actExpired_ok : KeepsMemory execActivationExpired)
  | handoverResume => exact (.act fun _ => handResume_ok : KeepsMemory execHandoverResume)
  | handoverConfirm => exact (.act fun _ => handConfirm_ok : KeepsMemory execHandoverConfirm)
  | handoverTimeout => exact (.act fun _ => handTimeout_ok : KeepsMemory execHandoverTimeout)
  | compartmentFault => exact (.act fun _ => compFault_ok : KeepsMemory (execCompartmentFault _ _))
  | compartmentWatchdogExpiry => exact (.act fun _ => compFault_ok : KeepsMemory (execCompartmentWatchdogExpiry _))
  | compartmentRestarted => exact (.act fun _ => compRestarted_ok : KeepsMemory (execCompartmentRestarted _))
  | setCap => exact (.act fun _ => setCap_ok : KeepsMemory (execSetCap _ _))
  | setProfile => exact (.act fun _ => setProfile_ok : KeepsMemory (execSetProfile _ _))
  | profileSwitch => exact (.act fun _ => profileSwitch_ok : KeepsMemory execProfileSwitch)
  | setPriority => exact (.act fun _ => setPriority_ok : KeepsMemory (execSetPriority _ _))
  | setClassWeights => exact (.act fun _ => setWeights_ok : KeepsMemory (execSetClassWeights _ _ _ _ _))
  | setDepthRange => exact (.act fun _ => setDepth_ok : KeepsMemory (execSetDepthRange _ _ _))
  | getPolicy => exact (.act fun _ => getPolicy_ok : KeepsMemory (execGetPolicy _))
  | quote => exact (.act fun _ => secQuote_ok : KeepsMemory (execQuote _))
  | getCert => exact (.act fun _ => secCert_ok : KeepsMemory (execGetCert _))
  | sign => exact (.act fun _ => secSign_ok : KeepsMemory (execSign _))
  | configStage => exact (.act fun _ => secStage_ok : KeepsMemory (execConfigStage _ _ _))
  | floorRaise => exact (.act fun _ => secFloor_ok : KeepsMemory (execFloorRaise _))
  | getChallenge => exact (.act fun _ => secChallenge_ok : KeepsMemory (execGetChallenge _))
  | unlock => exact (.act fun _ => secUnlock_ok : KeepsMemory (execUnlock _))
  | resetPackage => exact (.act fun _ => resetPackage_ok : KeepsMemory (execResetPackage _))
  | resetDie => exact (.act fun _ => resetDie_ok : KeepsMemory (execResetDie _ _))
  | resetCore => exact (.act fun _ => resetCore_ok : KeepsMemory (execResetCore _ _))
  | resetStack => exact (.act fun _ => resetStack_ok : KeepsMemory (execResetStack _ _))
  | resetLink => exact (.act fun _ => resetLink_ok : KeepsMemory (execResetLink _ _))
  | clearPinned => exact (.act fun _ => clearPinned_ok : KeepsMemory (execClearPinned _ _))
  | quiesceForcedIdle => exact (.act fun _ => forcedIdle_ok : KeepsMemory (execQuiesceForcedIdle _ _ _ _))
  | dieResetRelease => exact (.act fun _ => dieRelease_ok : KeepsMemory (execDieResetRelease _))
  | coreResetRelease => exact (.act fun _ => coreRelease_ok : KeepsMemory (execCoreResetRelease _))
  | lyrHoldLimit => exact (.act fun _ => holdLimit_ok : KeepsMemory (execLyrHoldLimit _))
  | stackBaseResetDone => exact (.act fun _ => stackDone_ok : KeepsMemory (execStackBaseResetDone _))
  | memHoldLimit => exact (.act fun _ => holdLimit_ok : KeepsMemory (execMemHoldLimit _))
  | pkgResetPin => exact (.act fun _ => warmReset_ok : KeepsMemory execPkgResetPin)
  | powerApply => exact (.act fun _ => powerApply_ok : KeepsMemory execPowerApply)
  | mainPowerStable => exact (.act fun _ => mainStable_ok : KeepsMemory execMainPowerStable)
  | inputRemoved => exact (.act fun _ => inputRemoved_ok : KeepsMemory execInputRemoved)
  | inputSample => exact (.act fun _ => inputSample_ok : KeepsMemory (execInputSample _ _ _))
  | inputUndervoltage => exact (.act fun _ => undervoltage_ok : KeepsMemory execInputUndervoltage)
  | undervoltageClear => exact (.act fun _ => undervoltageClear_ok : KeepsMemory execUndervoltageClear)
  | undervoltageShutdown => exact (.act fun _ => inputShutdown_ok : KeepsMemory execUndervoltageShutdown)
  | overvoltageShutdown => exact (.act fun _ => inputShutdown_ok : KeepsMemory execOvervoltageShutdown)
  | inputRestart => exact (.act fun _ => inputRestart_ok : KeepsMemory execInputRestart)
  | hwCapLoop => exact (.act fun _ h => ite_ok (fun _ => hwCapLoop_ok h) fun _ => h : KeepsMemory (execHwCapLoop _ _ _))
  | fwCapLoop => exact (.act fun _ => fwCapLoop_ok : KeepsMemory (execFwCapLoop _ _ _ _ _ _ _ _))
  | stepChangeDone => exact (.act fun _ => stepChangeDone_ok : KeepsMemory (execStepChangeDone _))
  | stackPowerWindow => exact (.act fun _ h => ite_ok (fun _ => stackWindow_ok h) fun _ => h
      : KeepsMemory (execStackPowerWindow _ _ _ _ _))
  | droopDetect => exact (.act fun _ h => ite_ok (fun _ => droopDetect_ok h) fun _ => h : KeepsMemory (execDroopDetect _))
  | droopStormEnd => exact (.act fun _ h => ite_ok (fun _ => droopStormEnd_ok h) fun _ => h
      : KeepsMemory (execDroopStormEnd _))
  | thermalSample => exact (.act fun _ => thermalSample_ok : KeepsMemory (execThermalSample _ _ _))
  | warningStepDown => exact (.act fun _ h => ite_ok (fun _ => warningStepDown_ok h) fun _ => h
      : KeepsMemory (execWarningStepDown _))
  | throttleEscalate => exact (.act fun _ h => ite_ok (fun _ => powered_ok h fun _ => throttleEscalate_ok) fun _ => h
      : KeepsMemory (execThrottleEscalate _ _))
  | throttleRelease => exact (.act fun _ h => ite_ok (fun _ => powered_ok h fun _ => throttleRelease_ok) fun _ => h
      : KeepsMemory (execThrottleRelease _ _))
  | thermalRestart => exact (.act fun _ => thermalRestart_ok : KeepsMemory execThermalRestart)
  | canaryUpdate => exact (.act fun _ => canaryUpdate_ok : KeepsMemory (execCanaryUpdate _ _ _))
  | layerModelUpdate => exact (.act fun _ => layerModelUpdate_ok : KeepsMemory (execLayerModelUpdate _ _))
  | layerGovernUpdate => exact (.act fun _ => layerGovern_ok : KeepsMemory (execLayerGovernUpdate _))
  | suspectFlagTick => exact (.act fun _ h => ite_ok (fun _ => suspectTick_ok h) fun _ => h
      : KeepsMemory (execSuspectFlagTick _))
  | suspectEpisodeClose => exact (.act fun _ h => ite_ok (fun _ => suspectClose_ok h) fun _ => h
      : KeepsMemory (execSuspectEpisodeClose _))
  | bondLaneRepair => exact (.act fun _ => laneRepair_ok : KeepsMemory (execBondLaneRepair _ _ _))
  | bondRowReplace => exact (.act fun _ => rowReplace_ok : KeepsMemory (execBondRowReplace _ _ _))
  | pcRetire => exact (.act fun _ => pcRetire_ok : KeepsMemory (execPcRetire _))
  | spareCopyDone => exact (.act fun _ => spareDone_ok : KeepsMemory (execSpareCopyDone _))
  | capacityMoveDone => exact (.act fun _ => capacityDone_ok : KeepsMemory (execCapacityMoveDone _ _))
  | resourceRetire => exact (.act fun _ => resourceRetire_ok : KeepsMemory (execResourceRetire _ _ _))
  | registryCompact => exact (.act fun _ => registryCompact_ok : KeepsMemory execRegistryCompact)
  | nutmegMirror => exact (.act fun _ => nutmegMirror_ok : KeepsMemory execNutmegMirror)
  | dramPatrolScrub => exact (.act fun _ => dramScrub_ok : KeepsMemory execDramPatrolScrub)
  | layerScrub => exact (.act fun _ => layerScrub_ok : KeepsMemory execLayerScrub)
  | linkPhyRecal => exact (.act fun _ => phyRecal_ok : KeepsMemory (execLinkPhyRecal _ _))
  | memIfCal => exact (.act fun _ => memCal_ok : KeepsMemory (execMemIfCal _))
  | sensorCal => exact (.act fun _ => sensorCal_ok : KeepsMemory (execSensorCal _ _))
  | ageingProbe => exact (.act fun _ => probeRegion_ok : KeepsMemory (execAgeingProbe _ _ _))
  | telemetrySample => exact (.act fun _ => telemetrySample_ok : KeepsMemory execTelemetrySample)
  | bgDeferralReached => exact (.act fun _ => bgDeferral_ok : KeepsMemory (execBgDeferralReached _))
  | marginReplan => exact (.act fun _ => marginReplan_ok : KeepsMemory (execMarginReplan _ _))
  | fennelLand => exact (.act fun _ => fennelLandRow_ok : KeepsMemory (execFennelLand _))
  | offloadCopyOut => exact (.act fun _ => offloadStart_ok : KeepsMemory (execOffloadCopyOut _))
  | restoreStart => exact (.act fun _ => restoreStart_ok : KeepsMemory (execRestoreStart _))
  | recompute => exact (.act fun _ => recompute_ok : KeepsMemory (execRecompute _))
  | stageCreditReturn => exact (.act fun _ => creditReturn_ok : KeepsMemory (execStageCreditReturn _))
  | stageStallRecord => exact (.act fun _ => stallRecord_ok : KeepsMemory (execStageStallRecord _))
  | sleepEntry => exact (.act fun _ => sleepEntry_ok : KeepsMemory execSleepEntry)
  | linkActivityWake => exact (.act fun _ => linkWake_ok : KeepsMemory (execLinkActivityWake _))
  | bmRegisterRead => exact (.act fun _ => bmRead_ok : KeepsMemory (execBmRegisterRead _ _))
  | bmRegisterWrite => exact (.act fun _ => bmWrite_ok : KeepsMemory (execBmRegisterWrite _ _))
  | bmRestart => exact (.act fun _ => bmRestart_ok : KeepsMemory execBmRestart)
  | bmPackageReset => exact (.act fun _ => bmPackageReset_ok : KeepsMemory execBmPackageReset)
  | entDaa => exact (.act fun _ => entDaa_ok : KeepsMemory (execEntDaa _))
  | rstDaa => exact (.act fun _ => rstDaa_ok : KeepsMemory execRstDaa)
  | enec => exact (.act fun _ => enEc_ok : KeepsMemory execEnec)
  | disec => exact (.act fun _ => disEc_ok : KeepsMemory execDisec)
  | getPid => exact (.act fun _ => bmDirect_ok : KeepsMemory execGetPid)
  | getBcr => exact (.act fun _ => bmDirect_ok : KeepsMemory execGetBcr)
  | getDcr => exact (.act fun _ => bmDirect_ok : KeepsMemory execGetDcr)
  | getStatus => exact (.act fun _ => getStatus_ok : KeepsMemory execGetStatus)
  | getMxds => exact (.act fun _ => bmDirect_ok : KeepsMemory execGetMxds)
  | tapBypass => exact (.act fun _ => tapRun_ok : KeepsMemory execTapBypass)
  | tapIdcode => exact (.act fun _ => tapRun_ok : KeepsMemory execTapIdcode)
  | tapSamplePreload => exact (.act fun _ => tapRun_ok : KeepsMemory (execTapSamplePreload _))
  | tapExtest => exact (.act fun _ => tapRun_ok : KeepsMemory (execTapExtest _))
  | tapClamp => exact (.act fun _ => tapRun_ok : KeepsMemory execTapClamp)
  | tapHighz => exact (.act fun _ => tapRun_ok : KeepsMemory execTapHighz)
  | tapExtestPulse => exact (.act fun _ => tapRun_ok : KeepsMemory execTapExtestPulse)
  | tapExtestTrain => exact (.act fun _ => tapRun_ok : KeepsMemory execTapExtestTrain)
  | tapInternalScan => exact (.act fun _ => tapRun_ok : KeepsMemory (execTapInternalScan _))
  | restoreComplete => exact (.act fun _ h => advance_ok (restoreDone_ok h) : KeepsMemory (execRestoreComplete _))
  | offloadCopyDone => exact (.act fun _ h => advance_ok (offloadDone_ok h) : KeepsMemory (execOffloadCopyDone _))
  | updateUnitFault => exact (.act fun _ => updateFault_ok : KeepsMemory (execUpdateUnitFault _))
  | stackBaseFault => exact (.act fun _ => stackFault_ok : KeepsMemory (execStackBaseFault _))
  | hostLinkTrained => exact (.act fun _ h => portEvent_ok h fun _ => hostTrained_ok : KeepsMemory (execHostLinkTrained _))

/-! ### Steps -/

theorem step_cons (c : Instr) (s : State) : step { s with pending := c :: s.pending } = exec c s := rfl

theorem step_nil (d : Dev) : step { dev := d, pending := [] } = .next (idleTick { dev := d, pending := [] }) := rfl

theorem idleTick_eq (s : State) : idleTick s =
    { s with dev := if s.dev.pwr.state = .unpowered then s.dev else { s.dev with time := s.dev.time + 40 } } := by
  unfold idleTick
  split <;> rfl

theorem idleTick_memOk {s : State} (h : MemOk s.dev) : MemOk (idleTick s).dev := by
  rw [idleTick_eq]
  exact ite_ok (fun _ => h) fun _ => h

/-- Settles O1: by the two cases of `step`. -/
theorem stepRunsFrontCommand : Obligations.StepRunsFrontCommand :=
  ⟨step_cons, fun d => by rw [step_nil, idleTick_eq]⟩

/-- Settles O2: the function of the device is that of the command's row. -/
theorem everyCommandAnswers : Obligations.EveryCommandAnswers := fun c =>
  let ⟨f, hact, _⟩ := exec_keepsMemory c
  ⟨f, fun s => act_runs c s f (hact s)⟩

/-- Settles O3, by induction on the queue: its front command runs first, on the rest of the queue. -/
theorem queueRunsFirstInFirstOut : Obligations.QueueRunsFirstInFirstOut := by
  intro cs
  induction cs with
  | nil => exact fun d => ⟨d, rfl, rfl⟩
  | cons c rest ih =>
    intro d
    obtain ⟨f, hruns⟩ := everyCommandAnswers c
    obtain ⟨e, hall, hsteps⟩ := ih (f d)
    have hstep : step { dev := d, pending := c :: rest } = .next { dev := f d, pending := rest } := hruns ⟨d, rest⟩
    have hexec : exec c { dev := d, pending := [] } = .next { dev := f d, pending := [] } := hruns ⟨d, []⟩
    refine ⟨e, ?_, ?_⟩
    · rw [afterAll, hexec]
      exact hall
    · rw [List.length_cons, afterSteps, hstep]
      exact hsteps

/-- Settles O4: a step is a command, which keeps the form whatever its row, or an idle tick, which leaves the memory alone. -/
theorem memoryStaysCanonical : Obligations.MemoryStaysCanonical := by
  rintro ⟨d, pending⟩ t hwf hstep
  have hok : MemOk d := hwf
  cases pending with
  | nil =>
    obtain rfl := Host.Outcome.next.inj hstep
    exact idleTick_memOk hok
  | cons c rest =>
    obtain ⟨f, hact, hkeep⟩ := exec_keepsMemory c
    have hnext : act ⟨d, rest⟩ f = .next t := (hact ⟨d, rest⟩).symm.trans hstep
    rw [act_next hnext]
    exact hkeep d hok

end Sys2Proof.Machine
end

