-- ==== Sys2Proof/Proofs/EventsAndLocks.lean ====
section
/-! PROOF. The event banks and ALERT_N (R461, R467), the lock bits and the register that a read clears (R444, R10). -/
namespace Sys2Proof.Machine

theorem port_lt_of_answers {d : Dev} {p : Nat} (h : portAnswers d p = true) : p < 2 := by
  simp only [portAnswers, Bool.and_eq_true, decide_eq_true_eq] at h
  obtain ⟨⟨⟨⟨hp, -⟩, -⟩, -⟩, -⟩ := h
  exact hp

/-! ### Event banks -/

section
variable {s : State} {p bank : Nat} (v : BitVec 64)

theorem evtStatusClear_runs (hp : portAnswers s.dev p = true) (hb : bank < 2) :
    Runs (.evtStatusClear p bank v) s (evtClear s.dev p bank v.toNat) := by
  have hrun := host_runs (i := .evtStatusClear p bank v)
    (f := fun d => if bank < 2 then evtClear d p bank v.toNat else d) rfl hp
  rwa [if_pos hb] at hrun

theorem evtEnWrite_runs (hp : portAnswers s.dev p = true) (hb : bank < 2) :
    Runs (.evtEnWrite p bank v) s (evtEnWrite s.dev p bank (bits v.toNat 11 0)) := by
  have hrun := host_runs (i := .evtEnWrite p bank v)
    (f := fun d => if bank < 2 then evtEnWrite d p bank (bits v.toNat 11 0) else d) rfl hp
  rwa [if_pos hb] at hrun

end

theorem bankAct_own (d : Dev) (p : Nat) (f : Dev → Dev) : bankAct d p p f = f d := if_pos rfl

theorem bankAct_foreign {d : Dev} {p q : Nat} {f : Dev → Dev} (h : q ≠ p) :
    bankAct d p q f = fsat d hpErrForeignWrite p 1 := if_neg (Ne.symm h)

theorem bankVector_eq (d : Dev) (p : Nat) : bankVector d p =
    if regGet d .hpEvtStatus p &&& regGet d .hpEvtEn p = 0 then d else sendVector d p 0 := ite_not ..

theorem evtClear_own (d : Dev) (p v : Nat) : evtClear d p p v =
    bankVector (regSet d .hpEvtStatus p (regGet d .hpEvtStatus p - (regGet d .hpEvtStatus p &&& v))) p := bankAct_own d p _

theorem evtEnWrite_own (d : Dev) (p v : Nat) : evtEnWrite d p p v = bankVector (fset d hpEvtEnEn p v) p := bankAct_own d p _

/-- Settles O16: the port's own bank takes the write and tells its vector, the other bank counts it. -/
theorem eventBanksClearAndEnable : Obligations.EventBanksClearAndEnable := by
  intro s p bank v hp hb d told
  have hclear := evtStatusClear_runs v hp hb
  have henable := evtEnWrite_runs v hp hb
  have hp20 : p < 2 ^ 20 := by
    have := port_lt_of_answers hp
    omega
  refine ⟨?_, fun hforeign => ⟨?_, ?_⟩⟩
  · rintro rfl
    rw [evtClear_own, bankVector_eq] at hclear
    rw [evtEnWrite_own, bankVector_eq] at henable
    refine ⟨⟨_, hclear, onlyRegs_regSet (onlyRegs_refl d _) hp20 (List.mem_singleton_self _), regGet_regSet_self ..⟩,
      ⟨_, henable, onlyRegs_fset (onlyRegs_refl d _) hp20 (List.mem_singleton_self _), ?_⟩⟩
    have hbits : bits v.toNat 11 0 = v.toNat % 4096 := congrArg (· % 4096) (Nat.div_one _)
    rw [hbits]
    exact fget_fset_of_lt (Nat.mod_lt _ (by decide))
  · rwa [evtClear, bankAct_foreign hforeign] at hclear
  · rwa [evtEnWrite, bankAct_foreign hforeign] at henable

/-! ### ALERT_N -/

theorem ne_zero_iff_testBit (x : Nat) : x ≠ 0 ↔ ∃ k, x.testBit k = true :=
  ⟨Nat.exists_testBit_of_ne_zero, fun ⟨k, hk⟩ h0 => by simp [h0] at hk⟩

theorem any_two_iff (q : Nat → Bool) : [0, 1].any q = true ↔ ∃ p, p < 2 ∧ q p = true := by
  constructor
  · intro h
    obtain ⟨p, hmem, hq⟩ := List.any_eq_true.1 h
    refine ⟨p, ?_, hq⟩
    simp only [List.mem_cons, List.not_mem_nil, or_false] at hmem
    omega
  · rintro ⟨p, hp, hq⟩
    exact List.any_eq_true.2 ⟨p, List.mem_range.2 hp, hq⟩

theorem warned_iff (d : Dev) (x : Nat) : warned d x = true ↔ ∃ loc, loc < 3 ∧ 1 ≤ level d x loc := by
  have hrange : [0, 1, 2] = List.range 3 := rfl
  simp only [warned, hrange, List.any_eq_true, List.mem_range, decide_eq_true_eq]

/-- Settles O60: each of the two causes of the pin, unfolded to its bits and levels. -/
theorem alertFollowsEventsAndWarnings : Obligations.AlertFollowsEventsAndWarnings := by
  intro d
  rw [alertLow, Bool.or_eq_true, any_two_iff, any_two_iff]
  refine or_congr ?_ ?_
  · simp only [bne_iff_ne, ne_zero_iff_testBit, exists_and_left]
  · simp only [warned_iff, exists_and_left]

/-! ### Locks and reads that clear -/

theorem lockSet_runs {s : State} {p k i : Nat} {f : Field} (hp : portAnswers s.dev p = true) (ha : asleep s.dev = false)
    (hk : lockFields[k]? = some (f, i)) : Runs (.lockSet p k) s (fset s.dev f i 1) := by
  have hrun : Runs (.lockSet p k) s (lockSet s.dev p k) := act_runs _ s (lockSet · p k) rfl
  simp only [lockSet, hk, hostAct_answers hp, ha, Bool.false_eq_true, if_false] at hrun
  exact hrun

/-- A lock is a single bit of a register of the first or the second die or port. -/
theorem lockFields_bits : ∀ x ∈ lockFields, x.1.hi = x.1.lo ∧ x.2 < 2 := by decide

theorem dieAway_safSpillHwm (d : Dev) (e : Nat) : dieAway d .safSpillHwm e = inReset d 2 e := by
  have hdiv : e / (Reg.safSpillHwm.info.count / 2) = e := Nat.div_one e
  rw [dieAway, hdiv]
  exact Bool.true_and _

/-- The read of SAF_SPILL_HWM that answers: its value goes out, then it starts anew from the free records. -/
def hwmRead (d : Dev) (p e : Nat) : Dev :=
  fset (emit d (.answer p (fget d safSpillHwmMinFree e))) safSpillHwmMinFree e (fget d safSpillFreeFree e)

section
variable {s : State} {p e : Nat} (hp : portAnswers s.dev p = true)
include hp

theorem spillHwmRead_runs (ha : asleep s.dev = false) (he : e < 2) (hr : inReset s.dev 2 e = false) :
    Runs (.spillHwmRead p e) s (hwmRead s.dev p e) := by
  have hrun : Runs (.spillHwmRead p e) s (spillHwmRead s.dev p e) := act_runs _ s (spillHwmRead · p e) rfl
  rw [spillHwmRead, hostAct_answers hp, ha, dieAway_safSpillHwm, hr, if_neg (by decide), if_pos he] at hrun
  exact hrun

theorem spillHwmRead_runs_inReset (hr : inReset s.dev 2 e = true) : Runs (.spillHwmRead p e) s (emit s.dev (.abort p)) := by
  have hrun : Runs (.spillHwmRead p e) s (spillHwmRead s.dev p e) := act_runs _ s (spillHwmRead · p e) rfl
  rw [spillHwmRead, hostAct_answers hp, dieAway_safSpillHwm, hr, Bool.or_true, if_pos rfl] at hrun
  exact hrun

end

/-- Settles O20: a lock is one field set to 1, and the read answers, then sets its own field anew. -/
theorem locksAndReadClears : Obligations.LocksAndReadClears := by
  intro s p hp ha d
  refine ⟨fun k f i hk => ?_, fun die hdie hr => ?_, fun die _ hr => spillHwmRead_runs_inReset hp hr⟩
  · obtain ⟨hbit, hi⟩ := lockFields_bits (f, i) (List.mem_of_getElem? hk)
    refine ⟨_, lockSet_runs hp ha hk, onlyRegs_fset (onlyRegs_refl d _) (by omega) (List.mem_singleton_self _), ?_⟩
    have hone : f.hi + 1 - f.lo = 1 := by
      have : f.hi = f.lo := hbit
      omega
    exact fget_fset_of_lt (by rw [hone]; decide)
  · refine ⟨_, spillHwmRead_runs hp ha hdie hr, rfl, rfl, rfl, fget_fset_self .., fun r j hj hne => ?_⟩
    have hother : r.ctorIdx ≠ Reg.safSpillHwm.ctorIdx ∨ j ≠ die := by
      by_cases hjd : j = die
      · exact .inl fun hreg => hne (by rw [reg_ctorIdx_inj hreg, hjd])
      · exact .inr hjd
    exact regGet_regSet_other _ _ r die j _ (by omega) hj hother

end Sys2Proof.Machine
end

