-- ==== Sys2Proof/Proofs/HeldRestart.lean ====
section
/-! PROOF. A restart that board management asks for (R404) is a start-up, and a registry entry that names a unit beyond the last
of its register reaches the cause that it shows (Table 16.6, R417). -/
namespace Sys2Proof.Machine

theorem eq_of_runs_bmRestart {s : State} {e : Dev} (h : Runs .bmRestart s e) : e = bmRestart s.dev :=
  (congrArg State.dev (Host.Outcome.next.inj h)).symm

/-- The device with the restart noted that board management has asked for. -/
def asked (d : Dev) : Dev := { d with pwr := { d.pwr with restartAsked := true } }

/-- A cool device held after three thermal shutdowns starts at once (R404). -/
theorem bmRestart_held {d : Dev} (hstandby : standbyAfter d (fun c => decide (1 ≤ c ∧ c ≤ 3)) = true)
    (hhold : fget d thmShutdownHold 0 = 1) (hcool : coolEnough d = true) : bmRestart d = coldStart (asked d) 1 := by
  have hasked : standbyAfter (asked d) (fun c => decide (1 ≤ c ∧ c ≤ 3)) = true := hstandby
  have hcool' : coolEnough (asked d) = true := hcool
  have hthermal : thermalRestart (asked d) = coldStart (asked d) 1 := by
    have hasks : (asked d).pwr.restartAsked = true := rfl
    rw [thermalRestart, hasked, hcool', hasks, Bool.or_true, Bool.and_true, Bool.and_true, if_pos rfl]
  rw [← hthermal, bmRestart, askRestart, hstandby, hhold, if_pos (by decide)]
  exact if_pos hcool'

/-- `strayRegistryDev`, held after three thermal shutdowns. -/
def strayHeldDev : Dev := fset (fset strayRegistryDev thmShutdownCause 0 1) thmShutdownHold 0 1

/-- Its registry puts the unit that it names into service, and clears the cause with that. -/
theorem nvmApplied_strayHeldDev : fget (nvmApplied (restarted (asked strayHeldDev) 1)) aniResetCauseCause 0 = 0 ∧
    (nvmApplied (restarted (asked strayHeldDev) 1)).env.defects = [] := by
  decide +kernel

theorem bmRestart_strayHeldDev : fget (bmRestart strayHeldDev) aniResetCauseCause 0 = 0 := by
  obtain ⟨hcause, hgood⟩ := nvmApplied_strayHeldDev
  rw [bmRestart_held (by decide +kernel) (by decide +kernel) (by decide +kernel)]
  exact (coldStart_keepsCause (by decide) hgood).cause.trans hcause

/-- Refutes O58, in its clause on BM_RESTART: the statement asks nothing of the registry, and `strayHeldDev`, whose registry
names a spare beyond the last pseudo-channel, restarts with cause 0 in place of 1. -/
theorem not_boardManagementReadsAndWrites : ¬ Obligations.BoardManagementReadsAndWrites := by
  intro h
  obtain ⟨-, -, -, -, -, -, -, -, -, -, -, -, -, -, -, hrestart⟩ := h ⟨strayHeldDev, []⟩
  have hheld : strayHeldDev.pwr.state = .standby ∧ 1 ≤ fget strayHeldDev thmShutdownCause 0 ∧
      fget strayHeldDev thmShutdownCause 0 ≤ 3 ∧ fget strayHeldDev thmShutdownHold 0 = 1 := by decide +kernel
  obtain ⟨e, hrun, -, hcause, -⟩ := hrestart hheld (by decide +kernel)
  rw [eq_of_runs_bmRestart hrun, bmRestart_strayHeldDev] at hcause
  exact absurd hcause (by decide)

end Sys2Proof.Machine
end

