-- ==== Sys2Proof/Proofs/BoundaryScan.lean ====
section
/-! PROOF. Boundary scan (R471, R451): what the TAP selects at each level, and what hosts and peers see of the pins that it
drives (R333, R285). -/
namespace Sys2Proof.Machine

/-! ### What is seen of links and ports -/

/-- The registers that say where memory is logged to, and the states of links and ports. -/
def pinRegs : List Reg := [.nutCfg, .nutTelCfg, .blLinkStatus, .hpPortState]

/-- From `d` to `e` the sideband, the power state and the memory outside the logs are as before; the 36 links stand in the
states `link`, the two ports in the states `port`. -/
structure Seen (d e : Dev) (link port : Nat → Nat) : Prop where
  side : e.side = d.side
  pwr : e.pwr = d.pwr
  mem : MemKept d e
  nutCfg : regGet e .nutCfg 0 = regGet d .nutCfg 0
  nutTelCfg : regGet e .nutTelCfg 0 = regGet d .nutTelCfg 0
  link : ∀ n, n < 36 → fget e blLinkStatusState n = link n
  port : ∀ p, p < 2 → portState e p = port p

/-- States of links or ports, with the one at `k` replaced. -/
def setAt (f : Nat → Nat) (k v n : Nat) : Nat := if n = k then v else f n

theorem setAt_apply (f : Nat → Nat) (k v n : Nat) : setAt f k v n = if n = k then v else f n := rfl

theorem setAt_self (f : Nat → Nat) (k : Nat) : setAt f k (f k) = f := by
  funext n
  rw [setAt_apply]
  split
  next hnk => rw [hnk]
  next => rfl

namespace Seen

theorem refl (d : Dev) : Seen d d (fget d blLinkStatusState) (portState d) :=
  ⟨rfl, rfl, memKept_refl d, rfl, rfl, fun _ _ => rfl, fun _ _ => rfl⟩

variable {d e : Dev} {link port : Nat → Nat}

/-- What leaves the registers of the pins alone. -/
theorem then_calm {x : Dev} (h : Seen d e link port) (hside : x.side = e.side) (hpwr : x.pwr = e.pwr) (hmem : MemKept e x)
    (hregs : ∀ r ∈ pinRegs, ∀ i, i < 2 ^ 20 → regGet x r i = regGet e r i) : Seen d x link port where
  side := hside.trans h.side
  pwr := hpwr.trans h.pwr
  mem := memKept_trans h.nutCfg h.nutTelCfg h.mem hmem
  nutCfg := (hregs _ (by decide) 0 (by decide)).trans h.nutCfg
  nutTelCfg := (hregs _ (by decide) 0 (by decide)).trans h.nutTelCfg
  link n hn := (congrArg (bits · _ _) (hregs .blLinkStatus (by decide) n (by omega))).trans (h.link n hn)
  port p hp := (congrArg (bits · _ _) (hregs .hpPortState (by decide) p (by omega))).trans (h.port p hp)

theorem then_same {x : Dev} (h : Seen d e link port) (hregs : x.regs = e.regs) (hside : x.side = e.side) (hpwr : x.pwr = e.pwr)
    (hmem : x.mem = e.mem) (hmarks : x.marks = e.marks) : Seen d x link port :=
  h.then_calm hside hpwr (memKept_same hmem hmarks) fun r _ i _ => regGet_congr hregs r i

theorem then_noted {x : Dev} (h : Seen d e link port) (hn : Noted e x) : Seen d x link port := by
  have hother : ∀ r ∈ pinRegs, r ≠ .nutStatus ∧ r ≠ .nutTelStatus ∧ r ≠ .hpEvtStatus := by decide
  refine h.then_calm (by rw [hn.1]) (by rw [hn.1]) (noted_mem hn) fun r hr i hi => ?_
  obtain ⟨h1, h2, h3⟩ := hother r hr
  exact hn.2.2 r i hi h1 h2 h3

theorem then_nutmeg (h : Seen d e link port) (x : NutEvent) : Seen d (nutmeg e x) link port :=
  h.then_noted (nutmeg_noted (noted_refl e))

theorem then_evtSet (h : Seen d e link port) (k : Nat) : Seen d (evtSet e k) link port :=
  h.then_noted (evtSet_noted (noted_refl e))

theorem then_regSet {r : Reg} {i v : Nat} (h : Seen d e link port) (hi : i < 2 ^ 20) (hr : r ∉ pinRegs) :
    Seen d (regSet e r i v) link port :=
  h.then_calm rfl rfl (memKept_same rfl rfl) fun q hq j hj =>
    regGet_regSet_other e r q i j v hi hj (.inl fun hc => hr (reg_ctorIdx_inj hc ▸ hq))

theorem then_foldl {α : Type} {g : Dev → α → Dev} {xs : List α} (h : Seen d e link port)
    (hstep : ∀ b, Seen d b link port → ∀ x ∈ xs, Seen d (g b x) link port) : Seen d (xs.foldl g e) link port :=
  List.foldlRecOn xs g h hstep

theorem then_ite {c : Prop} [Decidable c] {a b : Dev} (ha : Seen d a link port) (hb : Seen d b link port) :
    Seen d (if c then a else b) link port := by
  split
  · exact ha
  · exact hb

theorem then_updLink (h : Seen d e link port) (n : Nat) (f : Link → Link) : Seen d (updLink e n f) link port :=
  h.then_same rfl rfl rfl rfl rfl

theorem then_updPort (h : Seen d e link port) (p : Nat) (f : PortRun → PortRun) : Seen d (updPort e p f) link port :=
  h.then_same rfl rfl rfl rfl rfl

/-- A link or a port changes its state, by a field of a register that does not say where memory is logged to. -/
theorem then_state {f : Field} {i v : Nat} {link' port' : Nat → Nat} (h : Seen d e link port) (hi : i < 2 ^ 20)
    (hnut : Reg.nutCfg.ctorIdx ≠ f.reg.ctorIdx) (htel : Reg.nutTelCfg.ctorIdx ≠ f.reg.ctorIdx)
    (hlink : ∀ n, n < 36 → fget (fset e f i v) blLinkStatusState n = link' n)
    (hport : ∀ p, p < 2 → portState (fset e f i v) p = port' p) : Seen d (fset e f i v) link' port' where
  side := (fset_side e f i v).trans h.side
  pwr := (fset_pwr e f i v).trans h.pwr
  mem := memKept_trans h.nutCfg h.nutTelCfg h.mem (memKept_same (fset_mem e f i v) (fset_marks e f i v))
  nutCfg := (regGet_regSet_other e _ _ i 0 _ hi (by decide) (.inl hnut)).trans h.nutCfg
  nutTelCfg := (regGet_regSet_other e _ _ i 0 _ hi (by decide) (.inl htel)).trans h.nutTelCfg
  link := hlink
  port := hport

theorem then_link {n v : Nat} (h : Seen d e link port) (hn : n < 36) (hv : v < 4) :
    Seen d (fset e blLinkStatusState n v) (setAt link n v) port := by
  refine h.then_state (by omega) (by decide) (by decide) (fun m hm => ?_) fun p hp => ?_
  · rw [setAt_apply]
    split
    next hmn => rw [hmn]; exact fget_fset_of_lt hv
    next hmn => exact (fget_fset_other e _ _ n m v (by omega) (by omega) (.inr hmn)).trans (h.link m hm)
  · exact (fget_fset_other e _ _ n p v (by omega) (by omega) (.inl (by decide))).trans (h.port p hp)

theorem then_port {p v : Nat} (h : Seen d e link port) (hp : p < 2) (hv : v < 16) :
    Seen d (fset e hpPortStateState p v) link (setAt port p v) := by
  refine h.then_state (by omega) (by decide) (by decide) (fun n hn => ?_) fun q hq => ?_
  · exact (fget_fset_other e _ _ p n v (by omega) (by omega) (.inl (by decide))).trans (h.link n hn)
  · rw [setAt_apply]
    split
    next hqp => rw [hqp]; exact fget_fset_of_lt hv
    next hqp => exact (fget_fset_other e _ _ p q v (by omega) (by omega) (.inr hqp)).trans (h.port q hq)

/-! ### A port whose link goes down -/

theorem then_setPortState {p v : Nat} (h : Seen d e link port) (hp : p < 2) (hv : v < 16) :
    Seen d (setPortState e p v) link (setAt port p v) := by
  unfold setPortState
  split
  next hsame =>
    rw [← hsame, h.port p hp, setAt_self]
    exact h
  next => exact (h.then_port hp hv).then_evtSet 3

theorem then_orphanPort {p : Nat} (h : Seen d e link port) (hp : p < 2) :
    Seen d (orphanPort e p) link (setAt port p 2) :=
  ((h.then_updPort p _).then_setPortState hp (by decide)).then_nutmeg _

theorem then_resetPortDomain {p : Nat} (h : Seen d e link port) (hp : p < 2) : Seen d (resetPortDomain e p) link port := by
  unfold resetPortDomain
  extract_lets clear d1
  have h1 : Seen d d1 link port := h.then_foldl fun b hb r hr => by
    have hout : ∀ r ∈ [Reg.hpHeartbeat, .hpDrvVersion, .hpEvtEn], r ∉ pinRegs := by decide
    exact hb.then_regSet (by omega) (hout r hr)
  refine h1.then_foldl fun b hb c hc => hb.then_regSet ?_ (by decide)
  have := List.mem_range.1 (List.mem_filter.1 hc).1
  omega

end Seen

/-- A port after its link has gone down: a detached one is link down, an attached one in orphan hold (R333). -/
def portAfter (x : Nat) : Nat :=
  match x with
  | 0 => 4 | 1 => 2 | x => x

theorem portAfter_other {x : Nat} (h0 : x ≠ 0) (h1 : x ≠ 1) : portAfter x = x := by
  unfold portAfter
  split
  · exact absurd rfl h0
  · exact absurd rfl h1
  · rfl

theorem portLevelReset_linkDown {p : Nat} (d : Dev) (hp : p < 2) :
    portLevelReset d p .linkDown = if mainPower d then portReset d p else d := by
  rw [portLevelReset, if_neg (Nat.not_le.2 hp)]
  exact if_neg (by decide)

/-- A link after it has been taken down: a retired one stays so (R285). -/
def linkAfter (x : Nat) : Nat := if x = 3 then 3 else 0

/-- What holds below `k`, made to hold at `k`, holds below `k + 1`. -/
theorem setAt_below (f g : Nat → Nat) (k : Nat) : setAt (fun n => if n < k then g n else f n) k (g k) =
    fun n => if n < k + 1 then g n else f n := by
  funext n
  rw [setAt_apply]
  split
  next hnk => rw [hnk, if_pos (Nat.lt_succ_self k)]
  next hnk =>
    have hiff : n < k + 1 ↔ n < k := by omega
    simp only [hiff]

namespace Seen

variable {d e : Dev} {link port : Nat → Nat}

theorem then_portReset {p : Nat} (h : Seen d e link port) (hp : p < 2) :
    Seen d (portReset e p) link (setAt port p (portAfter (port p))) := by
  unfold portReset
  extract_lets d1 st
  have h1 : Seen d d1 link port := h.then_resetPortDomain hp
  have hst : port p = st := (h1.port p hp).symm
  rw [hst]
  split
  next hone => rw [hone]; exact h1.then_orphanPort hp
  next hone =>
    split
    next hzero => rw [hzero]; exact h1.then_setPortState hp (by decide)
    next hzero => rw [portAfter_other hzero hone, ← hst, setAt_self]; exact h1

theorem then_portLinkDown {p : Nat} (h : Seen d e link port) (hp : p < 2) : Seen d (portLevelReset e p .linkDown) link
    (setAt port p (if mainPower d then portAfter (port p) else port p)) := by
  have hpower : mainPower e = mainPower d := by rw [mainPower, mainPower, h.pwr]
  rw [portLevelReset_linkDown e hp, hpower]
  split
  · exact h.then_portReset hp
  · rw [setAt_self]; exact h

/-! ### Links that go down -/

theorem then_transmit (h : Seen d e link port) (n : Nat) (m : Message) : Seen d (transmit e n m) link port :=
  (h.then_updLink n _).then_same (emit_regs _ _) (emit_side _ _) (emit_pwr _ _) (emit_mem _ _) (emit_marks _ _)

theorem then_onLink (h : Seen d e link port) (n : Nat) (m : Message) : Seen d (onLink e n m) link port :=
  then_ite (h.then_transmit n m) (h.then_updLink n _)

theorem then_unroutable (h : Seen d e link port) : Seen d (fsat e blErrUnroutable 0 1) link port :=
  h.then_regSet (by decide) (by decide)

theorem then_sendQuiet (h : Seen d e link port) (dst : Nat) (p : Payload) : Seen d (sendQuiet e dst p) link port := by
  unfold sendQuiet sendMsg
  split
  · exact h.then_onLink _ _
  · exact h.then_unroutable

theorem then_forward (h : Seen d e link port) (m : Message) : Seen d (forward e m) link port := by
  unfold forward
  split
  · exact h.then_onLink _ _
  · dsimp only
    split
    · exact h.then_unroutable.then_sendQuiet _ _
    · exact h.then_unroutable

theorem then_linkDown {n : Nat} (h : Seen d e link port) (hn : n < 36) :
    Seen d (linkDown e n 0) (setAt link n 0) port := by
  unfold linkDown
  extract_lets waiting d1 d2
  have h1 : Seen d d1 (setAt link n 0) port := (h.then_link hn (by decide)).then_updLink n linkFresh
  have h2 : Seen d d2 (setAt link n 0) port := (h1.then_nutmeg _).then_evtSet 8
  exact h2.then_foldl fun b hb m _ => hb.then_forward m

theorem then_takeLinkDown {n : Nat} (h : Seen d e link port) (hn : n < 36) :
    Seen d (if linkUsable e n then linkDown e n 0 else e) (setAt link n (linkAfter (link n))) port := by
  have hstate := h.link n hn
  have hlt : link n < 4 := hstate ▸ fget_lt e blLinkStatusState n
  split
  next huse =>
    have hne : link n ≠ 3 := fun h3 => by
      rw [linkUsable, linkUp, hstate, h3] at huse
      exact absurd huse (by decide)
    rw [linkAfter, if_neg hne]
    exact h.then_linkDown hn
  next huse =>
    have hself : linkAfter (link n) = link n := by
      simp only [linkUsable, linkUp, hstate, Bool.or_eq_true, beq_iff_eq, not_or] at huse
      unfold linkAfter
      split <;> omega
    rw [hself, setAt_self]
    exact h

/-- The first `k` links, one after the other. -/
theorem then_takeLinksDown (h : Seen d e link port) (k : Nat) (hk : k ≤ 36) :
    Seen d ((List.range k).foldl (fun d n => if linkUsable d n then linkDown d n 0 else d) e)
      (fun n => if n < k then linkAfter (link n) else link n) port := by
  induction k with
  | zero => exact h
  | succ k ih =>
    rw [List.range_succ, List.foldl_append]
    have hstep := (ih (by omega)).then_takeLinkDown (n := k) (by omega)
    rw [if_neg (Nat.lt_irrefl k), setAt_below link (fun n => linkAfter (link n))] at hstep
    exact hstep

end Seen

/-- The states of the ports once the pins are driven: without main power they stay. -/
def portsAfter (d : Dev) (p : Nat) : Nat := if mainPower d then portAfter (portState d p) else portState d p

theorem pinsDriven_seen (d : Dev) : ∃ port, (∀ p, p < 2 → port p = portsAfter d p) ∧
    Seen d (pinsDriven d)
      (fun n => if n < 36 then linkAfter (fget d blLinkStatusState n) else fget d blLinkStatusState n) port := by
  have h0 := (Seen.refl d).then_portLinkDown (p := 0) (by decide)
  have h1 := h0.then_portLinkDown (p := 1) (by decide)
  refine ⟨_, fun p hp => ?_, h1.then_takeLinksDown 36 (Nat.le_refl _)⟩
  match p, hp with
  | 0, _ => rfl
  | 1, _ => rfl

/-! ### The TAP -/

theorem bmPowered_iff {d : Dev} : bmPowered d = true ↔ d.pwr.state ≠ .unpowered := bne_iff_ne

/-- The device with the TAP at an instruction. -/
def selected (d : Dev) (t : TapInst) : Dev := { d with side := { d.side with tap := t.ctorIdx } }

/-- The sideband with EXTEST selected and a pattern shifted in. -/
def extestSide (d : Dev) (x : Nat) : Side := { d.side with tap := TapInst.extest.ctorIdx, boundary := x }

/-- What an instruction does at its level, with a pattern shifted in (R471, R451). -/
def tapEffect (d : Dev) (t : TapInst) (x : Nat) : Dev :=
  match t with
  | .bypass => selected d .bypass
  | .idcode => emit (selected d .idcode) (.answer 4 0x12A72AC7)
  | .samplePreload =>
    { d with side := { d.side with tap := TapInst.samplePreload.ctorIdx, boundary := x },
             free := d.free + 1, out := d.out ++ [.answer 4 (Config.free 64 d.free).toNat] }
  | .internalScan =>
    { d with side := { d.side with tap := TapInst.internalScan.ctorIdx, halted := x % 2 == 1 },
             free := d.free + 1, out := d.out ++ [.answer 4 (Config.free 64 d.free).toNat] }
  | .extest => pinsDriven { d with side := extestSide d x }
  | t => pinsDriven (selected d t)

section
variable {d : Dev} {t : TapInst} (x : Nat)

theorem tapRun_unpowered (h : ¬d.pwr.state ≠ .unpowered) : tapRun d t x = d := by
  rw [tapRun, if_pos]
  rw [← bmPowered_iff] at h
  rw [Bool.not_eq_true']
  exact Bool.eq_false_iff.2 h

theorem tapRun_below (hon : d.pwr.state ≠ .unpowered) (h : fget d cfgDebugLevel 0 < t.level) :
    tapRun d t x = selected d .bypass := by
  have hacts : tapActs d t = .bypass := if_neg (Nat.not_le.2 h)
  rw [tapRun, bmPowered_iff.2 hon, hacts]
  rfl

theorem tapRun_at_level (hon : d.pwr.state ≠ .unpowered) (h : t.level ≤ fget d cfgDebugLevel 0) :
    tapRun d t x = tapEffect d t x := by
  have hacts : tapActs d t = t := if_pos h
  rw [tapRun, bmPowered_iff.2 hon, hacts]
  cases t <;> rfl

/-- Without the input an instruction changes nothing, and below its level it is BYPASS. -/
theorem tap_gate {i : Instr} {s : State} {x : Nat} (h : Runs i s (tapRun s.dev t x)) :
    (¬s.dev.pwr.state ≠ .unpowered → Runs i s s.dev) ∧
    (s.dev.pwr.state ≠ .unpowered → fget s.dev cfgDebugLevel 0 < t.level → Runs i s (selected s.dev .bypass)) :=
  ⟨fun hoff => tapRun_unpowered x hoff ▸ h, fun hon hlow => tapRun_below x hon hlow ▸ h⟩

theorem tap_acts {i : Instr} {s : State} {x : Nat} (h : Runs i s (tapRun s.dev t x)) (hon : s.dev.pwr.state ≠ .unpowered)
    (hlevel : t.level ≤ fget s.dev cfgDebugLevel 0) : Runs i s (tapEffect s.dev t x) := tapRun_at_level x hon hlevel ▸ h

end

/-- What an instruction that drives the pins does: memory outside the logs, and whether Cumin is halted, are as before; every
link that is not retired is down, and under main power the ports are as after a loss of their link. -/
def DrivesPins (d e : Dev) (t : TapInst) : Prop :=
  MemKept d e ∧ e.side.tap = t.ctorIdx ∧ e.side.halted = d.side.halted ∧
  (∀ n, n < 36 → fget e blLinkStatusState n = linkAfter (fget d blLinkStatusState n)) ∧
  (mainPower d = true → ∀ p, p < 2 → fget e hpPortStateState p = portAfter (fget d hpPortStateState p))

theorem drivesPins_pinsDriven (d : Dev) (t : TapInst) {side : Side} (htap : side.tap = t.ctorIdx)
    (hhalted : side.halted = d.side.halted) : DrivesPins d (pinsDriven { d with side := side }) t := by
  obtain ⟨port, hport, hseen⟩ := pinsDriven_seen { d with side := side }
  refine ⟨hseen.mem, by rw [hseen.side, htap], by rw [hseen.side, hhalted], fun n hn => ?_, fun hon p hp => ?_⟩
  · exact (hseen.link n hn).trans (if_pos hn)
  · exact ((hseen.port p hp).trans (hport p hp)).trans (if_pos hon)

/-- An instruction of level 1 that drives the pins, in the words of the statement. -/
theorem tap_drives {i : Instr} {s : State} {t : TapInst} {x : Nat} (h : Runs i s (tapRun s.dev t x)) (hlevel : t.level = 1)
    {side : Side} (htap : side.tap = t.ctorIdx) (hhalted : side.halted = s.dev.side.halted)
    (heffect : tapEffect s.dev t x = pinsDriven { s.dev with side := side }) :
    ((¬s.dev.pwr.state ≠ .unpowered → Runs i s s.dev) ∧
      (s.dev.pwr.state ≠ .unpowered → fget s.dev cfgDebugLevel 0 < 1 → Runs i s (selected s.dev .bypass))) ∧
    (s.dev.pwr.state ≠ .unpowered → 1 ≤ fget s.dev cfgDebugLevel 0 → ∃ e, Runs i s e ∧ DrivesPins s.dev e t) := by
  have hgate := tap_gate h
  have hacts := tap_acts h
  rw [hlevel] at hgate hacts
  exact ⟨hgate, fun hon hlvl => ⟨_, heffect ▸ hacts hon hlvl, drivesPins_pinsDriven s.dev t htap hhalted⟩⟩

/-- Settles O59: each instruction acts at its level, and the five that drive the pins take links and ports down. That they do is
entry 57 of the log. -/
theorem boundaryScanActsAtItsLevel : Obligations.BoundaryScanActsAtItsLevel := by
  intro s d on lvl bypass gate drives
  have runs : ∀ {i : Instr} (t : TapInst) (x : Nat), exec i s = act s (tapRun · t x) → Runs i s (tapRun d t x) :=
    fun _ _ h => h
  have pins : ∀ {i : Instr} {t : TapInst}, Runs i s (tapRun d t 0) → t.level = 1 →
      tapEffect d t 0 = pinsDriven (selected d t) → drives i t :=
    fun {_ t} h hlevel heffect => tap_drives (side := { d.side with tap := t.ctorIdx }) h hlevel rfl rfl heffect
  have hbypass := runs (i := .tapBypass) .bypass 0 rfl
  have hidcode := runs (i := .tapIdcode) .idcode 0 rfl
  refine ⟨tap_gate hbypass, fun hon => tap_acts hbypass hon (Nat.zero_le _), (tap_gate hidcode).1,
    fun hon => tap_acts hidcode hon (Nat.zero_le _), fun x => ?_, fun x => ?_, pins (runs .clamp 0 rfl) rfl rfl,
    pins (runs .highz 0 rfl) rfl rfl, pins (runs .extestPulse 0 rfl) rfl rfl,
    pins (runs .extestTrain 0 rfl) rfl rfl, fun h => ?_⟩
  · have hrun := runs (i := .tapSamplePreload x) .samplePreload x rfl
    exact ⟨tap_gate hrun, fun hon hlvl => ⟨_, _, tap_acts hrun hon hlvl⟩⟩
  · have hrun := runs (i := .tapExtest x) .extest x rfl
    refine ⟨tap_drives (side := extestSide d x) hrun rfl rfl rfl rfl, fun hon hlvl => ⟨_, tap_acts hrun hon hlvl, ?_⟩⟩
    obtain ⟨_, _, hseen⟩ := pinsDriven_seen { d with side := extestSide d x }
    exact congrArg Side.boundary hseen.side
  · have hrun := runs (i := .tapInternalScan h) .internalScan (b2n h) rfl
    have hhalt : (b2n h % 2 == 1) = h := by cases h <;> rfl
    refine ⟨tap_gate hrun, fun hon hlvl => ?_⟩
    have hact := tap_acts hrun hon hlvl
    rw [tapEffect, hhalt] at hact
    exact ⟨_, _, hact⟩

end Sys2Proof.Machine
end

