-- ==== Sys2Proof/Proofs/MailboxResponses.lean ====
section
/-! PROOF. Responses in a mailbox channel (R383): what the buffer holds and what else of the device a response changes. -/
namespace Sys2Proof.Machine

/-! ### Bytes of a window -/

theorem mbxGet_mbxSet (d : Dev) (ch off k : Nat) (v : Byte) :
    mbxGet (mbxSet d ch off v) ch k = if k = off then v else mbxGet d ch k := by
  split
  next h => rw [h]; exact smapGet_set_self _ _ _
  next h => exact smapGet_set_other _ _ _ _ (by omega)

/-- Bytes below the place where a write starts stay. -/
theorem mbxGet_mbxWrite_below (d : Dev) (ch off k : Nat) (bs : List Byte) (h : k < off) :
    mbxGet (mbxWrite d ch off bs) ch k = mbxGet d ch k := by
  induction bs generalizing d off with
  | nil => rfl
  | cons b rest ih => rw [mbxWrite, ih _ _ (by omega), mbxGet_mbxSet, if_neg (by omega)]

theorem mbxGet_mbxWrite (d : Dev) (ch off : Nat) (bs : List Byte) (j : Nat) (h : j < bs.length) :
    mbxGet (mbxWrite d ch off bs) ch (off + j) = bs[j] := by
  induction bs generalizing d off j with
  | nil => exact absurd h (Nat.not_lt_zero j)
  | cons b rest ih =>
    cases j with
    | zero => exact (mbxGet_mbxWrite_below _ _ _ _ _ (Nat.lt_succ_self off)).trans ((mbxGet_mbxSet ..).trans (if_pos rfl))
    | succ j =>
      have hnext : off + (j + 1) = off + 1 + j := by omega
      rw [mbxWrite, hnext]
      exact ih _ _ _ (Nat.lt_of_succ_lt_succ h)

/-- A read inside what was written. -/
theorem mbxRead_mbxWrite (d : Dev) (ch off : Nat) (before mid rest : List Byte) :
    mbxRead (mbxWrite d ch off (before ++ mid ++ rest)) ch (off + before.length) mid.length = mid := by
  refine List.ext_getElem (by rw [mbxRead, List.length_map, List.length_range]) fun j h1 h2 => ?_
  have hj : before.length + j < (before ++ mid ++ rest).length := by
    rw [List.length_append, List.length_append]
    omega
  simp only [mbxRead, List.getElem_map, List.getElem_range]
  rw [Nat.add_assoc, mbxGet_mbxWrite d ch off _ _ hj, List.getElem_append_left (by rw [List.length_append]; omega),
    List.getElem_append_right (Nat.le_add_right _ _)]
  simp only [Nat.add_sub_cancel_left]

theorem mbxRead_congr {d e : Dev} (h : e.mbx = d.mbx) (ch off n : Nat) : mbxRead e ch off n = mbxRead d ch off n := by
  unfold mbxRead mbxGet
  rw [h]

theorem mbxWrite_eq (d : Dev) (ch off : Nat) (bs : List Byte) :
    mbxWrite d ch off bs = { d with mbx := (mbxWrite d ch off bs).mbx } := by
  induction bs generalizing d off with
  | nil => rfl
  | cons b rest ih => exact ih (mbxSet d ch off b) (off + 1)

/-! ### A response -/

/-- `e` is `d` after a response with result `r` to channel `ch`: beside the buffer, the status of the channel and its
interrupt nothing changes. -/
structure Responded (d e : Dev) (ch r : Nat) : Prop where
  answered : Answered e ch r
  only : OnlyRegs { d with mbx := e.mbx, out := e.out, eng := { d.eng with msixPending := e.eng.msixPending } } e
    [(.mbxChStatus, ch)]

/-- A change of the buffer and of registers is one of those that a response makes. -/
theorem only_of_buffer {d e : Dev} {m : List Host.Cell} {keys : List (Reg × Nat)} (h : OnlyRegs { d with mbx := m } e keys) :
    OnlyRegs { d with mbx := e.mbx, out := e.out, eng := { d.eng with msixPending := e.eng.msixPending } } e keys := by
  obtain ⟨heq, hregs⟩ := h
  have hmbx : e.mbx = m := by rw [heq]
  have hout : e.out = d.out := by rw [heq]
  have heng : e.eng = d.eng := by rw [heq]
  refine ⟨?_, hregs⟩
  rw [hmbx, hout, heng]
  exact heq

theorem sendVector_eq (d : Dev) (p v : Nat) : sendVector d p v =
    { d with out := (sendVector d p v).out, eng := { d.eng with msixPending := (sendVector d p v).eng.msixPending } } := by
  unfold sendVector
  split
  · rfl
  · split <;> rfl

namespace Responded

variable {d e : Dev} {ch r : Nat}

theorem then_sendVector (h : Responded d e ch r) (p v : Nat) : Responded d (sendVector e p v) ch r := by
  have heq := sendVector_eq e p v
  have hregs : (sendVector e p v).regs = e.regs := by rw [heq]
  have hmbx : (sendVector e p v).mbx = e.mbx := by rw [heq]
  obtain ⟨⟨hresult, hdone, hbusy⟩, honly⟩ := h
  refine ⟨⟨?_, ?_, ?_⟩, ?_, fun q i hi hne => (regGet_congr hregs q i).trans (honly.2 q i hi hne)⟩
  · rwa [mbxRead_congr hmbx]
  · rwa [fget_congr hregs]
  · rwa [fget_congr hregs]
  · rw [hregs, hmbx]
    refine heq.trans ?_
    rw [honly.1]

theorem nv (h : Responded d e ch r) : e.nv = d.nv := by rw [h.only.1]
theorem mem (h : Responded d e ch r) : e.mem = d.mem := by rw [h.only.1]
theorem fw (h : Responded d e ch r) : e.fw = d.fw := by rw [h.only.1]
theorem recs (h : Responded d e ch r) : e.recs = d.recs := by rw [h.only.1]

theorem fget (h : Responded d e ch r) {f : Field} {i : Nat} (hi : i < 2 ^ 20) (hf : f.reg ≠ .mbxChStatus) :
    Machine.fget e f i = Machine.fget d f i :=
  congrArg (bits · f.hi f.lo) (h.only.2 f.reg i hi fun hmem => hf (congrArg Prod.fst (List.mem_singleton.1 hmem)))

end Responded

theorem respHeader_length (d : Dev) (ch r n : Nat) : (respHeader d ch r n).length = 16 := by
  simp only [respHeader, List.length_append, leBytes_length]

/-- The first 12 bytes of a response: all of its header but the result. -/
def respStart (d : Dev) (ch n : Nat) : List Byte :=
  leBytes 1 (reqFunction d ch) ++ leBytes 1 ((agreed d ch).getD (reqWord d ch 1 1)) ++ leBytes 2 (reqService d ch)
    ++ leBytes 4 (reqWord d ch 4 4) ++ leBytes 4 n

theorem respStart_length (d : Dev) (ch n : Nat) : (respStart d ch n).length = 12 := by
  simp only [respStart, List.length_append, leBytes_length]

theorem respHeader_eq (d : Dev) (ch r n : Nat) : respHeader d ch r n = respStart d ch n ++ leBytes 4 r := rfl

/-- The device with a response in its channel, before the channel's interrupt. -/
def responseHeld (d : Dev) (ch r : Nat) (payload : List Byte) : Dev :=
  fset (fset (mbxWrite d ch 0x4000 (respHeader d ch r payload.length ++ payload)) mbxChStatusBusy ch 1) mbxChStatusDone ch 1

theorem result_responseHeld (d : Dev) (ch : Nat) {r : Nat} (payload : List Byte) (hr : r < 256 ^ 4) :
    leNat (mbxRead (responseHeld d ch r payload) ch 0x400C 4) = r := by
  have hread := mbxRead_mbxWrite d ch 0x4000 (respStart d ch payload.length) (leBytes 4 r) payload
  rw [respStart_length, leBytes_length, ← respHeader_eq] at hread
  have hmbx : (responseHeld d ch r payload).mbx =
      (mbxWrite d ch 0x4000 (respHeader d ch r payload.length ++ payload)).mbx := by
    rw [responseHeld, fset_mbx, fset_mbx]
  rw [mbxRead_congr hmbx, hread, leNat_leBytes, Nat.mod_eq_of_lt hr]

theorem responded_responseHeld (d : Dev) {ch r : Nat} (payload : List Byte) (hch : ch < 32) (hr : r < 256 ^ 4) :
    Responded d (responseHeld d ch r payload) ch r := by
  have hlt : ch < 2 ^ 20 := by omega
  refine ⟨⟨result_responseHeld d ch payload hr, fget_fset_self .., ?_⟩, ?_⟩
  · rw [responseHeld, fget_fset_field _ mbxChStatusDone mbxChStatusBusy ch 1 rfl (.inl (by decide))]
    exact fget_fset_self ..
  · have hbusy := onlyRegs_fset (f := mbxChStatusBusy) (v := 1) (onlyRegs_refl
      (mbxWrite d ch 0x4000 (respHeader d ch r payload.length ++ payload)) [(.mbxChStatus, ch)]) hlt (List.mem_singleton_self _)
    have hdone : OnlyRegs _ (responseHeld d ch r payload) _ :=
      onlyRegs_fset (f := mbxChStatusDone) (v := 1) hbusy hlt (List.mem_singleton_self _)
    rw [mbxWrite_eq] at hdone
    exact only_of_buffer hdone

theorem respond_responded (d : Dev) {ch r : Nat} (payload : List Byte) (hch : ch < 32) (hr : r < 256 ^ 4 := by decide) :
    Responded d (respond d ch r payload) ch r := by
  have h := responded_responseHeld d payload hch hr
  unfold respond
  extract_lets d1 d2 p
  split
  · exact h.then_sendVector p _
  · exact h

theorem answer_responded (d : Dev) {ch r : Nat} (hch : ch < 32) (hr : r < 256 ^ 4 := by decide) :
    Responded d (answer d ch r) ch r := respond_responded d [] hch hr

/-! ### A request served -/

/-- The device as a service finds it: Cumin runs the compartment that serves the channel (R362). -/
def entered (d : Dev) (ch : Nat) : Dev := enterComp d (servingComp ch)

theorem served_runs {i : Instr} {s : State} {ch svc : Nat} {f : Dev → Dev} (h : exec i s = act s (fun d => served d ch svc f))
    (hholds : holds s.dev ch svc = true) (hserves : compServes s.dev (servingComp ch) = true) :
    Runs i s (f (entered s.dev ch)) := by
  have hrun : Runs i s (served s.dev ch svc f) := h
  rwa [served, hholds, hserves, if_pos (by decide)] at hrun

/-- Channel `ch` holds a request of service `svc` with function `fn`, and its compartment serves. -/
def Requested (d : Dev) (ch svc fn : Nat) : Prop :=
  holds d ch svc = true ∧ compServes d (servingComp ch) = true ∧ reqFunction d ch = fn

/-- The initiator of the channel is no host, or its driver has the major version of the firmware (R371). -/
def DriverFits (d : Dev) (ch : Nat) : Prop :=
  2 ≤ fget d mbxMapInitiator ch ∨ fget d hpDrvVersionMajor (fget d mbxMapInitiator ch) = fget d mbxFwVersionMajor 0

theorem servedFn_runs {i : Instr} {s : State} {ch svc fn : Nat} {f : Dev → Dev}
    (h : exec i s = act s (fun d => servedFn d ch svc fn f)) (hreq : Requested s.dev ch svc fn) :
    Runs i s (f (entered s.dev ch)) := by
  obtain ⟨hholds, hserves, hfn⟩ := hreq
  have hrun := served_runs (svc := svc) (f := fun d => if reqFunction d ch = fn then f d else d) h hholds hserves
  have hpass : (if reqFunction (entered s.dev ch) ch = fn then f (entered s.dev ch) else entered s.dev ch) =
      f (entered s.dev ch) := if_pos hfn
  rwa [hpass] at hrun

theorem gated_runs {i : Instr} {s : State} {ch svc fn : Nat} {f : Dev → Dev}
    (h : exec i s = act s (fun d => servedFn d ch svc fn (fun d => driverGate d ch f))) (hreq : Requested s.dev ch svc fn)
    (hgate : DriverFits s.dev ch) : Runs i s (f (entered s.dev ch)) := by
  have hrun := servedFn_runs (f := fun d => driverGate d ch f) h hreq
  have hpass : driverGate (entered s.dev ch) ch f = f (entered s.dev ch) := if_neg fun ⟨hp, hne⟩ =>
    hgate.elim (fun hge => absurd hp (Nat.not_lt.2 hge)) hne
  rwa [hpass] at hrun

theorem replies_of_responded {i : Instr} {s : State} {ch r : Nat} {e : Dev} (hrun : Runs i s e)
    (h : Responded (entered s.dev ch) e ch r) : Replies i s ch r := by
  refine ⟨e, hrun, h.answered, ?_, h.only.2⟩
  rw [show e.fw = (entered s.dev ch).fw from h.fw]
  exact h.only.1

end Sys2Proof.Machine
end

