-- ==== Sys2Proof/Proofs/SecureServices.lean ====
section
/-! PROOF. The secure services (R438 to R441, R449 to R451) and the clearing of pinned records (R425), request by request. -/
namespace Sys2Proof.Machine

/-! ### Lists with one element replaced -/

theorem getElem?_listSet {α : Type} (xs : List α) (i k : Nat) (v : α) :
    (listSet xs i v)[k]? = if k = i ∧ i < xs.length then some v else xs[k]? := by
  induction xs generalizing i k with
  | nil => simp [listSet]
  | cons x rest ih =>
    cases i with
    | zero => cases k <;> simp [listSet]
    | succ i =>
      cases k with
      | zero => simp [listSet]
      | succ k => simp [listSet, ih]

theorem getD_listSet {α : Type} {xs : List α} {i : Nat} (hi : i < xs.length) (k : Nat) (v dflt : α) :
    (listSet xs i v).getD k dflt = if k = i then v else xs.getD k dflt := by
  rw [List.getD_eq_getElem?_getD, getElem?_listSet, List.getD_eq_getElem?_getD]
  simp only [hi, and_true]
  split <;> rfl

/-! ### Signatures and certificates -/

theorem canSign_entered (d : Dev) (ch : Nat) : canSign (entered d ch) = canSign d := rfl

/-- The body of a quote takes at most a free value. -/
theorem quoteBody_kept (d : Dev) (ch : Nat) : (quoteBody d ch).2.nv = d.nv ∧ (quoteBody d ch).2.mem = d.mem := by
  unfold quoteBody
  dsimp only
  split <;> exact ⟨rfl, rfl⟩

/-- A quote in the channel. -/
def quoted (d : Dev) (ch : Nat) : Dev :=
  respond (quoteBody d ch).2 ch 0 ((quoteBody d ch).1
    ++ leBytes 114 (idSign (leNat (shake256 (quoteBody d ch).1 64)) 6) ++ List.replicate 6 0)

/-- A signature of the digest of the request in the channel. -/
def signed (d : Dev) (ch : Nat) : Dev :=
  respond d ch 0 (leBytes 114 (idSign (leNat (reqBytes d ch 0 64)) 7))

section
variable {s : State} {ch : Nat} (hgate : DriverFits s.dev ch)
include hgate

theorem quote_runs (hreq : Requested s.dev ch 2 1) : Runs (.quote ch) s
    (if !canSign s.dev then answer (entered s.dev ch) ch 4 else quoted (entered s.dev ch) ch) :=
  gated_runs (f := fun d => if !canSign d then answer d ch 4 else quoted d ch) rfl hreq hgate

theorem getCert_runs (hreq : Requested s.dev ch 2 2) : Runs (.getCert ch) s
    (respond (entered s.dev ch) ch 0 Config.certificate) :=
  gated_runs (f := fun d => respond d ch 0 Config.certificate) rfl hreq hgate

theorem sign_runs (hreq : Requested s.dev ch 3 1) : Runs (.sign ch) s
    (if !canSign s.dev then answer (entered s.dev ch) ch 4
      else if reqWord s.dev ch 8 4 ≠ 64 then answer (entered s.dev ch) ch 5 else signed (entered s.dev ch) ch) :=
  gated_runs (f := fun d =>
    if !canSign d then answer d ch 4 else if reqWord d ch 8 4 ≠ 64 then answer d ch 5 else signed d ch) rfl hreq hgate

end

theorem quoted_kept {d : Dev} {ch : Nat} (hch : ch < 32) :
    Answered (quoted d ch) ch 0 ∧ (quoted d ch).nv = d.nv ∧ (quoted d ch).mem = d.mem := by
  obtain ⟨hnv, hmem⟩ := quoteBody_kept d ch
  have h : Responded (quoteBody d ch).2 (quoted d ch) ch 0 := respond_responded _ _ hch
  exact ⟨h.answered, h.nv.trans hnv, h.mem.trans hmem⟩

/-! ### Staging a configuration image -/

theorem hostImage_entered (d : Dev) (ch p a n : Nat) : hostImage (entered d ch) p a n = hostImage d p a n := rfl

theorem stageable_entered (d : Dev) (ch : Nat) (c : ConfigImage) : stageable (entered d ch) c = stageable d c := rfl

/-- An image in the bank that is not live, and the answer in the channel. -/
def configStaged (d : Dev) (ch : Nat) (c : ConfigImage) : Dev :=
  answer { d with nv := { d.nv with banks := listSet d.nv.banks (1 - fget d cfgImageStatusBank 0) (some c) } } ch 0

/-- CONFIG_STAGE once the bytes of the image have been read. -/
def stageBytes (d : Dev) (ch : Nat) (bs : List Byte) : Dev :=
  match configImage bs with
  | none => answer d ch 0x0A
  | some c => if !stageable d c then answer d ch 0x0A else configStaged d ch c

theorem configStage_runs {s : State} {ch a n : Nat} {bs : List Byte} (hreq : Requested s.dev ch 3 2)
    (hgate : DriverFits s.dev ch) (himage : hostImage s.dev (fget s.dev mbxMapInitiator ch) a n = .ok bs) :
    Runs (.configStage ch a n) s (stageBytes (entered s.dev ch) ch bs) := by
  have hrun := gated_runs (i := .configStage ch a n) (f := fun d =>
    match hostImage d (fget d mbxMapInitiator ch) a n with
    | .error r => answer d ch r
    | .ok bs => stageBytes d ch bs) rfl hreq hgate
  have hentered : hostImage (entered s.dev ch) (fget (entered s.dev ch) mbxMapInitiator ch) a n = .ok bs := himage
  simpa only [hentered] using hrun

theorem stageBytes_none {d : Dev} {ch : Nat} {bs : List Byte} (h : configImage bs = none) :
    stageBytes d ch bs = answer d ch 10 := by
  rw [stageBytes, h]

theorem stageBytes_refused {d : Dev} {ch : Nat} {bs : List Byte} {c : ConfigImage} (h : configImage bs = some c)
    (hst : stageable d c = false) : stageBytes d ch bs = answer d ch 10 := by
  simp only [stageBytes, h, hst, Bool.not_false, if_true]

theorem stageBytes_taken {d : Dev} {ch : Nat} {bs : List Byte} {c : ConfigImage} (h : configImage bs = some c)
    (hst : stageable d c = true) : stageBytes d ch bs = configStaged d ch c := by
  simp only [stageBytes, h, hst, Bool.not_true, Bool.false_eq_true, if_false]

/-- A stageable image is above the live one and not below the floor (R438). -/
theorem above_of_stageable {d : Dev} {c : ConfigImage} (h : stageable d c = true) :
    (∀ l, liveConfig d = some l → l.seq < c.seq) ∧ d.nv.counters.getD 1 0 ≤ c.seq := by
  simp only [stageable, Bool.and_eq_true, decide_eq_true_eq] at h
  obtain ⟨⟨habove, hfloor⟩, -⟩ := h
  refine ⟨fun l hl => ?_, hfloor⟩
  rw [hl] at habove
  exact of_decide_eq_true habove

/-- Of two banks the live one stays, and the other holds the image. -/
theorem configStaged_banks {d : Dev} {ch : Nat} (c : ConfigImage) (hch : ch < 32) (hbanks : d.nv.banks.length = 2) :
    Answered (configStaged d ch c) ch 0 ∧
    bankImage (configStaged d ch c).nv (1 - fget d cfgImageStatusBank 0) = some c ∧
    bankImage (configStaged d ch c).nv (fget d cfgImageStatusBank 0) = bankImage d.nv (fget d cfgImageStatusBank 0) ∧
    (configStaged d ch c).nv.counters = d.nv.counters := by
  have h := answer_responded (r := 0)
    { d with nv := { d.nv with banks := listSet d.nv.banks (1 - fget d cfgImageStatusBank 0) (some c) } } hch
  have hlive : fget d cfgImageStatusBank 0 < 2 := fget_lt d cfgImageStatusBank 0
  refine ⟨h.answered, ?_, ?_, ?_⟩ <;> rw [configStaged, h.nv]
  · rw [bankImage, getElem?_listSet, if_pos ⟨rfl, by omega⟩]
    rfl
  · rw [bankImage, getElem?_listSet, if_neg (by omega)]
    rfl

/-! ### Counters of the flash -/

/-- A counter of the flash. -/
def counterOf (d : Dev) (k : Nat) : Nat := d.nv.counters.getD k 0

theorem entered_counters (d : Dev) (ch : Nat) : (entered d ch).nv.counters = d.nv.counters := rfl

theorem counterOf_entered (d : Dev) (ch k : Nat) : counterOf (entered d ch) k = counterOf d k := by
  rw [counterOf, entered_counters, counterOf]

theorem counterOf_of_raised {d e : Dev} {k v : Nat} (h : e.nv = (raiseCounter d k v).nv) (hk : k < d.nv.counters.length)
    (j : Nat) : counterOf e j = if j = k then max (counterOf d k) v else counterOf d j := by
  rw [counterOf, h]
  exact getD_listSet hk j _ 0

/-- The raised floor in the channel. -/
def floorRaised (d : Dev) (ch : Nat) : Dev :=
  let d1 := floorsShow (raiseCounter d 0 (fget d mbxFwVersionSecVersion 0))
  respond d1 ch 0 (leBytes 4 (d1.nv.counters.getD 0 0))

/-- A fresh challenge in the channel. -/
def challenged (d : Dev) (ch : Nat) : Dev :=
  let n := d.nv.counters.getD 3 0 + 1
  let x := (Config.challenge d.free).toNat
  let d1 := raiseCounter { d with free := d.free + 1, fw := { d.fw with challenge := some (x, n) } } 3 n
  respond d1 ch 0 (leBytes 16 Config.serialNumber.toNat ++ leBytes 32 x ++ leBytes 4 n)

section
variable {s : State} {ch : Nat}

theorem floorRaise_runs (hreq : Requested s.dev ch 3 3) (hgate : DriverFits s.dev ch) : Runs (.floorRaise ch) s
    (if !(keysOk s.dev && s.dev.nv.flashOk) then answer (entered s.dev ch) ch 4 else floorRaised (entered s.dev ch) ch) :=
  gated_runs (f := fun d => if !(keysOk d && d.nv.flashOk) then answer d ch 4 else floorRaised d ch) rfl hreq hgate

theorem getChallenge_runs (hreq : Requested s.dev ch 4 1) : Runs (.getChallenge ch) s
    (if !(keysOk s.dev && s.dev.nv.flashOk) then answer (entered s.dev ch) ch 4 else challenged (entered s.dev ch) ch) :=
  servedFn_runs (f := fun d => if !(keysOk d && d.nv.flashOk) then answer d ch 4 else challenged d ch) rfl hreq

end

section
variable {d : Dev} {ch : Nat} (hch : ch < 32) (hlen : d.nv.counters.length = 4)
include hch hlen

theorem floorRaised_counters : Answered (floorRaised d ch) ch 0 ∧
    ∀ k, counterOf (floorRaised d ch) k =
      if k = 0 then max (counterOf d 0) (fget d mbxFwVersionSecVersion 0) else counterOf d k := by
  have h : Responded _ (floorRaised d ch) ch 0 := respond_responded _ _ hch
  exact ⟨h.answered, counterOf_of_raised (h.nv.trans rfl) (by omega)⟩

theorem challenged_counters : Answered (challenged d ch) ch 0 ∧
    (challenged d ch).fw.challenge = some ((Config.challenge d.free).toNat, counterOf d 3 + 1) ∧
    ∀ k, counterOf (challenged d ch) k = if k = 3 then counterOf d 3 + 1 else counterOf d k := by
  have h : Responded _ (challenged d ch) ch 0 := respond_responded _ _ hch
  have hmax : max (counterOf d 3) (counterOf d 3 + 1) = counterOf d 3 + 1 := Nat.max_eq_right (Nat.le_succ _)
  refine ⟨h.answered, congrArg Firmware.challenge h.fw, fun k => ?_⟩
  rw [counterOf_of_raised (d := d) (k := 3) (v := counterOf d 3 + 1) (h.nv.trans rfl) (by omega), hmax]

end

/-! ### Debug unlock -/

theorem unlockLevel_lt (d : Dev) (t : List Byte) : unlockLevel d t < 4 := by
  unfold unlockLevel
  extract_lets level keyNo keys key fresh
  have hlevel : level < 4 := Nat.mod_lt _ (by decide)
  clear_value level key fresh
  split
  · decide
  · dsimp only
    split
    · exact hlevel
    · decide

/-- The challenge is used up. -/
def challengeSpent (d : Dev) : Dev := { d with fw := { d.fw with challenge := none } }

/-- The level of a token that checks is shown and recorded. -/
def levelShown (d : Dev) (level key : Nat) : Dev :=
  nutmeg (fset (fset (challengeSpent d) cfgDebugLevel 0 level) cfgDebugKey 0 key) ⟨0x08, 0x10, 2, 0, 0, 0, level⟩

/-- Level 2 zeroes the keys (R451). -/
def keysZeroedAt (d : Dev) (level : Nat) : Dev :=
  if level = 2 then fset { d with fw := { d.fw with keysZeroed := true } } cfgDebugKeysZeroed 0 1 else d

/-- UNLOCK of a token that is granted a level. -/
def unlockAt (d : Dev) (ch level key : Nat) : Dev :=
  if level = 0 then answer (challengeSpent d) ch 4
  else respond (keysZeroedAt (levelShown d level key) level) ch 0 (leBytes 4 level)

theorem unlock_runs {s : State} {ch : Nat} (hreq : Requested s.dev ch 4 2) : Runs (.unlock ch) s
    (unlockAt (entered s.dev ch) ch (unlockLevel s.dev (reqBytes s.dev ch 0 0xC0))
      (byteWord (reqBytes s.dev ch 0 0xC0) 0x3C 4 % 256)) :=
  servedFn_runs (f := fun d =>
    unlockAt d ch (unlockLevel d (reqBytes d ch 0 0xC0)) (byteWord (reqBytes d ch 0 0xC0) 0x3C 4 % 256)) rfl hreq

theorem levelShown_fw (d : Dev) (level key : Nat) : (levelShown d level key).fw = { d.fw with challenge := none } := by
  have hn : Noted _ (levelShown d level key) := nutmeg_noted (noted_refl _)
  rw [hn.1]
  rfl

theorem fget_levelShown (d : Dev) {level : Nat} (key : Nat) (h : level < 4) :
    fget (levelShown d level key) cfgDebugLevel 0 = level := by
  have hn : Noted _ (levelShown d level key) := nutmeg_noted (noted_refl _)
  rw [noted_fget hn cfgDebugLevel 0 (by decide) nofun nofun nofun,
    fget_fset_field _ cfgDebugKey cfgDebugLevel 0 _ rfl (.inl (by decide))]
  exact fget_fset_of_lt h

theorem keysZeroedAt_fw (d : Dev) (level : Nat) :
    (keysZeroedAt d level).fw = { d.fw with keysZeroed := if level = 2 then true else d.fw.keysZeroed } := by
  unfold keysZeroedAt
  split
  · rw [fset_fw]
  · rfl

theorem fget_keysZeroedAt (d : Dev) (level : Nat) : fget (keysZeroedAt d level) cfgDebugLevel 0 = fget d cfgDebugLevel 0 := by
  unfold keysZeroedAt
  split
  · exact (fget_fset_field _ cfgDebugKeysZeroed cfgDebugLevel 0 1 rfl (.inl (by decide))).trans (fget_congr rfl _ _)
  · rfl

/-- A token that fails uses up the challenge, and no more. -/
theorem unlockAt_zero {d : Dev} {ch key : Nat} (hch : ch < 32) : Answered (unlockAt d ch 0 key) ch 4 ∧
    (unlockAt d ch 0 key).fw = { d.fw with challenge := none } ∧
    fget (unlockAt d ch 0 key) cfgDebugLevel 0 = fget d cfgDebugLevel 0 := by
  have h : Responded (challengeSpent d) (unlockAt d ch 0 key) ch 4 := answer_responded _ hch
  exact ⟨h.answered, h.fw, (h.fget (by decide) (by decide)).trans (fget_congr rfl _ _)⟩

theorem unlockAt_level {d : Dev} {ch level : Nat} (key : Nat) (hch : ch < 32) (h0 : level ≠ 0) (h4 : level < 4) :
    Answered (unlockAt d ch level key) ch 0 ∧
    (unlockAt d ch level key).fw =
      { d.fw with challenge := none, keysZeroed := if level = 2 then true else d.fw.keysZeroed } ∧
    fget (unlockAt d ch level key) cfgDebugLevel 0 = level := by
  have h : Responded (keysZeroedAt (levelShown d level key) level) (unlockAt d ch level key) ch 0 := by
    rw [unlockAt, if_neg h0]
    exact respond_responded _ _ hch
  refine ⟨h.answered, ?_, ?_⟩
  · rw [h.fw, keysZeroedAt_fw, levelShown_fw]
  · rw [h.fget (by decide) (by decide), fget_keysZeroedAt, fget_levelShown d key h4]

/-! ### Pinned records -/

/-- A record that a clearing up to `seq` leaves: it is not pinned, or later. -/
def staysPinned (seq : Nat) (r : NutRec) : Bool := !(decide (r.slot < 4096) && decide (r.seq ≤ seq))

theorem staysPinned_iff (seq : Nat) (r : NutRec) : staysPinned seq r = true ↔ ¬(r.slot < 4096 ∧ r.seq ≤ seq) := by
  rw [staysPinned, Bool.not_eq_true', ← Bool.not_eq_true, Bool.and_eq_true, decide_eq_true_eq, decide_eq_true_eq]

/-- The records and their mirror without the pinned ones up to `seq`. -/
def pinnedCleared (d : Dev) (seq : Nat) : Dev :=
  { d with recs := { d.recs with nut := d.recs.nut.filter (staysPinned seq) },
           nv := { d.nv with mirror := d.nv.mirror.filter (staysPinned seq) } }

/-- CLEAR_PINNED as compartment 5 does it. -/
def clearUpTo (d : Dev) (ch seq : Nat) : Dev :=
  let d1 := pinnedCleared d seq
  let used := (d1.recs.nut.filter (fun r => decide (r.slot < 4096))).length
  answer (fset (fset d1 nutStatusPinnedUsed 0 used) nutStatusPinnedFull 0 (b2n (decide (used = 4096)))) ch 0

theorem clearPinned_runs {s : State} {ch : Nat} (seq : Nat) (hholds : holds s.dev ch 0x11 = true)
    (hserves : compServes s.dev (servingComp ch) = true) : Runs (.clearPinned ch seq) s (clearUpTo (entered s.dev ch) ch seq) :=
  served_runs (f := fun d => clearUpTo d ch seq) rfl hholds hserves

theorem clearUpTo_records {d : Dev} {ch : Nat} (seq : Nat) (hch : ch < 32) : Answered (clearUpTo d ch seq) ch 0 ∧
    (∀ r, r ∈ (clearUpTo d ch seq).recs.nut ↔ r ∈ d.recs.nut ∧ ¬(r.slot < 4096 ∧ r.seq ≤ seq)) ∧
    (∀ r, r ∈ (clearUpTo d ch seq).nv.mirror ↔ r ∈ d.nv.mirror ∧ ¬(r.slot < 4096 ∧ r.seq ≤ seq)) := by
  have h : Responded _ (clearUpTo d ch seq) ch 0 := answer_responded _ hch
  have hrecs : (clearUpTo d ch seq).recs.nut = d.recs.nut.filter (staysPinned seq) := by rw [h.recs, fset_recs, fset_recs]; rfl
  have hmirror : (clearUpTo d ch seq).nv.mirror = d.nv.mirror.filter (staysPinned seq) := by rw [h.nv, fset_nv, fset_nv]; rfl
  refine ⟨h.answered, fun r => ?_, fun r => ?_⟩
  · rw [hrecs, List.mem_filter, staysPinned_iff]
  · rw [hmirror, List.mem_filter, staysPinned_iff]

/-! ### The requests, each with its outcome -/

theorem fget_entered (d : Dev) (ch : Nat) (f : Field) (i : Nat) : fget (entered d ch) f i = fget d f i := fget_congr rfl f i

section
variable {s : State} {ch : Nat} (hch : ch < 32)
include hch

theorem replies_answer {i : Instr} {r : Nat} (hrun : Runs i s (answer (entered s.dev ch) ch r))
    (hr : r < 256 ^ 4 := by decide) : Replies i s ch r := replies_of_responded hrun (answer_responded _ hch hr)

theorem quote_outcome (hreq : Requested s.dev ch 2 1) (hgate : DriverFits s.dev ch) :
    (canSign s.dev = false → Replies (.quote ch) s ch 4) ∧
    (canSign s.dev = true → ∃ e, Runs (.quote ch) s e ∧ Answered e ch 0 ∧ e.nv = s.dev.nv ∧ e.mem = s.dev.mem) := by
  have hrun := quote_runs hgate hreq
  refine ⟨fun hsign => ?_, fun hsign => ?_⟩ <;> rw [hsign] at hrun
  · exact replies_answer hch hrun
  · exact ⟨_, hrun, quoted_kept hch⟩

theorem sign_outcome (hreq : Requested s.dev ch 3 1) (hgate : DriverFits s.dev ch) :
    (canSign s.dev = false → Replies (.sign ch) s ch 4) ∧
    (canSign s.dev = true → reqWord s.dev ch 8 4 ≠ 64 → Replies (.sign ch) s ch 5) ∧
    (canSign s.dev = true → reqWord s.dev ch 8 4 = 64 → Replies (.sign ch) s ch 0) := by
  have hrun := sign_runs hgate hreq
  refine ⟨fun hsign => ?_, fun hsign hlen => ?_, fun hsign hlen => ?_⟩ <;> rw [hsign] at hrun
  · exact replies_answer hch hrun
  · rw [if_neg (by decide), if_pos hlen] at hrun
    exact replies_answer hch hrun
  · rw [if_neg (by decide), if_neg (fun hne => hne hlen)] at hrun
    exact replies_of_responded hrun (respond_responded _ _ hch)

theorem configStage_outcome {a n : Nat} {bs : List Byte} (hreq : Requested s.dev ch 3 2) (hgate : DriverFits s.dev ch)
    (himage : hostImage s.dev (fget s.dev mbxMapInitiator ch) a n = .ok bs) :
    (configImage bs = none → Replies (.configStage ch a n) s ch 10) ∧
    ∀ c, configImage bs = some c → (stageable s.dev c = false → Replies (.configStage ch a n) s ch 10) ∧
      (stageable s.dev c = true → s.dev.nv.banks.length = 2 → ∃ e, Runs (.configStage ch a n) s e ∧ Answered e ch 0 ∧
        bankImage e.nv (1 - fget s.dev cfgImageStatusBank 0) = some c ∧
        bankImage e.nv (fget s.dev cfgImageStatusBank 0) = bankImage s.dev.nv (fget s.dev cfgImageStatusBank 0) ∧
        (∀ l, liveConfig s.dev = some l → l.seq < c.seq) ∧ counterOf s.dev 1 ≤ c.seq ∧
        e.nv.counters = s.dev.nv.counters) := by
  have hrun := configStage_runs hreq hgate himage
  refine ⟨fun himg => ?_, fun c himg => ⟨fun hst => ?_, fun hst hbanks => ?_⟩⟩
  · rw [stageBytes_none himg] at hrun
    exact replies_answer hch hrun
  · rw [stageBytes_refused himg ((stageable_entered s.dev ch c).trans hst)] at hrun
    exact replies_answer hch hrun
  · rw [stageBytes_taken himg ((stageable_entered s.dev ch c).trans hst)] at hrun
    obtain ⟨habove, hfloor⟩ := above_of_stageable hst
    obtain ⟨hans, hnew, hlive, hcount⟩ := configStaged_banks (d := entered s.dev ch) c hch hbanks
    rw [fget_entered] at hnew hlive
    exact ⟨_, hrun, hans, hnew, hlive, habove, hfloor, hcount⟩

theorem counters_refused (hkeys : (keysOk s.dev && s.dev.nv.flashOk) = false) :
    (Requested s.dev ch 3 3 → DriverFits s.dev ch → Replies (.floorRaise ch) s ch 4) ∧
    (Requested s.dev ch 4 1 → Replies (.getChallenge ch) s ch 4) := by
  refine ⟨fun hreq hgate => ?_, fun hreq => ?_⟩
  · have hrun := floorRaise_runs hreq hgate
    rw [hkeys, Bool.not_false, if_pos rfl] at hrun
    exact replies_answer hch hrun
  · have hrun := getChallenge_runs hreq
    rw [hkeys, Bool.not_false, if_pos rfl] at hrun
    exact replies_answer hch hrun

theorem floorRaise_outcome (hkeys : (keysOk s.dev && s.dev.nv.flashOk) = true) (hlen : s.dev.nv.counters.length = 4)
    (hreq : Requested s.dev ch 3 3) (hgate : DriverFits s.dev ch) : ∃ e, Runs (.floorRaise ch) s e ∧ Answered e ch 0 ∧
      counterOf e 0 = max (counterOf s.dev 0) (fget s.dev mbxFwVersionSecVersion 0) ∧
      ∀ k, k ≠ 0 → counterOf e k = counterOf s.dev k := by
  have hrun := floorRaise_runs hreq hgate
  rw [hkeys, Bool.not_true, if_neg Bool.false_ne_true] at hrun
  obtain ⟨hans, hcount⟩ := floorRaised_counters hch ((entered_counters s.dev ch).symm ▸ hlen)
  simp only [fget_entered, counterOf_entered] at hcount
  exact ⟨_, hrun, hans, (hcount 0).trans (if_pos rfl), fun k hk => (hcount k).trans (if_neg hk)⟩

theorem getChallenge_outcome (hkeys : (keysOk s.dev && s.dev.nv.flashOk) = true) (hlen : s.dev.nv.counters.length = 4)
    (hreq : Requested s.dev ch 4 1) : ∃ e x, Runs (.getChallenge ch) s e ∧ Answered e ch 0 ∧
      counterOf e 3 = counterOf s.dev 3 + 1 ∧ (∀ k, k ≠ 3 → counterOf e k = counterOf s.dev k) ∧
      e.fw.challenge = some (x, counterOf s.dev 3 + 1) := by
  have hrun := getChallenge_runs hreq
  rw [hkeys, Bool.not_true, if_neg Bool.false_ne_true] at hrun
  obtain ⟨hans, hfresh, hcount⟩ := challenged_counters hch ((entered_counters s.dev ch).symm ▸ hlen)
  simp only [counterOf_entered] at hcount hfresh
  exact ⟨_, _, hrun, hans, (hcount 3).trans (if_pos rfl), fun k hk => (hcount k).trans (if_neg hk), hfresh⟩

theorem unlock_outcome (hreq : Requested s.dev ch 4 2) {level : Nat}
    (hlevel : unlockLevel s.dev (reqBytes s.dev ch 0 0xC0) = level) :
    (level = 0 → ∃ e, Runs (.unlock ch) s e ∧ Answered e ch 4 ∧
      e.fw = { s.dev.fw with challenge := none, running := servingComp ch, mpu := e.fw.mpu } ∧
      fget e cfgDebugLevel 0 = fget s.dev cfgDebugLevel 0) ∧
    (level ≠ 0 → ∃ e, Runs (.unlock ch) s e ∧ Answered e ch 0 ∧
      e.fw.challenge = none ∧ fget e cfgDebugLevel 0 = level ∧
      (level = 2 → e.fw.keysZeroed = true) ∧ (level ≠ 2 → e.fw.keysZeroed = s.dev.fw.keysZeroed)) := by
  have hrun := unlock_runs hreq
  have hlt : level < 4 := hlevel ▸ unlockLevel_lt s.dev _
  rw [hlevel] at hrun
  generalize byteWord (reqBytes s.dev ch 0 0xC0) 0x3C 4 % 256 = key at hrun
  refine ⟨fun hzero => ?_, fun hpos => ?_⟩
  · rw [hzero] at hrun
    obtain ⟨hans, hfw, hshown⟩ := unlockAt_zero (d := entered s.dev ch) (key := key) hch
    refine ⟨_, hrun, hans, ?_, hshown.trans (fget_entered ..)⟩
    rw [hfw]
    rfl
  · obtain ⟨hans, hfw, hshown⟩ := unlockAt_level (d := entered s.dev ch) key hch hpos hlt
    refine ⟨_, hrun, hans, ?_, hshown, fun h2 => ?_, fun h2 => ?_⟩ <;> rw [hfw]
    · exact if_pos h2
    · exact if_neg h2

end

/-- Settles O50, service by service. The results 4 and 5 where the manual names none are the model's choice; which compartment
serves a channel is entry 42 of the log, what a quote and a token hold entry 48. -/
theorem secureServicesKeepTheirRules : Obligations.SecureServicesKeepTheirRules := by
  intro s ch hch
  exact ⟨quote_outcome hch, fun hreq hgate => replies_of_responded (getCert_runs hgate hreq) (respond_responded _ _ hch),
    sign_outcome hch, fun _ _ _ => configStage_outcome hch, counters_refused hch,
    fun hkeys hlen => ⟨floorRaise_outcome hch hkeys hlen, getChallenge_outcome hch hkeys hlen⟩,
    fun hreq => unlock_outcome hch hreq rfl,
    fun q hholds hserves => ⟨_, clearPinned_runs q hholds hserves, clearUpTo_records q hch⟩⟩

end Sys2Proof.Machine
end
